-- ==== Sys2Proof/Word.lean ====
section
/-! DEFINITION. The word types of the CT-12 and the plainest arithmetic on them. -/

namespace Sys2Proof

/-- One byte of a frame, of drive data or of stored data. -/
abbrev Byte := BitVec 8

/-- A two-byte field (R184). -/
abbrev Word16 := BitVec 16

/-- A four-byte field (R184), a digest (R185). -/
abbrev Word32 := BitVec 32

/-- ceil(a / b), the rounding of 00_scope (Arithmetic). -/
def ceilDiv (a b : Nat) : Nat := (a + b - 1) / b

end Sys2Proof
end

