-- ==== Sys2Proof/Config.lean ====
section
/-! DEFINITION. The fixed figures of the part (00_scope, Capacities at a Glance; R165, R183). The part
leaves no value undefined, so there is no free value here. -/

namespace Sys2Proof.Config

/-- The part code of IDENTIFY (R183). -/
def partCode : Nat := 0x0C12

/-- The revision of IDENTIFY (R183). -/
def revision : Nat := 1

/-- Frames the request queue and the reply queue hold together (R175). -/
def linkSlots : Nat := 8

/-- The digest pages of the digest memory (R98). -/
def digestPages : Nat := 1024

/-- The chunk slots of a channel's window (R114). -/
def windowChunks : Nat := 64

/-- The bytes of one chunk slot: 32 blocks of 2048 bytes (R114). -/
def slotBytes : Nat := 65536

end Sys2Proof.Config
end

