-- ==== Sys2Proof/Syntax.lean ====
section
/-! DEFINITION. The commands of the CT-12, one constructor per row of the opcode table. Requests carry
the tag of their frame and the fields of their body as the frame carries them (raw codes and numbers:
R176 leaves codes and values that are out of range to the owner of the request). Reports carry what the
port tables say they carry. -/

namespace Sys2Proof

/-- A media class (R22, R43, R99). -/
inductive DiscClass
  | a | b
  deriving DecidableEq, Repr

/-- Where a drive's tray stands, as RESET_DONE reports it (R66). -/
inductive Tray
  | opened | shut
  deriving DecidableEq, Repr

/-- The engine condition a STATUS carries (R145). -/
inductive Condition
  | ready | fault
  deriving DecidableEq, Repr

/-- One amount per ink channel, in the order K, C, M, Y (R145, R148). -/
structure Drops where
  k : Nat
  c : Nat
  m : Nat
  y : Nat
  deriving DecidableEq, Repr

/-- The fields of a DEFINE JOB body, in the order of R22 (R25; log 5). -/
structure JobFields where
  hostRef : Word32
  kind : Byte
  image : Byte
  cls : Byte
  ordered : Word16
  priority : Byte
  maxSpeed : Byte
  verifyMode : Byte
  recoveredLimit : Byte
  rejectLimit : Byte
  template : Byte
  inkPolicy : Byte
  serialDigits : Byte
  firstSerial : Word32
  step : Byte
  deriving DecidableEq, Repr

/-- The fields a CHANGE JOB body may carry, each carried or not (R26, R184). -/
structure JobChange where
  hostRef : Option Word32
  kind : Option Byte
  image : Option Byte
  cls : Option Byte
  ordered : Option Word16
  priority : Option Byte
  maxSpeed : Option Byte
  verifyMode : Option Byte
  recoveredLimit : Option Byte
  rejectLimit : Option Byte
  template : Option Byte
  inkPolicy : Option Byte
  serialDigits : Option Byte
  firstSerial : Option Word32
  step : Option Byte
  deriving DecidableEq, Repr

/-- One per-bay entry of the class support setting (R165, R184). -/
structure SupportEntry where
  bay : Byte
  supportA : Byte
  supportB : Byte
  deriving DecidableEq, Repr

/-- The settings a CONFIGURE TOWER body may carry, in the order of R165, each carried or not. Times are
in seconds. -/
structure TowerFields where
  installed : Option Byte
  support : Option (List SupportEntry)
  spindleA : Option Byte
  spindleB : Option Byte
  outputCapacity : Option Byte
  binCapacity : Option Byte
  progressTimeout : Option Byte
  moveTimeout : Option Byte
  joinHold : Option Byte
  splitThreshold : Option Byte
  splitSetting : Option Byte
  surveyReserve : Option Byte
  autoRetire : Option Byte
  warning : Option Byte
  critical : Option Byte
  deriving DecidableEq, Repr

/-- The fields of a SET MEDIA ENTRY body, in the order of R94 (log 5). -/
structure MediaFields where
  entry : Byte
  mode : Byte
  maker : Word16
  verdict : Byte
  ceiling : Byte
  type : Word16
  mask : Word16
  deriving DecidableEq, Repr

/-- The fields of a DEFINE TEMPLATE body, in the order of R147. -/
structure TemplateFields where
  template : Byte
  inner : Byte
  outer : Byte
  quality : Byte
  covK : Word16
  covC : Word16
  covM : Word16
  covY : Word16
  deriving DecidableEq, Repr

/-- The commands: the 90 rows of spec/opcode_table.json, in the table's order. `tag` is the tag of a
request frame (R184); `op` and `read` number the operation a report answers (log 10). -/
inductive Instr
  | selectBegin
  | selectEnd (bytes : List Byte)
  | identify (tag : Byte)
  | configureTower (tag : Byte) (settings : TowerFields)
  | startTower (tag : Byte)
  | stopTowerNormal (tag : Byte)
  | stopTowerAbrupt (tag : Byte)
  | armRecover (tag : Byte)
  | spindleLoaded (tag spindle cls count : Byte)
  | outputEmptied (tag : Byte)
  | rejectBinEmptied (tag : Byte)
  | setAttention (tag : Byte) (enables : Word32) (mode : Byte)
  | readAttention (tag : Byte)
  | registerImage (tag : Byte) (address blocks : Word32) (cls : Byte)
  | surveyImage (tag image : Byte)
  | lookUpImage (tag image pageStart : Byte)
  | retireImage (tag image : Byte)
  | defineJob (tag : Byte) (fields : JobFields)
  | changeJob (tag job : Byte) (change : JobChange)
  | startJob (tag job : Byte)
  | pauseJob (tag job : Byte)
  | resumeJob (tag job : Byte)
  | cancelJob (tag job : Byte)
  | lookUpJob (tag job : Byte)
  | listJobs (tag start : Byte)
  | retireJob (tag job : Byte)
  | lookUpDisc (tag disc : Byte)
  | lookUpPlace (tag place : Byte)
  | listDiscs (tag start filter : Byte)
  | routeDisc (tag disc dest : Byte)
  | markDisc (tag disc : Byte)
  | removeDisc (tag disc : Byte)
  | retireDisc (tag disc : Byte)
  | lookUpBay (tag bay : Byte)
  | enableBay (tag bay : Byte)
  | disableBay (tag bay : Byte)
  | clearBayFault (tag bay : Byte)
  | setMediaEntry (tag : Byte) (fields : MediaFields)
  | clearMediaEntry (tag entry : Byte)
  | setDefaultMedia (tag verdict cap : Byte)
  | lookUpMediaEntry (tag entry : Byte)
  | defineTemplate (tag : Byte) (fields : TemplateFields)
  | lookUpTemplate (tag template : Byte)
  | cartridgeInstalled (tag channel : Byte) (level : Word32)
  | setInkChannel (tag channel : Byte) (floor : Option Word32) (dropVolume trim : Option Byte)
  | lookUpInk (tag template job : Byte)
  | clearPrinter (tag : Byte)
  | rstNLow
  | rstNRise
  | attnPulseEnd
  | doorOpen
  | doorClosed
  | gripped (op : Nat)
  | done (op : Nat)
  | missed (op : Nat)
  | double (op : Nat)
  | single (op : Nat)
  | stillDouble (op : Nat)
  | dropped (op : Nat)
  | interrupted (op : Nat)
  | jammed (op : Nat)
  | homed (op : Nat) (discHeld : Bool)
  | moveTimeout
  | loaded (bay : Fin 12)
  | loadError (bay : Fin 12)
  | identified (bay : Fin 12) (blank : Bool) (maker type : Word16) (cls : DiscClass) (capacity : Nat)
  | idError (bay : Fin 12)
  | ready (bay : Fin 12)
  | chunkAck (bay : Fin 12)
  | writeError (bay : Fin 12)
  | closed (bay : Fin 12)
  | closeError (bay : Fin 12)
  | segment (bay : Fin 12) (bytes : List Byte)
  | readError (bay : Fin 12)
  | opened (bay : Fin 12)
  | ejectError (bay : Fin 12)
  | resetDone (bay : Fin 12) (present : Bool) (tray : Tray)
  | resetFailed (bay : Fin 12)
  | watchdogExpiry (bay : Fin 12)
  | data (channel : Fin 4) (read : Nat) (bytes : List Byte)
  | storeError (channel : Fin 4) (read : Nat)
  | storeReadLimitExpiry (channel : Fin 4)
  | joinPeriodEnd (channel : Fin 4)
  | status (present : Bool) (condition : Condition) (temperature : Nat)
  | labelDone (drops : Drops) (temperature : Nat)
  | labelFailed (drops : Drops) (temperature : Nat)
  | temperature (temperature : Nat)
  | printerFault (drops : Drops)
  | labelLimitExpiry
  | queryLimitExpiry
  deriving DecidableEq, Repr

end Sys2Proof
end

