-- ==== Sys2Proof/WellFormed.lean ====
section
/-! DEFINITION. When a command's operands are values its sender can send: the ranges the port tables
give a report, and the largest body a frame can carry. Requests need no more than their field widths:
the owner answers for every value (R176). -/

namespace Sys2Proof

/-- *head temperature* is 0-127 degrees (R144). -/
def temperatureOk (t : Nat) : Bool := t ≤ 127

/-- *drops* per channel are 0-16,777,215 (R145). -/
def Drops.ok (d : Drops) : Bool :=
  d.k ≤ 16777215 && d.c ≤ 16777215 && d.m ≤ 16777215 && d.y ≤ 16777215

/-- Data comes in whole blocks of 2048 bytes (00_scope, Units). -/
def wholeBlocks (bytes : List Byte) : Bool := bytes.length % 2048 == 0

/-- One for a carried field of `n` bytes, none for a field not carried. -/
def carriedLength {α : Type} (n : Nat) (f : Option α) : Nat := if f.isSome then n else 0

/-- The bytes of a CONFIGURE TOWER body (R184). -/
def TowerFields.bodyLength (c : TowerFields) : Nat :=
  4 + carriedLength 1 c.installed + (match c.support with | some l => 1 + 3 * l.length | none => 0) +
    carriedLength 1 c.spindleA + carriedLength 1 c.spindleB + carriedLength 1 c.outputCapacity +
    carriedLength 1 c.binCapacity + carriedLength 1 c.progressTimeout + carriedLength 1 c.moveTimeout +
    carriedLength 1 c.joinHold + carriedLength 1 c.splitThreshold + carriedLength 1 c.splitSetting +
    carriedLength 1 c.surveyReserve + carriedLength 1 c.autoRetire + carriedLength 1 c.warning +
    carriedLength 1 c.critical

/-- The command is one its sender can send. -/
def Instr.wf : Instr → Bool
  | .configureTower _ c => c.bodyLength ≤ 252
  | .identified _ _ _ _ _ capacity => decide (capacity < 4294967296)
  | .segment _ bytes => wholeBlocks bytes
  | .data _ _ bytes => wholeBlocks bytes && decide (bytes.length ≤ Config.slotBytes)
  | .status _ _ t => temperatureOk t
  | .labelDone d t => d.ok && temperatureOk t
  | .labelFailed d t => d.ok && temperatureOk t
  | .temperature t => temperatureOk t
  | .printerFault d => d.ok
  | _ => true

end Sys2Proof
end

