-- ==== Sys2Proof/Machine/State.lean ====
section
/-! DEFINITION. The state of the CT-12: every record, list, counter, mode and pin the spec gives the
part, as plain data, and the values after a device reset. -/

namespace Sys2Proof.Machine

/-! ## Disc table (chapter 1) -/

/-- The stages of a disc record, in the order of R3. -/
inductive Stage
  | feeding | loading | identifying | waitingStream | recording | closing | verifying | awaitInk
  | printQueued | printing | outbound | rejectBound | hostHold | delivered | rejected
  deriving DecidableEq, Repr

/-- The part's judgement of a disc (R4). -/
inductive Verdict
  | pending | good | reject
  deriving DecidableEq, Repr

/-- The reasons of a REJECT, in the order of R5. -/
inductive Reason
  | notBlank | classMismatch | capacityShort | mediaRefused | recordFailed | stalled | verifyFailed
  | printFailed | doubleFeed | sourceError | cancelled | aborted | hostReject | removed | lost
  | extraDisc | bayFault
  deriving DecidableEq, Repr

/-- One of the 14 places (R42). -/
inductive Place
  | bay (b : Fin 12) | arm | printer
  deriving DecidableEq, Repr

/-- *media* of a disc record (R2, R89). -/
structure DiscMedia where
  maker : Word16
  type : Word16
  cls : DiscClass
  capacity : Nat
  entry : Option (Fin 16)
  deriving DecidableEq, Repr

/-- *verify* of a disc record (R2, R137). -/
structure VerifyCounts where
  checked : Nat
  recovered : Nat
  mismatched : Nat
  firstMismatch : Option Nat
  deriving DecidableEq, Repr

/-- A held disc record (R2). Jobs are numbered 1-16; `Fin 16` holds the number less 1. -/
structure Disc where
  stage : Stage
  verdict : Verdict
  reason : Option Reason
  job : Option (Fin 16)
  place : Option Place
  media : Option DiscMedia
  bay : Option (Fin 12)
  speed : Option Nat
  channel : Option (Fin 4)
  blocksWritten : Nat
  verify : Option VerifyCounts
  reservation : Option (Vector Nat 4)
  serial : Option Nat
  unlabelled : Bool
  /-- *eligible order*: the rank among waiting moves, lower is older (R7). -/
  eligible : Option Nat
  deriving DecidableEq, Repr

/-! ## Job table (chapter 2) -/

/-- *kind* of a job (R22). -/
inductive JobKind
  | burn | burnPrint | print
  deriving DecidableEq, Repr

/-- The nine states of a job, in the order of R23. -/
inductive JobState
  | defined | running | paused | held | failing | cancelling | done | failed | cancelled
  deriving DecidableEq, Repr

/-- *verify mode* (R22). -/
inductive VerifyMode
  | none | quick | full
  deriving DecidableEq, Repr

/-- *ink policy* (R22). -/
inductive InkPolicy
  | wait | unlabelled
  deriving DecidableEq, Repr

/-- *hold reasons* of a job (R24). -/
structure Holds where
  ink : Bool
  source : Bool
  imageNotReady : Bool
  deriving DecidableEq, Repr

/-- The serial fields of a job with *serial digits* above 0 (R22, R155). -/
structure Serials where
  first : Nat
  step : Nat
  issued : Nat
  next : Nat
  deriving DecidableEq, Repr

/-- A held job record (R22). Fields that do not apply to the kind are absent. -/
structure Job where
  hostRef : Word32
  kind : JobKind
  state : JobState
  image : Option (Fin 32)
  cls : DiscClass
  ordered : Nat
  priority : Nat
  maxSpeed : Nat
  verifyMode : Option VerifyMode
  recoveredLimit : Option Nat
  rejectLimit : Nat
  template : Option (Fin 8)
  inkPolicy : Option InkPolicy
  serialDigits : Option Nat
  /-- Present when *serial digits* is above 0. -/
  serials : Option Serials
  holds : Holds
  /-- *last pick order*: the rank among jobs, lower is older; stamped first at START JOB (R36). -/
  lastPick : Option Nat
  started : Nat
  delivered : Nat
  rejected : Nat
  failures : Nat
  active : Nat
  unlabelledDelivered : Nat
  deriving DecidableEq, Repr

/-! ## Handler unit (chapter 3) -/

/-- The two blank spindles (R43). -/
inductive SpindleId
  | a | b
  deriving DecidableEq, Repr

/-- A spindle's fields (R43). -/
structure Spindle where
  cls : DiscClass
  count : Nat
  empty : Bool
  wasted : Nat
  deriving DecidableEq, Repr

/-- A sink's fields (R45). -/
structure Sink where
  count : Nat
  capacity : Nat
  deriving DecidableEq, Repr

/-- Where a move takes its disc from (R47). -/
inductive Source
  | spindle (s : SpindleId) | place (p : Place)
  deriving DecidableEq, Repr

/-- Where a move takes its disc to (R47). -/
inductive Dest
  | bay (b : Fin 12) | printer | output | bin
  deriving DecidableEq, Repr

/-- *kind* of a move (R47). -/
inductive MoveKind
  | pick | transfer | deliver
  deriving DecidableEq, Repr

/-- How a pick stands with a double feed (R56, R57, R60): `separating` from the DOUBLE to the SEPARATE's
outcome, then `pairWaiting` while the pair waits at ARM for room in the REJECT BIN, and `pair` once its
DELIVER has been sent. -/
inductive Feed
  | single | separating | pairWaiting | pair
  deriving DecidableEq, Repr

/-- The current move of the arm (R47). -/
structure Move where
  kind : MoveKind
  record : Fin 24
  source : Source
  dest : Dest
  gripped : Bool
  missCount : Nat
  interrupted : Bool
  feed : Feed
  deriving DecidableEq, Repr

/-- The five states of the arm (R47). -/
inductive ArmState
  | idle | moving | separating | homing | halted
  deriving DecidableEq, Repr

/-- *halt cause* (R47). -/
inductive HaltCause
  | door | jam
  deriving DecidableEq, Repr

/-- Who asked for a HOME: the door's closing (R59), ARM RECOVER (R62) or the start sweep (R166). -/
inductive HomeFor
  | door | recover | sweep
  deriving DecidableEq, Repr

/-- The handler-port operations (R48). -/
inductive ArmOrder
  | pick (s : SpindleId) (d : Dest)
  | transfer (p : Place) (d : Dest)
  | deliver (d : Dest)
  | separate
  | home (why : HomeFor)
  deriving DecidableEq, Repr

/-- A handler-port operation in flight: its number in the order of sending, and the time at which its
move timeout expires (R50). -/
structure ArmOp where
  id : Nat
  order : ArmOrder
  deadline : Nat
  deriving DecidableEq, Repr

/-- The arm (R47), with the numbers that tell which operation a report answers (log 10). -/
structure Arm where
  state : ArmState
  move : Option Move
  halt : Option HaltCause
  op : Option ArmOp
  /-- An INTERRUPTED taken while the door is closed is held (R58). -/
  heldInterrupted : Bool
  /-- The operation the door's opening cut short; its GRIPPED and DONE are still applied (R58). -/
  cut : Option ArmOp
  /-- Numbers of operations whose reports are discarded: expired (R50), or cut by the door and followed by
  another operation (R58). -/
  stale : List Nat
  /-- Operations sent so far. -/
  opCount : Nat
  /-- Reports of operations numbered below it are discarded: they were sent before the last device reset
  (R173) or before the HOME of a door's closing (R58, R59). -/
  liveFrom : Nat
  deriving DecidableEq, Repr

/-- The occupants of the 14 places (R42). -/
structure Places where
  bays : Vector (Option (Fin 24)) 12
  arm : Option (Fin 24)
  printer : Option (Fin 24)
  deriving DecidableEq, Repr

/-- The pick request the pick selector offers to the move arbiter (R36). `dest` is a bay, or PRINTER. -/
structure Pick where
  job : Fin 16
  spindle : SpindleId
  dest : Dest
  deriving DecidableEq, Repr

/-! ## Bay controller (chapter 4) -/

/-- The 14 states of a bay, in the order of R65. -/
inductive BayState
  | offline | open_ | expecting | closingTray | querying | attaching | writing | finalizing
  | readingBack | holding | openingTray | presenting | resetting | faulted
  deriving DecidableEq, Repr

/-- *operation* of a bay record (R63). -/
inductive DriveOp
  | load | identify | write | close | read | eject | reset
  deriving DecidableEq, Repr

/-- *fault cause* of a bay record (R63). -/
inductive BayFault
  | repeatedFailures | resetFailed | untrackedDisc
  deriving DecidableEq, Repr

/-- A bay record (R63). *installed* and *occupant* are views (log 27). -/
structure Bay where
  state : BayState
  supportA : Option Nat
  supportB : Option Nat
  enabled : Bool
  disablePending : Bool
  operation : Option DriveOp
  deadline : Option Nat
  recovering : Bool
  consecutiveFailures : Nat
  loads : Nat
  goods : Nat
  failures : Nat
  channel : Option (Fin 4)
  faultCause : Option BayFault
  /-- The RESET in flight was sent by ENABLE BAY or CLEAR BAY FAULT (R79, R81, R83). -/
  service : Bool
  /-- The RESET in flight was sent under the abort order (R170). -/
  abortMark : Bool
  deriving DecidableEq, Repr

/-! ## Media table (chapter 5) -/

/-- *mode* of a media entry (R87). -/
inductive MatchMode
  | exact | maker | masked
  deriving DecidableEq, Repr

/-- *verdict* of a media entry, and the default verdict (R85, R86). -/
inductive MediaVerdict
  | accept | refuse
  deriving DecidableEq, Repr

/-- A recording outcome (R92). -/
inductive RecOutcome
  | good | fail
  deriving DecidableEq, Repr

/-- A defined media entry (R86). *type* and *mask* are present by *mode*. -/
structure MediaEntry where
  mode : MatchMode
  maker : Word16
  type : Option Word16
  mask : Option Word16
  verdict : MediaVerdict
  ceiling : Nat
  cap : Nat
  /-- *recent outcomes*, oldest first. -/
  recent : List RecOutcome
  burns : Nat
  fails : Nat
  deriving DecidableEq, Repr

/-! ## Image catalogue (chapter 6) -/

/-- The states of a held image record, in the order of R99. -/
inductive ImageState
  | registered | surveyWaiting | surveying | ready | faulted
  deriving DecidableEq, Repr

/-- Whose store failure faulted an image (R99). -/
inductive FaultOrigin
  | survey | stream
  deriving DecidableEq, Repr

/-- *fault* of an image record (R99). -/
structure ImageFault where
  origin : FaultOrigin
  chunk : Nat
  deriving DecidableEq, Repr

/-- A held image record (R99). -/
structure Image where
  state : ImageState
  storeAddress : Nat
  blocks : Nat
  cls : DiscClass
  chunks : Nat
  segments : Nat
  pages : List Nat
  attachCount : Nat
  surveyProgress : Nat
  referenceValid : Bool
  surveyChannel : Option (Fin 4)
  fault : Option ImageFault
  deriving DecidableEq, Repr

/-! ## Stream engine (chapter 7) -/

/-- A STORE READ in flight: its number in the order of sending (log 10), the chunk, the attempt 1-3, and
the time at which the store read limit expires (R107, R115, R117). -/
structure StoreRead where
  id : Nat
  chunk : Nat
  attempt : Nat
  deadline : Nat
  deriving DecidableEq, Repr

/-- A member of a recording stream (R115). *waiting* is a view. -/
structure Member where
  bay : Fin 12
  position : Nat
  driveReady : Bool
  deriving DecidableEq, Repr

/-- A stream record (R115). -/
structure Stream where
  image : Fin 32
  chunks : Nat
  resident : Bool
  catchUp : Bool
  joinPeriodEnd : Nat
  /-- The end of the join period has been taken (R120; log 29). -/
  joinOver : Bool
  head : Nat
  tail : Nat
  read : Option StoreRead
  members : List Member
  splitRequested : Bool
  deriving DecidableEq, Repr

/-- A survey on a channel: the image and its STORE READ in flight (R106, R129). -/
structure Survey where
  image : Fin 32
  read : StoreRead
  deriving DecidableEq, Repr

/-- *use* of a channel, with what it carries (R114). -/
inductive Channel
  | free
  | recording (s : Stream)
  | survey (s : Survey)
  deriving DecidableEq, Repr

/-- A waiting new-stream request (R122). -/
structure StreamReq where
  bay : Fin 12
  image : Fin 32
  deriving DecidableEq, Repr

/-! ## Verify unit (chapter 8) -/

/-- *plan* of a read-back context (R132). -/
inductive Plan
  | quick | full
  deriving DecidableEq, Repr

/-- *in hand* of a read-back context (R132). -/
structure InHand where
  segment : Nat
  attempt : Nat
  deriving DecidableEq, Repr

/-- A read-back context (R132). *next selected* is absent when it is DONE. -/
structure Context where
  record : Fin 24
  image : Fin 32
  plan : Plan
  nextSelected : Option Nat
  inHand : Option InHand
  readOutstanding : Bool
  awaitingReference : Bool
  deriving DecidableEq, Repr

/-! ## Label unit (chapter 9) -/

/-- The states of the printer station, in the order of R144. -/
inductive StationState
  | offline | empty | loaded | printing | finished | fault
  deriving DecidableEq, Repr

/-- *fault cause* of the station (R144). -/
inductive StationFault
  | engine | labelTimeout | queryTimeout | untrackedDisc
  deriving DecidableEq, Repr

/-- The printer station record (R144). *occupant* is a view of the place map. A LABEL is in flight while
`labelDeadline` is present, a QUERY while `queryDeadline` is (R145). -/
structure Station where
  state : StationState
  headTemperature : Nat
  /-- *gate* is OPEN. -/
  gateOpen : Bool
  warning : Nat
  critical : Nat
  faultCause : Option StationFault
  labelDeadline : Option Nat
  queryDeadline : Option Nat
  deriving DecidableEq, Repr

/-- *quality* of a template (R147). -/
inductive Quality
  | draft | normal | fine
  deriving DecidableEq, Repr

/-- A defined label template (R147). -/
structure Template where
  inner : Nat
  outer : Nat
  quality : Quality
  /-- *coverage* of K, C, M, Y in permille. -/
  coverage : Vector Nat 4
  users : Nat
  deriving DecidableEq, Repr

/-- An ink channel (R148). *low* and *empty* are views. -/
structure InkChannel where
  level : Nat
  floor : Nat
  reserved : Nat
  dropVolume : Nat
  trim : Int
  deriving DecidableEq, Repr

/-! ## Tower control (chapter 10) -/

/-- The seven tower states, in the order of chapter 10's table. -/
inductive TowerState
  | stopped | starting | running | stopping | paused | halted | aborting
  deriving DecidableEq, Repr

/-- *resume state* (R164). -/
inductive Resume
  | starting | running | stopping
  deriving DecidableEq, Repr

/-- The start sweep's progress (R166, R168): the pending marks, and what is still to be sent. -/
structure Sweep where
  armMark : Bool
  printerMark : Bool
  /-- The QUERY is to be sent at the final report of the label in flight. -/
  queryOwed : Bool
  bayMarks : Vector Bool 12
  /-- The RESET is to be sent at the final report of the bay's operation in flight. -/
  resetOwed : Vector Bool 12
  deriving DecidableEq, Repr

/-- Tower control's record and the stored configuration (R164, R165). Times in ms. -/
structure Tower where
  state : TowerState
  resume : Option Resume
  sweep : Option Sweep
  installed : Nat
  progressTimeout : Nat
  moveTimeout : Nat
  joinHold : Nat
  splitThreshold : Nat
  splitOn : Bool
  surveyReserve : Bool
  autoRetire : Bool
  deriving DecidableEq, Repr

/-! ## Link unit (chapter 11) -/

/-- *attention mode* (R180). -/
inductive AttnMode
  | level | pulse
  deriving DecidableEq, Repr

/-- The attention flags, their enables and mode, and the end of a PULSE in progress (R180, R181). -/
structure Attention where
  flags : BitVec 19
  enables : BitVec 19
  mode : AttnMode
  pulseEnd : Option Nat
  deriving DecidableEq, Repr

/-- A select in progress: the output chosen at its beginning (empty for a presence byte of 00h), and
whether it is to be discarded because it was in progress at the rise of RST_N (R174, R178). -/
structure Select where
  output : List Byte
  discard : Bool
  deriving DecidableEq, Repr

/-- The link unit's queues and pins (R174, R175, R173). -/
structure Link where
  requests : List (List Byte)
  replies : List (List Byte)
  select : Option Select
  /-- RST_N is held low (R173). -/
  resetLow : Bool
  deriving DecidableEq, Repr

/-! ## What the part sends on its equipment ports (log 26) -/

/-- An operation sent to a drive (R66). -/
inductive DriveOrder
  | load | identify | write (speed blocks : Nat) | close | read (segment : Nat) | eject | reset | abort
  deriving DecidableEq, Repr

/-- What a LABEL carries (R145). -/
structure LabelOrder where
  inner : Nat
  outer : Nat
  quality : Quality
  coverage : Vector Nat 4
  /-- The job number, 1-16. -/
  job : Nat
  /-- The serial as decimal digits with leading zeros, or no serial. -/
  serial : Option (List Nat)
  deriving DecidableEq, Repr

/-- One operation sent on an equipment port. -/
inductive Sent
  /-- An operation on the handler port (R48). -/
  | arm (order : ArmOrder)
  /-- The handler port's stop, asserted at a device reset (R173). -/
  | armStop
  /-- An operation on a bay port (R66). -/
  | drive (bay : Fin 12) (order : DriveOrder)
  /-- A chunk sent from a channel's window to a drive: `blocks` blocks of chunk `chunk`, from the buffer
  address `address` on (R118). -/
  | chunk (bay : Fin 12) (channel : Fin 4) (chunk address blocks : Nat)
  /-- A STORE READ: the store block of its first block and its block count (R106, R117). -/
  | storeRead (channel : Fin 4) (block blocks : Nat)
  /-- A QUERY on the printer port (R145). -/
  | query
  /-- A LABEL on the printer port (R145, R155). -/
  | label (order : LabelOrder)
  deriving DecidableEq, Repr

/-! ## The whole -/

/-- The records of the blocks: everything but the link's queues and the addressed memories. -/
structure Part where
  /-- The 1 ms time base (R173). -/
  now : Nat
  /-- The DOOR pin reports the door open (R58). -/
  doorOpen : Bool
  attn : Attention
  discs : Vector (Option Disc) 24
  /-- A held spell of the record reserve is in progress (R9). -/
  heldSpell : Bool
  jobs : Vector (Option Job) 16
  offered : Option Pick
  places : Places
  spindleA : Spindle
  spindleB : Spindle
  output : Sink
  bin : Sink
  arm : Arm
  bays : Vector Bay 12
  media : Vector (Option MediaEntry) 16
  defaultVerdict : MediaVerdict
  defaultCap : Nat
  images : Vector (Option Image) 32
  /-- The ranking of waiting survey requests, oldest first (R105). -/
  surveyQueue : List (Fin 32)
  channels : Vector Channel 4
  /-- Waiting new-stream requests, oldest first (R122). -/
  streamReqs : List StreamReq
  /-- Channels whose streams have a split request waiting, oldest first (R123). -/
  splitReqs : List (Fin 4)
  /-- STORE READs sent so far (log 10). -/
  readCount : Nat
  contexts : Vector (Option Context) 12
  station : Station
  templates : Vector (Option Template) 8
  ink : Vector InkChannel 4
  /-- The ink-wait list, oldest first (R151). -/
  inkWait : List (Fin 24)
  /-- The print queue, head first (R153). -/
  printQueue : List (Fin 24)
  /-- The short set (R160). -/
  shortSet : List (Fin 16)
  tower : Tower
  /-- What the last event sent on the equipment ports, in order (log 26). -/
  sent : List Sent
  deriving DecidableEq, Repr

/-- The two addressed memories: the SDRAM stream buffer (R114) and the digest memory (R98). Each lists
its non-zero contents, addresses strictly rising (log 13). -/
structure Memory where
  buffer : List Host.Cell
  digests : List (Nat × Word32)
  deriving DecidableEq, Repr

/-- The machine: the queue of waiting commands, the link, the memories and the part's records. -/
structure State where
  pending : List Instr
  link : Link
  memory : Memory
  part : Part
  deriving DecidableEq, Repr

/-- Why a step could stop the machine: the part stops in no fault (INVENTORY.md, Faults), so there is
none. -/
inductive Fault
  deriving DecidableEq, Repr

/-- Why a command could be refused by the model. -/
inductive Refusal
  /-- The command has no meaning yet. Raised by Dispatch alone; safe: the machine stops. -/
  | notModelled (mnemonic : String)
  deriving DecidableEq, Repr

/-! ## After a device reset (R173 and the rules its table cites) -/

/-- A bay after a device reset (R63, R165). -/
def Bay.reset : Bay :=
  { state := .offline, supportA := some 16, supportB := some 16, enabled := false,
    disablePending := false, operation := none, deadline := none, recovering := false,
    consecutiveFailures := 0, loads := 0, goods := 0, failures := 0, channel := none,
    faultCause := none, service := false, abortMark := false }

/-- The tower record after a device reset (R164, R165). -/
def Tower.reset : Tower :=
  { state := .stopped, resume := none, sweep := none, installed := 12, progressTimeout := 10000,
    moveTimeout := 8000, joinHold := 5000, splitThreshold := 32, splitOn := true,
    surveyReserve := false, autoRetire := false }

/-- The printer station after a device reset (R144). -/
def Station.reset : Station :=
  { state := .offline, headTemperature := 0, gateOpen := true, warning := 55, critical := 65,
    faultCause := none, labelDeadline := none, queryDeadline := none }

/-- The attention record after a device reset: RESET_OCCURRED (bit 0) alone, every enable on (R180). -/
def Attention.reset : Attention :=
  { flags := 1#19, enables := BitVec.allOnes 19, mode := .level, pulseEnd := none }

/-- The arm after a device reset (R47); the number of operations sent goes on (log 10). -/
def Arm.reset (opCount : Nat) : Arm :=
  { state := .idle, move := none, halt := none, op := none, heldInterrupted := false, cut := none,
    stale := [], opCount := opCount, liveFrom := opCount }

/-- The part's records after a device reset, before DOOR is sampled (R173). What the reset does not set
comes in: the DOOR pin and the numbers of operations and STORE READs sent. -/
def Part.reset (doorOpen : Bool) (opCount readCount : Nat) : Part :=
  { now := 0, doorOpen := doorOpen, attn := Attention.reset, discs := Vector.replicate 24 none,
    heldSpell := false, jobs := Vector.replicate 16 none, offered := none,
    places := { bays := Vector.replicate 12 none, arm := none, printer := none },
    spindleA := { cls := .a, count := 0, empty := true, wasted := 0 },
    spindleB := { cls := .b, count := 0, empty := true, wasted := 0 },
    output := { count := 0, capacity := 100 }, bin := { count := 0, capacity := 50 },
    arm := Arm.reset opCount, bays := Vector.replicate 12 Bay.reset,
    media := Vector.replicate 16 none, defaultVerdict := .refuse, defaultCap := 1,
    images := Vector.replicate 32 none, surveyQueue := [], channels := Vector.replicate 4 .free,
    streamReqs := [], splitReqs := [], readCount := readCount, contexts := Vector.replicate 12 none,
    station := Station.reset, templates := Vector.replicate 8 none,
    ink := Vector.replicate 4
      { level := 0, floor := 500000, reserved := 0, dropVolume := 8, trim := 0 },
    inkWait := [], printQueue := [], shortSet := [], tower := Tower.reset, sent := [] }

/-- The link right after the rise of RST_N: both queues empty, no select in progress (R175). -/
def Link.reset : Link := { requests := [], replies := [], select := none, resetLow := false }

/-- The machine right after a device reset at power-up, with the door closed (R173; logs 13, 24). -/
def State.reset : State :=
  { pending := [], link := Link.reset, memory := { buffer := [], digests := [] },
    part := Part.reset false 0 0 }

end Sys2Proof.Machine
end

