-- ==== Sys2Proof/Machine/Operands.lean ====
section
/-! DEFINITION. The operand forms of requests and the forms of reply fields: identifiers, named values and
their codes, clamping, and fields as bytes (R176, R179, R184; logs 6 to 9). -/

namespace Sys2Proof.Machine

/-! ## Identifiers in requests -/

/-- An identifier numbered from 0: absent when it is outside what the part has. -/
def idx (n : Nat) (b : Byte) : Option (Fin n) :=
  if h : b.toNat < n then some ⟨b.toNat, h⟩ else none

/-- A job number 1-16 (R21); 0 and numbers above 16 name no job. -/
def jobIdx (b : Byte) : Option (Fin 16) :=
  if b.toNat = 0 then none else
    if h : b.toNat - 1 < 16 then some ⟨b.toNat - 1, h⟩ else none

/-- The number of a job, 1-16. -/
def jobNumber (j : Fin 16) : Nat := j.val + 1

/-! ## Named values in requests: the code of R184's tables where they give one, else the position -/

/-- A class: A 00h, B 01h. -/
def classOf (b : Byte) : Option DiscClass :=
  if b = 0 then some .a else if b = 1 then some .b else none

/-- A job kind: BURN 01h, BURN_PRINT 02h, PRINT 03h (R184). -/
def kindOf (b : Byte) : Option JobKind :=
  if b = 1 then some .burn else if b = 2 then some .burnPrint else if b = 3 then some .print else none

/-- A verify mode: NONE 00h, QUICK 01h, FULL 02h. -/
def verifyModeOf (b : Byte) : Option VerifyMode :=
  if b = 0 then some .none else if b = 1 then some .quick else if b = 2 then some .full else none

/-- An ink policy: WAIT 00h, UNLABELLED 01h. -/
def inkPolicyOf (b : Byte) : Option InkPolicy :=
  if b = 0 then some .wait else if b = 1 then some .unlabelled else none

/-- A spindle: SPINDLE A 00h, SPINDLE B 01h (log 7). -/
def spindleOf (b : Byte) : Option SpindleId :=
  if b = 0 then some .a else if b = 1 then some .b else none

/-- A media entry's mode: EXACT 00h, MAKER 01h, MASKED 02h. -/
def matchModeOf (b : Byte) : Option MatchMode :=
  if b = 0 then some .exact else if b = 1 then some .maker else if b = 2 then some .masked else none

/-- A media verdict: ACCEPT 00h, REFUSE 01h. -/
def mediaVerdictOf (b : Byte) : Option MediaVerdict :=
  if b = 0 then some .accept else if b = 1 then some .refuse else none

/-- A label quality: DRAFT 00h, NORMAL 01h, FINE 02h. -/
def qualityOf (b : Byte) : Option Quality :=
  if b = 0 then some .draft else if b = 1 then some .normal else if b = 2 then some .fine else none

/-- An on/off setting takes its code from its place in the list "On, off": On 00h, off 01h (R165, R184;
log 7). -/
def onOffOf (b : Byte) : Option Bool :=
  if b = 0 then some true else if b = 1 then some false else none

/-- The byte of an on/off setting: On 00h, off 01h (R165, R184; log 7). -/
def onOffByte (on : Bool) : List Byte := if on then [0] else [1]

/-- An attention mode: LEVEL 00h, PULSE 01h (R182). -/
def attnModeOf (b : Byte) : Option AttnMode :=
  if b = 0 then some .level else if b = 1 then some .pulse else none

/-- A destination of ROUTE DISC: OUTPUT 00h, REJECT 01h; true for OUTPUT. -/
def routeOf (b : Byte) : Option Bool :=
  if b = 0 then some true else if b = 1 then some false else none

/-- What LOOK UP PLACE can name (R16, R184). -/
inductive PlaceName
  | place (p : Place) | spindle (s : SpindleId) | output | bin
  deriving DecidableEq, Repr

/-- A place or sink identifier of LOOK UP PLACE: 00h-11h (R184). -/
def placeNameOf (b : Byte) : Option PlaceName :=
  if h : b.toNat < 12 then some (.place (.bay ⟨b.toNat, h⟩)) else
  if b = 0x0C then some (.place .arm) else if b = 0x0D then some (.place .printer) else
  if b = 0x0E then some (.spindle .a) else if b = 0x0F then some (.spindle .b) else
  if b = 0x10 then some .output else if b = 0x11 then some .bin else none

/-! ## Clamping -/

/-- The nearest value of the range lo to hi (00_scope, Clamping). -/
def clamp (lo hi n : Nat) : Nat := if n < lo then lo else if hi < n then hi else n

/-- The nearest value of a signed range. -/
def clampInt (lo hi n : Int) : Int := if n < lo then lo else if hi < n then hi else n

/-! ## Statuses (R179) -/

/-- The status codes. -/
inductive Status
  | ok | accepted | clamped | notFound | badState | busy | noRoom | inUse | outOfRange | malformed
  | unknown
  deriving DecidableEq, Repr

/-- The code of a status (R179). -/
def Status.code : Status → Byte
  | .ok => 0x00 | .accepted => 0x01 | .clamped => 0x02 | .notFound => 0x10 | .badState => 0x11
  | .busy => 0x12 | .noRoom => 0x13 | .inUse => 0x14 | .outOfRange => 0x15 | .malformed => 0x20
  | .unknown => 0x21

/-- What an owner answers: a status and a result body (R179). -/
structure Answer where
  status : Status
  body : List Byte
  deriving DecidableEq, Repr

/-- A refusal carries an empty body (R179). -/
def refuse (s : Status) : Answer := { status := s, body := [] }

/-- OK with an empty body. -/
def okay : Answer := { status := .ok, body := [] }

/-- ACCEPTED with an empty body. -/
def accepted : Answer := { status := .accepted, body := [] }

/-- OK with one body, or CLAMPED with another when a value was clamped (R179). -/
def okOrClamped (changed : Bool) (okBody usedBody : List Byte) : Answer :=
  if changed then { status := .clamped, body := usedBody } else { status := .ok, body := okBody }

/-! ## Fields as bytes (R184): least significant byte first -/

/-- A field of `w` bytes. -/
def le : Nat → Nat → List Byte
  | 0, _ => []
  | w + 1, n => BitVec.ofNat 8 n :: le w (n / 256)

/-- The number `bytes` spell, least significant first. -/
def unle : List Byte → Nat
  | [] => 0
  | b :: bs => b.toNat + 256 * unle bs

/-- A one-byte field. -/
def u8 (n : Nat) : List Byte := le 1 n

/-- A two-byte field. -/
def u16 (n : Nat) : List Byte := le 2 n

/-- A four-byte field. -/
def u32 (n : Nat) : List Byte := le 4 n

/-- A flag: 00h clear, 01h set. -/
def flagByte (b : Bool) : List Byte := u8 (if b then 1 else 0)

/-- An optional one-byte field: FFh when absent. -/
def opt8 (n : Option Nat) : List Byte := u8 (n.getD 0xFF)

/-- An optional two-byte field: FFFFh when absent. -/
def opt16 (n : Option Nat) : List Byte := u16 (n.getD 0xFFFF)

/-- An optional four-byte field: FFFFFFFFh when absent. -/
def opt32 (n : Option Nat) : List Byte := u32 (n.getD 0xFFFFFFFF)

/-- A list: a one-byte count, then the items. -/
def listBytes {α : Type} (item : α → List Byte) (l : List α) : List Byte :=
  u8 l.length ++ l.flatMap item

/-- A presence word: bit i is set when the i-th field is carried (R184; log 6). -/
def presence {α : Type} : List (Option α) → Nat
  | [] => 0
  | f :: fs => (if f.isSome then 1 else 0) + 2 * presence fs

/-- A body that carries a subset of its fields: the presence word, then the carried fields alone, in order
(R184; log 6). -/
def subsetBody (fields : List (Option (List Byte))) : List Byte :=
  u32 (presence fields) ++ fields.flatMap (·.getD [])

/-- The same where the request also names its record: the presence word, the name, then the carried fields
(R184; log 6). -/
def namedSubsetBody (name : Byte) (fields : List (Option (List Byte))) : List Byte :=
  u32 (presence fields) ++ name :: fields.flatMap (·.getD [])

/-- A job field: the job number, 00h for no job (R21; log 8). -/
def jobByte (j : Option (Fin 16)) : List Byte :=
  u8 (match j with | some j => jobNumber j | none => 0)

/-- The four amounts of a per-channel quantity, each four bytes. -/
def inkBytes (v : Vector Nat 4) : List Byte := u32 v[0] ++ u32 v[1] ++ u32 v[2] ++ u32 v[3]

/-! ## Codes of named values in replies (R184) -/

/-- *stage*: 01h-0Fh. -/
def Stage.code : Stage → Nat
  | .feeding => 1 | .loading => 2 | .identifying => 3 | .waitingStream => 4 | .recording => 5
  | .closing => 6 | .verifying => 7 | .awaitInk => 8 | .printQueued => 9 | .printing => 10
  | .outbound => 11 | .rejectBound => 12 | .hostHold => 13 | .delivered => 14 | .rejected => 15

/-- *verdict*: 00h-02h. -/
def Verdict.code : Verdict → Nat
  | .pending => 0 | .good => 1 | .reject => 2

/-- *reason*: 01h-11h. -/
def Reason.code : Reason → Nat
  | .notBlank => 1 | .classMismatch => 2 | .capacityShort => 3 | .mediaRefused => 4
  | .recordFailed => 5 | .stalled => 6 | .verifyFailed => 7 | .printFailed => 8 | .doubleFeed => 9
  | .sourceError => 10 | .cancelled => 11 | .aborted => 12 | .hostReject => 13 | .removed => 14
  | .lost => 15 | .extraDisc => 16 | .bayFault => 17

/-- *place*: 00h-0Dh. -/
def Place.code : Place → Nat
  | .bay b => b.val | .arm => 0x0C | .printer => 0x0D

/-- A class: A 00h, B 01h. -/
def classCode : DiscClass → Nat
  | .a => 0 | .b => 1

/-- *kind* of a job: 01h-03h. -/
def JobKind.code : JobKind → Nat
  | .burn => 1 | .burnPrint => 2 | .print => 3

/-- Job *state*: 01h-09h. -/
def JobState.code : JobState → Nat
  | .defined => 1 | .running => 2 | .paused => 3 | .held => 4 | .failing => 5 | .cancelling => 6
  | .done => 7 | .failed => 8 | .cancelled => 9

/-- *verify mode*, by position. -/
def VerifyMode.code : VerifyMode → Nat
  | .none => 0 | .quick => 1 | .full => 2

/-- *ink policy*, by position. -/
def InkPolicy.code : InkPolicy → Nat
  | .wait => 0 | .unlabelled => 1

/-- *hold reasons*: bit 0 INK, bit 1 SOURCE, bit 2 IMAGE_NOT_READY (R184). -/
def Holds.code (h : Holds) : Nat :=
  (if h.ink then 1 else 0) + (if h.source then 2 else 0) + (if h.imageNotReady then 4 else 0)

/-- Bay *state*, by position in R65. -/
def BayState.code : BayState → Nat
  | .offline => 0 | .open_ => 1 | .expecting => 2 | .closingTray => 3 | .querying => 4
  | .attaching => 5 | .writing => 6 | .finalizing => 7 | .readingBack => 8 | .holding => 9
  | .openingTray => 10 | .presenting => 11 | .resetting => 12 | .faulted => 13

/-- Bay *operation*, by position in R63. -/
def DriveOp.code : DriveOp → Nat
  | .load => 0 | .identify => 1 | .write => 2 | .close => 3 | .read => 4 | .eject => 5 | .reset => 6

/-- Bay *fault cause*, by position in R63. -/
def BayFault.code : BayFault → Nat
  | .repeatedFailures => 0 | .resetFailed => 1 | .untrackedDisc => 2

/-- *mode* of a media entry, by position. -/
def MatchMode.code : MatchMode → Nat
  | .exact => 0 | .maker => 1 | .masked => 2

/-- A media verdict, by position. -/
def MediaVerdict.code : MediaVerdict → Nat
  | .accept => 0 | .refuse => 1

/-- An item of *recent outcomes*, by position. -/
def RecOutcome.code : RecOutcome → Nat
  | .good => 0 | .fail => 1

/-- Image *state*, by position in R99. -/
def ImageState.code : ImageState → Nat
  | .registered => 0 | .surveyWaiting => 1 | .surveying => 2 | .ready => 3 | .faulted => 4

/-- *origin* of an image's fault, by position. -/
def FaultOrigin.code : FaultOrigin → Nat
  | .survey => 0 | .stream => 1

/-- Station *state*, by position in R144. -/
def StationState.code : StationState → Nat
  | .offline => 0 | .empty => 1 | .loaded => 2 | .printing => 3 | .finished => 4 | .fault => 5

/-- Station *fault cause*, by position in R144. -/
def StationFault.code : StationFault → Nat
  | .engine => 0 | .labelTimeout => 1 | .queryTimeout => 2 | .untrackedDisc => 3

/-- *quality*, by position. -/
def Quality.code : Quality → Nat
  | .draft => 0 | .normal => 1 | .fine => 2

/-- The tower state, by position in chapter 10's table. -/
def TowerState.code : TowerState → Nat
  | .stopped => 0 | .starting => 1 | .running => 2 | .stopping => 3 | .paused => 4 | .halted => 5
  | .aborting => 6

/-- *resume state*, by position in R164 (log 7). -/
def Resume.code : Resume → Nat
  | .starting => 0 | .running => 1 | .stopping => 2

/-- *attention mode*, by position. -/
def AttnMode.code : AttnMode → Nat
  | .level => 0 | .pulse => 1

/-! ## Properties of named values -/

/-- FEEDING through HOST_HOLD (R3). -/
def Stage.active : Stage → Bool
  | .delivered => false | .rejected => false | _ => true

/-- The three fate reasons (R4). -/
def Reason.fate : Reason → Bool
  | .lost => true | .removed => true | .bayFault => true | _ => false

/-- The limit column of R5. -/
def Reason.counts : Reason → Bool
  | .notBlank => true | .classMismatch => true | .capacityShort => true | .mediaRefused => true
  | .recordFailed => true | .stalled => true | .verifyFailed => true | .printFailed => true
  | .doubleFeed => true
  | .sourceError => false | .cancelled => false | .aborted => false | .hostReject => false
  | .removed => false | .lost => false | .extraDisc => false | .bayFault => false

/-- DONE, FAILED or CANCELLED (R23). -/
def JobState.ended : JobState → Bool
  | .done => true | .failed => true | .cancelled => true | _ => false

/-- RUNNING, PAUSED, HELD, FAILING or CANCELLING: started and not ended (R24). -/
def JobState.started : JobState → Bool
  | .running => true | .paused => true | .held => true | .failing => true | .cancelling => true
  | .defined => false | .done => false | .failed => false | .cancelled => false

/-- The tower state the resume state stands for (R164). -/
def Resume.state : Resume → TowerState
  | .starting => .starting | .running => .running | .stopping => .stopping

end Sys2Proof.Machine
end

