-- ==== Sys2Proof/Decode.lean ====
section
/-! DEFINITION. The request frames of the host link: reading a frame into a command and writing a command as
a frame (R174, R176, R179, R184). The opcode table gives its rows no bits, so no word spells a command. -/

namespace Sys2Proof

/-- The command a word spells by the opcode table's bits: the table gives no row any bits. -/
def decodeTableWord (_nbits _w : Nat) : Option Instr := none

open Machine

/-! ## Fields of several bytes, least significant byte first (R184) -/

/-- A two-byte field from its bytes. -/
def word16 (b0 b1 : Byte) : Word16 := b1 ++ b0

/-- A four-byte field from its bytes. -/
def word32 (b0 b1 b2 b3 : Byte) : Word32 := word16 b2 b3 ++ word16 b0 b1

/-- The bytes of a two-byte field. -/
def bytes16 (w : Word16) : List Byte := [w.extractLsb' 0 8, w.extractLsb' 8 8]

/-- The bytes of a four-byte field. -/
def bytes32 (w : Word32) : List Byte :=
  [w.extractLsb' 0 8, w.extractLsb' 8 8, w.extractLsb' 16 8, w.extractLsb' 24 8]

/-! ## Bodies that carry a subset of their fields (R184; log 6) -/

/-- How long a carried field is: a fixed number of bytes, or a count and that many three-byte entries (the
class support of CONFIGURE TOWER). -/
inductive Width
  | fixed (n : Nat) | entries
  deriving DecidableEq, Repr

/-- The length of a carried field at the head of `body`. -/
def Width.length (w : Width) (body : List Byte) : Nat :=
  match w, body with
  | .fixed n, _ => n
  | .entries, [] => 1
  | .entries, k :: _ => 1 + 3 * k.toNat

/-- Read the fields of a subset body: field i is carried when bit i of the presence word is set. The body
must end with its last carried field (R176, R184). -/
def readSubset : List Width → Nat → List Byte → Option (List (Option (List Byte)))
  | [], _, [] => some []
  | [], _, _ :: _ => none
  | w :: ws, word, body =>
    if word % 2 = 1 then
      let n := w.length body
      if n ≤ body.length then (readSubset ws (word / 2) (body.drop n)).map (some (body.take n) :: ·) else none
    else (readSubset ws (word / 2) body).map (none :: ·)

/-- Read a subset body: its presence word, then its fields. -/
def readSubsetBody (ws : List Width) (body : List Byte) : Option (List (Option (List Byte))) :=
  if 4 ≤ body.length then readSubset ws (unle (body.take 4)) (body.drop 4) else none

/-- A carried one-byte field. -/
def one (f : Option (List Byte)) : Option Byte :=
  match f with
  | some [b] => some b
  | _ => none

/-- A carried two-byte field. -/
def two (f : Option (List Byte)) : Option Word16 :=
  match f with
  | some [b0, b1] => some (word16 b0 b1)
  | _ => none

/-- A carried four-byte field. -/
def four (f : Option (List Byte)) : Option Word32 :=
  match f with
  | some [b0, b1, b2, b3] => some (word32 b0 b1 b2 b3)
  | _ => none

/-- The per-bay entries of a class support field (R184). -/
def entriesOf : List Byte → List SupportEntry
  | b :: x :: y :: rest => { bay := b, supportA := x, supportB := y } :: entriesOf rest
  | _ => []

/-- A carried class support field: its count, then its entries. -/
def support (f : Option (List Byte)) : Option (List SupportEntry) :=
  match f with
  | some (_ :: rest) => some (entriesOf rest)
  | _ => none

/-- A one-byte field as it is carried. -/
def carry1 (f : Option Byte) : Option (List Byte) := f.map fun b => [b]

/-- A two-byte field as it is carried. -/
def carry2 (f : Option Word16) : Option (List Byte) := f.map bytes16

/-- A four-byte field as it is carried. -/
def carry4 (f : Option Word32) : Option (List Byte) := f.map bytes32

/-- A class support field as it is carried. -/
def carryEntries (f : Option (List SupportEntry)) : Option (List Byte) :=
  f.map (listBytes fun e => [e.bay, e.supportA, e.supportB])

/-! ## CONFIGURE TOWER, CHANGE JOB, SET INK CHANNEL -/

/-- The field lengths of CONFIGURE TOWER, in the order of R165. -/
def towerWidths : List Width :=
  [.fixed 1, .entries, .fixed 1, .fixed 1, .fixed 1, .fixed 1, .fixed 1, .fixed 1, .fixed 1, .fixed 1,
    .fixed 1, .fixed 1, .fixed 1, .fixed 1, .fixed 1]

/-- The settings of a CONFIGURE TOWER body. -/
def towerFields : List (Option (List Byte)) → Option TowerFields
  | [a, b, c, d, e, f, g, h, i, j, k, l, m, n, o] =>
    some
      { installed := one a, support := support b, spindleA := one c, spindleB := one d
        outputCapacity := one e, binCapacity := one f, progressTimeout := one g, moveTimeout := one h
        joinHold := one i, splitThreshold := one j, splitSetting := one k, surveyReserve := one l
        autoRetire := one m, warning := one n, critical := one o }
  | _ => none

/-- A CONFIGURE TOWER body's fields. -/
def towerCarried (c : TowerFields) : List (Option (List Byte)) :=
  [carry1 c.installed, carryEntries c.support, carry1 c.spindleA, carry1 c.spindleB,
    carry1 c.outputCapacity, carry1 c.binCapacity, carry1 c.progressTimeout, carry1 c.moveTimeout,
    carry1 c.joinHold, carry1 c.splitThreshold, carry1 c.splitSetting, carry1 c.surveyReserve,
    carry1 c.autoRetire, carry1 c.warning, carry1 c.critical]

/-- The field lengths of CHANGE JOB, in the order of R22. -/
def jobWidths : List Width :=
  [.fixed 4, .fixed 1, .fixed 1, .fixed 1, .fixed 2, .fixed 1, .fixed 1, .fixed 1, .fixed 1, .fixed 1,
    .fixed 1, .fixed 1, .fixed 1, .fixed 4, .fixed 1]

/-- The fields of a CHANGE JOB body. -/
def jobChange : List (Option (List Byte)) → Option JobChange
  | [a, b, c, d, e, f, g, h, i, j, k, l, m, n, o] =>
    some
      { hostRef := four a, kind := one b, image := one c, cls := one d, ordered := two e, priority := one f
        maxSpeed := one g, verifyMode := one h, recoveredLimit := one i, rejectLimit := one j
        template := one k, inkPolicy := one l, serialDigits := one m, firstSerial := four n, step := one o }
  | _ => none

/-- A CHANGE JOB body's fields. -/
def jobCarried (c : JobChange) : List (Option (List Byte)) :=
  [carry4 c.hostRef, carry1 c.kind, carry1 c.image, carry1 c.cls, carry2 c.ordered, carry1 c.priority,
    carry1 c.maxSpeed, carry1 c.verifyMode, carry1 c.recoveredLimit, carry1 c.rejectLimit,
    carry1 c.template, carry1 c.inkPolicy, carry1 c.serialDigits, carry4 c.firstSerial, carry1 c.step]

/-- The field lengths of SET INK CHANNEL (R161). -/
def inkWidths : List Width := [.fixed 4, .fixed 1, .fixed 1]

/-! ## Reading a frame -/

/-- What the link unit's tests make of a frame (R176). -/
inductive FrameRead
  /-- A request, to be executed by its owner. -/
  | request (i : Instr)
  /-- Answered MALFORMED. -/
  | malformed
  /-- Answered UNKNOWN. -/
  | unknown
  /-- A STOP TOWER of a mode that is neither NORMAL nor ABRUPT: refused OUT_OF_RANGE (R169, R176). -/
  | badMode
  deriving DecidableEq, Repr

/-- A request when its body fits, else MALFORMED. -/
def orMalformed (i : Option Instr) : FrameRead :=
  match i with
  | some i => .request i
  | none => .malformed

/-- A body of no bytes. -/
def body0 (i : Instr) : List Byte → FrameRead
  | [] => .request i
  | _ => .malformed

/-- A body of one byte. -/
def body1 (f : Byte → Instr) : List Byte → FrameRead
  | [a] => .request (f a)
  | _ => .malformed

/-- A body of two bytes. -/
def body2 (f : Byte → Byte → Instr) : List Byte → FrameRead
  | [a, b] => .request (f a b)
  | _ => .malformed

/-- A body of three bytes. -/
def body3 (f : Byte → Byte → Byte → Instr) : List Byte → FrameRead
  | [a, b, c] => .request (f a b c)
  | _ => .malformed

/-- The body of STOP TOWER: its mode (R169). -/
def bodyStop (tag : Byte) : List Byte → FrameRead
  | [m] => if m = 0 then .request (.stopTowerNormal tag) else if m = 1 then .request (.stopTowerAbrupt tag)
    else .badMode
  | _ => .malformed

/-- The body of CONFIGURE TOWER. -/
def bodyConfigure (tag : Byte) (b : List Byte) : FrameRead :=
  orMalformed (((readSubsetBody towerWidths b).bind towerFields).map (.configureTower tag))

/-- The body of SET ATTENTION (R182). -/
def bodySetAttention (tag : Byte) : List Byte → FrameRead
  | [a, b, c, d, m] => .request (.setAttention tag (word32 a b c d) m)
  | _ => .malformed

/-- The body of REGISTER IMAGE (R102). -/
def bodyRegister (tag : Byte) : List Byte → FrameRead
  | [a, b, c, d, e, f, g, h, k] => .request (.registerImage tag (word32 a b c d) (word32 e f g h) k)
  | _ => .malformed

/-- The body of DEFINE JOB: every definition field, in the order of R22 (R25; log 5). -/
def bodyDefineJob (tag : Byte) : List Byte → FrameRead
  | [r0, r1, r2, r3, kind, image, cls, o0, o1, priority, speed, verify, recovered, reject, template, policy,
      digits, f0, f1, f2, f3, step] =>
    .request (.defineJob tag
      { hostRef := word32 r0 r1 r2 r3, kind := kind, image := image, cls := cls, ordered := word16 o0 o1
        priority := priority, maxSpeed := speed, verifyMode := verify, recoveredLimit := recovered
        rejectLimit := reject, template := template, inkPolicy := policy, serialDigits := digits
        firstSerial := word32 f0 f1 f2 f3, step := step })
  | _ => .malformed

/-- The body of CHANGE JOB: the presence word, the job, then the carried fields (R184; log 6). -/
def bodyChangeJob (tag : Byte) : List Byte → FrameRead
  | p0 :: p1 :: p2 :: p3 :: job :: b =>
    orMalformed (((readSubset jobWidths (unle [p0, p1, p2, p3]) b).bind jobChange).map (.changeJob tag job))
  | _ => .malformed

/-- The body of SET MEDIA ENTRY (R94; log 5). -/
def bodyMedia (tag : Byte) : List Byte → FrameRead
  | [entry, mode, m0, m1, verdict, ceiling, t0, t1, k0, k1] =>
    .request (.setMediaEntry tag
      { entry := entry, mode := mode, maker := word16 m0 m1, verdict := verdict, ceiling := ceiling
        type := word16 t0 t1, mask := word16 k0 k1 })
  | _ => .malformed

/-- The body of DEFINE TEMPLATE (R147). -/
def bodyTemplate (tag : Byte) : List Byte → FrameRead
  | [t, inner, outer, quality, k0, k1, c0, c1, m0, m1, y0, y1] =>
    .request (.defineTemplate tag
      { template := t, inner := inner, outer := outer, quality := quality, covK := word16 k0 k1
        covC := word16 c0 c1, covM := word16 m0 m1, covY := word16 y0 y1 })
  | _ => .malformed

/-- The body of CARTRIDGE INSTALLED (R161). -/
def bodyCartridge (tag : Byte) : List Byte → FrameRead
  | [k, a, b, c, d] => .request (.cartridgeInstalled tag k (word32 a b c d))
  | _ => .malformed

/-- The fields of a SET INK CHANNEL body. -/
def inkChange (tag channel : Byte) : List (Option (List Byte)) → Option Instr
  | [f, d, t] => some (.setInkChannel tag channel (four f) (one d) (one t))
  | _ => none

/-- The body of SET INK CHANNEL: the presence word, the channel, then the carried fields (R161, R184; log 6). -/
def bodyInk (tag : Byte) : List Byte → FrameRead
  | p0 :: p1 :: p2 :: p3 :: k :: b =>
    orMalformed ((readSubset inkWidths (unle [p0, p1, p2, p3]) b).bind (inkChange tag k))
  | _ => .malformed

/-- Read the body of a request by its code (R176, R179, R184). -/
def readRequest (code tag : Byte) (b : List Byte) : FrameRead :=
  match code.toNat with
  | 0x01 => body0 (.identify tag) b
  | 0x02 => bodyConfigure tag b
  | 0x03 => body0 (.startTower tag) b
  | 0x04 => bodyStop tag b
  | 0x05 => body0 (.armRecover tag) b
  | 0x06 => body3 (.spindleLoaded tag) b
  | 0x07 => body0 (.outputEmptied tag) b
  | 0x08 => body0 (.rejectBinEmptied tag) b
  | 0x10 => bodySetAttention tag b
  | 0x11 => body0 (.readAttention tag) b
  | 0x20 => bodyRegister tag b
  | 0x21 => body1 (.surveyImage tag) b
  | 0x22 => body2 (.lookUpImage tag) b
  | 0x23 => body1 (.retireImage tag) b
  | 0x30 => bodyDefineJob tag b
  | 0x31 => bodyChangeJob tag b
  | 0x32 => body1 (.startJob tag) b
  | 0x33 => body1 (.pauseJob tag) b
  | 0x34 => body1 (.resumeJob tag) b
  | 0x35 => body1 (.cancelJob tag) b
  | 0x36 => body1 (.lookUpJob tag) b
  | 0x37 => body1 (.listJobs tag) b
  | 0x38 => body1 (.retireJob tag) b
  | 0x40 => body1 (.lookUpDisc tag) b
  | 0x41 => body1 (.lookUpPlace tag) b
  | 0x42 => body2 (.listDiscs tag) b
  | 0x43 => body2 (.routeDisc tag) b
  | 0x44 => body1 (.markDisc tag) b
  | 0x45 => body1 (.removeDisc tag) b
  | 0x46 => body1 (.retireDisc tag) b
  | 0x50 => body1 (.lookUpBay tag) b
  | 0x51 => body1 (.enableBay tag) b
  | 0x52 => body1 (.disableBay tag) b
  | 0x53 => body1 (.clearBayFault tag) b
  | 0x60 => bodyMedia tag b
  | 0x61 => body1 (.clearMediaEntry tag) b
  | 0x62 => body2 (.setDefaultMedia tag) b
  | 0x63 => body1 (.lookUpMediaEntry tag) b
  | 0x70 => bodyTemplate tag b
  | 0x71 => body1 (.lookUpTemplate tag) b
  | 0x72 => bodyCartridge tag b
  | 0x73 => bodyInk tag b
  | 0x74 => body2 (.lookUpInk tag) b
  | 0x75 => body0 (.clearPrinter tag) b
  | _ => .unknown

/-- The length test of a frame of at least 3 bytes: the declared body length is at most 252, the body is
there, and nothing but 00h follows it (R174, R176). -/
def lengthFits (frame : List Byte) : Bool :=
  match frame with
  | _ :: _ :: n :: rest =>
    decide (n.toNat ≤ 252) && decide (n.toNat ≤ rest.length) && (rest.drop n.toNat).all (· == 0)
  | _ => false

/-- The tests of a frame of at least 3 bytes, in order (R176). -/
def readFrame (frame : List Byte) : FrameRead :=
  match frame with
  | code :: tag :: n :: rest =>
    if lengthFits frame then readRequest code tag (rest.take n.toNat) else .malformed
  | _ => .malformed

/-! ## Writing a frame -/

/-- The code and the body of a request; a command that is no request has none (R179, R184). -/
def requestBody : Instr → Option (Byte × List Byte)
  | .identify _ => some (0x01, [])
  | .configureTower _ c => some (0x02, subsetBody (towerCarried c))
  | .startTower _ => some (0x03, [])
  | .stopTowerNormal _ => some (0x04, [0])
  | .stopTowerAbrupt _ => some (0x04, [1])
  | .armRecover _ => some (0x05, [])
  | .spindleLoaded _ s c n => some (0x06, [s, c, n])
  | .outputEmptied _ => some (0x07, [])
  | .rejectBinEmptied _ => some (0x08, [])
  | .setAttention _ e m => some (0x10, bytes32 e ++ [m])
  | .readAttention _ => some (0x11, [])
  | .registerImage _ a b c => some (0x20, bytes32 a ++ bytes32 b ++ [c])
  | .surveyImage _ i => some (0x21, [i])
  | .lookUpImage _ i s => some (0x22, [i, s])
  | .retireImage _ i => some (0x23, [i])
  | .defineJob _ f => some (0x30,
      bytes32 f.hostRef ++ [f.kind, f.image, f.cls] ++ bytes16 f.ordered ++
        [f.priority, f.maxSpeed, f.verifyMode, f.recoveredLimit, f.rejectLimit, f.template, f.inkPolicy,
          f.serialDigits] ++ bytes32 f.firstSerial ++ [f.step])
  | .changeJob _ j c => some (0x31, namedSubsetBody j (jobCarried c))
  | .startJob _ j => some (0x32, [j])
  | .pauseJob _ j => some (0x33, [j])
  | .resumeJob _ j => some (0x34, [j])
  | .cancelJob _ j => some (0x35, [j])
  | .lookUpJob _ j => some (0x36, [j])
  | .listJobs _ s => some (0x37, [s])
  | .retireJob _ j => some (0x38, [j])
  | .lookUpDisc _ d => some (0x40, [d])
  | .lookUpPlace _ d => some (0x41, [d])
  | .listDiscs _ s f => some (0x42, [s, f])
  | .routeDisc _ d x => some (0x43, [d, x])
  | .markDisc _ d => some (0x44, [d])
  | .removeDisc _ d => some (0x45, [d])
  | .retireDisc _ d => some (0x46, [d])
  | .lookUpBay _ b => some (0x50, [b])
  | .enableBay _ b => some (0x51, [b])
  | .disableBay _ b => some (0x52, [b])
  | .clearBayFault _ b => some (0x53, [b])
  | .setMediaEntry _ f => some (0x60,
      [f.entry, f.mode] ++ bytes16 f.maker ++ [f.verdict, f.ceiling] ++ bytes16 f.type ++ bytes16 f.mask)
  | .clearMediaEntry _ e => some (0x61, [e])
  | .setDefaultMedia _ v c => some (0x62, [v, c])
  | .lookUpMediaEntry _ e => some (0x63, [e])
  | .defineTemplate _ f => some (0x70,
      [f.template, f.inner, f.outer, f.quality] ++ bytes16 f.covK ++ bytes16 f.covC ++ bytes16 f.covM ++
        bytes16 f.covY)
  | .lookUpTemplate _ t => some (0x71, [t])
  | .cartridgeInstalled _ k l => some (0x72, k :: bytes32 l)
  | .setInkChannel _ k f d t => some (0x73, namedSubsetBody k [carry4 f, carry1 d, carry1 t])
  | .lookUpInk _ t j => some (0x74, [t, j])
  | .clearPrinter _ => some (0x75, [])
  | .selectBegin => none
  | .selectEnd _ => none
  | .rstNLow => none
  | .rstNRise => none
  | .attnPulseEnd => none
  | .doorOpen => none
  | .doorClosed => none
  | .gripped _ => none
  | .done _ => none
  | .missed _ => none
  | .double _ => none
  | .single _ => none
  | .stillDouble _ => none
  | .dropped _ => none
  | .interrupted _ => none
  | .jammed _ => none
  | .homed _ _ => none
  | .moveTimeout => none
  | .loaded _ => none
  | .loadError _ => none
  | .identified _ _ _ _ _ _ => none
  | .idError _ => none
  | .ready _ => none
  | .chunkAck _ => none
  | .writeError _ => none
  | .closed _ => none
  | .closeError _ => none
  | .segment _ _ => none
  | .readError _ => none
  | .opened _ => none
  | .ejectError _ => none
  | .resetDone _ _ _ => none
  | .resetFailed _ => none
  | .watchdogExpiry _ => none
  | .data _ _ _ => none
  | .storeError _ _ => none
  | .storeReadLimitExpiry _ => none
  | .joinPeriodEnd _ => none
  | .status _ _ _ => none
  | .labelDone _ _ => none
  | .labelFailed _ _ => none
  | .temperature _ => none
  | .printerFault _ => none
  | .labelLimitExpiry => none
  | .queryLimitExpiry => none

/-- The tag of a request; 0 for a command that is no request. -/
def tagOf : Instr → Byte
  | .identify t | .configureTower t _ | .startTower t | .stopTowerNormal t | .stopTowerAbrupt t
  | .armRecover t | .spindleLoaded t _ _ _ | .outputEmptied t | .rejectBinEmptied t
  | .setAttention t _ _ | .readAttention t | .registerImage t _ _ _ | .surveyImage t _
  | .lookUpImage t _ _ | .retireImage t _ | .defineJob t _ | .changeJob t _ _ | .startJob t _
  | .pauseJob t _ | .resumeJob t _ | .cancelJob t _ | .lookUpJob t _ | .listJobs t _ | .retireJob t _
  | .lookUpDisc t _ | .lookUpPlace t _ | .listDiscs t _ _ | .routeDisc t _ _ | .markDisc t _
  | .removeDisc t _ | .retireDisc t _ | .lookUpBay t _ | .enableBay t _ | .disableBay t _
  | .clearBayFault t _ | .setMediaEntry t _ | .clearMediaEntry t _ | .setDefaultMedia t _ _
  | .lookUpMediaEntry t _ | .defineTemplate t _ | .lookUpTemplate t _ | .cartridgeInstalled t _ _
  | .setInkChannel t _ _ _ _ | .lookUpInk t _ _ | .clearPrinter t => t
  | _ => 0

/-- The frame of a request: code, tag, body length, body (R184). -/
def encodeRequest (i : Instr) : Option (List Byte) :=
  (requestBody i).map fun x => [x.1, tagOf i, BitVec.ofNat 8 x.2.length] ++ x.2

end Sys2Proof
end

