-- ==== Sys2Proof/Machine/Flags.lean ====
section
/-! DEFINITION. The attention flags: raising, clearing, and the ATTN_N output (R180, R181, R184). -/

namespace Sys2Proof.Machine

/-- The 19 attention flags, in the order of their bits (R184). -/
inductive Flag
  | resetOccurred | towerState | jobEnded | discRejected | foundDisc | tableHeld | bayFault | armHalt
  | doorOpen | spindleEmpty | outputFull | rejectFull | inkShort | inkLow | headHot | imageReady
  | imageFault | linkOverrun | linkError
  deriving DecidableEq, Repr

/-- The bit of a flag in the flags word (R184). -/
def Flag.bit : Flag → Nat
  | .resetOccurred => 0 | .towerState => 1 | .jobEnded => 2 | .discRejected => 3 | .foundDisc => 4
  | .tableHeld => 5 | .bayFault => 6 | .armHalt => 7 | .doorOpen => 8 | .spindleEmpty => 9
  | .outputFull => 10 | .rejectFull => 11 | .inkShort => 12 | .inkLow => 13 | .headHot => 14
  | .imageReady => 15 | .imageFault => 16 | .linkOverrun => 17 | .linkError => 18

/-- The flag is set. -/
def Attention.isSet (a : Attention) (f : Flag) : Bool := a.flags.getLsbD f.bit

/-- Raising a flag (R180). In PULSE an enabled flag going from clear to set drives ATTN_N for 2 ms, or
extends the pulse in progress to end 2 ms later (R181). -/
def Attention.raise (a : Attention) (f : Flag) (now : Nat) : Attention :=
  { a with
    flags := a.flags ||| BitVec.twoPow 19 f.bit
    pulseEnd :=
      if a.mode = .pulse && !a.isSet f && a.enables.getLsbD f.bit then some (now + 2) else a.pulseEnd }

/-- READ ATTENTION clears every flag and does not cut a pulse short (R181, R182). -/
def Attention.clear (a : Attention) : Attention := { a with flags := 0#19 }

/-- SET ATTENTION stores the enables and the mode. A change of mode ends a pulse: LEVEL follows the
flags, and a change to PULSE releases ATTN_N (R181, R182). -/
def Attention.store (a : Attention) (enables : BitVec 19) (mode : AttnMode) : Attention :=
  { a with
    enables := enables, mode := mode
    pulseEnd := if a.mode = mode then a.pulseEnd else none }

/-- ATTN_N is driven low (R181). -/
def Attention.low (a : Attention) : Bool :=
  match a.mode with
  | .level => a.flags &&& a.enables != 0#19
  | .pulse => a.pulseEnd.isSome

/-- The block that owns an event raises its flag (R180). -/
def raise (f : Flag) (p : Part) : Part := { p with attn := p.attn.raise f p.now }

/-- Raise a flag when a condition holds. -/
def raiseIf (c : Bool) (f : Flag) (p : Part) : Part := if c then raise f p else p

end Sys2Proof.Machine
end

