-- ==== Sys2Proof/Machine/Ops.lean ====
section
/-! DEFINITION. The named operations every block uses: reading and writing records, places and ranks, the
equipment ports, the two addressed memories, and taking a request or a report. -/

namespace Sys2Proof.Machine

/-! ## Index lists -/

/-- The disc records, ascending. -/
def allDiscs : List (Fin 24) :=
  [0, 1, 2, 3, 4, 5, 6, 7, 8, 9, 10, 11, 12, 13, 14, 15, 16, 17, 18, 19, 20, 21, 22, 23]

/-- The jobs, ascending. -/
def allJobs : List (Fin 16) := [0, 1, 2, 3, 4, 5, 6, 7, 8, 9, 10, 11, 12, 13, 14, 15]

/-- The bays, ascending. -/
def allBays : List (Fin 12) := [0, 1, 2, 3, 4, 5, 6, 7, 8, 9, 10, 11]

/-- The media entries, ascending. -/
def allEntries : List (Fin 16) := [0, 1, 2, 3, 4, 5, 6, 7, 8, 9, 10, 11, 12, 13, 14, 15]

/-- The image records, ascending. -/
def allImages : List (Fin 32) :=
  [0, 1, 2, 3, 4, 5, 6, 7, 8, 9, 10, 11, 12, 13, 14, 15, 16, 17, 18, 19, 20, 21, 22, 23, 24, 25, 26,
    27, 28, 29, 30, 31]

/-- The stream channels, ascending. -/
def allChannels : List (Fin 4) := [0, 1, 2, 3]

/-- The ink channels K, C, M, Y. -/
def allInks : List (Fin 4) := [0, 1, 2, 3]

/-! ## Records -/

/-- The disc record numbered `r`, when it is held (R1). -/
def Part.disc (p : Part) (r : Fin 24) : Option Disc := p.discs[r.val]

/-- Write the disc record numbered `r`. -/
def Part.setDisc (p : Part) (r : Fin 24) (d : Option Disc) : Part :=
  { p with discs := p.discs.set r.val d }

/-- Change a held disc record; a free number stays free. -/
def Part.modDisc (p : Part) (r : Fin 24) (f : Disc → Disc) : Part := p.setDisc r ((p.disc r).map f)

/-- The job record `j`, when it is held (R21). -/
def Part.job (p : Part) (j : Fin 16) : Option Job := p.jobs[j.val]

/-- Write the job record `j`. -/
def Part.setJob (p : Part) (j : Fin 16) (x : Option Job) : Part :=
  { p with jobs := p.jobs.set j.val x }

/-- Change a held job record. -/
def Part.modJob (p : Part) (j : Fin 16) (f : Job → Job) : Part := p.setJob j ((p.job j).map f)

/-- The bay record `b` (R63). -/
def Part.bay (p : Part) (b : Fin 12) : Bay := p.bays[b.val]

/-- Write the bay record `b`. -/
def Part.setBay (p : Part) (b : Fin 12) (x : Bay) : Part := { p with bays := p.bays.set b.val x }

/-- Change a bay record. -/
def Part.modBay (p : Part) (b : Fin 12) (f : Bay → Bay) : Part := p.setBay b (f (p.bay b))

/-- The image record `i`, when it is not EMPTY (R98). -/
def Part.image (p : Part) (i : Fin 32) : Option Image := p.images[i.val]

/-- Write the image record `i`. -/
def Part.setImage (p : Part) (i : Fin 32) (x : Option Image) : Part :=
  { p with images := p.images.set i.val x }

/-- Change a held image record. -/
def Part.modImage (p : Part) (i : Fin 32) (f : Image → Image) : Part :=
  p.setImage i ((p.image i).map f)

/-- The stream channel `c` (R114). -/
def Part.channel (p : Part) (c : Fin 4) : Channel := p.channels[c.val]

/-- Write the stream channel `c`. -/
def Part.setChannel (p : Part) (c : Fin 4) (x : Channel) : Part :=
  { p with channels := p.channels.set c.val x }

/-- The stream record on channel `c`, if it carries a recording stream (R115). -/
def Part.stream (p : Part) (c : Fin 4) : Option Stream :=
  match p.channel c with
  | .recording st => some st
  | .free => none
  | .survey _ => none

/-- The template `t`, when it is defined (R147). -/
def Part.template (p : Part) (t : Fin 8) : Option Template := p.templates[t.val]

/-- Write the template `t`. -/
def Part.setTemplate (p : Part) (t : Fin 8) (x : Option Template) : Part :=
  { p with templates := p.templates.set t.val x }

/-- The media entry `e`, when it is defined (R85). -/
def Part.entry (p : Part) (e : Fin 16) : Option MediaEntry := p.media[e.val]

/-- Write the media entry `e`. -/
def Part.setEntry (p : Part) (e : Fin 16) (x : Option MediaEntry) : Part :=
  { p with media := p.media.set e.val x }

/-- The read-back context of bay `b` (R132). -/
def Part.context (p : Part) (b : Fin 12) : Option Context := p.contexts[b.val]

/-- Write the read-back context of bay `b`. -/
def Part.setContext (p : Part) (b : Fin 12) (x : Option Context) : Part :=
  { p with contexts := p.contexts.set b.val x }

/-- The ink channel `k` (R148). -/
def Part.inkChannel (p : Part) (k : Fin 4) : InkChannel := p.ink[k.val]

/-- Write the ink channel `k`. -/
def Part.setInk (p : Part) (k : Fin 4) (x : InkChannel) : Part := { p with ink := p.ink.set k.val x }

/-- A spindle (R43). -/
def Part.spindle (p : Part) : SpindleId → Spindle
  | .a => p.spindleA
  | .b => p.spindleB

/-- Write a spindle. -/
def Part.setSpindle (p : Part) (s : SpindleId) (x : Spindle) : Part :=
  match s with
  | .a => { p with spindleA := x }
  | .b => { p with spindleB := x }

/-- The occupant of a place (R42). -/
def Part.occupant (p : Part) : Place → Option (Fin 24)
  | .bay b => p.places.bays[b.val]
  | .arm => p.places.arm
  | .printer => p.places.printer

/-- Set or clear the occupant of a place (R42). -/
def Part.setOccupant (p : Part) (pl : Place) (o : Option (Fin 24)) : Part :=
  match pl with
  | .bay b => { p with places := { p.places with bays := p.places.bays.set b.val o } }
  | .arm => { p with places := { p.places with arm := o } }
  | .printer => { p with places := { p.places with printer := o } }

/-- *installed* of a bay: bays numbered below the installed count (R64, R165). -/
def Part.installed (p : Part) (b : Fin 12) : Bool := decide (b.val < p.tower.installed)

/-- The stage of a held record. -/
def Part.stageOf (p : Part) (r : Fin 24) : Option Stage := (p.disc r).map (·.stage)

/-- The verdict of a held record is REJECT. -/
def Part.isReject (p : Part) (r : Fin 24) : Bool :=
  match p.disc r with
  | some d => d.verdict = .reject
  | none => false

/-- The job record a disc record names. -/
def Part.jobOf (p : Part) (r : Fin 24) : Option Job :=
  match p.disc r with
  | some d => d.job.bind p.job
  | none => none

/-- *max speed* of a class, when the bay supports it (R64). -/
def Bay.support (b : Bay) : DiscClass → Option Nat
  | .a => b.supportA
  | .b => b.supportB

/-! ## The disc table's counts and ranks -/

/-- *free count* (R1). -/
def Part.freeCount (p : Part) : Nat := p.discs.toList.countP (·.isNone)

/-- The lowest-numbered free record (R1). -/
def Part.lowestFree (p : Part) : Option (Fin 24) := allDiscs.find? fun r => (p.disc r).isNone

/-- A rank above every rank held (R7, R36). -/
def nextRank (held : List Nat) : Nat := held.foldl (fun m k => max m (k + 1)) 0

/-- The *eligible order* values held (R7). -/
def Part.eligibleRanks (p : Part) : List Nat := p.discs.toList.filterMap fun d => d.bind (·.eligible)

/-- The *last pick order* values held (R36). -/
def Part.pickRanks (p : Part) : List Nat := p.jobs.toList.filterMap fun j => j.bind (·.lastPick)

/-- Give a record an *eligible order* ranking after every value held; one already held stays (R7, R74). -/
def giveOrder (r : Fin 24) (p : Part) : Part :=
  p.modDisc r fun d =>
    { d with eligible := match d.eligible with | some k => some k | none => some (nextRank p.eligibleRanks) }

/-- Remove a record's *eligible order* (R7). -/
def clearOrder (r : Fin 24) (p : Part) : Part := p.modDisc r fun d => { d with eligible := none }

/-- A record in this stage takes a write of `new`: a final stage takes no active one, and REJECT_BOUND takes
no other active one (R3). -/
def Stage.accepts (held new : Stage) : Bool :=
  match held with
  | .delivered => !new.active
  | .rejected => !new.active
  | .rejectBound => new == .rejectBound || !new.active
  | _ => true

/-- A record after a write of its *stage*; a write its stage does not accept is discarded (R3). -/
def Disc.atStage (d : Disc) (st : Stage) : Disc := if d.stage.accepts st then { d with stage := st } else d

/-- Write a record's *stage* (R3). -/
def setStage (r : Fin 24) (st : Stage) (p : Part) : Part := p.modDisc r (·.atStage st)

/-- Free a record; a held spell ends when the free count returns to 2 or more (R1, R9, R15). -/
def freeRecord (r : Fin 24) (p : Part) : Part :=
  let p := p.setDisc r none
  { p with heldSpell := if 2 ≤ p.freeCount then false else p.heldSpell }

/-- A new held record: counts 0, flags clear, optional fields absent (R2). -/
def Disc.fresh (stage : Stage) (verdict : Verdict) : Disc :=
  { stage := stage, verdict := verdict, reason := none, job := none, place := none, media := none,
    bay := none, speed := none, channel := none, blocksWritten := 0, verify := none,
    reservation := none, serial := none, unlabelled := false, eligible := none }

/-- Write REJECT into a record, by R4: a first REJECT sets verdict and reason and raises DISC_REJECTED; on
a REJECT only a fate reason replaces the stored one. The propagation of R13 is not part of this. -/
def writeReject (r : Fin 24) (why : Reason) (p : Part) : Part :=
  match p.disc r with
  | none => p
  | some d =>
    if d.verdict = .reject then
      if why.fate then p.setDisc r (some { d with reason := some why }) else p
    else raise .discRejected (p.setDisc r (some { d with verdict := .reject, reason := some why }))

/-- Write GOOD; on a REJECT it is discarded (R4). -/
def writeGood (r : Fin 24) (p : Part) : Part :=
  p.modDisc r fun d => if d.verdict = .reject then d else { d with verdict := .good }

/-! ## Equipment ports -/

/-- Note an operation sent on an equipment port (log 26). -/
def emit (x : Sent) (p : Part) : Part := { p with sent := p.sent ++ [x] }

/-- An event begins with nothing sent. -/
def Part.fresh (p : Part) : Part := { p with sent := [] }

/-- Send a handler-port operation and start its move timeout (R48, R50). An operation the door had cut is
from then on one whose reports are discarded (R58). -/
def sendArm (o : ArmOrder) (p : Part) : Part :=
  emit (.arm o)
    { p with
      arm := { p.arm with
        op := some { id := p.arm.opCount, order := o, deadline := p.now + p.tower.moveTimeout }
        opCount := p.arm.opCount + 1
        heldInterrupted := false
        cut := none
        stale := match p.arm.cut with | some x => x.id :: p.arm.stale | none => p.arm.stale } }

/-- The fixed timeouts of R67, in ms: LOAD and EJECT. -/
def trayTimeout : Nat := 20000

/-- IDENTIFY and RESET (R67), in ms. -/
def identifyTimeout : Nat := 30000

/-- CLOSE (R67), in ms. -/
def closeTimeout : Nat := 300000

/-- The store read limit (R107, R117), in ms. -/
def storeReadLimit : Nat := 2000

/-- The label limit (R145), in ms. -/
def labelLimit : Nat := 120000

/-- The query limit (R145), in ms. -/
def queryLimit : Nat := 5000

/-- Send a drive operation; it is held in *operation* and sets the deadline (R66, R67). -/
def sendDrive (b : Fin 12) (op : DriveOp) (o : DriveOrder) (timeout : Nat) (p : Part) : Part :=
  emit (.drive b o)
    (p.modBay b fun x => { x with operation := some op, deadline := some (p.now + timeout) })

/-- A final report ends the operation and clears the deadline (R66, R67). -/
def endDriveOp (b : Fin 12) (p : Part) : Part :=
  p.modBay b fun x => { x with operation := none, deadline := none }

/-- The bay holds this operation, so its report is taken (R66). -/
def Part.holds (p : Part) (b : Fin 12) (op : DriveOp) : Bool := (p.bay b).operation = some op

/-- Send a STORE READ for a chunk of an image: the store block of its first block and its block count; the
attempt's limit starts (R106, R117). Answers the read held. -/
def storeRead (c : Fin 4) (block blocks chunk attempt : Nat) (p : Part) : Part × StoreRead :=
  (emit (.storeRead c block blocks) { p with readCount := p.readCount + 1 },
    { id := p.readCount, chunk := chunk, attempt := attempt, deadline := p.now + storeReadLimit })

/-- Send QUERY and start its limit (R145). -/
def sendQuery (p : Part) : Part :=
  emit .query { p with station := { p.station with queryDeadline := some (p.now + queryLimit) } }

/-! ## The addressed memories (R98, R114; log 13) -/

/-- What an address reads as: 0 when it is not listed. -/
def peek {w : Nat} : List (Nat × BitVec w) → Nat → BitVec w
  | [], _ => 0
  | (k, v) :: rest, a => if k = a then v else peek rest a

/-- The non-zero cells of a run of values from address `a` on. -/
def cellsFrom {w : Nat} : Nat → List (BitVec w) → List (Nat × BitVec w)
  | _, [] => []
  | a, v :: vs => if v = 0 then cellsFrom (a + 1) vs else (a, v) :: cellsFrom (a + 1) vs

/-- Store a run of values from address `a` on; the other addresses keep theirs. -/
def poke {w : Nat} (mem : List (Nat × BitVec w)) (a : Nat) (vs : List (BitVec w)) :
    List (Nat × BitVec w) :=
  mem.filter (fun c => decide (c.1 < a)) ++ cellsFrom a vs ++
    mem.filter (fun c => decide (a + vs.length ≤ c.1))

/-- Read `n` values from address `a` on, from a list whose addresses rise. -/
def readRun {w : Nat} : Nat → List (Nat × BitVec w) → Nat → List (BitVec w)
  | 0, _, _ => []
  | n + 1, [], a => 0 :: readRun n [] (a + 1)
  | n + 1, (k, v) :: rest, a =>
    if k = a then v :: readRun n rest (a + 1) else 0 :: readRun n ((k, v) :: rest) (a + 1)

/-- Read `n` values from address `a` on. -/
def peekRun {w : Nat} (mem : List (Nat × BitVec w)) (a n : Nat) : List (BitVec w) :=
  readRun n (mem.filter fun c => decide (a ≤ c.1)) a

/-- The canonical form of a memory: addresses strictly rising, no entry that reads as an unlisted one. -/
abbrev CellsWf {w : Nat} (mem : List (Nat × BitVec w)) : Prop :=
  mem.Pairwise (fun x y => x.1 < y.1) ∧ ∀ c ∈ mem, c.2 ≠ 0

/-- Both memories are in canonical form. -/
abbrev Memory.wf (m : Memory) : Prop := CellsWf m.buffer ∧ CellsWf m.digests

/-- The buffer address of chunk `chunk` of channel `c`: slot `chunk` mod 64 of its window (R114). Where the windows
lie and how their slots are ordered is the model's choice: by channel and by slot, ascending (DESIGN CHOICE,
log 43). -/
def slotAddress (c : Fin 4) (chunk : Nat) : Nat :=
  (c.val * Config.windowChunks + chunk % Config.windowChunks) * Config.slotBytes

/-- The slot number of segment `s` of an image: page *pages*[s / 64], slot s mod 64 (R100). -/
def digestSlot (i : Image) (s : Nat) : Nat := i.pages.getD (s / 64) 0 * 64 + s % 64

/-! ## The digest (R185) -/

/-- Shift the register right `n` times, with the polynomial after each 1 shifted out (R185). -/
def digestShift : Nat → Word32 → Word32
  | 0, r => r
  | n + 1, r =>
    digestShift n (if r.getLsbD 0 then (r >>> 1) ^^^ 0xEDB88320#32 else r >>> 1)

/-- The register after one byte (R185). -/
def digestByte (r : Word32) (b : Byte) : Word32 := digestShift 8 (r ^^^ b.setWidth 32)

/-- The digest of a segment's bytes (R185). -/
def digest (bytes : List Byte) : Word32 := bytes.foldl digestByte 0xFFFFFFFF#32 ^^^ 0xFFFFFFFF#32

/-! ## Chunks and segments (R100) -/

/-- The block count of chunk `c` of an image of `blocks` blocks: 32, or the short last count. -/
def chunkBlocks (blocks c : Nat) : Nat := min 32 (blocks - 32 * c)

/-- The block count of segment `s`: 256, or the short last count. -/
def segmentBlocks (blocks s : Nat) : Nat := min 256 (blocks - 256 * s)

/-! ## Taking an event or a request -/

/-- A pin event, report or expiry that reaches the part's records. While RST_N is low every report is
discarded (R173). -/
def takeEvent (f : Part → Part) (s : State) : Host.Outcome State Fault Refusal :=
  .next (if s.link.resetLow then s else { s with part := f s.part.fresh })

/-- The reply frame as it is shifted out: presence, status, tag, request code, body length, body (R184). -/
def replyFrame (code tag : Byte) (a : Answer) : List Byte :=
  [1, a.status.code, tag, code, BitVec.ofNat 8 a.body.length] ++ a.body

/-- A slot is free: queued requests plus replies number less than 8 (R175). -/
def Link.slotFree (l : Link) : Bool := decide (l.requests.length + l.replies.length < Config.linkSlots)

/-- LRDY (R175); low while RST_N is low (R173). -/
def Link.lrdy (l : Link) : Bool := !l.resetLow && l.slotFree

/-- ATTN_N is driven low (R181); undriven while RST_N is low (R173). -/
def State.attnLow (s : State) : Bool := !s.link.resetLow && s.part.attn.low

/-- Execute a request and queue its reply in the slot it holds (R177). -/
def answer (code tag : Byte) (act : Part → Part × Answer) (s : State) : State :=
  let done := act s.part.fresh
  { s with part := done.1, link := { s.link with replies := s.link.replies ++ [replyFrame code tag done.2] } }

/-- A request row of the table: its frame is taken, executed and answered. With no slot free the frame is
discarded and LINK_OVERRUN is raised (R175); while RST_N is low no frame is taken (R173; log 3). -/
def takeRequest (code tag : Byte) (act : Part → Part × Answer) (s : State) :
    Host.Outcome State Fault Refusal :=
  .next (if s.link.resetLow then s
    else if s.link.slotFree then answer code tag act s
    else { s with part := raise .linkOverrun s.part.fresh })

end Sys2Proof.Machine
end

