-- ==== Sys2Proof/Machine/Jobs.lean ====
section
/-! DEFINITION. The job table's events: hold reasons, the four disc events and the state tests that follow
them, the serials (R23, R24, R32 to R34, R155). -/

namespace Sys2Proof.Machine

/-- No hold reason (R22). -/
def Holds.empty : Holds := { ink := false, source := false, imageNotReady := false }

/-- The set is non-empty (R23). -/
def Holds.any (h : Holds) : Bool := h.ink || h.source || h.imageNotReady

/-- RUNNING and HELD follow the hold reasons (R23). -/
def Job.followHolds (j : Job) : Job :=
  match j.state with
  | .running => { j with state := if j.holds.any then .held else .running }
  | .held => { j with state := if j.holds.any then .held else .running }
  | _ => j

/-- Set or clear hold reasons of one job; applied in RUNNING, PAUSED, HELD, FAILING and CANCELLING (R24). -/
def changeHolds (x : Fin 16) (f : Holds → Holds) (p : Part) : Part :=
  p.modJob x fun j => if j.state.started then Job.followHolds { j with holds := f j.holds } else j

/-- Set or clear hold reasons of every held job whose image is `i` (R24). -/
def changeImageHolds (i : Fin 32) (f : Holds → Holds) (p : Part) : Part :=
  allJobs.foldl (fun p x =>
    match p.job x with
    | some j => if j.image = some i then changeHolds x f p else p
    | none => p) p

/-- Enter DONE, FAILED or CANCELLED: the hold reasons are emptied and JOB_ENDED is raised (R23). -/
def endJob (x : Fin 16) (st : JobState) (p : Part) : Part :=
  raise .jobEnded (p.modJob x fun j => { j with state := st, holds := Holds.empty })

/-- A FAILING job with no active disc enters FAILED, a CANCELLING one CANCELLED (R33, R38). -/
def closeIdle (x : Fin 16) (p : Part) : Part :=
  match p.job x with
  | none => p
  | some j =>
    if j.active = 0 then
      match j.state with
      | .failing => endJob x .failed p
      | .cancelling => endJob x .cancelled p
      | _ => p
    else p

/-- A job in RUNNING, PAUSED or HELD: the states DONE and FAILING are reached from (R33, R34). -/
def JobState.open_ : JobState → Bool
  | .running => true | .paused => true | .held => true | _ => false

/-- Enter FAILING, and FAILED at the same event with no active disc (R33). -/
def failJob (x : Fin 16) (p : Part) : Part := closeIdle x (p.modJob x fun j => { j with state := .failing })

/-- Record created at pick issue (R32). -/
def jobCreated (x : Fin 16) (p : Part) : Part :=
  p.modJob x fun j => { j with started := j.started + 1, active := j.active + 1 }

/-- Pick withdrawn (R32). -/
def jobWithdrawn (x : Fin 16) (p : Part) : Part :=
  closeIdle x (p.modJob x fun j => { j with started := j.started - 1, active := j.active - 1 })

/-- Delivered, and the test of R34. -/
def jobDelivered (x : Fin 16) (unlabelled : Bool) (p : Part) : Part :=
  let p := p.modJob x fun j =>
    { j with
      active := j.active - 1, delivered := j.delivered + 1
      unlabelledDelivered := j.unlabelledDelivered + (if unlabelled then 1 else 0) }
  match p.job x with
  | none => p
  | some j => if j.state.open_ && j.delivered == j.ordered then endJob x .done p else closeIdle x p

/-- Reject finalised, and the test of R33. -/
def jobRejected (x : Fin 16) (counts : Bool) (p : Part) : Part :=
  let p := p.modJob x fun j =>
    { j with
      active := j.active - 1, rejected := j.rejected + 1
      failures := j.failures + (if counts then 1 else 0) }
  match p.job x with
  | none => p
  | some j => if j.state.open_ && decide (j.rejectLimit ≤ j.failures) then failJob x p else closeIdle x p

/-- Stamp *last pick order* as the newest in the ranking (R36). -/
def stampPick (x : Fin 16) (p : Part) : Part :=
  p.modJob x fun j => { j with lastPick := some (nextRank p.pickRanks) }

/-- Issue the next serial: *serials issued* rises and *next serial* moves on modulo 10^digits (R155). -/
def Serials.issue (s : Serials) (digits : Nat) : Serials :=
  { s with issued := s.issued + 1, next := (s.first + s.step * (s.issued + 1)) % 10 ^ digits }

/-- `d` decimal digits of a number, leading zeros included (R145). -/
def decimalDigits : Nat → Nat → List Nat
  | 0, _ => []
  | d + 1, n => decimalDigits d (n / 10) ++ [n % 10]

end Sys2Proof.Machine
end

