-- ==== Sys2Proof/Machine/Ink.lean ====
section
/-! DEFINITION. The label unit's ink arithmetic, reservations, the ink-wait list, the print queue and the
forecast (R148 to R153, R160). -/

namespace Sys2Proof.Machine

/-! ## The ink arithmetic (R149) -/

/-- *Printable area* A in mm² (R149). -/
def Template.area (t : Template) : Nat := 355 * (t.outer * t.outer - t.inner * t.inner) / 452

/-- The quality dose D in nL per 100 mm² at full coverage (R149). -/
def Quality.dose : Quality → Nat
  | .draft => 300 | .normal => 450 | .fine => 600

/-- *Base need* b of a channel in nL (R149). -/
def Template.baseNeed (t : Template) (k : Fin 4) : Nat :=
  ceilDiv (t.area * t.coverage[k.val] * t.quality.dose) 100000

/-- *Trimmed need* n of a channel in nL under a trim (R149). -/
def Template.need (t : Template) (k : Fin 4) (trim : Int) : Nat :=
  ceilDiv (t.baseNeed k * (200 + trim).toNat) 200

/-- The trimmed need of a channel under the present trims (R149). -/
def Part.need (p : Part) (t : Template) (k : Fin 4) : Nat := t.need k (p.inkChannel k).trim

/-- The four trimmed needs. -/
def Part.needs (p : Part) (t : Template) : Vector Nat 4 :=
  #v[p.need t 0, p.need t 1, p.need t 2, p.need t 3]

/-- *level* - *reserved* - *floor*, signed (R150). -/
def InkChannel.available (c : InkChannel) : Int := (c.level : Int) - c.reserved - c.floor

/-- *low* of a channel (R148). -/
def InkChannel.low (c : InkChannel) : Bool := decide (c.level < c.floor)

/-- *empty* of a channel (R148). -/
def InkChannel.empty (c : InkChannel) : Bool := c.level == 0

/-- An admission of a template passes on every channel it uses (R150). -/
def Part.admits (p : Part) (t : Template) : Bool :=
  allInks.all fun k => p.need t k == 0 || decide ((p.need t k : Int) ≤ (p.inkChannel k).available)

/-- Change the four channels, each by its number. -/
def eachInk (f : Fin 4 → InkChannel → InkChannel) (p : Part) : Part :=
  allInks.foldl (fun p k => p.setInk k (f k (p.inkChannel k))) p

/-- Raise INK_LOW when the *low* of some channel became set since `before` (R148). -/
def raiseInkLow (before p : Part) : Part :=
  raiseIf (allInks.any fun k => (p.inkChannel k).low && !(before.inkChannel k).low) .inkLow p

/-! ## Reservations (R148, R150) -/

/-- Take an admission: the needs are reserved and written into the record, at one event (R150). -/
def reserve (r : Fin 24) (amounts : Vector Nat 4) (p : Part) : Part :=
  let p := eachInk (fun k c => { c with reserved := c.reserved + amounts[k.val] }) p
  p.modDisc r fun d => { d with reservation := some amounts }

/-- The reservation of a record is subtracted and removed, at one event (R148). -/
def unreserve (r : Fin 24) (p : Part) : Part :=
  match p.disc r with
  | none => p
  | some d =>
    match d.reservation with
    | none => p
    | some amounts =>
      let p := eachInk (fun k c => { c with reserved := c.reserved - amounts[k.val] }) p
      p.modDisc r fun d => { d with reservation := none }

/-- A record holds a reservation. -/
def Part.reserves (p : Part) (r : Fin 24) : Bool := ((p.disc r).bind (·.reservation)).isSome

/-! ## The ink-wait list and the print queue (R151 to R153) -/

/-- The template of the job a record names. -/
def Part.templateOf (p : Part) (r : Fin 24) : Option Template :=
  (p.jobOf r).bind fun j => j.template.bind p.template

/-- A job with no disc in the ink-wait list carries no INK reason (R24). -/
def testInkHold (x : Fin 16) (p : Part) : Part :=
  if p.inkWait.any fun r => (p.disc r).bind (·.job) == some x then p
  else changeHolds x (fun h => { h with ink := false }) p

/-- A record leaves the ink-wait list (R24, R151). -/
def leaveInkWait (r : Fin 24) (p : Part) : Part :=
  if p.inkWait.contains r then
    let p := { p with inkWait := p.inkWait.filter (· != r) }
    match (p.disc r).bind (·.job) with
    | some x => testInkHold x p
    | none => p
  else p

/-- A record leaves the print queue from wherever it stands (R153). -/
def leavePrintQueue (r : Fin 24) (p : Part) : Part :=
  { p with printQueue := p.printQueue.filter (· != r) }

/-- One reservation attempt of a disc in the ink-wait list; it reserves and joins the tail of the print
queue, or stays (R151, R152). -/
def attemptReservation (r : Fin 24) (p : Part) : Part :=
  match p.templateOf r with
  | none => p
  | some t =>
    if p.admits t then
      let p := leaveInkWait r (reserve r (p.needs t) p)
      setStage r .printQueued { p with printQueue := p.printQueue ++ [r] }
    else p

/-- A retry pass: one attempt for each disc in the ink-wait list, oldest first (R152). -/
def retryPass (p : Part) : Part := p.inkWait.foldl (fun p r => attemptReservation r p) p

/-- A release of a record's reservation, and the retry pass that follows every release (R148, R152; log 32). -/
def release (r : Fin 24) (p : Part) : Part := if p.reserves r then retryPass (unreserve r p) else p

/-- A record that goes REJECTED, or is rejected, holds nothing of the label unit's any more. -/
def leaveLabelUnit (r : Fin 24) (p : Part) : Part := release r (leavePrintQueue r (leaveInkWait r p))

/-- A disc enters the label unit: AWAIT_INK, the tail of the ink-wait list, one attempt; a failed one acts
by the job's ink policy (R151). -/
def enterLabelUnit (r : Fin 24) (p : Part) : Part :=
  let p := setStage r .awaitInk { p with inkWait := p.inkWait ++ [r] }
  let p := attemptReservation r p
  if p.stageOf r = some .awaitInk then
    match (p.disc r).bind (·.job), (p.jobOf r).bind (·.inkPolicy) with
    | some _, some .unlabelled =>
      let p := leaveInkWait r p
      p.modDisc r fun d => { d with unlabelled := true }.atStage .outbound
    | some x, _ => raise .inkShort (changeHolds x (fun h => { h with ink := true }) p)
    | none, _ => p
  else p

/-! ## The forecast (R160) -/

/-- The labels one channel covers, when the template uses it (R160). -/
def Part.covered (p : Part) (t : Template) (k : Fin 4) : Option Nat :=
  if p.need t k = 0 then none
  else some ((p.inkChannel k).available.toNat / p.need t k)

/-- The *forecast* P of a template: the least of the covered labels, saturating at 65,535 (R160). -/
def Part.forecast (p : Part) (t : Template) : Nat :=
  (allInks.filterMap (p.covered t)).foldl min 65535

/-- The forecast of one RUNNING job against its remaining labels: it joins or leaves the short set (R160). -/
def forecastJob (x : Fin 16) (p : Part) : Part :=
  match p.job x with
  | none => p
  | some j =>
    match j.template.bind p.template with
    | none => p
    | some t =>
      if j.state = .running then
        let remaining := j.ordered - j.delivered
        if p.shortSet.contains x then
          if remaining ≤ p.forecast t then { p with shortSet := p.shortSet.filter (· != x) } else p
        else if p.forecast t < remaining then raise .inkShort { p with shortSet := p.shortSet ++ [x] }
        else p
      else p

/-- The forecasts of all RUNNING jobs (R160; log 15). -/
def forecastAll (p : Part) : Part := allJobs.foldl (fun p x => forecastJob x p) p

end Sys2Proof.Machine
end

