-- ==== Sys2Proof/Machine/Discs.lean ====
section
/-! DEFINITION. The ends of a disc record and the records for found discs (R5, R10 to R12, R14, R15). -/

namespace Sys2Proof.Machine

/-- With auto-retire on, a record is freed as it reaches a final stage (R15). -/
def autoRetire (r : Fin 24) (p : Part) : Part := if p.tower.autoRetire then freeRecord r p else p

/-- A REJECT record reaches REJECTED: no place, no eligible order, no reservation; the reject-finalised
event goes to its job with the reason held (R5, R14). The caller clears the occupant. -/
def finaliseReject (r : Fin 24) (p : Part) : Part :=
  match p.disc r with
  | none => p
  | some d =>
    let p := leaveLabelUnit r p
    let p := p.modDisc r fun d => { d with stage := .rejected, place := none, eligible := none }
    let p := match d.job with
      | some x => jobRejected x (match d.reason with | some w => w.counts | none => false) p
      | none => p
    autoRetire r p

/-- A record reaches DELIVERED: no place; the delivered event goes to its job (R14). -/
def finaliseDelivered (r : Fin 24) (p : Part) : Part :=
  match p.disc r with
  | none => p
  | some d =>
    let p := p.modDisc r fun d => { d with stage := .delivered, place := none, eligible := none }
    let p := match d.job with
      | some x => jobDelivered x d.unlabelled p
      | none => p
    autoRetire r p

/-- A record dropped onto OUTPUT or into the REJECT BIN is finalised by its verdict (R14). -/
def finaliseDropped (r : Fin 24) (p : Part) : Part :=
  if p.isReject r then finaliseReject r p else finaliseDelivered r p

/-- A disc is absent where its record places it: REJECT LOST, finalised (R14). The caller clears the
occupant. -/
def finaliseLost (r : Fin 24) (p : Part) : Part := finaliseReject r (writeReject r .lost p)

/-- The current move is discarded when its disc is LOST (R47). An operation in flight runs to its final report
(log 37). -/
def forgetMove (r : Fin 24) (p : Part) : Part :=
  match p.arm.move with
  | some m => if m.record = r then { p with arm := { p.arm with move := none } } else p
  | none => p

/-- The owner of a place finds it empty: the occupant is cleared, the record is finalised LOST, and a move
still to fetch the disc is discarded (R6, R14, R47). -/
def foundLost (pl : Place) (r : Fin 24) (p : Part) : Part :=
  forgetMove r (finaliseLost r (p.setOccupant pl none))

/-- A FOUND record at a place, in the lowest free record; FOUND_DISC is raised either way. With no record
free there is none, and the owner of the place takes the disc out of service (R11). -/
def createFound (pl : Place) (p : Part) : Part × Bool :=
  match p.lowestFree with
  | none => (raise .foundDisc p, false)
  | some r =>
    (raise .foundDisc
      ((p.setDisc r (some { Disc.fresh .hostHold .pending with place := some pl })).setOccupant pl (some r)),
      true)

/-- The EXTRA record of an unseparated double feed; DISC_REJECTED is raised even when no record is free
(R12). -/
def createExtra (p : Part) : Part :=
  match p.lowestFree with
  | none => raise .discRejected p
  | some r =>
    autoRetire r (raise .discRejected
      (p.setDisc r (some { Disc.fresh .rejected .reject with reason := some .extraDisc })))

end Sys2Proof.Machine
end

