-- ==== Sys2Proof/Machine/Media.lean ====
section
/-! DEFINITION. The media table: matching, the identification checks, the write speed and the learning of
outcomes (R87 to R93). -/

namespace Sys2Proof.Machine

/-- An entry matches a media code by its mode (R87). -/
def MediaEntry.hits (e : MediaEntry) (maker type : Word16) : Bool :=
  match e.mode with
  | .exact => maker == e.maker && some type == e.type
  | .maker => maker == e.maker
  | .masked => maker == e.maker && type &&& e.mask.getD 0 == e.type.getD 0 &&& e.mask.getD 0

/-- The first defined entry, in ascending number, that matches (R88). -/
def Part.decidingEntry (p : Part) (maker type : Word16) : Option (Fin 16) :=
  allEntries.find? fun e =>
    match p.entry e with
    | some x => x.hits maker type
    | none => false

/-- The verdict that applies: the deciding entry's, or the default verdict (R88). -/
def Part.mediaVerdict (p : Part) (e : Option (Fin 16)) : MediaVerdict :=
  match e.bind p.entry with
  | some x => x.verdict
  | none => p.defaultVerdict

/-- The cap that applies: the deciding entry's, or the default cap (R88). -/
def Part.mediaCap (p : Part) (e : Option (Fin 16)) : Nat :=
  match e.bind p.entry with
  | some x => x.cap
  | none => p.defaultCap

/-- The reject the media table writes, by the checks 2 to 4 of R90, or none when all pass. -/
def Part.mediaCheck (p : Part) (j : Job) (m : DiscMedia) : Option Reason :=
  if m.cls ≠ j.cls then some .classMismatch
  else if m.capacity < (match j.image.bind p.image with | some i => i.blocks | none => 0) then
    some .capacityShort
  else if p.mediaVerdict m.entry = .refuse then some .mediaRefused
  else none

/-- The write speed: the least of the job's, the bay's and the media's limit; a bay with no support for
the class limits to 1 (R91). -/
def Part.writeSpeed (p : Part) (j : Job) (b : Fin 12) (m : DiscMedia) : Nat :=
  min j.maxSpeed (min (((p.bay b).support m.cls).getD 1) (p.mediaCap m.entry))

/-- An entry takes an outcome, in the four steps of R93. -/
def MediaEntry.learn (e : MediaEntry) (o : RecOutcome) : MediaEntry :=
  let isFail := o == .fail
  let long := e.recent ++ [o]
  let recent := if 16 < long.length then long.drop 1 else long
  let e := { e with
    burns := min 65535 (e.burns + 1)
    fails := min 65535 (e.fails + if isFail then 1 else 0)
    recent := recent }
  if isFail && decide (3 ≤ recent.count .fail) then { e with cap := max 1 (e.cap - 1), recent := [] }
  else if recent.length == 16 && recent.all (· == .good) then
    { e with cap := min e.ceiling (e.cap + 1), recent := [] }
  else e

/-- A disc's recording outcome goes to the entry its record names, if that number is defined (R92). It teaches
an entry redefined as REFUSE too, whose cap may then move (DESIGN CHOICE between R86 and R92, log 40). -/
def handOutcome (r : Fin 24) (o : RecOutcome) (p : Part) : Part :=
  match ((p.disc r).bind (·.media)).bind (·.entry) with
  | none => p
  | some e => p.setEntry e ((p.entry e).map (·.learn o))

end Sys2Proof.Machine
end

