-- ==== Sys2Proof/Machine/Bays.lean ====
section
/-! DEFINITION. The bay controller's shared operations: entering states, RESET and EJECT, presenting,
emptying, the tray rule, health (R63 to R68, R73 to R75, R79). -/

namespace Sys2Proof.Machine

/-- The states whose entry clears *recovering* (R63). -/
def BayState.settled : BayState → Bool
  | .open_ => true | .offline => true | .presenting => true | .holding => true | .faulted => true
  | _ => false

/-- A bay enters a state: *recovering*, *enabled*, *disable pending* and *fault cause* follow (R63). -/
def Bay.enter (x : Bay) (st : BayState) : Bay :=
  { x with
    state := st
    recovering := if st.settled then false else x.recovering
    enabled := if st = .offline then false else x.enabled
    disablePending := if st = .offline then false else x.disablePending
    faultCause := if st = .faulted then x.faultCause else none }

/-- A bay enters a state. -/
def enterBay (b : Fin 12) (st : BayState) (p : Part) : Part := p.modBay b (·.enter st)

/-- A bay enters FAULTED with a cause; BAY_FAULT is raised (R65). -/
def faultBay (b : Fin 12) (cause : BayFault) (p : Part) : Part :=
  raise .bayFault
    (p.modBay b fun x => { x.enter .faulted with operation := none, deadline := none, faultCause := some cause })

/-- A bay whose RESET is sent owes the sweep none any more. R168 says so of the recovery's RESET after a stall; that
a RESET sent for another cause, by a REJECT of the occupant (R77) or at an error report (R76), serves as the
sweep's too is the model's (DESIGN CHOICE, log 50). -/
def paySweepReset (b : Fin 12) (p : Part) : Part :=
  match p.tower.sweep with
  | none => p
  | some w =>
    { p with tower := { p.tower with sweep := some { w with resetOwed := w.resetOwed.set b.val false } } }

/-- Send RESET, after ABORT where an operation is in flight: *recovering* is set and the bay is RESETTING
(R65, R66). -/
def resetBay (b : Fin 12) (p : Part) : Part :=
  let p := if (p.bay b).operation.isSome then emit (.drive b .abort) (endDriveOp b p) else p
  let p := sendDrive b .reset .reset identifyTimeout p
  paySweepReset b (p.modBay b fun x => { x.enter .resetting with recovering := true })

/-- Send EJECT; the bay enters OPENING_TRAY (R73). -/
def ejectBay (b : Fin 12) (p : Part) : Part :=
  enterBay b .openingTray (sendDrive b .eject .eject trayTimeout p)

/-- Send LOAD; the bay enters CLOSING_TRAY (R68, R80). -/
def loadBay (b : Fin 12) (p : Part) : Part :=
  enterBay b .closingTray (sendDrive b .load .load trayTimeout p)

/-- An empty bay with its tray open: FAULTED when due for quarantine, else OFFLINE when disable pending is
set, else OPEN (R74, R75, R78, R79, R82). -/
def emptyBay (b : Fin 12) (p : Part) : Part :=
  if (p.bay b).consecutiveFailures = 3 then faultBay b .repeatedFailures p
  else if (p.bay b).disablePending then enterBay b .offline p
  else enterBay b .open_ p

/-- A pick will not come: a bay leaves EXPECTING for OPEN, or for OFFLINE when disable pending is set
(R68). -/
def releaseBay (b : Fin 12) (p : Part) : Part :=
  if (p.bay b).state = .expecting then
    if (p.bay b).disablePending then enterBay b .offline p else enterBay b .open_ p
  else p

/-- The occupant of a bay has been cleared; the bay acts by its state (R75). A RESETTING bay, for which R75 has
no row, stays RESETTING, and its RESET_DONE finds it unoccupied (DESIGN CHOICE, log 39). -/
def bayVacated (b : Fin 12) (p : Part) : Part :=
  match (p.bay b).state with
  | .presenting => emptyBay b p
  | .holding => ejectBay b p
  | _ => p

/-- The disc is *due out* (R73). -/
def Part.dueOut (p : Part) (r : Fin 24) : Bool :=
  match p.stageOf r with
  | some .outbound => true
  | some .rejectBound => true
  | some .printQueued => p.printQueue.head? == some r
  | _ => false

/-- The tower states in which the tray rule opens trays and label orders are sent (chapter 10's table). -/
def TowerState.working : TowerState → Bool
  | .running => true | .stopping => true | .paused => true | .halted => true
  | .stopped => false | .starting => false | .aborting => false

/-- A disc due out in a PRESENTING bay holds an *eligible order* (R7, R74; log 16). -/
def orderIfDue (r : Fin 24) (p : Part) : Part := if p.dueOut r then giveOrder r p else p

/-- An occupied bay whose tray is open enters PRESENTING (R74). -/
def presentBay (b : Fin 12) (p : Part) : Part :=
  let p := enterBay b .presenting p
  match p.occupant (.bay b) with
  | some r => orderIfDue r p
  | none => p

/-- The tray rule for one bay: a HOLDING bay whose occupant is due out sends EJECT when the tower state
allows (R73). A PRESENTING bay's due-out disc is given its order (log 16). -/
def trayRule (b : Fin 12) (p : Part) : Part :=
  match p.occupant (.bay b) with
  | none => p
  | some r =>
    match (p.bay b).state with
    | .holding => if p.tower.state.working && p.dueOut r then ejectBay b p else p
    | .presenting => orderIfDue r p
    | _ => p

/-- The tray rule for every bay. -/
def trayRules (p : Part) : Part := allBays.foldl (fun p b => trayRule b p) p

/-- A failure is counted: *consecutive failures* saturating at 3, *failures* at 65535 (R79). -/
def countFailure (b : Fin 12) (p : Part) : Part :=
  p.modBay b fun x =>
    { x with consecutiveFailures := min 3 (x.consecutiveFailures + 1), failures := min 65535 (x.failures + 1) }

/-- A GOOD verdict in the bay clears *consecutive failures* and raises *goods* (R79). -/
def countGood (b : Fin 12) (p : Part) : Part :=
  p.modBay b fun x => { x with consecutiveFailures := 0, goods := min 65535 (x.goods + 1) }

/-- The sweep's mark of a bay clears (R168). -/
def clearBayMark (b : Fin 12) (p : Part) : Part :=
  match p.tower.sweep with
  | none => p
  | some w =>
    { p with tower := { p.tower with
      sweep := some { w with bayMarks := w.bayMarks.set b.val false, resetOwed := w.resetOwed.set b.val false } } }

/-- A RESET has ended, well or not: what it was sent for is over, and the sweep's mark clears (R168, R170). -/
def endReset (b : Fin 12) (p : Part) : Part :=
  clearBayMark b ((endDriveOp b p).modBay b fun x => { x with service := false, abortMark := false })

/-- A finding in a bay: a FOUND record and the bay HOLDING, or CLOSING_TRAY when its tray is open; with no
record free the bay is FAULTED UNTRACKED_DISC (R80). -/
def bayFinding (b : Fin 12) (tray : Tray) (p : Part) : Part :=
  let found := createFound (.bay b) p
  if found.2 then
    match tray with
    | .shut => enterBay b .holding found.1
    | .opened => loadBay b found.1
  else faultBay b .untrackedDisc found.1

end Sys2Proof.Machine
end

