-- ==== Sys2Proof/Machine/ReadBack.lean ====
section
/-! DEFINITION. The verify unit: contexts, the plan, one segment's check, the verdict (R132 to R142). -/

namespace Sys2Proof.Machine

/-- The selected index after `s` of a plan over `segments` segments, absent when `s` was the last (R134). -/
def Plan.next (plan : Plan) (segments s : Nat) : Option Nat :=
  match plan with
  | .full => if s + 1 < segments then some (s + 1) else none
  | .quick =>
    if (s / 16 + 1) * 16 < segments then some ((s / 16 + 1) * 16)
    else if s + 1 < segments then some (segments - 1)
    else none

/-- *reference valid* of an image (R111). -/
def Part.referenceValid (p : Part) (i : Fin 32) : Bool :=
  match p.image i with
  | some x => x.referenceValid
  | none => false

/-- Send READ for a segment: it is in hand and a READ is outstanding (R135). -/
def sendRead (b : Fin 12) (c : Context) (s attempt : Nat) (p : Part) : Part :=
  sendDrive b .read (.read s) p.tower.progressTimeout
    (p.setContext b (some { c with
      inHand := some { segment := s, attempt := attempt }, readOutstanding := true
      awaitingReference := false }))

/-- Ask for the next selected segment, or wait for the reference (R135). -/
def askNext (b : Fin 12) (p : Part) : Part :=
  match p.context b with
  | none => p
  | some c =>
    match c.nextSelected with
    | none => p
    | some s =>
      if p.referenceValid c.image then sendRead b c s 1 p
      else p.setContext b (some { c with awaitingReference := true })

/-- The image has become READY: contexts awaiting its reference ask for their segment (R142), in ascending order of
their bays where several do: R108, R111, R132 and R142 give their READs no order (DESIGN CHOICE, log 30). -/
def wakeReadBacks (i : Fin 32) (p : Part) : Part :=
  allBays.foldl (fun p b =>
    match p.context b with
    | some c => if c.awaitingReference && c.image == i then askNext b p else p
    | none => p) p

/-- Start the read-back of a disc at its CLOSED (R133). -/
def startReadBack (b : Fin 12) (r : Fin 24) (i : Fin 32) (plan : Plan) (p : Part) : Part :=
  let p := enterBay b .readingBack p
  let p := p.setContext b (some
    { record := r, image := i, plan := plan, nextSelected := some 0, inHand := none
      readOutstanding := false, awaitingReference := false })
  let p := p.modDisc r fun d =>
    { d with
      verify := some { checked := 0, recovered := 0, mismatched := 0, firstMismatch := none } }.atStage
      .verifying
  askNext b p

/-- A GOOD disc goes on by its job's kind; its bay is HOLDING (R71, R139). -/
def goodGoesOn (b : Fin 12) (r : Fin 24) (kind : JobKind) (p : Part) : Part :=
  let p := enterBay b .holding p
  match kind with
  | .burnPrint => enterLabelUnit r p
  | .burn => setStage r .outbound p
  | .print => setStage r .outbound p

/-- The verdict GOOD is acted on (R139). -/
def verdictGood (b : Fin 12) (r : Fin 24) (kind : JobKind) (p : Part) : Part :=
  goodGoesOn b r kind (countGood b (handOutcome r .good (writeGood r p)))

/-- The verdict FAIL is acted on (R140). -/
def verdictFail (b : Fin 12) (r : Fin 24) (p : Part) : Part :=
  let p := setStage r .rejectBound (writeReject r .verifyFailed p)
  ejectBay b (countFailure b (handOutcome r .fail p))

/-- The verdict of R138: GOOD when nothing is mismatched and *recovered* is within the limit. -/
def VerifyCounts.good (v : VerifyCounts) (limit : Nat) : Bool :=
  v.mismatched == 0 && decide (v.recovered ≤ limit)

/-- The verdict is taken and acted on; the context is discarded (R138). -/
def takeVerdict (b : Fin 12) (r : Fin 24) (p : Part) : Part :=
  let p := p.setContext b none
  match (p.disc r).bind (·.verify), p.jobOf r with
  | some v, some j =>
    if v.good (j.recoveredLimit.getD 0) then verdictGood b r j.kind p else verdictFail b r p
  | _, _ => p

/-- The counts after the read that settles segment `s` (R137). -/
def VerifyCounts.settle (v : VerifyCounts) (s attempt : Nat) (hit : Bool) : VerifyCounts :=
  { checked := v.checked + 1
    recovered := v.recovered + (if hit && attempt == 2 then 1 else 0)
    mismatched := v.mismatched + (if hit then 0 else 1)
    firstMismatch := if hit then v.firstMismatch else some (v.firstMismatch.getD s) }

/-- A read of the segment in hand, matching or not: re-read, or settle and go on (R136, R137). -/
def takeRead (b : Fin 12) (hit : Bool) (p : Part) : Part :=
  match p.context b with
  | none => p
  | some c =>
    match c.inHand with
    | none => p
    | some h =>
      let p := endDriveOp b p
      if !hit && h.attempt == 1 then sendRead b c h.segment 2 p
      else
        let p := p.modDisc c.record fun d =>
          { d with verify := d.verify.map (·.settle h.segment h.attempt hit) }
        let segments := match p.image c.image with | some i => i.segments | none => 0
        let next := c.plan.next segments h.segment
        let p := p.setContext b (some { c with
          nextSelected := next, inHand := none, readOutstanding := false })
        if next.isSome then askNext b p else takeVerdict b c.record p

/-- The read of the segment in hand matches: equal digests, and exactly the segment's block count (R136). -/
def Part.readMatches (p : Part) (m : Memory) (b : Fin 12) (bytes : List Byte) : Bool :=
  match p.context b with
  | none => false
  | some c =>
    match c.inHand, p.image c.image with
    | some h, some i =>
      bytes.length == 2048 * segmentBlocks i.blocks h.segment &&
        digest bytes == peek m.digests (digestSlot i h.segment)
    | _, _ => false

end Sys2Proof.Machine
end

