-- ==== Sys2Proof/Machine/Streams.lean ====
section
/-! DEFINITION. The image catalogue's surveys and the stream engine: windows, sending, fetching, tails,
splits, joining and the channel arbiter (R104 to R131). -/

namespace Sys2Proof.Machine

/-! ## Images -/

/-- The image is READY. -/
def Part.imageReady (p : Part) (i : Fin 32) : Bool :=
  match p.image i with
  | some x => x.state = .ready
  | none => false

/-- The pages held by some image (R98). -/
def Part.heldPages (p : Part) : List Nat :=
  p.images.toList.flatMap fun i => match i with | some x => x.pages | none => []

/-- The free pages, ascending (R98, R101). -/
def Part.freePages (p : Part) : List Nat :=
  let held := p.heldPages
  (List.range Config.digestPages).filter fun g => !held.contains g

/-- The image has become READY: IMAGE_READY, the jobs' holds, the waiting read-backs (R108, R111). -/
def imageBecomesReady (i : Fin 32) (p : Part) : Part :=
  wakeReadBacks i
    (changeImageHolds i (fun h => { h with imageNotReady := false, source := false })
      (raise .imageReady p))

/-! ## Stream records -/

/-- *waiting* of a member (R115, R118). -/
def Member.waiting (m : Member) (st : Stream) : Bool :=
  m.driveReady && m.position == st.head && decide (m.position < st.chunks)

/-- The member can be sent its next chunk (R118). -/
def Member.due (m : Member) (st : Stream) : Bool := m.driveReady && decide (m.position < st.head)

/-- The least *position* among the members (R120). -/
def Stream.leastPosition (st : Stream) : Nat := st.members.foldl (fun k m => min k m.position) st.head

/-- The *tail* the tail rule gives (R120); it never falls. -/
def Stream.dueTail (st : Stream) : Nat :=
  if st.resident || !st.joinOver then st.tail else max st.tail st.leastPosition

/-- The slowest member: the lowest *position*, among equals the lowest bay (R123). -/
def Stream.slowest (st : Stream) : Option Member :=
  st.members.foldl (fun best m =>
    match best with
    | none => some m
    | some x =>
      if m.position < x.position ∨ (m.position = x.position ∧ m.bay.val < x.bay.val) then some m
      else some x) none

/-- The stream is *held* (R123). -/
def Stream.isHeld (st : Stream) : Bool :=
  !st.resident && st.joinOver && st.head - st.tail == Config.windowChunks &&
    decide (st.head < st.chunks) && st.members.any (·.waiting st)

/-- A bay can join the stream (R122). -/
def Stream.joinable (st : Stream) : Bool := st.resident || (!st.catchUp && !st.joinOver)

/-- Send each due member its chunk, and set its bay's deadline (R67, R118). -/
def sendChunks (c : Fin 4) (p : Part) : Part :=
  match p.stream c with
  | none => p
  | some st =>
    let blocks := match p.image st.image with | some i => i.blocks | none => 0
    let p := (st.members.filter (·.due st)).foldl (fun p m =>
      emit (.chunk m.bay c m.position (slotAddress c m.position) (chunkBlocks blocks m.position))
        (p.modBay m.bay fun x => { x with deadline := some (p.now + p.tower.progressTimeout) })) p
    p.setChannel c (.recording { st with
      members := st.members.map fun m =>
        if m.due st then { m with driveReady := false, position := m.position + 1 } else m })

/-- Recompute *tail* (R120). -/
def moveTail (c : Fin 4) (p : Part) : Part :=
  match p.stream c with
  | none => p
  | some st => p.setChannel c (.recording { st with tail := st.dueTail })

/-- The STORE READ of a chunk of an image on channel `c` (R106, R117). -/
def readChunk (c : Fin 4) (i : Image) (chunk attempt : Nat) (p : Part) : Part × StoreRead :=
  storeRead c (i.storeAddress + 32 * chunk) (chunkBlocks i.blocks chunk) chunk attempt p

/-- Fetch chunk *head* when the window has room (R117). -/
def fetchNext (c : Fin 4) (p : Part) : Part :=
  match p.stream c with
  | none => p
  | some st =>
    match p.image st.image with
    | none => p
    | some i =>
      if st.read.isNone && decide (st.head - st.tail < Config.windowChunks) &&
          decide (st.head < st.chunks) then
        let sent := readChunk c i st.head 1 p
        sent.1.setChannel c (.recording { st with read := some sent.2 })
      else p

/-- Place, keep or withdraw the stream's split request (R123). -/
def testSplit (c : Fin 4) (p : Part) : Part :=
  match p.stream c with
  | none => p
  | some st =>
    let lag := match st.slowest with | some m => st.head - m.position | none => 0
    let wanted := st.isHeld && p.tower.splitOn && decide (p.tower.splitThreshold ≤ lag) &&
      p.imageReady st.image
    if wanted then
      if st.splitRequested then p
      else { p with splitReqs := p.splitReqs ++ [c] }.setChannel c
        (.recording { st with splitRequested := true })
    else if st.splitRequested then
      { p with splitReqs := p.splitReqs.filter (· != c) }.setChannel c
        (.recording { st with splitRequested := false })
    else p

/-- Everything a change in a stream lets it do: send, move *tail*, fetch, test the split (R117 to R123). -/
def pumpStream (c : Fin 4) (p : Part) : Part := testSplit c (fetchNext c (moveTail c (sendChunks c p)))

/-- Every stream. -/
def pumpStreams (p : Part) : Part := allChannels.foldl (fun p c => pumpStream c p) p

/-- A channel becomes FREE: its window is discarded, and a split request of its stream withdrawn (R114,
R124). -/
def freeChannel (c : Fin 4) (p : Part) : Part :=
  { p with splitReqs := p.splitReqs.filter (· != c) }.setChannel c .free

/-- A stream with no member closes (R124). -/
def closeIfEmpty (c : Fin 4) (p : Part) : Part :=
  match p.stream c with
  | none => p
  | some st => if st.members.isEmpty then freeChannel c p else p

/-- The member of channel `c` at a bay. -/
def Stream.member (st : Stream) (b : Fin 12) : Option Member := st.members.find? (·.bay == b)

/-- A bay leaves its stream: *channel* is cleared in both records, and a stream left empty closes (R124). -/
def leaveStream (b : Fin 12) (p : Part) : Part :=
  match (p.bay b).channel with
  | none => p
  | some c =>
    let p := p.modBay b fun x => { x with channel := none }
    let p := match p.occupant (.bay b) with
      | some r => p.modDisc r fun d => { d with channel := none }
      | none => p
    match p.stream c with
    | none => p
    | some st =>
      closeIfEmpty c (p.setChannel c (.recording { st with members := st.members.filter (·.bay != b) }))

/-! ## Joining -/

/-- A bay has joined the stream of channel `c`: the records' *channel*, the stage RECORDING, and WRITE with
the record's speed and the image's block count (R70, R116). -/
def bayJoined (b : Fin 12) (c : Fin 4) (blocks : Nat) (p : Part) : Part :=
  match p.occupant (.bay b) with
  | none => p
  | some r =>
    let speed := match (p.disc r).bind (·.speed) with | some n => n | none => 1
    let p := p.modDisc r fun d => { d with channel := some c }.atStage .recording
    let p := sendDrive b .write (.write speed blocks) p.tower.progressTimeout p
    (enterBay b .writing p).modBay b fun x => { x with channel := some c }

/-- A new member (R116, R122). -/
def Member.new (b : Fin 12) : Member := { bay := b, position := 0, driveReady := false }

/-- A bay entering ATTACHING joins the joinable stream of the image on the lowest channel, or places a
new-stream request (R122). -/
def attach (b : Fin 12) (i : Fin 32) (p : Part) : Part :=
  let blocks := match p.image i with | some x => x.blocks | none => 0
  let fits : Fin 4 → Bool := fun c =>
    match p.stream c with
    | some st => st.image == i && st.joinable
    | none => false
  match (if p.imageReady i then allChannels.find? fits else none) with
  | some c =>
    match p.stream c with
    | some st =>
      bayJoined b c blocks (p.setChannel c (.recording { st with members := st.members ++ [Member.new b] }))
    | none => p
  | none => { p with streamReqs := p.streamReqs ++ [{ bay := b, image := i }] }

/-- A bay's new-stream request leaves the arbiter (R122). -/
def withdrawRequest (b : Fin 12) (p : Part) : Part :=
  { p with streamReqs := p.streamReqs.filter (·.bay != b) }

/-! ## The channel arbiter (R126, R127) -/

/-- The channel is FREE. -/
def Part.isFree (p : Part) (c : Fin 4) : Bool := p.channel c = .free

/-- The channel a recording request would take (R126). -/
def Part.recordingChannel (p : Part) : Option (Fin 4) :=
  (if p.tower.surveyReserve then [0, 1, 2] else allChannels).find? p.isFree

/-- The channel a survey would take (R126). -/
def Part.surveyChannel (p : Part) : Option (Fin 4) :=
  (if p.tower.surveyReserve then [3, 0, 1, 2] else allChannels).find? p.isFree

/-- The priority of the job whose disc waits in a bay. -/
def Part.bayPriority (p : Part) (b : Fin 12) : Nat :=
  match (p.occupant (.bay b)).bind p.jobOf with
  | some j => j.priority
  | none => 0

/-- The eligible new-stream request of highest priority, oldest first (R126). -/
def Part.bestRequest (p : Part) : Option StreamReq :=
  (p.streamReqs.filter fun q => p.imageReady q.image).foldl (fun best q =>
    match best with
    | none => some q
    | some x => if p.bayPriority x.bay < p.bayPriority q.bay then some q else some x) none

/-- Open a stream for a request: its bay is the first member, and every other bay waiting for the image
joins in the order of the requests (R116). -/
def grantStream (q : StreamReq) (c : Fin 4) (p : Part) : Part :=
  match p.image q.image with
  | none => p
  | some i =>
    let others := p.streamReqs.filter fun x => x.image == q.image && x.bay != q.bay
    let bays := q.bay :: others.map (·.bay)
    let p := { p with streamReqs := p.streamReqs.filter fun x => x.image != q.image }
    let p := p.setChannel c (.recording
      { image := q.image, chunks := i.chunks, resident := decide (i.chunks ≤ Config.windowChunks)
        catchUp := false, joinPeriodEnd := p.now + p.tower.joinHold
        joinOver := p.tower.joinHold == 0, head := 0, tail := 0, read := none
        members := bays.map Member.new, splitRequested := false })
    bays.foldl (fun p b => bayJoined b c i.blocks p) p

/-- A split's grant moves the slowest member onto a catch-up stream on channel `c` (R126). -/
def grantSplit (old c : Fin 4) (p : Part) : Part :=
  let p := { p with splitReqs := p.splitReqs.filter (· != old) }
  match p.stream old with
  | none => p
  | some st =>
    match st.slowest with
    | none => p
    | some m =>
      let p := p.setChannel old (.recording { st with
        members := st.members.filter (·.bay != m.bay), splitRequested := false })
      let p := p.setChannel c (.recording
        { image := st.image, chunks := st.chunks, resident := false, catchUp := true
          joinPeriodEnd := p.now, joinOver := true, head := m.position, tail := m.position
          read := none, members := [m], splitRequested := false })
      let p := p.modBay m.bay fun x => { x with channel := some c }
      let p := match p.occupant (.bay m.bay) with
        | some r => p.modDisc r fun d => { d with channel := some c }
        | none => p
      closeIfEmpty old p

/-- A survey's grant: SURVEYING on the channel, progress 0, the read of chunk 0 (R105, R106). -/
def grantSurvey (i : Fin 32) (c : Fin 4) (p : Part) : Part :=
  let p := { p with surveyQueue := p.surveyQueue.filter (· != i) }
  match p.image i with
  | none => p
  | some x =>
    let p := p.setImage i (some { x with state := .surveying, surveyChannel := some c, surveyProgress := 0 })
    let sent := readChunk c x 0 1 p
    sent.1.setChannel c (.survey { image := i, read := sent.2 })

/-- The first grant that can be made, by class and within the class (R126). -/
def grantChannel (p : Part) : Option Part :=
  match p.splitReqs.head?, p.bestRequest, p.recordingChannel with
  | some old, _, some c => some (grantSplit old c p)
  | none, some q, some c => some (grantStream q c p)
  | _, _, _ =>
    match p.surveyQueue.head?, p.surveyChannel with
    | some i, some c => some (grantSurvey i c p)
    | _, _ => none

/-- One round of the arbiter: the streams do what they can and place their requests, and a grant is made if one
can be (R126, R127). -/
def grantRound (p : Part) : Part :=
  match grantChannel (pumpStreams p) with
  | some q => q
  | none => pumpStreams p

/-- The stream engine and the channel arbiter after an event: rounds while a further grant can be made, so that
a request placed by a stream just opened or split is evaluated too. Each grant takes a FREE channel, so a round
for each channel makes every grant there is (R126, R127). -/
def settleStreams (p : Part) : Part := pumpStreams (allChannels.foldl (fun p _ => grantRound p) p)

/-! ## Store answers -/

/-- The STORE READ in flight on a channel. -/
def Part.readOf (p : Part) (c : Fin 4) : Option StoreRead :=
  match p.channel c with
  | .recording st => st.read
  | .survey s => some s.read
  | .free => none

/-- The answer is for the attempt in flight; any other answer is discarded (R107, R117). -/
def Part.answers (p : Part) (c : Fin 4) (id : Nat) : Bool :=
  match p.readOf c with
  | some x => x.id == id
  | none => false

/-- The segment a survey completes with a chunk: the chunk is the segment's last (R106). -/
def Image.completes (i : Image) (chunk : Nat) : Bool := chunk % 8 == 7 || chunk + 1 == i.chunks

/-- DATA: the chunk goes into its slot, and a survey's completed segment's digest into its slot (R106,
R117; log 14). -/
def storeData (p : Part) (c : Fin 4) (id : Nat) (bytes : List Byte) (m : Memory) : Memory :=
  match p.readOf c with
  | none => m
  | some x =>
    if x.id == id then
      let m := { m with buffer := poke m.buffer (slotAddress c x.chunk) (bytes.take Config.slotBytes) }
      match p.channel c with
      | .survey s =>
        match p.image s.image with
        | some i =>
          if i.completes x.chunk then
            let seg := x.chunk / 8
            let bytes := peekRun m.buffer (slotAddress c (8 * seg)) (2048 * segmentBlocks i.blocks seg)
            { m with digests := poke m.digests (digestSlot i seg) [digest bytes] }
          else m
        | none => m
      | _ => m
    else m

/-- A survey's chunk has been read: progress, completion, or the next chunk (R106, R108). -/
def surveyRead (c : Fin 4) (s : Survey) (p : Part) : Part :=
  match p.image s.image with
  | none => p
  | some i =>
    let progress := i.surveyProgress + (if i.completes s.read.chunk then 1 else 0)
    if s.read.chunk + 1 == i.chunks then
      let p := p.setImage s.image (some { i with
        state := .ready, referenceValid := true, surveyChannel := none, surveyProgress := progress })
      imageBecomesReady s.image (freeChannel c p)
    else
      let p := p.setImage s.image (some { i with surveyProgress := progress })
      let sent := readChunk c i (s.read.chunk + 1) 1 p
      sent.1.setChannel c (.survey { s with read := sent.2 })

/-- A recording stream's chunk has been read: *head* rises (R117). -/
def streamRead (c : Fin 4) (st : Stream) (p : Part) : Part :=
  p.setChannel c (.recording { st with read := none, head := st.head + 1 })

/-- DATA for the attempt in flight (R106, R117). -/
def takeData (c : Fin 4) (id : Nat) (p : Part) : Part :=
  if p.answers c id then
    match p.channel c with
    | .recording st => streamRead c st p
    | .survey s => surveyRead c s p
    | .free => p
  else p

/-- A survey's store failure (R109). -/
def surveyFails (c : Fin 4) (s : Survey) (p : Part) : Part :=
  let p := p.modImage s.image fun i => { i with
    state := .faulted, surveyChannel := none
    fault := some { origin := .survey, chunk := s.read.chunk } }
  raise .imageFault (freeChannel c p)

/-- The catalogue's part of a stream's store failure: a READY image enters FAULTED of origin STREAM, a
FAULTED one stays (R110). -/
def faultImage (i : Fin 32) (chunk : Nat) (p : Part) : Part :=
  if p.imageReady i then
    raise .imageFault (p.modImage i fun x => { x with
      state := .faulted, fault := some { origin := .stream, chunk := chunk } })
  else p

/-! ## Acknowledgements (R118, R119) -/

/-- A chunk of the member is between send and acknowledgement (R118). -/
def Member.outstanding (m : Member) : Bool := !m.driveReady && decide (0 < m.position)

/-- READY: the member's drive can take its first chunk (R118; log 12). -/
def memberReady (b : Fin 12) (p : Part) : Part :=
  match (p.bay b).channel with
  | none => p
  | some c =>
    match p.stream c with
    | none => p
    | some st =>
      match st.member b with
      | none => p
      | some m =>
        if m.position = 0 then
          let p := p.modBay b fun x => { x with deadline := none }
          p.setChannel c (.recording { st with
            members := st.members.map fun x => if x.bay = b then { x with driveReady := true } else x })
        else p

/-- A member's last chunk is acknowledged: it leaves the stream and its bay sends CLOSE (R70, R119). -/
def memberFinished (b : Fin 12) (r : Fin 24) (p : Part) : Part :=
  let p := leaveStream b (endDriveOp b p)
  let p := sendDrive b .close .close closeTimeout p
  setStage r .closing (enterBay b .finalizing p)

/-- CHUNK_ACK: *blocks written* rises by the chunk's count, and the next chunk may be sent or the member
finishes (R119; log 12). -/
def memberAck (b : Fin 12) (p : Part) : Part :=
  match (p.bay b).channel, p.occupant (.bay b) with
  | some c, some r =>
    match p.stream c with
    | none => p
    | some st =>
      match st.member b, p.image st.image with
      | some m, some i =>
        if m.outstanding then
          let p := p.modDisc r fun d =>
            { d with blocksWritten := d.blocksWritten + chunkBlocks i.blocks (m.position - 1) }
          if m.position = st.chunks then memberFinished b r p
          else
            let p := p.modBay b fun x => { x with deadline := none }
            p.setChannel c (.recording { st with
              members := st.members.map fun x => if x.bay = b then { x with driveReady := true } else x })
        else p
      | _, _ => p
  | _, _ => p

end Sys2Proof.Machine
end

