-- ==== Sys2Proof/Machine/TowerBase.lean ====
section
/-! DEFINITION. Tower control's shared operations: entering states, pause, halt and resume, the sweep's
marks, when a start, a stop and an abort are complete (R164 to R172). -/

namespace Sys2Proof.Machine

/-- Enter a tower state; TOWER_STATE is raised once (R164). -/
def enterTower (st : TowerState) (p : Part) : Part :=
  raise .towerState { p with tower := { p.tower with state := st } }

/-- The resume state that stands for a state left (R164). -/
def TowerState.asResume : TowerState → Option Resume
  | .starting => some .starting | .running => some .running | .stopping => some .stopping
  | .stopped => none | .paused => none | .halted => none | .aborting => none

/-- The door has opened: PAUSED from STARTING, RUNNING or STOPPING (R171). -/
def pauseTower (p : Part) : Part :=
  match p.tower.state.asResume with
  | some x => enterTower .paused { p with tower := { p.tower with resume := some x } }
  | none => p

/-- A jam: HALTED from STARTING, RUNNING or STOPPING, and from PAUSED with its resume state kept (R172). -/
def haltTower (p : Part) : Part :=
  match p.tower.state.asResume with
  | some x => enterTower .halted { p with tower := { p.tower with resume := some x } }
  | none => if p.tower.state = .paused then enterTower .halted p else p

/-- Leave PAUSED or HALTED for the resume state (R171, R172). -/
def resumeTower (p : Part) : Part :=
  if p.tower.state = .paused ∨ p.tower.state = .halted then
    match p.tower.resume with
    | some x => enterTower x.state { p with tower := { p.tower with resume := none } }
    | none => p
  else p

/-- The sweep's arm mark clears (R167). -/
def clearArmMark (p : Part) : Part :=
  { p with tower := { p.tower with sweep := p.tower.sweep.map fun w => { w with armMark := false } } }

/-- The sweep's printer mark clears (R168). -/
def clearPrinterMark (p : Part) : Part :=
  { p with tower := { p.tower with
    sweep := p.tower.sweep.map fun w => { w with printerMark := false, queryOwed := false } } }

/-- No mark of the sweep is pending (R166). -/
def Sweep.complete (w : Sweep) : Bool :=
  !w.armMark && !w.printerMark && allBays.all fun b => !w.bayMarks[b.val]

/-- A normal stop is complete: every held disc in an active stage is in HOST_HOLD, and the arm has no
operation in flight (R169). -/
def Part.stopComplete (p : Part) : Bool :=
  p.arm.op.isNone && allDiscs.all fun r =>
    match p.stageOf r with
    | some st => !st.active || st == .hostHold
    | none => true

/-- An abort is complete: the arm has no operation in flight, and every RESET sent under the abort order has
ended (R170). -/
def Part.abortComplete (p : Part) : Bool :=
  p.arm.op.isNone && allBays.all fun b => !(p.bay b).abortMark

/-- The test of an abort's completion: made at the entry into ABORTING, at each arm operation's final report
and at the completion of each RESET sent under the abort order, and at no other event (R170; log 42). -/
def testAbort (p : Part) : Part :=
  if p.tower.state = .aborting ∧ p.abortComplete = true then enterTower .stopped p else p

/-- A bay that owes the sweep a RESET and has no operation in flight is sent it; one that is FAULTED or out
of service has its mark cleared (R168; log 23). -/
def sweepFollow (b : Fin 12) (p : Part) : Part :=
  match p.tower.sweep with
  | none => p
  | some w =>
    if w.resetOwed[b.val] && (p.bay b).operation.isNone then
      if (p.bay b).state = .faulted ∨ (p.bay b).enabled = false then clearBayMark b p else resetBay b p
    else p

/-- Tower control after an event: the sweep's outstanding RESETs, and the end of a start or a normal stop
(R166, R169). -/
def settleTower (p : Part) : Part :=
  let p := allBays.foldl (fun p b => sweepFollow b p) p
  match p.tower.state with
  | .starting =>
    match p.tower.sweep with
    | some w =>
      if w.complete then enterTower .running { p with tower := { p.tower with sweep := none } } else p
    | none => enterTower .running p
  | .stopping => if p.stopComplete then enterTower .stopped p else p
  | _ => p

end Sys2Proof.Machine
end

