-- ==== Sys2Proof/Machine/Printer.lean ====
section
/-! DEFINITION. The printer station: the temperature gate, placement, label orders, the end of a label,
findings (R144 to R146, R154 to R158). -/

namespace Sys2Proof.Machine

/-- Each report that carries a head temperature updates it and is applied to the gate first (R145, R146). -/
def takeTemperature (t : Nat) (p : Part) : Part :=
  let s := p.station
  let isOpen := if s.gateOpen then decide (t < s.critical) else decide (t ≤ s.warning)
  raiseIf (s.gateOpen && !isOpen) .headHot
    { p with station := { s with headTemperature := t, gateOpen := isOpen } }

/-- The station enters a state other than FAULT; *fault cause* is cleared (R158). -/
def enterStation (st : StationState) (p : Part) : Part :=
  { p with station := { p.station with state := st, faultCause := none } }

/-- The station enters FAULT with a cause (R144, R157, R158). -/
def faultStation (cause : StationFault) (p : Part) : Part :=
  { p with station := { p.station with state := .fault, faultCause := some cause } }

/-- The station enters FINISHED: its occupant receives an *eligible order* unless it is in HOST_HOLD (R7,
R144). -/
def finishStation (p : Part) : Part :=
  let p := enterStation .finished p
  match p.occupant .printer with
  | some r => if p.stageOf r = some .hostHold then p else giveOrder r p
  | none => p

/-- The tray's occupant has been carried off or was not there: a FINISHED station enters EMPTY (R156;
log 20). -/
def trayVacated (p : Part) : Part :=
  if p.station.state = .finished then enterStation .empty p else p

/-- A disc has been placed on the tray; the occupant is set (R154). -/
def placeOnTray (r : Fin 24) (p : Part) : Part :=
  if p.isReject r then
    let p := setStage r .rejectBound p
    if p.station.state = .fault then p else finishStation p
  else
    let p := setStage r .printing p
    if p.station.state = .fault then p else enterStation .loaded p

/-- A label order is possible (R155). -/
def Part.labelPossible (p : Part) : Bool :=
  p.station.state == .loaded && p.station.gateOpen && p.tower.state.working &&
    p.station.labelDeadline.isNone && p.station.queryDeadline.isNone

/-- Send the label order of the tray's disc: issue its serial, send LABEL, start the limit; PRINTING
(R155). -/
def orderLabel (r : Fin 24) (x : Fin 16) (j : Job) (t : Template) (p : Part) : Part :=
  let serial : Option Nat := j.serials.map (·.next)
  let digits := j.serialDigits.getD 0
  let p := p.modDisc r fun d => { d with serial := match serial with | some n => some n | none => d.serial }
  let p := p.modJob x fun j => { j with serials := j.serials.map (·.issue digits) }
  let p := emit (.label
    { inner := t.inner, outer := t.outer, quality := t.quality, coverage := t.coverage
      job := jobNumber x, serial := serial.map (decimalDigits digits) }) p
  let p := enterStation .printing p
  { p with station := { p.station with labelDeadline := some (p.now + labelLimit) } }

/-- The label order, when its conditions hold (R155). -/
def labelOrder (p : Part) : Part :=
  if p.labelPossible then
    match p.occupant .printer with
    | none => p
    | some r =>
      if p.isReject r then p
      else
        match (p.disc r).bind (·.job), p.jobOf r, p.templateOf r with
        | some x, some j, some t => orderLabel r x j t p
        | _, _, _ => p
  else p

/-- The amounts a printer report of *drops* stands for, in nL (R156). -/
def Part.actualInk (p : Part) (d : Drops) : Vector Nat 4 :=
  #v[ceilDiv (d.k * (p.inkChannel 0).dropVolume) 1000, ceilDiv (d.c * (p.inkChannel 1).dropVolume) 1000,
    ceilDiv (d.m * (p.inkChannel 2).dropVolume) 1000, ceilDiv (d.y * (p.inkChannel 3).dropVolume) 1000]

/-- The amounts reserved for a record, 0 when none are. -/
def Part.reservedFor (p : Part) (r : Fin 24) : Vector Nat 4 :=
  match (p.disc r).bind (·.reservation) with
  | some v => v
  | none => #v[0, 0, 0, 0]

/-- Settlement: *level* loses the actual amounts, the reservation is removed, and a retry pass runs (R152,
R156; log 32). -/
def settleInk (r : Fin 24) (actual : Vector Nat 4) (p : Part) : Part :=
  let q := unreserve r p
  retryPass (raiseInkLow p (eachInk (fun k c => { c with level := c.level - actual[k.val] }) q))

/-- The record after its label has ended (R156). -/
def labelledDisc (r : Fin 24) (failed : Bool) (p : Part) : Part :=
  if p.isReject r then setStage r .rejectBound p
  else if failed then setStage r .rejectBound (writeReject r .printFailed p)
  else setStage r .outbound (writeGood r p)

/-- The sweep's QUERY that waited for the label is sent (R166). It is sent however the label ends, by its limit's
expiry or the engine's FAULT too, where R166 says at its final report (DESIGN CHOICE, log 46). -/
def payQuery (p : Part) : Part :=
  match p.tower.sweep with
  | some w =>
    if w.queryOwed then
      sendQuery { p with tower := { p.tower with sweep := some { w with queryOwed := false } } }
    else p
  | none => p

/-- A label ends, by DONE, FAILED, its limit or a FAULT: settlement, the disc, the station FINISHED or
FAULT, and the disc's *eligible order* (R156, R157); a QUERY the sweep owes is then sent (DESIGN CHOICE, log 46). -/
def endLabel (actual : Vector Nat 4) (failed : Bool) (fault : Option StationFault) (p : Part) : Part :=
  let p := { p with station := { p.station with labelDeadline := none } }
  let p := match p.occupant .printer with
    | some r => labelledDisc r failed (settleInk r actual p)
    | none => p
  let p := match fault with
    | none => finishStation p
    | some c =>
      let p := faultStation c p
      match p.occupant .printer with
      | some r => giveOrder r p
      | none => p
  payQuery p

/-- A disc on the tray with no occupant named: a FOUND record and FINISHED, or FAULT UNTRACKED_DISC
(R158). -/
def trayFinding (p : Part) : Part :=
  let found := createFound .printer p
  if found.2 then finishStation found.1 else faultStation .untrackedDisc found.1

/-- A STATUS reporting READY, by the tray and the occupant (R158). -/
def statusReady (present : Bool) (p : Part) : Part :=
  match p.occupant .printer with
  | none => if present then trayFinding p else enterStation .empty p
  | some r =>
    if present then
      if p.stageOf r = some .printing then enterStation .loaded p else finishStation p
    else enterStation .empty (foundLost .printer r p)

end Sys2Proof.Machine
end

