-- ==== Sys2Proof/Machine/Rejects.lean ====
section
/-! DEFINITION. A REJECT reaching a disc in flight, and the failures of bays and streams (R13, R76 to R78,
R125, R141, R170). -/

namespace Sys2Proof.Machine

/-- A REJECT of its occupant reaches a bay; it acts by its state (R77, R141). -/
def bayReject (b : Fin 12) (p : Part) : Part :=
  match (p.bay b).state with
  | .closingTray => resetBay b p
  | .querying => resetBay b p
  | .finalizing => resetBay b p
  | .writing => resetBay b (leaveStream b p)
  | .readingBack => resetBay b (p.setContext b none)
  | .attaching => enterBay b .holding (withdrawRequest b p)
  | _ => p

/-- A label order for the disc is in flight (R13). -/
def Part.labelInFlight (p : Part) (r : Fin 24) : Bool :=
  p.station.labelDeadline.isSome && p.occupant .printer == some r

/-- A REJECT reaches a PRINTING disc with no label order sent (R13, R155). -/
def rejectUnprinted (r : Fin 24) (p : Part) : Part :=
  let p := setStage r .rejectBound (release r p)
  match p.station.state with
  | .loaded => finishStation p
  | .fault => giveOrder r p
  | _ => p

/-- The propagation of a first REJECT, by the stage held (R13). -/
def propagateReject (r : Fin 24) (p : Part) : Part :=
  match p.disc r with
  | none => p
  | some d =>
    match d.stage with
    | .delivered => p
    | .rejected => p
    | .rejectBound => p
    | .printing => if p.labelInFlight r then p else rejectUnprinted r p
    | st =>
      let p := setStage r .rejectBound (leaveLabelUnit r p)
      match d.place with
      | some (.bay b) => bayReject b p
      | some _ => if st = .hostHold then giveOrder r p else p
      | none => p

/-- Write a REJECT and, when it is the first, propagate it (R4, R13). -/
def rejectDisc (r : Fin 24) (why : Reason) (p : Part) : Part :=
  if p.isReject r then writeReject r why p else propagateReject r (writeReject r why p)

/-- A *failure* of a bay, in the order of R76: RESET; the REJECT; the stream or read-back; the outcome; the
count. In an unoccupied bay the RESET alone. -/
def bayFailure (b : Fin 12) (why : Reason) (p : Part) : Part :=
  match p.occupant (.bay b) with
  | none => resetBay b p
  | some r =>
    let pending := (p.disc r).map (·.verdict) == some .pending
    let p := rejectDisc r why (resetBay b p)
    let p := leaveStream b (p.setContext b none)
    let p := if pending then handOutcome r .fail p else p
    countFailure b p

/-- A *failed recovery*: the bay is FAULTED RESET_FAILED and its occupant rejected BAY_FAULT, with no
waiting move request (R78). -/
def failedRecovery (b : Fin 12) (p : Part) : Part :=
  let p := faultBay b .resetFailed (endReset b p)
  match p.occupant (.bay b) with
  | some r => clearOrder r (rejectDisc r .bayFault p)
  | none => p

/-- RESET_DONE acts on the presence and tray reported and on the occupant (R78). -/
def afterReset (b : Fin 12) (present : Bool) (tray : Tray) (p : Part) : Part :=
  let emptied : Part → Part := fun p =>
    match tray with
    | .opened => emptyBay b p
    | .shut => ejectBay b p
  match p.occupant (.bay b) with
  | none => if present then bayFinding b tray p else emptied p
  | some r =>
    if present then
      match tray with
      | .shut => enterBay b .holding p
      | .opened => presentBay b p
    else emptied (foundLost (.bay b) r p)

/-- A store failure of a recording stream, in the order of R125. -/
def streamFails (c : Fin 4) (st : Stream) (chunk : Nat) (p : Part) : Part :=
  let p := faultImage st.image chunk p
  let p := changeImageHolds st.image (fun h => { h with source := true }) p
  st.members.foldl (fun p m =>
    leaveStream m.bay
      (match p.occupant (.bay m.bay) with
      | some r => rejectDisc r .sourceError p
      | none => p)) (p.setChannel c (.recording { st with read := none }))

/-- An attempt fails: the same STORE READ again, or at the third attempt a store failure (R107, R117). -/
def failAttempt (c : Fin 4) (p : Part) : Part :=
  match p.channel c with
  | .free => p
  | .recording st =>
    match st.read, p.image st.image with
    | some x, some i =>
      if x.attempt < 3 then
        let sent := readChunk c i x.chunk (x.attempt + 1) p
        sent.1.setChannel c (.recording { st with read := some sent.2 })
      else streamFails c st x.chunk p
    | _, _ => p
  | .survey s =>
    match p.image s.image with
    | some i =>
      if s.read.attempt < 3 then
        let sent := readChunk c i s.read.chunk (s.read.attempt + 1) p
        sent.1.setChannel c (.survey { s with read := sent.2 })
      else surveyFails c s p
    | none => p

/-- The bay states the abort order reaches (R170). -/
def BayState.abortable : BayState → Bool
  | .closingTray => true | .querying => true | .attaching => true | .writing => true
  | .finalizing => true | .readingBack => true
  | _ => false

/-- The abort order reaches one bay: its occupant is rejected ABORTED, and a RESET sent for it is marked
(R77, R170). -/
def abortBay (b : Fin 12) (p : Part) : Part :=
  if (p.bay b).state.abortable then
    match p.occupant (.bay b) with
    | some r =>
      let p := rejectDisc r .aborted p
      p.modBay b fun x => { x with abortMark := x.state == .resetting }
    | none => p
  else p

/-- The abort order: REJECT ABORTED into every FEEDING record and every occupant of an abortable bay
(R170). -/
def abortOrder (p : Part) : Part :=
  let p := allDiscs.foldl (fun p r =>
    if p.stageOf r = some .feeding then rejectDisc r .aborted p else p) p
  allBays.foldl (fun p b => abortBay b p) p

end Sys2Proof.Machine
end

