-- ==== Sys2Proof/Machine/Handler.lean ====
section
/-! DEFINITION. The handler unit's operations on the arm: spindles and sinks, moves and their ends, the
move arbiter, the pick selector, jams, the door and the grip resolution (R35 to R37, R42 to R62, R167). -/

namespace Sys2Proof.Machine

/-! ## Spindles and sinks -/

/-- A sink is *full* (R45). -/
def Sink.full (s : Sink) : Bool := decide (s.capacity ≤ s.count)

/-- `n` discs are dropped onto OUTPUT; OUTPUT_FULL is raised when it becomes full (R45). -/
def addOutput (n : Nat) (p : Part) : Part :=
  let s := { p.output with count := p.output.count + n }
  raiseIf (!p.output.full && s.full) .outputFull { p with output := s }

/-- `n` discs are dropped into the REJECT BIN; REJECT_FULL is raised when it becomes full (R45). -/
def addBin (n : Nat) (p : Part) : Part :=
  let s := { p.bin with count := p.bin.count + n }
  raiseIf (!p.bin.full && s.full) .rejectFull { p with bin := s }

/-- Write a spindle; SPINDLE_EMPTY is raised when its *empty* goes from clear to set (R43). -/
def changeSpindle (s : SpindleId) (x : Spindle) (p : Part) : Part :=
  raiseIf (x.empty && !(p.spindle s).empty) .spindleEmpty (p.setSpindle s x)

/-- A blank has left the spindle: *count* falls by 1, *empty* is set when it reaches 0 (R43). -/
def useBlank (s : SpindleId) (p : Part) : Part :=
  let x := p.spindle s
  changeSpindle s { x with count := x.count - 1, empty := x.empty || decide (x.count ≤ 1) } p

/-- The second MISSED of one pick: *count* 0 and *empty* set (R43, R55). -/
def emptySpindle (s : SpindleId) (p : Part) : Part :=
  changeSpindle s { p.spindle s with count := 0, empty := true } p

/-- STILL_DOUBLE: one blank more is gone, and is counted wasted (R43). -/
def wasteBlank (s : SpindleId) (p : Part) : Part :=
  let p := useBlank s p
  p.setSpindle s { p.spindle s with wasted := min 65535 ((p.spindle s).wasted + 1) }

/-- SPINDLE LOADED's effect on a spindle (R43, R44). -/
def loadSpindle (s : SpindleId) (cls : DiscClass) (count : Nat) (p : Part) : Part :=
  changeSpindle s { cls := cls, count := count, empty := count == 0, wasted := 0 } p

/-! ## The ends of a move -/

/-- Change the current move. -/
def modMove (f : Move → Move) (p : Part) : Part :=
  { p with arm := { p.arm with move := p.arm.move.map f } }

/-- The arm enters a state; the *halt cause* is held while HALTED alone (R47). -/
def enterArm (st : ArmState) (p : Part) : Part := { p with arm := { p.arm with state := st, halt := none } }

/-- The operation in flight has had its final report: its timeout is cleared (R50). -/
def endArmOp (p : Part) : Part := { p with arm := { p.arm with op := none, heldInterrupted := false } }

/-- The current move is discarded; the arm is IDLE, but a HALTED arm stays HALTED (R47). -/
def endMove (p : Part) : Part :=
  { p with arm := { p.arm with move := none, state := if p.arm.state = .halted then .halted else .idle } }

/-- The destination of a pick is released: a bay leaves EXPECTING, a PRINT job's reservation is released
(R10, R51, R57). -/
def releaseDest (m : Move) (p : Part) : Part :=
  match m.kind, m.dest with
  | .pick, .bay b => releaseBay b (release m.record p)
  | _, _ => release m.record p

/-- A pick is withdrawn (R10, R55): its record is freed, its counts reversed, its destination released. -/
def withdrawPick (m : Move) (p : Part) : Part :=
  let job := (p.disc m.record).bind (·.job)
  let p := (releaseDest m p).setOccupant .arm none
  let p := freeRecord m.record (leaveLabelUnit m.record p)
  let p := match job with
    | some x => jobWithdrawn x p
    | none => p
  endMove p

/-- The disc on the arm is lost: REJECT LOST, finalised, ARM empty, the destination released (R51, R60). -/
def dropLost (m : Move) (p : Part) : Part :=
  endMove (finaliseLost m.record ((releaseDest m p).setOccupant .arm none))

/-- The occupant of a place has been cleared; its owner is told (R42, R75, R156). -/
def placeVacated (pl : Place) (p : Part) : Part :=
  match pl with
  | .bay b => bayVacated b p
  | .printer => trayVacated p
  | .arm => p

/-- A TRANSFER found no disc at its source (R51). -/
def transferMissed (m : Move) (p : Part) : Part :=
  let p := match m.source with
    | .place pl => placeVacated pl (finaliseLost m.record (p.setOccupant pl none))
    | .spindle _ => p
  endMove p

/-- The arm has gripped the disc of a move: a pick's blank leaves the spindle, a transfer's disc its place
(R43, R49, R153). -/
def grip (m : Move) (p : Part) : Part :=
  let p := match m.source with
    | .spindle s => useBlank s p
    | .place pl =>
      let p := (p.setOccupant pl none).setOccupant .arm (some m.record)
      let p := p.modDisc m.record fun d => { d with place := some .arm, eligible := none }
      placeVacated pl (leavePrintQueue m.record p)
  modMove (fun m => { m with gripped := true }) p

/-- A disc has been placed in a bay (R68; log 35). A bay that is OFFLINE, out of the installed set among them,
stays OFFLINE with the disc in it (R64, R65, R165). -/
def placedInBay (b : Fin 12) (r : Fin 24) (p : Part) : Part :=
  let p := p.modDisc r fun d => { d with bay := some b }
  match (p.bay b).state with
  | .expecting | .open_ =>
    if p.isReject r then presentBay b p
    else
      let p := setStage r .loading p
      loadBay b (p.modBay b fun x => { x with loads := min 65535 (x.loads + 1) })
  | _ => p

/-- The arm carries an unseparated pair (R57). -/
def Feed.isPair : Feed → Bool
  | .single => false | .separating => false | .pairWaiting => true | .pair => true

/-- The disc of the current move has arrived (R49). A place that was found occupied while the move was on its way
takes the disc all the same: its occupant is overwritten, and the record found keeps the place in its *place*
(DESIGN CHOICE, log 48). -/
def arrive (m : Move) (p : Part) : Part :=
  let p := p.setOccupant .arm none
  let put : Place → Part → Part := fun pl p =>
    (p.setOccupant pl (some m.record)).modDisc m.record fun d => { d with place := some pl }
  let p := match m.dest with
    | .bay b => placedInBay b m.record (put (.bay b) p)
    | .printer => placeOnTray m.record (put .printer p)
    | .output => finaliseDropped m.record (addOutput 1 p)
    | .bin =>
      if m.feed.isPair then createExtra (finaliseReject m.record (addBin 2 p))
      else finaliseReject m.record (addBin 1 p)
  endMove p

/-- The unseparated pair goes to the REJECT BIN, or waits at ARM while it is full (R57, R60). -/
def deliverPair (p : Part) : Part :=
  let p := enterArm .moving p
  if p.bin.full then modMove (fun m => { m with feed := .pairWaiting }) p
  else sendArm (.deliver .bin) (modMove (fun m => { m with feed := .pair }) p)

/-! ## The pick selector (R35 to R37) -/

/-- Condition 6: a spindle with blanks of a class (R35, R43). -/
def Spindle.offers (s : Spindle) (c : DiscClass) : Bool := s.cls == c && decide (0 < s.count) && !s.empty

/-- The source of a pick of a class: SPINDLE A before SPINDLE B (R35). -/
def Part.pickSource (p : Part) (c : DiscClass) : Option SpindleId :=
  if p.spindleA.offers c then some .a else if p.spindleB.offers c then some .b else none

/-- A bay can be a pick's destination (R35). -/
def Bay.takes (x : Bay) (c : DiscClass) : Bool :=
  x.state == .open_ && x.enabled && !x.disablePending && (x.support c).isSome

/-- PRINTER can be a pick's destination for a job: station and queue empty, and an admission passes
(R35). -/
def Part.trayTakes (p : Part) (j : Job) : Bool :=
  p.station.state == .empty && p.printQueue.isEmpty &&
    match j.template.bind p.template with
    | some t => p.admits t
    | none => false

/-- Condition 7: the destination of a pick for a job (R35). -/
def Part.pickDest (p : Part) (j : Job) : Option Dest :=
  match j.kind with
  | .print => if p.trayTakes j then some .printer else none
  | .burn | .burnPrint => (allBays.find? fun b => (p.bay b).takes j.cls).map .bay

/-- Conditions 1 and 2 (R35). -/
def Job.needsPick (j : Job) : Bool := j.state == .running && decide (j.delivered + j.active < j.ordered)

/-- The pick that serves a job, when conditions 1, 2, 6 and 7 hold (R35). -/
def Part.pickFor (p : Part) (x : Fin 16) : Option Pick :=
  match p.job x with
  | none => none
  | some j =>
    if j.needsPick then
      match p.pickSource j.cls, p.pickDest j with
      | some s, some d => some { job := x, spindle := s, dest := d }
      | _, _ => none
    else none

/-- Job `a` is chosen before job `b`: higher *priority*, then older *last pick order* (R36). -/
def Job.before (a b : Job) : Bool :=
  decide (b.priority < a.priority) ||
    (a.priority == b.priority && decide (a.lastPick.getD 0 < b.lastPick.getD 0))

/-- The better of two picks (R36). -/
def Part.betterPick (p : Part) (best : Option Pick) (k : Pick) : Option Pick :=
  match best with
  | none => some k
  | some m =>
    match p.job k.job, p.job m.job with
    | some a, some b => if a.before b then some k else some m
    | _, _ => some m

/-- The pick chosen among all jobs, the free-record condition apart (R36). -/
def Part.bestPick (p : Part) : Option Pick := (allJobs.filterMap p.pickFor).foldl p.betterPick none

/-- A held spell begins, if none is in progress: TABLE_HELD once (R9). -/
def beginSpell (p : Part) : Part :=
  if p.heldSpell then p else raise .tableHeld { p with heldSpell := true }

/-- Conditions 3 and 4 (R35). -/
def Part.mayPick (p : Part) : Bool := p.tower.state == .running && p.arm.state == .idle

/-- The selector selects when nothing is offered; a pick wanted with fewer than 2 free records begins a
held spell (R9, R36). -/
def selectPick (p : Part) : Part :=
  if p.offered.isNone && p.mayPick then
    match p.bestPick with
    | none => p
    | some k => if 2 ≤ p.freeCount then { p with offered := some k } else beginSpell p
  else p

/-- The conditions of R35 still hold for an offered pick's job, spindle and destination (R37). -/
def Part.pickHolds (p : Part) (k : Pick) : Bool :=
  p.mayPick && decide (2 ≤ p.freeCount) &&
    match p.job k.job with
    | none => false
    | some j =>
      j.needsPick && (p.spindle k.spindle).offers j.cls &&
        match k.dest with
        | .bay b => (p.bay b).takes j.cls
        | _ => p.trayTakes j

/-- An offered pick whose conditions no longer hold is withdrawn (R37). -/
def checkOffer (p : Part) : Part :=
  match p.offered with
  | some k => if p.pickHolds k then p else { p with offered := none }
  | none => p

/-! ## The move arbiter (R52, R53) -/

/-- The class and destination of a record's waiting move request, when it is eligible (R52; log 17). -/
def Part.request (p : Part) (r : Fin 24) : Option (Nat × Dest) :=
  match p.disc r with
  | none => none
  | some d =>
    let reachable := match d.place with
      | some (.bay b) => (p.bay b).state == .presenting
      | _ => true
    if d.eligible.isSome && reachable then
      match d.stage, d.place with
      | .rejectBound, some _ => if p.bin.full then none else some (1, .bin)
      | .outbound, some .printer => if p.output.full then none else some (2, .output)
      | .printQueued, some (.bay _) =>
        if p.printQueue.head? == some r && (p.occupant .printer).isNone && p.station.state == .empty then
          some (3, .printer)
        else none
      | .outbound, some _ => if p.output.full then none else some (4, .output)
      | _, _ => none
    else none

/-- A record's request with its rank; while ARM has an occupant only requests from ARM count (R53). -/
def Part.rankedRequest (p : Part) (r : Fin 24) : Option (Nat × Nat × Fin 24 × Dest) :=
  match p.request r, p.disc r with
  | some q, some d =>
    if p.places.arm.isNone || d.place == some .arm then some (q.1, d.eligible.getD 0, r, q.2) else none
  | _, _ => none

/-- The request granted first: the lowest class, then the oldest *eligible order* (R53). -/
def Part.bestMove (p : Part) : Option (Nat × Nat × Fin 24 × Dest) :=
  (allDiscs.filterMap p.rankedRequest).foldl (fun best q =>
    match best with
    | none => some q
    | some m => if q.1 < m.1 ∨ (q.1 = m.1 ∧ q.2.1 < m.2.1) then some q else some m) none

/-- Grant a waiting move request: TRANSFER from its place, or DELIVER from ARM (R49). -/
def grantMove (r : Fin 24) (dest : Dest) (p : Part) : Part :=
  match (p.disc r).bind (·.place) with
  | none => p
  | some pl =>
    let fromArm := pl == .arm
    let m : Move :=
      { kind := if fromArm then .deliver else .transfer, record := r, source := .place pl, dest := dest
        gripped := fromArm, missCount := 0, interrupted := false, feed := .single }
    let p := { p with offered := none, arm := { p.arm with move := some m } }
    let p := enterArm .moving (if fromArm then clearOrder r p else p)
    sendArm (if fromArm then .deliver dest else .transfer pl dest) p

/-- Issue a granted pick: its record is created at ARM, the job counts it, the destination is reserved, and
PICK is sent (R8, R32, R36, R49, R68, R163). -/
def issuePick (k : Pick) (r : Fin 24) (t : Option Template) (p : Part) : Part :=
  let p := p.setDisc r (some { Disc.fresh .feeding .pending with job := some k.job, place := some .arm })
  let p := stampPick k.job (jobCreated k.job (p.setOccupant .arm (some r)))
  let p := match k.dest, t with
    | .bay b, _ => enterBay b .expecting p
    | _, some t => reserve r (p.needs t) p
    | _, none => p
  let m : Move :=
    { kind := .pick, record := r, source := .spindle k.spindle, dest := k.dest, gripped := false
      missCount := 0, interrupted := false, feed := .single }
  sendArm (.pick k.spindle k.dest) (enterArm .moving { p with arm := { p.arm with move := some m } })

/-- Grant the offered pick: a failed PRINT admission or a refused record drops it (R8, R37, R163). -/
def grantPick (k : Pick) (p : Part) : Part :=
  let p := { p with offered := none }
  let t := match k.dest with
    | .printer => ((p.job k.job).bind (·.template)).bind p.template
    | _ => none
  let admitted := match k.dest, t with
    | .printer, some t => p.admits t
    | .printer, none => false
    | _, _ => true
  if admitted then
    match p.lowestFree with
    | some r => if 2 ≤ p.freeCount then issuePick k r t p else beginSpell p
    | none => beginSpell p
  else p

/-- The arbiter grants when the arm is IDLE and the tower RUNNING or STOPPING (R53). -/
def grantArm (p : Part) : Part :=
  if p.arm.state == .idle && (p.tower.state == .running || p.tower.state == .stopping) then
    match p.bestMove with
    | some q => grantMove q.2.2.1 q.2.2.2 p
    | none =>
      match p.offered with
      | some k => if p.tower.state == .running && p.places.arm.isNone then grantPick k p else p
      | none => p
  else p

/-- The pick selector and the move arbiter after an event (R36, R37, R53). -/
def settleArm (p : Part) : Part := grantArm (selectPick (checkOffer p))

/-! ## Jams, the door, homing -/

/-- A *jam* (R61): the arm HALTED by the jam with its move interrupted; ARM_HALT; the tower halts. -/
def jam (p : Part) : Part :=
  let p := modMove (fun m => { m with interrupted := true }) (endArmOp p)
  haltTower (raise .armHalt { p with arm := { p.arm with state := .halted, halt := some .jam } })

/-- The arm's part of the door's opening (R47, R58, R62). -/
def cutArm (p : Part) : Part :=
  if p.arm.state = .halted then p
  else
    let cause := match p.arm.op.map (·.order) with
      | some (.home .recover) => HaltCause.jam
      | _ => .door
    let p := modMove (fun m => { m with interrupted := true }) p
    { p with arm := { p.arm with
      state := .halted, halt := some cause, op := none, heldInterrupted := false, cut := p.arm.op } }

/-- The door has opened (R58, R171). -/
def doorOpened (p : Part) : Part := pauseTower (cutArm (raise .doorOpen p))

/-- Send HOME: the arm enters HOMING (R59, R62, R166). -/
def homeArm (why : HomeFor) (p : Part) : Part := sendArm (.home why) (enterArm .homing p)

/-- The door has closed: an arm HALTED by the door homes, and reports of operations sent before that HOME
are discarded from then on (R58, R59). -/
def doorShut (p : Part) : Part :=
  if p.arm.halt = some .door then
    homeArm .door { p with arm := { p.arm with liveFrom := p.arm.opCount } }
  else p

/-- A move goes on with its disc held: what was not yet gripped leaves its source, and DELIVER is sent to the
destination as it now stands (R60). -/
def deliverHeld (m : Move) (p : Part) : Part :=
  let p := if m.gripped then p else grip m p
  sendArm (.deliver m.dest) (enterArm .moving p)

/-- DISC HELD with a current move: the operation the resolution sends. A pair that was waiting for the bin waits
again while the bin is full; one whose DELIVER was cut short or jammed is delivered as any other move is, however
full the bin has become (R60). -/
def resolveHeld (m : Move) (p : Part) : Part :=
  match m.feed with
  | .separating => sendArm .separate (enterArm .separating p)
  | .pairWaiting => deliverPair p
  | .pair => deliverHeld m p
  | .single => deliverHeld m p

/-- NO DISC with a current move (R60). -/
def resolveEmpty (m : Move) (p : Part) : Part :=
  if m.gripped then dropLost m p
  else
    match m.kind with
    | .pick => withdrawPick m p
    | .transfer | .deliver => endMove p

/-- HOMED with no current move: an occupant of ARM is confirmed or lost, a disc without one is found (R11,
R60, R167). -/
def resolveAbsent (held : Bool) (p : Part) : Part :=
  match p.places.arm, held with
  | some _, true => p
  | some r, false => finaliseLost r (p.setOccupant .arm none)
  | none, true =>
    let found := createFound .arm p
    if found.2 then found.1 else jam found.1
  | none, false => p

/-- The grip resolution at HOMED, with the move's *interrupted* flag cleared (DESIGN CHOICE, log 36); the sweep's
arm mark clears when no operation is in flight, and a paused or halted tower resumes, unless the resolution
ended in a jam (R59, R60, R62, R167, R171, R172). -/
def homed (held : Bool) (p : Part) : Part :=
  let p := modMove (fun m => { m with interrupted := false }) (enterArm .idle (endArmOp p))
  let p := match p.arm.move with
    | some m => if held then resolveHeld m p else resolveEmpty m p
    | none => resolveAbsent held p
  if p.arm.state = .halted then p
  else resumeTower (if p.arm.op.isNone then clearArmMark p else p)

/-! ## Reports on the handler port (R48, R58; logs 10, 11) -/

/-- How the report of operation number `op` stands to the arm. -/
inductive Fit
  /-- Sent before a reset, expired, or superseded by a HOME: discarded (R50, R58, R173). -/
  | late
  /-- The operation the door's opening cut short (R58). -/
  | cut (o : ArmOp)
  /-- The operation in flight. -/
  | flight (o : ArmOp)
  /-- No operation in flight has this number: a jam (R48). -/
  | misfit
  deriving DecidableEq, Repr

/-- How a report stands to the arm (R48, R50, R58, R173; log 10). -/
def Part.fit (p : Part) (op : Nat) : Fit :=
  if op < p.arm.liveFrom ∨ p.arm.stale.contains op then .late
  else
    match p.arm.cut, p.arm.op with
    | some x, _ =>
      if x.id = op then .cut x
      else if p.doorOpen then .late
      else .misfit
    | none, some x => if p.doorOpen then .late else if x.id = op then .flight x else .misfit
    | none, none => if p.doorOpen then .late else .misfit

/-- Take a final report of the operation in flight by `f`; the cut operation's is discarded, and one that
does not fit jams the arm (R48, R58). -/
def armReport (op : Nat) (f : ArmOrder → Option Move → Part → Part) (p : Part) : Part :=
  match p.fit op with
  | .late => p
  | .cut _ => p
  | .flight o => testAbort (f o.order p.arm.move p)
  | .misfit => testAbort (jam p)

/-- GRIPPED (R48, R49, R58). The cut operation's GRIPPED is applied when it is the first of a PICK or TRANSFER;
any other is discarded: a second one by R48, one of a DELIVER, SEPARATE or HOME as the model's choice (DESIGN
CHOICE, log 47). -/
def takeGripped (op : Nat) (p : Part) : Part :=
  match p.fit op with
  | .late => p
  | .misfit => testAbort (jam p)
  | .cut o =>
    match o.order, p.arm.move with
    | .pick _ _, some m => if m.gripped then p else grip m p
    | .transfer _ _, some m => if m.gripped then p else grip m p
    | _, _ => p
  | .flight o =>
    match o.order, p.arm.move with
    | .pick _ _, some m => if m.gripped then p else grip m p
    | .transfer _ _, some m => if m.gripped then p else grip m p
    | _, _ => testAbort (jam p)

/-- An operation that ends in DONE: a gripped PICK or TRANSFER, or DELIVER (R48; log 11). -/
def ArmOrder.endsDone (o : ArmOrder) (m : Move) : Bool :=
  match o with
  | .pick _ _ => m.gripped
  | .transfer _ _ => m.gripped
  | .deliver _ => true
  | .separate => false
  | .home _ => false

/-- DONE (R48, R49, R58): the move ends, and a sweep's arm mark that waited for it clears (R167). The cut
operation's DONE is applied when that operation ends in DONE; of a PICK or TRANSFER that has not reported GRIPPED,
of a SEPARATE and of a HOME it is discarded, for R58 applies a DONE as R49 gives and R49 moves the disc from ARM
(DESIGN CHOICE, log 47). -/
def takeDone (op : Nat) (p : Part) : Part :=
  match p.fit op with
  | .late => p
  | .misfit => testAbort (jam p)
  | .cut o =>
    match p.arm.move with
    | some m => if o.order.endsDone m then testAbort (clearArmMark (arrive m p)) else p
    | none => p
  | .flight o =>
    match p.arm.move with
    | some m =>
      testAbort (if o.order.endsDone m then clearArmMark (arrive m (endArmOp p)) else jam p)
    | none => testAbort (jam p)

/-- MISSED of an ungripped PICK or TRANSFER (R51, R55); of a TRANSFER whose disc was meanwhile found LOST, it
ends the operation and nothing else (log 37). -/
def missed (o : ArmOrder) (m : Option Move) (p : Part) : Part :=
  match o, m with
  | .pick s d, some m =>
    if m.gripped then jam p
    else if m.missCount = 0 then
      sendArm (.pick s d) (modMove (fun m => { m with missCount := 1 }) (endArmOp p))
    else withdrawPick m (emptySpindle s (endArmOp p))
  | .transfer _ _, some m => if m.gripped then jam p else transferMissed m (endArmOp p)
  | .transfer _ _, none => endMove (endArmOp p)
  | _, _ => jam p

/-- DOUBLE of a gripped PICK: SEPARATE (R56). -/
def doubled (o : ArmOrder) (m : Option Move) (p : Part) : Part :=
  match o, m with
  | .pick _ _, some m =>
    if m.gripped then
      sendArm .separate (enterArm .separating (modMove (fun m => { m with feed := .separating }) (endArmOp p)))
    else jam p
  | _, _ => jam p

/-- SINGLE of a SEPARATE: the lower disc has fallen back; DELIVER (R56). -/
def separated (o : ArmOrder) (m : Option Move) (p : Part) : Part :=
  match o, m with
  | .separate, some m =>
    clearArmMark
      (sendArm (.deliver m.dest)
        (enterArm .moving (modMove (fun m => { m with feed := .single }) (endArmOp p))))
  | _, _ => jam p

/-- STILL_DOUBLE of a SEPARATE: the pair goes to the REJECT BIN (R57). -/
def unseparated (o : ArmOrder) (m : Option Move) (p : Part) : Part :=
  match o, m with
  | .separate, some m =>
    let p := endArmOp p
    let p := match m.source with
      | .spindle s => wasteBlank s p
      | .place _ => p
    let p := setStage m.record .rejectBound (writeReject m.record .doubleFeed p)
    clearArmMark (deliverPair (modMove (fun m => { m with dest := .bin }) (releaseDest m p)))
  | _, _ => jam p

/-- DROPPED (R48, R51): before GRIPPED it is MISSED; after it, or on DELIVER, the disc is lost. -/
def dropped (o : ArmOrder) (m : Option Move) (p : Part) : Part :=
  match o, m with
  | .pick _ _, some x => if x.gripped then dropLost x (endArmOp p) else missed o m p
  | .transfer _ _, some x => if x.gripped then dropLost x (endArmOp p) else missed o m p
  | .transfer _ _, none => missed o m p
  | .deliver _, some x => clearArmMark (dropLost x (endArmOp p))
  | _, _ => jam p

/-- INTERRUPTED while the door is closed is held, its operation in flight (R58). -/
def interruptedHeld (p : Part) : Part := { p with arm := { p.arm with heldInterrupted := true } }

/-- HOMED (R48, R60). -/
def takeHomed (held : Bool) (o : ArmOrder) (p : Part) : Part :=
  match o with
  | .home _ => homed held p
  | _ => jam p

/-- The move timeout expires: the operation in flight is treated as JAMMED, and its late reports are
discarded (R50). -/
def armExpired (p : Part) : Part :=
  match p.arm.op with
  | none => p
  | some o =>
    testAbort (jam { p with now := max p.now o.deadline, arm := { p.arm with stale := o.id :: p.arm.stale } })

end Sys2Proof.Machine
end

