-- ==== Sys2Proof/Machine/Settle.lean ====
section
/-! DEFINITION. What an event lets the blocks do after its own effect: tower control, the streams and the
channel arbiter, label orders, the tray rule, the pick selector and the move arbiter, the
forecasts (log 15). -/

namespace Sys2Proof.Machine

/-- The evaluations at the end of an event, in one fixed order (R36, R53, R73, R117 to R127, R155,
R160, R166, R169; log 15). -/
def settle (p : Part) : Part :=
  forecastAll (settleArm (trayRules (labelOrder (settleStreams (settleTower p)))))

/-- A request refused: nothing changes (R179). -/
def turnDown (st : Status) (p : Part) : Part × Answer := (p, refuse st)

/-- A request done, and the evaluations it makes possible. -/
def settled (p : Part) (a : Answer) : Part × Answer := (settle p, a)

end Sys2Proof.Machine
end

