-- ==== Sys2Proof/Machine/LinkRequests.lean ====
section
/-! DEFINITION. The requests the link unit executes itself: IDENTIFY, SET ATTENTION, READ ATTENTION (R182,
R183). -/

namespace Sys2Proof.Machine

/-- The body of IDENTIFY's reply (R183; log 8). -/
def identifyBody (t : Tower) : List Byte :=
  u16 Config.partCode ++ u8 Config.revision ++ u8 12 ++ u8 4 ++ u8 24 ++ u8 16 ++ u8 32 ++
    u16 Config.digestPages ++ u8 16 ++ u8 8 ++ u8 t.state.code ++ opt8 (t.resume.map (·.code))

/-- IDENTIFY (R183). -/
def reqIdentify (p : Part) : Part × Answer := (p, { status := .ok, body := identifyBody p.tower })

/-- SET ATTENTION: the enables word's bits that name a flag, and the mode, are stored (R182). -/
def reqSetAttention (enables : Word32) (mode : Byte) (p : Part) : Part × Answer :=
  match attnModeOf mode with
  | some m => ({ p with attn := p.attn.store (enables.setWidth 19) m }, okay)
  | none => turnDown .outOfRange p

/-- The body of READ ATTENTION's reply (R182). -/
def attentionBody (a : Attention) : List Byte :=
  u32 a.flags.toNat ++ u32 a.enables.toNat ++ u8 a.mode.code

/-- READ ATTENTION: the flags as they stand, then every flag cleared (R182). -/
def reqReadAttention (p : Part) : Part × Answer :=
  ({ p with attn := p.attn.clear }, { status := .ok, body := attentionBody p.attn })

/-- IDENTIFY. -/
def execIdentify (tag : Byte) (s : State) : Host.Outcome State Fault Refusal :=
  takeRequest 0x01 tag reqIdentify s

/-- SET ATTENTION. -/
def execSetAttention (tag : Byte) (enables : Word32) (mode : Byte) (s : State) :
    Host.Outcome State Fault Refusal :=
  takeRequest 0x10 tag (reqSetAttention enables mode) s

/-- READ ATTENTION. -/
def execReadAttention (tag : Byte) (s : State) : Host.Outcome State Fault Refusal :=
  takeRequest 0x11 tag reqReadAttention s

end Sys2Proof.Machine
end

