-- ==== Sys2Proof/Machine/Tower.lean ====
section
/-! DEFINITION. The requests of tower control and the handler unit: CONFIGURE TOWER, START TOWER, STOP
TOWER, ARM RECOVER, SPINDLE LOADED, OUTPUT EMPTIED, REJECT BIN EMPTIED (R44, R46, R62, R165 to R170). -/

namespace Sys2Proof.Machine

/-! ## CONFIGURE TOWER (R165) -/

/-- A carried code is one of its field's, or the field is not carried (R176). -/
def codeFits {α : Type} (of : Byte → Option α) (f : Option Byte) : Bool :=
  match f with
  | some b => (of b).isSome
  | none => true

/-- A carried number moved to the nearest limit of its range. -/
def clampByte (lo hi : Nat) (f : Option Byte) : Option Nat := f.map fun b => clamp lo hi b.toNat

/-- A support byte: absent at FFh, else a *max speed* clamped to 1-16 (R165, R184). -/
def supportOf (b : Byte) : Option Nat := if b = 0xFF then none else some (clamp 1 16 b.toNat)

/-- The byte a support is shown as. -/
def supportByte (s : Option Nat) : List Byte := opt8 s

/-- The settings as they are used: each carried number clamped, and *critical* kept above *warning* (R144,
R165). -/
structure Settings where
  installed : Option Nat
  support : Option (List SupportEntry)
  spindleA : Option DiscClass
  spindleB : Option DiscClass
  outputCapacity : Option Nat
  binCapacity : Option Nat
  progressTimeout : Option Nat
  moveTimeout : Option Nat
  joinHold : Option Nat
  splitThreshold : Option Nat
  splitOn : Option Bool
  surveyReserve : Option Bool
  autoRetire : Option Bool
  warning : Option Nat
  critical : Option Nat
  deriving DecidableEq, Repr

/-- The *critical* value used: clamped, and moved to *warning* + 5 when it is not above it; present when it
is carried or moved (R144, R165). -/
def usedCritical (st : Station) (c : TowerFields) : Option Nat :=
  let warning := (clampByte 30 90 c.warning).getD st.warning
  let critical := (clampByte 35 100 c.critical).getD st.critical
  if critical ≤ warning then some (warning + 5) else clampByte 35 100 c.critical

/-- The settings a request uses (R165). -/
def usedSettings (st : Station) (c : TowerFields) : Settings :=
  { installed := clampByte 1 12 c.installed
    support := c.support
    spindleA := c.spindleA.bind classOf
    spindleB := c.spindleB.bind classOf
    outputCapacity := clampByte 1 150 c.outputCapacity
    binCapacity := clampByte 1 60 c.binCapacity
    progressTimeout := clampByte 2 60 c.progressTimeout
    moveTimeout := clampByte 2 30 c.moveTimeout
    joinHold := clampByte 0 30 c.joinHold
    splitThreshold := clampByte 8 56 c.splitThreshold
    splitOn := c.splitSetting.bind onOffOf
    surveyReserve := c.surveyReserve.bind onOffOf
    autoRetire := c.autoRetire.bind onOffOf
    warning := clampByte 30 90 c.warning
    critical := usedCritical st c }

/-- The per-bay entries whose values stand, in their order: of two for one bay the last (log 41). A request
names bays 0-11 alone, so at most 12 stand. -/
def standingEntries : List SupportEntry → List SupportEntry
  | [] => []
  | e :: rest =>
    if rest.any fun x => x.bay == e.bay then standingEntries rest else e :: standingEntries rest

/-- The settings without the entries that a later one of the same bay supersedes (log 41). -/
def Settings.standing (u : Settings) : Settings := { u with support := u.support.map standingEntries }

/-- The values used, as a subset body in the order of R165 (R179; log 9). -/
def Settings.body (u : Settings) : List Byte :=
  subsetBody
    [u.installed.map u8,
      u.support.map (listBytes fun e =>
        [e.bay] ++ supportByte (supportOf e.supportA) ++ supportByte (supportOf e.supportB)),
      u.spindleA.map fun c => u8 (classCode c), u.spindleB.map fun c => u8 (classCode c),
      u.outputCapacity.map u8, u.binCapacity.map u8, u.progressTimeout.map u8, u.moveTimeout.map u8,
      u.joinHold.map u8, u.splitThreshold.map u8, u.splitOn.map onOffByte, u.surveyReserve.map onOffByte,
      u.autoRetire.map onOffByte, u.warning.map u8, u.critical.map u8]

/-- The carried values as they came, in the same form. -/
def carriedBody (c : TowerFields) : List Byte :=
  let one : Option Byte → Option (List Byte) := fun f => f.map fun b => [b]
  subsetBody
    [one c.installed, c.support.map (listBytes fun e => [e.bay, e.supportA, e.supportB]),
      one c.spindleA, one c.spindleB, one c.outputCapacity, one c.binCapacity, one c.progressTimeout,
      one c.moveTimeout, one c.joinHold, one c.splitThreshold, one c.splitSetting, one c.surveyReserve,
      one c.autoRetire, one c.warning, one c.critical]

/-- The named values a request carries have codes of theirs (R165, R176). -/
def settingCodesFit (c : TowerFields) : Bool :=
  codeFits classOf c.spindleA && codeFits classOf c.spindleB && codeFits onOffOf c.splitSetting &&
    codeFits onOffOf c.surveyReserve && codeFits onOffOf c.autoRetire

/-- Every per-bay entry names a bay 0-11 (R165). -/
def supportBaysFit (c : TowerFields) : Bool :=
  match c.support with
  | some l => l.all fun e => decide (e.bay.toNat ≤ 11)
  | none => true

/-- Some bay would leave the installed set with an occupant (R64, R165). -/
def Part.leavesOccupied (p : Part) (installed : Nat) : Bool :=
  allBays.any fun b => p.installed b && decide (installed ≤ b.val) && (p.occupant (.bay b)).isSome

/-- A bay that leaves the installed set while it is not OFFLINE: its fields as after a device reset, but for
the lifetime counts (R63, R64; log 22). -/
def Bay.uninstalled (x : Bay) : Bay :=
  if x.state = .offline then x
  else { Bay.reset with loads := x.loads, goods := x.goods, failures := x.failures }

/-- Store the installed count; the bays that leave the set go OFFLINE (R64, R165). -/
def storeInstalled (n : Nat) (p : Part) : Part :=
  let p := allBays.foldl (fun p b =>
    if p.installed b && decide (n ≤ b.val) then p.modBay b (·.uninstalled) else p) p
  { p with tower := { p.tower with installed := n } }

/-- Store one per-bay entry of the class support (R165). Entries are stored in their order, so of two that name
one bay the last stands (DESIGN CHOICE, log 41). -/
def storeSupport (p : Part) (e : SupportEntry) : Part :=
  match idx 12 e.bay with
  | some b => p.modBay b fun x => { x with supportA := supportOf e.supportA, supportB := supportOf e.supportB }
  | none => p

/-- Store the sinks' capacities; a sink that becomes full raises its flag (R45, R165). -/
def storeCapacities (u : Settings) (p : Part) : Part :=
  let out := { p.output with capacity := u.outputCapacity.getD p.output.capacity }
  let bin := { p.bin with capacity := u.binCapacity.getD p.bin.capacity }
  raiseIf (!p.output.full && out.full) .outputFull
    (raiseIf (!p.bin.full && bin.full) .rejectFull { p with output := out, bin := bin })

/-- Store the tower's own settings (R165). -/
def storeTower (u : Settings) (t : Tower) : Tower :=
  { t with
    progressTimeout := (u.progressTimeout.map (1000 * ·)).getD t.progressTimeout
    moveTimeout := (u.moveTimeout.map (1000 * ·)).getD t.moveTimeout
    joinHold := (u.joinHold.map (1000 * ·)).getD t.joinHold
    splitThreshold := u.splitThreshold.getD t.splitThreshold
    splitOn := u.splitOn.getD t.splitOn
    surveyReserve := u.surveyReserve.getD t.surveyReserve
    autoRetire := u.autoRetire.getD t.autoRetire }

/-- Store every carried setting (R165). -/
def storeSettings (u : Settings) (p : Part) : Part :=
  let p := match u.installed with
    | some n => storeInstalled n p
    | none => p
  let p := match u.support with
    | some l => l.foldl storeSupport p
    | none => p
  let p := storeCapacities u p
  { p with
    spindleA := { p.spindleA with cls := u.spindleA.getD p.spindleA.cls }
    spindleB := { p.spindleB with cls := u.spindleB.getD p.spindleB.cls }
    station := { p.station with
      warning := u.warning.getD p.station.warning, critical := u.critical.getD p.station.critical }
    tower := storeTower u p.tower }

/-- CONFIGURE TOWER, with its checks in order (R165, R176; log 31). A CLAMPED reply holds the values that stand,
each bay's class support once, and so at most 251 bytes (R165, R184; log 41). -/
def reqConfigureTower (c : TowerFields) (p : Part) : Part × Answer :=
  let u := usedSettings p.station c
  if !settingCodesFit c then turnDown .outOfRange p
  else if p.tower.state ≠ .stopped then turnDown .badState p
  else if !supportBaysFit c then turnDown .outOfRange p
  else if p.leavesOccupied (u.installed.getD p.tower.installed) then turnDown .busy p
  else (storeSettings u p, okOrClamped (u.body != carriedBody c) [] u.standing.body)

/-! ## START TOWER and STOP TOWER (R166, R168 to R170) -/

/-- A bay that is swept: installed, enabled, not FAULTED (R168). -/
def Part.swept (p : Part) (b : Fin 12) : Bool :=
  p.installed b && (p.bay b).enabled && (p.bay b).state != .faulted

/-- The marks a sweep begins with, and the RESETs it is to send (R166, R168). -/
def Part.newSweep (p : Part) : Sweep :=
  { armMark := true, printerMark := true, queryOwed := p.station.labelDeadline.isSome
    bayMarks := Vector.ofFn p.swept
    resetOwed := Vector.ofFn fun b => p.swept b && (p.bay b).operation != some .reset }

/-- The sweep's QUERY: sent now, unless a LABEL is in flight or a QUERY already is (R166). -/
def sweepQuery (p : Part) : Part :=
  if p.station.labelDeadline.isSome || p.station.queryDeadline.isSome then p else sendQuery p

/-- START TOWER (R166); the RESETs are sent by tower control's evaluation (R168). -/
def reqStartTower (p : Part) : Part × Answer :=
  if p.tower.state ≠ .stopped then turnDown .badState p
  else if p.doorOpen || p.arm.op.isSome then turnDown .busy p
  else
    let w := p.newSweep
    let p := enterTower .starting { p with tower := { p.tower with sweep := some w } }
    settled (sweepQuery (homeArm .sweep p)) accepted

/-- STOP TOWER in mode NORMAL (R169). -/
def reqStopNormal (p : Part) : Part × Answer :=
  match p.tower.state, p.tower.resume with
  | .running, _ => settled (enterTower .stopping p) accepted
  | .paused, some .running => ({ p with tower := { p.tower with resume := some .stopping } }, okay)
  | .halted, some .running => ({ p with tower := { p.tower with resume := some .stopping } }, okay)
  | _, _ => turnDown .badState p

/-- STOP TOWER in mode ABRUPT: ABORTING, the sweep discarded, the abort order (R170). -/
def reqStopAbrupt (p : Part) : Part × Answer :=
  if p.tower.state.working then
    let p := enterTower .aborting { p with tower := { p.tower with resume := none, sweep := none } }
    settled (testAbort (abortOrder p)) accepted
  else turnDown .badState p

/-! ## The handler unit's requests -/

/-- ARM RECOVER (R62). -/
def reqArmRecover (p : Part) : Part × Answer :=
  if p.tower.state ≠ .halted then turnDown .badState p
  else if p.doorOpen || p.arm.state == .homing then turnDown .busy p
  else if p.arm.halt = some .jam then settled (homeArm .recover p) accepted
  else turnDown .badState p

/-- The arm's current move is a pick from a spindle (R44). -/
def Part.pickingFrom (p : Part) (s : SpindleId) : Bool :=
  match p.arm.move with
  | some m => m.source == .spindle s
  | none => false

/-- SPINDLE LOADED (R44). -/
def reqSpindleLoaded (spindle cls count : Byte) (p : Part) : Part × Answer :=
  match spindleOf spindle, classOf cls with
  | some s, some c =>
    if p.pickingFrom s then turnDown .busy p
    else
      settled (loadSpindle s c (min 150 count.toNat) p) (okOrClamped (decide (150 < count.toNat)) [] (u8 150))
  | _, _ => turnDown .outOfRange p

/-- OUTPUT EMPTIED (R46). -/
def reqOutputEmptied (p : Part) : Part × Answer :=
  settled { p with output := { p.output with count := 0 } } okay

/-- A double-feed pair waits at ARM for the REJECT BIN (R47, R57). -/
def Part.pairWaits (p : Part) : Bool :=
  p.arm.state == .moving && p.arm.op.isNone &&
    match p.arm.move with
    | some m => m.feed == .pairWaiting
    | none => false

/-- REJECT BIN EMPTIED: a waiting pair is delivered (R46, R57). -/
def reqRejectBinEmptied (p : Part) : Part × Answer :=
  let p := { p with bin := { p.bin with count := 0 } }
  settled (if p.pairWaits then deliverPair p else p) okay

/-! ## The commands -/

/-- CONFIGURE TOWER. -/
def execConfigureTower (tag : Byte) (c : TowerFields) (s : State) : Host.Outcome State Fault Refusal :=
  takeRequest 0x02 tag (reqConfigureTower c) s

/-- START TOWER. -/
def execStartTower (tag : Byte) (s : State) : Host.Outcome State Fault Refusal :=
  takeRequest 0x03 tag reqStartTower s

/-- STOP TOWER, mode NORMAL. -/
def execStopTowerNormal (tag : Byte) (s : State) : Host.Outcome State Fault Refusal :=
  takeRequest 0x04 tag reqStopNormal s

/-- STOP TOWER, mode ABRUPT. -/
def execStopTowerAbrupt (tag : Byte) (s : State) : Host.Outcome State Fault Refusal :=
  takeRequest 0x04 tag reqStopAbrupt s

/-- ARM RECOVER. -/
def execArmRecover (tag : Byte) (s : State) : Host.Outcome State Fault Refusal :=
  takeRequest 0x05 tag reqArmRecover s

/-- SPINDLE LOADED. -/
def execSpindleLoaded (tag spindle cls count : Byte) (s : State) : Host.Outcome State Fault Refusal :=
  takeRequest 0x06 tag (reqSpindleLoaded spindle cls count) s

/-- OUTPUT EMPTIED. -/
def execOutputEmptied (tag : Byte) (s : State) : Host.Outcome State Fault Refusal :=
  takeRequest 0x07 tag reqOutputEmptied s

/-- REJECT BIN EMPTIED. -/
def execRejectBinEmptied (tag : Byte) (s : State) : Host.Outcome State Fault Refusal :=
  takeRequest 0x08 tag reqRejectBinEmptied s

end Sys2Proof.Machine
end

