-- ==== Sys2Proof/Machine/Images.lean ====
section
/-! DEFINITION. The image catalogue's requests: REGISTER IMAGE, SURVEY IMAGE, LOOK UP IMAGE, RETIRE IMAGE
(R98 to R104, R112, R113). -/

namespace Sys2Proof.Machine

/-- The class limit of *blocks* (R99). -/
def blockLimit : DiscClass → Nat
  | .a => 360000
  | .b => 2290000

/-- A new image record (R100 to R102). -/
def Image.registered (address blocks : Nat) (cls : DiscClass) (pages : List Nat) : Image :=
  { state := .registered, storeAddress := address, blocks := blocks, cls := cls
    chunks := ceilDiv blocks 32, segments := ceilDiv blocks 256, pages := pages, attachCount := 0
    surveyProgress := 0, referenceValid := false, surveyChannel := none, fault := none }

/-- The pages an image of so many blocks holds (R101). -/
def pagesFor (blocks : Nat) : Nat := ceilDiv (ceilDiv blocks 256) 64

/-- The lowest-numbered EMPTY record (R98). -/
def Part.emptyImage (p : Part) : Option (Fin 32) := allImages.find? fun i => (p.image i).isNone

/-- Register an image in a record (R101, R102). -/
def registerIn (i : Fin 32) (address blocks : Nat) (cls : DiscClass) (p : Part) : Part × Answer :=
  let free := p.freePages
  if free.length < pagesFor blocks then turnDown .noRoom p
  else
    let x := Image.registered address blocks cls (free.take (pagesFor blocks))
    (p.setImage i (some x),
      { status := .ok, body := u8 i.val ++ u16 x.segments ++ u8 x.pages.length })

/-- REGISTER IMAGE, with its checks in order (R102). -/
def reqRegisterImage (address blocks : Word32) (cls : Byte) (p : Part) : Part × Answer :=
  match classOf cls with
  | none => turnDown .outOfRange p
  | some c =>
    if blocks = 0 ∨ blockLimit c < blocks.toNat then turnDown .outOfRange p
    else if 4294967295 < address.toNat + blocks.toNat - 1 then turnDown .outOfRange p
    else
      match p.emptyImage with
      | none => turnDown .noRoom p
      | some i => registerIn i address.toNat blocks.toNat c p

/-- The image a request names: outside 0-31 OUT_OF_RANGE, EMPTY NOT_FOUND (R98). -/
def withImage (image : Byte) (f : Fin 32 → Image → Part → Part × Answer) (p : Part) : Part × Answer :=
  match idx 32 image with
  | none => turnDown .outOfRange p
  | some i =>
    match p.image i with
    | none => turnDown .notFound p
    | some x => f i x p

/-- The image's data is in use: a recording stream of it is open, or a read-back of it is not awaiting its
reference (R104). -/
def Part.imageInUse (p : Part) (i : Fin 32) : Bool :=
  allChannels.any (fun c => match p.stream c with | some st => st.image == i | none => false) ||
    allBays.any fun b => match p.context b with
      | some c => c.image == i && !c.awaitingReference
      | none => false

/-- The states in which SURVEY IMAGE is taken (R104). -/
def ImageState.surveyable : ImageState → Bool
  | .registered => true | .ready => true | .faulted => true
  | .surveyWaiting => false | .surveying => false

/-- The image enters SURVEY_WAITING and its request the ranking; jobs lose a READY image (R104, R105). -/
def askSurvey (i : Fin 32) (x : Image) (p : Part) : Part :=
  let p := p.setImage i (some { x with state := .surveyWaiting, referenceValid := false, fault := none })
  let p := { p with surveyQueue := p.surveyQueue ++ [i] }
  if x.state = .ready then changeImageHolds i (fun h => { h with imageNotReady := true }) p else p

/-- SURVEY IMAGE (R104). -/
def reqSurveyImage (image : Byte) (p : Part) : Part × Answer :=
  withImage image (fun i x p =>
    if !x.state.surveyable then turnDown .badState p
    else if p.imageInUse i then turnDown .busy p
    else settled (askSurvey i x p) accepted) p

/-- The body of LOOK UP IMAGE's reply, with up to 64 pages from a start on (R113; log 8). -/
def imageBody (x : Image) (start : Nat) : List Byte :=
  u8 x.state.code ++ u32 x.storeAddress ++ u32 x.blocks ++ u8 (classCode x.cls) ++ u32 x.chunks ++
    u16 x.segments ++ u8 x.pages.length ++ u8 x.attachCount ++ u16 x.surveyProgress ++
    flagByte x.referenceValid ++ opt8 (x.surveyChannel.map (·.val)) ++
    opt8 (x.fault.map (·.origin.code)) ++ opt32 (x.fault.map (·.chunk)) ++
    listBytes u16 ((x.pages.drop start).take 64)

/-- LOOK UP IMAGE; a *page start* of FFh is absent (R113, R184). -/
def reqLookUpImage (image pageStart : Byte) (p : Part) : Part × Answer :=
  withImage image (fun _ x p =>
    (p, { status := .ok, body := imageBody x (if pageStart = 0xFF then 0 else pageStart.toNat) })) p

/-- The record becomes EMPTY; a waiting survey request leaves the ranking, a running survey is abandoned
(R112). -/
def retireImage (i : Fin 32) (x : Image) (p : Part) : Part :=
  let p := { p with surveyQueue := p.surveyQueue.filter (· != i) }
  let p := match x.surveyChannel with
    | some c => freeChannel c p
    | none => p
  p.setImage i none

/-- RETIRE IMAGE (R112). -/
def reqRetireImage (image : Byte) (p : Part) : Part × Answer :=
  withImage image (fun i x p =>
    if 0 < x.attachCount then turnDown .inUse p else settled (retireImage i x p) okay) p

/-- REGISTER IMAGE. -/
def execRegisterImage (tag : Byte) (address blocks : Word32) (cls : Byte) (s : State) :
    Host.Outcome State Fault Refusal :=
  takeRequest 0x20 tag (reqRegisterImage address blocks cls) s

/-- SURVEY IMAGE. -/
def execSurveyImage (tag image : Byte) (s : State) : Host.Outcome State Fault Refusal :=
  takeRequest 0x21 tag (reqSurveyImage image) s

/-- LOOK UP IMAGE. -/
def execLookUpImage (tag image pageStart : Byte) (s : State) : Host.Outcome State Fault Refusal :=
  takeRequest 0x22 tag (reqLookUpImage image pageStart) s

/-- RETIRE IMAGE. -/
def execRetireImage (tag image : Byte) (s : State) : Host.Outcome State Fault Refusal :=
  takeRequest 0x23 tag (reqRetireImage image) s

end Sys2Proof.Machine
end

