-- ==== Sys2Proof/Machine/JobRequests.lean ====
section
/-! DEFINITION. The job table's requests (R25 to R31, R38, R39). -/

namespace Sys2Proof.Machine

/-! ## The definition of a job -/

/-- What a definition asks for, field by field, with named values decoded and numbers as they came; a field
that nobody gave is absent (R25, R26). -/
structure JobSpec where
  hostRef : Word32
  kind : JobKind
  image : Option Nat
  cls : Option DiscClass
  ordered : Nat
  priority : Nat
  maxSpeed : Nat
  verifyMode : Option VerifyMode
  recoveredLimit : Option Nat
  rejectLimit : Nat
  template : Option Nat
  inkPolicy : Option InkPolicy
  serialDigits : Option Nat
  firstSerial : Option Nat
  step : Option Nat
  deriving DecidableEq, Repr

/-- The kind records an image (R22). -/
def JobKind.burns : JobKind → Bool
  | .burn => true | .burnPrint => true | .print => false

/-- The kind labels its discs (R22). -/
def JobKind.labels : JobKind → Bool
  | .burn => false | .burnPrint => true | .print => true

/-- The definition keeps the fields that apply to its kind alone (R22, R25). -/
def JobSpec.applying (d : JobSpec) : JobSpec :=
  let burns := d.kind.burns
  let labels := d.kind.labels
  { d with
    image := if burns then d.image else none
    verifyMode := if burns then d.verifyMode else none
    recoveredLimit := if burns then d.recoveredLimit else none
    template := if labels then d.template else none
    inkPolicy := if labels then d.inkPolicy else none
    serialDigits := if labels then d.serialDigits else none
    firstSerial := if labels && d.serialDigits != some 0 then d.firstSerial else none
    step := if labels && d.serialDigits != some 0 then d.step else none }

/-- Every named value and number the kind needs is given; the image and the template have their own check
(R25). R26 names no status for a redefinition that lacks one: it is refused OUT_OF_RANGE, as when the kind
changes or *serial digits* is raised from 0 without *first serial* and *step* (DESIGN CHOICE, log 18). -/
def JobSpec.complete (d : JobSpec) : Bool :=
  (!d.kind.burns || (d.verifyMode.isSome && d.recoveredLimit.isSome)) &&
    (!d.kind.labels ||
      (d.inkPolicy.isSome && d.serialDigits.isSome &&
        (d.serialDigits == some 0 || (d.firstSerial.isSome && d.step.isSome)))) &&
    (d.kind.burns || d.cls.isSome)

/-- Clamp the numbers (R22, R25): *first serial* to 10^digits - 1 under the clamped digits. -/
def JobSpec.clamped (d : JobSpec) : JobSpec :=
  let digits := d.serialDigits.map (clamp 0 8)
  { d with
    ordered := clamp 1 9999 d.ordered
    priority := clamp 0 3 d.priority
    maxSpeed := clamp 1 16 d.maxSpeed
    recoveredLimit := d.recoveredLimit.map (clamp 0 255)
    rejectLimit := clamp 1 255 d.rejectLimit
    serialDigits := digits
    firstSerial := d.firstSerial.map (clamp 0 (10 ^ digits.getD 0 - 1))
    step := d.step.map (clamp 1 100) }

/-- What the image and template checks of R25 find. -/
inductive Found
  | refused (st : Status)
  | ok (image : Option (Fin 32)) (template : Option (Fin 8)) (cls : DiscClass)
  deriving DecidableEq, Repr

/-- A number names one of `n` records. -/
def numberIn (n : Nat) (k : Nat) : Option (Fin n) := if h : k < n then some ⟨k, h⟩ else none

/-- A needed identifier: absent when the kind needs none; `none` when it is missing or outside its range. -/
def neededId (n : Nat) (needed : Bool) (k : Option Nat) : Option (Option (Fin n)) :=
  if needed then
    match k.bind (numberIn n) with
    | some i => some (some i)
    | none => none
  else some none

/-- The checks of R25 on the image and the template, in order, and the class the job takes. -/
def Part.findJobRecords (p : Part) (d : JobSpec) : Found :=
  match neededId 32 d.kind.burns d.image, neededId 8 d.kind.labels d.template with
  | some i, some t =>
    let imageMissing := match i with | some i => (p.image i).isNone | none => false
    let templateMissing := match t with | some t => (p.template t).isNone | none => false
    if imageMissing || templateMissing then .refused .notFound
    else
      match i.bind p.image, d.cls with
      | some x, _ => .ok i t x.cls
      | none, some c => .ok i t c
      | none, none => .refused .outOfRange
  | _, _ => .refused .outOfRange

/-- The serial fields of a definition (R22, R155). -/
def JobSpec.serials (d : JobSpec) : Option Serials :=
  match d.serialDigits, d.firstSerial, d.step with
  | some (_ + 1), some f, some st => some { first := f, step := st, issued := 0, next := f }
  | _, _, _ => none

/-- The record of a definition, in DEFINED (R22, R25). -/
def JobSpec.record (d : JobSpec) (image : Option (Fin 32)) (template : Option (Fin 8)) (cls : DiscClass) :
    Job :=
  { hostRef := d.hostRef, kind := d.kind, state := .defined, image := image, cls := cls
    ordered := d.ordered, priority := d.priority, maxSpeed := d.maxSpeed, verifyMode := d.verifyMode
    recoveredLimit := d.recoveredLimit, rejectLimit := d.rejectLimit, template := template
    inkPolicy := d.inkPolicy, serialDigits := d.serialDigits, serials := d.serials
    holds := Holds.empty, lastPick := none, started := 0, delivered := 0, rejected := 0, failures := 0
    active := 0, unlabelledDelivered := 0 }

/-- A job begins to name an image: *attach count* rises (R103). -/
def attachImage (i : Option (Fin 32)) (p : Part) : Part :=
  match i with
  | some i => p.modImage i fun x => { x with attachCount := x.attachCount + 1 }
  | none => p

/-- A job ceases to name an image: *attach count* falls (R103). -/
def detachImage (i : Option (Fin 32)) (p : Part) : Part :=
  match i with
  | some i => p.modImage i fun x => { x with attachCount := x.attachCount - 1 }
  | none => p

/-- A job begins to use a template: *users* rises (R25, R147). -/
def useTemplate (t : Option (Fin 8)) (p : Part) : Part :=
  match t with
  | some t => p.setTemplate t ((p.template t).map fun x => { x with users := x.users + 1 })
  | none => p

/-- A job's use of a template ends: *users* falls (R26, R31, R147). -/
def leaveTemplate (t : Option (Fin 8)) (p : Part) : Part :=
  match t with
  | some t => p.setTemplate t ((p.template t).map fun x => { x with users := x.users - 1 })
  | none => p

/-! ## DEFINE JOB (R25) -/

/-- The byte of a named-value field of DEFINE JOB can be taken: it has a code, or it reads as absent (FFh) in a field
that does not apply to the kind (R25, R176, R184; log 44). -/
def namedFits {α : Type} (applies : Bool) (of : Byte → Option α) (b : Byte) : Bool :=
  (of b).isSome || (!applies && b == 0xFF)

/-- The definition a DEFINE JOB body spells, when its named values have codes: an undefined code refuses the request
in every field, whether or not the field applies to the kind (R25, R176; log 44). -/
def definedSpec (f : JobFields) : Option JobSpec :=
  match kindOf f.kind with
  | none => none
  | some k =>
    let classFits := namedFits (!k.burns) classOf f.cls
    let verifyFits := namedFits k.burns verifyModeOf f.verifyMode
    let policyFits := namedFits k.labels inkPolicyOf f.inkPolicy
    if classFits && verifyFits && policyFits then
      some (JobSpec.applying
        { hostRef := f.hostRef, kind := k, image := some f.image.toNat, cls := classOf f.cls
          ordered := f.ordered.toNat, priority := f.priority.toNat, maxSpeed := f.maxSpeed.toNat
          verifyMode := verifyModeOf f.verifyMode, recoveredLimit := some f.recoveredLimit.toNat
          rejectLimit := f.rejectLimit.toNat, template := some f.template.toNat
          inkPolicy := inkPolicyOf f.inkPolicy, serialDigits := some f.serialDigits.toNat
          firstSerial := some f.firstSerial.toNat, step := some f.step.toNat })
    else none

/-- The lowest-numbered free job number (R21). -/
def Part.freeJob (p : Part) : Option (Fin 16) := allJobs.find? fun x => (p.job x).isNone

/-- The values a definition uses, in the order of R22 (R25; log 9). -/
def Job.valuesBody (j : Job) : List Byte :=
  u32 j.hostRef.toNat ++ u8 j.kind.code ++ opt8 (j.image.map (·.val)) ++ u8 (classCode j.cls) ++
    u16 j.ordered ++ u8 j.priority ++ u8 j.maxSpeed ++ opt8 (j.verifyMode.map (·.code)) ++
    opt8 j.recoveredLimit ++ u8 j.rejectLimit ++ opt8 (j.template.map (·.val)) ++
    opt8 (j.inkPolicy.map (·.code)) ++ opt8 j.serialDigits ++ opt32 (j.serials.map (·.first)) ++
    opt8 (j.serials.map (·.step))

/-- DEFINE JOB (R25). -/
def reqDefineJob (f : JobFields) (p : Part) : Part × Answer :=
  match definedSpec f with
  | none => turnDown .outOfRange p
  | some d =>
    match p.findJobRecords d with
    | .refused st => turnDown st p
    | .ok image template cls =>
      match p.freeJob with
      | none => turnDown .noRoom p
      | some x =>
        let j := d.clamped.record image template cls
        (useTemplate template (attachImage image (p.setJob x (some j))),
          okOrClamped (d.clamped != d) (u8 (jobNumber x)) (u8 (jobNumber x) ++ j.valuesBody))

/-! ## CHANGE JOB (R26, R27) -/

/-- The job a request names: 0 and numbers above 16 OUT_OF_RANGE, a free number NOT_FOUND (R21). -/
def withJob (job : Byte) (f : Fin 16 → Job → Part → Part × Answer) (p : Part) : Part × Answer :=
  match jobIdx job with
  | none => turnDown .outOfRange p
  | some x =>
    match p.job x with
    | none => turnDown .notFound p
    | some j => f x j p

/-- Every carried named value has a code (R176; log 31). -/
def changeCodesFit (c : JobChange) : Bool :=
  codeFits kindOf c.kind && codeFits classOf c.cls && codeFits verifyModeOf c.verifyMode &&
    codeFits inkPolicyOf c.inkPolicy

/-- The carried value of a byte field, or the value held. -/
def orHeld (f : Option Byte) (held : Option Nat) : Option Nat :=
  match f with
  | some b => some b.toNat
  | none => held

/-- The definition a CHANGE JOB makes of a DEFINED job: the carried fields over the held ones (R26). -/
def changedSpec (c : JobChange) (j : Job) : JobSpec :=
  JobSpec.applying
    { hostRef := c.hostRef.getD j.hostRef
      kind := (c.kind.bind kindOf).getD j.kind
      image := orHeld c.image (j.image.map (·.val))
      cls := some ((c.cls.bind classOf).getD j.cls)
      ordered := match c.ordered with | some w => w.toNat | none => j.ordered
      priority := match c.priority with | some b => b.toNat | none => j.priority
      maxSpeed := match c.maxSpeed with | some b => b.toNat | none => j.maxSpeed
      verifyMode := match c.verifyMode.bind verifyModeOf with | some v => some v | none => j.verifyMode
      recoveredLimit := orHeld c.recoveredLimit j.recoveredLimit
      rejectLimit := match c.rejectLimit with | some b => b.toNat | none => j.rejectLimit
      template := orHeld c.template (j.template.map (·.val))
      inkPolicy := match c.inkPolicy.bind inkPolicyOf with | some v => some v | none => j.inkPolicy
      serialDigits := orHeld c.serialDigits j.serialDigits
      firstSerial := match c.firstSerial with | some w => some w.toNat | none => j.serials.map (·.first)
      step := orHeld c.step (j.serials.map (·.step)) }

/-- The value used for a field, shown when the field is carried or was moved (R26, R184; log 9). -/
def shown {α : Type} (carried : Bool) (before after : α) (moved : α → α → Bool) (bytes : List Byte) :
    Option (List Byte) := if carried || moved before after then some bytes else none

/-- The values used by a CHANGE JOB in DEFINED, as a subset body (R26; logs 6, 9). -/
def redefinedBody (c : JobChange) (before after : JobSpec) (cls : DiscClass) : List Byte :=
  let differ : Option Nat → Option Nat → Bool := fun a b => a != b
  subsetBody
    [c.hostRef.map fun w => u32 w.toNat, c.kind.map fun _ => u8 after.kind.code,
      c.image.map fun _ => opt8 after.image, c.cls.map fun _ => u8 (classCode cls),
      c.ordered.map fun _ => u16 after.ordered, c.priority.map fun _ => u8 after.priority,
      c.maxSpeed.map fun _ => u8 after.maxSpeed,
      c.verifyMode.map fun _ => opt8 (after.verifyMode.map (·.code)),
      c.recoveredLimit.map fun _ => opt8 after.recoveredLimit,
      c.rejectLimit.map fun _ => u8 after.rejectLimit, c.template.map fun _ => opt8 after.template,
      c.inkPolicy.map fun _ => opt8 (after.inkPolicy.map (·.code)),
      c.serialDigits.map fun _ => opt8 after.serialDigits,
      shown c.firstSerial.isSome before.firstSerial after.firstSerial differ (opt32 after.firstSerial),
      c.step.map fun _ => opt8 after.step]

/-- CHANGE JOB of a DEFINED job redefines it, or is refused whole (R26; log 18). -/
def redefineJob (c : JobChange) (x : Fin 16) (j : Job) (p : Part) : Part × Answer :=
  let d := changedSpec c j
  if !d.complete then turnDown .outOfRange p
  else
    match p.findJobRecords d with
    | .refused st => turnDown st p
    | .ok image template cls =>
      let used := d.clamped
      let p := attachImage image (detachImage j.image p)
      let p := useTemplate template (leaveTemplate j.template p)
      (p.setJob x (some (used.record image template cls)),
        okOrClamped (used != d) [] (redefinedBody c d used cls))

/-- The request carries a field that a started job does not take (R27). -/
def changeRedefines (c : JobChange) : Bool :=
  c.hostRef.isSome || c.kind.isSome || c.image.isSome || c.cls.isSome || c.verifyMode.isSome ||
    c.recoveredLimit.isSome || c.template.isSome || c.inkPolicy.isSome || c.serialDigits.isSome ||
    c.firstSerial.isSome || c.step.isSome

/-- *ordered* as it is used for a started job: the carried value raised to *delivered* + *active*, within 1 to
9999 (R22, R27; log 45). -/
def Job.usedOrdered (j : Job) (w : Word16) : Nat := clamp 1 9999 (max w.toNat (j.delivered + j.active))

/-- A started job with the carried fields applied (R27). -/
def applyChange (c : JobChange) (j : Job) : Job :=
  { j with
    ordered := match c.ordered with | some w => j.usedOrdered w | none => j.ordered
    priority := match c.priority with | some b => clamp 0 3 b.toNat | none => j.priority
    rejectLimit := match c.rejectLimit with | some b => clamp 1 255 b.toNat | none => j.rejectLimit
    maxSpeed := match c.maxSpeed with | some b => clamp 1 16 b.toNat | none => j.maxSpeed }

/-- The values used by a CHANGE JOB of a started job, as a subset body (R27; logs 6, 9). -/
def appliedBody (c : JobChange) (j : Job) : List Byte :=
  subsetBody
    [none, none, none, none, c.ordered.map fun _ => u16 j.ordered, c.priority.map fun _ => u8 j.priority,
      c.maxSpeed.map fun _ => u8 j.maxSpeed, none, none, c.rejectLimit.map fun _ => u8 j.rejectLimit,
      none, none, none, none, none]

/-- The carried values as they came, in the same form. -/
def changeCarriedBody (c : JobChange) : List Byte :=
  subsetBody
    [none, none, none, none, c.ordered.map fun w => u16 w.toNat, c.priority.map fun b => [b],
      c.maxSpeed.map fun b => [b], none, none, c.rejectLimit.map fun b => [b],
      none, none, none, none, none]

/-- The states a change of *ordered* or *reject limit* leads to: DONE before FAILING (R27, R34). -/
def afterChange (c : JobChange) (x : Fin 16) (p : Part) : Part :=
  match p.job x with
  | none => p
  | some j =>
    if j.state.open_ && c.ordered.isSome && j.delivered == j.ordered then endJob x .done p
    else if j.state.open_ && c.rejectLimit.isSome && decide (j.rejectLimit ≤ j.failures) then failJob x p
    else p

/-- CHANGE JOB (R26, R27, R176). -/
def reqChangeJob (job : Byte) (c : JobChange) (p : Part) : Part × Answer :=
  if !changeCodesFit c then turnDown .outOfRange p
  else
    withJob job (fun x j p =>
      if j.state = .defined then redefineJob c x j p
      else if j.state.ended || changeRedefines c then turnDown .badState p
      else
        let k := applyChange c j
        settled (afterChange c x (p.setJob x (some k)))
          (okOrClamped (appliedBody c k != changeCarriedBody c) [] (appliedBody c k))) p

/-! ## START, PAUSE, RESUME (R28, R29) -/

/-- START JOB (R28). -/
def reqStartJob (job : Byte) (p : Part) : Part × Answer :=
  withJob job (fun x j p =>
    if j.state = .defined then
      let ready := match j.image with
        | some i => p.imageReady i
        | none => true
      let j := if ready then { j with state := .running }
        else { j with state := .held, holds := { j.holds with imageNotReady := true } }
      settled (stampPick x (p.setJob x (some j))) okay
    else turnDown .badState p) p

/-- PAUSE JOB (R29). -/
def reqPauseJob (job : Byte) (p : Part) : Part × Answer :=
  withJob job (fun x j p =>
    if j.state = .running ∨ j.state = .held then
      settled (p.setJob x (some { j with state := .paused })) okay
    else turnDown .badState p) p

/-- RESUME JOB (R29). -/
def reqResumeJob (job : Byte) (p : Part) : Part × Answer :=
  withJob job (fun x j p =>
    if j.state = .paused then
      settled (p.setJob x (some { j with state := if j.holds.any then .held else .running })) okay
    else turnDown .badState p) p

/-! ## CANCEL JOB (R38, R39) -/

/-- The arm has been granted a move of the record's disc (R39). -/
def Part.moving (p : Part) (r : Fin 24) : Bool :=
  match p.arm.move with
  | some m => m.record == r
  | none => false

/-- What a cancel does to one disc of the job (R39). -/
def cancelDisc (r : Fin 24) (p : Part) : Part :=
  match p.disc r with
  | none => p
  | some d =>
    if !d.stage.active || d.verdict == .reject then p
    else if d.stage == .outbound && !p.moving r then clearOrder r (setStage r .hostHold p)
    else rejectDisc r .cancelled p

/-- A cancel acts on every disc of the job (R39). -/
def cancelDiscs (x : Fin 16) (p : Part) : Part :=
  allDiscs.foldl (fun p r => if (p.disc r).bind (·.job) = some x then cancelDisc r p else p) p

/-- CANCEL JOB (R38). -/
def reqCancelJob (job : Byte) (p : Part) : Part × Answer :=
  withJob job (fun x j p =>
    match j.state with
    | .defined => settled (endJob x .cancelled p) okay
    | .running | .paused | .held | .failing =>
      let p := p.setJob x (some { j with state := .cancelling })
      settled (closeIdle x (cancelDiscs x p)) okay
    | .cancelling | .done | .failed | .cancelled => turnDown .badState p) p

/-! ## LOOK UP JOB, LIST JOBS, RETIRE JOB (R30, R31) -/

/-- The body of LOOK UP JOB's reply: the fields of R22 in order, but for *last pick order* (R30; log 8). -/
def jobBody (j : Job) : List Byte :=
  u32 j.hostRef.toNat ++ u8 j.kind.code ++ u8 j.state.code ++ opt8 (j.image.map (·.val)) ++
    u8 (classCode j.cls) ++ u16 j.ordered ++ u8 j.priority ++ u8 j.maxSpeed ++
    opt8 (j.verifyMode.map (·.code)) ++ opt8 j.recoveredLimit ++ u8 j.rejectLimit ++
    opt8 (j.template.map (·.val)) ++ opt8 (j.inkPolicy.map (·.code)) ++ opt8 j.serialDigits ++
    opt32 (j.serials.map (·.first)) ++ opt8 (j.serials.map (·.step)) ++
    opt32 (j.serials.map (·.issued)) ++ opt32 (j.serials.map (·.next)) ++ u8 j.holds.code ++
    u32 j.started ++ u32 j.delivered ++ u32 j.rejected ++ u32 j.failures ++ u32 j.active ++
    u32 j.unlabelledDelivered

/-- LOOK UP JOB (R30). -/
def reqLookUpJob (job : Byte) (p : Part) : Part × Answer :=
  withJob job (fun _ j p => (p, { status := .ok, body := jobBody j })) p

/-- A job summary (R184). -/
def jobSummary (x : Fin 16) (j : Job) : List Byte :=
  let named := match j.kind with
    | .print => j.template.map (·.val)
    | .burn | .burnPrint => j.image.map (·.val)
  u8 (jobNumber x) ++ u8 j.state.code ++ u8 j.kind.code ++ u8 j.priority ++ u8 j.holds.code ++
    opt8 named ++ u16 j.ordered ++ u8 j.active ++ u32 j.delivered ++ u32 j.rejected ++
    u32 j.failures ++ u32 j.hostRef.toNat

/-- The body of a LIST reply: the number of summaries, the free count, the next index (one above the last
returned, FFh for END), then the summaries (R17, R30, R184). `found` are the matching records from the
start index on, each with the index after it and its summary. -/
def listBody (free : Nat) (found : List (Nat × List Byte)) : List Byte :=
  let page := found.take 8
  let next := if found.length ≤ 8 then none else page.getLast?.map (·.1)
  u8 page.length ++ u8 free ++ opt8 next ++ page.flatMap (·.2)

/-- LIST JOBS (R30). -/
def reqListJobs (start : Byte) (p : Part) : Part × Answer :=
  match jobIdx start with
  | none => turnDown .outOfRange p
  | some s =>
    let found := allJobs.filterMap fun x =>
      if s.val ≤ x.val then (p.job x).map fun j => (jobNumber x + 1, jobSummary x j) else none
    (p, { status := .ok, body := listBody (p.jobs.toList.countP (·.isNone)) found })

/-- Some held disc record names the job (R31). -/
def Part.jobNamed (p : Part) (x : Fin 16) : Bool :=
  allDiscs.any fun r => (p.disc r).bind (·.job) == some x

/-- Free a job number (R31, R160). -/
def retireJob (x : Fin 16) (j : Job) (p : Part) : Part :=
  let p := leaveTemplate j.template (detachImage j.image p)
  { p.setJob x none with shortSet := p.shortSet.filter (· != x) }

/-- RETIRE JOB (R31). -/
def reqRetireJob (job : Byte) (p : Part) : Part × Answer :=
  withJob job (fun x j p =>
    if j.state.started then turnDown .badState p
    else if p.jobNamed x then turnDown .inUse p
    else (retireJob x j p, okay)) p

/-! ## The commands -/

/-- DEFINE JOB. -/
def execDefineJob (tag : Byte) (f : JobFields) (s : State) : Host.Outcome State Fault Refusal :=
  takeRequest 0x30 tag (reqDefineJob f) s

/-- CHANGE JOB. -/
def execChangeJob (tag job : Byte) (c : JobChange) (s : State) : Host.Outcome State Fault Refusal :=
  takeRequest 0x31 tag (reqChangeJob job c) s

/-- START JOB. -/
def execStartJob (tag job : Byte) (s : State) : Host.Outcome State Fault Refusal :=
  takeRequest 0x32 tag (reqStartJob job) s

/-- PAUSE JOB. -/
def execPauseJob (tag job : Byte) (s : State) : Host.Outcome State Fault Refusal :=
  takeRequest 0x33 tag (reqPauseJob job) s

/-- RESUME JOB. -/
def execResumeJob (tag job : Byte) (s : State) : Host.Outcome State Fault Refusal :=
  takeRequest 0x34 tag (reqResumeJob job) s

/-- CANCEL JOB. -/
def execCancelJob (tag job : Byte) (s : State) : Host.Outcome State Fault Refusal :=
  takeRequest 0x35 tag (reqCancelJob job) s

/-- LOOK UP JOB. -/
def execLookUpJob (tag job : Byte) (s : State) : Host.Outcome State Fault Refusal :=
  takeRequest 0x36 tag (reqLookUpJob job) s

/-- LIST JOBS. -/
def execListJobs (tag start : Byte) (s : State) : Host.Outcome State Fault Refusal :=
  takeRequest 0x37 tag (reqListJobs start) s

/-- RETIRE JOB. -/
def execRetireJob (tag job : Byte) (s : State) : Host.Outcome State Fault Refusal :=
  takeRequest 0x38 tag (reqRetireJob job) s

end Sys2Proof.Machine
end

