-- ==== Sys2Proof/Machine/DiscRequests.lean ====
section
/-! DEFINITION. The disc table's requests (R15 to R20). -/

namespace Sys2Proof.Machine

/-- The record a request names: above 23 OUT_OF_RANGE, free NOT_FOUND (R15 to R20). -/
def withDisc (disc : Byte) (f : Fin 24 → Disc → Part → Part × Answer) (p : Part) : Part × Answer :=
  match idx 24 disc with
  | none => turnDown .outOfRange p
  | some r =>
    match p.disc r with
    | none => turnDown .notFound p
    | some d => f r d p

/-! ## Lookups (R16, R17) -/

/-- *media* as it is shown (R2, R184; log 8). -/
def mediaBody (m : Option DiscMedia) : List Byte :=
  opt16 (m.map (·.maker.toNat)) ++ opt16 (m.map (·.type.toNat)) ++ opt8 (m.map fun x => classCode x.cls) ++
    opt32 (m.map (·.capacity)) ++ opt8 ((m.bind (·.entry)).map (·.val))

/-- *verify* as it is shown (R2, R143, R184; log 8). -/
def verifyBody (v : Option VerifyCounts) : List Byte :=
  opt32 (v.map (·.checked)) ++ opt32 (v.map (·.recovered)) ++ opt32 (v.map (·.mismatched)) ++
    opt16 (v.bind (·.firstMismatch))

/-- *reservation* as it is shown. -/
def reservationBody (v : Option (Vector Nat 4)) : List Byte :=
  match v with
  | some v => inkBytes v
  | none => opt32 none ++ opt32 none ++ opt32 none ++ opt32 none

/-- The body of LOOK UP DISC's reply: the fields of R2 in order, but for *eligible order* (R16; log 8). -/
def discBody (r : Fin 24) (d : Disc) : List Byte :=
  u8 r.val ++ u8 d.stage.code ++ u8 d.verdict.code ++ opt8 (d.reason.map (·.code)) ++ jobByte d.job ++
    opt8 (d.place.map (·.code)) ++ mediaBody d.media ++ opt8 (d.bay.map (·.val)) ++ opt8 d.speed ++
    opt8 (d.channel.map (·.val)) ++ u32 d.blocksWritten ++ verifyBody d.verify ++
    reservationBody d.reservation ++ opt32 d.serial ++ flagByte d.unlabelled

/-- LOOK UP DISC (R16). -/
def reqLookUpDisc (disc : Byte) (p : Part) : Part × Answer :=
  withDisc disc (fun r d p => (p, { status := .ok, body := discBody r d })) p

/-- A place's occupant summary, or the place empty (R16; log 8). -/
def Part.placeBody (p : Part) (pl : Place) : List Byte :=
  let o := p.occupant pl
  let d := o.bind p.disc
  opt8 (o.map (·.val)) ++ opt8 (d.map (·.stage.code)) ++ opt8 (d.map (·.verdict.code)) ++
    jobByte (d.bind (·.job))

/-- A spindle's held state (R16, R43). -/
def spindleBody (s : Spindle) : List Byte :=
  u8 (classCode s.cls) ++ u8 s.count ++ flagByte s.empty ++ u16 s.wasted

/-- A sink's held state (R16, R45). -/
def sinkBody (s : Sink) : List Byte := u32 s.count ++ u8 s.capacity

/-- LOOK UP PLACE (R16). -/
def reqLookUpPlace (place : Byte) (p : Part) : Part × Answer :=
  match placeNameOf place with
  | none => turnDown .outOfRange p
  | some (.place (.bay b)) =>
    if p.installed b then (p, { status := .ok, body := p.placeBody (.bay b) }) else turnDown .notFound p
  | some (.place pl) => (p, { status := .ok, body := p.placeBody pl })
  | some (.spindle s) => (p, { status := .ok, body := spindleBody (p.spindle s) })
  | some .output => (p, { status := .ok, body := sinkBody p.output })
  | some .bin => (p, { status := .ok, body := sinkBody p.bin })

/-- A disc summary (R184). -/
def discSummary (r : Fin 24) (d : Disc) : List Byte :=
  let bits := (if d.unlabelled then 1 else 0) + (if d.reservation.isSome then 2 else 0) +
    (if d.verify.isSome then 4 else 0) + (if d.media.isSome then 8 else 0)
  u8 r.val ++ u8 d.stage.code ++ u8 d.verdict.code ++ u8 ((d.reason.map (·.code)).getD 0) ++
    jobByte d.job ++ opt8 (d.place.map (·.code)) ++ opt8 (d.bay.map (·.val)) ++ u8 bits ++
    u32 d.blocksWritten ++ opt32 d.serial

/-- The stage filter of LIST DISCS (R17, R184). -/
def stageFilter (b : Byte) : Option (Stage → Bool) :=
  if b = 0xFF then some fun _ => true
  else if b = 0x10 then some (·.active)
  else if b = 0x11 then some fun st => !st.active
  else if 1 ≤ b.toNat ∧ b.toNat ≤ 15 then some fun st => st.code == b.toNat
  else none

/-- LIST DISCS (R17, R184). -/
def reqListDiscs (start filter : Byte) (p : Part) : Part × Answer :=
  match stageFilter filter, idx 24 start with
  | some keep, some s =>
    let found := allDiscs.filterMap fun r =>
      if s.val ≤ r.val then
        match p.disc r with
        | some d => if keep d.stage then some (r.val + 1, discSummary r d) else none
        | none => none
      else none
    (p, { status := .ok, body := listBody p.freeCount found })
  | _, _ => turnDown .outOfRange p

/-! ## ROUTE, MARK, RETIRE (R15, R18, R19) -/

/-- A routed disc at ARM, at PRINTER or in a PRESENTING bay receives an *eligible order* (R19). -/
def orderRouted (r : Fin 24) (p : Part) : Part :=
  match (p.disc r).bind (·.place) with
  | some (.bay b) => if (p.bay b).state = .presenting then giveOrder r p else p
  | some _ => giveOrder r p
  | none => p

/-- ROUTE DISC (R19). -/
def reqRouteDisc (disc dest : Byte) (p : Part) : Part × Answer :=
  match routeOf dest with
  | none => turnDown .outOfRange p
  | some toOutput =>
    withDisc disc (fun r d p =>
      if d.stage = .hostHold then
        let p := if toOutput then setStage r .outbound p else rejectDisc r .hostReject p
        settled (orderRouted r p) okay
      else turnDown .badState p) p

/-- MARK DISC (R18). -/
def reqMarkDisc (disc : Byte) (p : Part) : Part × Answer :=
  withDisc disc (fun r d p =>
    if d.stage.active && d.verdict != .reject then settled (rejectDisc r .hostReject p) okay
    else turnDown .badState p) p

/-- RETIRE DISC (R15). -/
def reqRetireDisc (disc : Byte) (p : Part) : Part × Answer :=
  withDisc disc (fun r d p =>
    if d.stage.active then turnDown .badState p else settled (freeRecord r p) okay) p

/-! ## REMOVE DISC (R20, R159) -/

/-- A disc at PRINTER whose move off the tray is granted and not gripped (R20). -/
def Part.leavingTray (p : Part) (r : Fin 24) : Bool :=
  match p.arm.move with
  | some m => m.record == r && m.source == .place .printer && !m.gripped
  | none => false

/-- The cases in which REMOVE DISC is allowed (R20). -/
def Part.removable (p : Part) (r : Fin 24) (d : Disc) : Bool :=
  match d.place with
  | none => false
  | some (.bay b) => d.stage == .hostHold || (p.bay b).state == .faulted
  | some .arm => d.stage == .hostHold || p.tower.state == .paused || p.tower.state == .halted
  | some .printer =>
    (d.stage == .hostHold || p.station.state != .printing) && !p.leavingTray r

/-- The arm's interrupted move of a removed disc is discarded: a pick's destination is released, and its
blank counted if it had not been gripped (R20, R43, R47; log 33). -/
def discardMove (r : Fin 24) (p : Part) : Part :=
  match p.arm.move with
  | none => p
  | some m =>
    if m.record = r then
      let p := match m.source with
        | .spindle s => releaseDest m (if m.gripped then p else useBlank s p)
        | .place _ => p
      { p with arm := { p.arm with move := none } }
    else p

/-- The owner of the place a disc was removed from acts (R20, R75, R159). -/
def removedFrom (pl : Place) (p : Part) : Part :=
  match pl with
  | .bay b => bayVacated b p
  | .arm => p
  | .printer =>
    let p := enterStation .empty p
    if p.station.queryDeadline.isSome then p else sendQuery p

/-- A disc has been taken out by hand (R14, R20). -/
def removeDisc (r : Fin 24) (pl : Place) (p : Part) : Part :=
  let p := discardMove r (writeReject r .removed p)
  removedFrom pl (finaliseReject r (p.setOccupant pl none))

/-- REMOVE DISC (R20). -/
def reqRemoveDisc (disc : Byte) (p : Part) : Part × Answer :=
  withDisc disc (fun r d p =>
    if !d.stage.active then turnDown .badState p
    else
      match d.place with
      | some pl => if p.removable r d then settled (removeDisc r pl p) okay else turnDown .busy p
      | none => turnDown .busy p) p

/-! ## The commands -/

/-- LOOK UP DISC. -/
def execLookUpDisc (tag disc : Byte) (s : State) : Host.Outcome State Fault Refusal :=
  takeRequest 0x40 tag (reqLookUpDisc disc) s

/-- LOOK UP PLACE. -/
def execLookUpPlace (tag place : Byte) (s : State) : Host.Outcome State Fault Refusal :=
  takeRequest 0x41 tag (reqLookUpPlace place) s

/-- LIST DISCS. -/
def execListDiscs (tag start filter : Byte) (s : State) : Host.Outcome State Fault Refusal :=
  takeRequest 0x42 tag (reqListDiscs start filter) s

/-- ROUTE DISC. -/
def execRouteDisc (tag disc dest : Byte) (s : State) : Host.Outcome State Fault Refusal :=
  takeRequest 0x43 tag (reqRouteDisc disc dest) s

/-- MARK DISC. -/
def execMarkDisc (tag disc : Byte) (s : State) : Host.Outcome State Fault Refusal :=
  takeRequest 0x44 tag (reqMarkDisc disc) s

/-- REMOVE DISC. -/
def execRemoveDisc (tag disc : Byte) (s : State) : Host.Outcome State Fault Refusal :=
  takeRequest 0x45 tag (reqRemoveDisc disc) s

/-- RETIRE DISC. -/
def execRetireDisc (tag disc : Byte) (s : State) : Host.Outcome State Fault Refusal :=
  takeRequest 0x46 tag (reqRetireDisc disc) s

end Sys2Proof.Machine
end

