-- ==== Sys2Proof/Machine/BayRequests.lean ====
section
/-! DEFINITION. The bay controller's requests (R64, R81 to R84). -/

namespace Sys2Proof.Machine

/-- The bay a request names: above 11 OUT_OF_RANGE, not installed NOT_FOUND (R64). -/
def withBay (bay : Byte) (f : Fin 12 → Bay → Part → Part × Answer) (p : Part) : Part × Answer :=
  match idx 12 bay with
  | none => turnDown .outOfRange p
  | some b => if p.installed b then f b (p.bay b) p else turnDown .notFound p

/-- The body of LOOK UP BAY's reply, in the order of R84 (log 8). -/
def Part.bayBody (p : Part) (b : Fin 12) : List Byte :=
  let x := p.bay b
  u8 x.state.code ++ flagByte (p.installed b) ++ flagByte x.enabled ++ flagByte x.disablePending ++
    opt8 x.supportA ++ opt8 x.supportB ++ opt8 ((p.occupant (.bay b)).map (·.val)) ++
    opt8 (x.operation.map (·.code)) ++ flagByte x.recovering ++ u8 x.consecutiveFailures ++
    u16 x.loads ++ u16 x.goods ++ u16 x.failures ++ opt8 (x.channel.map (·.val)) ++
    opt8 (x.faultCause.map (·.code))

/-- LOOK UP BAY (R84). -/
def reqLookUpBay (bay : Byte) (p : Part) : Part × Answer :=
  withBay bay (fun b _ p => (p, { status := .ok, body := p.bayBody b })) p

/-- Send the RESET of ENABLE BAY or CLEAR BAY FAULT, which clears *consecutive failures* when it is done
(R79, R81, R83). -/
def serviceReset (b : Fin 12) (p : Part) : Part := (resetBay b p).modBay b fun x => { x with service := true }

/-- ENABLE BAY (R81). -/
def reqEnableBay (bay : Byte) (p : Part) : Part × Answer :=
  withBay bay (fun b x p =>
    if x.state = .offline then
      settled (serviceReset b (p.modBay b fun x => { x with enabled := true })) accepted
    else if x.disablePending then settled (p.modBay b fun x => { x with disablePending := false }) okay
    else turnDown .badState p) p

/-- DISABLE BAY (R82). -/
def reqDisableBay (bay : Byte) (p : Part) : Part × Answer :=
  withBay bay (fun b x p =>
    if x.state = .offline then turnDown .badState p
    else if x.state = .open_ ∨ (x.state = .faulted ∧ p.occupant (.bay b) = none) then
      settled (enterBay b .offline p) okay
    else settled (p.modBay b fun x => { x with disablePending := true }) okay) p

/-- CLEAR BAY FAULT (R83). -/
def reqClearBayFault (bay : Byte) (p : Part) : Part × Answer :=
  withBay bay (fun b x p =>
    if x.state = .faulted then settled (serviceReset b p) accepted else turnDown .badState p) p

/-- LOOK UP BAY. -/
def execLookUpBay (tag bay : Byte) (s : State) : Host.Outcome State Fault Refusal :=
  takeRequest 0x50 tag (reqLookUpBay bay) s

/-- ENABLE BAY. -/
def execEnableBay (tag bay : Byte) (s : State) : Host.Outcome State Fault Refusal :=
  takeRequest 0x51 tag (reqEnableBay bay) s

/-- DISABLE BAY. -/
def execDisableBay (tag bay : Byte) (s : State) : Host.Outcome State Fault Refusal :=
  takeRequest 0x52 tag (reqDisableBay bay) s

/-- CLEAR BAY FAULT. -/
def execClearBayFault (tag bay : Byte) (s : State) : Host.Outcome State Fault Refusal :=
  takeRequest 0x53 tag (reqClearBayFault bay) s

end Sys2Proof.Machine
end

