-- ==== Sys2Proof/Machine/MediaRequests.lean ====
section
/-! DEFINITION. The media table's requests (R94 to R97). -/

namespace Sys2Proof.Machine

/-- The entry a SET MEDIA ENTRY stores (R86, R94). -/
def newEntry (f : MediaFields) (mode : MatchMode) (verdict : MediaVerdict) : MediaEntry :=
  let ceiling := clamp 1 16 f.ceiling.toNat
  { mode := mode, maker := f.maker
    type := match mode with | .maker => none | .exact | .masked => some f.type
    mask := match mode with | .masked => some f.mask | .exact | .maker => none
    verdict := verdict, ceiling := ceiling, cap := ceiling, recent := [], burns := 0, fails := 0 }

/-- SET MEDIA ENTRY (R94). -/
def reqSetMediaEntry (f : MediaFields) (p : Part) : Part × Answer :=
  match matchModeOf f.mode, mediaVerdictOf f.verdict, idx 16 f.entry with
  | some m, some v, some e =>
    let x := newEntry f m v
    (p.setEntry e (some x), okOrClamped (x.ceiling != f.ceiling.toNat) [] (u8 x.ceiling))
  | _, _, _ => turnDown .outOfRange p

/-- CLEAR MEDIA ENTRY (R95). -/
def reqClearMediaEntry (entry : Byte) (p : Part) : Part × Answer :=
  match idx 16 entry with
  | none => turnDown .outOfRange p
  | some e => if (p.entry e).isSome then (p.setEntry e none, okay) else turnDown .notFound p

/-- SET DEFAULT MEDIA (R96). -/
def reqSetDefaultMedia (verdict cap : Byte) (p : Part) : Part × Answer :=
  match mediaVerdictOf verdict with
  | none => turnDown .outOfRange p
  | some v =>
    let used := clamp 1 16 cap.toNat
    ({ p with defaultVerdict := v, defaultCap := used },
      okOrClamped (used != cap.toNat) [] (u8 used))

/-- The body of LOOK UP MEDIA ENTRY's reply (R97; log 8). -/
def entryBody (x : MediaEntry) : List Byte :=
  u8 x.mode.code ++ u16 x.maker.toNat ++ opt16 (x.type.map (·.toNat)) ++ opt16 (x.mask.map (·.toNat)) ++
    u8 x.verdict.code ++ u8 x.ceiling ++ u8 x.cap ++ listBytes (fun o => u8 o.code) x.recent ++
    u16 x.burns ++ u16 x.fails

/-- LOOK UP MEDIA ENTRY; FFh names DEFAULT (R97, R184). -/
def reqLookUpMediaEntry (entry : Byte) (p : Part) : Part × Answer :=
  if entry = 0xFF then
    (p, { status := .ok, body := u8 p.defaultVerdict.code ++ u8 p.defaultCap })
  else
    match idx 16 entry with
    | none => turnDown .outOfRange p
    | some e =>
      match p.entry e with
      | some x => (p, { status := .ok, body := entryBody x })
      | none => turnDown .notFound p

/-- SET MEDIA ENTRY. -/
def execSetMediaEntry (tag : Byte) (f : MediaFields) (s : State) : Host.Outcome State Fault Refusal :=
  takeRequest 0x60 tag (reqSetMediaEntry f) s

/-- CLEAR MEDIA ENTRY. -/
def execClearMediaEntry (tag entry : Byte) (s : State) : Host.Outcome State Fault Refusal :=
  takeRequest 0x61 tag (reqClearMediaEntry entry) s

/-- SET DEFAULT MEDIA. -/
def execSetDefaultMedia (tag verdict cap : Byte) (s : State) : Host.Outcome State Fault Refusal :=
  takeRequest 0x62 tag (reqSetDefaultMedia verdict cap) s

/-- LOOK UP MEDIA ENTRY. -/
def execLookUpMediaEntry (tag entry : Byte) (s : State) : Host.Outcome State Fault Refusal :=
  takeRequest 0x63 tag (reqLookUpMediaEntry entry) s

end Sys2Proof.Machine
end

