-- ==== Sys2Proof/Machine/LabelRequests.lean ====
section
/-! DEFINITION. The label unit's requests (R147, R159, R161, R162). -/

namespace Sys2Proof.Machine

/-! ## Templates (R147) -/

/-- The template a DEFINE TEMPLATE stores: every number clamped (R147). -/
def newTemplate (f : TemplateFields) (q : Quality) : Template :=
  { inner := clamp 15 50 f.inner.toNat, outer := clamp 60 120 f.outer.toNat, quality := q
    coverage := #v[clamp 0 1000 f.covK.toNat, clamp 0 1000 f.covC.toNat, clamp 0 1000 f.covM.toNat,
      clamp 0 1000 f.covY.toNat]
    users := 0 }

/-- The fields of a template as they are shown (R147). -/
def templateValues (t : Template) : List Byte :=
  u8 t.inner ++ u8 t.outer ++ u8 t.quality.code ++ u16 t.coverage[0] ++ u16 t.coverage[1] ++
    u16 t.coverage[2] ++ u16 t.coverage[3]

/-- The numbers of a DEFINE TEMPLATE as they came, in the same form. -/
def carriedTemplate (f : TemplateFields) (q : Quality) : List Byte :=
  u8 f.inner.toNat ++ u8 f.outer.toNat ++ u8 q.code ++ u16 f.covK.toNat ++ u16 f.covC.toNat ++
    u16 f.covM.toNat ++ u16 f.covY.toNat

/-- DEFINE TEMPLATE (R147). -/
def reqDefineTemplate (f : TemplateFields) (p : Part) : Part × Answer :=
  match qualityOf f.quality, idx 8 f.template with
  | some q, some t =>
    let used := match p.template t with
      | some x => decide (0 < x.users)
      | none => false
    if used then turnDown .inUse p
    else
      let x := newTemplate f q
      (p.setTemplate t (some x),
        okOrClamped (templateValues x != carriedTemplate f q) [] (templateValues x))
  | _, _ => turnDown .outOfRange p

/-- LOOK UP TEMPLATE (R147; log 8). -/
def reqLookUpTemplate (template : Byte) (p : Part) : Part × Answer :=
  match idx 8 template with
  | none => turnDown .outOfRange p
  | some t =>
    match p.template t with
    | none => turnDown .notFound p
    | some x =>
      (p, { status := .ok
            body := templateValues x ++ u32 x.users ++ u16 x.area ++ inkBytes (p.needs x) ++
              u16 (p.forecast x) })

/-! ## Ink (R161, R162) -/

/-- CARTRIDGE INSTALLED (R161); the channel is a named value, tested first (R176). -/
def reqCartridgeInstalled (channel : Byte) (level : Word32) (p : Part) : Part × Answer :=
  match idx 4 channel with
  | none => turnDown .outOfRange p
  | some k =>
    if p.station.state = .printing then turnDown .busy p
    else
      let used := min 60000000 level.toNat
      let q := p.setInk k { p.inkChannel k with level := used }
      settled (retryPass (raiseInkLow p q)) (okOrClamped (used != level.toNat) [] (u32 used))

/-- The number a *trim* byte carries, in two's complement (R184). -/
def trimOf (b : Byte) : Int := b.toInt

/-- A *trim* as a byte (R184). -/
def trimByte (t : Int) : List Byte := [BitVec.ofInt 8 t]

/-- The values used by SET INK CHANNEL, as a subset body (R161; logs 6, 9). -/
def inkUsedBody (floor drop : Option Nat) (trim : Option Int) : List Byte :=
  subsetBody [floor.map u32, drop.map u8, trim.map trimByte]

/-- SET INK CHANNEL; a change of *floor* or *trim* runs a retry pass (R152, R161). -/
def reqSetInkChannel (channel : Byte) (floor : Option Word32) (drop trim : Option Byte) (p : Part) :
    Part × Answer :=
  match idx 4 channel with
  | none => turnDown .outOfRange p
  | some k =>
    let f := floor.map fun w => min 2000000 w.toNat
    let d := clampByte 2 20 drop
    let t := trim.map fun b => clampInt (-31) 31 (trimOf b)
    let x := p.inkChannel k
    let q := p.setInk k
      { x with floor := f.getD x.floor, dropVolume := d.getD x.dropVolume, trim := t.getD x.trim }
    let changed := f != floor.map (·.toNat) || d != drop.map (·.toNat) || t != trim.map trimOf
    let moved := f.getD x.floor != x.floor || t.getD x.trim != x.trim
    let q := raiseInkLow p q
    settled (if moved then retryPass q else q) (okOrClamped changed [] (inkUsedBody f d t))

/-- One ink channel as it is shown (R148, R162). -/
def inkBody (c : InkChannel) : List Byte :=
  u32 c.level ++ u32 c.floor ++ u32 c.reserved ++ u8 c.dropVolume ++ trimByte c.trim ++
    flagByte c.low ++ flagByte c.empty

/-- The channels, the station and the two lists (R162; log 8). -/
def Part.inkStationBody (p : Part) : List Byte :=
  inkBody p.ink[0] ++ inkBody p.ink[1] ++ inkBody p.ink[2] ++ inkBody p.ink[3] ++
    u8 p.station.state.code ++ opt8 ((p.occupant .printer).map (·.val)) ++ u8 p.station.headTemperature ++
    u8 (if p.station.gateOpen then 0 else 1) ++ opt8 (p.station.faultCause.map (·.code)) ++
    listBytes (fun r => u8 r.val) p.inkWait ++ listBytes (fun r => u8 r.val) p.printQueue

/-- The four needs and the forecast of a template (R162). -/
def Part.needsBody (p : Part) (t : Template) : List Byte := inkBytes (p.needs t) ++ u16 (p.forecast t)

/-- What the template or job carried by LOOK UP INK adds, or its refusal (R162). With both named the template
counts (DESIGN CHOICE, log 19). FFh is a field left out, the job's too; a job of 00h is a job named, and is refused
(R21, R184; DEDUCED, log 49). -/
def Part.inkAddition (p : Part) (template job : Byte) : Status × List Byte :=
  if template ≠ 0xFF then
    match idx 8 template with
    | none => (.outOfRange, [])
    | some t =>
      match p.template t with
      | none => (.notFound, [])
      | some x => (.ok, p.needsBody x)
  else if job ≠ 0xFF then
    match jobIdx job with
    | none => (.outOfRange, [])
    | some x =>
      match p.job x with
      | none => (.notFound, [])
      | some j =>
        match j.template.bind p.template with
        | none => (.badState, [])
        | some t => (.ok, p.needsBody t ++ u16 (j.ordered - j.delivered))
  else (.ok, [])

/-- LOOK UP INK (R162). -/
def reqLookUpInk (template job : Byte) (p : Part) : Part × Answer :=
  match p.inkAddition template job with
  | (.ok, more) => (p, { status := .ok, body := p.inkStationBody ++ more })
  | (st, _) => turnDown st p

/-! ## CLEAR PRINTER (R159) -/

/-- CLEAR PRINTER. -/
def reqClearPrinter (p : Part) : Part × Answer :=
  if p.station.state = .fault ∧ p.station.queryDeadline = none then settled (sendQuery p) accepted
  else turnDown .badState p

/-! ## The commands -/

/-- DEFINE TEMPLATE. -/
def execDefineTemplate (tag : Byte) (f : TemplateFields) (s : State) : Host.Outcome State Fault Refusal :=
  takeRequest 0x70 tag (reqDefineTemplate f) s

/-- LOOK UP TEMPLATE. -/
def execLookUpTemplate (tag template : Byte) (s : State) : Host.Outcome State Fault Refusal :=
  takeRequest 0x71 tag (reqLookUpTemplate template) s

/-- CARTRIDGE INSTALLED. -/
def execCartridgeInstalled (tag channel : Byte) (level : Word32) (s : State) :
    Host.Outcome State Fault Refusal :=
  takeRequest 0x72 tag (reqCartridgeInstalled channel level) s

/-- SET INK CHANNEL. -/
def execSetInkChannel (tag channel : Byte) (floor : Option Word32) (drop trim : Option Byte) (s : State) :
    Host.Outcome State Fault Refusal :=
  takeRequest 0x73 tag (reqSetInkChannel channel floor drop trim) s

/-- LOOK UP INK. -/
def execLookUpInk (tag template job : Byte) (s : State) : Host.Outcome State Fault Refusal :=
  takeRequest 0x74 tag (reqLookUpInk template job) s

/-- CLEAR PRINTER. -/
def execClearPrinter (tag : Byte) (s : State) : Host.Outcome State Fault Refusal :=
  takeRequest 0x75 tag reqClearPrinter s

end Sys2Proof.Machine
end

