-- ==== Sys2Proof/Machine/HandlerEvents.lean ====
section
/-! DEFINITION. The commands of the handler port: the arm's reports and the move timeout (R48 to R61). -/

namespace Sys2Proof.Machine

/-- GRIPPED. -/
def execGripped (op : Nat) (s : State) : Host.Outcome State Fault Refusal :=
  takeEvent (fun p => settle (takeGripped op p)) s

/-- DONE. -/
def execDone (op : Nat) (s : State) : Host.Outcome State Fault Refusal :=
  takeEvent (fun p => settle (takeDone op p)) s

/-- MISSED. -/
def execMissed (op : Nat) (s : State) : Host.Outcome State Fault Refusal :=
  takeEvent (fun p => settle (armReport op missed p)) s

/-- DOUBLE. -/
def execDouble (op : Nat) (s : State) : Host.Outcome State Fault Refusal :=
  takeEvent (fun p => settle (armReport op doubled p)) s

/-- SINGLE. -/
def execSingle (op : Nat) (s : State) : Host.Outcome State Fault Refusal :=
  takeEvent (fun p => settle (armReport op separated p)) s

/-- STILL_DOUBLE. -/
def execStillDouble (op : Nat) (s : State) : Host.Outcome State Fault Refusal :=
  takeEvent (fun p => settle (armReport op unseparated p)) s

/-- DROPPED. -/
def execDropped (op : Nat) (s : State) : Host.Outcome State Fault Refusal :=
  takeEvent (fun p => settle (armReport op dropped p)) s

/-- INTERRUPTED: held while the door is closed, discarded after the door event (R58). -/
def execInterrupted (op : Nat) (s : State) : Host.Outcome State Fault Refusal :=
  takeEvent (fun p => settle (armReport op (fun _ _ p => interruptedHeld p) p)) s

/-- JAMMED (R61). -/
def execJammed (op : Nat) (s : State) : Host.Outcome State Fault Refusal :=
  takeEvent (fun p => settle (armReport op (fun _ _ p => jam p) p)) s

/-- HOMED, with the grip sensor's reading (R60). -/
def execHomed (op : Nat) (discHeld : Bool) (s : State) : Host.Outcome State Fault Refusal :=
  takeEvent (fun p => settle (armReport op (fun o _ p => takeHomed discHeld o p) p)) s

/-- The move timeout of the operation in flight expires (R50; log 2). -/
def execMoveTimeout (s : State) : Host.Outcome State Fault Refusal :=
  takeEvent (fun p => settle (armExpired p)) s

end Sys2Proof.Machine
end

