-- ==== Sys2Proof/Machine/DriveEvents.lean ====
section
/-! DEFINITION. The commands of the bay ports: the drives' reports and the progress watchdog (R66 to R78,
R80, R89 to R92, R118, R119, R136). A report that answers nothing held is discarded (R66). -/

namespace Sys2Proof.Machine

/-- The sweep is to send the bay its RESET at the operation's final report (R168). -/
def Part.owesReset (p : Part) (b : Fin 12) : Bool :=
  match p.tower.sweep with
  | some w => w.resetOwed[b.val]
  | none => false

/-- LOADED: IDENTIFY for a disc in LOADING; a found disc leaves the bay HOLDING; an empty bay reopens its
tray (R69, R75, R80, R168). -/
def takeLoaded (b : Fin 12) (p : Part) : Part :=
  let p := endDriveOp b p
  match p.occupant (.bay b) with
  | some r =>
    if p.stageOf r = some .loading then
      sendDrive b .identify .identify identifyTimeout (enterBay b .querying (setStage r .identifying p))
    else enterBay b .holding p
  | none => if p.owesReset b then p else ejectBay b p

/-- A disc rejected at identification: REJECT_BOUND, and EJECT at once (R69, R90). -/
def refuseDisc (b : Fin 12) (r : Fin 24) (why : Reason) (p : Part) : Part :=
  ejectBay b (setStage r .rejectBound (writeReject r why p))

/-- An accepted disc: its *speed*, WAITING_STREAM, and the request for a stream (R69, R70, R91). -/
def acceptDisc (b : Fin 12) (r : Fin 24) (j : Job) (m : DiscMedia) (p : Part) : Part :=
  let speed := p.writeSpeed j b m
  let p := p.modDisc r fun d => { d with speed := some speed }.atStage .waitingStream
  let p := enterBay b .attaching p
  match j.image with
  | some i => attach b i p
  | none => p

/-- IDENTIFIED: the media fields are written whatever the outcome, then the checks of R90 run (R69, R89). -/
def takeIdentified (b : Fin 12) (blank : Bool) (maker type : Word16) (cls : DiscClass) (capacity : Nat)
    (p : Part) : Part :=
  let p := endDriveOp b p
  match p.occupant (.bay b) with
  | none => ejectBay b p
  | some r =>
    let m : DiscMedia :=
      { maker := maker, type := type, cls := cls, capacity := capacity, entry := p.decidingEntry maker type }
    let p := p.modDisc r fun d => { d with media := some m }
    if p.isReject r then ejectBay b p
    else if !blank then refuseDisc b r .notBlank p
    else
      match p.jobOf r with
      | none => ejectBay b p
      | some j =>
        match p.mediaCheck j m with
        | some why => refuseDisc b r why p
        | none => acceptDisc b r j m p

/-- CLOSED: read-back, or a GOOD disc without verification (R71, R92, R133). -/
def takeClosed (b : Fin 12) (p : Part) : Part :=
  let p := endDriveOp b p
  match p.occupant (.bay b) with
  | none => ejectBay b p
  | some r =>
    match p.jobOf r with
    | none => enterBay b .holding p
    | some j =>
      match j.verifyMode, j.image with
      | some .quick, some i => startReadBack b r i .quick p
      | some .full, some i => startReadBack b r i .full p
      | _, _ => verdictGood b r j.kind p

/-- OPENED (R74). -/
def takeOpened (b : Fin 12) (p : Part) : Part :=
  let p := endDriveOp b p
  match p.occupant (.bay b) with
  | some _ => presentBay b p
  | none => emptyBay b p

/-- EJECT_ERROR, and the expiry of an EJECT: a failed recovery while *recovering*, else a stall (R67, R74,
R76, R78). -/
def ejectFails (b : Fin 12) (p : Part) : Part :=
  if (p.bay b).recovering then failedRecovery b p else bayFailure b .stalled p

/-- RESET_DONE: *consecutive failures* returns to 0 for ENABLE BAY's and CLEAR BAY FAULT's RESET (R78,
R79). -/
def takeResetDone (b : Fin 12) (present : Bool) (tray : Tray) (p : Part) : Part :=
  let p := p.modBay b fun x =>
    { x with consecutiveFailures := if x.service then 0 else x.consecutiveFailures }
  afterReset b present tray (endReset b p)

/-- An event that ends a bay's RESET: when that RESET was sent under the abort order, the abort's completion is
tested (R170). -/
def abortTested (b : Fin 12) (f : Part → Part) (p : Part) : Part :=
  if (p.bay b).abortMark then testAbort (f p) else f p

/-- What the expiry of a bay's watchdog does, by the operation in flight (R67, R76, R78). -/
def watchdogFails (b : Fin 12) (p : Part) : Part :=
  match (p.bay b).operation with
  | some .reset => failedRecovery b p
  | some .eject => ejectFails b p
  | _ => bayFailure b .stalled p

/-- The watchdog reaches its deadline (R67; log 2). -/
def watchdogExpires (b : Fin 12) (p : Part) : Part :=
  match (p.bay b).deadline with
  | none => p
  | some t => abortTested b (watchdogFails b) { p with now := max p.now t }

/-- A report is taken only when it answers the operation held (R66). Drive reports carry no operation number: a
late report of an operation that has ended is told from a current one by its kind alone, so one of the kind of
the operation now held is taken as answering it (DESIGN CHOICE, log 38). -/
def driveReport (b : Fin 12) (op : DriveOp) (f : Part → Part) (p : Part) : Part :=
  if p.holds b op then settle (f p) else p

/-- LOADED. -/
def execLoaded (b : Fin 12) (s : State) : Host.Outcome State Fault Refusal :=
  takeEvent (driveReport b .load (takeLoaded b)) s

/-- LOAD_ERROR (R76). -/
def execLoadError (b : Fin 12) (s : State) : Host.Outcome State Fault Refusal :=
  takeEvent (driveReport b .load (bayFailure b .recordFailed)) s

/-- IDENTIFIED. -/
def execIdentified (b : Fin 12) (blank : Bool) (maker type : Word16) (cls : DiscClass) (capacity : Nat)
    (s : State) : Host.Outcome State Fault Refusal :=
  takeEvent (driveReport b .identify (takeIdentified b blank maker type cls capacity)) s

/-- ID_ERROR (R76). -/
def execIdError (b : Fin 12) (s : State) : Host.Outcome State Fault Refusal :=
  takeEvent (driveReport b .identify (bayFailure b .recordFailed)) s

/-- READY (R118). -/
def execReady (b : Fin 12) (s : State) : Host.Outcome State Fault Refusal :=
  takeEvent (driveReport b .write (memberReady b)) s

/-- CHUNK_ACK (R119). -/
def execChunkAck (b : Fin 12) (s : State) : Host.Outcome State Fault Refusal :=
  takeEvent (driveReport b .write (memberAck b)) s

/-- WRITE_ERROR (R76). -/
def execWriteError (b : Fin 12) (s : State) : Host.Outcome State Fault Refusal :=
  takeEvent (driveReport b .write (bayFailure b .recordFailed)) s

/-- CLOSED. -/
def execClosed (b : Fin 12) (s : State) : Host.Outcome State Fault Refusal :=
  takeEvent (driveReport b .close (takeClosed b)) s

/-- CLOSE_ERROR (R76). -/
def execCloseError (b : Fin 12) (s : State) : Host.Outcome State Fault Refusal :=
  takeEvent (driveReport b .close (bayFailure b .recordFailed)) s

/-- SEGMENT: the digest of the data is compared with the reference in digest memory (R136). -/
def execSegment (b : Fin 12) (bytes : List Byte) (s : State) : Host.Outcome State Fault Refusal :=
  takeEvent (driveReport b .read fun p => takeRead b (p.readMatches s.memory b bytes) p) s

/-- READ_ERROR counts as a read that does not match (R72, R136). -/
def execReadError (b : Fin 12) (s : State) : Host.Outcome State Fault Refusal :=
  takeEvent (driveReport b .read (takeRead b false)) s

/-- OPENED. -/
def execOpened (b : Fin 12) (s : State) : Host.Outcome State Fault Refusal :=
  takeEvent (driveReport b .eject (takeOpened b)) s

/-- EJECT_ERROR. -/
def execEjectError (b : Fin 12) (s : State) : Host.Outcome State Fault Refusal :=
  takeEvent (driveReport b .eject (ejectFails b)) s

/-- RESET_DONE. -/
def execResetDone (b : Fin 12) (present : Bool) (tray : Tray) (s : State) :
    Host.Outcome State Fault Refusal :=
  takeEvent (driveReport b .reset (abortTested b (takeResetDone b present tray))) s

/-- RESET_FAILED (R78). -/
def execResetFailed (b : Fin 12) (s : State) : Host.Outcome State Fault Refusal :=
  takeEvent (driveReport b .reset (abortTested b (failedRecovery b))) s

/-- The progress watchdog of a bay expires (R67; log 2). -/
def execWatchdogExpiry (b : Fin 12) (s : State) : Host.Outcome State Fault Refusal :=
  takeEvent (fun p => settle (watchdogExpires b p)) s

end Sys2Proof.Machine
end

