-- ==== Sys2Proof/Machine/StoreEvents.lean ====
section
/-! DEFINITION. The commands of the store port, and the end of a join period (R106, R107, R117, R120). -/

namespace Sys2Proof.Machine

/-- STORE_ERROR: the attempt in flight fails; any other answer is discarded (R107, R117). -/
def takeStoreError (c : Fin 4) (id : Nat) (p : Part) : Part :=
  if p.answers c id then settle (failAttempt c p) else p

/-- The 2 s limit of the attempt in flight expires (R107, R117). -/
def storeLimitExpires (c : Fin 4) (p : Part) : Part :=
  match p.readOf c with
  | some x => settle (failAttempt c { p with now := max p.now x.deadline })
  | none => p

/-- The join period ends; *tail* is recomputed and the split condition tested by the evaluations (R120,
R123). -/
def joinEnds (c : Fin 4) (p : Part) : Part :=
  match p.stream c with
  | some st =>
    if st.joinOver then p
    else
      settle ({ p with now := max p.now st.joinPeriodEnd }.setChannel c
        (.recording { st with joinOver := true }))
  | none => p

/-- DATA: the chunk goes into the buffer, a completed survey segment's digest into digest memory, and the
stream or survey goes on (R106, R117). -/
def execData (c : Fin 4) (id : Nat) (bytes : List Byte) (s : State) : Host.Outcome State Fault Refusal :=
  takeEvent (fun p => if p.answers c id then settle (takeData c id p) else p)
    (if s.link.resetLow then s else { s with memory := storeData s.part c id bytes s.memory })

/-- STORE_ERROR. -/
def execStoreError (c : Fin 4) (id : Nat) (s : State) : Host.Outcome State Fault Refusal :=
  takeEvent (takeStoreError c id) s

/-- The store read limit expires (log 2). -/
def execStoreReadLimitExpiry (c : Fin 4) (s : State) : Host.Outcome State Fault Refusal :=
  takeEvent (storeLimitExpires c) s

/-- A stream's join period ends (log 2). -/
def execJoinPeriodEnd (c : Fin 4) (s : State) : Host.Outcome State Fault Refusal :=
  takeEvent (joinEnds c) s

end Sys2Proof.Machine
end

