-- ==== Sys2Proof/Machine/PrinterEvents.lean ====
section
/-! DEFINITION. The commands of the printer port, and its two limits (R145, R146, R156 to R158). -/

namespace Sys2Proof.Machine

/-- A QUERY has ended: its limit is cleared, and the sweep's printer mark with it (R145, R158, R168). -/
def endQuery (p : Part) : Part :=
  clearPrinterMark { p with station := { p.station with queryDeadline := none } }

/-- STATUS: the temperature first; then, answering a QUERY in flight, by condition, tray and occupant (R145,
R158). Printer reports carry no number: a late STATUS of an expired QUERY is taken as answering a newer one in
flight (DESIGN CHOICE, log 38). -/
def takeStatus (present : Bool) (condition : Condition) (t : Nat) (p : Part) : Part :=
  let p := takeTemperature t p
  if p.station.queryDeadline.isSome then
    match condition with
    | .fault => faultStation .engine (endQuery p)
    | .ready => statusReady present (endQuery p)
  else p

/-- DONE or FAILED of a LABEL: the temperature first; discarded with no LABEL in flight (R145, R156). A
late one of an expired LABEL is taken as answering a newer one in flight (DESIGN CHOICE, log 38). -/
def takeLabel (failed : Bool) (d : Drops) (t : Nat) (p : Part) : Part :=
  let p := takeTemperature t p
  if p.station.labelDeadline.isSome then endLabel (p.actualInk d) failed none p else p

/-- A FAULT report acts by the station's state (R157). -/
def takeEngineFault (d : Drops) (p : Part) : Part :=
  match p.station.state with
  | .printing => endLabel (p.actualInk d) true (some .engine) p
  | .empty => faultStation .engine p
  | .loaded => faultStation .engine p
  | .finished => faultStation .engine p
  | .fault => p
  | .offline => p

/-- The label limit expires: the label ends FAILED with the reserved amounts, the station in FAULT (R157). -/
def labelExpires (p : Part) : Part :=
  match p.station.labelDeadline with
  | none => p
  | some t =>
    let p := { p with now := max p.now t }
    let amounts := match p.occupant .printer with
      | some r => p.reservedFor r
      | none => #v[0, 0, 0, 0]
    endLabel amounts true (some .labelTimeout) p

/-- The query limit expires: FAULT with cause QUERY_TIMEOUT (R158). -/
def queryExpires (p : Part) : Part :=
  match p.station.queryDeadline with
  | none => p
  | some t => faultStation .queryTimeout (endQuery { p with now := max p.now t })

/-- STATUS. -/
def execStatus (present : Bool) (condition : Condition) (t : Nat) (s : State) :
    Host.Outcome State Fault Refusal :=
  takeEvent (fun p => settle (takeStatus present condition t p)) s

/-- DONE of a LABEL. -/
def execLabelDone (d : Drops) (t : Nat) (s : State) : Host.Outcome State Fault Refusal :=
  takeEvent (fun p => settle (takeLabel false d t p)) s

/-- FAILED of a LABEL. -/
def execLabelFailed (d : Drops) (t : Nat) (s : State) : Host.Outcome State Fault Refusal :=
  takeEvent (fun p => settle (takeLabel true d t p)) s

/-- TEMPERATURE (R146). -/
def execTemperature (t : Nat) (s : State) : Host.Outcome State Fault Refusal :=
  takeEvent (fun p => settle (takeTemperature t p)) s

/-- FAULT from the printer engine (R157). -/
def execPrinterFault (d : Drops) (s : State) : Host.Outcome State Fault Refusal :=
  takeEvent (fun p => settle (takeEngineFault d p)) s

/-- The label limit expires (log 2). -/
def execLabelLimitExpiry (s : State) : Host.Outcome State Fault Refusal :=
  takeEvent (fun p => settle (labelExpires p)) s

/-- The query limit expires (log 2). -/
def execQueryLimitExpiry (s : State) : Host.Outcome State Fault Refusal :=
  takeEvent (fun p => settle (queryExpires p)) s

end Sys2Proof.Machine
end

