-- ==== Sys2Proof/Machine/Pins.lean ====
section
/-! DEFINITION. The pins RST_N and DOOR, and the end of an attention pulse (R58, R59, R173, R174, R181). -/

namespace Sys2Proof.Machine

/-- RST_N goes low: from now on no frame is taken and every report is discarded; the handler port's stop is
asserted (R173; log 24). -/
def execRstNLow (s : State) : Host.Outcome State Fault Refusal :=
  .next { s with link := { s.link with resetLow := true }, part := emit .armStop s.part.fresh }

/-- The records at the rise of RST_N: the reset values, then DOOR sampled (R173). -/
def Part.afterRise (p : Part) : Part :=
  let q := Part.reset p.doorOpen p.arm.opCount p.readCount
  if p.doorOpen then doorOpened q else q

/-- The link unit at the rise of RST_N: empty queues; a select in progress is one to be discarded, and puts
out a presence byte of 00h (R174, R175). -/
def Link.afterRise (l : Link) : Link :=
  { requests := [], replies := [], select := l.select.map fun _ => { output := [], discard := true }
    resetLow := false }

/-- RST_N rises (R173). -/
def execRstNRise (s : State) : Host.Outcome State Fault Refusal :=
  .next { s with link := s.link.afterRise, part := s.part.afterRise }

/-- The attention pulse ends (R181). -/
def pulseEnds (p : Part) : Part :=
  match p.attn.pulseEnd with
  | none => p
  | some t => { p with now := max p.now t, attn := { p.attn with pulseEnd := none } }

/-- The 2 ms attention pulse expires (log 2). -/
def execAttnPulseEnd (s : State) : Host.Outcome State Fault Refusal := takeEvent pulseEnds s

/-- The DOOR pin moves; while RST_N is low nothing else happens (R173). -/
def moveDoor (isOpen : Bool) (f : Part → Part) (s : State) : Host.Outcome State Fault Refusal :=
  takeEvent (fun p => settle (f p)) { s with part := { s.part with doorOpen := isOpen } }

/-- DOOR reports the door open (R58). -/
def execDoorOpen (s : State) : Host.Outcome State Fault Refusal := moveDoor true doorOpened s

/-- DOOR reports the door closed (R59). -/
def execDoorClosed (s : State) : Host.Outcome State Fault Refusal := moveDoor false doorShut s

end Sys2Proof.Machine
end

