-- ==== Sys2Proof/Machine/Selects.lean ====
section
/-! DEFINITION. The selects of the host link: choosing the output, removing a reply read out whole, testing,
queueing and executing the frame (R174 to R178). -/

namespace Sys2Proof.Machine

/-- A request handed to its owner (R177, R179). A command that is no request has no owner. -/
def runRequest (i : Instr) (p : Part) : Part × Answer :=
  match i with
  | .identify _ => reqIdentify p
  | .configureTower _ c => reqConfigureTower c p
  | .startTower _ => reqStartTower p
  | .stopTowerNormal _ => reqStopNormal p
  | .stopTowerAbrupt _ => reqStopAbrupt p
  | .armRecover _ => reqArmRecover p
  | .spindleLoaded _ spindle cls count => reqSpindleLoaded spindle cls count p
  | .outputEmptied _ => reqOutputEmptied p
  | .rejectBinEmptied _ => reqRejectBinEmptied p
  | .setAttention _ enables mode => reqSetAttention enables mode p
  | .readAttention _ => reqReadAttention p
  | .registerImage _ address blocks cls => reqRegisterImage address blocks cls p
  | .surveyImage _ image => reqSurveyImage image p
  | .lookUpImage _ image start => reqLookUpImage image start p
  | .retireImage _ image => reqRetireImage image p
  | .defineJob _ f => reqDefineJob f p
  | .changeJob _ job c => reqChangeJob job c p
  | .startJob _ job => reqStartJob job p
  | .pauseJob _ job => reqPauseJob job p
  | .resumeJob _ job => reqResumeJob job p
  | .cancelJob _ job => reqCancelJob job p
  | .lookUpJob _ job => reqLookUpJob job p
  | .listJobs _ start => reqListJobs start p
  | .retireJob _ job => reqRetireJob job p
  | .lookUpDisc _ disc => reqLookUpDisc disc p
  | .lookUpPlace _ place => reqLookUpPlace place p
  | .listDiscs _ start filter => reqListDiscs start filter p
  | .routeDisc _ disc dest => reqRouteDisc disc dest p
  | .markDisc _ disc => reqMarkDisc disc p
  | .removeDisc _ disc => reqRemoveDisc disc p
  | .retireDisc _ disc => reqRetireDisc disc p
  | .lookUpBay _ bay => reqLookUpBay bay p
  | .enableBay _ bay => reqEnableBay bay p
  | .disableBay _ bay => reqDisableBay bay p
  | .clearBayFault _ bay => reqClearBayFault bay p
  | .setMediaEntry _ f => reqSetMediaEntry f p
  | .clearMediaEntry _ entry => reqClearMediaEntry entry p
  | .setDefaultMedia _ verdict cap => reqSetDefaultMedia verdict cap p
  | .lookUpMediaEntry _ entry => reqLookUpMediaEntry entry p
  | .defineTemplate _ f => reqDefineTemplate f p
  | .lookUpTemplate _ template => reqLookUpTemplate template p
  | .cartridgeInstalled _ channel level => reqCartridgeInstalled channel level p
  | .setInkChannel _ channel floor drop trim => reqSetInkChannel channel floor drop trim p
  | .lookUpInk _ template job => reqLookUpInk template job p
  | .clearPrinter _ => reqClearPrinter p
  | _ => turnDown .unknown p

/-- What the frame's tests and its owner answer (R176, R177). -/
def runFrame (frame : List Byte) (p : Part) : Part × Answer :=
  match readFrame frame with
  | .request i => runRequest i p
  | .malformed => turnDown .malformed p
  | .unknown => turnDown .unknown p
  | .badMode => turnDown .outOfRange p

/-- The frame taken joins the tail of the request queue (R175). -/
def enqueue (frame : List Byte) (s : State) : State :=
  { s with link := { s.link with requests := s.link.requests ++ [frame] } }

/-- The oldest queued request is executed: it leaves its queue, and its reply, which carries the frame's
code and tag, joins the reply queue (R176, R177). -/
def executeOldest (s : State) : State :=
  match s.link.requests with
  | [] => s
  | frame :: rest =>
    let done := runFrame frame s.part.fresh
    { s with
      part := done.1
      link := { s.link with
        requests := rest
        replies := s.link.replies ++ [replyFrame (frame.getD 0 0) (frame.getD 1 0) done.2] } }

/-- The input of a select: none, NOP, overrun, too short, or a frame taken and executed (R174 to R177). -/
def takeInput (input : List Byte) (s : State) : State :=
  match input with
  | [] => s
  | b :: _ =>
    if b = 0 then s
    else if !s.link.slotFree then { s with part := raise .linkOverrun s.part }
    else if input.length < 3 then { s with part := raise .linkError s.part }
    else executeOldest (enqueue input s)

/-- The reply that the select delivered whole leaves the reply queue (R175, R178). -/
def dropDelivered (x : Select) (clocked : Nat) (l : Link) : Link :=
  if x.output ≠ [] ∧ x.output.length ≤ clocked then { l with replies := l.replies.drop 1 } else l

/-- LSEL_N falls: the output is the head reply, or a presence byte of 00h (R178). While RST_N is low, and in
a select already in progress, nothing is chosen anew (log 4). -/
def execSelectBegin (s : State) : Host.Outcome State Fault Refusal :=
  .next
    (match s.link.select with
    | some _ => s
    | none =>
      let output := if s.link.resetLow then [] else s.link.replies.head?.getD []
      { s with
        part := s.part.fresh
        link := { s.link with select := some { output := output, discard := false } } })

/-- LSEL_N rises: the reply delivered whole is removed, then the input is taken; `bytes` are all the bytes
clocked, the first 256 of them the input. A select that was in progress at the rise of RST_N is discarded,
and while RST_N is low no frame is taken (R173, R174, R175, R178; log 4). -/
def execSelectEnd (bytes : List Byte) (s : State) : Host.Outcome State Fault Refusal :=
  let ended : State := { s with link := { s.link with select := none }, part := s.part.fresh }
  .next
    (if s.link.resetLow then ended
    else
      match s.link.select with
      | none => takeInput (bytes.take 256) ended
      | some x =>
        if x.discard then ended
        else takeInput (bytes.take 256) { ended with link := dropDelivered x bytes.length ended.link })

end Sys2Proof.Machine
end

