-- ==== Sys2Proof/Machine/Clock.lean ====
section
/-! DEFINITION. The time base on an empty queue: the expiry that is due, or 1 ms more (00_scope, Time; R50,
R67, R107, R117, R120, R145, R181; logs 1, 2). -/

namespace Sys2Proof.Machine

/-- A timer set for `t` is due. -/
def Part.isDue (p : Part) (t : Option Nat) : Bool :=
  match t with
  | some t => decide (t ≤ p.now)
  | none => false

/-- The join period end of a stream within its join period (R115, R120). -/
def Part.joinTimer (p : Part) (c : Fin 4) : Option Nat :=
  match p.stream c with
  | some st => if st.joinOver then none else some st.joinPeriodEnd
  | none => none

/-- An expiry when its timer is due. -/
def Part.whenDue (p : Part) (t : Option Nat) (i : Instr) : List Instr := if p.isDue t then [i] else []

/-- The expiries that are due, in the order in which they are taken (log 2). -/
def Part.dueExpiries (p : Part) : List Instr :=
  p.whenDue (p.arm.op.map (·.deadline)) .moveTimeout ++
    allBays.flatMap (fun b => p.whenDue (p.bay b).deadline (.watchdogExpiry b)) ++
    allChannels.flatMap (fun c => p.whenDue ((p.readOf c).map (·.deadline)) (.storeReadLimitExpiry c)) ++
    allChannels.flatMap (fun c => p.whenDue (p.joinTimer c) (.joinPeriodEnd c)) ++
    p.whenDue p.station.labelDeadline .labelLimitExpiry ++
    p.whenDue p.station.queryDeadline .queryLimitExpiry ++
    p.whenDue p.attn.pulseEnd .attnPulseEnd

/-- 1 ms passes; while RST_N is low the time base stands, for it restarts at the rise (R173). -/
def tick (s : State) : State :=
  if s.link.resetLow then s else { s with part := { s.part.fresh with now := s.part.now + 1 } }

/-- What an empty queue does: the first due expiry, if one is due (log 1). -/
def State.dueExpiry (s : State) : Option Instr :=
  if s.link.resetLow then none else s.part.dueExpiries.head?

end Sys2Proof.Machine
end

