-- ==== Sys2Proof/Machine/Dispatch.lean ====
section
/-! DEFINITION. The meaning of every command: one arm per row of the opcode table. -/

namespace Sys2Proof.Machine

def exec (i : Instr) (s : State) : Host.Outcome State Fault Refusal :=
  match i with
  | .selectBegin => Sys2Proof.Machine.execSelectBegin s
  | .selectEnd bytes => Sys2Proof.Machine.execSelectEnd bytes s
  | .identify tag => Sys2Proof.Machine.execIdentify tag s
  | .configureTower tag settings => Sys2Proof.Machine.execConfigureTower tag settings s
  | .startTower tag => Sys2Proof.Machine.execStartTower tag s
  | .stopTowerNormal tag => Sys2Proof.Machine.execStopTowerNormal tag s
  | .stopTowerAbrupt tag => Sys2Proof.Machine.execStopTowerAbrupt tag s
  | .armRecover tag => Sys2Proof.Machine.execArmRecover tag s
  | .spindleLoaded tag spindle cls count => Sys2Proof.Machine.execSpindleLoaded tag spindle cls count s
  | .outputEmptied tag => Sys2Proof.Machine.execOutputEmptied tag s
  | .rejectBinEmptied tag => Sys2Proof.Machine.execRejectBinEmptied tag s
  | .setAttention tag enables mode => Sys2Proof.Machine.execSetAttention tag enables mode s
  | .readAttention tag => Sys2Proof.Machine.execReadAttention tag s
  | .registerImage tag address blocks cls => Sys2Proof.Machine.execRegisterImage tag address blocks cls s
  | .surveyImage tag image => Sys2Proof.Machine.execSurveyImage tag image s
  | .lookUpImage tag image pageStart => Sys2Proof.Machine.execLookUpImage tag image pageStart s
  | .retireImage tag image => Sys2Proof.Machine.execRetireImage tag image s
  | .defineJob tag fields => Sys2Proof.Machine.execDefineJob tag fields s
  | .changeJob tag job change => Sys2Proof.Machine.execChangeJob tag job change s
  | .startJob tag job => Sys2Proof.Machine.execStartJob tag job s
  | .pauseJob tag job => Sys2Proof.Machine.execPauseJob tag job s
  | .resumeJob tag job => Sys2Proof.Machine.execResumeJob tag job s
  | .cancelJob tag job => Sys2Proof.Machine.execCancelJob tag job s
  | .lookUpJob tag job => Sys2Proof.Machine.execLookUpJob tag job s
  | .listJobs tag start => Sys2Proof.Machine.execListJobs tag start s
  | .retireJob tag job => Sys2Proof.Machine.execRetireJob tag job s
  | .lookUpDisc tag disc => Sys2Proof.Machine.execLookUpDisc tag disc s
  | .lookUpPlace tag place => Sys2Proof.Machine.execLookUpPlace tag place s
  | .listDiscs tag start filter => Sys2Proof.Machine.execListDiscs tag start filter s
  | .routeDisc tag disc dest => Sys2Proof.Machine.execRouteDisc tag disc dest s
  | .markDisc tag disc => Sys2Proof.Machine.execMarkDisc tag disc s
  | .removeDisc tag disc => Sys2Proof.Machine.execRemoveDisc tag disc s
  | .retireDisc tag disc => Sys2Proof.Machine.execRetireDisc tag disc s
  | .lookUpBay tag bay => Sys2Proof.Machine.execLookUpBay tag bay s
  | .enableBay tag bay => Sys2Proof.Machine.execEnableBay tag bay s
  | .disableBay tag bay => Sys2Proof.Machine.execDisableBay tag bay s
  | .clearBayFault tag bay => Sys2Proof.Machine.execClearBayFault tag bay s
  | .setMediaEntry tag fields => Sys2Proof.Machine.execSetMediaEntry tag fields s
  | .clearMediaEntry tag entry => Sys2Proof.Machine.execClearMediaEntry tag entry s
  | .setDefaultMedia tag verdict cap => Sys2Proof.Machine.execSetDefaultMedia tag verdict cap s
  | .lookUpMediaEntry tag entry => Sys2Proof.Machine.execLookUpMediaEntry tag entry s
  | .defineTemplate tag fields => Sys2Proof.Machine.execDefineTemplate tag fields s
  | .lookUpTemplate tag template => Sys2Proof.Machine.execLookUpTemplate tag template s
  | .cartridgeInstalled tag channel level => Sys2Proof.Machine.execCartridgeInstalled tag channel level s
  | .setInkChannel tag channel floor dropVolume trim => Sys2Proof.Machine.execSetInkChannel tag channel floor dropVolume trim s
  | .lookUpInk tag template job => Sys2Proof.Machine.execLookUpInk tag template job s
  | .clearPrinter tag => Sys2Proof.Machine.execClearPrinter tag s
  | .rstNLow => Sys2Proof.Machine.execRstNLow s
  | .rstNRise => Sys2Proof.Machine.execRstNRise s
  | .attnPulseEnd => Sys2Proof.Machine.execAttnPulseEnd s
  | .doorOpen => Sys2Proof.Machine.execDoorOpen s
  | .doorClosed => Sys2Proof.Machine.execDoorClosed s
  | .gripped op => Sys2Proof.Machine.execGripped op s
  | .done op => Sys2Proof.Machine.execDone op s
  | .missed op => Sys2Proof.Machine.execMissed op s
  | .double op => Sys2Proof.Machine.execDouble op s
  | .single op => Sys2Proof.Machine.execSingle op s
  | .stillDouble op => Sys2Proof.Machine.execStillDouble op s
  | .dropped op => Sys2Proof.Machine.execDropped op s
  | .interrupted op => Sys2Proof.Machine.execInterrupted op s
  | .jammed op => Sys2Proof.Machine.execJammed op s
  | .homed op discHeld => Sys2Proof.Machine.execHomed op discHeld s
  | .moveTimeout => Sys2Proof.Machine.execMoveTimeout s
  | .loaded bay => Sys2Proof.Machine.execLoaded bay s
  | .loadError bay => Sys2Proof.Machine.execLoadError bay s
  | .identified bay blank maker type cls capacity => Sys2Proof.Machine.execIdentified bay blank maker type cls capacity s
  | .idError bay => Sys2Proof.Machine.execIdError bay s
  | .ready bay => Sys2Proof.Machine.execReady bay s
  | .chunkAck bay => Sys2Proof.Machine.execChunkAck bay s
  | .writeError bay => Sys2Proof.Machine.execWriteError bay s
  | .closed bay => Sys2Proof.Machine.execClosed bay s
  | .closeError bay => Sys2Proof.Machine.execCloseError bay s
  | .segment bay bytes => Sys2Proof.Machine.execSegment bay bytes s
  | .readError bay => Sys2Proof.Machine.execReadError bay s
  | .opened bay => Sys2Proof.Machine.execOpened bay s
  | .ejectError bay => Sys2Proof.Machine.execEjectError bay s
  | .resetDone bay present tray => Sys2Proof.Machine.execResetDone bay present tray s
  | .resetFailed bay => Sys2Proof.Machine.execResetFailed bay s
  | .watchdogExpiry bay => Sys2Proof.Machine.execWatchdogExpiry bay s
  | .data channel read bytes => Sys2Proof.Machine.execData channel read bytes s
  | .storeError channel read => Sys2Proof.Machine.execStoreError channel read s
  | .storeReadLimitExpiry channel => Sys2Proof.Machine.execStoreReadLimitExpiry channel s
  | .joinPeriodEnd channel => Sys2Proof.Machine.execJoinPeriodEnd channel s
  | .status present condition temperature => Sys2Proof.Machine.execStatus present condition temperature s
  | .labelDone drops temperature => Sys2Proof.Machine.execLabelDone drops temperature s
  | .labelFailed drops temperature => Sys2Proof.Machine.execLabelFailed drops temperature s
  | .temperature temperature => Sys2Proof.Machine.execTemperature temperature s
  | .printerFault drops => Sys2Proof.Machine.execPrinterFault drops s
  | .labelLimitExpiry => Sys2Proof.Machine.execLabelLimitExpiry s
  | .queryLimitExpiry => Sys2Proof.Machine.execQueryLimitExpiry s

end Sys2Proof.Machine
end

