-- ==== Sys2Proof/Safety.lean ====
section
/-! DEFINITION. The terms the statements use: when a frame is taken, what a reply adds, when a report
answers what the part has in flight, and the invariants every step keeps. -/

namespace Sys2Proof.Machine

/-! ## Commands that are taken -/

/-- A request's frame is taken: RST_N is high and a slot is free (R173, R175). -/
abbrev State.takes (s : State) : Prop := s.link.resetLow = false ∧ s.link.slotFree = true

/-- The state after a request: the records `q`, and one reply more at the tail of the reply queue. -/
def State.replied (s : State) (code tag : Byte) (a : Answer) (q : Part) : State :=
  { s with part := q, link := { s.link with replies := s.link.replies ++ [replyFrame code tag a] } }

/-- The state after a report, an expiry or a pin event: the records alone have changed. -/
def State.became (s : State) (q : Part) : State := { s with part := q }

/-- The handler-port operation `o` is in flight, its reports are taken, and the arm is not HALTED (R47, R48,
R50, R58). -/
abbrev State.flying (s : State) (o : ArmOp) : Prop :=
  s.link.resetLow = false ∧ s.part.doorOpen = false ∧ s.part.arm.op = some o ∧ s.part.arm.cut = none ∧
    s.part.arm.liveFrom ≤ o.id ∧ s.part.arm.stale.contains o.id = false ∧ s.part.arm.state ≠ .halted

/-- The door's opening cut the operation `o` short, and its reports are taken still (R58). -/
abbrev State.cutShort (s : State) (o : ArmOp) : Prop :=
  s.link.resetLow = false ∧ s.part.arm.cut = some o ∧ s.part.arm.liveFrom ≤ o.id ∧
    s.part.arm.stale.contains o.id = false

/-- The drive of bay `b` has the operation `op` in flight, so its report of it is taken (R66). -/
abbrev State.driving (s : State) (b : Fin 12) (op : DriveOp) : Prop :=
  s.link.resetLow = false ∧ (s.part.bay b).operation = some op

/-- The link after a select of output `x.output` with `n` bytes clocked: a reply read out whole has left its
queue (R175, R178). -/
def Link.ended (l : Link) (x : Select) (n : Nat) : Link :=
  { l with
    select := none
    replies := if x.output ≠ [] ∧ x.output.length ≤ n then l.replies.drop 1 else l.replies }

/-- The body length of the requests that carry every field of theirs (R179 and the requests' own rules). -/
def fixedBody (code : Byte) : Option Nat :=
  match code.toNat with
  | 0x01 => some 0 | 0x03 => some 0 | 0x04 => some 1 | 0x05 => some 0 | 0x06 => some 3 | 0x07 => some 0
  | 0x08 => some 0 | 0x10 => some 5 | 0x11 => some 0 | 0x20 => some 9 | 0x21 => some 1 | 0x22 => some 2
  | 0x23 => some 1 | 0x30 => some 22 | 0x32 => some 1 | 0x33 => some 1 | 0x34 => some 1 | 0x35 => some 1
  | 0x36 => some 1 | 0x37 => some 1 | 0x38 => some 1 | 0x40 => some 1 | 0x41 => some 1 | 0x42 => some 2
  | 0x43 => some 2 | 0x44 => some 1 | 0x45 => some 1 | 0x46 => some 1 | 0x50 => some 1 | 0x51 => some 1
  | 0x52 => some 1 | 0x53 => some 1 | 0x60 => some 10 | 0x61 => some 1 | 0x62 => some 2 | 0x63 => some 1
  | 0x70 => some 12 | 0x71 => some 1 | 0x72 => some 5 | 0x74 => some 2 | 0x75 => some 0
  | _ => none

/-- What a setting holds after CONFIGURE TOWER: the carried number, moved to the nearest limit of its range, or
the number held (R165). -/
def stored (lo hi : Nat) (carried : Option Byte) (held : Nat) : Nat :=
  match carried with
  | some b => clamp lo hi b.toNat
  | none => held

/-! ## Frames -/

/-- The fields of the part's records. -/
inductive Field
  | now | doorOpen | attn | discs | heldSpell | jobs | offered | places | spindleA | spindleB
  | output | bin | arm | bays | media | defaultVerdict | defaultCap | images | surveyQueue
  | channels | streamReqs | splitReqs | readCount | contexts | station | templates | ink | inkWait
  | printQueue | shortSet | tower | sent
  deriving DecidableEq, Repr

/-- A field holds the same in both. -/
def Part.SameAt (p q : Part) : Field → Prop
  | .now => q.now = p.now
  | .doorOpen => q.doorOpen = p.doorOpen
  | .attn => q.attn = p.attn
  | .discs => q.discs = p.discs
  | .heldSpell => q.heldSpell = p.heldSpell
  | .jobs => q.jobs = p.jobs
  | .offered => q.offered = p.offered
  | .places => q.places = p.places
  | .spindleA => q.spindleA = p.spindleA
  | .spindleB => q.spindleB = p.spindleB
  | .output => q.output = p.output
  | .bin => q.bin = p.bin
  | .arm => q.arm = p.arm
  | .bays => q.bays = p.bays
  | .media => q.media = p.media
  | .defaultVerdict => q.defaultVerdict = p.defaultVerdict
  | .defaultCap => q.defaultCap = p.defaultCap
  | .images => q.images = p.images
  | .surveyQueue => q.surveyQueue = p.surveyQueue
  | .channels => q.channels = p.channels
  | .streamReqs => q.streamReqs = p.streamReqs
  | .splitReqs => q.splitReqs = p.splitReqs
  | .readCount => q.readCount = p.readCount
  | .contexts => q.contexts = p.contexts
  | .station => q.station = p.station
  | .templates => q.templates = p.templates
  | .ink => q.ink = p.ink
  | .inkWait => q.inkWait = p.inkWait
  | .printQueue => q.printQueue = p.printQueue
  | .shortSet => q.shortSet = p.shortSet
  | .tower => q.tower = p.tower
  | .sent => q.sent = p.sent

/-- `q` differs from `p` in the listed fields at most. -/
def Part.Changes (p : Part) (fs : List Field) (q : Part) : Prop := ∀ f, f ∉ fs → p.SameAt q f

/-- Every record but the one numbered `i` is as it was. -/
def OthersKept {α β : Type} (before after : α → β) (i : α) : Prop := ∀ x, x ≠ i → after x = before x

/-- The arm after a move has ended with its operation's final report (R47, R50). -/
def Arm.idled (a : Arm) : Arm := { a with op := none, heldInterrupted := false, move := none, state := .idle }

/-- The arm after a move has ended: an operation in flight has had its final report, and of one the door cut
short the arm stays as the door left it, HALTED among its states (R47, R50, R58). -/
def Arm.ended (a : Arm) : Arm :=
  if a.cut = none then a.idled
  else { a with move := none, state := if a.state = .halted then .halted else .idle }

/-- The arm with an operation sent: its number, its move timeout (R48, R50). -/
def Arm.sending (a : Arm) (o : ArmOrder) (deadline : Nat) : Arm :=
  { a with
    op := some { id := a.opCount, order := o, deadline := deadline }, opCount := a.opCount + 1
    heldInterrupted := false, cut := none
    stale := match a.cut with | some x => x.id :: a.stale | none => a.stale }

/-- The bay with a drive operation in flight (R66, R67). -/
def Bay.driven (x : Bay) (op : DriveOp) (deadline : Nat) : Bay :=
  { x with operation := some op, deadline := some deadline }

/-- The bay with no drive operation in flight (R66, R67). -/
def Bay.rested (x : Bay) : Bay := { x with operation := none, deadline := none }

/-- An empty bay with its tray open (R74, R75, R79, R82). -/
def Bay.emptied (x : Bay) : Bay :=
  if x.consecutiveFailures = 3 then
    { x.enter .faulted with operation := none, deadline := none, faultCause := some .repeatedFailures }
  else if x.disablePending then x.enter .offline
  else x.enter .open_

/-- The records after a report that carries a head temperature: the temperature, the gate, and HEAD_HOT at the
gate's closing (R145, R146). -/
def Part.heated (p : Part) (t : Nat) : Part :=
  { p with
    station := { p.station with
      headTemperature := t
      gateOpen := if p.station.gateOpen then decide (t < p.station.critical)
        else decide (t ≤ p.station.warning) }
    attn := if p.station.gateOpen = true ∧ p.station.critical ≤ t then p.attn.raise .headHot p.now
      else p.attn }

/-- Tower control's record with the sweep's mark of bay `b` clear (R168). -/
def Tower.unmarked (t : Tower) (b : Fin 12) : Tower :=
  { t with sweep := t.sweep.map fun w => { w with
      bayMarks := w.bayMarks.set b.val false, resetOwed := w.resetOwed.set b.val false } }

/-- Tower control's record with the sweep's printer mark clear (R168). -/
def Tower.printerUnmarked (t : Tower) : Tower :=
  { t with sweep := t.sweep.map fun w => { w with printerMark := false, queryOwed := false } }

/-- The bay with RESET in flight, *recovering* set (R65, R66). -/
def Bay.resetting (x : Bay) (now : Nat) : Bay :=
  { (x.enter .resetting).driven .reset (now + 30000) with recovering := true }

/-- The bay with EJECT in flight (R66, R67, R73). -/
def Bay.ejecting (x : Bay) (now : Nat) : Bay := (x.enter .openingTray).driven .eject (now + 20000)

/-- The bay with one failure more counted (R79). -/
def Bay.failed (x : Bay) : Bay :=
  { x with consecutiveFailures := min 3 (x.consecutiveFailures + 1), failures := min 65535 (x.failures + 1) }

/-- The bay with a GOOD verdict counted (R79). -/
def Bay.goodCounted (x : Bay) : Bay :=
  { x with consecutiveFailures := 0, goods := min 65535 (x.goods + 1) }

/-- A record's *eligible order* once it is given one: the one held, or the newest rank (R7). -/
def Part.order (p : Part) (d : Disc) : Nat := d.eligible.getD (nextRank p.eligibleRanks)

/-! ## Invariants -/

/-- The link between commands, and the memories: the request queue is empty, the replies fit their slots
(R175, R177), the memories are in canonical form (log 13). -/
abbrev State.LinkOk (s : State) : Prop :=
  s.link.requests = [] ∧ s.link.replies.length ≤ 8 ∧ s.memory.wf

/-- A cause is held exactly in the state it explains: FAULTED of a bay (R63), FAULT of the station (R144),
HALTED of the arm (R47); the resume state exactly in PAUSED and HALTED (R164). -/
structure Part.CausesOk (p : Part) : Prop where
  bays : ∀ b, (p.bay b).faultCause.isSome = true ↔ (p.bay b).state = .faulted
  station : p.station.faultCause.isSome = true ↔ p.station.state = .fault
  arm : p.arm.halt.isSome = true ↔ p.arm.state = .halted
  tower : p.tower.resume.isSome = true ↔ (p.tower.state = .paused ∨ p.tower.state = .halted)

/-- A media entry's *cap* stays within 1 to its *ceiling*, its list within 16 items, its totals within
65535 (R86, R93). -/
def MediaEntry.ok (e : MediaEntry) : Prop :=
  1 ≤ e.cap ∧ e.cap ≤ e.ceiling ∧ e.ceiling ≤ 16 ∧ e.recent.length ≤ 16 ∧ e.burns ≤ 65535 ∧ e.fails ≤ 65535

/-- A spindle's counts are in range (R43). -/
def Spindle.ok (x : Spindle) : Prop := x.count ≤ 150 ∧ x.wasted ≤ 65535

/-- A bay's counts are in range (R63, R79). -/
def Bay.countsOk (x : Bay) : Prop :=
  x.consecutiveFailures ≤ 3 ∧ x.loads ≤ 65535 ∧ x.goods ≤ 65535 ∧ x.failures ≤ 65535

/-- An ink channel's level and settings are in range (R148, R161). -/
def InkChannel.ok (c : InkChannel) : Prop :=
  c.level ≤ 60000000 ∧ c.floor ≤ 2000000 ∧ 2 ≤ c.dropVolume ∧ c.dropVolume ≤ 20 ∧ -31 ≤ c.trim ∧ c.trim ≤ 31

/-- A template's fields are in range (R147). -/
def Template.ok (t : Template) : Prop :=
  15 ≤ t.inner ∧ t.inner ≤ 50 ∧ 60 ≤ t.outer ∧ t.outer ≤ 120 ∧ ∀ k : Fin 4, t.coverage[k.val] ≤ 1000

/-- A job's clamped fields are in range (R22), and under *serial digits* n both serials below 10^n. -/
structure Job.ok (j : Job) : Prop where
  ordered : 1 ≤ j.ordered ∧ j.ordered ≤ 9999
  priority : j.priority ≤ 3
  maxSpeed : 1 ≤ j.maxSpeed ∧ j.maxSpeed ≤ 16
  recovered : ∀ n, j.recoveredLimit = some n → n ≤ 255
  rejects : 1 ≤ j.rejectLimit ∧ j.rejectLimit ≤ 255
  digits : ∀ n, j.serialDigits = some n → n ≤ 8
  serials : ∀ x, j.serials = some x → 1 ≤ x.step ∧ x.step ≤ 100 ∧
    ∃ n, j.serialDigits = some n ∧ x.first < 10 ^ n ∧ x.next < 10 ^ n

/-- A bay's class support is absent or 1 to 16 (R63). -/
def Bay.supportOk (x : Bay) : Prop :=
  (∀ n, x.supportA = some n → 1 ≤ n ∧ n ≤ 16) ∧ ∀ n, x.supportB = some n → 1 ≤ n ∧ n ≤ 16

/-- Tower control's stored settings are in range, times in ms (R165). -/
structure Tower.ok (t : Tower) : Prop where
  installed : 1 ≤ t.installed ∧ t.installed ≤ 12
  progressTimeout : 2000 ≤ t.progressTimeout ∧ t.progressTimeout ≤ 60000
  moveTimeout : 2000 ≤ t.moveTimeout ∧ t.moveTimeout ≤ 30000
  joinHold : t.joinHold ≤ 30000
  splitThreshold : 8 ≤ t.splitThreshold ∧ t.splitThreshold ≤ 56

/-- The gate's limits are in range, *critical* above *warning* (R144, R165). -/
def Station.limitsOk (x : Station) : Prop :=
  30 ≤ x.warning ∧ x.warning ≤ 90 ∧ 35 ≤ x.critical ∧ x.critical ≤ 100 ∧ x.warning < x.critical

/-- Every setting, clamped field and capped count is in the range the spec gives it. -/
structure Part.RangesOk (p : Part) : Prop where
  media : ∀ e x, p.entry e = some x → x.ok
  defaultCap : 1 ≤ p.defaultCap ∧ p.defaultCap ≤ 16
  spindles : ∀ s, (p.spindle s).ok
  output : 1 ≤ p.output.capacity ∧ p.output.capacity ≤ 150
  bin : 1 ≤ p.bin.capacity ∧ p.bin.capacity ≤ 60
  jobs : ∀ x j, p.job x = some j → j.ok
  bays : ∀ b, (p.bay b).countsOk
  support : ∀ b, (p.bay b).supportOk
  ink : ∀ k, (p.inkChannel k).ok
  templates : ∀ t x, p.template t = some x → x.ok
  tower : p.tower.ok
  gate : p.station.limitsOk

end Sys2Proof.Machine
end

