-- ==== Sys2Proof/Certificates/Slice0/Obligations.lean ====
section
/-! DEFINITION. The statements about the model, for the provers: the commands by family, the records they
change, and the invariants. -/

section

open Sys2Proof Sys2Proof.Machine

/-! ## The queue, the time base, and all commands at once -/

/-- The command at the front of the queue is the one that runs, on the queue's rest. -/
def Obligations.StepRunsTheFrontCommand : Prop :=
  ∀ (c : Instr) (rest : List Instr) (s : State),
    step { s with pending := c :: rest } = exec c { s with pending := rest }

/-- The model's choice (logs 1, 2): on an empty queue the time base goes on. The first timer due, in log 2's
fixed order (the move timeout, the bay watchdogs by bay, the store read limits by channel, the join periods
by channel, the label limit, the query limit, the attention pulse), expires by its command; with every
timer above `now`, 1 ms passes and nothing else changes; while RST_N is low nothing happens. -/
def Obligations.EmptyQueueIsTheTimeBase : Prop :=
  ∀ s : State, s.pending = [] →
    let now := s.part.now
    let arm := ∀ o, s.part.arm.op = some o → now < o.deadline
    let bays := fun n : Nat => ∀ b : Fin 12, b.val < n → ∀ t, (s.part.bay b).deadline = some t → now < t
    let reads := fun n : Nat => ∀ c : Fin 4, c.val < n → ∀ x, s.part.readOf c = some x → now < x.deadline
    let joins := fun n : Nat => ∀ c : Fin 4, c.val < n → ∀ st, s.part.stream c = some st →
      st.joinOver = false → now < st.joinPeriodEnd
    let label := ∀ t, s.part.station.labelDeadline = some t → now < t
    let query := ∀ t, s.part.station.queryDeadline = some t → now < t
    (s.link.resetLow = true → step s = .next s) ∧
    (s.link.resetLow = false →
      (∀ o, s.part.arm.op = some o → o.deadline ≤ now → step s = exec .moveTimeout s) ∧
      (∀ (b : Fin 12) t, arm → bays b.val → (s.part.bay b).deadline = some t → t ≤ now →
        step s = exec (.watchdogExpiry b) s) ∧
      (∀ (c : Fin 4) x, arm → bays 12 → reads c.val → s.part.readOf c = some x → x.deadline ≤ now →
        step s = exec (.storeReadLimitExpiry c) s) ∧
      (∀ (c : Fin 4) st, arm → bays 12 → reads 4 → joins c.val → s.part.stream c = some st →
        st.joinOver = false → st.joinPeriodEnd ≤ now → step s = exec (.joinPeriodEnd c) s) ∧
      (∀ t, arm → bays 12 → reads 4 → joins 4 → s.part.station.labelDeadline = some t → t ≤ now →
        step s = exec .labelLimitExpiry s) ∧
      (∀ t, arm → bays 12 → reads 4 → joins 4 → label → s.part.station.queryDeadline = some t → t ≤ now →
        step s = exec .queryLimitExpiry s) ∧
      (∀ t, arm → bays 12 → reads 4 → joins 4 → label → query → s.part.attn.pulseEnd = some t → t ≤ now →
        step s = exec .attnPulseEnd s) ∧
      (arm → bays 12 → reads 4 → joins 4 → label → query → (∀ t, s.part.attn.pulseEnd = some t → now < t) →
        step s = .next (s.became { s.part.fresh with now := now + 1 })))

/-- Every command answers a next state, with the queue's rest as it was: the part has no command that stops it
(INVENTORY.md, Faults). -/
def Obligations.EveryCommandAnswersNext : Prop :=
  ∀ (i : Instr) (s : State), ∃ t, exec i s = .next t ∧ t.pending = s.pending

/-- Each of the 45 request rows hands its request to the owner and queues one reply, with the frame's code and
tag; with no slot free LINK_OVERRUN is raised and there is no reply; while RST_N is low nothing happens. A
refusal carries an empty body and changes no record (R173, R175, R177, R179; log 3). -/
def Obligations.RequestsAnswerOnce : Prop :=
  (∀ (i : Instr) (code : Byte) (body : List Byte) (s : State), requestBody i = some (code, body) →
    (s.takes → exec i s =
      .next (s.replied code (tagOf i) (runRequest i s.part.fresh).2 (runRequest i s.part.fresh).1)) ∧
    (s.link.resetLow = false → s.link.slotFree = false →
      exec i s = .next (s.became
        { s.part.fresh with attn := s.part.attn.raise .linkOverrun s.part.now })) ∧
    (s.link.resetLow = true → exec i s = .next s)) ∧
  (∀ (i : Instr) (p : Part),
    (runRequest i p).2.status ≠ .ok → (runRequest i p).2.status ≠ .accepted →
    (runRequest i p).2.status ≠ .clamped →
    (runRequest i p).1 = p ∧ (runRequest i p).2.body = [])

/-- While RST_N is low every report, expiry and request row leaves the whole state as it is; the DOOR pin moves
and does nothing else (R173); the selects are stated apart. RST_N going low: no slot is offered, ATTN_N is
undriven, the handler port's stop is asserted, and no record changes (log 24). Its rise with the door
closed gives the records of reset, save the numbers of operations and STORE READs sent, which go on (log
10); both queues are empty; a select in progress is one to be discarded, with a presence byte of 00h; the
memories keep their contents; ATTN_N is driven low and LRDY high. With the door open DOOR is reported at
once and the arm is HALTED by it (R58, R173 to R175). -/
def Obligations.NothingIsTakenWhileReset : Prop :=
  (∀ (i : Instr) (s : State), s.link.resetLow = true →
    i ≠ .selectBegin → (∀ bytes, i ≠ .selectEnd bytes) → i ≠ .rstNLow → i ≠ .rstNRise → i ≠ .doorOpen →
    i ≠ .doorClosed → exec i s = .next s) ∧
  (∀ s : State, s.link.resetLow = true →
    exec .doorOpen s = .next (s.became { s.part with doorOpen := true }) ∧
    exec .doorClosed s = .next (s.became { s.part with doorOpen := false })) ∧
  (∀ s : State, ∃ t, exec .rstNLow s = .next t ∧
    t = { s with link := { s.link with resetLow := true }, part := { s.part with sent := [.armStop] } } ∧
    t.link.lrdy = false ∧ t.attnLow = false) ∧
  (∀ s : State, ∃ t, exec .rstNRise s = .next t ∧
    t.pending = s.pending ∧ t.memory = s.memory ∧ t.link.requests = [] ∧ t.link.replies = [] ∧
    t.link.resetLow = false ∧ t.link.lrdy = true ∧ t.attnLow = true ∧
    (s.link.select = none → t.link.select = none) ∧
    (∀ x, s.link.select = some x → t.link.select = some { output := [], discard := true }) ∧
    (s.part.doorOpen = false → t.part = { State.reset.part with
      readCount := s.part.readCount
      arm := { State.reset.part.arm with
        opCount := s.part.arm.opCount, liveFrom := s.part.arm.opCount } }) ∧
    (s.part.doorOpen = true → t.part = { State.reset.part with
      doorOpen := true, readCount := s.part.readCount
      attn := { State.reset.part.attn with flags := 0x101 }
      arm := { State.reset.part.arm with
        state := .halted, halt := some .door, opCount := s.part.arm.opCount, liveFrom := s.part.arm.opCount } }))

/-! ## The host link -/

/-- The beginning of a select chooses the output, the head reply or a presence byte of 00h, and changes no
record; a select already in progress goes on (log 4). The end of a select that takes no request: a reply
delivered whole is removed; no input and a NOP do nothing more; input with no slot free is discarded with
LINK_OVERRUN; an input of fewer than 3 bytes raises LINK_ERROR; a select in progress at the rise of RST_N
is discarded whole (R174 to R176, R178). The end of a select while RST_N is low takes nothing and removes
no reply; one with no select in progress takes its input as the end of a select that delivered nothing (log
4, DESIGN CHOICE). -/
def Obligations.SelectsBeginAndEnd : Prop :=
  (∀ s : State,
    (∀ x, s.link.select = some x → exec .selectBegin s = .next s) ∧
    (s.link.select = none → s.link.resetLow = false → ∀ r rest, s.link.replies = r :: rest →
      exec .selectBegin s = .next { s with
        part := s.part.fresh
        link := { s.link with select := some { output := r, discard := false } } }) ∧
    (s.link.select = none → s.link.replies = [] ∨ s.link.resetLow = true →
      exec .selectBegin s = .next { s with
        part := s.part.fresh
        link := { s.link with select := some { output := [], discard := false } } })) ∧
  (∀ (s : State) (x : Select) (bytes : List Byte), s.link.select = some x → s.link.resetLow = false →
    let l := s.link.ended x bytes.length
    (x.discard = true → exec (.selectEnd bytes) s =
      .next { s with part := s.part.fresh, link := { s.link with select := none } }) ∧
    (x.discard = false → bytes = [] ∨ bytes.head? = some 0 →
      exec (.selectEnd bytes) s = .next { s with part := s.part.fresh, link := l }) ∧
    (x.discard = false → ∀ b, bytes.head? = some b → b ≠ 0 → l.slotFree = false →
      exec (.selectEnd bytes) s = .next { s with
        part := { s.part.fresh with attn := s.part.attn.raise .linkOverrun s.part.now }, link := l }) ∧
    (x.discard = false → ∀ b, bytes.head? = some b → b ≠ 0 → l.slotFree = true → bytes.length < 3 →
      exec (.selectEnd bytes) s = .next { s with
        part := { s.part.fresh with attn := s.part.attn.raise .linkError s.part.now }, link := l })) ∧
  (∀ (s : State) (bytes : List Byte),
    (s.link.resetLow = true → exec (.selectEnd bytes) s = .next { s with
      part := s.part.fresh, link := { s.link with select := none } }) ∧
    (s.link.resetLow = false → s.link.select = none →
      exec (.selectEnd bytes) s = exec (.selectEnd bytes)
        { s with link := { s.link with select := some { output := [], discard := false } } }))

/-- A frame of 3 bytes or more that is no request is answered with its own tag and code, an empty body and no
effect on any record: MALFORMED when its length does not fit its declared body, UNKNOWN for a code of no
request, MALFORMED when a body is not of its request's length or subset body's form, OUT_OF_RANGE for a
STOP TOWER of another mode (R169, R174, R176, R184). The lengths of the fixed bodies, the 22 bytes of
DEFINE JOB and the 10 of SET MEDIA ENTRY among them, are the model's reading of the field lists (log 5,
DEDUCED), as are the subset bodies: the presence word, for CHANGE JOB and SET INK CHANNEL the byte of the
job or the channel, then the carried fields (log 6, DEDUCED). -/
def Obligations.UnreadableFramesAreRefused : Prop :=
  ∀ (s : State) (x : Select) (bytes : List Byte) (code tag n : Byte) (rest : List Byte),
    s.link.select = some x → s.link.resetLow = false → x.discard = false → s.link.requests = [] →
    bytes.take 256 = code :: tag :: n :: rest → code ≠ 0 →
    (s.link.ended x bytes.length).slotFree = true →
    let l := s.link.ended x bytes.length
    let fits := n.toNat ≤ 252 ∧ n.toNat ≤ rest.length ∧ ∀ b ∈ rest.drop n.toNat, b = 0
    let replies := fun status : Byte => Host.Outcome.next { s with
      part := s.part.fresh, link := { l with replies := l.replies ++ [[1, status, tag, code, 0]] } }
    let body := rest.take n.toNat
    let word := (body.getD 0 0).toNat + 2 ^ 8 * (body.getD 1 0).toNat + 2 ^ 16 * (body.getD 2 0).toNat +
      2 ^ 24 * (body.getD 3 0).toNat
    let carried := fun sizes : List Nat =>
      (sizes.zipIdx.map fun f => if word.testBit f.2 then f.1 else 0).sum
    (¬ fits → exec (.selectEnd bytes) s = replies 0x20) ∧
    (fits → fixedBody code = none → code ≠ 0x02 → code ≠ 0x31 → code ≠ 0x73 →
      exec (.selectEnd bytes) s = replies 0x21) ∧
    (fits → ∀ k, fixedBody code = some k → n.toNat ≠ k → exec (.selectEnd bytes) s = replies 0x20) ∧
    (fits → code = 0x04 → n = 1 → rest.head? ≠ some 0 → rest.head? ≠ some 1 →
      exec (.selectEnd bytes) s = replies 0x15) ∧
    (fits → code = 0x02 → n.toNat < 4 ∨ n.toNat ≠ 4 + carried
        ([1, 1 + 3 * (body.getD (4 + word % 2) 0).toNat] ++ List.replicate 13 1) →
      exec (.selectEnd bytes) s = replies 0x20) ∧
    (fits → code = 0x31 → n.toNat < 5 ∨
        n.toNat ≠ 5 + carried [4, 1, 1, 1, 2, 1, 1, 1, 1, 1, 1, 1, 1, 4, 1] →
      exec (.selectEnd bytes) s = replies 0x20) ∧
    (fits → code = 0x73 → n.toNat < 5 ∨ n.toNat ≠ 5 + carried [4, 1, 1] →
      exec (.selectEnd bytes) s = replies 0x20)

/-- A select that carries a request's frame, with or without bytes of 00h after it, acts exactly as that
request's row does on the link as the select leaves it (R174 to R178; log 3). -/
def Obligations.SelectEndRunsTheRequest : Prop :=
  ∀ (i : Instr) (frame : List Byte) (n : Nat) (s : State) (x : Select),
    i.wf = true → encodeRequest i = some frame → s.link.select = some x → x.discard = false →
    s.link.resetLow = false → s.link.requests = [] →
    (s.link.ended x (frame.length + n)).slotFree = true →
    exec (.selectEnd (frame ++ List.replicate n 0)) s =
      exec i { s with link := s.link.ended x (frame.length + n) }

/-- Decoding undoes encoding: the frame of every well-formed request reads back as that request, with every
operand at every value, and a frame is at most 255 bytes; a frame read as a request is that request: its
code and tag are the frame's, and it is one of the table's 45 rows (R174, R176, R184). The forms of the
bodies and the codes of named values without a code table are the model's reading (logs 5 to 7, DEDUCED).
-/
def Obligations.FramesReadBack : Prop :=
  (∀ (i : Instr) (frame : List Byte), i.wf = true → encodeRequest i = some frame →
    readFrame frame = .request i ∧ 3 ≤ frame.length ∧ frame.length ≤ 255) ∧
  (∀ (code tag n : Byte) (rest : List Byte) (i : Instr), readFrame (code :: tag :: n :: rest) = .request i →
    tagOf i = tag ∧ ∃ body, requestBody i = some (code, body))

/-! ## The invariants -/

/-- Every command keeps the request queue empty, the replies within their 8 slots and both memories in
canonical form (R175, R177; log 13). -/
def Obligations.LinkAndMemoryKeepTheirForm : Prop :=
  ∀ s t : State, s.LinkOk → step s = .next t → t.LinkOk

/-- Every command keeps causes and states in step: a bay's fault cause with FAULTED, the station's with FAULT,
the halt cause with HALTED, the resume state with PAUSED and HALTED (R47, R63, R144, R164). -/
def Obligations.CausesKeepTheirForm : Prop :=
  ∀ s t : State, s.part.CausesOk → step s = .next t → t.part.CausesOk

/-- Every command keeps every setting, clamped field and capped count in its range: the spindles and the sinks'
capacities (R43, R45), a job's clamped fields (R22), a bay's counts and class support (R63, R79), the media
table (R86, R93), the gate's limits (R144), templates and ink (R147, R148, R161), tower control's settings
(R165). An image's *attach count* and a job's counters have no clamp and are not among them. The bound of
*ordered* is R22's, held at its raise too (log 45, DEDUCED). -/
def Obligations.CountsKeepTheirRanges : Prop :=
  ∀ s t : State, s.part.RangesOk → step s = .next t → t.part.RangesOk

/-- The three invariants hold after a device reset. -/
def Obligations.InvariantsHoldAtReset : Prop :=
  State.reset.LinkOk ∧ State.reset.part.CausesOk ∧ State.reset.part.RangesOk

/-! ## Pins and attention -/

/-- The attention line (R180, R181): raising sets its flag alone; LEVEL drives ATTN_N low while some flag is
set and enabled; PULSE drives it for 2 ms from each event at which an enabled flag goes from clear to set.
The end of a pulse releases ATTN_N and changes nothing else but the time it stands for: an expiry before
its time moves the time up to it (the model's choice, log 2). -/
def Obligations.AttentionLine : Prop :=
  ((∀ (f : Flag) (p : Part),
    (raise f p).attn.isSet f = true ∧ (∀ g, g ≠ f → (raise f p).attn.isSet g = p.attn.isSet g) ∧
    raise f p = { p with attn := { p.attn with
      flags := (raise f p).attn.flags
      pulseEnd :=
        if p.attn.mode = .pulse ∧ p.attn.isSet f = false ∧ p.attn.enables.getLsbD f.bit = true then
          some (p.now + 2)
        else p.attn.pulseEnd } }) ∧
  (∀ s : State, s.link.resetLow = false → s.part.attn.mode = .level →
    (s.attnLow = true ↔ ∃ f : Flag, s.part.attn.isSet f = true ∧ s.part.attn.enables.getLsbD f.bit = true)) ∧
  (∀ s : State, s.link.resetLow = false → s.part.attn.mode = .pulse →
    (s.attnLow = true ↔ ∃ t, s.part.attn.pulseEnd = some t)) ∧
  (∀ s : State, s.link.resetLow = true → s.attnLow = false)) ∧
  (∀ (s : State) (t : Nat), s.link.resetLow = false → s.part.attn.pulseEnd = some t →
    ∃ u, exec .attnPulseEnd s = .next u ∧
      u = s.became { s.part.fresh with
        now := max s.part.now t, attn := { s.part.attn with pulseEnd := none } } ∧
      (s.part.attn.mode = .pulse → u.attnLow = false))

/-- READ and SET ATTENTION (R181, R182): SET ATTENTION stores the enables and the mode and changes no flag;
READ ATTENTION answers the flags, the enables and the mode, then clears every flag, and does not cut a
pulse short. A mode of another code is OUT_OF_RANGE. -/
def Obligations.AttentionRequests : Prop :=
  ∀ (s : State) (tag : Byte), s.takes →
    (∀ (e : Word32) (code : Byte) (m : AttnMode), (code = 0 ∧ m = .level) ∨ (code = 1 ∧ m = .pulse) →
      exec (.setAttention tag e code) s = .next (s.replied 0x10 tag { status := .ok, body := [] }
        { s.part.fresh with attn := { s.part.attn with
          enables := e.setWidth 19, mode := m
          pulseEnd := if s.part.attn.mode = m then s.part.attn.pulseEnd else none } })) ∧
    (∀ (e : Word32) (code : Byte), code ≠ 0 → code ≠ 1 →
      exec (.setAttention tag e code) s =
        .next (s.replied 0x10 tag { status := .outOfRange, body := [] } s.part.fresh)) ∧
    exec (.readAttention tag) s = .next (s.replied 0x11 tag
      { status := .ok
        body := u32 s.part.attn.flags.toNat ++ u32 s.part.attn.enables.toNat ++
          [if s.part.attn.mode = .level then 0 else 1] }
      { s.part.fresh with attn := { s.part.attn with flags := 0 } })

/-- What a device reset leaves, register by register (R1, R9, R21, R37, R43, R45, R47, R63, R85, R98, R114,
R144, R145, R147, R148, R164 to R166, R173, R180, R181). The queue, the link and the time at 0 are the
model's (logs 1, 24). That the state after power-up is the state after the rise of RST_N is log 34's
reading (DEDUCED). -/
def Obligations.ResetValues : Prop :=
  let p := State.reset.part
  State.reset.pending = [] ∧ State.reset.link = { requests := [], replies := [], select := none, resetLow := false } ∧
  (∀ r, p.disc r = none) ∧ p.heldSpell = false ∧ (∀ x, p.job x = none) ∧ p.offered = none ∧
  (∀ i, p.image i = none) ∧ (∀ e, p.entry e = none) ∧
  (∀ t, p.template t = none) ∧ (∀ c, p.channel c = .free) ∧ (∀ b, p.context b = none) ∧
  (∀ pl, p.occupant pl = none) ∧
  p.spindleA = { cls := .a, count := 0, empty := true, wasted := 0 } ∧
  p.spindleB = { cls := .b, count := 0, empty := true, wasted := 0 } ∧
  p.output = { count := 0, capacity := 100 } ∧ p.bin = { count := 0, capacity := 50 } ∧
  p.arm.state = .idle ∧ p.arm.move = none ∧ p.arm.halt = none ∧ p.arm.op = none ∧
  (∀ b, (p.bay b).state = .offline ∧ (p.bay b).enabled = false ∧ (p.bay b).disablePending = false ∧
    (p.bay b).supportA = some 16 ∧ (p.bay b).supportB = some 16 ∧ (p.bay b).operation = none ∧
    (p.bay b).deadline = none ∧ (p.bay b).recovering = false ∧
    (p.bay b).consecutiveFailures = 0 ∧ (p.bay b).loads = 0 ∧ (p.bay b).goods = 0 ∧
    (p.bay b).failures = 0 ∧ (p.bay b).channel = none ∧ (p.bay b).faultCause = none ∧
    (p.bay b).service = false ∧ (p.bay b).abortMark = false) ∧
  p.defaultVerdict = .refuse ∧ p.defaultCap = 1 ∧ p.surveyQueue = [] ∧ p.streamReqs = [] ∧
  p.splitReqs = [] ∧ p.inkWait = [] ∧ p.printQueue = [] ∧ p.shortSet = [] ∧
  p.station.state = .offline ∧ p.station.headTemperature = 0 ∧ p.station.gateOpen = true ∧
  p.station.warning = 55 ∧ p.station.critical = 65 ∧ p.station.faultCause = none ∧
  p.station.labelDeadline = none ∧ p.station.queryDeadline = none ∧
  (∀ k, (p.inkChannel k).level = 0 ∧ (p.inkChannel k).floor = 500000 ∧ (p.inkChannel k).reserved = 0 ∧
    (p.inkChannel k).dropVolume = 8 ∧ (p.inkChannel k).trim = 0) ∧
  p.tower.state = .stopped ∧ p.tower.resume = none ∧ p.tower.sweep = none ∧ p.tower.installed = 12 ∧
  p.tower.progressTimeout = 10000 ∧ p.tower.moveTimeout = 8000 ∧ p.tower.joinHold = 5000 ∧
  p.tower.splitThreshold = 32 ∧ p.tower.splitOn = true ∧ p.tower.surveyReserve = false ∧
  p.tower.autoRetire = false ∧ p.attn.flags = 1 ∧ p.attn.enables = BitVec.allOnes 19 ∧
  p.attn.mode = .level ∧ p.attn.pulseEnd = none ∧ p.doorOpen = false ∧ p.now = 0

/-- The door (R47, R58, R59, R62, R171): its opening raises DOOR_OPEN, halts an arm that is not HALTED, cuts
its operation short and interrupts its move, and pauses a tower in STARTING, RUNNING or STOPPING; its
closing homes an arm HALTED by the door and does nothing to another. A report is told from one of an
earlier operation by the operations' numbers (log 10, DESIGN CHOICE). -/
def Obligations.DoorMoves : Prop :=
  ∀ s : State, s.link.resetLow = false →
    (∃ q, exec .doorOpen s = .next (s.became (settle q)) ∧
      s.part.fresh.Changes [.doorOpen, .attn, .arm, .tower] q ∧
      q.doorOpen = true ∧
      (let told := s.part.attn.raise .doorOpen s.part.now
       q.attn = if s.part.tower.state.asResume = none then told else told.raise .towerState s.part.now) ∧
      (s.part.arm.state = .halted → q.arm = s.part.arm) ∧
      (s.part.arm.state ≠ .halted → q.arm = { s.part.arm with
        state := .halted, op := none, heldInterrupted := false, cut := s.part.arm.op
        halt := if s.part.arm.op.map (·.order) = some (.home .recover) then some .jam else some .door
        move := s.part.arm.move.map fun m => { m with interrupted := true } }) ∧
      (∀ x, s.part.tower.state.asResume = some x →
        q.tower = { s.part.tower with state := .paused, resume := some x }) ∧
      (s.part.tower.state.asResume = none → q.tower = s.part.tower)) ∧
    (s.part.arm.halt = some .door →
      exec .doorClosed s = .next (s.became (settle { s.part with
        doorOpen := false, sent := [.arm (.home .door)]
        arm := { s.part.arm.sending (.home .door) (s.part.now + s.part.tower.moveTimeout) with
          state := .homing, halt := none, liveFrom := s.part.arm.opCount } }))) ∧
    (s.part.arm.halt ≠ some .door →
      exec .doorClosed s = .next (s.became (settle { s.part.fresh with doorOpen := false })))

/-! ## The handler unit's reports -/

/-- GRIPPED of a PICK takes a blank from its spindle and nothing else; GRIPPED of a TRANSFER carries the
occupant, the record's place and the printing turn from the source to ARM, removes the eligible order, and
leaves an emptied bay or station behind (R43, R49, R75, R153, R156). The same at a GRIPPED that arrives
after the door's opening for the operation it cut short (R58). -/
def Obligations.GrippedTakesTheDisc : Prop :=
  ∀ (s : State) (o : ArmOp) (m : Move), s.flying o ∨ s.cutShort o → s.part.arm.move = some m → m.gripped = false →
    (∀ sp d, o.order = .pick sp d → m.source = .spindle sp →
      let x := s.part.spindle sp
      ∃ q, exec (.gripped o.id) s = .next (s.became (settle q)) ∧
        s.part.fresh.Changes [.arm, .attn, .spindleA, .spindleB] q ∧
        q.arm = { s.part.arm with move := some { m with gripped := true } } ∧
        q.spindle sp = { x with count := x.count - 1, empty := x.empty || decide (x.count ≤ 1) } ∧
        OthersKept s.part.spindle q.spindle sp ∧
        q.attn = (if x.empty = false ∧ x.count ≤ 1 then s.part.attn.raise .spindleEmpty s.part.now
          else s.part.attn)) ∧
    (∀ b d, o.order = .transfer (.bay b) d → m.source = .place (.bay b) →
      (s.part.bay b).state = .presenting →
      ∃ q, exec (.gripped o.id) s = .next (s.became (settle q)) ∧
        s.part.fresh.Changes [.arm, .attn, .discs, .places, .bays, .printQueue] q ∧
        q.printQueue = s.part.printQueue.filter (· != m.record) ∧
        q.arm = { s.part.arm with move := some { m with gripped := true } } ∧
        q.disc m.record =
          (s.part.disc m.record).map (fun d => { d with place := some .arm, eligible := none }) ∧
        OthersKept s.part.disc q.disc m.record ∧
        q.occupant (.bay b) = none ∧ q.occupant .arm = some m.record ∧
        (∀ pl, pl ≠ .bay b → pl ≠ .arm → q.occupant pl = s.part.occupant pl) ∧
        q.bay b = (s.part.bay b).emptied ∧ OthersKept s.part.bay q.bay b ∧
        q.attn = (if (s.part.bay b).consecutiveFailures = 3 then s.part.attn.raise .bayFault s.part.now
          else s.part.attn)) ∧
    (∀ d, o.order = .transfer .printer d → m.source = .place .printer →
      ∃ q, exec (.gripped o.id) s = .next (s.became (settle q)) ∧
        s.part.fresh.Changes [.arm, .discs, .places, .station, .printQueue] q ∧
        q.printQueue = s.part.printQueue.filter (· != m.record) ∧
        q.arm = { s.part.arm with move := some { m with gripped := true } } ∧
        q.disc m.record =
          (s.part.disc m.record).map (fun d => { d with place := some .arm, eligible := none }) ∧
        OthersKept s.part.disc q.disc m.record ∧
        q.occupant .printer = none ∧ q.occupant .arm = some m.record ∧
        (∀ b, q.occupant (.bay b) = s.part.occupant (.bay b)) ∧
        q.station = (if s.part.station.state = .finished then
          { s.part.station with state := .empty, faultCause := none } else s.part.station))

/-- DONE at a bay or on the printer's tray: the record stands at the destination, ARM is empty, the move
has ended, and the owner of the place acts by the disc's verdict; a stage is written where the record's
stage accepts it (R3, R4, R49, R68, R74, R154, R167). A bay that is no longer EXPECTING takes the disc as
an EXPECTING one does when it is OPEN, and else keeps its state with the disc in it, such as an OFFLINE one
taken out of the installed set while the disc was on its way (R64, R165; log 35, DEDUCED). The completion
of an abort is tested (R170; log 42). The same at a DONE that arrives after the door's opening for the
operation it cut short, whose arm stays HALTED (R58). A rejected disc on the tray of a FAULT station is
given no order yet (log 21, DEDUCED). A destination with an occupant, found there while the move was on its
way, takes the disc over that occupant, whose record is left as it is (log 48, DESIGN CHOICE). That an
abort's completion is tested at such a DONE too is log 42's reading (DEDUCED). -/
def Obligations.DonePlacesTheDisc : Prop :=
  ∀ (s : State) (o : ArmOp) (m : Move) (d : Disc), s.flying o ∨ s.cutShort o → s.part.arm.move = some m →
    o.order.endsDone m = true → s.part.disc m.record = some d →
    let order := match d.eligible with | some k => k | none => nextRank s.part.eligibleRanks
    let tower := { s.part.tower with
      sweep := s.part.tower.sweep.map fun w => { w with armMark := false } }
    (∀ b, m.dest = .bay b → (s.part.bay b).state = .expecting ∨ (s.part.bay b).state = .open_ →
      ∃ q, exec (.done o.id) s = .next (s.became (settle (testAbort q))) ∧
        s.part.fresh.Changes [.arm, .discs, .places, .bays, .tower, .sent] q ∧
        q.arm = s.part.arm.ended ∧
        q.tower = tower ∧
        OthersKept s.part.disc q.disc m.record ∧ OthersKept s.part.bay q.bay b ∧
        q.occupant (.bay b) = some m.record ∧ q.occupant .arm = none ∧
        (∀ pl, pl ≠ .bay b → pl ≠ .arm → q.occupant pl = s.part.occupant pl) ∧
        (d.verdict ≠ .reject →
          q.disc m.record = some ({ d with place := some (.bay b), bay := some b }.atStage .loading) ∧
          q.bay b = { ((s.part.bay b).enter .closingTray).driven .load (s.part.now + 20000) with
            loads := min 65535 ((s.part.bay b).loads + 1) } ∧
          q.sent = [.drive b .load]) ∧
        (d.verdict = .reject → d.stage = .rejectBound →
          q.disc m.record = some { d with
            place := some (.bay b), bay := some b, eligible := some order } ∧
          q.bay b = (s.part.bay b).enter .presenting ∧ q.sent = [])) ∧
    (∀ b, m.dest = .bay b → (s.part.bay b).state ≠ .expecting → (s.part.bay b).state ≠ .open_ →
      ∃ q, exec (.done o.id) s = .next (s.became (settle (testAbort q))) ∧
        s.part.fresh.Changes [.arm, .discs, .places, .tower] q ∧
        q.arm = s.part.arm.ended ∧
        q.tower = tower ∧
        q.disc m.record = some { d with place := some (.bay b), bay := some b } ∧
        OthersKept s.part.disc q.disc m.record ∧
        q.occupant (.bay b) = some m.record ∧ q.occupant .arm = none ∧
        (∀ pl, pl ≠ .bay b → pl ≠ .arm → q.occupant pl = s.part.occupant pl)) ∧
    (m.dest = .printer →
      ∃ q, exec (.done o.id) s = .next (s.became (settle (testAbort q))) ∧
        s.part.fresh.Changes [.arm, .discs, .places, .station, .tower] q ∧
        q.arm = s.part.arm.ended ∧
        q.tower = tower ∧
        OthersKept s.part.disc q.disc m.record ∧
        q.occupant .printer = some m.record ∧ q.occupant .arm = none ∧
        (∀ b, q.occupant (.bay b) = s.part.occupant (.bay b)) ∧
        (d.verdict ≠ .reject →
          q.disc m.record = some ({ d with place := some .printer }.atStage .printing) ∧
          q.station = (if s.part.station.state = .fault then s.part.station
            else { s.part.station with state := .loaded, faultCause := none })) ∧
        (d.verdict = .reject → d.stage.active = true → s.part.station.state ≠ .fault →
          q.disc m.record = some { d with
            place := some .printer, stage := .rejectBound, eligible := some order } ∧
          q.station = { s.part.station with state := .finished, faultCause := none }) ∧
        (d.verdict = .reject → d.stage.active = true → s.part.station.state = .fault →
          q.disc m.record = some { d with place := some .printer, stage := .rejectBound } ∧
          q.station = s.part.station))

/-- DONE at a sink counts its discs there, raising the sink's flag when it becomes full, ends the move, and
finalises the record: a disc not rejected that is dropped onto OUTPUT is DELIVERED, every other one
REJECTED, its reason kept and nothing of the label unit's held any more, and the job it has, if any, counts
it; an unseparated double feed counts two and leaves an EXTRA record while one is free. With auto-retire on
the records are freed at once (R9, R12, R14, R15, R32 to R34, R45, R49, R152). The completion of an abort
is tested (R170; log 42). The same at a DONE that arrives after the door's opening for the operation it cut
short, whose arm stays HALTED (R58). That an abort's completion is tested at such a DONE too is log 42's
reading (DEDUCED). -/
def Obligations.DoneDropsTheDisc : Prop :=
  ∀ (s : State) (o : ArmOp) (m : Move) (d : Disc), s.flying o ∨ s.cutShort o → s.part.arm.move = some m →
    o.order.endsDone m = true → s.part.disc m.record = some d →
    let retire := s.part.tower.autoRetire
    let sink := fun (k : Sink) (n : Nat) (f : Flag) =>
      if k.count < k.capacity ∧ k.capacity ≤ k.count + n then s.part.attn.raise f s.part.now else s.part.attn
    let tower := { s.part.tower with
      sweep := s.part.tower.sweep.map fun w => { w with armMark := false } }
    let landed := fun (q : Part) (st : Stage) =>
      q.disc m.record = (if retire then none else
          some { d with
            stage := st, place := none, eligible := none
            reservation := if st = .rejected then none else d.reservation }) ∧
        q.heldSpell = (if retire = true ∧ 2 ≤ q.freeCount then false else s.part.heldSpell) ∧
        q.occupant .arm = none ∧ (∀ pl, pl ≠ .arm → q.occupant pl = s.part.occupant pl) ∧
        q.arm = s.part.arm.ended ∧ q.tower = tower
    let counts := match d.reason with | some w => w.counts | none => false
    let told := fun p : Part => match d.job with | some x => jobRejected x counts p | none => p
    let u := leaveLabelUnit m.record s.part
    let rejected := fun q : Part => landed q .rejected ∧ q.ink = u.ink ∧ q.inkWait = u.inkWait ∧
      q.printQueue = u.printQueue ∧ q.jobs = (told u).jobs
    (m.dest = .output → d.verdict ≠ .reject →
      let given := fun p : Part => match d.job with | some x => jobDelivered x d.unlabelled p | none => p
      ∃ q, exec (.done o.id) s = .next (s.became (settle (testAbort q))) ∧
        s.part.fresh.Changes [.arm, .discs, .places, .output, .attn, .jobs, .tower, .heldSpell] q ∧
        q.jobs = (given s.part).jobs ∧
        q.output = { s.part.output with count := s.part.output.count + 1 } ∧
        q.attn = (given { s.part with attn := sink s.part.output 1 .outputFull }).attn ∧
        landed q .delivered ∧ OthersKept s.part.disc q.disc m.record) ∧
    (m.dest = .output → d.verdict = .reject →
      ∃ q, exec (.done o.id) s = .next (s.became (settle (testAbort q))) ∧
        s.part.fresh.Changes [.arm, .discs, .places, .output, .attn, .jobs, .tower, .heldSpell, .ink,
          .inkWait, .printQueue] q ∧
        q.output = { s.part.output with count := s.part.output.count + 1 } ∧
        q.attn = (told { u with attn := sink s.part.output 1 .outputFull }).attn ∧
        rejected q ∧ OthersKept u.disc q.disc m.record) ∧
    (m.dest = .bin → m.feed.isPair = false →
      ∃ q, exec (.done o.id) s = .next (s.became (settle (testAbort q))) ∧
        s.part.fresh.Changes [.arm, .discs, .places, .bin, .attn, .jobs, .tower, .heldSpell, .ink,
          .inkWait, .printQueue] q ∧
        q.bin = { s.part.bin with count := s.part.bin.count + 1 } ∧
        q.attn = (told { u with attn := sink s.part.bin 1 .rejectFull }).attn ∧
        rejected q ∧ OthersKept u.disc q.disc m.record) ∧
    (m.dest = .bin → m.feed.isPair = true →
      ∃ q, exec (.done o.id) s = .next (s.became (settle (testAbort q))) ∧
        s.part.fresh.Changes [.arm, .discs, .places, .bin, .attn, .jobs, .tower, .heldSpell, .ink,
          .inkWait, .printQueue] q ∧
        q.bin = { s.part.bin with count := s.part.bin.count + 2 } ∧
        q.attn = (told { u with attn := sink s.part.bin 2 .rejectFull }).attn.raise .discRejected s.part.now ∧
        rejected q ∧
        (retire = true ∨ s.part.lowestFree = none → OthersKept u.disc q.disc m.record) ∧
        (∀ e, retire = false → s.part.lowestFree = some e →
          q.disc e = some { Disc.fresh .rejected .reject with reason := some .extraDisc } ∧
          ∀ r, r ≠ m.record → r ≠ e → q.disc r = u.disc r))

/-- MISSED before GRIPPED: a PICK is sent once more; the second MISSED empties the spindle, raising
SPINDLE_EMPTY where it was not empty, and withdraws the pick, whose record is freed, whose counts are
reversed and whose destination, bay or reservation, is released; a TRANSFER's disc is LOST, and its place
is empty (R10, R14, R15, R43, R51, R55, R75, R152, R156). The model's choices: a FINISHED station whose
disc a MISSED finds gone becomes EMPTY, as after GRIPPED (log 20, DEDUCED); a LOST disc leaves the label
unit's lists and its reservation is released (log 28, DEDUCED); a TRANSFER whose disc was found LOST
meanwhile ends (log 37, DESIGN CHOICE); an abort's completion is tested at each of these ends (log 42,
DEDUCED). DROPPED before GRIPPED is MISSED; after it, or on DELIVER, the disc is LOST: it is rejected and
finalised, its reservation is released, ARM is empty, the move has ended, and a pick's bay leaves
EXPECTING. INTERRUPTED with the door closed is held, its operation in flight (R5, R14, R15, R51, R58,
R152). -/
def Obligations.MissedAndDropped : Prop :=
  (∀ (s : State) (o : ArmOp), s.flying o →
    let retire := s.part.tower.autoRetire
    (∀ m sp d, s.part.arm.move = some m → m.gripped = false → o.order = .pick sp d → m.missCount = 0 →
      exec (.missed o.id) s = .next (s.became (settle { s.part with
        sent := [.arm (.pick sp d)]
        arm := { s.part.arm.sending (.pick sp d) (s.part.now + s.part.tower.moveTimeout) with
          move := some { m with missCount := 1 } } }))) ∧
    (∀ m sp dest d, s.part.arm.move = some m → m.gripped = false → o.order = .pick sp dest → m.kind = .pick →
      m.missCount ≠ 0 → s.part.disc m.record = some d → m.record ∉ s.part.inkWait →
      m.record ∉ s.part.printQueue →
      let u := release m.record s.part
      let told := fun p : Part => match d.job with | some x => jobWithdrawn x p | none => p
      ∃ q, exec (.missed o.id) s = .next (s.became (settle (testAbort q))) ∧
        s.part.fresh.Changes [.arm, .attn, .spindleA, .spindleB, .discs, .places, .bays, .heldSpell, .jobs,
          .ink, .inkWait, .printQueue] q ∧
        q.arm = s.part.arm.idled ∧
        q.jobs = (told u).jobs ∧ q.ink = u.ink ∧ q.inkWait = u.inkWait ∧ q.printQueue = u.printQueue ∧
        q.attn = (told { u with
          attn := if (s.part.spindle sp).empty then s.part.attn
            else s.part.attn.raise .spindleEmpty s.part.now }).attn ∧
        q.spindle sp = { s.part.spindle sp with count := 0, empty := true } ∧
        OthersKept s.part.spindle q.spindle sp ∧
        q.disc m.record = none ∧ OthersKept u.disc q.disc m.record ∧
        q.heldSpell = (if 2 ≤ q.freeCount then false else s.part.heldSpell) ∧
        q.occupant .arm = none ∧ (∀ pl, pl ≠ .arm → q.occupant pl = s.part.occupant pl) ∧
        (∀ b, q.bay b = if m.dest = .bay b ∧ (s.part.bay b).state = .expecting then
            (if (s.part.bay b).disablePending then (s.part.bay b).enter .offline
              else (s.part.bay b).enter .open_)
          else s.part.bay b)) ∧
    (∀ m pl d' d, s.part.arm.move = some m → m.gripped = false → o.order = .transfer pl d' →
      m.source = .place pl → pl ≠ .arm → s.part.disc m.record = some d →
      let u := leaveLabelUnit m.record s.part
      let told := fun p : Part => match d.job with | some x => jobRejected x false p | none => p
      let rejects := if d.verdict = .reject then s.part.attn else s.part.attn.raise .discRejected s.part.now
      let attn := (told { u with attn := rejects }).attn
      ∃ q, exec (.missed o.id) s = .next (s.became (settle (testAbort q))) ∧
        s.part.fresh.Changes [.arm, .attn, .discs, .places, .bays, .jobs, .ink, .inkWait, .printQueue, .station,
          .sent, .heldSpell] q ∧
        q.arm = s.part.arm.idled ∧
        q.jobs = (told u).jobs ∧ q.ink = u.ink ∧ q.inkWait = u.inkWait ∧ q.printQueue = u.printQueue ∧
        q.occupant pl = none ∧ (∀ ql, ql ≠ pl → q.occupant ql = s.part.occupant ql) ∧
        q.disc m.record = (if retire then none else some { d with
          stage := .rejected, verdict := .reject, reason := some .lost, place := none, eligible := none
          reservation := none }) ∧
        OthersKept u.disc q.disc m.record ∧
        q.heldSpell = (if retire = true ∧ 2 ≤ q.freeCount then false else s.part.heldSpell) ∧
        (d.verdict ≠ .reject → q.attn.isSet .discRejected = true) ∧
        (∀ b, pl = .bay b → (s.part.bay b).state = .presenting →
          q.bay b = (s.part.bay b).emptied ∧ OthersKept s.part.bay q.bay b ∧ q.station = s.part.station ∧
            q.sent = [] ∧ q.attn = (if (s.part.bay b).consecutiveFailures = 3 then
              attn.raise .bayFault s.part.now else attn)) ∧
        (pl = .printer → q.attn = attn ∧ q.bays = s.part.bays ∧ q.sent = [] ∧ q.station = (if s.part.station.state = .finished
          then { s.part.station with state := .empty, faultCause := none } else s.part.station))) ∧
    (∀ pl d, s.part.arm.move = none → o.order = .transfer pl d →
      exec (.missed o.id) s = .next (s.became (settle (testAbort
        { s.part.fresh with arm := s.part.arm.idled }))) ∧
      exec (.dropped o.id) s = exec (.missed o.id) s)) ∧
  (∀ (s : State) (o : ArmOp) (m : Move), s.flying o → s.part.arm.move = some m →
    let retire := s.part.tower.autoRetire
    (m.gripped = false → ((∃ sp d, o.order = .pick sp d) ∨ ∃ pl d, o.order = .transfer pl d) →
      exec (.dropped o.id) s = exec (.missed o.id) s) ∧
    (∀ d, s.part.disc m.record = some d → m.record ∉ s.part.inkWait → m.record ∉ s.part.printQueue →
      ((m.gripped = true ∧ ((∃ sp d, o.order = .pick sp d) ∨ ∃ pl d, o.order = .transfer pl d)) ∨
        ∃ d, o.order = .deliver d) →
      let u := release m.record s.part
      let told := fun p : Part => match d.job with | some x => jobRejected x false p | none => p
      ∃ q, exec (.dropped o.id) s = .next (s.became (settle (testAbort q))) ∧
        s.part.fresh.Changes [.arm, .discs, .places, .bays, .tower, .jobs, .attn, .ink, .inkWait, .printQueue,
          .heldSpell] q ∧
        q.arm = s.part.arm.idled ∧
        q.jobs = (told u).jobs ∧ q.ink = u.ink ∧ q.inkWait = u.inkWait ∧ q.printQueue = u.printQueue ∧
        q.attn = (told { u with attn := if d.verdict = .reject then s.part.attn
          else s.part.attn.raise .discRejected s.part.now }).attn ∧
        q.disc m.record = (if retire then none else some { d with
          stage := .rejected, verdict := .reject, reason := some .lost, place := none, eligible := none
          reservation := none }) ∧
        OthersKept u.disc q.disc m.record ∧
        q.heldSpell = (if retire = true ∧ 2 ≤ q.freeCount then false else s.part.heldSpell) ∧
        q.occupant .arm = none ∧ (∀ pl, pl ≠ .arm → q.occupant pl = s.part.occupant pl) ∧
        (∀ b, q.bay b = if m.kind = .pick ∧ m.dest = .bay b ∧ (s.part.bay b).state = .expecting then
            (if (s.part.bay b).disablePending then (s.part.bay b).enter .offline
              else (s.part.bay b).enter .open_)
          else s.part.bay b) ∧
        ((∀ d, o.order ≠ .deliver d) → q.tower = s.part.tower) ∧
        (∀ d, o.order = .deliver d → q.tower = { s.part.tower with
          sweep := s.part.tower.sweep.map fun w => { w with armMark := false } })) ∧
    exec (.interrupted o.id) s = .next (s.became (settle
      { s.part.fresh with arm := { s.part.arm with heldInterrupted := true } })))

/-- A double feed (R43, R56, R57): DOUBLE of a gripped PICK sends SEPARATE; SINGLE sends DELIVER; STILL_DOUBLE
takes one blank more, counts it wasted, rejects the disc DOUBLE_FEED, releases the destination, bay or
reservation, and delivers the pair to the REJECT BIN, or waits at ARM while that is full. That an abort's
completion is tested at STILL_DOUBLE is log 42's reading (DEDUCED). -/
def Obligations.DoubleFeeds : Prop :=
  ∀ (s : State) (o : ArmOp) (m : Move), s.flying o → s.part.arm.move = some m →
    let deadline := s.part.now + s.part.tower.moveTimeout
    let tower := { s.part.tower with
      sweep := s.part.tower.sweep.map fun w => { w with armMark := false } }
    (∀ sp d, o.order = .pick sp d → m.gripped = true →
      exec (.double o.id) s = .next (s.became (settle { s.part with
        sent := [.arm .separate]
        arm := { s.part.arm.sending .separate deadline with
          state := .separating, halt := none, move := some { m with feed := .separating } } }))) ∧
    (o.order = .separate →
      exec (.single o.id) s = .next (s.became (settle { s.part with
        sent := [.arm (.deliver m.dest)], tower := tower
        arm := { s.part.arm.sending (.deliver m.dest) deadline with
          state := .moving, halt := none, move := some { m with feed := .single } } }))) ∧
    (∀ sp d, o.order = .separate → m.source = .spindle sp → m.kind = .pick →
      s.part.disc m.record = some d → d.stage.active = true →
      let x := s.part.spindle sp
      let u := release m.record s.part
      ∃ q, exec (.stillDouble o.id) s = .next (s.became (settle (testAbort q))) ∧
        s.part.fresh.Changes [.arm, .attn, .spindleA, .spindleB, .discs, .bays, .tower, .sent, .jobs, .ink,
          .inkWait, .printQueue] q ∧
        q.jobs = u.jobs ∧ q.ink = u.ink ∧ q.inkWait = u.inkWait ∧ q.printQueue = u.printQueue ∧
        q.tower = tower ∧
        q.spindle sp = { x with
          count := x.count - 1, empty := x.empty || decide (x.count ≤ 1)
          wasted := min 65535 (x.wasted + 1) } ∧
        OthersKept s.part.spindle q.spindle sp ∧
        (m.record ∉ s.part.inkWait → q.disc m.record = some { d with
          verdict := .reject, reason := if d.verdict = .reject then d.reason else some .doubleFeed
          stage := .rejectBound, reservation := none }) ∧
        OthersKept u.disc q.disc m.record ∧
        (d.verdict ≠ .reject → q.attn.isSet .discRejected = true) ∧
        (∀ b, q.bay b = if m.dest = .bay b ∧ (s.part.bay b).state = .expecting then
            (if (s.part.bay b).disablePending then (s.part.bay b).enter .offline
              else (s.part.bay b).enter .open_)
          else s.part.bay b) ∧
        (s.part.bin.capacity ≤ s.part.bin.count →
          q.sent = [] ∧ q.arm = { s.part.arm with
            op := none, heldInterrupted := false, state := .moving, halt := none
            move := some { m with feed := .pairWaiting, dest := .bin } }) ∧
        (s.part.bin.count < s.part.bin.capacity →
          q.sent = [.arm (.deliver .bin)] ∧ q.arm = { s.part.arm.sending (.deliver .bin) deadline with
            state := .moving, halt := none, move := some { m with feed := .pair, dest := .bin } }))

/-- A jam (R47, R48, R50, R61, R172): JAMMED of the operation in flight, the expiry of its move timeout, a
report with no operation in flight, and a report that does not fit the one in flight, such as DOUBLE of a
TRANSFER, DONE of an ungripped PICK or another operation's number, all HALT the arm with cause JAM,
interrupt the current move, raise ARM_HALT, and HALT a tower in STARTING, RUNNING, STOPPING or PAUSED. The
model's choices: an expiry before its time moves the time up to it (log 2, DESIGN CHOICE); which report
answers which operation is told by the operations' numbers (log 10, DESIGN CHOICE); which outcome fits
which stage of an operation (log 11, DEDUCED), a MISSED or DROPPED of a TRANSFER whose move was discarded
among them (log 37, DESIGN CHOICE); the jam ends the operation, so an abort's completion is tested (log 42,
DEDUCED). -/
def Obligations.JamsHaltTheArm : Prop :=
  ∀ s : State, s.link.resetLow = false →
    let jammed := fun (now : Nat) (stale : List Nat) (t : Host.Outcome State Fault Refusal) =>
      ∃ q, t = .next (s.became (settle (testAbort q))) ∧
        s.part.fresh.Changes [.now, .arm, .attn, .tower] q ∧
        q.now = now ∧
        q.arm = { s.part.arm with
          state := .halted, halt := some .jam, op := none, heldInterrupted := false, stale := stale
          move := s.part.arm.move.map fun m => { m with interrupted := true } } ∧
        q.attn.isSet .armHalt = true ∧
        (∀ f, f ≠ .armHalt → f ≠ .towerState → q.attn.isSet f = s.part.attn.isSet f) ∧
        (∀ x, s.part.tower.state.asResume = some x →
          q.tower = { s.part.tower with state := .halted, resume := some x } ∧
            q.attn.isSet .towerState = true) ∧
        (s.part.tower.state = .paused →
          q.tower = { s.part.tower with state := .halted } ∧ q.attn.isSet .towerState = true) ∧
        (s.part.tower.state.asResume = none → s.part.tower.state ≠ .paused → q.tower = s.part.tower)
    (∀ o, s.flying o → jammed s.part.now s.part.arm.stale (exec (.jammed o.id) s)) ∧
    (∀ o, s.part.arm.op = some o →
      jammed (max s.part.now o.deadline) (o.id :: s.part.arm.stale) (exec .moveTimeout s)) ∧
    (∀ op held, s.part.arm.op = none → (∀ x, s.part.arm.cut = some x → x.id ≠ op) → s.part.doorOpen = false →
      s.part.arm.liveFrom ≤ op → s.part.arm.stale.contains op = false →
      ∀ i ∈ [Instr.gripped op, .done op, .missed op, .double op, .single op, .stillDouble op, .dropped op,
        .interrupted op, .jammed op, .homed op held],
      jammed s.part.now s.part.arm.stale (exec i s)) ∧
    (∀ o op held, s.flying o → op ≠ o.id → s.part.arm.liveFrom ≤ op → s.part.arm.stale.contains op = false →
      ∀ i ∈ [Instr.gripped op, .done op, .missed op, .double op, .single op, .stillDouble op, .dropped op,
        .interrupted op, .jammed op, .homed op held],
      jammed s.part.now s.part.arm.stale (exec i s)) ∧
    (∀ o held i, s.flying o →
      let pick := ∃ sp d, o.order = .pick sp d
      let transfer := ∃ pl d, o.order = .transfer pl d
      let deliver := ∃ d, o.order = .deliver d
      let moving := s.part.arm.move.isSome = true
      let gripped := ∃ m, s.part.arm.move = some m ∧ m.gripped = true
      let empty := ∃ m, s.part.arm.move = some m ∧ m.gripped = false
      let lost := transfer ∧ s.part.arm.move = none
      (i = .gripped o.id ∧ ¬ ((pick ∨ transfer) ∧ moving) ∨
        i = .done o.id ∧ ¬ ((pick ∨ transfer) ∧ gripped ∨ deliver ∧ moving) ∨
        i = .missed o.id ∧ ¬ ((pick ∨ transfer) ∧ empty ∨ lost) ∨
        i = .double o.id ∧ ¬ (pick ∧ gripped) ∨
        (i = .single o.id ∨ i = .stillDouble o.id) ∧ ¬ (o.order = .separate ∧ moving) ∨
        i = .dropped o.id ∧ ¬ ((pick ∨ transfer ∨ deliver) ∧ moving ∨ lost) ∨
        i = .homed o.id held ∧ ∀ why, o.order ≠ .home why) →
      jammed s.part.now s.part.arm.stale (exec i s))

/-- HOMED resolves the grip by the current move (R11, R43, R47, R49, R51, R57, R59, R60, R75, R156, R167,
R171, R172). With no move: an empty grip with ARM empty, and a disc held with ARM occupied, confirm the
records; an occupant with no disc is LOST; a disc with no occupant becomes a FOUND record, or with no
record free jams the arm. With a move and the disc held: DELIVER to the destination, a disc not yet gripped
taken from its spindle or place first; a SEPARATE is sent again; a double-feed pair that was waiting for
the REJECT BIN is delivered, or waits again while the bin is full; one whose DELIVER had been sent is
delivered however full the bin is. With a move and no disc: a pick not gripped is withdrawn, a transfer not
gripped ends with its record as it was, a gripped disc is LOST. The sweep's arm mark clears with no
operation in flight, and a PAUSED or HALTED tower resumes, unless the resolution jams. The move's
*interrupted* flag is clear afterwards (DESIGN CHOICE, log 36). The model's choices too: a disc LOST leaves
the label unit's lists and its reservation is released (log 28, DEDUCED); with no move, an occupant and a
disc held, or a disc alone, are settled as if no move had been (log 37, DESIGN CHOICE); an abort's
completion is tested at HOMED (log 42, DEDUCED). -/
def Obligations.HomingResolves : Prop :=
  ∀ (s : State) (o : ArmOp) (why : HomeFor), s.flying o → o.order = .home why →
    let idle := { s.part.arm with op := none, heldInterrupted := false, state := .idle, halt := none }
    let deadline := s.part.now + s.part.tower.moveTimeout
    let marked := { s.part.tower with
      sweep := s.part.tower.sweep.map fun w => { w with armMark := false } }
    let resumed := fun (t : Tower) (a : Attention) (q : Part) =>
      (∀ x, (s.part.tower.state = .paused ∨ s.part.tower.state = .halted) →
        s.part.tower.resume = some x →
        q.tower = { t with state := x.state, resume := none } ∧ q.attn = a.raise .towerState s.part.now) ∧
      ((s.part.tower.state ≠ .paused ∧ s.part.tower.state ≠ .halted) ∨ s.part.tower.resume = none →
        q.tower = t ∧ q.attn = a)
    let homes := fun (held : Bool) (fs : List Field) (holds : Part → Prop) =>
      ∃ q, exec (.homed o.id held) s = .next (s.became (settle (testAbort q))) ∧
        s.part.fresh.Changes fs q ∧ holds q
    let retire := s.part.tower.autoRetire
    let lost := fun (u : Part) (r : Fin 24) (d : Disc) (q : Part) =>
      let told := fun p : Part => match d.job with | some x => jobRejected x false p | none => p
      q.jobs = (told u).jobs ∧ q.ink = u.ink ∧ q.inkWait = u.inkWait ∧ q.printQueue = u.printQueue ∧
      q.disc r = (if retire then none else some { d with
        stage := .rejected, verdict := .reject, reason := some .lost, place := none, eligible := none
        reservation := none }) ∧
      OthersKept u.disc q.disc r ∧
      q.heldSpell = (if retire = true ∧ 2 ≤ q.freeCount then false else s.part.heldSpell) ∧
      q.occupant .arm = none ∧ (∀ pl, pl ≠ .arm → q.occupant pl = s.part.occupant pl) ∧
      let flags := if d.verdict = .reject then s.part.attn
        else s.part.attn.raise .discRejected s.part.now
      resumed marked (told { u with attn := flags }).attn q
    let freed := fun (m : Move) (q : Part) => ∀ b, q.bay b =
      if m.kind = .pick ∧ m.dest = .bay b ∧ (s.part.bay b).state = .expecting then
        (if (s.part.bay b).disablePending then (s.part.bay b).enter .offline else (s.part.bay b).enter .open_)
      else s.part.bay b
    let delivers := fun (m : Move) (q : Part) =>
      q.sent = [.arm (.deliver m.dest)] ∧
      q.arm = { s.part.arm.sending (.deliver m.dest) deadline with
        state := .moving, halt := none, move := some { m with gripped := true, interrupted := false } }
    (s.part.arm.move = none →
      (∀ held, held = (s.part.occupant .arm).isSome →
        homes held [.arm, .tower, .attn] fun q => q.arm = idle ∧ resumed marked s.part.attn q) ∧
      (∀ r d, s.part.occupant .arm = some r → s.part.disc r = some d →
        homes false [.arm, .tower, .attn, .discs, .places, .jobs, .ink, .inkWait, .printQueue, .heldSpell]
          fun q => q.arm = idle ∧ lost (leaveLabelUnit r s.part) r d q) ∧
      (s.part.occupant .arm = none → ∀ r, s.part.lowestFree = some r →
        homes true [.arm, .tower, .attn, .discs, .places] fun q =>
          q.arm = idle ∧
          q.disc r = some { Disc.fresh .hostHold .pending with place := some .arm } ∧
          OthersKept s.part.disc q.disc r ∧ q.occupant .arm = some r ∧
          (∀ pl, pl ≠ .arm → q.occupant pl = s.part.occupant pl) ∧
          resumed marked (s.part.attn.raise .foundDisc s.part.now) q) ∧
      (s.part.occupant .arm = none → s.part.lowestFree = none →
        homes true [.arm, .tower, .attn] fun q =>
          q.arm = { idle with state := .halted, halt := some .jam } ∧
          q.attn.isSet .foundDisc = true ∧ q.attn.isSet .armHalt = true ∧
          (∀ x, s.part.tower.state.asResume = some x →
            q.tower = { s.part.tower with state := .halted, resume := some x }) ∧
          (s.part.tower.state = .paused → q.tower = { s.part.tower with state := .halted }) ∧
          (s.part.tower.state.asResume = none → s.part.tower.state ≠ .paused → q.tower = s.part.tower))) ∧
    (∀ m, s.part.arm.move = some m → m.feed = .single ∨ m.feed = .pair →
      (m.gripped = true → homes true [.sent, .tower, .attn, .arm] fun q =>
        delivers m q ∧ resumed s.part.tower s.part.attn q) ∧
      (∀ sp, m.gripped = false → m.source = .spindle sp →
        let x := s.part.spindle sp
        homes true [.sent, .tower, .attn, .arm, .spindleA, .spindleB] fun q =>
          delivers m q ∧
          q.spindle sp = { x with count := x.count - 1, empty := x.empty || decide (x.count ≤ 1) } ∧
          OthersKept s.part.spindle q.spindle sp ∧
          resumed s.part.tower (if x.empty = false ∧ x.count ≤ 1 then
            s.part.attn.raise .spindleEmpty s.part.now else s.part.attn) q) ∧
      (∀ pl, m.gripped = false → m.source = .place pl → pl ≠ .arm →
        (∀ b, pl = .bay b → (s.part.bay b).state = .presenting) →
        homes true [.sent, .tower, .attn, .arm, .discs, .places, .printQueue, .bays, .station] fun q =>
          delivers m q ∧ q.printQueue = s.part.printQueue.filter (· != m.record) ∧
          q.disc m.record =
            (s.part.disc m.record).map (fun d => { d with place := some .arm, eligible := none }) ∧
          OthersKept s.part.disc q.disc m.record ∧
          q.occupant pl = none ∧ q.occupant .arm = some m.record ∧
          (∀ ql, ql ≠ pl → ql ≠ .arm → q.occupant ql = s.part.occupant ql) ∧
          (∀ b, q.bay b = if pl = .bay b then (s.part.bay b).emptied else s.part.bay b) ∧
          q.station = (if pl = .printer ∧ s.part.station.state = .finished then
            { s.part.station with state := .empty, faultCause := none } else s.part.station) ∧
          resumed s.part.tower (if ∃ b, pl = .bay b ∧ (s.part.bay b).consecutiveFailures = 3 then
            s.part.attn.raise .bayFault s.part.now else s.part.attn) q)) ∧
    (∀ m, s.part.arm.move = some m → m.feed = .separating →
      homes true [.sent, .tower, .attn, .arm] fun q =>
        q.sent = [.arm .separate] ∧
        q.arm = { s.part.arm.sending .separate deadline with
          state := .separating, halt := none, move := some { m with interrupted := false } } ∧
        resumed s.part.tower s.part.attn q) ∧
    (∀ m, s.part.arm.move = some m → m.feed = .pairWaiting →
      (s.part.bin.count < s.part.bin.capacity → homes true [.sent, .tower, .attn, .arm] fun q =>
        q.sent = [.arm (.deliver .bin)] ∧
        q.arm = { s.part.arm.sending (.deliver .bin) deadline with
          state := .moving, halt := none, move := some { m with interrupted := false, feed := .pair } } ∧
        resumed s.part.tower s.part.attn q) ∧
      (s.part.bin.capacity ≤ s.part.bin.count → homes true [.tower, .attn, .arm] fun q =>
        q.arm = { idle with state := .moving, move := some { m with interrupted := false } } ∧
        resumed marked s.part.attn q)) ∧
    (∀ m, s.part.arm.move = some m → m.gripped = false →
      (m.kind ≠ .pick → homes false [.arm, .tower, .attn] fun q =>
        q.arm = { idle with move := none } ∧ resumed marked s.part.attn q) ∧
      (∀ d, m.kind = .pick → s.part.disc m.record = some d → m.record ∉ s.part.inkWait →
        m.record ∉ s.part.printQueue →
        let u := release m.record s.part
        let told := fun p : Part => match d.job with | some x => jobWithdrawn x p | none => p
        homes false [.arm, .tower, .attn, .discs, .places, .bays, .heldSpell, .jobs, .ink, .inkWait,
            .printQueue] fun q =>
          q.arm = { idle with move := none } ∧
          q.jobs = (told u).jobs ∧ q.ink = u.ink ∧ q.inkWait = u.inkWait ∧ q.printQueue = u.printQueue ∧
          q.disc m.record = none ∧ OthersKept u.disc q.disc m.record ∧
          q.heldSpell = (if 2 ≤ q.freeCount then false else s.part.heldSpell) ∧
          q.occupant .arm = none ∧ (∀ pl, pl ≠ .arm → q.occupant pl = s.part.occupant pl) ∧ freed m q ∧
          resumed marked (told u).attn q)) ∧
    (∀ m d, s.part.arm.move = some m → m.gripped = true → s.part.disc m.record = some d →
      m.record ∉ s.part.inkWait → m.record ∉ s.part.printQueue →
      homes false [.arm, .tower, .attn, .discs, .places, .bays, .heldSpell, .jobs, .ink, .inkWait,
          .printQueue] fun q =>
        q.arm = { idle with move := none } ∧ freed m q ∧ lost (release m.record s.part) m.record d q)

/-! ## Tower control's and the handler unit's requests -/

/-- START TOWER, taken only in STOPPED, with the door closed and no arm operation in flight (R166, R168): the
tower is STARTING, HOME is sent, the QUERY too unless a LABEL or a QUERY is in flight, and the sweep's
marks are pending; a bay in service that is not FAULTED is marked and owes a RESET. After every event a bay
that owes the sweep a RESET is sent it once its operation has ended, its mark pending until that RESET
ends; one that is then FAULTED or out of service has its mark cleared instead; while its operation is in
flight nothing happens (R168; the model's reading, log 23, DEDUCED). -/
def Obligations.StartTower : Prop :=
  (∀ (s : State) (tag : Byte), s.takes →
      (s.part.tower.state = .stopped → s.part.doorOpen = false → s.part.arm.op = none →
        ∃ w : Sweep,
          w.armMark = true ∧ w.printerMark = true ∧ w.queryOwed = s.part.station.labelDeadline.isSome ∧
          (∀ b : Fin 12, w.bayMarks[b] = true ↔ b.val < s.part.tower.installed ∧
            (s.part.bay b).enabled = true ∧ (s.part.bay b).state ≠ .faulted) ∧
          (∀ b : Fin 12, w.resetOwed[b] = true ↔
            w.bayMarks[b] = true ∧ (s.part.bay b).operation ≠ some .reset) ∧
          let free := s.part.station.labelDeadline = none ∧ s.part.station.queryDeadline = none
          exec (.startTower tag) s = .next (s.replied 0x03 tag { status := .accepted, body := [] }
            (settle { s.part with
              sent := [.arm (.home .sweep)] ++ if free then [.query] else []
              attn := s.part.attn.raise .towerState s.part.now
              tower := { s.part.tower with state := .starting, sweep := some w }
              station := if free then
                  { s.part.station with queryDeadline := some (s.part.now + 5000) }
                else s.part.station
              arm := { s.part.arm.sending (.home .sweep) (s.part.now + s.part.tower.moveTimeout) with
                state := .homing, halt := none } }))) ∧
      (s.part.tower.state = .stopped → s.part.doorOpen = true ∨ s.part.arm.op.isSome = true →
        exec (.startTower tag) s = .next (s.replied 0x03 tag { status := .busy, body := [] } s.part.fresh)) ∧
      (s.part.tower.state ≠ .stopped →
        exec (.startTower tag) s =
          .next (s.replied 0x03 tag { status := .badState, body := [] } s.part.fresh))) ∧
  (∀ (p : Part) (b : Fin 12),
    (p.tower.sweep = none → sweepFollow b p = p) ∧
    (∀ w, p.tower.sweep = some w →
      (w.resetOwed[b] = false ∨ (p.bay b).operation.isSome = true → sweepFollow b p = p) ∧
      (w.resetOwed[b] = true → (p.bay b).operation = none →
        ((p.bay b).state = .faulted ∨ (p.bay b).enabled = false →
          sweepFollow b p = { p with tower := p.tower.unmarked b }) ∧
        ((p.bay b).state ≠ .faulted → (p.bay b).enabled = true →
          sweepFollow b p = { p.setBay b ((p.bay b).resetting p.now) with
            sent := p.sent ++ [.drive b .reset]
            tower := { p.tower with sweep := some { w with resetOwed := w.resetOwed.set b.val false } } }))))

/-- STOP TOWER (R169, R170): NORMAL sends RUNNING to STOPPING, and turns a resume state of RUNNING to STOPPING;
ABRUPT sends RUNNING, STOPPING, PAUSED and HALTED to ABORTING, discards the sweep, gives the abort order
and tests the abort's completion; elsewhere each is refused BAD_STATE. The abort order rejects ABORTED
every FEEDING record (outside the ink-wait list, where no run puts one) and, bay by bay, the occupant of a
bay with a drive at work on it, which acts as for any REJECT; a RESET this sends is marked. A bay at rest,
or with no occupant, is left alone. The model takes the FEEDING records first, in ascending order, and then
the bays in ascending order: R170 gives no order (the model's choice, log 30, DESIGN CHOICE). Tower control
after an event, once each bay in ascending order has been sent the RESET it owes the sweep (log 23; with
none owed nothing is sent): a start whose marks have all cleared becomes RUNNING, a stop with every active
record in HOST_HOLD and the arm without an operation STOPPED; in ABORTING nothing is tested here, and the
test of an abort finds it complete, and the tower STOPPED, when the RESETs sent under it have ended and the
arm has no operation in flight; each raises TOWER_STATE (R164, R166, R168 to R171). The model's choices:
when a RESET owed is sent (log 23, DEDUCED), and where the abort's test is made (log 42, DEDUCED). -/
def Obligations.StopTower : Prop :=
  ((∀ (s : State) (tag : Byte), s.takes →
    let bad := s.replied 0x04 tag { status := .badState, body := [] } s.part.fresh
    let t := s.part.tower.state
    (t = .running → exec (.stopTowerNormal tag) s =
      .next (s.replied 0x04 tag { status := .accepted, body := [] } (settle { s.part.fresh with
        attn := s.part.attn.raise .towerState s.part.now
        tower := { s.part.tower with state := .stopping } }))) ∧
    (t = .paused ∨ t = .halted → s.part.tower.resume = some .running → exec (.stopTowerNormal tag) s =
      .next (s.replied 0x04 tag { status := .ok, body := [] }
        { s.part.fresh with tower := { s.part.tower with resume := some .stopping } })) ∧
    (t ≠ .running → t ≠ .paused ∧ t ≠ .halted ∨ s.part.tower.resume ≠ some .running →
      exec (.stopTowerNormal tag) s = .next bad) ∧
    (t = .running ∨ t = .stopping ∨ t = .paused ∨ t = .halted → exec (.stopTowerAbrupt tag) s =
      .next (s.replied 0x04 tag { status := .accepted, body := [] } (settle (testAbort (abortOrder
        { s.part.fresh with
          attn := s.part.attn.raise .towerState s.part.now
          tower := { s.part.tower with state := .aborting, resume := none, sweep := none } }))))) ∧
    (t = .stopped ∨ t = .starting ∨ t = .aborting → exec (.stopTowerAbrupt tag) s = .next bad)) ∧
  (∀ (p : Part) (r : Fin 24) (d : Disc), p.disc r = some d → d.stage = .feeding → d.verdict ≠ .reject →
    r ∉ p.inkWait →
    ∃ e, (abortOrder p).disc r = some e ∧ e.verdict = .reject ∧ e.reason = some .aborted ∧
      e.stage = .rejectBound) ∧
  (∀ p : Part, (∀ r d, p.disc r = some d → d.stage ≠ .feeding) →
    (∀ b, (p.bay b).state.abortable = false) → abortOrder p = p) ∧
  (∀ p : Part, abortOrder p = allBays.foldl (fun p b => abortBay b p) (allDiscs.foldl (fun p r =>
    if (p.disc r).map (·.stage) = some .feeding then rejectDisc r .aborted p else p) p)) ∧
  (∀ p : Part, (∀ r d, p.disc r = some d → d.stage ≠ .feeding) →
    abortOrder p = allBays.foldl (fun p b => abortBay b p) p) ∧
  (∀ (p : Part) (b : Fin 12),
    ((p.bay b).state.abortable = true ↔ (p.bay b).state ∈ [BayState.closingTray, .querying, .attaching,
      .writing, .finalizing, .readingBack]) ∧
    ((p.bay b).state.abortable = false ∨ p.occupant (.bay b) = none → abortBay b p = p) ∧
    (∀ r, (p.bay b).state.abortable = true → p.occupant (.bay b) = some r →
      let q := rejectDisc r .aborted p
      abortBay b p = q.setBay b { q.bay b with abortMark := decide ((q.bay b).state = .resetting) }))) ∧
  (∀ p : Part,
    let q := allBays.foldl (fun p b => sweepFollow b p) p
    let enters := fun (q : Part) (st : TowerState) (sweep : Option Sweep) => { q with
      attn := q.attn.raise .towerState q.now
      tower := { q.tower with state := st, sweep := sweep } }
    ((∀ w, p.tower.sweep = some w → ∀ b : Fin 12, w.resetOwed[b] = false) → q = p) ∧
    (∀ w, q.tower.state = .starting → q.tower.sweep = some w →
      (w.armMark = false ∧ w.printerMark = false ∧ (∀ b : Fin 12, w.bayMarks[b] = false) →
        settleTower p = enters q .running none) ∧
      (w.armMark = true ∨ w.printerMark = true ∨ (∃ b : Fin 12, w.bayMarks[b] = true) →
        settleTower p = q)) ∧
    (q.tower.state = .starting → q.tower.sweep = none → settleTower p = enters q .running none) ∧
    (q.tower.state = .stopping →
      (q.arm.op = none ∧ (∀ r d, q.disc r = some d → d.stage.active = true → d.stage = .hostHold) →
        settleTower p = enters q .stopped q.tower.sweep) ∧
      (q.arm.op.isSome = true ∨ (∃ r d, q.disc r = some d ∧ d.stage.active = true ∧ d.stage ≠ .hostHold) →
        settleTower p = q)) ∧
    (q.tower.state = .stopped ∨ q.tower.state = .running ∨ q.tower.state = .paused ∨
      q.tower.state = .halted ∨ q.tower.state = .aborting → settleTower p = q) ∧
    (p.tower.state = .aborting → p.arm.op = none → (∀ b, (p.bay b).abortMark = false) →
      testAbort p = enters p .stopped p.tower.sweep) ∧
    (p.tower.state ≠ .aborting ∨ p.arm.op.isSome = true ∨ (∃ b, (p.bay b).abortMark = true) →
      testAbort p = p))

/-- ARM RECOVER is taken with the tower HALTED, the door closed and the arm HALTED by a jam: HOME is sent; it
is refused BUSY with the door open or the arm HOMING, and BAD_STATE in every other tower state (R62).
SPINDLE LOADED sets a spindle's class and count, with *empty* and *wasted* to match, unless a pick from it
is under way; OUTPUT EMPTIED and REJECT BIN EMPTIED set their counts to 0, and a double-feed pair waiting
at ARM is then delivered (R43, R44, R46, R57). A spindle's and a class's codes are their positions in the
spec's lists (log 7, DEDUCED). -/
def Obligations.OperatorRequests : Prop :=
  (∀ (s : State) (tag : Byte), s.takes →
    (s.part.tower.state = .halted → s.part.doorOpen = false → s.part.arm.state = .halted →
      s.part.arm.halt = some .jam →
      exec (.armRecover tag) s = .next (s.replied 0x05 tag { status := .accepted, body := [] }
        (settle { s.part with
          sent := [.arm (.home .recover)]
          arm := { s.part.arm.sending (.home .recover) (s.part.now + s.part.tower.moveTimeout) with
            state := .homing, halt := none } }))) ∧
    (s.part.tower.state = .halted → s.part.doorOpen = true ∨ s.part.arm.state = .homing →
      exec (.armRecover tag) s = .next (s.replied 0x05 tag { status := .busy, body := [] } s.part.fresh)) ∧
    (s.part.tower.state ≠ .halted →
      exec (.armRecover tag) s =
        .next (s.replied 0x05 tag { status := .badState, body := [] } s.part.fresh))) ∧
  (∀ (s : State) (tag : Byte), s.takes →
    (∀ (spindle cls count : Byte) (x : SpindleId) (c : DiscClass),
      spindleOf spindle = some x → classOf cls = some c →
      ((∀ m, s.part.arm.move = some m → m.source ≠ .spindle x) →
        exec (.spindleLoaded tag spindle cls count) s = .next (s.replied 0x06 tag
          (if count.toNat ≤ 150 then { status := .ok, body := [] } else { status := .clamped, body := [150] })
          (settle { s.part.fresh.setSpindle x
              { cls := c, count := min 150 count.toNat, empty := count == 0, wasted := 0 } with
            attn := if count = 0 ∧ (s.part.spindle x).empty = false then
              s.part.attn.raise .spindleEmpty s.part.now else s.part.attn }))) ∧
      (∀ m, s.part.arm.move = some m → m.source = .spindle x →
        exec (.spindleLoaded tag spindle cls count) s =
          .next (s.replied 0x06 tag { status := .busy, body := [] } s.part.fresh))) ∧
    (∀ (spindle cls count : Byte), 2 ≤ spindle.toNat ∨ 2 ≤ cls.toNat →
      exec (.spindleLoaded tag spindle cls count) s =
        .next (s.replied 0x06 tag { status := .outOfRange, body := [] } s.part.fresh)) ∧
    exec (.outputEmptied tag) s = .next (s.replied 0x07 tag { status := .ok, body := [] }
      (settle { s.part.fresh with output := { s.part.output with count := 0 } })) ∧
    ((∀ m, s.part.arm.move = some m → m.feed ≠ .pairWaiting) ∨ s.part.arm.op.isSome = true ∨
        s.part.arm.state ≠ .moving →
      exec (.rejectBinEmptied tag) s = .next (s.replied 0x08 tag { status := .ok, body := [] }
        (settle { s.part.fresh with bin := { s.part.bin with count := 0 } }))) ∧
    (∀ m, s.part.arm.move = some m → m.feed = .pairWaiting → s.part.arm.op = none →
      s.part.arm.state = .moving →
      0 < s.part.bin.capacity →
      exec (.rejectBinEmptied tag) s = .next (s.replied 0x08 tag { status := .ok, body := [] }
        (settle { s.part with
          bin := { s.part.bin with count := 0 }, sent := [.arm (.deliver .bin)]
          arm := { s.part.arm.sending (.deliver .bin) (s.part.now + s.part.tower.moveTimeout) with
            state := .moving, halt := none, move := some { m with feed := .pair } } }))))

/-- CONFIGURE TOWER in STOPPED stores each carried number, moved to the nearest limit of its range, and each
carried class, switch and per-bay class support; a setting not carried keeps its value (R144, R165). A bay
that leaves the installed set while it is not OFFLINE is OFFLINE with its fields as after a device reset,
its lifetime counts kept (R64); a class support the same request carries for it stands after (log 22,
DEDUCED), and of two entries for one bay the last (log 41, DESIGN CHOICE). Values in range with *critical*
above *warning* are answered OK; with any out of range the reply is CLAMPED and holds every value used, as
a subset body in R165's order (log 9, DEDUCED), each bay's class support once (log 41, DESIGN CHOICE), so
in at most 251 bytes (R184). In another tower state it is BAD_STATE, with a code of no value or a bay above
11 OUT_OF_RANGE, with an occupied bay leaving the set BUSY. The codes of an on/off setting (log 7) and the
order of the refusals (log 31) are the model's reading (DEDUCED). -/
def Obligations.ConfigureTower : Prop :=
  ((∀ (s : State) (tag : Byte) (c : TowerFields), s.takes →
      let no := fun st : Status =>
        Host.Outcome.next (s.replied 0x02 tag { status := st, body := [] } s.part.fresh)
      let entries := c.support.getD []
      let t := s.part.tower
      (settingCodesFit c = false → exec (.configureTower tag c) s = no .outOfRange) ∧
      (settingCodesFit c = true → t.state ≠ .stopped → exec (.configureTower tag c) s = no .badState) ∧
      (settingCodesFit c = true → t.state = .stopped → (∃ e ∈ entries, 11 < e.bay.toNat) →
        exec (.configureTower tag c) s = no .outOfRange) ∧
      (settingCodesFit c = true → t.state = .stopped → (∀ e ∈ entries, e.bay.toNat ≤ 11) →
      let n := stored 1 12 c.installed t.installed
      let warning := stored 30 90 c.warning s.part.station.warning
      let critical := stored 35 100 c.critical s.part.station.critical
      let number := fun (lo hi : Nat) (f : Option Byte) =>
        f.map fun k => [BitVec.ofNat 8 (clamp lo hi k.toNat)]
      let asIs := fun f : Option Byte => f.map fun k => [k]
      let usedSupport := fun k : Byte => if k = 0xFF then 0xFF else BitVec.ofNat 8 (clamp 1 16 k.toNat)
      let inRange :=
        (∀ b ∈ c.installed, 1 ≤ b.toNat ∧ b.toNat ≤ 12) ∧
        (∀ b ∈ c.outputCapacity, 1 ≤ b.toNat ∧ b.toNat ≤ 150) ∧
        (∀ b ∈ c.binCapacity, 1 ≤ b.toNat ∧ b.toNat ≤ 60) ∧
        (∀ b ∈ c.progressTimeout, 2 ≤ b.toNat ∧ b.toNat ≤ 60) ∧
        (∀ b ∈ c.moveTimeout, 2 ≤ b.toNat ∧ b.toNat ≤ 30) ∧ (∀ b ∈ c.joinHold, b.toNat ≤ 30) ∧
        (∀ b ∈ c.splitThreshold, 8 ≤ b.toNat ∧ b.toNat ≤ 56) ∧
        (∀ b ∈ c.warning, 30 ≤ b.toNat ∧ b.toNat ≤ 90) ∧
        (∀ b ∈ c.critical, 35 ≤ b.toNat ∧ b.toNat ≤ 100) ∧ warning < critical ∧
        ∀ e ∈ entries, ∀ k ∈ [e.supportA, e.supportB], k = 0xFF ∨ 1 ≤ k.toNat ∧ k.toNat ≤ 16
      let usedBody := subsetBody
          [number 1 12 c.installed,
            c.support.map fun l => listBytes
              (fun e => [e.bay, usedSupport e.supportA, usedSupport e.supportB]) (standingEntries l),
            asIs c.spindleA, asIs c.spindleB, number 1 150 c.outputCapacity, number 1 60 c.binCapacity,
            number 2 60 c.progressTimeout, number 2 30 c.moveTimeout, number 0 30 c.joinHold,
            number 8 56 c.splitThreshold, asIs c.splitSetting, asIs c.surveyReserve, asIs c.autoRetire,
            number 30 90 c.warning,
            if critical ≤ warning then some [BitVec.ofNat 8 (warning + 5)]
              else number 35 100 c.critical]
      ((∃ b : Fin 12, n ≤ b.val ∧ b.val < t.installed ∧ (s.part.occupant (.bay b)).isSome = true) →
        exec (.configureTower tag c) s = no .busy) ∧
      ((∀ b : Fin 12, n ≤ b.val → b.val < t.installed → s.part.occupant (.bay b) = none) →
        ∃ a q, exec (.configureTower tag c) s = .next (s.replied 0x02 tag a q) ∧
          s.part.fresh.Changes [.tower, .bays, .spindleA, .spindleB, .output, .bin, .attn, .station] q ∧
          q.tower = { t with
            installed := n
            progressTimeout := (match c.progressTimeout with
              | some b => 1000 * clamp 2 60 b.toNat | none => t.progressTimeout)
            moveTimeout := (match c.moveTimeout with
              | some b => 1000 * clamp 2 30 b.toNat | none => t.moveTimeout)
            joinHold := (match c.joinHold with
              | some b => 1000 * clamp 0 30 b.toNat | none => t.joinHold)
            splitThreshold := stored 8 56 c.splitThreshold t.splitThreshold
            splitOn := (c.splitSetting.bind onOffOf).getD t.splitOn
            surveyReserve := (c.surveyReserve.bind onOffOf).getD t.surveyReserve
            autoRetire := (c.autoRetire.bind onOffOf).getD t.autoRetire } ∧
          q.spindleA = { s.part.spindleA with cls := (c.spindleA.bind classOf).getD s.part.spindleA.cls } ∧
          q.spindleB = { s.part.spindleB with cls := (c.spindleB.bind classOf).getD s.part.spindleB.cls } ∧
          q.output = { s.part.output with
            capacity := stored 1 150 c.outputCapacity s.part.output.capacity } ∧
          q.bin = { s.part.bin with capacity := stored 1 60 c.binCapacity s.part.bin.capacity } ∧
          q.station = { s.part.station with
            warning := warning, critical := if critical ≤ warning then warning + 5 else critical } ∧
          (∀ b, q.bay b =
            let x := if n ≤ b.val ∧ b.val < t.installed ∧ (s.part.bay b).state ≠ .offline then
              { Bay.reset with
                loads := (s.part.bay b).loads, goods := (s.part.bay b).goods
                failures := (s.part.bay b).failures }
              else s.part.bay b
            let support := fun k : Byte => if k = 0xFF then none else some (clamp 1 16 k.toNat)
            match entries.reverse.find? (fun e => e.bay.toNat == b.val) with
            | some e => { x with supportA := support e.supportA, supportB := support e.supportB }
            | none => x) ∧
          (∀ f, f ≠ .outputFull → f ≠ .rejectFull → q.attn.isSet f = s.part.attn.isSet f) ∧
          (inRange → a = { status := .ok, body := [] }) ∧
          (¬ inRange → s.part.station.limitsOk → a = { status := .clamped, body := usedBody }) ∧
          a.body.length ≤ 251))) ∧
  standingEntries [] = [] ∧
  ∀ (e : SupportEntry) (rest : List SupportEntry), standingEntries (e :: rest) =
    if rest.any fun x => x.bay == e.bay then standingEntries rest else e :: standingEntries rest) ∧
  (∀ c : TowerFields, settingCodesFit c = true ↔
    ∀ f ∈ [c.spindleA, c.spindleB, c.splitSetting, c.surveyReserve, c.autoRetire], ∀ b ∈ f, b.toNat ≤ 1)

/-! ## Jobs -/

/-- DEFINE JOB (R21, R22, R25, R103, R147) takes the lowest free number: the definition keeps the fields of its
kind, each number moved to the nearest limit of its range, in DEFINED with its counts at 0; the image's
attach count and the template's users rise by 1. Values in range are answered OK with the number; with one
out of range the reply is CLAMPED and holds the number and every value used, in the order of R22, absent
fields as absent (log 9, DEDUCED). A job number of 0 or above 16 is OUT_OF_RANGE and a free one NOT_FOUND
in every request that names a job; DEFINE JOB is refused OUT_OF_RANGE for a code that names no value, in a
field that does not apply to the kind too unless it reads as absent, FFh (log 44, DEDUCED), and for a
number that names no record where the kind needs one, NOT_FOUND for an EMPTY image or an undefined
template, NO_ROOM with 16 jobs held (R21, R25, R176, R179). The codes of named values in requests: *kind*
from 01h, the others from 00h, in the order of the lists, and no other code names a value (R184; log 7,
DEDUCED). The order of the refusals is the model's reading (log 31, DEDUCED). -/
def Obligations.DefineJob : Prop :=
  (∀ (s : State) (tag : Byte) (f : JobFields) (k : JobKind) (image : Option (Fin 32))
    (template : Option (Fin 8)) (cls : DiscClass) (x : Fin 16), s.takes → kindOf f.kind = some k →
    (k ≠ .print → ∃ i y, image = some i ∧ f.image.toNat = i.val ∧ s.part.image i = some y ∧ cls = y.cls ∧
      f.verifyMode.toNat ≤ 2 ∧ (f.cls.toNat ≤ 1 ∨ f.cls = 0xFF)) →
    (k = .print → image = none ∧ classOf f.cls = some cls ∧
      (f.verifyMode.toNat ≤ 2 ∨ f.verifyMode = 0xFF)) →
    (k ≠ .burn → ∃ t y, template = some t ∧ f.template.toNat = t.val ∧ s.part.template t = some y ∧
      f.inkPolicy.toNat ≤ 1) →
    (k = .burn → template = none ∧ (f.inkPolicy.toNat ≤ 1 ∨ f.inkPolicy = 0xFF)) →
    s.part.job x = none → (∀ y, y < x → (s.part.job y).isSome = true) →
    let used : Job :=
      { hostRef := f.hostRef, kind := k, state := .defined, image := image, cls := cls
        ordered := clamp 1 9999 f.ordered.toNat, priority := clamp 0 3 f.priority.toNat
        maxSpeed := clamp 1 16 f.maxSpeed.toNat
        verifyMode := if k = .print then none else verifyModeOf f.verifyMode
        recoveredLimit := if k = .print then none else some f.recoveredLimit.toNat
        rejectLimit := clamp 1 255 f.rejectLimit.toNat, template := template
        inkPolicy := if k = .burn then none else inkPolicyOf f.inkPolicy
        serialDigits := if k = .burn then none else some (min 8 f.serialDigits.toNat)
        serials := if k = .burn ∨ f.serialDigits = 0 then none else
          let first := min (10 ^ min 8 f.serialDigits.toNat - 1) f.firstSerial.toNat
          some { first := first, step := clamp 1 100 f.step.toNat, issued := 0, next := first }
        holds := { ink := false, source := false, imageNotReady := false }, lastPick := none
        started := 0, delivered := 0, rejected := 0, failures := 0, active := 0
        unlabelledDelivered := 0 }
    let inRange := 1 ≤ f.ordered.toNat ∧ f.ordered.toNat ≤ 9999 ∧ f.priority.toNat ≤ 3 ∧
      1 ≤ f.maxSpeed.toNat ∧ f.maxSpeed.toNat ≤ 16 ∧ 1 ≤ f.rejectLimit.toNat ∧
      (k ≠ .burn → f.serialDigits.toNat ≤ 8 ∧
        (f.serialDigits ≠ 0 → f.firstSerial.toNat < 10 ^ f.serialDigits.toNat ∧
          1 ≤ f.step.toNat ∧ f.step.toNat ≤ 100))
    ∃ a q, exec (.defineJob tag f) s = .next (s.replied 0x30 tag a q) ∧
      s.part.fresh.Changes [.jobs, .images, .templates] q ∧
      OthersKept s.part.job q.job x ∧ q.job x = some used ∧
      (∀ i, q.image i = if image = some i then
        (s.part.image i).map (fun y => { y with attachCount := y.attachCount + 1 }) else s.part.image i) ∧
      (∀ t, q.template t = if template = some t then
        (s.part.template t).map (fun y => { y with users := y.users + 1 }) else s.part.template t) ∧
      (inRange → a = { status := .ok, body := [BitVec.ofNat 8 (x.val + 1)] }) ∧
      (¬ inRange → a.status = .clamped ∧ a.body =
        [BitVec.ofNat 8 (x.val + 1)] ++ (u32 used.hostRef.toNat ++ u8 used.kind.code ++
          opt8 (used.image.map fun i => i.val) ++ u8 (classCode used.cls) ++ u16 used.ordered ++
          u8 used.priority ++ u8 used.maxSpeed ++ opt8 (used.verifyMode.map fun v => v.code) ++
          opt8 used.recoveredLimit ++ u8 used.rejectLimit ++ opt8 (used.template.map fun t => t.val) ++
          opt8 (used.inkPolicy.map fun v => v.code) ++ opt8 used.serialDigits ++
          opt32 (used.serials.map fun y => y.first) ++ opt8 (used.serials.map fun y => y.step)))) ∧
  (∀ (s : State) (tag job : Byte), s.takes →
    let no := fun (code : Byte) (st : Status) =>
      Host.Outcome.next (s.replied code tag { status := st, body := [] } s.part.fresh)
    let all := fun (st : Status) =>
      exec (.startJob tag job) s = no 0x32 st ∧ exec (.pauseJob tag job) s = no 0x33 st ∧
        exec (.resumeJob tag job) s = no 0x34 st ∧ exec (.cancelJob tag job) s = no 0x35 st ∧
        exec (.lookUpJob tag job) s = no 0x36 st ∧ exec (.retireJob tag job) s = no 0x38 st ∧
        ∀ c, changeCodesFit c = true → exec (.changeJob tag job c) s = no 0x31 st
    (job = 0 ∨ 16 < job.toNat → all .outOfRange ∧ exec (.listJobs tag job) s = no 0x37 .outOfRange) ∧
    (∀ x : Fin 16, job.toNat = x.val + 1 → s.part.job x = none → all .notFound) ∧
    ∀ f : JobFields,
      let burns := f.kind = 1 ∨ f.kind = 2
      let labels := f.kind = 2 ∨ f.kind = 3
      let outside := f.kind = 0 ∨ 3 < f.kind.toNat ∨
        2 < f.verifyMode.toNat ∧ (burns ∨ f.verifyMode ≠ 0xFF) ∨
        1 < f.cls.toNat ∧ (f.kind = 3 ∨ f.cls ≠ 0xFF) ∨
        1 < f.inkPolicy.toNat ∧ (labels ∨ f.inkPolicy ≠ 0xFF) ∨
        burns ∧ 31 < f.image.toNat ∨ labels ∧ 7 < f.template.toNat
      let missing := burns ∧ (∃ i : Fin 32, f.image.toNat = i.val ∧ s.part.image i = none) ∨
        labels ∧ ∃ t : Fin 8, f.template.toNat = t.val ∧ s.part.template t = none
      (outside → exec (.defineJob tag f) s = no 0x30 .outOfRange) ∧
      (¬ outside → missing → exec (.defineJob tag f) s = no 0x30 .notFound) ∧
      (¬ outside → ¬ missing → (∀ x, (s.part.job x).isSome = true) →
        exec (.defineJob tag f) s = no 0x30 .noRoom)) ∧
  ((∀ b : Byte, kindOf b = if b = 1 then some .burn else if b = 2 then some .burnPrint
    else if b = 3 then some .print else none) ∧
  (∀ b : Byte, classOf b = if b = 0 then some .a else if b = 1 then some .b else none) ∧
  (∀ b : Byte, verifyModeOf b = if b = 0 then some .none else if b = 1 then some .quick
    else if b = 2 then some .full else none) ∧
  (∀ b : Byte, inkPolicyOf b = if b = 0 then some .wait else if b = 1 then some .unlabelled else none))

/-- START, PAUSE and RESUME JOB (R24, R28, R29, R36): DEFINED starts RUNNING, or HELD for an image that is not
READY, with the newest pick rank; RUNNING and HELD pause; PAUSED resumes RUNNING, or HELD with a hold
reason. In every other state each is refused BAD_STATE. -/
def Obligations.JobStates : Prop :=
  ∀ (s : State) (tag job : Byte) (x : Fin 16) (j : Job), s.takes → job.toNat = x.val + 1 →
    s.part.job x = some j →
    let done := fun (code : Byte) (k : Job) =>
      Host.Outcome.next (s.replied code tag { status := .ok, body := [] }
        (settle (s.part.fresh.setJob x (some k))))
    let bad := fun (code : Byte) =>
      Host.Outcome.next (s.replied code tag { status := .badState, body := [] } s.part.fresh)
    (j.state = .defined → (∀ i, j.image = some i → s.part.imageReady i = true) →
      exec (.startJob tag job) s =
        done 0x32 { j with state := .running, lastPick := some (nextRank s.part.pickRanks) }) ∧
    (j.state = .defined → ∀ i, j.image = some i → s.part.imageReady i = false →
      exec (.startJob tag job) s = done 0x32 { j with
        state := .held, holds := { j.holds with imageNotReady := true }
        lastPick := some (nextRank s.part.pickRanks) }) ∧
    (j.state ≠ .defined → exec (.startJob tag job) s = bad 0x32) ∧
    (j.state = .running ∨ j.state = .held →
      exec (.pauseJob tag job) s = done 0x33 { j with state := .paused }) ∧
    (j.state ≠ .running → j.state ≠ .held → exec (.pauseJob tag job) s = bad 0x33) ∧
    (j.state = .paused → exec (.resumeJob tag job) s =
      done 0x34 { j with state := if j.holds.any then .held else .running }) ∧
    (j.state ≠ .paused → exec (.resumeJob tag job) s = bad 0x34)

/-- CHANGE JOB (R26, R27, R34): a started job takes *ordered*, raised to what it has delivered and has active,
*priority*, *max speed* and *reject limit*, and is DONE at once when what it has delivered is then
*ordered*, else FAILING, or FAILED with no disc active, when its failures have reached the limit; any other
field, and an ended job, is refused BAD_STATE. A DEFINED job is redefined by the carried fields over the
held ones, its kind included: each number moved to the nearest limit of its range, the fields that do not
apply to the kind absent, *class* the image's, the uses of the old image and template ended and those of
the new begun; a redefinition that lacks a field its kind needs, such as *first serial* when *serial
digits* is raised from 0, is OUT_OF_RANGE (DESIGN CHOICE, log 18), and so is an image or template number
that names no record; one that names an EMPTY image or an undefined template is NOT_FOUND. The value used
for *ordered* stays within 1 to 9999 (log 45, DEDUCED). Values used as they came are answered OK; else the
reply is CLAMPED, a subset body of the values used for the carried fields, and for *first serial* when it
was moved (log 9, DEDUCED). A carried code that names no value refuses CHANGE JOB with OUT_OF_RANGE, before
the job is looked at (R176; log 31, DEDUCED); a started job takes none of eleven fields (R27). The order of
its refusals is the model's reading (log 31, DEDUCED). -/
def Obligations.ChangeJob : Prop :=
  (∀ (s : State) (tag job : Byte) (c : JobChange) (x : Fin 16) (j : Job), s.takes →
    job.toNat = x.val + 1 → s.part.job x = some j → changeCodesFit c = true →
    let no := fun st : Status =>
      Host.Outcome.next (s.replied 0x31 tag { status := st, body := [] } s.part.fresh)
    let k := { j with
      ordered := match c.ordered with
        | some w => clamp 1 9999 (max w.toNat (j.delivered + j.active)) | none => j.ordered
      priority := stored 0 3 c.priority j.priority, maxSpeed := stored 1 16 c.maxSpeed j.maxSpeed
      rejectLimit := stored 1 255 c.rejectLimit j.rejectLimit }
    let ended := fun st : JobState => { s.part.fresh.setJob x (some { k with
        state := st, holds := { ink := false, source := false, imageNotReady := false } }) with
      attn := s.part.attn.raise .jobEnded s.part.now }
    let asCarried := (∀ w ∈ c.ordered, w.toNat = k.ordered) ∧ (∀ b ∈ c.priority, b.toNat = k.priority) ∧
      (∀ b ∈ c.maxSpeed, b.toNat = k.maxSpeed) ∧ ∀ b ∈ c.rejectLimit, b.toNat = k.rejectLimit
    let applied := subsetBody [none, none, none, none, c.ordered.map fun _ => u16 k.ordered,
      c.priority.map fun _ => u8 k.priority, c.maxSpeed.map fun _ => u8 k.maxSpeed, none, none,
      c.rejectLimit.map fun _ => u8 k.rejectLimit, none, none, none, none, none]
    let changed := fun q : Part =>
      (asCarried → exec (.changeJob tag job c) s =
        .next (s.replied 0x31 tag { status := .ok, body := [] } (settle q))) ∧
      (¬ asCarried → exec (.changeJob tag job c) s =
        .next (s.replied 0x31 tag { status := .clamped, body := applied } (settle q)))
    let isOpen := j.state = .running ∨ j.state = .paused ∨ j.state = .held
    let done := isOpen ∧ c.ordered.isSome = true ∧ k.delivered = k.ordered
    let fails := isOpen ∧ c.rejectLimit.isSome = true ∧ k.rejectLimit ≤ k.failures
    (j.state ≠ .defined → changeRedefines c = true ∨ j.state.ended = true →
      exec (.changeJob tag job c) s = no .badState) ∧
    (j.state.started = true → changeRedefines c = false →
      (done → changed (ended .done)) ∧
      (¬ done → fails → 0 < j.active →
        changed (s.part.fresh.setJob x (some { k with state := .failing }))) ∧
      (¬ done → fails → j.active = 0 → changed (ended .failed)) ∧
      (¬ done → ¬ fails → changed (s.part.fresh.setJob x (some k)))) ∧
    (j.state = .defined →
      let number := fun (new : Option Byte) (old : Option Nat) => if new.isSome then new.map (·.toNat) else old
      let kind := (c.kind.bind kindOf).getD j.kind
      let image := number c.image (j.image.map (·.val))
      let template := number c.template (j.template.map (·.val))
      let verify := if c.verifyMode.isSome then c.verifyMode.bind verifyModeOf else j.verifyMode
      let recovered := number c.recoveredLimit j.recoveredLimit
      let policy := if c.inkPolicy.isSome then c.inkPolicy.bind inkPolicyOf else j.inkPolicy
      let digits := number c.serialDigits j.serialDigits
      let first := if c.firstSerial.isSome then c.firstSerial.map (·.toNat) else j.serials.map (·.first)
      let step := number c.step (j.serials.map (·.step))
      let ordered := match c.ordered with | some w => w.toNat | none => j.ordered
      let priority := match c.priority with | some b => b.toNat | none => j.priority
      let maxSpeed := match c.maxSpeed with | some b => b.toNat | none => j.maxSpeed
      let rejectLimit := match c.rejectLimit with | some b => b.toNat | none => j.rejectLimit
      let complete :=
        (kind ≠ .print → verify.isSome = true ∧ recovered.isSome = true) ∧
        (kind ≠ .burn → policy.isSome = true ∧ digits.isSome = true ∧
          (digits = some 0 ∨ first.isSome = true ∧ step.isSome = true))
      let inRange := 1 ≤ ordered ∧ ordered ≤ 9999 ∧ priority ≤ 3 ∧ 1 ≤ maxSpeed ∧ maxSpeed ≤ 16 ∧
        1 ≤ rejectLimit ∧ rejectLimit ≤ 255 ∧ (kind ≠ .print → recovered.getD 0 ≤ 255) ∧
        (kind ≠ .burn → digits.getD 0 ≤ 8 ∧ (digits ≠ some 0 →
          first.getD 0 < 10 ^ digits.getD 0 ∧ 1 ≤ step.getD 0 ∧ step.getD 0 ≤ 100))
      (¬ complete → exec (.changeJob tag job c) s = no .outOfRange) ∧
      let outside := kind ≠ .print ∧ (∀ n : Fin 32, image ≠ some n.val) ∨
        kind ≠ .burn ∧ ∀ n : Fin 8, template ≠ some n.val
      let missing := kind ≠ .print ∧ (∃ n : Fin 32, image = some n.val ∧ s.part.image n = none) ∨
        kind ≠ .burn ∧ ∃ n : Fin 8, template = some n.val ∧ s.part.template n = none
      (complete → outside → exec (.changeJob tag job c) s = no .outOfRange) ∧
      (complete → ¬ outside → missing → exec (.changeJob tag job c) s = no .notFound) ∧
      (∀ (i : Option (Fin 32)) (t : Option (Fin 8)) (cls : DiscClass), complete →
        (kind ≠ .print → ∃ n y, i = some n ∧ image = some n.val ∧ s.part.image n = some y ∧ cls = y.cls) →
        (kind = .print → i = none ∧ cls = (c.cls.bind classOf).getD j.cls) →
        (kind ≠ .burn → ∃ n y, t = some n ∧ template = some n.val ∧ s.part.template n = some y) →
        (kind = .burn → t = none) →
        let used : Job :=
          { hostRef := c.hostRef.getD j.hostRef, kind := kind, state := .defined, image := i, cls := cls
            ordered := clamp 1 9999 ordered, priority := clamp 0 3 priority, maxSpeed := clamp 1 16 maxSpeed
            verifyMode := if kind = .print then none else verify
            recoveredLimit := if kind = .print then none else recovered.map (min 255)
            rejectLimit := clamp 1 255 rejectLimit, template := t
            inkPolicy := if kind = .burn then none else policy
            serialDigits := if kind = .burn then none else digits.map (min 8)
            serials := if kind = .burn ∨ digits = some 0 then none else
              let start := min (10 ^ min 8 (digits.getD 0) - 1) (first.getD 0)
              some { first := start, step := clamp 1 100 (step.getD 0), issued := 0, next := start }
            holds := { ink := false, source := false, imageNotReady := false }, lastPick := none
            started := 0, delivered := 0, rejected := 0, failures := 0, active := 0
            unlabelledDelivered := 0 }
        let firstUsed := used.serials.map fun y => y.first
        let body := subsetBody
          [c.hostRef.map fun _ => u32 used.hostRef.toNat, c.kind.map fun _ => u8 used.kind.code,
            c.image.map fun _ => opt8 (used.image.map fun n => n.val),
            c.cls.map fun _ => u8 (classCode used.cls), c.ordered.map fun _ => u16 used.ordered,
            c.priority.map fun _ => u8 used.priority, c.maxSpeed.map fun _ => u8 used.maxSpeed,
            c.verifyMode.map fun _ => opt8 (used.verifyMode.map fun v => v.code),
            c.recoveredLimit.map fun _ => opt8 used.recoveredLimit,
            c.rejectLimit.map fun _ => u8 used.rejectLimit,
            c.template.map fun _ => opt8 (used.template.map fun n => n.val),
            c.inkPolicy.map fun _ => opt8 (used.inkPolicy.map fun v => v.code),
            c.serialDigits.map fun _ => opt8 used.serialDigits,
            if c.firstSerial.isSome || (firstUsed.isSome && firstUsed != first) then some (opt32 firstUsed)
              else none,
            c.step.map fun _ => opt8 (used.serials.map fun y => y.step)]
        ∃ a q, exec (.changeJob tag job c) s = .next (s.replied 0x31 tag a q) ∧
          (inRange → a = { status := .ok, body := [] }) ∧
          (¬ inRange → a = { status := .clamped, body := body }) ∧
          s.part.fresh.Changes [.jobs, .images, .templates] q ∧ OthersKept s.part.job q.job x ∧
          q.job x = some used ∧
          (∀ n, q.image n = (s.part.image n).map (fun y => { y with
            attachCount := y.attachCount - (if j.image = some n then 1 else 0) +
              if i = some n then 1 else 0 })) ∧
          (∀ n, q.template n = (s.part.template n).map (fun y => { y with
            users := y.users - (if j.template = some n then 1 else 0) + if t = some n then 1 else 0 }))))) ∧
  (∀ c : JobChange,
    (changeCodesFit c = true ↔
      (∀ b ∈ c.kind, 1 ≤ b.toNat ∧ b.toNat ≤ 3) ∧ (∀ b ∈ c.cls, b.toNat ≤ 1) ∧
        (∀ b ∈ c.verifyMode, b.toNat ≤ 2) ∧ ∀ b ∈ c.inkPolicy, b.toNat ≤ 1) ∧
    (changeRedefines c = false ↔
      c.hostRef = none ∧ c.kind = none ∧ c.image = none ∧ c.cls = none ∧ c.verifyMode = none ∧
        c.recoveredLimit = none ∧ c.template = none ∧ c.inkPolicy = none ∧ c.serialDigits = none ∧
        c.firstSerial = none ∧ c.step = none) ∧
    ∀ (s : State) (tag job : Byte), s.takes → changeCodesFit c = false →
      exec (.changeJob tag job c) s =
        .next (s.replied 0x31 tag { status := .outOfRange, body := [] } s.part.fresh))

/-- CANCEL JOB and RETIRE JOB (R23, R31, R38, R39): a DEFINED job is CANCELLED at once; a started one is
CANCELLING while its discs are cancelled in ascending order, and CANCELLED at once with none active; each
active disc of it that waits OUTBOUND with no move granted goes to HOST_HOLD, every other one not yet
rejected is rejected CANCELLED; an ended or DEFINED job that no record names is freed, its image and
template released. The ascending order in which a cancel takes the discs is the model's choice, for R39
gives none (logs 30 and 32, DESIGN CHOICE). -/
def Obligations.CancelAndRetireJob : Prop :=
  (∀ (s : State) (tag job : Byte) (x : Fin 16) (j : Job), s.takes → job.toNat = x.val + 1 →
    s.part.job x = some j →
    let ans := fun q : Part =>
      Host.Outcome.next (s.replied 0x35 tag { status := .ok, body := [] } (settle q))
    let cancelled := ans
      { s.part.fresh.setJob x (some { j with
          state := .cancelled, holds := { ink := false, source := false, imageNotReady := false } }) with
        attn := s.part.attn.raise .jobEnded s.part.now }
    let cancelling := s.part.fresh.setJob x (some { j with state := .cancelling })
    let isStarted := j.state = .running ∨ j.state = .paused ∨ j.state = .held ∨ j.state = .failing
    (j.state = .defined → exec (.cancelJob tag job) s = cancelled) ∧
    (isStarted → exec (.cancelJob tag job) s = ans (closeIdle x (cancelDiscs x cancelling))) ∧
    (isStarted → j.active = 0 → (∀ r d, s.part.disc r = some d → d.job ≠ some x) →
      exec (.cancelJob tag job) s = cancelled) ∧
    (isStarted → 0 < j.active → ∃ q, exec (.cancelJob tag job) s = ans q ∧
      (q.job x).map (·.state) = some .cancelling ∧
      ∀ r d, s.part.disc r = some d → d.job = some x → d.stage.active = true → d.verdict ≠ .reject →
        (d.stage ≠ .outbound ∨ (∃ m, s.part.arm.move = some m ∧ m.record = r) →
          ∃ e, q.disc r = some e ∧ e.verdict = .reject ∧ e.reason = some .cancelled) ∧
        (d.stage = .outbound → (∀ m, s.part.arm.move = some m → m.record ≠ r) → r ∉ s.part.inkWait →
          ∃ e, q.disc r = some e ∧ e.verdict = d.verdict ∧ e.stage = .hostHold)) ∧
    (j.state = .cancelling ∨ j.state.ended = true → exec (.cancelJob tag job) s =
      .next (s.replied 0x35 tag { status := .badState, body := [] } s.part.fresh)) ∧
    (j.state.started = true → exec (.retireJob tag job) s =
      .next (s.replied 0x38 tag { status := .badState, body := [] } s.part.fresh)) ∧
    (j.state.started = false → (∃ r d, s.part.disc r = some d ∧ d.job = some x) →
      exec (.retireJob tag job) s =
        .next (s.replied 0x38 tag { status := .inUse, body := [] } s.part.fresh)) ∧
    (j.state.started = false → (∀ r d, s.part.disc r = some d → d.job ≠ some x) →
      ∃ q, exec (.retireJob tag job) s = .next (s.replied 0x38 tag { status := .ok, body := [] } q) ∧
        s.part.fresh.Changes [.jobs, .images, .templates, .shortSet] q ∧ q.job x = none ∧
        OthersKept s.part.job q.job x ∧ q.shortSet = s.part.shortSet.filter (· != x) ∧
        (∀ i, q.image i = if j.image = some i then
          (s.part.image i).map (fun y => { y with attachCount := y.attachCount - 1 })
          else s.part.image i) ∧
        (∀ t, q.template t = if j.template = some t then
          (s.part.template t).map (fun y => { y with users := y.users - 1 })
          else s.part.template t))) ∧
  (∀ (p : Part) (r : Fin 24) (d : Disc), p.disc r = some d →
    (d.stage.active = false ∨ d.verdict = .reject → cancelDisc r p = p) ∧
    (d.stage = .outbound → d.verdict ≠ .reject → (∀ m, p.arm.move = some m → m.record ≠ r) →
      cancelDisc r p = p.setDisc r (some { d with stage := .hostHold, eligible := none })) ∧
    (d.stage = .outbound → d.verdict ≠ .reject → (∃ m, p.arm.move = some m ∧ m.record = r) →
      cancelDisc r p = rejectDisc r .cancelled p) ∧
    (d.stage.active = true → d.stage ≠ .outbound → d.verdict ≠ .reject →
      cancelDisc r p = rejectDisc r .cancelled p)) ∧
  (∀ (p : Part) (x : Fin 16), cancelDiscs x p = allDiscs.foldl (fun p r =>
    if (p.disc r).bind (·.job) = some x then cancelDisc r p else p) p)

/-- A job's counts follow its discs (R32 to R34): a pick issued, withdrawn, a disc delivered, a disc rejected;
the last delivery makes an open job DONE; a counted reject that reaches the limit makes it FAILING, and
FAILED with no disc active; a FAILING or CANCELLING job whose last disc ends is FAILED or CANCELLED. -/
def Obligations.JobCounts : Prop :=
  ∀ (p : Part) (x : Fin 16) (j : Job), p.job x = some j →
    let ends := fun (k : Job) (st : JobState) => { p.setJob x (some { k with
        state := st, holds := { ink := false, source := false, imageNotReady := false } }) with
      attn := p.attn.raise .jobEnded p.now }
    let closed := fun (k : Job) =>
      if k.active = 0 ∧ k.state = .failing then ends k .failed
      else if k.active = 0 ∧ k.state = .cancelling then ends k .cancelled
      else p.setJob x (some k)
    let isOpen := j.state = .running ∨ j.state = .paused ∨ j.state = .held
    jobCreated x p = p.setJob x (some { j with started := j.started + 1, active := j.active + 1 }) ∧
    jobWithdrawn x p = closed { j with started := j.started - 1, active := j.active - 1 } ∧
    (∀ u : Bool,
      let k := { j with
        active := j.active - 1, delivered := j.delivered + 1
        unlabelledDelivered := j.unlabelledDelivered + if u then 1 else 0 }
      jobDelivered x u p = if isOpen ∧ k.delivered = k.ordered then ends k .done else closed k) ∧
    (∀ counts : Bool,
      let k := { j with
        active := j.active - 1, rejected := j.rejected + 1
        failures := j.failures + if counts then 1 else 0 }
      jobRejected x counts p =
        if isOpen ∧ k.rejectLimit ≤ k.failures then closed { k with state := .failing } else closed k)

/-- The jobs' hold reasons (R24): a change is taken by a started job alone, and RUNNING and HELD follow the
set; a change for an image reaches every job of it and no other. An image that becomes READY raises
IMAGE_READY, clears IMAGE_NOT_READY and SOURCE of its jobs, and wakes the read-backs that wait for its
reference, each of which reads its next segment (R108, R111, R142). Several are woken in ascending order of
their bays, which the rules leave open (log 30, DESIGN CHOICE). -/
def Obligations.JobHolds : Prop :=
  let changed := fun (f : Holds → Holds) (j : Job) =>
    if j.state.started then { j with
      holds := f j.holds
      state := if j.state = .running ∨ j.state = .held then
          if (f j.holds).ink = true ∨ (f j.holds).source = true ∨ (f j.holds).imageNotReady = true then .held
          else .running
        else j.state }
    else j
  (∀ (p : Part) (x : Fin 16) (f : Holds → Holds), changeHolds x f p = p.setJob x ((p.job x).map (changed f))) ∧
  (∀ (p : Part) (i : Fin 32) (f : Holds → Holds), ∃ q, changeImageHolds i f p = q ∧ p.Changes [.jobs] q ∧
    ∀ x, q.job x = (p.job x).map fun j => if j.image = some i then changed f j else j) ∧
  (∀ (p : Part) (i : Fin 32),
    imageBecomesReady i p = wakeReadBacks i (changeImageHolds i
      (fun h => { h with imageNotReady := false, source := false })
      { p with attn := p.attn.raise .imageReady p.now }) ∧
    (p.referenceValid i = true →
      let wakes := fun b : Fin 12 => (p.context b).bind fun c =>
        if c.image = i ∧ c.awaitingReference = true then c.nextSelected else none
      ∃ q, wakeReadBacks i p = q ∧ p.Changes [.contexts, .bays, .sent] q ∧
        q.sent = p.sent ++ allBays.filterMap (fun b => (wakes b).map fun n => .drive b (.read n)) ∧
        ∀ b, (wakes b = none → q.context b = p.context b ∧ q.bay b = p.bay b) ∧
          ∀ n c, wakes b = some n → p.context b = some c →
            q.context b = some { c with
              inHand := some { segment := n, attempt := 1 }, readOutstanding := true
              awaitingReference := false } ∧
            q.bay b = (p.bay b).driven .read (p.now + p.tower.progressTimeout)))

/-! ## Discs -/

/-- A write of a stage, and REJECT (R3, R4, R13, R77): a final stage takes no active stage, and
REJECT_BOUND no other active one. The first REJECT sets verdict and reason and raises DISC_REJECTED; on a
REJECT only LOST, REMOVED and BAY_FAULT replace the reason; GOOD never replaces REJECT. The first REJECT of
a disc in stage DELIVERED, REJECTED or REJECT_BOUND, or being labelled, moves nothing. Any other disc
becomes REJECT_BOUND and leaves the label unit's lists and its reservation; in HOST_HOLD at ARM or PRINTER
it is given an eligible order; in PRINTING with no label sent a LOADED station is FINISHED; and in a bay at
work the drive is aborted and reset, the stream, the read-back or the stream request ended; that RESET also
serves for one the bay owes the sweep (log 50, DESIGN CHOICE). -/
def Obligations.RejectRule : Prop :=
  (∀ (p : Part) (r : Fin 24) (d : Disc) (why : Reason), p.disc r = some d →
    let first := fun e : Disc => { p.setDisc r (some { e with verdict := .reject, reason := some why }) with
      attn := p.attn.raise .discRejected p.now }
    (∀ st, setStage r st p = p.setDisc r (some (d.atStage st))) ∧
    (d.verdict ≠ .reject → writeReject r why p = first d) ∧
    (d.verdict = .reject → why = .lost ∨ why = .removed ∨ why = .bayFault →
      writeReject r why p = p.setDisc r (some { d with reason := some why })) ∧
    (d.verdict = .reject → why ≠ .lost → why ≠ .removed → why ≠ .bayFault → writeReject r why p = p) ∧
    (d.verdict ≠ .reject → writeGood r p = p.setDisc r (some { d with verdict := .good })) ∧
    (d.verdict = .reject → writeGood r p = p) ∧
    (d.verdict = .reject → rejectDisc r why p = writeReject r why p) ∧
    (d.verdict ≠ .reject → d.stage = .delivered ∨ d.stage = .rejected ∨ d.stage = .rejectBound →
      rejectDisc r why p = first d) ∧
    (d.verdict ≠ .reject → d.stage = .printing → p.occupant .printer = some r →
      p.station.labelDeadline.isSome = true → rejectDisc r why p = first d) ∧
    (d.verdict ≠ .reject → d.stage = .printing →
      p.occupant .printer ≠ some r ∨ p.station.labelDeadline = none →
      let bound := setStage r .rejectBound (release r (first d))
      (p.station.state = .loaded → rejectDisc r why p = finishStation bound) ∧
      (p.station.state = .fault → rejectDisc r why p = giveOrder r bound) ∧
      (p.station.state ≠ .loaded → p.station.state ≠ .fault → rejectDisc r why p = bound)) ∧
    (d.verdict ≠ .reject → d.stage.active = true → d.stage ≠ .rejectBound → d.stage ≠ .printing →
      let bound := setStage r .rejectBound (leaveLabelUnit r (first d))
      ((∀ b, d.place ≠ some (.bay b)) → d.stage ≠ .hostHold ∨ d.place = none →
        rejectDisc r why p = bound) ∧
      ((∀ b, d.place ≠ some (.bay b)) → d.stage = .hostHold → d.place ≠ none →
        rejectDisc r why p = giveOrder r bound) ∧
      (∀ b, d.place = some (.bay b) →
        let resets := fun q : Part => { q.setBay b ((q.bay b).resetting p.now) with
          sent := p.sent ++ (if (p.bay b).operation.isSome then [.drive b .abort] else []) ++ [.drive b .reset]
          tower := { p.tower with sweep := p.tower.sweep.map fun w => { w with
            resetOwed := w.resetOwed.set b.val false } } }
        let st := (p.bay b).state
        (st = .closingTray ∨ st = .querying ∨ st = .finalizing → rejectDisc r why p = resets bound) ∧
        (st = .writing → rejectDisc r why p = resets (leaveStream b bound)) ∧
        (st = .readingBack → rejectDisc r why p = resets (bound.setContext b none)) ∧
        (st = .attaching → rejectDisc r why p = { bound.setBay b ((p.bay b).enter .holding) with
          streamReqs := p.streamReqs.filter (·.bay != b) }) ∧
        (st.abortable = false → rejectDisc r why p = bound)))) ∧
  (∀ (d : Disc) (st : Stage),
    (d.stage = .delivered ∨ d.stage = .rejected →
      d.atStage st = if st.active then d else { d with stage := st }) ∧
    (d.stage = .rejectBound →
      d.atStage st = if st.active then d else { d with stage := st }) ∧
    (d.stage.active = true → d.stage ≠ .rejectBound → d.atStage st = { d with stage := st }))

/-- ROUTE, MARK, REMOVE and RETIRE DISC (R15, R18 to R20, R75, R159): a number above 23 is OUT_OF_RANGE, a free
record NOT_FOUND. A disc in HOST_HOLD is routed to OUTPUT, or rejected HOST_REJECT, with an eligible order
at ARM, at PRINTER and in a PRESENTING bay; in another stage it is BAD_STATE. An active disc not yet
rejected is marked; a final record is freed; otherwise these are BAD_STATE. REMOVE DISC, in HOST_HOLD, in a
FAULTED bay, on a tray not PRINTING that no move is about to leave, or at ARM in PAUSED and HALTED, rejects
the disc REMOVED and finalises it; its place is empty, its move is discarded, and the owner of the place
acts; of any other active disc it is BUSY, of a final one BAD_STATE; it raises DISC_REJECTED for a disc not
yet rejected, SPINDLE_EMPTY for the spindle's last blank, BAY_FAULT for a bay due for quarantine, and what
its job's end raises. The model's choices: a RESETTING bay whose HOST_HOLD disc is removed stays RESETTING
(log 39, DESIGN CHOICE); the removal of a disc being moved discards the move, releases its destination and
counts the blank (log 33, DEDUCED); a disc REMOVED leaves the label unit's lists and its reservation is
released (log 28, DEDUCED); the order of the refusals (log 31, DEDUCED). -/
def Obligations.DiscRequests : Prop :=
  ∀ (s : State) (tag disc dest : Byte), s.takes →
    let ans := fun (code : Byte) (st : Status) (q : Part) =>
      Host.Outcome.next (s.replied code tag { status := st, body := [] } q)
    let all := fun (st : Status) =>
      (dest.toNat ≤ 1 → exec (.routeDisc tag disc dest) s = ans 0x43 st s.part.fresh) ∧
        exec (.markDisc tag disc) s = ans 0x44 st s.part.fresh ∧
        exec (.removeDisc tag disc) s = ans 0x45 st s.part.fresh ∧
        exec (.retireDisc tag disc) s = ans 0x46 st s.part.fresh ∧
        exec (.lookUpDisc tag disc) s = ans 0x40 st s.part.fresh
    (23 < disc.toNat → all .outOfRange) ∧
    (1 < dest.toNat → exec (.routeDisc tag disc dest) s = ans 0x43 .outOfRange s.part.fresh) ∧
    (∀ r : Fin 24, disc.toNat = r.val → s.part.disc r = none → all .notFound) ∧
    (∀ (r : Fin 24) (d : Disc), disc.toNat = r.val → s.part.disc r = some d →
      let order := some (match d.eligible with | some k => k | none => nextRank s.part.eligibleRanks)
      (d.stage = .hostHold → dest = 0 → d.place = some .arm ∨ d.place = some .printer →
        exec (.routeDisc tag disc dest) s =
          ans 0x43 .ok (settle (s.part.fresh.setDisc r (some { d with
            stage := .outbound, eligible := order })))) ∧
      (∀ b, d.stage = .hostHold → dest = 0 → d.place = some (.bay b) →
        exec (.routeDisc tag disc dest) s =
          ans 0x43 .ok (settle (s.part.fresh.setDisc r (some { d with
            stage := .outbound
            eligible := if (s.part.bay b).state = .presenting then order else d.eligible })))) ∧
      (d.stage = .hostHold → dest = 1 → d.place = some .arm ∨ d.place = some .printer →
        exec (.routeDisc tag disc dest) s = ans 0x43 .ok (settle (giveOrder r
          (rejectDisc r .hostReject s.part.fresh)))) ∧
      (∀ b, d.stage = .hostHold → dest = 1 → d.place = some (.bay b) →
        let q := rejectDisc r .hostReject s.part.fresh
        exec (.routeDisc tag disc dest) s = ans 0x43 .ok (settle
          (if (q.bay b).state = .presenting then giveOrder r q else q))) ∧
      (d.stage ≠ .hostHold → dest.toNat ≤ 1 →
        exec (.routeDisc tag disc dest) s = ans 0x43 .badState s.part.fresh) ∧
      (d.stage.active = true → d.verdict ≠ .reject →
        exec (.markDisc tag disc) s = ans 0x44 .ok (settle (rejectDisc r .hostReject s.part.fresh))) ∧
      (d.stage.active = false ∨ d.verdict = .reject →
        exec (.markDisc tag disc) s = ans 0x44 .badState s.part.fresh) ∧
      (d.stage.active = false → exec (.retireDisc tag disc) s = ans 0x46 .ok (settle
        { s.part.fresh.setDisc r none with
          heldSpell := if 2 ≤ (s.part.fresh.setDisc r none).freeCount then false else s.part.heldSpell }) ∧
        exec (.removeDisc tag disc) s = ans 0x45 .badState s.part.fresh) ∧
      (d.stage.active = true → exec (.retireDisc tag disc) s = ans 0x46 .badState s.part.fresh) ∧
      (∀ pl, d.stage.active = true → d.place = some pl →
        let mine := s.part.arm.move.any fun m => m.record == r
        let leaving := s.part.arm.move.any fun m => m.record == r && m.source == .place .printer && !m.gripped
        let allowed :=
          (∃ b, pl = .bay b ∧ (d.stage = .hostHold ∨ (s.part.bay b).state = .faulted)) ∨
          pl = .arm ∧ (d.stage = .hostHold ∨ s.part.tower.state = .paused ∨ s.part.tower.state = .halted) ∨
          pl = .printer ∧ (d.stage = .hostHold ∨ s.part.station.state ≠ .printing) ∧ leaving = false
        (¬ allowed → exec (.removeDisc tag disc) s = ans 0x45 .busy s.part.fresh) ∧
        (allowed → (mine = true → r ∉ s.part.inkWait ∧ r ∉ s.part.printQueue) →
          let u := leaveLabelUnit r s.part
          let told := fun p : Part => match d.job with | some x => jobRejected x false p | none => p
          let retire := s.part.tower.autoRetire
          let picked := fun sp => s.part.arm.move.any fun m => m.record == r && m.source == .spindle sp
          ∃ q, exec (.removeDisc tag disc) s = ans 0x45 .ok (settle q) ∧
            s.part.fresh.Changes [.discs, .places, .attn, .jobs, .ink, .inkWait, .printQueue, .heldSpell, .arm,
              .bays, .station, .spindleA, .spindleB, .sent] q ∧
            q.disc r = (if retire then none else some { d with
              stage := .rejected, verdict := .reject, reason := some .removed, place := none
              eligible := none, reservation := none }) ∧
            OthersKept u.disc q.disc r ∧
            q.heldSpell = (if retire = true ∧ 2 ≤ q.freeCount then false else s.part.heldSpell) ∧
            q.jobs = (told u).jobs ∧ q.ink = u.ink ∧ q.inkWait = u.inkWait ∧ q.printQueue = u.printQueue ∧
            (let raised := if d.verdict = .reject then s.part.attn else s.part.attn.raise .discRejected s.part.now
             let lastBlank := s.part.arm.move.all (!·.gripped) && [SpindleId.a, .b].any fun sp =>
                picked sp && !(s.part.spindle sp).empty && decide ((s.part.spindle sp).count ≤ 1)
             let emptied := if lastBlank then raised.raise .spindleEmpty s.part.now else raised
             let jobs := (told { u with attn := emptied }).attn
             q.attn = if ∃ b, pl = .bay b ∧ (s.part.bay b).state = .presenting ∧
                  (s.part.bay b).consecutiveFailures = 3
                then jobs.raise .bayFault s.part.now else jobs) ∧
            q.occupant pl = none ∧ (∀ ql, ql ≠ pl → q.occupant ql = s.part.occupant ql) ∧
            q.arm = { s.part.arm with move := if mine then none else s.part.arm.move } ∧
            (∀ sp, q.spindle sp = if picked sp = true ∧ s.part.arm.move.all (!·.gripped) = true then
                { s.part.spindle sp with
                  count := (s.part.spindle sp).count - 1
                  empty := (s.part.spindle sp).empty || decide ((s.part.spindle sp).count ≤ 1) }
              else s.part.spindle sp) ∧
            ((∀ sp, picked sp = false) → ∀ b, q.bay b =
              if pl ≠ .bay b then s.part.bay b
              else if (s.part.bay b).state = .presenting then (s.part.bay b).emptied
              else if (s.part.bay b).state = .holding then (s.part.bay b).ejecting s.part.now
              else s.part.bay b) ∧
            (∀ m sp, s.part.arm.move = some m → m.record = r → m.source = .spindle sp → pl = .arm →
              ∀ b, q.bay b = if m.kind = .pick ∧ m.dest = .bay b ∧ (s.part.bay b).state = .expecting then
                  (if (s.part.bay b).disablePending then (s.part.bay b).enter .offline
                    else (s.part.bay b).enter .open_)
                else s.part.bay b) ∧
            q.station = (if pl = .printer then { s.part.station with
                state := .empty, faultCause := none
                queryDeadline := if s.part.station.queryDeadline.isSome then s.part.station.queryDeadline
                  else some (s.part.now + 5000) }
              else s.part.station) ∧
            q.sent = (match pl with
              | .bay b => if (s.part.bay b).state = .holding then [.drive b .eject] else []
              | .printer => if s.part.station.queryDeadline.isSome then [] else [.query]
              | .arm => []))))

/-! ## Bays, media, images -/

/-- ENABLE, DISABLE BAY and CLEAR BAY FAULT (R64, R81 to R83): a bay number above 11 is OUT_OF_RANGE, one
not installed NOT_FOUND; an OFFLINE bay is enabled and reset; a bay whose disabling is pending keeps its
service; an OPEN or empty FAULTED bay goes OFFLINE, another is marked; a FAULTED bay is reset. LOOK UP BAY
answers the record and changes nothing. A RESET follows ABORT where an operation is in flight, and pays the
RESET the bay owes the sweep (R66; log 50, DESIGN CHOICE). LOOK UP BAY's body holds the bay's fields in the
order of R84. How the fields of LOOK UP BAY's reply follow each other is the model's reading (log 8,
DEDUCED). -/
def Obligations.BayRequests : Prop :=
  (∀ (s : State) (tag bay : Byte), s.takes →
    let ans := fun (code : Byte) (st : Status) (q : Part) =>
      Host.Outcome.next (s.replied code tag { status := st, body := [] } q)
    let all := fun (st : Status) =>
      exec (.lookUpBay tag bay) s = ans 0x50 st s.part.fresh ∧
        exec (.enableBay tag bay) s = ans 0x51 st s.part.fresh ∧
        exec (.disableBay tag bay) s = ans 0x52 st s.part.fresh ∧
        exec (.clearBayFault tag bay) s = ans 0x53 st s.part.fresh
    (11 < bay.toNat → all .outOfRange) ∧
    (∀ b : Fin 12, bay.toNat = b.val → s.part.tower.installed ≤ b.val → all .notFound) ∧
    (∀ b : Fin 12, bay.toNat = b.val → b.val < s.part.tower.installed →
      let x := s.part.bay b
      let set := fun y : Bay => settle (s.part.fresh.setBay b y)
      let resets := fun y : Bay => settle
        { s.part.setBay b { (y.enter .resetting).driven .reset (s.part.now + 30000) with
            recovering := true, service := true } with
          sent := (if x.operation.isSome = true then [.drive b .abort] else []) ++ [.drive b .reset]
          tower := { s.part.tower with sweep := s.part.tower.sweep.map fun w => { w with
            resetOwed := w.resetOwed.set b.val false } } }
      exec (.lookUpBay tag bay) s = .next (s.replied 0x50 tag
        { status := .ok, body := s.part.bayBody b } s.part.fresh) ∧
      (x.state = .offline →
        exec (.enableBay tag bay) s = ans 0x51 .accepted (resets { x with enabled := true })) ∧
      (x.state ≠ .offline → x.disablePending = true →
        exec (.enableBay tag bay) s = ans 0x51 .ok (set { x with disablePending := false })) ∧
      (x.state ≠ .offline → x.disablePending = false →
        exec (.enableBay tag bay) s = ans 0x51 .badState s.part.fresh) ∧
      (x.state = .offline → exec (.disableBay tag bay) s = ans 0x52 .badState s.part.fresh) ∧
      (x.state = .open_ ∨ x.state = .faulted ∧ s.part.occupant (.bay b) = none →
        exec (.disableBay tag bay) s = ans 0x52 .ok (set { x with
          state := .offline, recovering := false, enabled := false, disablePending := false
          faultCause := none })) ∧
      (x.state ≠ .offline → x.state ≠ .open_ →
        x.state ≠ .faulted ∨ (s.part.occupant (.bay b)).isSome = true →
        exec (.disableBay tag bay) s = ans 0x52 .ok (set { x with disablePending := true })) ∧
      (x.state = .faulted →
        exec (.clearBayFault tag bay) s = ans 0x53 .accepted (resets x)) ∧
      (x.state ≠ .faulted → exec (.clearBayFault tag bay) s = ans 0x53 .badState s.part.fresh))) ∧
  (∀ (p : Part) (b : Fin 12), p.bayBody b =
    u8 (p.bay b).state.code ++ flagByte (decide (b.val < p.tower.installed)) ++ flagByte (p.bay b).enabled ++
      flagByte (p.bay b).disablePending ++ opt8 (p.bay b).supportA ++ opt8 (p.bay b).supportB ++
      opt8 ((p.occupant (.bay b)).map fun r => r.val) ++ opt8 ((p.bay b).operation.map fun o => o.code) ++
      flagByte (p.bay b).recovering ++ u8 (p.bay b).consecutiveFailures ++ u16 (p.bay b).loads ++
      u16 (p.bay b).goods ++ u16 (p.bay b).failures ++ opt8 ((p.bay b).channel.map fun c => c.val) ++
      opt8 ((p.bay b).faultCause.map fun f => f.code))

/-- An entry matches a media code by its mode (R87): MAKER on the maker word alone, whatever the type word;
EXACT on both words; MASKED on the maker word and the type word under the mask. The first matching entry in
ascending number decides a media code, with its verdict and its cap; with none the default verdict and the
default cap apply (R88). How an entry learns (R93): the totals rise, saturating; the list keeps the last
16; a FAIL with 3 or more among them lowers the cap, not below 1, and empties the list; 16 GOODs raise it,
not above the ceiling, and empty the list. An outcome goes to the entry the record names, when that number
is defined (R92, R95): to one since redefined as REFUSE too, whose cap may then move (the model's choice
between R86 and R92, log 40). -/
def Obligations.MediaTable : Prop :=
  (∀ (e : MediaEntry) (maker type : Word16),
    (e.mode = .maker → (e.hits maker type = true ↔ maker = e.maker)) ∧
    (∀ t, e.mode = .exact → e.type = some t → (e.hits maker type = true ↔ maker = e.maker ∧ type = t)) ∧
    (∀ t m, e.mode = .masked → e.type = some t → e.mask = some m →
      (e.hits maker type = true ↔ maker = e.maker ∧ type &&& m = t &&& m))) ∧
  (∀ (p : Part) (maker type : Word16),
    (∀ e, p.decidingEntry maker type = some e ↔
      (∃ x, p.entry e = some x ∧ x.hits maker type = true) ∧
        ∀ f, f < e → ∀ x, p.entry f = some x → x.hits maker type = false) ∧
    (p.decidingEntry maker type = none ↔ ∀ f x, p.entry f = some x → x.hits maker type = false) ∧
    (∀ e x, p.entry e = some x → p.mediaVerdict (some e) = x.verdict ∧ p.mediaCap (some e) = x.cap) ∧
    p.mediaVerdict none = p.defaultVerdict ∧ p.mediaCap none = p.defaultCap) ∧
  ((∀ (e : MediaEntry) (o : RecOutcome), e.recent.length ≤ 16 →
    let kept := (e.recent ++ [o]).drop (e.recent.length + 1 - 16)
    let counted := { e with
      burns := min 65535 (e.burns + 1)
      fails := if o = RecOutcome.fail then min 65535 (e.fails + 1) else min 65535 e.fails }
    let isBad := o = RecOutcome.fail ∧ 3 ≤ kept.count RecOutcome.fail
    let isGood := kept = List.replicate 16 RecOutcome.good
    e.learn o =
      if isBad then { counted with cap := max 1 (e.cap - 1), recent := [] }
      else if isGood then { counted with cap := min e.ceiling (e.cap + 1), recent := [] }
      else { counted with recent := kept }) ∧
  (∀ (p : Part) (r : Fin 24) (d : Disc) (m : DiscMedia) (o : RecOutcome), p.disc r = some d →
    d.media = some m →
    (∀ e x, m.entry = some e → p.entry e = some x →
      handOutcome r o p = p.setEntry e (some (x.learn o))) ∧
    (∀ e, m.entry = some e → p.entry e = none → handOutcome r o p = p) ∧
    (m.entry = none → handOutcome r o p = p)))

/-- SET MEDIA ENTRY sets its entry whole, with *type* and *mask* by the mode, the ceiling clamped to 1-16 and
the cap at the ceiling; CLEAR MEDIA ENTRY makes a defined entry undefined; SET DEFAULT MEDIA stores verdict
and cap; LOOK UP MEDIA ENTRY answers the entry, or the defaults, and changes nothing (R86, R94 to R97).
LOOK UP MEDIA ENTRY's body holds the entry's fields in the order of R97. How the fields of LOOK UP MEDIA
ENTRY's reply follow each other is the model's reading (log 8, DEDUCED). -/
def Obligations.MediaRequests : Prop :=
  (∀ (s : State) (tag : Byte), s.takes →
    let ans := fun (code : Byte) (a : Answer) (q : Part) => Host.Outcome.next (s.replied code tag a q)
    let used := fun (sent now : Nat) => if now = sent then ({ status := .ok, body := [] } : Answer)
      else { status := .clamped, body := [BitVec.ofNat 8 now] }
    (∀ (f : MediaFields) (m : MatchMode) (v : MediaVerdict) (e : Fin 16), matchModeOf f.mode = some m →
      mediaVerdictOf f.verdict = some v → f.entry.toNat = e.val →
      exec (.setMediaEntry tag f) s = ans 0x60 (used f.ceiling.toNat (clamp 1 16 f.ceiling.toNat))
        (s.part.fresh.setEntry e (some
          { mode := m, maker := f.maker, type := if m = .maker then none else some f.type
            mask := if m = .masked then some f.mask else none, verdict := v
            ceiling := clamp 1 16 f.ceiling.toNat, cap := clamp 1 16 f.ceiling.toNat, recent := []
            burns := 0, fails := 0 }))) ∧
    (∀ f : MediaFields, 2 < f.mode.toNat ∨ 1 < f.verdict.toNat ∨ 15 < f.entry.toNat →
      exec (.setMediaEntry tag f) s = ans 0x60 { status := .outOfRange, body := [] } s.part.fresh) ∧
    (∀ (entry : Byte) (e : Fin 16), entry.toNat = e.val → (s.part.entry e).isSome = true →
      exec (.clearMediaEntry tag entry) s =
        ans 0x61 { status := .ok, body := [] } (s.part.fresh.setEntry e none)) ∧
    (∀ (entry : Byte) (e : Fin 16), entry.toNat = e.val → s.part.entry e = none →
      exec (.clearMediaEntry tag entry) s = ans 0x61 { status := .notFound, body := [] } s.part.fresh ∧
      exec (.lookUpMediaEntry tag entry) s = ans 0x63 { status := .notFound, body := [] } s.part.fresh) ∧
    (∀ (verdict cap : Byte) (v : MediaVerdict), mediaVerdictOf verdict = some v →
      exec (.setDefaultMedia tag verdict cap) s = ans 0x62 (used cap.toNat (clamp 1 16 cap.toNat))
        { s.part.fresh with defaultVerdict := v, defaultCap := clamp 1 16 cap.toNat }) ∧
    (∀ kind cap : Byte, 1 < kind.toNat →
      exec (.setDefaultMedia tag kind cap) s =
        ans 0x62 { status := .outOfRange, body := [] } s.part.fresh) ∧
    (∀ (entry : Byte) (e : Fin 16) (x : MediaEntry), entry.toNat = e.val → s.part.entry e = some x →
      exec (.lookUpMediaEntry tag entry) s =
        ans 0x63 { status := .ok, body := entryBody x } s.part.fresh) ∧
    exec (.lookUpMediaEntry tag 0xFF) s = ans 0x63
      { status := .ok, body := [BitVec.ofNat 8 s.part.defaultVerdict.code,
          BitVec.ofNat 8 s.part.defaultCap] } s.part.fresh) ∧
  (∀ x : MediaEntry, entryBody x =
    u8 x.mode.code ++ u16 x.maker.toNat ++ opt16 (x.type.map fun w => w.toNat) ++
      opt16 (x.mask.map fun w => w.toNat) ++ u8 x.verdict.code ++ u8 x.ceiling ++ u8 x.cap ++
      (u8 x.recent.length ++ x.recent.flatMap fun o => u8 o.code) ++ u16 x.burns ++ u16 x.fails)

/-- REGISTER IMAGE (R98 to R102): the lowest EMPTY record takes the address, the count and the class, with its
chunks, its segments, and the lowest free pages in ascending order; 0 blocks, blocks above the class limit
and an end above the store's last block are OUT_OF_RANGE; no EMPTY record or too few free pages is NO_ROOM.
SURVEY IMAGE in REGISTERED, READY and FAULTED, with the image's data not in use, puts the image at the tail
of the survey ranking, its reference invalid; RETIRE IMAGE with no job attached frees the record, its place
in the ranking and its channel; LOOK UP IMAGE answers the record and changes nothing; the refusals of R98,
R104 and R112. LOOK UP IMAGE's body holds the image's fields in the order of R113, with up to 64 pages from
the start. How the fields of LOOK UP IMAGE's reply follow each other is the model's reading (log 8,
DEDUCED). -/
def Obligations.ImageRequests : Prop :=
  (∀ (s : State) (tag : Byte) (address blocks : Word32) (cls : Byte), s.takes →
    let no := fun st : Status =>
      Host.Outcome.next (s.replied 0x20 tag { status := st, body := [] } s.part.fresh)
    let limit := fun c : DiscClass => if c = .a then 360000 else 2290000
    (1 < cls.toNat → exec (.registerImage tag address blocks cls) s = no .outOfRange) ∧
    (∀ c, classOf cls = some c →
      blocks.toNat = 0 ∨ limit c < blocks.toNat ∨ 4294967296 < address.toNat + blocks.toNat →
      exec (.registerImage tag address blocks cls) s = no .outOfRange) ∧
    (∀ c, classOf cls = some c → 0 < blocks.toNat → blocks.toNat ≤ limit c →
      address.toNat + blocks.toNat ≤ 4294967296 →
      let segments := (blocks.toNat + 255) / 256
      let need := (segments + 63) / 64
      ((∀ i, (s.part.image i).isSome = true) →
        exec (.registerImage tag address blocks cls) s = no .noRoom) ∧
      (∀ i, s.part.image i = none → (∀ k, k < i → (s.part.image k).isSome = true) →
        (s.part.freePages.length < need →
          exec (.registerImage tag address blocks cls) s = no .noRoom) ∧
        (need ≤ s.part.freePages.length →
          exec (.registerImage tag address blocks cls) s = .next (s.replied 0x20 tag
            { status := .ok, body := u8 i.val ++ u16 segments ++ u8 need }
            (s.part.fresh.setImage i (some
              { state := .registered, storeAddress := address.toNat, blocks := blocks.toNat, cls := c
                chunks := (blocks.toNat + 31) / 32, segments := segments
                pages := s.part.freePages.take need, attachCount := 0, surveyProgress := 0
                referenceValid := false, surveyChannel := none, fault := none })))))) ∧
    (∀ g : Nat, g ∈ s.part.freePages ↔ g < 1024 ∧ ∀ i x, s.part.image i = some x → g ∉ x.pages)) ∧
  (∀ (s : State) (tag image start : Byte), s.takes →
    let ans := fun (code : Byte) (st : Status) (q : Part) =>
      Host.Outcome.next (s.replied code tag { status := st, body := [] } q)
    let all := fun (st : Status) =>
      exec (.surveyImage tag image) s = ans 0x21 st s.part.fresh ∧
        exec (.lookUpImage tag image start) s = ans 0x22 st s.part.fresh ∧
        exec (.retireImage tag image) s = ans 0x23 st s.part.fresh
    (31 < image.toNat → all .outOfRange) ∧
    (∀ i : Fin 32, image.toNat = i.val → s.part.image i = none → all .notFound) ∧
    (∀ (i : Fin 32) (x : Image), image.toNat = i.val → s.part.image i = some x →
      (x.state = .registered ∨ x.state = .faulted → s.part.imageInUse i = false →
        exec (.surveyImage tag image) s = ans 0x21 .accepted (settle
          { s.part.fresh.setImage i (some { x with
              state := .surveyWaiting, referenceValid := false, fault := none }) with
            surveyQueue := s.part.surveyQueue ++ [i] })) ∧
      (x.state = .ready → s.part.imageInUse i = false →
        exec (.surveyImage tag image) s = ans 0x21 .accepted (settle
          (changeImageHolds i (fun h => { h with imageNotReady := true })
            { s.part.fresh.setImage i (some { x with
                state := .surveyWaiting, referenceValid := false, fault := none }) with
              surveyQueue := s.part.surveyQueue ++ [i] }))) ∧
      (x.state = .registered ∨ x.state = .ready ∨ x.state = .faulted → s.part.imageInUse i = true →
        exec (.surveyImage tag image) s = ans 0x21 .busy s.part.fresh) ∧
      (x.state = .surveyWaiting ∨ x.state = .surveying →
        exec (.surveyImage tag image) s = ans 0x21 .badState s.part.fresh) ∧
      (0 < x.attachCount → exec (.retireImage tag image) s = ans 0x23 .inUse s.part.fresh) ∧
      (x.attachCount = 0 → x.surveyChannel = none →
        exec (.retireImage tag image) s = ans 0x23 .ok (settle
          { s.part.fresh.setImage i none with surveyQueue := s.part.surveyQueue.filter (· != i) })) ∧
      (∀ c, x.attachCount = 0 → x.surveyChannel = some c →
        exec (.retireImage tag image) s = ans 0x23 .ok (settle
          { (s.part.fresh.setImage i none).setChannel c .free with
            surveyQueue := s.part.surveyQueue.filter (· != i)
            splitReqs := s.part.splitReqs.filter (· != c) })) ∧
      exec (.lookUpImage tag image start) s = .next (s.replied 0x22 tag
        { status := .ok, body := imageBody x (if start = 0xFF then 0 else start.toNat) } s.part.fresh)) ∧
    (∀ i, s.part.imageInUse i = true ↔
      (∃ c st, s.part.stream c = some st ∧ st.image = i) ∨
        ∃ b c, s.part.context b = some c ∧ c.image = i ∧ c.awaitingReference = false)) ∧
  (∀ (x : Image) (start : Nat), imageBody x start =
    u8 x.state.code ++ u32 x.storeAddress ++ u32 x.blocks ++ u8 (classCode x.cls) ++ u32 x.chunks ++
      u16 x.segments ++ u8 x.pages.length ++ u8 x.attachCount ++ u16 x.surveyProgress ++
      flagByte x.referenceValid ++ opt8 (x.surveyChannel.map fun c => c.val) ++
      (match x.fault with | some f => u8 f.origin.code ++ u32 f.chunk | none => opt8 none ++ opt32 none) ++
      (u8 (min 64 (x.pages.length - start)) ++ ((x.pages.drop start).take 64).flatMap u16))

/-! ## The label unit -/

/-- The ink a label needs (R149) and the labels the ink on hand covers (R160): the area, the base need and the
trimmed need of a channel are rounded as the spec gives, and the forecast is the least count over the
channels the template uses, at most 65535. -/
def Obligations.InkArithmetic : Prop :=
  (∀ (t : Template) (k : Fin 4) (trim : Int), -31 ≤ trim → trim ≤ 31 →
    let area := 355 * (t.outer ^ 2 - t.inner ^ 2) / 452
    let dose := match t.quality with | .draft => 300 | .normal => 450 | .fine => 600
    let base := (area * t.coverage[k] * dose + 99999) / 100000
    t.area = area ∧ t.need k trim = (base * (200 + trim).toNat + 199) / 200) ∧
  (∀ (p : Part) (t : Template),
    let free := fun k => ((p.inkChannel k).level : Int) - (p.inkChannel k).reserved - (p.inkChannel k).floor
    (p.admits t = true ↔ ∀ k, 0 < p.need t k → (p.need t k : Int) ≤ free k) ∧
    p.forecast t ≤ 65535 ∧
    (∀ k, 0 < p.need t k → (p.forecast t * p.need t k : Int) ≤ max 0 (free k)) ∧
    (p.forecast t = 65535 ∨
      ∃ k, 0 < p.need t k ∧ max 0 (free k) < ((p.forecast t + 1) * p.need t k : Int)))

/-- Ink for the labels (R24, R148, R150 to R153, R160; log 32): one attempt of a waiting disc reserves the
needs of its job's template when every channel the template uses admits them, and puts the disc from the
ink-wait list at the tail of the print queue; a retry pass makes one attempt for each disc, the oldest
first, and runs at each release of a reservation; a disc entering the label unit waits at the tail, makes
one attempt, and failing it goes out UNLABELLED or holds its job with INK_SHORT, by the job's ink policy. A
RUNNING job whose forecast falls below its remaining labels joins the short set, with INK_SHORT, and leaves
it when the forecast suffices. -/
def Obligations.InkWaiting : Prop :=
  (∀ (p : Part) (r : Fin 24) (d : Disc) (x : Fin 16) (j : Job) (n : Fin 8) (t : Template),
    p.disc r = some d → d.job = some x → p.job x = some j → j.template = some n → p.template n = some t →
    (p.admits t = false → attemptReservation r p = p) ∧
    (p.admits t = true → ∃ q, attemptReservation r p = q ∧
      p.Changes [.ink, .discs, .inkWait, .jobs, .printQueue] q ∧
      (∀ k, q.inkChannel k = { p.inkChannel k with
        reserved := (p.inkChannel k).reserved + p.need t k }) ∧
      q.disc r = some ({ d with reservation := some (p.needs t) }.atStage .printQueued) ∧
      OthersKept p.disc q.disc r ∧ q.inkWait = p.inkWait.filter (· != r) ∧
      q.printQueue = p.printQueue ++ [r] ∧
      q.jobs = (if r ∈ p.inkWait then testInkHold x { p with inkWait := p.inkWait.filter (· != r) } else p).jobs) ∧
    (d.stage.active = true → d.stage ≠ .rejectBound →
      let w := { p.setDisc r (some { d with stage := .awaitInk }) with inkWait := p.inkWait ++ [r] }
      (p.admits t = true → enterLabelUnit r p = attemptReservation r w) ∧
      (p.admits t = false → j.inkPolicy = some .wait → enterLabelUnit r p =
        { changeHolds x (fun h => { h with ink := true }) w with attn := p.attn.raise .inkShort p.now }) ∧
      (p.admits t = false → j.inkPolicy = some .unlabelled → enterLabelUnit r p =
        (testInkHold x { w with inkWait := p.inkWait.filter (· != r) }).setDisc r (some { d with
          unlabelled := true, stage := .outbound })))) ∧
  (∀ p : Part, retryPass p = p.inkWait.foldl (fun p r => attemptReservation r p) p) ∧
  (∀ (p : Part) (r : Fin 24) (d : Disc), p.disc r = some d →
    (d.reservation = none → release r p = p) ∧
    (∀ held, d.reservation = some held → release r p = retryPass
      { p.setDisc r (some { d with reservation := none }) with
        ink := Vector.ofFn fun k => { p.inkChannel k with
          reserved := (p.inkChannel k).reserved - held[k] } }) ∧
    (r ∉ p.inkWait → leaveLabelUnit r p = release r { p with printQueue := p.printQueue.filter (· != r) }) ∧
    (∀ x, r ∈ p.inkWait → d.job = some x → leaveLabelUnit r p = release r (testInkHold x { p with
      inkWait := p.inkWait.filter (· != r), printQueue := p.printQueue.filter (· != r) }))) ∧
  (∀ (p : Part) (x : Fin 16),
    ((∃ r ∈ p.inkWait, (p.disc r).bind (·.job) = some x) → testInkHold x p = p) ∧
    ((∀ r ∈ p.inkWait, (p.disc r).bind (·.job) ≠ some x) →
      testInkHold x p = changeHolds x (fun h => { h with ink := false }) p)) ∧
  (∀ (p : Part) (x : Fin 16) (j : Job), p.job x = some j →
    (j.state ≠ .running → forecastJob x p = p) ∧
    (∀ n t, j.state = .running → j.template = some n → p.template n = some t →
      let left := j.ordered - j.delivered
      (x ∉ p.shortSet → p.forecast t < left → forecastJob x p = { p with
        shortSet := p.shortSet ++ [x], attn := p.attn.raise .inkShort p.now }) ∧
      (x ∈ p.shortSet → left ≤ p.forecast t →
        forecastJob x p = { p with shortSet := p.shortSet.filter (· != x) }) ∧
      ((x ∈ p.shortSet ↔ p.forecast t < left) → forecastJob x p = p)))

/-- DEFINE TEMPLATE stores its fields, each moved to the nearest limit of its range, unless a job uses the
template; LOOK UP TEMPLATE answers the fields, the users, the area, the needs and the forecast (R147, R149,
R160). CARTRIDGE INSTALLED sets a channel's level, clamped, but not while the station is PRINTING; SET INK
CHANNEL sets the carried floor, drop volume and trim, clamped; each raises INK_LOW when the channel became
low, and a retry pass runs at once after a cartridge and after a change of floor or trim (R148, R152, R161;
log 32). LOOK UP INK answers the channels, the station and the lists, with the needs and the forecast of a
carried template, or of a carried job's, and changes nothing (R162). A job carried beside a template is not
looked at (log 19, DESIGN CHOICE); FFh is a job left out, and 00h a job named, which is refused (log 49,
DEDUCED); the bodies of CLAMPED replies are the values used (log 9, DEDUCED). LOOK UP INK's body holds the
four channels with every field of R148, the station, and the two lists, oldest first (R162); SET INK
CHANNEL's CLAMPED body holds the values used for the carried fields (log 9, DEDUCED). How the fields of the
lookups' replies follow each other is the model's reading (log 8, DEDUCED). -/
def Obligations.LabelUnitRequests : Prop :=
  (∀ (s : State) (tag : Byte), s.takes →
    let ans := fun (code : Byte) (a : Answer) (q : Part) => Host.Outcome.next (s.replied code tag a q)
    let no := fun st : Status => ({ status := st, body := [] } : Answer)
    (∀ (f : TemplateFields) (t : Fin 8) (q : Quality), f.template.toNat = t.val →
      qualityOf f.quality = some q →
      let x : Template :=
        { inner := clamp 15 50 f.inner.toNat, outer := clamp 60 120 f.outer.toNat, quality := q
          coverage := #v[min 1000 f.covK.toNat, min 1000 f.covC.toNat, min 1000 f.covM.toNat,
            min 1000 f.covY.toNat], users := 0 }
      let inRange := 15 ≤ f.inner.toNat ∧ f.inner.toNat ≤ 50 ∧ 60 ≤ f.outer.toNat ∧ f.outer.toNat ≤ 120 ∧
        f.covK.toNat ≤ 1000 ∧ f.covC.toNat ≤ 1000 ∧ f.covM.toNat ≤ 1000 ∧ f.covY.toNat ≤ 1000
      ((∃ y, s.part.template t = some y ∧ 0 < y.users) →
        exec (.defineTemplate tag f) s = ans 0x70 (no .inUse) s.part.fresh) ∧
      ((∀ y, s.part.template t = some y → y.users = 0) → inRange →
        exec (.defineTemplate tag f) s = ans 0x70 (no .ok) (s.part.fresh.setTemplate t (some x))) ∧
      ((∀ y, s.part.template t = some y → y.users = 0) → ¬ inRange →
        exec (.defineTemplate tag f) s = ans 0x70 { status := .clamped, body := templateValues x }
          (s.part.fresh.setTemplate t (some x)))) ∧
    (∀ f : TemplateFields, 7 < f.template.toNat ∨ 2 < f.quality.toNat →
      exec (.defineTemplate tag f) s = ans 0x70 (no .outOfRange) s.part.fresh) ∧
    (∀ n : Byte, 7 < n.toNat →
      exec (.lookUpTemplate tag n) s = ans 0x71 (no .outOfRange) s.part.fresh) ∧
    (∀ (n : Byte) (t : Fin 8), n.toNat = t.val →
      (s.part.template t = none →
        exec (.lookUpTemplate tag n) s = ans 0x71 (no .notFound) s.part.fresh) ∧
      (∀ x, s.part.template t = some x → exec (.lookUpTemplate tag n) s = ans 0x71
        { status := .ok
          body := templateValues x ++ u32 x.users ++ u16 x.area ++ u32 (s.part.need x 0) ++
            u32 (s.part.need x 1) ++ u32 (s.part.need x 2) ++ u32 (s.part.need x 3) ++
            u16 (s.part.forecast x) } s.part.fresh))) ∧
  (∀ (s : State) (tag : Byte), s.takes →
    let ans := fun (code : Byte) (a : Answer) (q : Part) => Host.Outcome.next (s.replied code tag a q)
    let no := fun st : Status => ({ status := st, body := [] } : Answer)
    let needs := fun x : Template => u32 (s.part.need x 0) ++ u32 (s.part.need x 1) ++
      u32 (s.part.need x 2) ++ u32 (s.part.need x 3) ++ u16 (s.part.forecast x)
    let put := fun (k : Fin 4) (x : InkChannel) => { s.part.fresh.setInk k x with
      attn := if x.level < x.floor ∧ (s.part.inkChannel k).floor ≤ (s.part.inkChannel k).level then
        s.part.attn.raise .inkLow s.part.now else s.part.attn }
    (∀ (channel : Byte) (level : Word32) (floor : Option Word32) (drop trim : Option Byte),
      3 < channel.toNat →
      exec (.cartridgeInstalled tag channel level) s = ans 0x72 (no .outOfRange) s.part.fresh ∧
        exec (.setInkChannel tag channel floor drop trim) s =
          ans 0x73 (no .outOfRange) s.part.fresh) ∧
    (∀ (channel : Byte) (k : Fin 4) (level : Word32), channel.toNat = k.val →
      (s.part.station.state = .printing →
        exec (.cartridgeInstalled tag channel level) s = ans 0x72 (no .busy) s.part.fresh) ∧
      (s.part.station.state ≠ .printing → level.toNat ≤ 60000000 →
        exec (.cartridgeInstalled tag channel level) s =
          ans 0x72 (no .ok) (settle (retryPass (put k { s.part.inkChannel k with level := level.toNat })))) ∧
      (s.part.station.state ≠ .printing → 60000000 < level.toNat →
        exec (.cartridgeInstalled tag channel level) s =
          ans 0x72 { status := .clamped, body := u32 60000000 }
            (settle (retryPass (put k { s.part.inkChannel k with level := 60000000 }))))) ∧
    (∀ (channel : Byte) (k : Fin 4) (floor : Option Word32) (drop trim : Option Byte),
      channel.toNat = k.val →
      let x := s.part.inkChannel k
      let y := { x with
        floor := (match floor with | some w => min 2000000 w.toNat | none => x.floor)
        dropVolume := stored 2 20 drop x.dropVolume
        trim := (match trim with | some b => max (-31) (min 31 b.toInt) | none => x.trim) }
      let inRange := (∀ w ∈ floor, w.toNat ≤ 2000000) ∧ (∀ b ∈ drop, 2 ≤ b.toNat ∧ b.toNat ≤ 20) ∧
        (∀ b ∈ trim, -31 ≤ b.toInt ∧ b.toInt ≤ 31)
      ∃ a, exec (.setInkChannel tag channel floor drop trim) s = ans 0x73 a (settle
          (if y.floor = x.floor ∧ y.trim = x.trim then put k y else retryPass (put k y))) ∧
        (inRange → a = no .ok) ∧
        (¬ inRange → a.status = .clamped ∧ a.body = inkUsedBody (floor.map fun w => min 2000000 w.toNat)
          (drop.map fun b => clamp 2 20 b.toNat) (trim.map fun b => max (-31) (min 31 b.toInt)))) ∧
    exec (.lookUpInk tag 0xFF 0xFF) s =
      ans 0x74 { status := .ok, body := s.part.inkStationBody } s.part.fresh ∧
    (∀ n job : Byte, n ≠ 0xFF → 7 < n.toNat →
      exec (.lookUpInk tag n job) s = ans 0x74 (no .outOfRange) s.part.fresh) ∧
    (∀ (n : Byte) (t : Fin 8) (job : Byte), n.toNat = t.val →
      (s.part.template t = none →
        exec (.lookUpInk tag n job) s = ans 0x74 (no .notFound) s.part.fresh) ∧
      (∀ x, s.part.template t = some x → exec (.lookUpInk tag n job) s = ans 0x74
        { status := .ok, body := s.part.inkStationBody ++ needs x } s.part.fresh)) ∧
    (∀ n : Byte, n ≠ 0xFF → n = 0 ∨ 16 < n.toNat →
      exec (.lookUpInk tag 0xFF n) s = ans 0x74 (no .outOfRange) s.part.fresh) ∧
    (∀ (n : Byte) (x : Fin 16), n.toNat = x.val + 1 →
      (s.part.job x = none → exec (.lookUpInk tag 0xFF n) s = ans 0x74 (no .notFound) s.part.fresh) ∧
      (∀ j, s.part.job x = some j → j.template = none →
        exec (.lookUpInk tag 0xFF n) s = ans 0x74 (no .badState) s.part.fresh) ∧
      (∀ j t y, s.part.job x = some j → j.template = some t → s.part.template t = some y →
        exec (.lookUpInk tag 0xFF n) s = ans 0x74
          { status := .ok, body := s.part.inkStationBody ++ (needs y ++ u16 (j.ordered - j.delivered)) }
          s.part.fresh))) ∧
  ((∀ p : Part, p.inkStationBody =
    let one := fun c : InkChannel =>
      u32 c.level ++ u32 c.floor ++ u32 c.reserved ++ u8 c.dropVolume ++ [BitVec.ofInt 8 c.trim] ++
        flagByte (decide (c.level < c.floor)) ++ flagByte (decide (c.level = 0))
    one (p.inkChannel 0) ++ one (p.inkChannel 1) ++ one (p.inkChannel 2) ++ one (p.inkChannel 3) ++
      u8 p.station.state.code ++ opt8 ((p.occupant .printer).map fun r => r.val) ++
      u8 p.station.headTemperature ++ [if p.station.gateOpen then 0x00 else 0x01] ++
      opt8 (p.station.faultCause.map fun f => f.code) ++
      (u8 p.inkWait.length ++ p.inkWait.flatMap fun r => u8 r.val) ++
      (u8 p.printQueue.length ++ p.printQueue.flatMap fun r => u8 r.val)) ∧
  ∀ (floor drop : Option Nat) (trim : Option Int), inkUsedBody floor drop trim =
    subsetBody [floor.map u32, drop.map u8, trim.map fun t => [BitVec.ofInt 8 t]])

/-! ## Lookups -/

/-- IDENTIFY (R183) answers the part code, the revision, the counts, the tower state and the resume state, FFh
when absent, and changes nothing. LOOK UP JOB, DISC and PLACE answer the record or the place and change
nothing (R16, R30); LIST JOBS and LIST DISCS answer up to 8 summaries from the start index on, the free
count, and the next index, one above the last returned, or FFh when no held record lies above it; a stage
filter is every record, one stage's code, the active stages or the final ones (R17, R30, R184). How the
fields of a reply body follow each other is the model's reading (log 8, DEDUCED). The bodies of LOOK UP
JOB, DISC and PLACE hold the record's fields in the order of R22 and R2, but for *last pick order* and
*eligible order*, and the place's in R16's; the summaries follow R184's tables. A field is its bytes, least
significant first, FF in every byte when absent, a flag 00h or 01h, no job 00h; a named value has its code
(R179, R184; log 7, DEDUCED, where there is no table); a subset body begins with its presence word (log 6,
DEDUCED); a reply frame is the presence byte, the status, the tag, the code, the length and the body. -/
def Obligations.Lookups : Prop :=
  (∀ (s : State) (tag : Byte), s.takes →
    exec (.identify tag) s = .next (s.replied 0x01 tag
      { status := .ok
        body := [0x12, 0x0C, 1, 12, 4, 24, 16, 32, 0x00, 0x04, 16, 8,
          BitVec.ofNat 8 s.part.tower.state.code,
          match s.part.tower.resume with | some r => BitVec.ofNat 8 r.code | none => 0xFF] }
      s.part.fresh)) ∧
  (∀ (s : State) (tag : Byte), s.takes →
    let ans := fun (code : Byte) (body : List Byte) =>
      Host.Outcome.next (s.replied code tag { status := .ok, body := body } s.part.fresh)
    let no := fun (code : Byte) (st : Status) =>
      Host.Outcome.next (s.replied code tag { status := st, body := [] } s.part.fresh)
    let page := fun (free : Nat) (found : List (Nat × List Byte)) =>
      u8 (min 8 found.length) ++ u8 free ++
        (if found.length ≤ 8 then [0xFF] else u8 ((found[7]?.map (·.1)).getD 0)) ++
        (found.take 8).flatMap (·.2)
    (∀ (n : Byte) (x : Fin 16) (j : Job), n.toNat = x.val + 1 → s.part.job x = some j →
      exec (.lookUpJob tag n) s = ans 0x36 (jobBody j)) ∧
    (∀ (n : Byte) (x : Fin 16), n.toNat = x.val + 1 →
      exec (.listJobs tag n) s = ans 0x37 (page (s.part.jobs.toList.countP (·.isNone))
        ((allJobs.filter fun y => decide (x.val ≤ y.val)).filterMap fun y =>
          (s.part.job y).map fun j => (y.val + 2, jobSummary y j)))) ∧
    (∀ (n : Byte) (r : Fin 24) (d : Disc), n.toNat = r.val → s.part.disc r = some d →
      exec (.lookUpDisc tag n) s = ans 0x40 (discBody r d)) ∧
    (∀ (n filter : Byte) (r : Fin 24) (keep : Stage → Bool), n.toNat = r.val →
      filter = 0xFF ∧ keep = (fun _ => true) ∨ filter = 0x10 ∧ keep = (·.active) ∨
        filter = 0x11 ∧ keep = (fun st => !st.active) ∨
        1 ≤ filter.toNat ∧ filter.toNat ≤ 15 ∧ keep = (fun st => decide (st.code = filter.toNat)) →
      exec (.listDiscs tag n filter) s = ans 0x42 (page s.part.freeCount
        ((allDiscs.filter fun y => decide (r.val ≤ y.val)).filterMap fun y =>
          (s.part.disc y).bind fun d => if keep d.stage then some (y.val + 1, discSummary y d) else none))) ∧
    (∀ n filter : Byte, 23 < n.toNat ∨ filter = 0 ∨ 0x11 < filter.toNat ∧ filter ≠ 0xFF →
      exec (.listDiscs tag n filter) s = no 0x42 .outOfRange) ∧
    (∀ (n : Byte) (b : Fin 12), n.toNat = b.val →
      exec (.lookUpPlace tag n) s = if b.val < s.part.tower.installed then ans 0x41 (s.part.placeBody (.bay b))
        else no 0x41 .notFound) ∧
    exec (.lookUpPlace tag 0x0C) s = ans 0x41 (s.part.placeBody .arm) ∧
    exec (.lookUpPlace tag 0x0D) s = ans 0x41 (s.part.placeBody .printer) ∧
    exec (.lookUpPlace tag 0x0E) s = ans 0x41 (u8 (classCode s.part.spindleA.cls) ++ u8 s.part.spindleA.count ++
      flagByte s.part.spindleA.empty ++ u16 s.part.spindleA.wasted) ∧
    exec (.lookUpPlace tag 0x0F) s = ans 0x41 (u8 (classCode s.part.spindleB.cls) ++ u8 s.part.spindleB.count ++
      flagByte s.part.spindleB.empty ++ u16 s.part.spindleB.wasted) ∧
    exec (.lookUpPlace tag 0x10) s = ans 0x41 (u32 s.part.output.count ++ u8 s.part.output.capacity) ∧
    exec (.lookUpPlace tag 0x11) s = ans 0x41 (u32 s.part.bin.count ++ u8 s.part.bin.capacity) ∧
    (∀ n : Byte, 0x11 < n.toNat → exec (.lookUpPlace tag n) s = no 0x41 .outOfRange)) ∧
  ((∀ j : Job, jobBody j =
    u32 j.hostRef.toNat ++ u8 j.kind.code ++ u8 j.state.code ++ opt8 (j.image.map fun i => i.val) ++
      u8 (classCode j.cls) ++ u16 j.ordered ++ u8 j.priority ++ u8 j.maxSpeed ++
      opt8 (j.verifyMode.map fun v => v.code) ++ opt8 j.recoveredLimit ++ u8 j.rejectLimit ++
      opt8 (j.template.map fun t => t.val) ++ opt8 (j.inkPolicy.map fun v => v.code) ++ opt8 j.serialDigits ++
      opt32 (j.serials.map fun x => x.first) ++ opt8 (j.serials.map fun x => x.step) ++
      opt32 (j.serials.map fun x => x.issued) ++ opt32 (j.serials.map fun x => x.next) ++ u8 j.holds.code ++
      u32 j.started ++ u32 j.delivered ++ u32 j.rejected ++ u32 j.failures ++ u32 j.active ++
      u32 j.unlabelledDelivered) ∧
  (∀ (x : Fin 16) (j : Job), jobSummary x j =
    u8 (x.val + 1) ++ u8 j.state.code ++ u8 j.kind.code ++ u8 j.priority ++ u8 j.holds.code ++
      (if j.kind = .print then opt8 (j.template.map fun t => t.val) else opt8 (j.image.map fun i => i.val)) ++
      u16 j.ordered ++ u8 j.active ++ u32 j.delivered ++ u32 j.rejected ++ u32 j.failures ++
      u32 j.hostRef.toNat) ∧
  (∀ (r : Fin 24) (d : Disc), discBody r d =
    u8 r.val ++ u8 d.stage.code ++ u8 d.verdict.code ++ opt8 (d.reason.map fun w => w.code) ++ jobByte d.job ++
      opt8 (d.place.map fun pl => pl.code) ++
      (match d.media with
        | some m => u16 m.maker.toNat ++ u16 m.type.toNat ++ u8 (classCode m.cls) ++ u32 m.capacity ++
            opt8 (m.entry.map fun e => e.val)
        | none => [0xFF, 0xFF, 0xFF, 0xFF, 0xFF, 0xFF, 0xFF, 0xFF, 0xFF, 0xFF]) ++
      opt8 (d.bay.map fun b => b.val) ++ opt8 d.speed ++ opt8 (d.channel.map fun c => c.val) ++
      u32 d.blocksWritten ++
      (match d.verify with
        | some v => u32 v.checked ++ u32 v.recovered ++ u32 v.mismatched ++ opt16 v.firstMismatch
        | none => opt32 none ++ opt32 none ++ opt32 none ++ opt16 none) ++
      (match d.reservation with
        | some v => u32 v[0] ++ u32 v[1] ++ u32 v[2] ++ u32 v[3]
        | none => opt32 none ++ opt32 none ++ opt32 none ++ opt32 none) ++
      opt32 d.serial ++ flagByte d.unlabelled) ∧
  (∀ (r : Fin 24) (d : Disc), discSummary r d =
    u8 r.val ++ u8 d.stage.code ++ u8 d.verdict.code ++
      (match d.reason with | some w => u8 w.code | none => [0]) ++ jobByte d.job ++
      opt8 (d.place.map fun pl => pl.code) ++ opt8 (d.bay.map fun b => b.val) ++
      u8 (d.unlabelled.toNat + 2 * d.reservation.isSome.toNat + 4 * d.verify.isSome.toNat +
        8 * d.media.isSome.toNat) ++
      u32 d.blocksWritten ++ opt32 d.serial) ∧
  ∀ (p : Part) (pl : Place),
    (p.occupant pl = none → p.placeBody pl = [0xFF, 0xFF, 0xFF, 0x00]) ∧
    (∀ r d, p.occupant pl = some r → p.disc r = some d →
      p.placeBody pl = u8 r.val ++ u8 d.stage.code ++ u8 d.verdict.code ++ jobByte d.job)) ∧
  ((∀ n : Nat, u8 n = [BitVec.ofNat 8 n] ∧ u16 n = [BitVec.ofNat 8 n, BitVec.ofNat 8 (n / 256)] ∧
    u32 n = [BitVec.ofNat 8 n, BitVec.ofNat 8 (n / 256), BitVec.ofNat 8 (n / 65536),
      BitVec.ofNat 8 (n / 16777216)] ∧
    opt8 (some n) = u8 n ∧ opt16 (some n) = u16 n ∧ opt32 (some n) = u32 n) ∧
  opt8 none = [0xFF] ∧ opt16 none = [0xFF, 0xFF] ∧ opt32 none = [0xFF, 0xFF, 0xFF, 0xFF] ∧
  flagByte false = [0] ∧ flagByte true = [1] ∧
  jobByte none = [0] ∧ (∀ x : Fin 16, jobByte (some x) = [BitVec.ofNat 8 (x.val + 1)]) ∧
  (∀ l : List Nat, listBytes u8 l = u8 l.length ++ l.flatMap u8 ∧
    listBytes u16 l = u8 l.length ++ l.flatMap u16) ∧
  presence ([] : List (Option (List Byte))) = 0 ∧
  (∀ (x : Option (List Byte)) (xs : List (Option (List Byte))),
    presence (x :: xs) = (if x.isSome then 1 else 0) + 2 * presence xs ∧
    subsetBody (x :: xs) = u32 (presence (x :: xs)) ++ (x.getD [] ++ xs.flatMap fun y => y.getD [])) ∧
  (∀ (code tag : Byte) (a : Answer), replyFrame code tag a =
    [0x01, a.status.code, tag, code, BitVec.ofNat 8 a.body.length] ++ a.body) ∧
  [Status.ok, .accepted, .clamped, .notFound, .badState, .busy, .noRoom, .inUse, .outOfRange, .malformed,
    .unknown].map Status.code = [0x00, 0x01, 0x02, 0x10, 0x11, 0x12, 0x13, 0x14, 0x15, 0x20, 0x21] ∧
  [Stage.feeding, .loading, .identifying, .waitingStream, .recording, .closing, .verifying, .awaitInk,
    .printQueued, .printing, .outbound, .rejectBound, .hostHold, .delivered, .rejected].map Stage.code =
      [1, 2, 3, 4, 5, 6, 7, 8, 9, 10, 11, 12, 13, 14, 15] ∧
  [Verdict.pending, .good, .reject].map Verdict.code = [0, 1, 2] ∧
  [Reason.notBlank, .classMismatch, .capacityShort, .mediaRefused, .recordFailed, .stalled, .verifyFailed,
    .printFailed, .doubleFeed, .sourceError, .cancelled, .aborted, .hostReject, .removed, .lost, .extraDisc,
    .bayFault].map Reason.code = [1, 2, 3, 4, 5, 6, 7, 8, 9, 10, 11, 12, 13, 14, 15, 16, 17] ∧
  (∀ b : Fin 12, (Place.bay b).code = b.val) ∧ Place.arm.code = 12 ∧ Place.printer.code = 13 ∧
  [DiscClass.a, .b].map classCode = [0, 1] ∧
  [JobKind.burn, .burnPrint, .print].map JobKind.code = [1, 2, 3] ∧
  [JobState.defined, .running, .paused, .held, .failing, .cancelling, .done, .failed, .cancelled].map
    JobState.code = [1, 2, 3, 4, 5, 6, 7, 8, 9] ∧
  [VerifyMode.none, .quick, .full].map VerifyMode.code = [0, 1, 2] ∧
  [InkPolicy.wait, .unlabelled].map InkPolicy.code = [0, 1] ∧
  (∀ a b c : Bool, ({ ink := a, source := b, imageNotReady := c } : Holds).code =
    a.toNat + 2 * b.toNat + 4 * c.toNat) ∧
  [BayState.offline, .open_, .expecting, .closingTray, .querying, .attaching, .writing, .finalizing,
    .readingBack, .holding, .openingTray, .presenting, .resetting, .faulted].map BayState.code =
      [0, 1, 2, 3, 4, 5, 6, 7, 8, 9, 10, 11, 12, 13] ∧
  [DriveOp.load, .identify, .write, .close, .read, .eject, .reset].map DriveOp.code = [0, 1, 2, 3, 4, 5, 6] ∧
  [BayFault.repeatedFailures, .resetFailed, .untrackedDisc].map BayFault.code = [0, 1, 2] ∧
  [MatchMode.exact, .maker, .masked].map MatchMode.code = [0, 1, 2] ∧
  [MediaVerdict.accept, .refuse].map MediaVerdict.code = [0, 1] ∧
  [RecOutcome.good, .fail].map RecOutcome.code = [0, 1] ∧
  [ImageState.registered, .surveyWaiting, .surveying, .ready, .faulted].map ImageState.code = [0, 1, 2, 3, 4] ∧
  [FaultOrigin.survey, .stream].map FaultOrigin.code = [0, 1] ∧
  [StationState.offline, .empty, .loaded, .printing, .finished, .fault].map StationState.code =
    [0, 1, 2, 3, 4, 5] ∧
  [StationFault.engine, .labelTimeout, .queryTimeout, .untrackedDisc].map StationFault.code = [0, 1, 2, 3] ∧
  [Quality.draft, .normal, .fine].map Quality.code = [0, 1, 2] ∧
  [TowerState.stopped, .starting, .running, .stopping, .paused, .halted, .aborting].map TowerState.code =
    [0, 1, 2, 3, 4, 5, 6] ∧
  [Resume.starting, .running, .stopping].map Resume.code = [0, 1, 2] ∧
  [AttnMode.level, .pulse].map AttnMode.code = [0, 1])

/-! ## The bays' reports -/

/-- A report that answers nothing in flight changes no record beyond the evaluations at the end of an event,
which run after a handler report and after an expiry of a timer that does not run (log 15): a report of a
drive that does not hold its operation, of a STORE READ that is not the attempt in flight, of a handler
operation that has expired or was superseded, any of them but the cut operation's while the door is open, a
second GRIPPED, every outcome of the operation the door's opening cut short but the GRIPPED or DONE that
fits it, a LABEL's report with none in flight and a STATUS with no QUERY in flight, which are their head
temperature alone (R48, R50, R58, R66, R107, R117, R145). A report of a drive or the printer carries no
number, so it answers the operation of its kind in flight (log 38, DESIGN CHOICE) (which report answers
which operation: logs 10 to 12; which GRIPPED and DONE fit the cut operation: log 47, DESIGN CHOICE). -/
def Obligations.UnansweredReports : Prop :=
  ∀ s : State, s.link.resetLow = false →
    let nothing := Host.Outcome.next (s.became s.part.fresh)
    let evaluated := Host.Outcome.next (s.became (settle s.part.fresh))
    (∀ (b : Fin 12) (op : DriveOp) (i : Instr), (s.part.bay b).operation ≠ some op →
      (op = .load ∧ (i = .loaded b ∨ i = .loadError b) ∨
        op = .identify ∧ ((∃ bl mk ty c n, i = .identified b bl mk ty c n) ∨ i = .idError b) ∨
        op = .write ∧ (i = .ready b ∨ i = .chunkAck b ∨ i = .writeError b) ∨
        op = .close ∧ (i = .closed b ∨ i = .closeError b) ∨
        op = .read ∧ ((∃ bytes, i = .segment b bytes) ∨ i = .readError b) ∨
        op = .eject ∧ (i = .opened b ∨ i = .ejectError b) ∨
        op = .reset ∧ ((∃ pr t, i = .resetDone b pr t) ∨ i = .resetFailed b)) →
      exec i s = nothing) ∧
    (∀ (c : Fin 4) (id : Nat) (bytes : List Byte), (∀ x, s.part.readOf c = some x → x.id ≠ id) →
      exec (.data c id bytes) s = nothing ∧ exec (.storeError c id) s = nothing) ∧
    (∀ (op : Nat) (held : Bool) (i : Instr), op < s.part.arm.liveFrom ∨ op ∈ s.part.arm.stale →
      i ∈ [Instr.gripped op, .done op, .missed op, .double op, .single op, .stillDouble op, .dropped op,
        .interrupted op, .jammed op, .homed op held] → exec i s = evaluated) ∧
    (∀ (op : Nat) (held : Bool) (i : Instr), s.part.doorOpen = true →
      (∀ o, s.part.arm.cut = some o → o.id ≠ op) →
      i ∈ [Instr.gripped op, .done op, .missed op, .double op, .single op, .stillDouble op, .dropped op,
        .interrupted op, .jammed op, .homed op held] → exec i s = evaluated) ∧
    (∀ o m, s.flying o → (∃ sp d, o.order = .pick sp d) ∨ (∃ pl d, o.order = .transfer pl d) →
      s.part.arm.move = some m → m.gripped = true → exec (.gripped o.id) s = evaluated) ∧
    (∀ o held i, s.cutShort o →
      let fetches := (∃ sp d, o.order = .pick sp d) ∨ ∃ pl d, o.order = .transfer pl d
      let delivers := ∃ d, o.order = .deliver d
      (i ∈ [Instr.missed o.id, .double o.id, .single o.id, .stillDouble o.id, .dropped o.id, .interrupted o.id,
          .jammed o.id, .homed o.id held] ∨
        i = .gripped o.id ∧ ¬ (fetches ∧ ∃ m, s.part.arm.move = some m ∧ m.gripped = false) ∨
        i = .done o.id ∧ ¬ ∃ m, s.part.arm.move = some m ∧ (fetches ∧ m.gripped = true ∨ delivers)) →
      exec i s = evaluated) ∧
    (∀ (d : Drops) (t : Nat), s.part.station.labelDeadline = none →
      exec (.labelDone d t) s = exec (.temperature t) s ∧
        exec (.labelFailed d t) s = exec (.temperature t) s) ∧
    (∀ (present : Bool) (c : Condition) (t : Nat), s.part.station.queryDeadline = none →
      exec (.status present c t) s = exec (.temperature t) s) ∧
    (s.part.arm.op = none → exec .moveTimeout s = evaluated) ∧
    (∀ b, (s.part.bay b).deadline = none → exec (.watchdogExpiry b) s = evaluated) ∧
    (∀ c, s.part.readOf c = none → exec (.storeReadLimitExpiry c) s = nothing) ∧
    (∀ c, (∀ st, s.part.stream c = some st → st.joinOver = true) →
      exec (.joinPeriodEnd c) s = nothing) ∧
    (s.part.station.labelDeadline = none → exec .labelLimitExpiry s = evaluated) ∧
    (s.part.station.queryDeadline = none → exec .queryLimitExpiry s = evaluated) ∧
    (s.part.attn.pulseEnd = none → exec .attnPulseEnd s = nothing)

/-- LOADED (R69, R75, R80, R168): a disc in LOADING goes to IDENTIFYING and IDENTIFY is sent; another occupant
leaves the bay HOLDING; an empty bay reopens its tray, unless the sweep is to reset it. OPENED (R74, R79,
R82): an occupied bay is PRESENTING, and a disc due out holds an eligible order; an empty one is
quarantined, out of service, or OPEN. The tray rule (R73): a HOLDING bay whose occupant is due out
(OUTBOUND, REJECT_BOUND, or PRINT_QUEUED at the head of the queue) sends EJECT while the tower is RUNNING,
STOPPING, PAUSED or HALTED. In a PRESENTING bay a disc due out is given its order where it has none (R7,
R74; the model's reading, log 16). Else nothing happens. The tray rule takes the bays in ascending order,
and the orders it gives are stamped in that order (log 30, DESIGN CHOICE); a bay that owes the sweep a
RESET is sent it when its operation has ended (log 23, DEDUCED). -/
def Obligations.LoadedAndOpened : Prop :=
  (∀ (s : State) (b : Fin 12), s.driving b .load →
    let x := s.part.bay b
    (∀ r d, s.part.occupant (.bay b) = some r → s.part.disc r = some d → d.stage = .loading →
      exec (.loaded b) s = .next (s.became (settle
        { (s.part.setDisc r (some { d with stage := .identifying })).setBay b
            ((x.enter .querying).driven .identify (s.part.now + 30000)) with
          sent := [.drive b .identify] }))) ∧
    (∀ r, s.part.occupant (.bay b) = some r → s.part.stageOf r ≠ some .loading →
      exec (.loaded b) s = .next (s.became (settle (s.part.fresh.setBay b (x.rested.enter .holding))))) ∧
    (s.part.occupant (.bay b) = none → (∀ w, s.part.tower.sweep = some w → w.resetOwed[b] = false) →
      exec (.loaded b) s = .next (s.became (settle
        { s.part.setBay b (x.ejecting s.part.now) with sent := [.drive b .eject] }))) ∧
    (∀ w, s.part.occupant (.bay b) = none → s.part.tower.sweep = some w → w.resetOwed[b] = true →
      exec (.loaded b) s = .next (s.became (settle (s.part.fresh.setBay b x.rested))))) ∧
  (∀ (s : State) (b : Fin 12), s.driving b .eject →
    let x := s.part.bay b
    (s.part.occupant (.bay b) = none → exec (.opened b) s = .next (s.became (settle
      { s.part.fresh.setBay b x.rested.emptied with
        attn := if x.consecutiveFailures = 3 then s.part.attn.raise .bayFault s.part.now
          else s.part.attn }))) ∧
    (∀ r d, s.part.occupant (.bay b) = some r → s.part.disc r = some d →
      (d.stage = .outbound ∨ d.stage = .rejectBound ∨
          d.stage = .printQueued ∧ s.part.printQueue.head? = some r →
        exec (.opened b) s = .next (s.became (settle ((s.part.fresh.setDisc r (some { d with
          eligible := some (s.part.order d) })).setBay b (x.rested.enter .presenting))))) ∧
      (d.stage ≠ .outbound → d.stage ≠ .rejectBound →
          d.stage ≠ .printQueued ∨ s.part.printQueue.head? ≠ some r →
        exec (.opened b) s = .next (s.became (settle
          (s.part.fresh.setBay b (x.rested.enter .presenting))))))) ∧
  (∀ p : Part, trayRules p = allBays.foldl (fun p b => trayRule b p) p ∧
    ∀ b : Fin 12, (p.occupant (.bay b) = none → trayRule b p = p) ∧
      ∀ r d, p.occupant (.bay b) = some r → p.disc r = some d →
        let st := (p.bay b).state
        let working := p.tower.state = .running ∨ p.tower.state = .stopping ∨ p.tower.state = .paused ∨
          p.tower.state = .halted
        let due := d.stage = .outbound ∨ d.stage = .rejectBound ∨
          d.stage = .printQueued ∧ p.printQueue.head? = some r
        (st = .holding → working → due → trayRule b p =
          { p.setBay b ((p.bay b).ejecting p.now) with sent := p.sent ++ [.drive b .eject] }) ∧
        (st = .presenting → due →
          trayRule b p = p.setDisc r (some { d with eligible := some (p.order d) })) ∧
        (¬ due ∨ (st = .holding ∧ ¬ working) ∨ (st ≠ .holding ∧ st ≠ .presenting) → trayRule b p = p))

/-- IDENTIFIED (R69, R70, R89 to R91): the media fields are written whatever follows; a disc that is not blank,
of another class, too small, or refused by the media table is rejected, in that order of tests, and its
tray opens; an accepted one takes the least of the job's, the bay's and the media's speed and asks for a
stream. A stage is written where the record's stage accepts it (R3). -/
def Obligations.IdentifiedReport : Prop :=
  ∀ (s : State) (b : Fin 12) (blank : Bool) (maker type : Word16) (cls : DiscClass) (capacity : Nat)
    (r : Fin 24) (d : Disc), s.driving b .identify → s.part.occupant (.bay b) = some r →
    s.part.disc r = some d →
    let e := s.part.decidingEntry maker type
    let m : DiscMedia := { maker := maker, type := type, cls := cls, capacity := capacity, entry := e }
    let reported := exec (.identified b blank maker type cls capacity) s
    let ejected := fun d : Disc =>
      { (s.part.setDisc r (some d)).setBay b ((s.part.bay b).ejecting s.part.now) with
        sent := [.drive b .eject] }
    let refused := fun why : Reason => Host.Outcome.next (s.became (settle
      { ejected ({ d with media := some m, verdict := .reject, reason := some why }.atStage .rejectBound) with
        attn := s.part.attn.raise .discRejected s.part.now }))
    (d.verdict = .reject → reported = .next (s.became (settle (ejected { d with media := some m })))) ∧
    (d.verdict ≠ .reject → blank = false → reported = refused .notBlank) ∧
    (∀ x j i y, d.verdict ≠ .reject → blank = true → d.job = some x → s.part.job x = some j →
      j.image = some i → s.part.image i = some y →
      (cls ≠ j.cls → reported = refused .classMismatch) ∧
      (cls = j.cls → capacity < y.blocks → reported = refused .capacityShort) ∧
      (cls = j.cls → y.blocks ≤ capacity → s.part.mediaVerdict e = .refuse →
        reported = refused .mediaRefused) ∧
      (cls = j.cls → y.blocks ≤ capacity → s.part.mediaVerdict e = .accept →
        reported = .next (s.became (settle (attach b i ((s.part.fresh.setDisc r (some ({ d with
            media := some m
            speed := some (min j.maxSpeed
              (min (((s.part.bay b).support cls).getD 1) (s.part.mediaCap e))) }.atStage
                .waitingStream))).setBay b ((s.part.bay b).rested.enter .attaching)))))))

/-- Joining a stream (R70, R122): a bay entering ATTACHING for a READY image joins the joinable stream of the
image on the lowest channel, at position 0 and with WRITE sent; with none it asks for a new stream, behind
the requests held. Within its join period is a stream whose *joinOver* flag, the model's own (log 29), is
clear. READY and CHUNK_ACK (R118, R119): a member's drive becomes ready for its first chunk, and for the
next at each acknowledgement, with *blocks written* risen by the chunk's count; at the last one the bay
leaves the stream and sends CLOSE, and a stream left empty closes (R70, R124). A READY after the first
chunk, and a CHUNK_ACK with no chunk outstanding, change nothing (the model's reading, log 12). -/
def Obligations.RecordingReports : Prop :=
  (∀ (p : Part) (b : Fin 12) (i : Fin 32),
    let joins := fun c => ∃ st, p.stream c = some st ∧ st.image = i ∧
      (st.resident = true ∨ st.catchUp = false ∧ st.joinOver = false)
    (∀ c st y r d n, p.image i = some y → y.state = .ready → joins c → (∀ k, k < c → ¬ joins k) →
      p.stream c = some st → p.occupant (.bay b) = some r → p.disc r = some d → d.speed = some n →
      attach b i p = { ((p.setChannel c (.recording { st with
            members := st.members ++ [{ bay := b, position := 0, driveReady := false }] })).setDisc r (some
          ({ d with channel := some c }.atStage .recording))).setBay b
          { ((p.bay b).enter .writing).driven .write (p.now + p.tower.progressTimeout) with
            channel := some c } with
        sent := p.sent ++ [.drive b (.write n y.blocks)] }) ∧
    ((∀ y, p.image i = some y → y.state ≠ .ready) ∨ (∀ c, ¬ joins c) →
      attach b i p = { p with streamReqs := p.streamReqs ++ [{ bay := b, image := i }] })) ∧
  (∀ (s : State) (b : Fin 12) (c : Fin 4) (st : Stream) (m : Member), s.driving b .write →
    (s.part.bay b).channel = some c → s.part.stream c = some st → st.member b = some m →
    let x := s.part.bay b
    let stepped := fun p : Part => (p.setBay b { x with deadline := none }).setChannel c (.recording { st with
      members := st.members.map fun k => if k.bay = b then { k with driveReady := true } else k })
    (m.position = 0 → exec (.ready b) s = .next (s.became (settle (stepped s.part.fresh)))) ∧
    (m.position ≠ 0 → exec (.ready b) s = .next (s.became (settle s.part.fresh))) ∧
    (m.driveReady = true ∨ m.position = 0 →
      exec (.chunkAck b) s = .next (s.became (settle s.part.fresh))) ∧
    (∀ r d y, m.driveReady = false → 0 < m.position → s.part.occupant (.bay b) = some r →
      s.part.disc r = some d → s.part.image st.image = some y →
      let written := d.blocksWritten + min 32 (y.blocks - 32 * (m.position - 1))
      let rest := st.members.filter (·.bay != b)
      let done := { ((s.part.setDisc r (some ({ d with
            blocksWritten := written, channel := none }.atStage .closing))).setBay b
          { (x.enter .finalizing).driven .close (s.part.now + 300000) with channel := none }) with
        sent := [.drive b .close] }
      (m.position ≠ st.chunks → exec (.chunkAck b) s = .next (s.became (settle
        (stepped (s.part.fresh.setDisc r (some { d with blocksWritten := written })))))) ∧
      (m.position = st.chunks → rest ≠ [] → exec (.chunkAck b) s = .next (s.became (settle
        (done.setChannel c (.recording { st with members := rest }))))) ∧
      (m.position = st.chunks → rest = [] → exec (.chunkAck b) s = .next (s.became (settle
        { done.setChannel c .free with splitReqs := s.part.splitReqs.filter (· != c) })))))

/-- CLOSED (R71, R92, R132, R133, R135, R139): without verification the disc is GOOD, its outcome handed, and
goes on by its kind; with it the read-back begins at segment 0, or waits for a reference that is not valid.
A stage is written where the record's stage accepts it (R3). -/
def Obligations.ClosedReport : Prop :=
  ∀ (s : State) (b : Fin 12) (r : Fin 24) (d : Disc) (x : Fin 16) (j : Job), s.driving b .close →
    s.part.occupant (.bay b) = some r → s.part.disc r = some d → d.job = some x → s.part.job x = some j →
    let y := s.part.bay b
    (j.verifyMode = some .none → j.kind = .burn → d.verdict ≠ .reject →
      exec (.closed b) s = .next (s.became (settle
        ((handOutcome r .good (s.part.fresh.setDisc r (some ({ d with
          verdict := .good }.atStage .outbound)))).setBay b (y.rested.goodCounted.enter .holding))))) ∧
    (j.verifyMode = some .none → j.kind = .burnPrint → d.verdict ≠ .reject →
      exec (.closed b) s = .next (s.became (settle (enterLabelUnit r
        ((handOutcome r .good (s.part.fresh.setDisc r (some { d with verdict := .good }))).setBay b
          (y.rested.goodCounted.enter .holding)))))) ∧
    (∀ (i : Fin 32) (plan : Plan), j.image = some i →
      j.verifyMode = some .quick ∧ plan = .quick ∨ j.verifyMode = some .full ∧ plan = .full →
      let begun := s.part.fresh.setDisc r (some ({ d with
        verify := some { checked := 0, recovered := 0, mismatched := 0, firstMismatch := none } }.atStage
          .verifying))
      (s.part.referenceValid i = true →
        exec (.closed b) s = .next (s.became (settle
          { (begun.setContext b (some
              { record := r, image := i, plan := plan, nextSelected := some 0
                inHand := some { segment := 0, attempt := 1 }, readOutstanding := true
                awaitingReference := false })).setBay b
              ((y.enter .readingBack).driven .read (s.part.now + s.part.tower.progressTimeout)) with
            sent := [.drive b (.read 0)] }))) ∧
      (s.part.referenceValid i = false →
        exec (.closed b) s = .next (s.became (settle
          ((begun.setContext b (some
              { record := r, image := i, plan := plan, nextSelected := some 0, inHand := none
                readOutstanding := false, awaitingReference := true })).setBay b
              (y.rested.enter .readingBack))))))

/-- SEGMENT and READ_ERROR (R72, R135 to R141): a read matches when it has exactly the segment's blocks and the
digest stored for it; a first read that does not match is repeated; otherwise the segment is settled in the
counts and the next selected one is read, or waits for a reference no longer valid, or after the last the
verdict is taken: GOOD with nothing mismatched and *recovered* within the job's limit, whereupon the disc
is OUTBOUND, or of a BURN_PRINT job enters the label unit; else FAIL. The plan (R134): FULL reads every
segment in ascending index, QUICK those whose index is a multiple of 16 and the last; after the last
selected segment there is none. -/
def Obligations.ReadBackReports : Prop :=
  (∀ (s : State) (b : Fin 12) (c : Context) (h : InHand) (y : Image) (d : Disc) (v : VerifyCounts) (i : Instr)
    (hit : Bool), s.driving b .read → s.part.context b = some c → c.inHand = some h →
    s.part.image c.image = some y → s.part.disc c.record = some d → d.verify = some v →
    (i = .readError b ∧ hit = false ∨ ∃ bytes, i = .segment b bytes ∧ (hit = true ↔
      bytes.length = 2048 * min 256 (y.blocks - 256 * h.segment) ∧
        digest bytes = peek s.memory.digests (y.pages.getD (h.segment / 64) 0 * 64 + h.segment % 64))) →
    let x := s.part.bay b
    let counts : VerifyCounts :=
      { checked := v.checked + 1
        recovered := v.recovered + if hit = true ∧ h.attempt = 2 then 1 else 0
        mismatched := v.mismatched + if hit then 0 else 1
        firstMismatch := if hit then v.firstMismatch else some (v.firstMismatch.getD h.segment) }
    let settledDisc := { d with verify := some counts }
    let reads := fun (p : Part) (next : Option Nat) (n k : Nat) => Host.Outcome.next (s.became (settle
      { (p.setContext b (some { c with
            nextSelected := next, inHand := some { segment := n, attempt := k }, readOutstanding := true
            awaitingReference := false })).setBay b
          (x.driven .read (s.part.now + s.part.tower.progressTimeout)) with
        sent := [.drive b (.read n)] }))
    let judged := s.part.fresh.setContext b none
    (hit = false → h.attempt = 1 → exec i s = reads s.part.fresh c.nextSelected h.segment 2) ∧
    (hit = true ∨ h.attempt ≠ 1 →
      (∀ n, c.plan.next y.segments h.segment = some n → s.part.referenceValid c.image = true →
        exec i s = reads (s.part.fresh.setDisc c.record (some settledDisc)) (some n) n 1) ∧
      (∀ n, c.plan.next y.segments h.segment = some n → s.part.referenceValid c.image = false →
        exec i s = .next (s.became (settle (((s.part.fresh.setDisc c.record (some settledDisc)).setContext b
          (some { c with
            nextSelected := some n, inHand := none, readOutstanding := false
            awaitingReference := true })).setBay b x.rested)))) ∧
      (∀ k j, c.plan.next y.segments h.segment = none → d.job = some k → s.part.job k = some j →
        d.verdict ≠ .reject →
        (counts.mismatched = 0 → counts.recovered ≤ j.recoveredLimit.getD 0 →
          let good := fun e : Disc => (handOutcome c.record .good (judged.setDisc c.record (some e))).setBay b
            (x.rested.goodCounted.enter .holding)
          (j.kind = .burn → exec i s = .next (s.became (settle
            (good ({ settledDisc with verdict := .good }.atStage .outbound))))) ∧
          (j.kind = .burnPrint → exec i s = .next (s.became (settle
            (enterLabelUnit c.record (good { settledDisc with verdict := .good })))))) ∧
        (0 < counts.mismatched ∨ j.recoveredLimit.getD 0 < counts.recovered →
          exec i s = .next (s.became (settle
            { (handOutcome c.record .fail (judged.setDisc c.record (some ({ settledDisc with
                verdict := .reject, reason := some .verifyFailed }.atStage .rejectBound)))).setBay b
                (x.failed.ejecting s.part.now) with
              attn := s.part.attn.raise .discRejected s.part.now, sent := [.drive b .eject] })))))) ∧
  (∀ (plan : Plan) (segments n : Nat), n < segments →
    let selected := fun k => k < segments ∧ (plan = .quick → k % 16 = 0 ∨ k + 1 = segments)
    (∀ k, plan.next segments n = some k ↔ n < k ∧ selected k ∧ ∀ j, n < j → j < k → ¬ selected j) ∧
    (plan.next segments n = none ↔ ∀ k, n < k → ¬ selected k))

/-- A failure of a bay (R67, R76, R79): a drive's error report, or its watchdog's expiry (which moves the
time up to it, log 2) during an operation other than RESET or an EJECT in recovery. ABORT and RESET are
sent, the bay owes the sweep none any more (R168 after a stall; after an error report log 50, DESIGN
CHOICE), the occupant not yet rejected is rejected RECORD_FAILED or STALLED whatever it does in the bay,
and holds nothing of the label unit's; it leaves its stream, its read-back is discarded, and its outcome
FAIL is handed when it was PENDING; the failure is counted. An occupant already rejected keeps its record.
An unoccupied bay is reset alone. A RESET's end by its watchdog counts as its completion (log 42, DEDUCED).
-/
def Obligations.BayFailures : Prop :=
  ∀ (s : State) (b : Fin 12) (op : DriveOp) (i : Instr) (why : Reason) (now : Nat), s.driving b op →
    (now = s.part.now ∧
        (op = .load ∧ i = .loadError b ∧ why = .recordFailed ∨
          op = .identify ∧ i = .idError b ∧ why = .recordFailed ∨
          op = .write ∧ i = .writeError b ∧ why = .recordFailed ∨
          op = .close ∧ i = .closeError b ∧ why = .recordFailed ∨
          op = .eject ∧ (s.part.bay b).recovering = false ∧ i = .ejectError b ∧ why = .stalled) ∨
      ∃ t, (s.part.bay b).deadline = some t ∧ now = max s.part.now t ∧ op ≠ .reset ∧
        (op = .eject → (s.part.bay b).recovering = false) ∧ i = .watchdogExpiry b ∧ why = .stalled) →
    let x := s.part.bay b
    let tower := { s.part.tower with
      sweep := s.part.tower.sweep.map fun w => { w with resetOwed := w.resetOwed.set b.val false } }
    let fails := fun q : Part => exec i s = .next (s.became (settle
      (if i = .watchdogExpiry b ∧ x.abortMark = true then testAbort q else q)))
    let resets := fun (q : Part) (y : Bay) => { q.setBay b y with
      now := now, tower := tower, sent := [.drive b .abort, .drive b .reset] }
    (s.part.occupant (.bay b) = none → fails (resets s.part (x.resetting now))) ∧
    (∀ r d, s.part.occupant (.bay b) = some r → s.part.disc r = some d →
      (d.verdict = .reject → x.channel = none →
        fails (resets (s.part.setContext b none) (x.resetting now).failed)) ∧
      (d.place = some (.bay b) → d.verdict ≠ .reject → d.stage.active = true → d.stage ≠ .rejectBound →
        d.stage ≠ .printing →
        let w := leaveLabelUnit r { s.part with attn := s.part.attn.raise .discRejected now }
        let hand := fun p : Part => if d.verdict = .pending then handOutcome r .fail p else p
        let rejected := { d with
          verdict := .reject, reason := some why, stage := .rejectBound, reservation := none }
        let failed := fun e : Disc => resets ((hand (w.setDisc r (some e))).setContext b none)
          { (x.resetting now).failed with channel := none }
        (x.channel = none → fails (failed rejected)) ∧
        (∀ c st, x.channel = some c → s.part.stream c = some st →
          let rest := st.members.filter (·.bay != b)
          (rest ≠ [] → fails ((failed { rejected with channel := none }).setChannel c
            (.recording { st with members := rest }))) ∧
          (rest = [] → fails { (failed { rejected with channel := none }).setChannel c .free with
            splitReqs := s.part.splitReqs.filter (· != c) }))))

/-- RESET_DONE acts on the presence and the tray reported and on the occupant (R6, R11, R78 to R80): an empty
bay opens its tray or is emptied; a disc with no occupant is FOUND, its tray closed over it, or with no
record free faults the bay; an occupant stays, HOLDING or PRESENTING, with its order when it is due out; an
occupant found absent is LOST, its move discarded. The failures counted return to 0 for a RESET of ENABLE
BAY or CLEAR BAY FAULT. RESET_FAILED, and an EJECT or RESET that fails or expires (log 2) in recovery,
leave the bay FAULTED RESET_FAILED and its occupant rejected BAY_FAULT with no eligible order. The end of a
RESET sent under an abort tests the abort's completion (R170). The model's choices: the move of an occupant
found absent is discarded (log 37, DESIGN CHOICE); a LOST disc leaves the label unit's lists and its
reservation is released (log 28, DEDUCED); an abort's RESET that ends in RESET_FAILED or by its expiry is
complete (log 42, DEDUCED). -/
def Obligations.ResetReports : Prop :=
  ∀ (s : State) (b : Fin 12),
    let x := s.part.bay b
    let ended : Bay := { x.rested with
      service := false, abortMark := false
      consecutiveFailures := if x.service then 0 else x.consecutiveFailures }
    let tower := s.part.tower.unmarked b
    let becomes := fun (q : Part) => Host.Outcome.next (s.became (settle
      (if x.abortMark = true then testAbort { q with tower := tower } else { q with tower := tower })))
    let quarantined := fun a : Attention =>
      if ended.consecutiveFailures = 3 then a.raise .bayFault s.part.now else a
    (s.driving b .reset →
      (s.part.occupant (.bay b) = none →
        exec (.resetDone b false .opened) s = becomes { s.part.fresh.setBay b ended.emptied with
          attn := quarantined s.part.attn } ∧
        exec (.resetDone b false .shut) s = becomes
          { s.part.setBay b (ended.ejecting s.part.now) with sent := [.drive b .eject] } ∧
        (∀ r, s.part.lowestFree = some r →
          let found := { ((s.part.setDisc r (some { Disc.fresh .hostHold .pending with
              place := some (.bay b) })).setOccupant (.bay b) (some r)) with
            attn := s.part.attn.raise .foundDisc s.part.now }
          exec (.resetDone b true .shut) s = becomes
            { found.setBay b (ended.enter .holding) with sent := [] } ∧
          exec (.resetDone b true .opened) s = becomes
            { found.setBay b ((ended.enter .closingTray).driven .load (s.part.now + 20000)) with
              sent := [.drive b .load] }) ∧
        (∀ tray, s.part.lowestFree = none →
          exec (.resetDone b true tray) s = becomes { s.part.fresh.setBay b
              { ended.enter .faulted with
                operation := none, deadline := none, faultCause := some .untrackedDisc } with
            attn := (s.part.attn.raise .foundDisc s.part.now).raise .bayFault s.part.now })) ∧
      (∀ r, s.part.occupant (.bay b) = some r →
        exec (.resetDone b true .shut) s = becomes (s.part.fresh.setBay b (ended.enter .holding))) ∧
      (∀ r d, s.part.occupant (.bay b) = some r → s.part.disc r = some d →
        let due := d.stage = .outbound ∨ d.stage = .rejectBound ∨
          d.stage = .printQueued ∧ s.part.printQueue.head? = some r
        let presenting := s.part.fresh.setBay b (ended.enter .presenting)
        (due → exec (.resetDone b true .opened) s = becomes
          (presenting.setDisc r (some { d with eligible := some (s.part.order d) }))) ∧
        (¬ due → exec (.resetDone b true .opened) s = becomes presenting)) ∧
      (∀ r d tray, s.part.occupant (.bay b) = some r → s.part.disc r = some d →
        let u := leaveLabelUnit r s.part
        let told := fun p : Part => match d.job with | some k => jobRejected k false p | none => p
        let flags := (told { u with
          attn := if d.verdict = .reject then s.part.attn
            else s.part.attn.raise .discRejected s.part.now }).attn
        let retire := s.part.tower.autoRetire
        ∃ q, exec (.resetDone b false tray) s = becomes q ∧
          s.part.fresh.Changes [.arm, .attn, .discs, .places, .bays, .jobs, .ink, .inkWait, .printQueue, .sent,
            .heldSpell] q ∧
          q.jobs = (told u).jobs ∧ q.ink = u.ink ∧ q.inkWait = u.inkWait ∧ q.printQueue = u.printQueue ∧
          q.disc r = (if retire then none else some { d with
            stage := .rejected, verdict := .reject, reason := some .lost, place := none, eligible := none
            reservation := none }) ∧
          OthersKept u.disc q.disc r ∧
          q.heldSpell = (if retire = true ∧ 2 ≤ q.freeCount then false else s.part.heldSpell) ∧
          q.arm = { s.part.arm with
            move := if s.part.arm.move.any (·.record == r) then none else s.part.arm.move } ∧
          q.occupant (.bay b) = none ∧
          (∀ pl, pl ≠ .bay b → q.occupant pl = s.part.occupant pl) ∧ OthersKept s.part.bay q.bay b ∧
          (tray = .opened → q.bay b = ended.emptied ∧ q.sent = [] ∧ q.attn = quarantined flags) ∧
          (tray = .shut → q.bay b = ended.ejecting s.part.now ∧ q.sent = [.drive b .eject] ∧
            q.attn = flags))) ∧
    (∀ (i : Instr) (op : DriveOp) (now : Nat), s.driving b op →
      (now = s.part.now ∧ (op = .reset ∧ i = .resetFailed b ∨
          op = .eject ∧ x.recovering = true ∧ i = .ejectError b) ∨
        ∃ t, x.deadline = some t ∧ now = max s.part.now t ∧ i = .watchdogExpiry b ∧
          (op = .reset ∨ op = .eject ∧ x.recovering = true)) →
      let faulted := { x.enter .faulted with
        operation := none, deadline := none, service := false, abortMark := false
        faultCause := some .resetFailed }
      let fails := fun p : Part =>
        let q := { p.setBay b faulted with now := now, tower := tower, sent := [] }
        exec i s = .next (s.became (settle
          (if x.abortMark = true ∧ i ≠ .ejectError b then testAbort q else q)))
      let flags := s.part.attn.raise .bayFault now
      (s.part.occupant (.bay b) = none → fails { s.part with attn := flags }) ∧
      (∀ r d, s.part.occupant (.bay b) = some r → s.part.disc r = some d →
        (d.verdict = .reject → fails { s.part.setDisc r (some { d with
          reason := some .bayFault, eligible := none }) with attn := flags }) ∧
        (d.place = some (.bay b) → d.verdict ≠ .reject → d.stage.active = true → d.stage ≠ .rejectBound →
          d.stage ≠ .printing →
          fails ((leaveLabelUnit r { s.part with attn := flags.raise .discRejected now }).setDisc r (some { d with
            verdict := .reject, reason := some .bayFault, stage := .rejectBound, reservation := none
            eligible := none })))))

/-! ## The store port and the stream engine -/

/-- DATA for the attempt in flight (R100, R106, R108, R114, R117): the chunk lies in its slot and the rest of
the buffer is as before; a recording stream's *head* rises; a survey stores the digest of a segment it has
completed in the segment's slot, reads the next chunk, and after the last is READY with its reference
valid. DATA of any length within the slot is taken as it comes (log 14, DESIGN CHOICE). Where a channel's
window lies in the buffer, and how its slots follow, is log 43's (DESIGN CHOICE). -/
def Obligations.DataArrives : Prop :=
  ∀ (s : State) (c : Fin 4) (x : StoreRead) (bytes : List Byte), s.link.resetLow = false →
    s.part.readOf c = some x → bytes.length ≤ 65536 →
    let slot := (c.val * 64 + x.chunk % 64) * 65536
    ∃ t, exec (.data c x.id bytes) s = .next t ∧ t.pending = s.pending ∧ t.link = s.link ∧
      (∀ k v, bytes[k]? = some v → peek t.memory.buffer (slot + k) = v) ∧
      (∀ a, a < slot ∨ slot + bytes.length ≤ a → peek t.memory.buffer a = peek s.memory.buffer a) ∧
      (∀ st, s.part.channel c = .recording st →
        t.memory.digests = s.memory.digests ∧
        t.part = settle (s.part.fresh.setChannel c (.recording { st with
          read := none, head := st.head + 1 }))) ∧
      (∀ v y, s.part.channel c = .survey v → s.part.image v.image = some y →
        let segment := x.chunk / 8
        let complete := x.chunk % 8 = 7 ∨ x.chunk + 1 = y.chunks
        let place := y.pages.getD (segment / 64) 0 * 64 + segment % 64
        let progress := y.surveyProgress + if complete then 1 else 0
        (complete → peek t.memory.digests place = digest
          (peekRun t.memory.buffer ((c.val * 64 + 8 * segment % 64) * 65536)
            (2048 * min 256 (y.blocks - 256 * segment)))) ∧
        (∀ g, ¬ complete ∨ g ≠ place → peek t.memory.digests g = peek s.memory.digests g) ∧
        (x.chunk + 1 ≠ y.chunks →
          t.part = settle { (s.part.setImage v.image (some { y with surveyProgress := progress })).setChannel c
              (.survey { v with read :=
                { id := s.part.readCount, chunk := x.chunk + 1, attempt := 1
                  deadline := s.part.now + 2000 } }) with
            readCount := s.part.readCount + 1
            sent := [.storeRead c (y.storeAddress + 32 * (x.chunk + 1))
              (min 32 (y.blocks - 32 * (x.chunk + 1)))] }) ∧
        (x.chunk + 1 = y.chunks →
          t.part = settle (imageBecomesReady v.image
            { (s.part.fresh.setImage v.image (some { y with
                state := .ready, referenceValid := true, surveyChannel := none
                surveyProgress := progress })).setChannel c .free with
              splitReqs := s.part.splitReqs.filter (· != c) })))

/-- STORE_ERROR for the attempt in flight and the expiry of its limit, which moves the time up to it (log 2;
R107, R109, R110, R117, R125): below the third attempt the same STORE READ is sent again; at the third a
survey's image is FAULTED with the chunk and its channel is free; a stream's image is FAULTED, every
started job of it is held for SOURCE, every member's disc not yet rejected is SOURCE_ERROR and its drive is
sent ABORT and RESET, in the members' order, its bay has left the stream, and the channel is free. The end
of a join period marks the stream (R120; the flag is the model's, log 29). -/
def Obligations.StoreFailures : Prop :=
  ∀ (s : State) (c : Fin 4) (x : StoreRead) (i : Instr) (now : Nat), s.link.resetLow = false →
    (s.part.readOf c = some x →
      (i = .storeError c x.id ∧ now = s.part.now ∨
        i = .storeReadLimitExpiry c ∧ now = max s.part.now x.deadline) →
      let again : StoreRead :=
        { id := s.part.readCount, chunk := x.chunk, attempt := x.attempt + 1, deadline := now + 2000 }
      let resent := fun (ch : Channel) (y : Image) => Host.Outcome.next (s.became (settle
        { s.part.setChannel c ch with
          now := now, readCount := s.part.readCount + 1
          sent := [.storeRead c (y.storeAddress + 32 * x.chunk) (min 32 (y.blocks - 32 * x.chunk))] }))
      (∀ st y, s.part.channel c = .recording st → s.part.image st.image = some y →
        (x.attempt < 3 → exec i s = resent (.recording { st with read := some again }) y) ∧
        (3 ≤ x.attempt → ∃ q, exec i s = .next (s.became (settle q)) ∧ q.now = now ∧
          (y.state = .ready →
            q.image st.image = some { y with
              state := .faulted, fault := some { origin := .stream, chunk := x.chunk } } ∧
            q.attn.isSet .imageFault = true) ∧
          (y.state ≠ .ready → q.image st.image = some y) ∧ OthersKept s.part.image q.image st.image ∧
          (∀ k j, s.part.job k = some j → j.image = some st.image → j.state.started = true →
            ∃ g, q.job k = some g ∧ g.holds.source = true ∧
              g.state = (if j.state = .running then .held else j.state)) ∧
          (∀ m ∈ st.members, ∀ r d, s.part.occupant (.bay m.bay) = some r → s.part.disc r = some d →
            d.verdict ≠ .reject → ∃ e, q.disc r = some e ∧ e.verdict = .reject ∧
              e.reason = some .sourceError) ∧
          ((st.members.map fun m => m.bay).Nodup →
            (∀ m ∈ st.members, ∃ r d, s.part.occupant (.bay m.bay) = some r ∧ s.part.disc r = some d ∧
              d.place = some (.bay m.bay) ∧ r ∉ s.part.inkWait ∧
              (d.verdict ≠ .reject → d.stage = .recording ∧ (s.part.bay m.bay).state = .writing ∧
                (s.part.bay m.bay).operation.isSome = true)) →
            q.sent = st.members.flatMap fun m =>
              if ((s.part.occupant (.bay m.bay)).bind s.part.disc).any fun d => d.verdict == .reject then []
              else [.drive m.bay .abort, .drive m.bay .reset]) ∧
          ((∀ m ∈ st.members, (s.part.bay m.bay).channel = some c) →
            (∀ m ∈ st.members, (q.bay m.bay).channel = none) ∧
            (st.members ≠ [] → q.channel c = .free)))) ∧
      (∀ v y, s.part.channel c = .survey v → s.part.image v.image = some y →
        (x.attempt < 3 → exec i s = resent (.survey { v with read := again }) y) ∧
        (3 ≤ x.attempt → exec i s = .next (s.became (settle
          { (s.part.fresh.setImage v.image (some { y with
              state := .faulted, surveyChannel := none
              fault := some { origin := .survey, chunk := x.chunk } })).setChannel c .free with
            now := now, attn := s.part.attn.raise .imageFault now
            splitReqs := s.part.splitReqs.filter (· != c) }))))) ∧
    (∀ st, s.part.stream c = some st → st.joinOver = false →
      exec (.joinPeriodEnd c) s = .next (s.became (settle { s.part.fresh.setChannel c
        (.recording { st with joinOver := true }) with now := max s.part.now st.joinPeriodEnd })))

/-- The window (R67, R114, R117, R118, R120): each member whose drive is ready below *head* is sent its next
chunk from its slot, its deadline set; chunk *head* is read while no read is in flight, fewer than 64
chunks are held and chunks remain; *tail* of a stream that is not resident follows the slowest member once
the join period is over (the flag of that is the model's, log 29), and never falls. The split request
(R123) and the grants (R116, R126): a held stream with splits on, an image READY and its slowest member,
the lowest bay among equals, a threshold or more behind asks for a split, once, and one that is no longer
so withdraws it. A granted new stream takes its bay and, in the order of the requests, every other bay
waiting for its image, each sent WRITE; a granted split moves the slowest member onto a catch-up stream,
its window at the member's position. The channel arbiter (R105, R116, R126, R127): splits first, then the
new-stream request of highest priority whose image is READY, the older first among equals, then the oldest
survey; each on the lowest free channel, but with the survey reserve recordings leave channel 3 and a
survey takes it first. It works in rounds, in each of which every stream sends, moves *tail*, fetches and
tests its split, and one grant is made if one can be: one round for each channel, since a grant takes a
free one (the model's reading, log 15). The address a chunk is sent from is log 43's (DESIGN CHOICE). -/
def Obligations.StreamEngine : Prop :=
  (∀ (p : Part) (c : Fin 4) (st : Stream) (y : Image), p.channel c = .recording st →
    p.image st.image = some y →
    let due := fun m : Member => m.driveReady = true ∧ m.position < st.head
    let sending := st.members.filter fun m => decide (due m)
    (∃ q, sendChunks c p = q ∧ p.Changes [.channels, .bays, .sent] q ∧
      q.channel c = .recording { st with
        members := st.members.map fun m =>
          if due m then { m with driveReady := false, position := m.position + 1 } else m } ∧
      OthersKept p.channel q.channel c ∧
      q.sent = p.sent ++ sending.map (fun m => .chunk m.bay c m.position
        ((c.val * 64 + m.position % 64) * 65536) (min 32 (y.blocks - 32 * m.position))) ∧
      ∀ b, q.bay b = if b ∈ sending.map (·.bay) then
          { p.bay b with deadline := some (p.now + p.tower.progressTimeout) }
        else p.bay b) ∧
    (st.read = none → st.head - st.tail < 64 → st.head < st.chunks →
      fetchNext c p = { p.setChannel c (.recording { st with
            read := some { id := p.readCount, chunk := st.head, attempt := 1, deadline := p.now + 2000 } }) with
        readCount := p.readCount + 1
        sent := p.sent ++ [.storeRead c (y.storeAddress + 32 * st.head)
          (min 32 (y.blocks - 32 * st.head))] }) ∧
    (st.read.isSome = true ∨ 64 ≤ st.head - st.tail ∨ st.chunks ≤ st.head → fetchNext c p = p) ∧
    ∃ n, moveTail c p = p.setChannel c (.recording { st with tail := n }) ∧ st.tail ≤ n ∧
      (st.resident = true ∨ st.joinOver = false → n = st.tail) ∧
      (st.resident = false → st.joinOver = true → (∀ m ∈ st.members, m.position ≤ st.head) →
        st.members ≠ [] → st.tail ≤ st.head →
        (∀ m ∈ st.members, st.tail ≤ m.position) →
        (∀ m ∈ st.members, n ≤ m.position) ∧ ∃ m ∈ st.members, n = m.position)) ∧
  ((∀ (p : Part) (c : Fin 4) (st : Stream), p.channel c = .recording st →
    (∀ m, st.slowest = some m → m ∈ st.members ∧ ∀ k ∈ st.members, m.position < k.position ∨
      m.position = k.position ∧ m.bay ≤ k.bay) ∧
    (st.members ≠ [] → st.slowest.isSome = true) ∧
    let asks := st.resident = false ∧ st.joinOver = true ∧ st.head - st.tail = 64 ∧ st.head < st.chunks ∧
      (∃ m ∈ st.members, m.driveReady = true ∧ m.position = st.head) ∧ p.tower.splitOn = true ∧
      (∃ m, st.slowest = some m ∧ p.tower.splitThreshold ≤ st.head - m.position) ∧
      ∃ y, p.image st.image = some y ∧ y.state = .ready
    (asks → st.splitRequested = false → testSplit c p =
      { p with splitReqs := p.splitReqs ++ [c] }.setChannel c
        (.recording { st with splitRequested := true })) ∧
    (¬ asks → st.splitRequested = true → testSplit c p =
      { p with splitReqs := p.splitReqs.filter (· != c) }.setChannel c
        (.recording { st with splitRequested := false })) ∧
    ((asks ↔ st.splitRequested = true) → testSplit c p = p)) ∧
  (∀ (p : Part) (q : StreamReq) (c : Fin 4) (y : Image), p.image q.image = some y →
    let bays := q.bay :: (p.streamReqs.filter fun x => x.image == q.image && x.bay != q.bay).map (·.bay)
    let speed := fun r : Fin 24 => ((p.disc r).bind (·.speed)).getD 1
    ∃ t, grantStream q c p = t ∧ p.Changes [.streamReqs, .channels, .discs, .bays, .sent] t ∧
      t.streamReqs = p.streamReqs.filter (fun x => x.image != q.image) ∧
      OthersKept p.channel t.channel c ∧
      t.channel c = .recording
        { image := q.image, chunks := y.chunks, resident := decide (y.chunks ≤ 64), catchUp := false
          joinPeriodEnd := p.now + p.tower.joinHold, joinOver := decide (p.tower.joinHold = 0), head := 0
          tail := 0, read := none, splitRequested := false
          members := bays.map fun b => { bay := b, position := 0, driveReady := false } } ∧
      t.sent = p.sent ++ bays.filterMap (fun b =>
        (p.occupant (.bay b)).map fun r => .drive b (.write (speed r) y.blocks)) ∧
      (∀ b, (b ∈ bays → (p.occupant (.bay b)).isSome = true → t.bay b =
          { ((p.bay b).enter .writing).driven .write (p.now + p.tower.progressTimeout) with
            channel := some c }) ∧
        (b ∉ bays → t.bay b = p.bay b)) ∧
      (∀ r d, p.disc r = some d →
        ((∃ b ∈ bays, p.occupant (.bay b) = some r) →
          t.disc r = some ({ d with channel := some c }.atStage .recording)) ∧
        ((∀ b ∈ bays, p.occupant (.bay b) ≠ some r) → t.disc r = some d))) ∧
  (∀ (p : Part) (old c : Fin 4) (st : Stream) (m : Member), p.stream old = some st → st.slowest = some m →
    old ≠ c →
    let rest := st.members.filter (·.bay != m.bay)
    ∃ t, grantSplit old c p = t ∧ p.Changes [.splitReqs, .channels, .discs, .bays] t ∧
      t.splitReqs = p.splitReqs.filter (· != old) ∧
      t.channel c = .recording
        { image := st.image, chunks := st.chunks, resident := false, catchUp := true, joinPeriodEnd := p.now
          joinOver := true, head := m.position, tail := m.position, read := none, splitRequested := false
          members := [m] } ∧
      t.channel old = (if rest = [] then .free
        else .recording { st with members := rest, splitRequested := false }) ∧
      (∀ k, k ≠ old → k ≠ c → t.channel k = p.channel k) ∧
      t.bay m.bay = { p.bay m.bay with channel := some c } ∧ OthersKept p.bay t.bay m.bay ∧
      (∀ r d, p.occupant (.bay m.bay) = some r → p.disc r = some d →
        t.disc r = some { d with channel := some c } ∧ OthersKept p.disc t.disc r))) ∧
  (∀ p : Part,
    let isFree := fun c => p.channel c = .free
    let pumped := fun (c : Fin 4) (x : Part) => testSplit c (fetchNext c (moveTail c (sendChunks c x)))
    (∀ old rest c, p.splitReqs = old :: rest → p.recordingChannel = some c →
      grantChannel p = some (grantSplit old c p)) ∧
    (∀ q c, p.splitReqs = [] → p.bestRequest = some q → p.recordingChannel = some c →
      grantChannel p = some (grantStream q c p)) ∧
    (∀ i rest c y, (p.splitReqs = [] ∧ p.bestRequest = none ∨ p.recordingChannel = none) →
      p.surveyQueue = i :: rest → p.surveyChannel = some c → p.image i = some y →
      grantChannel p = some { (p.setImage i (some { y with
          state := .surveying, surveyChannel := some c, surveyProgress := 0 })).setChannel c (.survey
            { image := i
              read := { id := p.readCount, chunk := 0, attempt := 1, deadline := p.now + 2000 } }) with
        surveyQueue := p.surveyQueue.filter (· != i), readCount := p.readCount + 1
        sent := p.sent ++ [.storeRead c y.storeAddress (min 32 y.blocks)] }) ∧
    ((p.splitReqs = [] ∧ p.bestRequest = none ∨ p.recordingChannel = none) →
      p.surveyQueue = [] ∨ p.surveyChannel = none → grantChannel p = none) ∧
    (∀ c, p.recordingChannel = some c ↔ isFree c ∧ (p.tower.surveyReserve = true → c ≠ 3) ∧
      ∀ k, k < c → ¬ isFree k) ∧
    (p.recordingChannel = none ↔ ∀ c, (p.tower.surveyReserve = true → c ≠ 3) → ¬ isFree c) ∧
    (p.tower.surveyReserve = true → isFree 3 → p.surveyChannel = some 3) ∧
    (p.tower.surveyReserve = false ∨ ¬ isFree 3 → ∀ c, p.surveyChannel = some c ↔
      isFree c ∧ ∀ k, k < c → ¬ isFree k) ∧
    (∀ q, p.bestRequest = some q ↔ p.imageReady q.image = true ∧ ∃ older newer,
      p.streamReqs = older ++ q :: newer ∧
      (∀ r ∈ older, p.imageReady r.image = true → p.bayPriority r.bay < p.bayPriority q.bay) ∧
      ∀ r ∈ newer, p.imageReady r.image = true → p.bayPriority r.bay ≤ p.bayPriority q.bay) ∧
    (p.bestRequest = none ↔ ∀ r ∈ p.streamReqs, p.imageReady r.image = false) ∧
    (∀ g, grantChannel (pumpStreams p) = some g → grantRound p = g) ∧
    (grantChannel (pumpStreams p) = none → grantRound p = pumpStreams p) ∧
    pumpStreams p = pumped 3 (pumped 2 (pumped 1 (pumped 0 p))) ∧
    settleStreams p = pumpStreams (grantRound (grantRound (grantRound (grantRound p)))))

/-! ## The printer -/

/-- The temperature gate: each report that carries a head temperature stores it and moves the gate. An OPEN
gate closes at *critical* and above, raising HEAD_HOT, and a CLOSED gate opens at *warning* and below; in
every other case the gate and the flag stay. -/
def Obligations.TemperatureGate : Prop :=
  ∀ (s : State) (t : Nat), s.link.resetLow = false →
    exec (.temperature t) s = .next (s.became (settle (s.part.fresh.heated t))) ∧
    (∀ (present : Bool) (c : Condition) (n : Drops) (i : Instr),
      i ∈ [Instr.temperature t, .status present c t, .labelDone n t, .labelFailed n t] →
      ∃ u, exec i s = .next u ∧
        u.part.station.headTemperature = t ∧
        u.part.station.gateOpen = (s.part.heated t).station.gateOpen ∧
        u.part.attn.isSet .headHot = (s.part.heated t).attn.isSet .headHot) ∧
    (∀ p : Part, (p.heated t).station.headTemperature = t ∧
      (p.station.gateOpen = true →
        ((p.heated t).station.gateOpen = true ↔ t < p.station.critical) ∧
        (p.station.critical ≤ t → (p.heated t).attn = p.attn.raise .headHot p.now) ∧
        (t < p.station.critical → (p.heated t).attn = p.attn)) ∧
      (p.station.gateOpen = false →
        ((p.heated t).station.gateOpen = true ↔ t ≤ p.station.warning) ∧
        (p.heated t).attn = p.attn))

/-- STATUS of the QUERY in flight, the query limit, whose expiry moves the time up to it (log 2), and CLEAR
PRINTER (R6, R11, R145, R158, R159, R168): FAULT puts the station in FAULT; READY makes it EMPTY, LOADED or
FINISHED by the tray and the occupant: a disc with no occupant is FOUND, an occupant found absent LOST, its
move discarded; the limit's expiry puts it in FAULT. Each ends the QUERY and clears the sweep's printer
mark. CLEAR PRINTER in FAULT with no QUERY in flight sends QUERY; otherwise it is refused BAD_STATE (R159).
The model's choices: the move of an occupant found absent is discarded (log 37, DESIGN CHOICE); a LOST disc
leaves the label unit's lists and its reservation is released (log 28, DEDUCED). -/
def Obligations.PrinterQueries : Prop :=
  (∀ (s : State) (until_ : Nat), s.link.resetLow = false →
    s.part.station.queryDeadline = some until_ →
    let at_ := fun (p : Part) (st : StationState) (cause : Option StationFault) => { p with
      station := { p.station with state := st, faultCause := cause, queryDeadline := none }
      tower := s.part.tower.printerUnmarked }
    let becomes := fun q : Part => Host.Outcome.next (s.became (settle q))
    (∀ t : Nat,
      let hot := s.part.fresh.heated t
      (∀ present, exec (.status present .fault t) s = becomes (at_ hot .fault (some .engine))) ∧
      (s.part.occupant .printer = none →
        exec (.status false .ready t) s = becomes (at_ hot .empty none) ∧
        (∀ r, s.part.lowestFree = some r → exec (.status true .ready t) s = becomes (at_
          { (hot.setDisc r (some { Disc.fresh .hostHold .pending with place := some .printer })).setOccupant
              .printer (some r) with attn := hot.attn.raise .foundDisc s.part.now } .finished none)) ∧
        (s.part.lowestFree = none → exec (.status true .ready t) s = becomes (at_
          { hot with attn := hot.attn.raise .foundDisc s.part.now } .fault (some .untrackedDisc)))) ∧
      (∀ r d, s.part.occupant .printer = some r → s.part.disc r = some d →
        (d.stage = .printing → exec (.status true .ready t) s = becomes (at_ hot .loaded none)) ∧
        (d.stage = .hostHold → exec (.status true .ready t) s = becomes (at_ hot .finished none)) ∧
        (d.stage ≠ .printing → d.stage ≠ .hostHold → exec (.status true .ready t) s = becomes (at_
          (hot.setDisc r (some { d with eligible := some (s.part.order d) })) .finished none))) ∧
      (∀ r d, s.part.occupant .printer = some r → s.part.disc r = some d →
        let u := leaveLabelUnit r s.part
        let told := fun p : Part => match d.job with | some k => jobRejected k false p | none => p
        let retire := s.part.tower.autoRetire
        ∃ q, exec (.status false .ready t) s = becomes (at_ q .empty none) ∧
          hot.Changes [.arm, .attn, .discs, .places, .jobs, .ink, .inkWait, .printQueue, .heldSpell] q ∧
          q.jobs = (told u).jobs ∧ q.ink = u.ink ∧ q.inkWait = u.inkWait ∧ q.printQueue = u.printQueue ∧
          q.attn = (told { u with
            attn := if d.verdict = .reject then hot.attn
              else hot.attn.raise .discRejected s.part.now }).attn ∧
          q.disc r = (if retire then none else some { d with
            stage := .rejected, verdict := .reject, reason := some .lost, place := none, eligible := none
            reservation := none }) ∧
          OthersKept u.disc q.disc r ∧
          q.heldSpell = (if retire = true ∧ 2 ≤ q.freeCount then false else s.part.heldSpell) ∧
          q.arm = { s.part.arm with
            move := if s.part.arm.move.any (·.record == r) then none else s.part.arm.move } ∧
          q.occupant .printer = none ∧ ∀ pl, pl ≠ .printer → q.occupant pl = s.part.occupant pl)) ∧
    exec .queryLimitExpiry s = becomes (at_ { s.part.fresh with now := max s.part.now until_ } .fault
      (some .queryTimeout))) ∧
  (∀ (s : State) (tag : Byte), s.takes →
    (s.part.station.state = .fault → s.part.station.queryDeadline = none →
      exec (.clearPrinter tag) s = .next (s.replied 0x75 tag { status := .accepted, body := [] }
        (settle { s.part with
          sent := [.query]
          station := { s.part.station with queryDeadline := some (s.part.now + 5000) } }))) ∧
    (s.part.station.state ≠ .fault ∨ s.part.station.queryDeadline.isSome = true →
      exec (.clearPrinter tag) s =
        .next (s.replied 0x75 tag { status := .badState, body := [] } s.part.fresh)))

/-- The label order (R145, R155): with the station LOADED, the gate OPEN, the tower RUNNING, STOPPING, PAUSED
or HALTED and no LABEL or QUERY in flight, LABEL is sent for the tray's disc with the template's fields,
the job and its next serial, which is issued; the station is PRINTING. In any other case nothing is sent.
The end of a label (R146, R148, R152, R156, R157): by DONE, FAILED, FAULT or the label limit, whose expiry
moves the time up to it (log 2), each channel's level falls by the actual amount, not below 0, the
reservation is released, and a retry pass runs at once (log 32); the disc is GOOD and OUTBOUND, or rejected
PRINT_FAILED, or if it was rejected while its label was printed keeps its reason, with an eligible order;
the station is FINISHED, or in FAULT after FAULT and the limit; a QUERY the sweep owed is sent. A FAULT in
EMPTY, LOADED and FINISHED faults the station; in FAULT and OFFLINE it does nothing. That a QUERY the sweep
owes is sent also when the label ends by its limit or by FAULT is the model's choice, for R166 says at its
final report (log 46, DESIGN CHOICE). -/
def Obligations.Labels : Prop :=
  (∀ (p : Part) (r : Fin 24) (d : Disc) (x : Fin 16) (j : Job) (n : Fin 8) (t : Template),
    let can := p.station.state = .loaded ∧ p.station.gateOpen = true ∧
      (p.tower.state = .running ∨ p.tower.state = .stopping ∨ p.tower.state = .paused ∨
        p.tower.state = .halted) ∧
      p.station.labelDeadline = none ∧ p.station.queryDeadline = none
    (¬ can → labelOrder p = p) ∧
    (can → p.occupant .printer = some r → p.disc r = some d → d.verdict ≠ .reject → d.job = some x →
      p.job x = some j → j.template = some n → p.template n = some t →
      let sent := fun serial : Option (List Nat) => Sent.label
        { inner := t.inner, outer := t.outer, quality := t.quality, coverage := t.coverage
          job := x.val + 1, serial := serial }
      let station := { p.station with
        state := .printing, faultCause := none, labelDeadline := some (p.now + 120000) }
      (j.serials = none →
        labelOrder p = { p with station := station, sent := p.sent ++ [sent none] }) ∧
      (∀ z digits, j.serials = some z → j.serialDigits = some digits →
        labelOrder p = { (p.setDisc r (some { d with serial := some z.next })).setJob x (some { j with
            serials := some { z with
              issued := z.issued + 1, next := (z.first + z.step * (z.issued + 1)) % 10 ^ digits } }) with
          station := station, sent := p.sent ++ [sent (some (decimalDigits digits z.next))] }))) ∧
  (∀ (s : State) (r : Fin 24) (d : Disc) (held : Vector Nat 4) (due : Nat), s.link.resetLow = false →
    (s.part.occupant .printer = some r → s.part.disc r = some d → d.stage = .printing →
      d.reservation = some held → s.part.station.state = .printing →
      s.part.station.labelDeadline = some due → r ∉ s.part.inkWait →
      let owed := s.part.tower.sweep.any (·.queryOwed)
      let bad := decide (d.verdict = .reject)
      let ends := fun (p : Part) (actual : Fin 4 → Nat) (failed : Bool) (cause : Option StationFault)
          (q : Part) =>
        let w := retryPass { s.part.setDisc r (some { d with reservation := none }) with
          ink := Vector.ofFn fun k => { s.part.inkChannel k with
            reserved := (s.part.inkChannel k).reserved - held[k]
            level := (s.part.inkChannel k).level - actual k } }
        p.Changes [.station, .attn, .discs, .ink, .inkWait, .jobs, .printQueue, .tower, .sent] q ∧
        q.ink = w.ink ∧ q.inkWait = w.inkWait ∧ q.jobs = w.jobs ∧ q.printQueue = w.printQueue ∧
        q.disc r = some { d with
          reservation := none, eligible := some (s.part.order d)
          stage := if failed || bad then .rejectBound else .outbound
          verdict := if failed || bad then .reject else .good
          reason := if failed && !bad then some .printFailed else d.reason } ∧
        OthersKept w.disc q.disc r ∧
        q.station = { p.station with
          state := if cause = none then .finished else .fault, faultCause := cause, labelDeadline := none
          queryDeadline := if owed then some (p.now + 5000) else p.station.queryDeadline } ∧
        q.tower = { s.part.tower with
          sweep := s.part.tower.sweep.map fun w => { w with queryOwed := false } } ∧
        q.sent = (if owed then [.query] else []) ∧
        (∀ f, f ≠ .inkLow → q.attn.isSet f =
          (p.attn.isSet f || (failed && !bad && decide (f = .discRejected)))) ∧
        (q.attn.isSet .inkLow = true ↔ p.attn.isSet .inkLow = true ∨ ∃ k : Fin 4,
          (s.part.inkChannel k).floor ≤ (s.part.inkChannel k).level ∧
            (q.inkChannel k).level < (q.inkChannel k).floor)
      let dropped := fun (n : Drops) (k : Fin 4) =>
        ((#v[n.k, n.c, n.m, n.y] : Vector Nat 4)[k] * (s.part.inkChannel k).dropVolume + 999) / 1000
      let becomes := fun q : Part => Host.Outcome.next (s.became (settle q))
      (∀ n t, ∃ q, exec (.labelDone n t) s = becomes q ∧
        ends (s.part.fresh.heated t) (dropped n) false none q) ∧
      (∀ n t, ∃ q, exec (.labelFailed n t) s = becomes q ∧
        ends (s.part.fresh.heated t) (dropped n) true none q) ∧
      (∀ n, ∃ q, exec (.printerFault n) s = becomes q ∧
        ends s.part.fresh (dropped n) true (some .engine) q) ∧
      ∃ q, exec .labelLimitExpiry s = becomes q ∧
        ends { s.part.fresh with now := max s.part.now due } (fun k => held[k]) true (some .labelTimeout) q) ∧
    (∀ n : Drops,
      (s.part.station.state = .empty ∨ s.part.station.state = .loaded ∨ s.part.station.state = .finished →
        exec (.printerFault n) s = .next (s.became (settle { s.part.fresh with
          station := { s.part.station with state := .fault, faultCause := some .engine } }))) ∧
      (s.part.station.state = .fault ∨ s.part.station.state = .offline →
        exec (.printerFault n) s = .next (s.became (settle s.part.fresh)))))

/-! ## The arm's arbiter and the end of an event -/

/-- The move requests (R52, R54): a record with an eligible order asks for the REJECT BIN in REJECT_BOUND
(class 1), for OUTPUT in OUTBOUND, from PRINTER (class 2) or from elsewhere (class 4), each only while that
sink is not full, and in PRINT_QUEUED in a bay, at the head of the queue, for PRINTER while that is empty
and its station EMPTY (class 3). A record in a bay asks only while the bay is PRESENTING (the model's
reading, log 17, DEDUCED). The move arbiter (R7, R49, R52, R53): with the arm IDLE and the tower RUNNING or
STOPPING the request of the lowest class, and in it of the oldest order, is granted; TRANSFER is sent, or
DELIVER from ARM, which removes the order. With the arm in another state, or the tower in another state,
nothing is granted. With no request waiting the offered pick is granted in RUNNING with ARM empty (class
5). The pick selector (R9, R35 to R37): a bay can take a disc when it is OPEN, enabled, not to be disabled
and supports the class; a spindle offers blanks of its class while it has some and is not empty. With
nothing offered, the tower RUNNING and the arm IDLE the best pick is offered when 2 records are free; with
fewer a held spell begins, TABLE_HELD once. An offered pick whose conditions still hold stays, and one
whose conditions do not is withdrawn. The pick (R8, R9, R32, R35 to R37, R49, R68, R163): the job chosen
has discs to start, a spindle with blanks of its class, A before B, and a destination: the lowest bay that
can take the disc, or for a PRINT job the empty tray, with the print queue empty and the ink for its label
admitted; none of higher priority, or of the same and an older pick, could be picked for. With 2 records
free the grant makes the lowest a FEEDING record at ARM, counts it, reserves the bay, or the label's ink,
and sends PICK; a PRINT pick whose admission fails at the grant is dropped. A pick is chosen whenever one
can be made. -/
def Obligations.ArmArbiter : Prop :=
  (∀ (p : Part) (r : Fin 24) (n : Nat) (dest : Dest), p.request r = some (n, dest) ↔
    ∃ d pl, p.disc r = some d ∧ d.place = some pl ∧ d.eligible.isSome = true ∧
      (∀ b, pl = .bay b → (p.bay b).state = .presenting) ∧
      (n = 1 ∧ dest = .bin ∧ d.stage = .rejectBound ∧ p.bin.count < p.bin.capacity ∨
        n = 2 ∧ dest = .output ∧ d.stage = .outbound ∧ pl = .printer ∧ p.output.count < p.output.capacity ∨
        n = 3 ∧ dest = .printer ∧ d.stage = .printQueued ∧ (∃ b, pl = .bay b) ∧
          p.printQueue.head? = some r ∧ p.occupant .printer = none ∧ p.station.state = .empty ∨
        n = 4 ∧ dest = .output ∧ d.stage = .outbound ∧ pl ≠ .printer ∧ p.output.count < p.output.capacity)) ∧
  (∀ p : Part,
    let asks := fun (r : Fin 24) (n k : Nat) (dest : Dest) => ∃ d, p.disc r = some d ∧
      p.request r = some (n, dest) ∧ d.eligible = some k ∧
      (p.places.arm = none ∨ d.place = some .arm)
    let mayGrant := p.arm.state = .idle ∧ (p.tower.state = .running ∨ p.tower.state = .stopping)
    (¬ mayGrant → grantArm p = p) ∧
    (mayGrant → (∀ r n k dest, ¬ asks r n k dest) →
      (p.offered = none → grantArm p = p) ∧
      (∀ k, p.offered = some k →
        (p.tower.state = .running → p.places.arm = none → grantArm p = grantPick k p) ∧
        (p.tower.state ≠ .running ∨ p.places.arm.isSome = true → grantArm p = p))) ∧
    (∀ r d n k dest pl, mayGrant → asks r n k dest → p.disc r = some d → d.place = some pl →
      (∀ r' n' k' dest', asks r' n' k' dest' → r' ≠ r → n < n' ∨ n = n' ∧ k < k') →
      let m := fun (kind : MoveKind) (gripped : Bool) => some
        { kind := kind, record := r, source := .place pl, dest := dest, gripped := gripped
          missCount := 0, interrupted := false, feed := .single : Move }
      let sending := fun (o : ArmOrder) (mv : Option Move) =>
        { p.arm.sending o (p.now + p.tower.moveTimeout) with state := .moving, halt := none, move := mv }
      (pl ≠ .arm → grantArm p = { p with
        offered := none, sent := p.sent ++ [.arm (.transfer pl dest)]
        arm := sending (.transfer pl dest) (m .transfer false) }) ∧
      (pl = .arm → grantArm p = { p.setDisc r (some { d with eligible := none }) with
        offered := none, sent := p.sent ++ [.arm (.deliver dest)]
        arm := sending (.deliver dest) (m .deliver true) }))) ∧
  ((∀ (x : Bay) (c : DiscClass), x.takes c = true ↔ x.state = .open_ ∧ x.enabled = true ∧
    x.disablePending = false ∧ (match c with | .a => x.supportA | .b => x.supportB).isSome = true) ∧
  (∀ (x : Spindle) (c : DiscClass), x.offers c = true ↔ x.cls = c ∧ 0 < x.count ∧ x.empty = false) ∧
  (∀ p : Part,
    let mayPick := p.tower.state = .running ∧ p.arm.state = .idle
    (p.offered.isSome = true ∨ ¬ mayPick ∨ p.bestPick = none → selectPick p = p) ∧
    (∀ k, p.offered = none → mayPick → p.bestPick = some k →
      (2 ≤ p.freeCount → selectPick p = { p with offered := some k }) ∧
      (p.freeCount < 2 → selectPick p = { p with
        heldSpell := true, attn := if p.heldSpell then p.attn else p.attn.raise .tableHeld p.now })) ∧
    (p.offered = none → checkOffer p = p) ∧
    (∀ k, p.offered = some k →
      let holds := mayPick ∧ 2 ≤ p.freeCount ∧ ∃ j, p.job k.job = some j ∧ j.state = .running ∧
        j.delivered + j.active < j.ordered ∧ (p.spindle k.spindle).offers j.cls = true ∧
        (∀ b, k.dest = .bay b → (p.bay b).takes j.cls = true) ∧
        ((∀ b, k.dest ≠ .bay b) → p.station.state = .empty ∧ p.printQueue = [] ∧
          ∃ n t, j.template = some n ∧ p.template n = some t ∧ p.admits t = true)
      (holds → checkOffer p = p) ∧ (¬ holds → checkOffer p = { p with offered := none })))) ∧
  ((∀ p : Part, p.bestPick = none ↔ ∀ x, p.pickFor x = none) ∧
  (∀ (p : Part) (k : Pick), p.bestPick = some k → p.pickFor k.job = some k ∧
    ∀ x k' a b, p.pickFor x = some k' → p.job k.job = some a → p.job x = some b →
      b.priority < a.priority ∨ b.priority = a.priority ∧ a.lastPick.getD 0 ≤ b.lastPick.getD 0) ∧
  (∀ (p : Part) (x : Fin 16) (j : Job) (k : Pick), p.job x = some j →
    let could := k.job = x ∧ j.state = .running ∧ j.delivered + j.active < j.ordered ∧
      (p.spindle k.spindle).offers j.cls = true ∧ (k.spindle = .b → p.spindleA.offers j.cls = false)
    (j.kind ≠ .print → (p.pickFor x = some k ↔ could ∧
      ∃ b, k.dest = .bay b ∧ (p.bay b).takes j.cls = true ∧
        ∀ c, c < b → (p.bay c).takes j.cls = false)) ∧
    (j.kind = .print → (p.pickFor x = some k ↔ could ∧ k.dest = .printer ∧ p.station.state = .empty ∧
      p.printQueue = [] ∧ ∃ n t, j.template = some n ∧ p.template n = some t ∧ p.admits t = true))) ∧
  (∀ (p : Part) (k : Pick) (j : Job) (r : Fin 24), p.job k.job = some j →
    let drawn := fun (q : Part) (ink : Option (Vector Nat 4)) => { ((q.setDisc r (some
        { Disc.fresh .feeding .pending with
          job := some k.job, place := some .arm, reservation := ink })).setOccupant .arm (some r)).setJob k.job
        (some { j with
          started := j.started + 1, active := j.active + 1
          lastPick := some (nextRank p.pickRanks) }) with
      offered := none, sent := p.sent ++ [.arm (.pick k.spindle k.dest)]
      arm := { p.arm.sending (.pick k.spindle k.dest) (p.now + p.tower.moveTimeout) with
        state := .moving, halt := none
        move := some { kind := .pick, record := r, source := .spindle k.spindle, dest := k.dest
                       gripped := false, missCount := 0, interrupted := false, feed := .single } } }
    p.lowestFree = some r → 2 ≤ p.freeCount →
      (∀ b, k.dest = .bay b → grantPick k p = drawn (p.setBay b ((p.bay b).enter .expecting)) none) ∧
      (∀ n t, k.dest = .printer → j.template = some n → p.template n = some t → p.admits t = true →
        grantPick k p = drawn { p with ink := Vector.ofFn fun i => { p.inkChannel i with
          reserved := (p.inkChannel i).reserved + p.need t i } } (some (p.needs t)))) ∧
  (∀ (p : Part) (k : Pick) (j : Job) (n : Fin 8) (t : Template), k.dest = .printer → p.job k.job = some j →
    j.template = some n → p.template n = some t → p.admits t = false →
    grantPick k p = { p with offered := none }) ∧
  (∀ (p : Part) (k : Pick), p.freeCount < 2 → (∃ b, k.dest = .bay b) ∨ (k.dest = .printer ∧ ∃ j n t,
      p.job k.job = some j ∧ j.template = some n ∧ p.template n = some t ∧ p.admits t = true) →
    grantPick k p = { p with
      offered := none, heldSpell := true
      attn := if p.heldSpell then p.attn else p.attn.raise .tableHeld p.now }))

/-- The evaluations at the end of an event, in the model's fixed order (log 15): tower control, the streams and
the channel arbiter, the label order, the tray rule, the pick selector and the move arbiter, the forecasts.
They leave alone the time, the door, the media table, the spindles, the sinks, the read-backs, the
templates, and the whole stored configuration; and in a part at rest they change nothing at all. -/
def Obligations.EvaluationsFrame : Prop :=
  (∀ p : Part,
    settle p = forecastAll (settleArm (trayRules (labelOrder (settleStreams (settleTower p))))) ∧
    settleArm p = grantArm (selectPick (checkOffer p)) ∧
    forecastAll p = allJobs.foldl (fun p x => forecastJob x p) p ∧
    p.Changes [.attn, .discs, .heldSpell, .jobs, .offered, .places, .arm, .bays, .images,
      .surveyQueue, .channels, .streamReqs, .splitReqs, .readCount, .station, .ink,
      .shortSet, .tower, .sent] (settle p) ∧
    (settle p).tower = { p.tower with
      state := (settle p).tower.state, resume := (settle p).tower.resume
      sweep := (settle p).tower.sweep } ∧
    (settle p).station.warning = p.station.warning ∧
    (settle p).station.critical = p.station.critical ∧
    (∀ b, ((settle p).bay b).supportA = (p.bay b).supportA ∧
      ((settle p).bay b).supportB = (p.bay b).supportB) ∧
    (∀ k, (settle p).inkChannel k = { p.inkChannel k with
      reserved := ((settle p).inkChannel k).reserved }) ∧
    (settle p).arm.liveFrom = p.arm.liveFrom) ∧
  (∀ p : Part, p.tower.state = .stopped → p.tower.sweep = none → (∀ c, p.channel c = .free) →
    p.streamReqs = [] → p.splitReqs = [] → p.surveyQueue = [] → p.offered = none →
    (∀ x j, p.job x = some j → j.state ≠ .running) →
    (∀ b, (p.bay b).state ≠ .presenting) → settle p = p)

end
end

