-- ==== Sys2Proof/Laws/Frames.lean ====
section
/-! SUPPORT. How frames compose: what two updates change together, and when two states that
change the same fields are equal. -/

namespace Sys2Proof.Machine

variable {p q r : Part} {fs gs : List Field}

/-- Nothing changed. -/
theorem Part.Changes.refl (p : Part) (fs : List Field) : p.Changes fs p := by
  intro f _
  cases f <;> rfl

/-- One change after another. -/
theorem Part.Changes.trans (h : p.Changes fs q) (h' : q.Changes fs r) : p.Changes fs r := by
  intro f hf
  have a := h f hf
  have b := h' f hf
  cases f <;> exact b.trans a

/-- A change of fewer fields. -/
theorem Part.Changes.mono (h : p.Changes fs q) (sub : ∀ f ∈ fs, f ∈ gs) : p.Changes gs q :=
  fun f hf => h f fun hf' => hf (sub f hf')

/-- States that differ from one in the same fields, and agree in those, are equal. -/
theorem Part.Changes.eq (h : p.Changes fs q) (h' : p.Changes fs r) (agree : ∀ f ∈ fs, r.SameAt q f) :
    q = r := by
  have all : ∀ f, r.SameAt q f := fun f => by
    by_cases hf : f ∈ fs
    · exact agree f hf
    · have a := h f hf
      have b := h' f hf
      cases f <;> exact a.trans b.symm
  have h_now : q.now = r.now := all .now
  have h_doorOpen : q.doorOpen = r.doorOpen := all .doorOpen
  have h_attn : q.attn = r.attn := all .attn
  have h_discs : q.discs = r.discs := all .discs
  have h_heldSpell : q.heldSpell = r.heldSpell := all .heldSpell
  have h_jobs : q.jobs = r.jobs := all .jobs
  have h_offered : q.offered = r.offered := all .offered
  have h_places : q.places = r.places := all .places
  have h_spindleA : q.spindleA = r.spindleA := all .spindleA
  have h_spindleB : q.spindleB = r.spindleB := all .spindleB
  have h_output : q.output = r.output := all .output
  have h_bin : q.bin = r.bin := all .bin
  have h_arm : q.arm = r.arm := all .arm
  have h_bays : q.bays = r.bays := all .bays
  have h_media : q.media = r.media := all .media
  have h_defaultVerdict : q.defaultVerdict = r.defaultVerdict := all .defaultVerdict
  have h_defaultCap : q.defaultCap = r.defaultCap := all .defaultCap
  have h_images : q.images = r.images := all .images
  have h_surveyQueue : q.surveyQueue = r.surveyQueue := all .surveyQueue
  have h_channels : q.channels = r.channels := all .channels
  have h_streamReqs : q.streamReqs = r.streamReqs := all .streamReqs
  have h_splitReqs : q.splitReqs = r.splitReqs := all .splitReqs
  have h_readCount : q.readCount = r.readCount := all .readCount
  have h_contexts : q.contexts = r.contexts := all .contexts
  have h_station : q.station = r.station := all .station
  have h_templates : q.templates = r.templates := all .templates
  have h_ink : q.ink = r.ink := all .ink
  have h_inkWait : q.inkWait = r.inkWait := all .inkWait
  have h_printQueue : q.printQueue = r.printQueue := all .printQueue
  have h_shortSet : q.shortSet = r.shortSet := all .shortSet
  have h_tower : q.tower = r.tower := all .tower
  have h_sent : q.sent = r.sent := all .sent
  clear h h' agree all
  cases q
  cases r
  simp only [Part.mk.injEq]
  exact ⟨h_now, h_doorOpen, h_attn, h_discs, h_heldSpell, h_jobs, h_offered, h_places, h_spindleA,
    h_spindleB, h_output, h_bin, h_arm, h_bays, h_media, h_defaultVerdict, h_defaultCap, h_images,
    h_surveyQueue, h_channels, h_streamReqs, h_splitReqs, h_readCount, h_contexts, h_station,
    h_templates, h_ink, h_inkWait, h_printQueue, h_shortSet, h_tower, h_sent⟩

end Sys2Proof.Machine
end

