-- ==== Sys2Proof/Laws/State.lean ====
section
/-! SUPPORT. One small lemma per field and per update of the records: what an update leaves alone, and what
it writes. -/

namespace Sys2Proof.Machine

variable (p : Part)


/-! ### `Part.setDisc` -/

@[simp] theorem Part.setDisc_now (r : Fin 24) (x : Option Disc) : (p.setDisc r x).now = p.now := rfl
@[simp] theorem Part.setDisc_doorOpen (r : Fin 24) (x : Option Disc) :
    (p.setDisc r x).doorOpen = p.doorOpen := rfl
@[simp] theorem Part.setDisc_attn (r : Fin 24) (x : Option Disc) : (p.setDisc r x).attn = p.attn := rfl
@[simp] theorem Part.setDisc_heldSpell (r : Fin 24) (x : Option Disc) :
    (p.setDisc r x).heldSpell = p.heldSpell := rfl
@[simp] theorem Part.setDisc_jobs (r : Fin 24) (x : Option Disc) : (p.setDisc r x).jobs = p.jobs := rfl
@[simp] theorem Part.setDisc_offered (r : Fin 24) (x : Option Disc) :
    (p.setDisc r x).offered = p.offered := rfl
@[simp] theorem Part.setDisc_places (r : Fin 24) (x : Option Disc) :
    (p.setDisc r x).places = p.places := rfl
@[simp] theorem Part.setDisc_spindleA (r : Fin 24) (x : Option Disc) :
    (p.setDisc r x).spindleA = p.spindleA := rfl
@[simp] theorem Part.setDisc_spindleB (r : Fin 24) (x : Option Disc) :
    (p.setDisc r x).spindleB = p.spindleB := rfl
@[simp] theorem Part.setDisc_output (r : Fin 24) (x : Option Disc) :
    (p.setDisc r x).output = p.output := rfl
@[simp] theorem Part.setDisc_bin (r : Fin 24) (x : Option Disc) : (p.setDisc r x).bin = p.bin := rfl
@[simp] theorem Part.setDisc_arm (r : Fin 24) (x : Option Disc) : (p.setDisc r x).arm = p.arm := rfl
@[simp] theorem Part.setDisc_bays (r : Fin 24) (x : Option Disc) : (p.setDisc r x).bays = p.bays := rfl
@[simp] theorem Part.setDisc_media (r : Fin 24) (x : Option Disc) :
    (p.setDisc r x).media = p.media := rfl
@[simp] theorem Part.setDisc_defaultVerdict (r : Fin 24) (x : Option Disc) :
    (p.setDisc r x).defaultVerdict = p.defaultVerdict := rfl
@[simp] theorem Part.setDisc_defaultCap (r : Fin 24) (x : Option Disc) :
    (p.setDisc r x).defaultCap = p.defaultCap := rfl
@[simp] theorem Part.setDisc_images (r : Fin 24) (x : Option Disc) :
    (p.setDisc r x).images = p.images := rfl
@[simp] theorem Part.setDisc_surveyQueue (r : Fin 24) (x : Option Disc) :
    (p.setDisc r x).surveyQueue = p.surveyQueue := rfl
@[simp] theorem Part.setDisc_channels (r : Fin 24) (x : Option Disc) :
    (p.setDisc r x).channels = p.channels := rfl
@[simp] theorem Part.setDisc_streamReqs (r : Fin 24) (x : Option Disc) :
    (p.setDisc r x).streamReqs = p.streamReqs := rfl
@[simp] theorem Part.setDisc_splitReqs (r : Fin 24) (x : Option Disc) :
    (p.setDisc r x).splitReqs = p.splitReqs := rfl
@[simp] theorem Part.setDisc_readCount (r : Fin 24) (x : Option Disc) :
    (p.setDisc r x).readCount = p.readCount := rfl
@[simp] theorem Part.setDisc_contexts (r : Fin 24) (x : Option Disc) :
    (p.setDisc r x).contexts = p.contexts := rfl
@[simp] theorem Part.setDisc_station (r : Fin 24) (x : Option Disc) :
    (p.setDisc r x).station = p.station := rfl
@[simp] theorem Part.setDisc_templates (r : Fin 24) (x : Option Disc) :
    (p.setDisc r x).templates = p.templates := rfl
@[simp] theorem Part.setDisc_ink (r : Fin 24) (x : Option Disc) : (p.setDisc r x).ink = p.ink := rfl
@[simp] theorem Part.setDisc_inkWait (r : Fin 24) (x : Option Disc) :
    (p.setDisc r x).inkWait = p.inkWait := rfl
@[simp] theorem Part.setDisc_printQueue (r : Fin 24) (x : Option Disc) :
    (p.setDisc r x).printQueue = p.printQueue := rfl
@[simp] theorem Part.setDisc_shortSet (r : Fin 24) (x : Option Disc) :
    (p.setDisc r x).shortSet = p.shortSet := rfl
@[simp] theorem Part.setDisc_tower (r : Fin 24) (x : Option Disc) :
    (p.setDisc r x).tower = p.tower := rfl
@[simp] theorem Part.setDisc_sent (r : Fin 24) (x : Option Disc) : (p.setDisc r x).sent = p.sent := rfl
@[simp] theorem Part.setDisc_job (r : Fin 24) (x : Option Disc) (a' : Fin 16) :
    (p.setDisc r x).job a' = p.job a' := rfl
@[simp] theorem Part.setDisc_bay (r : Fin 24) (x : Option Disc) (a' : Fin 12) :
    (p.setDisc r x).bay a' = p.bay a' := rfl
@[simp] theorem Part.setDisc_image (r : Fin 24) (x : Option Disc) (a' : Fin 32) :
    (p.setDisc r x).image a' = p.image a' := rfl
@[simp] theorem Part.setDisc_channel (r : Fin 24) (x : Option Disc) (a' : Fin 4) :
    (p.setDisc r x).channel a' = p.channel a' := rfl
@[simp] theorem Part.setDisc_template (r : Fin 24) (x : Option Disc) (a' : Fin 8) :
    (p.setDisc r x).template a' = p.template a' := rfl
@[simp] theorem Part.setDisc_entry (r : Fin 24) (x : Option Disc) (a' : Fin 16) :
    (p.setDisc r x).entry a' = p.entry a' := rfl
@[simp] theorem Part.setDisc_context (r : Fin 24) (x : Option Disc) (a' : Fin 12) :
    (p.setDisc r x).context a' = p.context a' := rfl
@[simp] theorem Part.setDisc_inkChannel (r : Fin 24) (x : Option Disc) (a' : Fin 4) :
    (p.setDisc r x).inkChannel a' = p.inkChannel a' := rfl
@[simp] theorem Part.setDisc_spindle (r : Fin 24) (x : Option Disc) (a' : SpindleId) :
    (p.setDisc r x).spindle a' = p.spindle a' := by
  cases a' <;> rfl
@[simp] theorem Part.setDisc_occupant (r : Fin 24) (x : Option Disc) (a' : Place) :
    (p.setDisc r x).occupant a' = p.occupant a' := by
  cases a' <;> rfl
@[simp] theorem Part.setDisc_self (r : Fin 24) (x : Option Disc) :
    (p.setDisc r x).disc r = x := by simp [Part.setDisc, Part.disc]
theorem Part.setDisc_other (r : Fin 24) (x : Option Disc) (r' : Fin 24) (h : r' ≠ r) :
    (p.setDisc r x).disc r' = p.disc r' := by
  have : r.val ≠ r'.val := fun e => h (Fin.ext e.symm)
  simp [Part.setDisc, Part.disc, this]
theorem Part.setDisc_get (r : Fin 24) (x : Option Disc) (r' : Fin 24) :
    (p.setDisc r x).disc r' = if r' = r then x else p.disc r' := by
  by_cases h : r' = r
  · subst h; simp
  · rw [if_neg h, Part.setDisc_other p r x r' h]

/-! ### `Part.setJob` -/

@[simp] theorem Part.setJob_now (j : Fin 16) (x : Option Job) : (p.setJob j x).now = p.now := rfl
@[simp] theorem Part.setJob_doorOpen (j : Fin 16) (x : Option Job) :
    (p.setJob j x).doorOpen = p.doorOpen := rfl
@[simp] theorem Part.setJob_attn (j : Fin 16) (x : Option Job) : (p.setJob j x).attn = p.attn := rfl
@[simp] theorem Part.setJob_discs (j : Fin 16) (x : Option Job) : (p.setJob j x).discs = p.discs := rfl
@[simp] theorem Part.setJob_heldSpell (j : Fin 16) (x : Option Job) :
    (p.setJob j x).heldSpell = p.heldSpell := rfl
@[simp] theorem Part.setJob_offered (j : Fin 16) (x : Option Job) :
    (p.setJob j x).offered = p.offered := rfl
@[simp] theorem Part.setJob_places (j : Fin 16) (x : Option Job) :
    (p.setJob j x).places = p.places := rfl
@[simp] theorem Part.setJob_spindleA (j : Fin 16) (x : Option Job) :
    (p.setJob j x).spindleA = p.spindleA := rfl
@[simp] theorem Part.setJob_spindleB (j : Fin 16) (x : Option Job) :
    (p.setJob j x).spindleB = p.spindleB := rfl
@[simp] theorem Part.setJob_output (j : Fin 16) (x : Option Job) :
    (p.setJob j x).output = p.output := rfl
@[simp] theorem Part.setJob_bin (j : Fin 16) (x : Option Job) : (p.setJob j x).bin = p.bin := rfl
@[simp] theorem Part.setJob_arm (j : Fin 16) (x : Option Job) : (p.setJob j x).arm = p.arm := rfl
@[simp] theorem Part.setJob_bays (j : Fin 16) (x : Option Job) : (p.setJob j x).bays = p.bays := rfl
@[simp] theorem Part.setJob_media (j : Fin 16) (x : Option Job) : (p.setJob j x).media = p.media := rfl
@[simp] theorem Part.setJob_defaultVerdict (j : Fin 16) (x : Option Job) :
    (p.setJob j x).defaultVerdict = p.defaultVerdict := rfl
@[simp] theorem Part.setJob_defaultCap (j : Fin 16) (x : Option Job) :
    (p.setJob j x).defaultCap = p.defaultCap := rfl
@[simp] theorem Part.setJob_images (j : Fin 16) (x : Option Job) :
    (p.setJob j x).images = p.images := rfl
@[simp] theorem Part.setJob_surveyQueue (j : Fin 16) (x : Option Job) :
    (p.setJob j x).surveyQueue = p.surveyQueue := rfl
@[simp] theorem Part.setJob_channels (j : Fin 16) (x : Option Job) :
    (p.setJob j x).channels = p.channels := rfl
@[simp] theorem Part.setJob_streamReqs (j : Fin 16) (x : Option Job) :
    (p.setJob j x).streamReqs = p.streamReqs := rfl
@[simp] theorem Part.setJob_splitReqs (j : Fin 16) (x : Option Job) :
    (p.setJob j x).splitReqs = p.splitReqs := rfl
@[simp] theorem Part.setJob_readCount (j : Fin 16) (x : Option Job) :
    (p.setJob j x).readCount = p.readCount := rfl
@[simp] theorem Part.setJob_contexts (j : Fin 16) (x : Option Job) :
    (p.setJob j x).contexts = p.contexts := rfl
@[simp] theorem Part.setJob_station (j : Fin 16) (x : Option Job) :
    (p.setJob j x).station = p.station := rfl
@[simp] theorem Part.setJob_templates (j : Fin 16) (x : Option Job) :
    (p.setJob j x).templates = p.templates := rfl
@[simp] theorem Part.setJob_ink (j : Fin 16) (x : Option Job) : (p.setJob j x).ink = p.ink := rfl
@[simp] theorem Part.setJob_inkWait (j : Fin 16) (x : Option Job) :
    (p.setJob j x).inkWait = p.inkWait := rfl
@[simp] theorem Part.setJob_printQueue (j : Fin 16) (x : Option Job) :
    (p.setJob j x).printQueue = p.printQueue := rfl
@[simp] theorem Part.setJob_shortSet (j : Fin 16) (x : Option Job) :
    (p.setJob j x).shortSet = p.shortSet := rfl
@[simp] theorem Part.setJob_tower (j : Fin 16) (x : Option Job) : (p.setJob j x).tower = p.tower := rfl
@[simp] theorem Part.setJob_sent (j : Fin 16) (x : Option Job) : (p.setJob j x).sent = p.sent := rfl
@[simp] theorem Part.setJob_disc (j : Fin 16) (x : Option Job) (a' : Fin 24) :
    (p.setJob j x).disc a' = p.disc a' := rfl
@[simp] theorem Part.setJob_bay (j : Fin 16) (x : Option Job) (a' : Fin 12) :
    (p.setJob j x).bay a' = p.bay a' := rfl
@[simp] theorem Part.setJob_image (j : Fin 16) (x : Option Job) (a' : Fin 32) :
    (p.setJob j x).image a' = p.image a' := rfl
@[simp] theorem Part.setJob_channel (j : Fin 16) (x : Option Job) (a' : Fin 4) :
    (p.setJob j x).channel a' = p.channel a' := rfl
@[simp] theorem Part.setJob_template (j : Fin 16) (x : Option Job) (a' : Fin 8) :
    (p.setJob j x).template a' = p.template a' := rfl
@[simp] theorem Part.setJob_entry (j : Fin 16) (x : Option Job) (a' : Fin 16) :
    (p.setJob j x).entry a' = p.entry a' := rfl
@[simp] theorem Part.setJob_context (j : Fin 16) (x : Option Job) (a' : Fin 12) :
    (p.setJob j x).context a' = p.context a' := rfl
@[simp] theorem Part.setJob_inkChannel (j : Fin 16) (x : Option Job) (a' : Fin 4) :
    (p.setJob j x).inkChannel a' = p.inkChannel a' := rfl
@[simp] theorem Part.setJob_spindle (j : Fin 16) (x : Option Job) (a' : SpindleId) :
    (p.setJob j x).spindle a' = p.spindle a' := by
  cases a' <;> rfl
@[simp] theorem Part.setJob_occupant (j : Fin 16) (x : Option Job) (a' : Place) :
    (p.setJob j x).occupant a' = p.occupant a' := by
  cases a' <;> rfl
@[simp] theorem Part.setJob_self (j : Fin 16) (x : Option Job) :
    (p.setJob j x).job j = x := by simp [Part.setJob, Part.job]
theorem Part.setJob_other (j : Fin 16) (x : Option Job) (j' : Fin 16) (h : j' ≠ j) :
    (p.setJob j x).job j' = p.job j' := by
  have : j.val ≠ j'.val := fun e => h (Fin.ext e.symm)
  simp [Part.setJob, Part.job, this]
theorem Part.setJob_get (j : Fin 16) (x : Option Job) (j' : Fin 16) :
    (p.setJob j x).job j' = if j' = j then x else p.job j' := by
  by_cases h : j' = j
  · subst h; simp
  · rw [if_neg h, Part.setJob_other p j x j' h]

/-! ### `Part.setBay` -/

@[simp] theorem Part.setBay_now (b : Fin 12) (x : Bay) : (p.setBay b x).now = p.now := rfl
@[simp] theorem Part.setBay_doorOpen (b : Fin 12) (x : Bay) :
    (p.setBay b x).doorOpen = p.doorOpen := rfl
@[simp] theorem Part.setBay_attn (b : Fin 12) (x : Bay) : (p.setBay b x).attn = p.attn := rfl
@[simp] theorem Part.setBay_discs (b : Fin 12) (x : Bay) : (p.setBay b x).discs = p.discs := rfl
@[simp] theorem Part.setBay_heldSpell (b : Fin 12) (x : Bay) :
    (p.setBay b x).heldSpell = p.heldSpell := rfl
@[simp] theorem Part.setBay_jobs (b : Fin 12) (x : Bay) : (p.setBay b x).jobs = p.jobs := rfl
@[simp] theorem Part.setBay_offered (b : Fin 12) (x : Bay) : (p.setBay b x).offered = p.offered := rfl
@[simp] theorem Part.setBay_places (b : Fin 12) (x : Bay) : (p.setBay b x).places = p.places := rfl
@[simp] theorem Part.setBay_spindleA (b : Fin 12) (x : Bay) :
    (p.setBay b x).spindleA = p.spindleA := rfl
@[simp] theorem Part.setBay_spindleB (b : Fin 12) (x : Bay) :
    (p.setBay b x).spindleB = p.spindleB := rfl
@[simp] theorem Part.setBay_output (b : Fin 12) (x : Bay) : (p.setBay b x).output = p.output := rfl
@[simp] theorem Part.setBay_bin (b : Fin 12) (x : Bay) : (p.setBay b x).bin = p.bin := rfl
@[simp] theorem Part.setBay_arm (b : Fin 12) (x : Bay) : (p.setBay b x).arm = p.arm := rfl
@[simp] theorem Part.setBay_media (b : Fin 12) (x : Bay) : (p.setBay b x).media = p.media := rfl
@[simp] theorem Part.setBay_defaultVerdict (b : Fin 12) (x : Bay) :
    (p.setBay b x).defaultVerdict = p.defaultVerdict := rfl
@[simp] theorem Part.setBay_defaultCap (b : Fin 12) (x : Bay) :
    (p.setBay b x).defaultCap = p.defaultCap := rfl
@[simp] theorem Part.setBay_images (b : Fin 12) (x : Bay) : (p.setBay b x).images = p.images := rfl
@[simp] theorem Part.setBay_surveyQueue (b : Fin 12) (x : Bay) :
    (p.setBay b x).surveyQueue = p.surveyQueue := rfl
@[simp] theorem Part.setBay_channels (b : Fin 12) (x : Bay) :
    (p.setBay b x).channels = p.channels := rfl
@[simp] theorem Part.setBay_streamReqs (b : Fin 12) (x : Bay) :
    (p.setBay b x).streamReqs = p.streamReqs := rfl
@[simp] theorem Part.setBay_splitReqs (b : Fin 12) (x : Bay) :
    (p.setBay b x).splitReqs = p.splitReqs := rfl
@[simp] theorem Part.setBay_readCount (b : Fin 12) (x : Bay) :
    (p.setBay b x).readCount = p.readCount := rfl
@[simp] theorem Part.setBay_contexts (b : Fin 12) (x : Bay) :
    (p.setBay b x).contexts = p.contexts := rfl
@[simp] theorem Part.setBay_station (b : Fin 12) (x : Bay) : (p.setBay b x).station = p.station := rfl
@[simp] theorem Part.setBay_templates (b : Fin 12) (x : Bay) :
    (p.setBay b x).templates = p.templates := rfl
@[simp] theorem Part.setBay_ink (b : Fin 12) (x : Bay) : (p.setBay b x).ink = p.ink := rfl
@[simp] theorem Part.setBay_inkWait (b : Fin 12) (x : Bay) : (p.setBay b x).inkWait = p.inkWait := rfl
@[simp] theorem Part.setBay_printQueue (b : Fin 12) (x : Bay) :
    (p.setBay b x).printQueue = p.printQueue := rfl
@[simp] theorem Part.setBay_shortSet (b : Fin 12) (x : Bay) :
    (p.setBay b x).shortSet = p.shortSet := rfl
@[simp] theorem Part.setBay_tower (b : Fin 12) (x : Bay) : (p.setBay b x).tower = p.tower := rfl
@[simp] theorem Part.setBay_sent (b : Fin 12) (x : Bay) : (p.setBay b x).sent = p.sent := rfl
@[simp] theorem Part.setBay_disc (b : Fin 12) (x : Bay) (a' : Fin 24) :
    (p.setBay b x).disc a' = p.disc a' := rfl
@[simp] theorem Part.setBay_job (b : Fin 12) (x : Bay) (a' : Fin 16) :
    (p.setBay b x).job a' = p.job a' := rfl
@[simp] theorem Part.setBay_image (b : Fin 12) (x : Bay) (a' : Fin 32) :
    (p.setBay b x).image a' = p.image a' := rfl
@[simp] theorem Part.setBay_channel (b : Fin 12) (x : Bay) (a' : Fin 4) :
    (p.setBay b x).channel a' = p.channel a' := rfl
@[simp] theorem Part.setBay_template (b : Fin 12) (x : Bay) (a' : Fin 8) :
    (p.setBay b x).template a' = p.template a' := rfl
@[simp] theorem Part.setBay_entry (b : Fin 12) (x : Bay) (a' : Fin 16) :
    (p.setBay b x).entry a' = p.entry a' := rfl
@[simp] theorem Part.setBay_context (b : Fin 12) (x : Bay) (a' : Fin 12) :
    (p.setBay b x).context a' = p.context a' := rfl
@[simp] theorem Part.setBay_inkChannel (b : Fin 12) (x : Bay) (a' : Fin 4) :
    (p.setBay b x).inkChannel a' = p.inkChannel a' := rfl
@[simp] theorem Part.setBay_spindle (b : Fin 12) (x : Bay) (a' : SpindleId) :
    (p.setBay b x).spindle a' = p.spindle a' := by
  cases a' <;> rfl
@[simp] theorem Part.setBay_occupant (b : Fin 12) (x : Bay) (a' : Place) :
    (p.setBay b x).occupant a' = p.occupant a' := by
  cases a' <;> rfl
@[simp] theorem Part.setBay_self (b : Fin 12) (x : Bay) :
    (p.setBay b x).bay b = x := by simp [Part.setBay, Part.bay]
theorem Part.setBay_other (b : Fin 12) (x : Bay) (b' : Fin 12) (h : b' ≠ b) :
    (p.setBay b x).bay b' = p.bay b' := by
  have : b.val ≠ b'.val := fun e => h (Fin.ext e.symm)
  simp [Part.setBay, Part.bay, this]
theorem Part.setBay_get (b : Fin 12) (x : Bay) (b' : Fin 12) :
    (p.setBay b x).bay b' = if b' = b then x else p.bay b' := by
  by_cases h : b' = b
  · subst h; simp
  · rw [if_neg h, Part.setBay_other p b x b' h]

/-! ### `Part.setImage` -/

@[simp] theorem Part.setImage_now (i : Fin 32) (x : Option Image) : (p.setImage i x).now = p.now := rfl
@[simp] theorem Part.setImage_doorOpen (i : Fin 32) (x : Option Image) :
    (p.setImage i x).doorOpen = p.doorOpen := rfl
@[simp] theorem Part.setImage_attn (i : Fin 32) (x : Option Image) :
    (p.setImage i x).attn = p.attn := rfl
@[simp] theorem Part.setImage_discs (i : Fin 32) (x : Option Image) :
    (p.setImage i x).discs = p.discs := rfl
@[simp] theorem Part.setImage_heldSpell (i : Fin 32) (x : Option Image) :
    (p.setImage i x).heldSpell = p.heldSpell := rfl
@[simp] theorem Part.setImage_jobs (i : Fin 32) (x : Option Image) :
    (p.setImage i x).jobs = p.jobs := rfl
@[simp] theorem Part.setImage_offered (i : Fin 32) (x : Option Image) :
    (p.setImage i x).offered = p.offered := rfl
@[simp] theorem Part.setImage_places (i : Fin 32) (x : Option Image) :
    (p.setImage i x).places = p.places := rfl
@[simp] theorem Part.setImage_spindleA (i : Fin 32) (x : Option Image) :
    (p.setImage i x).spindleA = p.spindleA := rfl
@[simp] theorem Part.setImage_spindleB (i : Fin 32) (x : Option Image) :
    (p.setImage i x).spindleB = p.spindleB := rfl
@[simp] theorem Part.setImage_output (i : Fin 32) (x : Option Image) :
    (p.setImage i x).output = p.output := rfl
@[simp] theorem Part.setImage_bin (i : Fin 32) (x : Option Image) : (p.setImage i x).bin = p.bin := rfl
@[simp] theorem Part.setImage_arm (i : Fin 32) (x : Option Image) : (p.setImage i x).arm = p.arm := rfl
@[simp] theorem Part.setImage_bays (i : Fin 32) (x : Option Image) :
    (p.setImage i x).bays = p.bays := rfl
@[simp] theorem Part.setImage_media (i : Fin 32) (x : Option Image) :
    (p.setImage i x).media = p.media := rfl
@[simp] theorem Part.setImage_defaultVerdict (i : Fin 32) (x : Option Image) :
    (p.setImage i x).defaultVerdict = p.defaultVerdict := rfl
@[simp] theorem Part.setImage_defaultCap (i : Fin 32) (x : Option Image) :
    (p.setImage i x).defaultCap = p.defaultCap := rfl
@[simp] theorem Part.setImage_surveyQueue (i : Fin 32) (x : Option Image) :
    (p.setImage i x).surveyQueue = p.surveyQueue := rfl
@[simp] theorem Part.setImage_channels (i : Fin 32) (x : Option Image) :
    (p.setImage i x).channels = p.channels := rfl
@[simp] theorem Part.setImage_streamReqs (i : Fin 32) (x : Option Image) :
    (p.setImage i x).streamReqs = p.streamReqs := rfl
@[simp] theorem Part.setImage_splitReqs (i : Fin 32) (x : Option Image) :
    (p.setImage i x).splitReqs = p.splitReqs := rfl
@[simp] theorem Part.setImage_readCount (i : Fin 32) (x : Option Image) :
    (p.setImage i x).readCount = p.readCount := rfl
@[simp] theorem Part.setImage_contexts (i : Fin 32) (x : Option Image) :
    (p.setImage i x).contexts = p.contexts := rfl
@[simp] theorem Part.setImage_station (i : Fin 32) (x : Option Image) :
    (p.setImage i x).station = p.station := rfl
@[simp] theorem Part.setImage_templates (i : Fin 32) (x : Option Image) :
    (p.setImage i x).templates = p.templates := rfl
@[simp] theorem Part.setImage_ink (i : Fin 32) (x : Option Image) : (p.setImage i x).ink = p.ink := rfl
@[simp] theorem Part.setImage_inkWait (i : Fin 32) (x : Option Image) :
    (p.setImage i x).inkWait = p.inkWait := rfl
@[simp] theorem Part.setImage_printQueue (i : Fin 32) (x : Option Image) :
    (p.setImage i x).printQueue = p.printQueue := rfl
@[simp] theorem Part.setImage_shortSet (i : Fin 32) (x : Option Image) :
    (p.setImage i x).shortSet = p.shortSet := rfl
@[simp] theorem Part.setImage_tower (i : Fin 32) (x : Option Image) :
    (p.setImage i x).tower = p.tower := rfl
@[simp] theorem Part.setImage_sent (i : Fin 32) (x : Option Image) :
    (p.setImage i x).sent = p.sent := rfl
@[simp] theorem Part.setImage_disc (i : Fin 32) (x : Option Image) (a' : Fin 24) :
    (p.setImage i x).disc a' = p.disc a' := rfl
@[simp] theorem Part.setImage_job (i : Fin 32) (x : Option Image) (a' : Fin 16) :
    (p.setImage i x).job a' = p.job a' := rfl
@[simp] theorem Part.setImage_bay (i : Fin 32) (x : Option Image) (a' : Fin 12) :
    (p.setImage i x).bay a' = p.bay a' := rfl
@[simp] theorem Part.setImage_channel (i : Fin 32) (x : Option Image) (a' : Fin 4) :
    (p.setImage i x).channel a' = p.channel a' := rfl
@[simp] theorem Part.setImage_template (i : Fin 32) (x : Option Image) (a' : Fin 8) :
    (p.setImage i x).template a' = p.template a' := rfl
@[simp] theorem Part.setImage_entry (i : Fin 32) (x : Option Image) (a' : Fin 16) :
    (p.setImage i x).entry a' = p.entry a' := rfl
@[simp] theorem Part.setImage_context (i : Fin 32) (x : Option Image) (a' : Fin 12) :
    (p.setImage i x).context a' = p.context a' := rfl
@[simp] theorem Part.setImage_inkChannel (i : Fin 32) (x : Option Image) (a' : Fin 4) :
    (p.setImage i x).inkChannel a' = p.inkChannel a' := rfl
@[simp] theorem Part.setImage_spindle (i : Fin 32) (x : Option Image) (a' : SpindleId) :
    (p.setImage i x).spindle a' = p.spindle a' := by
  cases a' <;> rfl
@[simp] theorem Part.setImage_occupant (i : Fin 32) (x : Option Image) (a' : Place) :
    (p.setImage i x).occupant a' = p.occupant a' := by
  cases a' <;> rfl
@[simp] theorem Part.setImage_self (i : Fin 32) (x : Option Image) :
    (p.setImage i x).image i = x := by simp [Part.setImage, Part.image]
theorem Part.setImage_other (i : Fin 32) (x : Option Image) (i' : Fin 32) (h : i' ≠ i) :
    (p.setImage i x).image i' = p.image i' := by
  have : i.val ≠ i'.val := fun e => h (Fin.ext e.symm)
  simp [Part.setImage, Part.image, this]
theorem Part.setImage_get (i : Fin 32) (x : Option Image) (i' : Fin 32) :
    (p.setImage i x).image i' = if i' = i then x else p.image i' := by
  by_cases h : i' = i
  · subst h; simp
  · rw [if_neg h, Part.setImage_other p i x i' h]

/-! ### `Part.setChannel` -/

@[simp] theorem Part.setChannel_now (c : Fin 4) (x : Channel) : (p.setChannel c x).now = p.now := rfl
@[simp] theorem Part.setChannel_doorOpen (c : Fin 4) (x : Channel) :
    (p.setChannel c x).doorOpen = p.doorOpen := rfl
@[simp] theorem Part.setChannel_attn (c : Fin 4) (x : Channel) : (p.setChannel c x).attn = p.attn := rfl
@[simp] theorem Part.setChannel_discs (c : Fin 4) (x : Channel) :
    (p.setChannel c x).discs = p.discs := rfl
@[simp] theorem Part.setChannel_heldSpell (c : Fin 4) (x : Channel) :
    (p.setChannel c x).heldSpell = p.heldSpell := rfl
@[simp] theorem Part.setChannel_jobs (c : Fin 4) (x : Channel) : (p.setChannel c x).jobs = p.jobs := rfl
@[simp] theorem Part.setChannel_offered (c : Fin 4) (x : Channel) :
    (p.setChannel c x).offered = p.offered := rfl
@[simp] theorem Part.setChannel_places (c : Fin 4) (x : Channel) :
    (p.setChannel c x).places = p.places := rfl
@[simp] theorem Part.setChannel_spindleA (c : Fin 4) (x : Channel) :
    (p.setChannel c x).spindleA = p.spindleA := rfl
@[simp] theorem Part.setChannel_spindleB (c : Fin 4) (x : Channel) :
    (p.setChannel c x).spindleB = p.spindleB := rfl
@[simp] theorem Part.setChannel_output (c : Fin 4) (x : Channel) :
    (p.setChannel c x).output = p.output := rfl
@[simp] theorem Part.setChannel_bin (c : Fin 4) (x : Channel) : (p.setChannel c x).bin = p.bin := rfl
@[simp] theorem Part.setChannel_arm (c : Fin 4) (x : Channel) : (p.setChannel c x).arm = p.arm := rfl
@[simp] theorem Part.setChannel_bays (c : Fin 4) (x : Channel) : (p.setChannel c x).bays = p.bays := rfl
@[simp] theorem Part.setChannel_media (c : Fin 4) (x : Channel) :
    (p.setChannel c x).media = p.media := rfl
@[simp] theorem Part.setChannel_defaultVerdict (c : Fin 4) (x : Channel) :
    (p.setChannel c x).defaultVerdict = p.defaultVerdict := rfl
@[simp] theorem Part.setChannel_defaultCap (c : Fin 4) (x : Channel) :
    (p.setChannel c x).defaultCap = p.defaultCap := rfl
@[simp] theorem Part.setChannel_images (c : Fin 4) (x : Channel) :
    (p.setChannel c x).images = p.images := rfl
@[simp] theorem Part.setChannel_surveyQueue (c : Fin 4) (x : Channel) :
    (p.setChannel c x).surveyQueue = p.surveyQueue := rfl
@[simp] theorem Part.setChannel_streamReqs (c : Fin 4) (x : Channel) :
    (p.setChannel c x).streamReqs = p.streamReqs := rfl
@[simp] theorem Part.setChannel_splitReqs (c : Fin 4) (x : Channel) :
    (p.setChannel c x).splitReqs = p.splitReqs := rfl
@[simp] theorem Part.setChannel_readCount (c : Fin 4) (x : Channel) :
    (p.setChannel c x).readCount = p.readCount := rfl
@[simp] theorem Part.setChannel_contexts (c : Fin 4) (x : Channel) :
    (p.setChannel c x).contexts = p.contexts := rfl
@[simp] theorem Part.setChannel_station (c : Fin 4) (x : Channel) :
    (p.setChannel c x).station = p.station := rfl
@[simp] theorem Part.setChannel_templates (c : Fin 4) (x : Channel) :
    (p.setChannel c x).templates = p.templates := rfl
@[simp] theorem Part.setChannel_ink (c : Fin 4) (x : Channel) : (p.setChannel c x).ink = p.ink := rfl
@[simp] theorem Part.setChannel_inkWait (c : Fin 4) (x : Channel) :
    (p.setChannel c x).inkWait = p.inkWait := rfl
@[simp] theorem Part.setChannel_printQueue (c : Fin 4) (x : Channel) :
    (p.setChannel c x).printQueue = p.printQueue := rfl
@[simp] theorem Part.setChannel_shortSet (c : Fin 4) (x : Channel) :
    (p.setChannel c x).shortSet = p.shortSet := rfl
@[simp] theorem Part.setChannel_tower (c : Fin 4) (x : Channel) :
    (p.setChannel c x).tower = p.tower := rfl
@[simp] theorem Part.setChannel_sent (c : Fin 4) (x : Channel) : (p.setChannel c x).sent = p.sent := rfl
@[simp] theorem Part.setChannel_disc (c : Fin 4) (x : Channel) (a' : Fin 24) :
    (p.setChannel c x).disc a' = p.disc a' := rfl
@[simp] theorem Part.setChannel_job (c : Fin 4) (x : Channel) (a' : Fin 16) :
    (p.setChannel c x).job a' = p.job a' := rfl
@[simp] theorem Part.setChannel_bay (c : Fin 4) (x : Channel) (a' : Fin 12) :
    (p.setChannel c x).bay a' = p.bay a' := rfl
@[simp] theorem Part.setChannel_image (c : Fin 4) (x : Channel) (a' : Fin 32) :
    (p.setChannel c x).image a' = p.image a' := rfl
@[simp] theorem Part.setChannel_template (c : Fin 4) (x : Channel) (a' : Fin 8) :
    (p.setChannel c x).template a' = p.template a' := rfl
@[simp] theorem Part.setChannel_entry (c : Fin 4) (x : Channel) (a' : Fin 16) :
    (p.setChannel c x).entry a' = p.entry a' := rfl
@[simp] theorem Part.setChannel_context (c : Fin 4) (x : Channel) (a' : Fin 12) :
    (p.setChannel c x).context a' = p.context a' := rfl
@[simp] theorem Part.setChannel_inkChannel (c : Fin 4) (x : Channel) (a' : Fin 4) :
    (p.setChannel c x).inkChannel a' = p.inkChannel a' := rfl
@[simp] theorem Part.setChannel_spindle (c : Fin 4) (x : Channel) (a' : SpindleId) :
    (p.setChannel c x).spindle a' = p.spindle a' := by
  cases a' <;> rfl
@[simp] theorem Part.setChannel_occupant (c : Fin 4) (x : Channel) (a' : Place) :
    (p.setChannel c x).occupant a' = p.occupant a' := by
  cases a' <;> rfl
@[simp] theorem Part.setChannel_self (c : Fin 4) (x : Channel) :
    (p.setChannel c x).channel c = x := by simp [Part.setChannel, Part.channel]
theorem Part.setChannel_other (c : Fin 4) (x : Channel) (c' : Fin 4) (h : c' ≠ c) :
    (p.setChannel c x).channel c' = p.channel c' := by
  have : c.val ≠ c'.val := fun e => h (Fin.ext e.symm)
  simp [Part.setChannel, Part.channel, this]
theorem Part.setChannel_get (c : Fin 4) (x : Channel) (c' : Fin 4) :
    (p.setChannel c x).channel c' = if c' = c then x else p.channel c' := by
  by_cases h : c' = c
  · subst h; simp
  · rw [if_neg h, Part.setChannel_other p c x c' h]

/-! ### `Part.setTemplate` -/

@[simp] theorem Part.setTemplate_now (t : Fin 8) (x : Option Template) :
    (p.setTemplate t x).now = p.now := rfl
@[simp] theorem Part.setTemplate_doorOpen (t : Fin 8) (x : Option Template) :
    (p.setTemplate t x).doorOpen = p.doorOpen := rfl
@[simp] theorem Part.setTemplate_attn (t : Fin 8) (x : Option Template) :
    (p.setTemplate t x).attn = p.attn := rfl
@[simp] theorem Part.setTemplate_discs (t : Fin 8) (x : Option Template) :
    (p.setTemplate t x).discs = p.discs := rfl
@[simp] theorem Part.setTemplate_heldSpell (t : Fin 8) (x : Option Template) :
    (p.setTemplate t x).heldSpell = p.heldSpell := rfl
@[simp] theorem Part.setTemplate_jobs (t : Fin 8) (x : Option Template) :
    (p.setTemplate t x).jobs = p.jobs := rfl
@[simp] theorem Part.setTemplate_offered (t : Fin 8) (x : Option Template) :
    (p.setTemplate t x).offered = p.offered := rfl
@[simp] theorem Part.setTemplate_places (t : Fin 8) (x : Option Template) :
    (p.setTemplate t x).places = p.places := rfl
@[simp] theorem Part.setTemplate_spindleA (t : Fin 8) (x : Option Template) :
    (p.setTemplate t x).spindleA = p.spindleA := rfl
@[simp] theorem Part.setTemplate_spindleB (t : Fin 8) (x : Option Template) :
    (p.setTemplate t x).spindleB = p.spindleB := rfl
@[simp] theorem Part.setTemplate_output (t : Fin 8) (x : Option Template) :
    (p.setTemplate t x).output = p.output := rfl
@[simp] theorem Part.setTemplate_bin (t : Fin 8) (x : Option Template) :
    (p.setTemplate t x).bin = p.bin := rfl
@[simp] theorem Part.setTemplate_arm (t : Fin 8) (x : Option Template) :
    (p.setTemplate t x).arm = p.arm := rfl
@[simp] theorem Part.setTemplate_bays (t : Fin 8) (x : Option Template) :
    (p.setTemplate t x).bays = p.bays := rfl
@[simp] theorem Part.setTemplate_media (t : Fin 8) (x : Option Template) :
    (p.setTemplate t x).media = p.media := rfl
@[simp] theorem Part.setTemplate_defaultVerdict (t : Fin 8) (x : Option Template) :
    (p.setTemplate t x).defaultVerdict = p.defaultVerdict := rfl
@[simp] theorem Part.setTemplate_defaultCap (t : Fin 8) (x : Option Template) :
    (p.setTemplate t x).defaultCap = p.defaultCap := rfl
@[simp] theorem Part.setTemplate_images (t : Fin 8) (x : Option Template) :
    (p.setTemplate t x).images = p.images := rfl
@[simp] theorem Part.setTemplate_surveyQueue (t : Fin 8) (x : Option Template) :
    (p.setTemplate t x).surveyQueue = p.surveyQueue := rfl
@[simp] theorem Part.setTemplate_channels (t : Fin 8) (x : Option Template) :
    (p.setTemplate t x).channels = p.channels := rfl
@[simp] theorem Part.setTemplate_streamReqs (t : Fin 8) (x : Option Template) :
    (p.setTemplate t x).streamReqs = p.streamReqs := rfl
@[simp] theorem Part.setTemplate_splitReqs (t : Fin 8) (x : Option Template) :
    (p.setTemplate t x).splitReqs = p.splitReqs := rfl
@[simp] theorem Part.setTemplate_readCount (t : Fin 8) (x : Option Template) :
    (p.setTemplate t x).readCount = p.readCount := rfl
@[simp] theorem Part.setTemplate_contexts (t : Fin 8) (x : Option Template) :
    (p.setTemplate t x).contexts = p.contexts := rfl
@[simp] theorem Part.setTemplate_station (t : Fin 8) (x : Option Template) :
    (p.setTemplate t x).station = p.station := rfl
@[simp] theorem Part.setTemplate_ink (t : Fin 8) (x : Option Template) :
    (p.setTemplate t x).ink = p.ink := rfl
@[simp] theorem Part.setTemplate_inkWait (t : Fin 8) (x : Option Template) :
    (p.setTemplate t x).inkWait = p.inkWait := rfl
@[simp] theorem Part.setTemplate_printQueue (t : Fin 8) (x : Option Template) :
    (p.setTemplate t x).printQueue = p.printQueue := rfl
@[simp] theorem Part.setTemplate_shortSet (t : Fin 8) (x : Option Template) :
    (p.setTemplate t x).shortSet = p.shortSet := rfl
@[simp] theorem Part.setTemplate_tower (t : Fin 8) (x : Option Template) :
    (p.setTemplate t x).tower = p.tower := rfl
@[simp] theorem Part.setTemplate_sent (t : Fin 8) (x : Option Template) :
    (p.setTemplate t x).sent = p.sent := rfl
@[simp] theorem Part.setTemplate_disc (t : Fin 8) (x : Option Template) (a' : Fin 24) :
    (p.setTemplate t x).disc a' = p.disc a' := rfl
@[simp] theorem Part.setTemplate_job (t : Fin 8) (x : Option Template) (a' : Fin 16) :
    (p.setTemplate t x).job a' = p.job a' := rfl
@[simp] theorem Part.setTemplate_bay (t : Fin 8) (x : Option Template) (a' : Fin 12) :
    (p.setTemplate t x).bay a' = p.bay a' := rfl
@[simp] theorem Part.setTemplate_image (t : Fin 8) (x : Option Template) (a' : Fin 32) :
    (p.setTemplate t x).image a' = p.image a' := rfl
@[simp] theorem Part.setTemplate_channel (t : Fin 8) (x : Option Template) (a' : Fin 4) :
    (p.setTemplate t x).channel a' = p.channel a' := rfl
@[simp] theorem Part.setTemplate_entry (t : Fin 8) (x : Option Template) (a' : Fin 16) :
    (p.setTemplate t x).entry a' = p.entry a' := rfl
@[simp] theorem Part.setTemplate_context (t : Fin 8) (x : Option Template) (a' : Fin 12) :
    (p.setTemplate t x).context a' = p.context a' := rfl
@[simp] theorem Part.setTemplate_inkChannel (t : Fin 8) (x : Option Template) (a' : Fin 4) :
    (p.setTemplate t x).inkChannel a' = p.inkChannel a' := rfl
@[simp] theorem Part.setTemplate_spindle (t : Fin 8) (x : Option Template) (a' : SpindleId) :
    (p.setTemplate t x).spindle a' = p.spindle a' := by
  cases a' <;> rfl
@[simp] theorem Part.setTemplate_occupant (t : Fin 8) (x : Option Template) (a' : Place) :
    (p.setTemplate t x).occupant a' = p.occupant a' := by
  cases a' <;> rfl
@[simp] theorem Part.setTemplate_self (t : Fin 8) (x : Option Template) :
    (p.setTemplate t x).template t = x := by simp [Part.setTemplate, Part.template]
theorem Part.setTemplate_other (t : Fin 8) (x : Option Template) (t' : Fin 8) (h : t' ≠ t) :
    (p.setTemplate t x).template t' = p.template t' := by
  have : t.val ≠ t'.val := fun e => h (Fin.ext e.symm)
  simp [Part.setTemplate, Part.template, this]
theorem Part.setTemplate_get (t : Fin 8) (x : Option Template) (t' : Fin 8) :
    (p.setTemplate t x).template t' = if t' = t then x else p.template t' := by
  by_cases h : t' = t
  · subst h; simp
  · rw [if_neg h, Part.setTemplate_other p t x t' h]

/-! ### `Part.setEntry` -/

@[simp] theorem Part.setEntry_now (e : Fin 16) (x : Option MediaEntry) :
    (p.setEntry e x).now = p.now := rfl
@[simp] theorem Part.setEntry_doorOpen (e : Fin 16) (x : Option MediaEntry) :
    (p.setEntry e x).doorOpen = p.doorOpen := rfl
@[simp] theorem Part.setEntry_attn (e : Fin 16) (x : Option MediaEntry) :
    (p.setEntry e x).attn = p.attn := rfl
@[simp] theorem Part.setEntry_discs (e : Fin 16) (x : Option MediaEntry) :
    (p.setEntry e x).discs = p.discs := rfl
@[simp] theorem Part.setEntry_heldSpell (e : Fin 16) (x : Option MediaEntry) :
    (p.setEntry e x).heldSpell = p.heldSpell := rfl
@[simp] theorem Part.setEntry_jobs (e : Fin 16) (x : Option MediaEntry) :
    (p.setEntry e x).jobs = p.jobs := rfl
@[simp] theorem Part.setEntry_offered (e : Fin 16) (x : Option MediaEntry) :
    (p.setEntry e x).offered = p.offered := rfl
@[simp] theorem Part.setEntry_places (e : Fin 16) (x : Option MediaEntry) :
    (p.setEntry e x).places = p.places := rfl
@[simp] theorem Part.setEntry_spindleA (e : Fin 16) (x : Option MediaEntry) :
    (p.setEntry e x).spindleA = p.spindleA := rfl
@[simp] theorem Part.setEntry_spindleB (e : Fin 16) (x : Option MediaEntry) :
    (p.setEntry e x).spindleB = p.spindleB := rfl
@[simp] theorem Part.setEntry_output (e : Fin 16) (x : Option MediaEntry) :
    (p.setEntry e x).output = p.output := rfl
@[simp] theorem Part.setEntry_bin (e : Fin 16) (x : Option MediaEntry) :
    (p.setEntry e x).bin = p.bin := rfl
@[simp] theorem Part.setEntry_arm (e : Fin 16) (x : Option MediaEntry) :
    (p.setEntry e x).arm = p.arm := rfl
@[simp] theorem Part.setEntry_bays (e : Fin 16) (x : Option MediaEntry) :
    (p.setEntry e x).bays = p.bays := rfl
@[simp] theorem Part.setEntry_defaultVerdict (e : Fin 16) (x : Option MediaEntry) :
    (p.setEntry e x).defaultVerdict = p.defaultVerdict := rfl
@[simp] theorem Part.setEntry_defaultCap (e : Fin 16) (x : Option MediaEntry) :
    (p.setEntry e x).defaultCap = p.defaultCap := rfl
@[simp] theorem Part.setEntry_images (e : Fin 16) (x : Option MediaEntry) :
    (p.setEntry e x).images = p.images := rfl
@[simp] theorem Part.setEntry_surveyQueue (e : Fin 16) (x : Option MediaEntry) :
    (p.setEntry e x).surveyQueue = p.surveyQueue := rfl
@[simp] theorem Part.setEntry_channels (e : Fin 16) (x : Option MediaEntry) :
    (p.setEntry e x).channels = p.channels := rfl
@[simp] theorem Part.setEntry_streamReqs (e : Fin 16) (x : Option MediaEntry) :
    (p.setEntry e x).streamReqs = p.streamReqs := rfl
@[simp] theorem Part.setEntry_splitReqs (e : Fin 16) (x : Option MediaEntry) :
    (p.setEntry e x).splitReqs = p.splitReqs := rfl
@[simp] theorem Part.setEntry_readCount (e : Fin 16) (x : Option MediaEntry) :
    (p.setEntry e x).readCount = p.readCount := rfl
@[simp] theorem Part.setEntry_contexts (e : Fin 16) (x : Option MediaEntry) :
    (p.setEntry e x).contexts = p.contexts := rfl
@[simp] theorem Part.setEntry_station (e : Fin 16) (x : Option MediaEntry) :
    (p.setEntry e x).station = p.station := rfl
@[simp] theorem Part.setEntry_templates (e : Fin 16) (x : Option MediaEntry) :
    (p.setEntry e x).templates = p.templates := rfl
@[simp] theorem Part.setEntry_ink (e : Fin 16) (x : Option MediaEntry) :
    (p.setEntry e x).ink = p.ink := rfl
@[simp] theorem Part.setEntry_inkWait (e : Fin 16) (x : Option MediaEntry) :
    (p.setEntry e x).inkWait = p.inkWait := rfl
@[simp] theorem Part.setEntry_printQueue (e : Fin 16) (x : Option MediaEntry) :
    (p.setEntry e x).printQueue = p.printQueue := rfl
@[simp] theorem Part.setEntry_shortSet (e : Fin 16) (x : Option MediaEntry) :
    (p.setEntry e x).shortSet = p.shortSet := rfl
@[simp] theorem Part.setEntry_tower (e : Fin 16) (x : Option MediaEntry) :
    (p.setEntry e x).tower = p.tower := rfl
@[simp] theorem Part.setEntry_sent (e : Fin 16) (x : Option MediaEntry) :
    (p.setEntry e x).sent = p.sent := rfl
@[simp] theorem Part.setEntry_disc (e : Fin 16) (x : Option MediaEntry) (a' : Fin 24) :
    (p.setEntry e x).disc a' = p.disc a' := rfl
@[simp] theorem Part.setEntry_job (e : Fin 16) (x : Option MediaEntry) (a' : Fin 16) :
    (p.setEntry e x).job a' = p.job a' := rfl
@[simp] theorem Part.setEntry_bay (e : Fin 16) (x : Option MediaEntry) (a' : Fin 12) :
    (p.setEntry e x).bay a' = p.bay a' := rfl
@[simp] theorem Part.setEntry_image (e : Fin 16) (x : Option MediaEntry) (a' : Fin 32) :
    (p.setEntry e x).image a' = p.image a' := rfl
@[simp] theorem Part.setEntry_channel (e : Fin 16) (x : Option MediaEntry) (a' : Fin 4) :
    (p.setEntry e x).channel a' = p.channel a' := rfl
@[simp] theorem Part.setEntry_template (e : Fin 16) (x : Option MediaEntry) (a' : Fin 8) :
    (p.setEntry e x).template a' = p.template a' := rfl
@[simp] theorem Part.setEntry_context (e : Fin 16) (x : Option MediaEntry) (a' : Fin 12) :
    (p.setEntry e x).context a' = p.context a' := rfl
@[simp] theorem Part.setEntry_inkChannel (e : Fin 16) (x : Option MediaEntry) (a' : Fin 4) :
    (p.setEntry e x).inkChannel a' = p.inkChannel a' := rfl
@[simp] theorem Part.setEntry_spindle (e : Fin 16) (x : Option MediaEntry) (a' : SpindleId) :
    (p.setEntry e x).spindle a' = p.spindle a' := by
  cases a' <;> rfl
@[simp] theorem Part.setEntry_occupant (e : Fin 16) (x : Option MediaEntry) (a' : Place) :
    (p.setEntry e x).occupant a' = p.occupant a' := by
  cases a' <;> rfl
@[simp] theorem Part.setEntry_self (e : Fin 16) (x : Option MediaEntry) :
    (p.setEntry e x).entry e = x := by simp [Part.setEntry, Part.entry]
theorem Part.setEntry_other (e : Fin 16) (x : Option MediaEntry) (e' : Fin 16) (h : e' ≠ e) :
    (p.setEntry e x).entry e' = p.entry e' := by
  have : e.val ≠ e'.val := fun e => h (Fin.ext e.symm)
  simp [Part.setEntry, Part.entry, this]
theorem Part.setEntry_get (e : Fin 16) (x : Option MediaEntry) (e' : Fin 16) :
    (p.setEntry e x).entry e' = if e' = e then x else p.entry e' := by
  by_cases h : e' = e
  · subst h; simp
  · rw [if_neg h, Part.setEntry_other p e x e' h]

/-! ### `Part.setContext` -/

@[simp] theorem Part.setContext_now (b : Fin 12) (x : Option Context) :
    (p.setContext b x).now = p.now := rfl
@[simp] theorem Part.setContext_doorOpen (b : Fin 12) (x : Option Context) :
    (p.setContext b x).doorOpen = p.doorOpen := rfl
@[simp] theorem Part.setContext_attn (b : Fin 12) (x : Option Context) :
    (p.setContext b x).attn = p.attn := rfl
@[simp] theorem Part.setContext_discs (b : Fin 12) (x : Option Context) :
    (p.setContext b x).discs = p.discs := rfl
@[simp] theorem Part.setContext_heldSpell (b : Fin 12) (x : Option Context) :
    (p.setContext b x).heldSpell = p.heldSpell := rfl
@[simp] theorem Part.setContext_jobs (b : Fin 12) (x : Option Context) :
    (p.setContext b x).jobs = p.jobs := rfl
@[simp] theorem Part.setContext_offered (b : Fin 12) (x : Option Context) :
    (p.setContext b x).offered = p.offered := rfl
@[simp] theorem Part.setContext_places (b : Fin 12) (x : Option Context) :
    (p.setContext b x).places = p.places := rfl
@[simp] theorem Part.setContext_spindleA (b : Fin 12) (x : Option Context) :
    (p.setContext b x).spindleA = p.spindleA := rfl
@[simp] theorem Part.setContext_spindleB (b : Fin 12) (x : Option Context) :
    (p.setContext b x).spindleB = p.spindleB := rfl
@[simp] theorem Part.setContext_output (b : Fin 12) (x : Option Context) :
    (p.setContext b x).output = p.output := rfl
@[simp] theorem Part.setContext_bin (b : Fin 12) (x : Option Context) :
    (p.setContext b x).bin = p.bin := rfl
@[simp] theorem Part.setContext_arm (b : Fin 12) (x : Option Context) :
    (p.setContext b x).arm = p.arm := rfl
@[simp] theorem Part.setContext_bays (b : Fin 12) (x : Option Context) :
    (p.setContext b x).bays = p.bays := rfl
@[simp] theorem Part.setContext_media (b : Fin 12) (x : Option Context) :
    (p.setContext b x).media = p.media := rfl
@[simp] theorem Part.setContext_defaultVerdict (b : Fin 12) (x : Option Context) :
    (p.setContext b x).defaultVerdict = p.defaultVerdict := rfl
@[simp] theorem Part.setContext_defaultCap (b : Fin 12) (x : Option Context) :
    (p.setContext b x).defaultCap = p.defaultCap := rfl
@[simp] theorem Part.setContext_images (b : Fin 12) (x : Option Context) :
    (p.setContext b x).images = p.images := rfl
@[simp] theorem Part.setContext_surveyQueue (b : Fin 12) (x : Option Context) :
    (p.setContext b x).surveyQueue = p.surveyQueue := rfl
@[simp] theorem Part.setContext_channels (b : Fin 12) (x : Option Context) :
    (p.setContext b x).channels = p.channels := rfl
@[simp] theorem Part.setContext_streamReqs (b : Fin 12) (x : Option Context) :
    (p.setContext b x).streamReqs = p.streamReqs := rfl
@[simp] theorem Part.setContext_splitReqs (b : Fin 12) (x : Option Context) :
    (p.setContext b x).splitReqs = p.splitReqs := rfl
@[simp] theorem Part.setContext_readCount (b : Fin 12) (x : Option Context) :
    (p.setContext b x).readCount = p.readCount := rfl
@[simp] theorem Part.setContext_station (b : Fin 12) (x : Option Context) :
    (p.setContext b x).station = p.station := rfl
@[simp] theorem Part.setContext_templates (b : Fin 12) (x : Option Context) :
    (p.setContext b x).templates = p.templates := rfl
@[simp] theorem Part.setContext_ink (b : Fin 12) (x : Option Context) :
    (p.setContext b x).ink = p.ink := rfl
@[simp] theorem Part.setContext_inkWait (b : Fin 12) (x : Option Context) :
    (p.setContext b x).inkWait = p.inkWait := rfl
@[simp] theorem Part.setContext_printQueue (b : Fin 12) (x : Option Context) :
    (p.setContext b x).printQueue = p.printQueue := rfl
@[simp] theorem Part.setContext_shortSet (b : Fin 12) (x : Option Context) :
    (p.setContext b x).shortSet = p.shortSet := rfl
@[simp] theorem Part.setContext_tower (b : Fin 12) (x : Option Context) :
    (p.setContext b x).tower = p.tower := rfl
@[simp] theorem Part.setContext_sent (b : Fin 12) (x : Option Context) :
    (p.setContext b x).sent = p.sent := rfl
@[simp] theorem Part.setContext_disc (b : Fin 12) (x : Option Context) (a' : Fin 24) :
    (p.setContext b x).disc a' = p.disc a' := rfl
@[simp] theorem Part.setContext_job (b : Fin 12) (x : Option Context) (a' : Fin 16) :
    (p.setContext b x).job a' = p.job a' := rfl
@[simp] theorem Part.setContext_bay (b : Fin 12) (x : Option Context) (a' : Fin 12) :
    (p.setContext b x).bay a' = p.bay a' := rfl
@[simp] theorem Part.setContext_image (b : Fin 12) (x : Option Context) (a' : Fin 32) :
    (p.setContext b x).image a' = p.image a' := rfl
@[simp] theorem Part.setContext_channel (b : Fin 12) (x : Option Context) (a' : Fin 4) :
    (p.setContext b x).channel a' = p.channel a' := rfl
@[simp] theorem Part.setContext_template (b : Fin 12) (x : Option Context) (a' : Fin 8) :
    (p.setContext b x).template a' = p.template a' := rfl
@[simp] theorem Part.setContext_entry (b : Fin 12) (x : Option Context) (a' : Fin 16) :
    (p.setContext b x).entry a' = p.entry a' := rfl
@[simp] theorem Part.setContext_inkChannel (b : Fin 12) (x : Option Context) (a' : Fin 4) :
    (p.setContext b x).inkChannel a' = p.inkChannel a' := rfl
@[simp] theorem Part.setContext_spindle (b : Fin 12) (x : Option Context) (a' : SpindleId) :
    (p.setContext b x).spindle a' = p.spindle a' := by
  cases a' <;> rfl
@[simp] theorem Part.setContext_occupant (b : Fin 12) (x : Option Context) (a' : Place) :
    (p.setContext b x).occupant a' = p.occupant a' := by
  cases a' <;> rfl
@[simp] theorem Part.setContext_self (b : Fin 12) (x : Option Context) :
    (p.setContext b x).context b = x := by simp [Part.setContext, Part.context]
theorem Part.setContext_other (b : Fin 12) (x : Option Context) (b' : Fin 12) (h : b' ≠ b) :
    (p.setContext b x).context b' = p.context b' := by
  have : b.val ≠ b'.val := fun e => h (Fin.ext e.symm)
  simp [Part.setContext, Part.context, this]
theorem Part.setContext_get (b : Fin 12) (x : Option Context) (b' : Fin 12) :
    (p.setContext b x).context b' = if b' = b then x else p.context b' := by
  by_cases h : b' = b
  · subst h; simp
  · rw [if_neg h, Part.setContext_other p b x b' h]

/-! ### `Part.setInk` -/

@[simp] theorem Part.setInk_now (k : Fin 4) (x : InkChannel) : (p.setInk k x).now = p.now := rfl
@[simp] theorem Part.setInk_doorOpen (k : Fin 4) (x : InkChannel) :
    (p.setInk k x).doorOpen = p.doorOpen := rfl
@[simp] theorem Part.setInk_attn (k : Fin 4) (x : InkChannel) : (p.setInk k x).attn = p.attn := rfl
@[simp] theorem Part.setInk_discs (k : Fin 4) (x : InkChannel) : (p.setInk k x).discs = p.discs := rfl
@[simp] theorem Part.setInk_heldSpell (k : Fin 4) (x : InkChannel) :
    (p.setInk k x).heldSpell = p.heldSpell := rfl
@[simp] theorem Part.setInk_jobs (k : Fin 4) (x : InkChannel) : (p.setInk k x).jobs = p.jobs := rfl
@[simp] theorem Part.setInk_offered (k : Fin 4) (x : InkChannel) :
    (p.setInk k x).offered = p.offered := rfl
@[simp] theorem Part.setInk_places (k : Fin 4) (x : InkChannel) :
    (p.setInk k x).places = p.places := rfl
@[simp] theorem Part.setInk_spindleA (k : Fin 4) (x : InkChannel) :
    (p.setInk k x).spindleA = p.spindleA := rfl
@[simp] theorem Part.setInk_spindleB (k : Fin 4) (x : InkChannel) :
    (p.setInk k x).spindleB = p.spindleB := rfl
@[simp] theorem Part.setInk_output (k : Fin 4) (x : InkChannel) :
    (p.setInk k x).output = p.output := rfl
@[simp] theorem Part.setInk_bin (k : Fin 4) (x : InkChannel) : (p.setInk k x).bin = p.bin := rfl
@[simp] theorem Part.setInk_arm (k : Fin 4) (x : InkChannel) : (p.setInk k x).arm = p.arm := rfl
@[simp] theorem Part.setInk_bays (k : Fin 4) (x : InkChannel) : (p.setInk k x).bays = p.bays := rfl
@[simp] theorem Part.setInk_media (k : Fin 4) (x : InkChannel) : (p.setInk k x).media = p.media := rfl
@[simp] theorem Part.setInk_defaultVerdict (k : Fin 4) (x : InkChannel) :
    (p.setInk k x).defaultVerdict = p.defaultVerdict := rfl
@[simp] theorem Part.setInk_defaultCap (k : Fin 4) (x : InkChannel) :
    (p.setInk k x).defaultCap = p.defaultCap := rfl
@[simp] theorem Part.setInk_images (k : Fin 4) (x : InkChannel) :
    (p.setInk k x).images = p.images := rfl
@[simp] theorem Part.setInk_surveyQueue (k : Fin 4) (x : InkChannel) :
    (p.setInk k x).surveyQueue = p.surveyQueue := rfl
@[simp] theorem Part.setInk_channels (k : Fin 4) (x : InkChannel) :
    (p.setInk k x).channels = p.channels := rfl
@[simp] theorem Part.setInk_streamReqs (k : Fin 4) (x : InkChannel) :
    (p.setInk k x).streamReqs = p.streamReqs := rfl
@[simp] theorem Part.setInk_splitReqs (k : Fin 4) (x : InkChannel) :
    (p.setInk k x).splitReqs = p.splitReqs := rfl
@[simp] theorem Part.setInk_readCount (k : Fin 4) (x : InkChannel) :
    (p.setInk k x).readCount = p.readCount := rfl
@[simp] theorem Part.setInk_contexts (k : Fin 4) (x : InkChannel) :
    (p.setInk k x).contexts = p.contexts := rfl
@[simp] theorem Part.setInk_station (k : Fin 4) (x : InkChannel) :
    (p.setInk k x).station = p.station := rfl
@[simp] theorem Part.setInk_templates (k : Fin 4) (x : InkChannel) :
    (p.setInk k x).templates = p.templates := rfl
@[simp] theorem Part.setInk_inkWait (k : Fin 4) (x : InkChannel) :
    (p.setInk k x).inkWait = p.inkWait := rfl
@[simp] theorem Part.setInk_printQueue (k : Fin 4) (x : InkChannel) :
    (p.setInk k x).printQueue = p.printQueue := rfl
@[simp] theorem Part.setInk_shortSet (k : Fin 4) (x : InkChannel) :
    (p.setInk k x).shortSet = p.shortSet := rfl
@[simp] theorem Part.setInk_tower (k : Fin 4) (x : InkChannel) : (p.setInk k x).tower = p.tower := rfl
@[simp] theorem Part.setInk_sent (k : Fin 4) (x : InkChannel) : (p.setInk k x).sent = p.sent := rfl
@[simp] theorem Part.setInk_disc (k : Fin 4) (x : InkChannel) (a' : Fin 24) :
    (p.setInk k x).disc a' = p.disc a' := rfl
@[simp] theorem Part.setInk_job (k : Fin 4) (x : InkChannel) (a' : Fin 16) :
    (p.setInk k x).job a' = p.job a' := rfl
@[simp] theorem Part.setInk_bay (k : Fin 4) (x : InkChannel) (a' : Fin 12) :
    (p.setInk k x).bay a' = p.bay a' := rfl
@[simp] theorem Part.setInk_image (k : Fin 4) (x : InkChannel) (a' : Fin 32) :
    (p.setInk k x).image a' = p.image a' := rfl
@[simp] theorem Part.setInk_channel (k : Fin 4) (x : InkChannel) (a' : Fin 4) :
    (p.setInk k x).channel a' = p.channel a' := rfl
@[simp] theorem Part.setInk_template (k : Fin 4) (x : InkChannel) (a' : Fin 8) :
    (p.setInk k x).template a' = p.template a' := rfl
@[simp] theorem Part.setInk_entry (k : Fin 4) (x : InkChannel) (a' : Fin 16) :
    (p.setInk k x).entry a' = p.entry a' := rfl
@[simp] theorem Part.setInk_context (k : Fin 4) (x : InkChannel) (a' : Fin 12) :
    (p.setInk k x).context a' = p.context a' := rfl
@[simp] theorem Part.setInk_spindle (k : Fin 4) (x : InkChannel) (a' : SpindleId) :
    (p.setInk k x).spindle a' = p.spindle a' := by
  cases a' <;> rfl
@[simp] theorem Part.setInk_occupant (k : Fin 4) (x : InkChannel) (a' : Place) :
    (p.setInk k x).occupant a' = p.occupant a' := by
  cases a' <;> rfl
@[simp] theorem Part.setInk_self (k : Fin 4) (x : InkChannel) :
    (p.setInk k x).inkChannel k = x := by simp [Part.setInk, Part.inkChannel]
theorem Part.setInk_other (k : Fin 4) (x : InkChannel) (k' : Fin 4) (h : k' ≠ k) :
    (p.setInk k x).inkChannel k' = p.inkChannel k' := by
  have : k.val ≠ k'.val := fun e => h (Fin.ext e.symm)
  simp [Part.setInk, Part.inkChannel, this]
theorem Part.setInk_get (k : Fin 4) (x : InkChannel) (k' : Fin 4) :
    (p.setInk k x).inkChannel k' = if k' = k then x else p.inkChannel k' := by
  by_cases h : k' = k
  · subst h; simp
  · rw [if_neg h, Part.setInk_other p k x k' h]

/-! ### `Part.setSpindle` -/

@[simp] theorem Part.setSpindle_now (s : SpindleId) (x : Spindle) :
    (p.setSpindle s x).now = p.now := by cases s <;> rfl
@[simp] theorem Part.setSpindle_doorOpen (s : SpindleId) (x : Spindle) :
    (p.setSpindle s x).doorOpen = p.doorOpen := by cases s <;> rfl
@[simp] theorem Part.setSpindle_attn (s : SpindleId) (x : Spindle) :
    (p.setSpindle s x).attn = p.attn := by cases s <;> rfl
@[simp] theorem Part.setSpindle_discs (s : SpindleId) (x : Spindle) :
    (p.setSpindle s x).discs = p.discs := by cases s <;> rfl
@[simp] theorem Part.setSpindle_heldSpell (s : SpindleId) (x : Spindle) :
    (p.setSpindle s x).heldSpell = p.heldSpell := by cases s <;> rfl
@[simp] theorem Part.setSpindle_jobs (s : SpindleId) (x : Spindle) :
    (p.setSpindle s x).jobs = p.jobs := by cases s <;> rfl
@[simp] theorem Part.setSpindle_offered (s : SpindleId) (x : Spindle) :
    (p.setSpindle s x).offered = p.offered := by cases s <;> rfl
@[simp] theorem Part.setSpindle_places (s : SpindleId) (x : Spindle) :
    (p.setSpindle s x).places = p.places := by cases s <;> rfl
@[simp] theorem Part.setSpindle_output (s : SpindleId) (x : Spindle) :
    (p.setSpindle s x).output = p.output := by cases s <;> rfl
@[simp] theorem Part.setSpindle_bin (s : SpindleId) (x : Spindle) :
    (p.setSpindle s x).bin = p.bin := by cases s <;> rfl
@[simp] theorem Part.setSpindle_arm (s : SpindleId) (x : Spindle) :
    (p.setSpindle s x).arm = p.arm := by cases s <;> rfl
@[simp] theorem Part.setSpindle_bays (s : SpindleId) (x : Spindle) :
    (p.setSpindle s x).bays = p.bays := by cases s <;> rfl
@[simp] theorem Part.setSpindle_media (s : SpindleId) (x : Spindle) :
    (p.setSpindle s x).media = p.media := by cases s <;> rfl
@[simp] theorem Part.setSpindle_defaultVerdict (s : SpindleId) (x : Spindle) :
    (p.setSpindle s x).defaultVerdict = p.defaultVerdict := by cases s <;> rfl
@[simp] theorem Part.setSpindle_defaultCap (s : SpindleId) (x : Spindle) :
    (p.setSpindle s x).defaultCap = p.defaultCap := by cases s <;> rfl
@[simp] theorem Part.setSpindle_images (s : SpindleId) (x : Spindle) :
    (p.setSpindle s x).images = p.images := by cases s <;> rfl
@[simp] theorem Part.setSpindle_surveyQueue (s : SpindleId) (x : Spindle) :
    (p.setSpindle s x).surveyQueue = p.surveyQueue := by cases s <;> rfl
@[simp] theorem Part.setSpindle_channels (s : SpindleId) (x : Spindle) :
    (p.setSpindle s x).channels = p.channels := by cases s <;> rfl
@[simp] theorem Part.setSpindle_streamReqs (s : SpindleId) (x : Spindle) :
    (p.setSpindle s x).streamReqs = p.streamReqs := by cases s <;> rfl
@[simp] theorem Part.setSpindle_splitReqs (s : SpindleId) (x : Spindle) :
    (p.setSpindle s x).splitReqs = p.splitReqs := by cases s <;> rfl
@[simp] theorem Part.setSpindle_readCount (s : SpindleId) (x : Spindle) :
    (p.setSpindle s x).readCount = p.readCount := by cases s <;> rfl
@[simp] theorem Part.setSpindle_contexts (s : SpindleId) (x : Spindle) :
    (p.setSpindle s x).contexts = p.contexts := by cases s <;> rfl
@[simp] theorem Part.setSpindle_station (s : SpindleId) (x : Spindle) :
    (p.setSpindle s x).station = p.station := by cases s <;> rfl
@[simp] theorem Part.setSpindle_templates (s : SpindleId) (x : Spindle) :
    (p.setSpindle s x).templates = p.templates := by cases s <;> rfl
@[simp] theorem Part.setSpindle_ink (s : SpindleId) (x : Spindle) :
    (p.setSpindle s x).ink = p.ink := by cases s <;> rfl
@[simp] theorem Part.setSpindle_inkWait (s : SpindleId) (x : Spindle) :
    (p.setSpindle s x).inkWait = p.inkWait := by cases s <;> rfl
@[simp] theorem Part.setSpindle_printQueue (s : SpindleId) (x : Spindle) :
    (p.setSpindle s x).printQueue = p.printQueue := by cases s <;> rfl
@[simp] theorem Part.setSpindle_shortSet (s : SpindleId) (x : Spindle) :
    (p.setSpindle s x).shortSet = p.shortSet := by cases s <;> rfl
@[simp] theorem Part.setSpindle_tower (s : SpindleId) (x : Spindle) :
    (p.setSpindle s x).tower = p.tower := by cases s <;> rfl
@[simp] theorem Part.setSpindle_sent (s : SpindleId) (x : Spindle) :
    (p.setSpindle s x).sent = p.sent := by cases s <;> rfl
@[simp] theorem Part.setSpindle_disc (s : SpindleId) (x : Spindle) (a' : Fin 24) :
    (p.setSpindle s x).disc a' = p.disc a' := by cases s <;> rfl
@[simp] theorem Part.setSpindle_job (s : SpindleId) (x : Spindle) (a' : Fin 16) :
    (p.setSpindle s x).job a' = p.job a' := by cases s <;> rfl
@[simp] theorem Part.setSpindle_bay (s : SpindleId) (x : Spindle) (a' : Fin 12) :
    (p.setSpindle s x).bay a' = p.bay a' := by cases s <;> rfl
@[simp] theorem Part.setSpindle_image (s : SpindleId) (x : Spindle) (a' : Fin 32) :
    (p.setSpindle s x).image a' = p.image a' := by cases s <;> rfl
@[simp] theorem Part.setSpindle_channel (s : SpindleId) (x : Spindle) (a' : Fin 4) :
    (p.setSpindle s x).channel a' = p.channel a' := by cases s <;> rfl
@[simp] theorem Part.setSpindle_template (s : SpindleId) (x : Spindle) (a' : Fin 8) :
    (p.setSpindle s x).template a' = p.template a' := by cases s <;> rfl
@[simp] theorem Part.setSpindle_entry (s : SpindleId) (x : Spindle) (a' : Fin 16) :
    (p.setSpindle s x).entry a' = p.entry a' := by cases s <;> rfl
@[simp] theorem Part.setSpindle_context (s : SpindleId) (x : Spindle) (a' : Fin 12) :
    (p.setSpindle s x).context a' = p.context a' := by cases s <;> rfl
@[simp] theorem Part.setSpindle_inkChannel (s : SpindleId) (x : Spindle) (a' : Fin 4) :
    (p.setSpindle s x).inkChannel a' = p.inkChannel a' := by cases s <;> rfl
@[simp] theorem Part.setSpindle_occupant (s : SpindleId) (x : Spindle) (a' : Place) :
    (p.setSpindle s x).occupant a' = p.occupant a' := by cases s <;> cases a' <;> rfl
@[simp] theorem Part.setSpindle_self (s : SpindleId) (x : Spindle) :
    (p.setSpindle s x).spindle s = x := by cases s <;> rfl
theorem Part.setSpindle_other (s s' : SpindleId) (x : Spindle) (h : s' ≠ s) :
    (p.setSpindle s x).spindle s' = p.spindle s' := by
  cases s <;> cases s' <;> first | rfl | exact absurd rfl h

/-! ### `Part.setOccupant` -/

@[simp] theorem Part.setOccupant_now (pl : Place) (x : Option (Fin 24)) :
    (p.setOccupant pl x).now = p.now := by cases pl <;> rfl
@[simp] theorem Part.setOccupant_doorOpen (pl : Place) (x : Option (Fin 24)) :
    (p.setOccupant pl x).doorOpen = p.doorOpen := by cases pl <;> rfl
@[simp] theorem Part.setOccupant_attn (pl : Place) (x : Option (Fin 24)) :
    (p.setOccupant pl x).attn = p.attn := by cases pl <;> rfl
@[simp] theorem Part.setOccupant_discs (pl : Place) (x : Option (Fin 24)) :
    (p.setOccupant pl x).discs = p.discs := by cases pl <;> rfl
@[simp] theorem Part.setOccupant_heldSpell (pl : Place) (x : Option (Fin 24)) :
    (p.setOccupant pl x).heldSpell = p.heldSpell := by cases pl <;> rfl
@[simp] theorem Part.setOccupant_jobs (pl : Place) (x : Option (Fin 24)) :
    (p.setOccupant pl x).jobs = p.jobs := by cases pl <;> rfl
@[simp] theorem Part.setOccupant_offered (pl : Place) (x : Option (Fin 24)) :
    (p.setOccupant pl x).offered = p.offered := by cases pl <;> rfl
@[simp] theorem Part.setOccupant_spindleA (pl : Place) (x : Option (Fin 24)) :
    (p.setOccupant pl x).spindleA = p.spindleA := by cases pl <;> rfl
@[simp] theorem Part.setOccupant_spindleB (pl : Place) (x : Option (Fin 24)) :
    (p.setOccupant pl x).spindleB = p.spindleB := by cases pl <;> rfl
@[simp] theorem Part.setOccupant_output (pl : Place) (x : Option (Fin 24)) :
    (p.setOccupant pl x).output = p.output := by cases pl <;> rfl
@[simp] theorem Part.setOccupant_bin (pl : Place) (x : Option (Fin 24)) :
    (p.setOccupant pl x).bin = p.bin := by cases pl <;> rfl
@[simp] theorem Part.setOccupant_arm (pl : Place) (x : Option (Fin 24)) :
    (p.setOccupant pl x).arm = p.arm := by cases pl <;> rfl
@[simp] theorem Part.setOccupant_bays (pl : Place) (x : Option (Fin 24)) :
    (p.setOccupant pl x).bays = p.bays := by cases pl <;> rfl
@[simp] theorem Part.setOccupant_media (pl : Place) (x : Option (Fin 24)) :
    (p.setOccupant pl x).media = p.media := by cases pl <;> rfl
@[simp] theorem Part.setOccupant_defaultVerdict (pl : Place) (x : Option (Fin 24)) :
    (p.setOccupant pl x).defaultVerdict = p.defaultVerdict := by cases pl <;> rfl
@[simp] theorem Part.setOccupant_defaultCap (pl : Place) (x : Option (Fin 24)) :
    (p.setOccupant pl x).defaultCap = p.defaultCap := by cases pl <;> rfl
@[simp] theorem Part.setOccupant_images (pl : Place) (x : Option (Fin 24)) :
    (p.setOccupant pl x).images = p.images := by cases pl <;> rfl
@[simp] theorem Part.setOccupant_surveyQueue (pl : Place) (x : Option (Fin 24)) :
    (p.setOccupant pl x).surveyQueue = p.surveyQueue := by cases pl <;> rfl
@[simp] theorem Part.setOccupant_channels (pl : Place) (x : Option (Fin 24)) :
    (p.setOccupant pl x).channels = p.channels := by cases pl <;> rfl
@[simp] theorem Part.setOccupant_streamReqs (pl : Place) (x : Option (Fin 24)) :
    (p.setOccupant pl x).streamReqs = p.streamReqs := by cases pl <;> rfl
@[simp] theorem Part.setOccupant_splitReqs (pl : Place) (x : Option (Fin 24)) :
    (p.setOccupant pl x).splitReqs = p.splitReqs := by cases pl <;> rfl
@[simp] theorem Part.setOccupant_readCount (pl : Place) (x : Option (Fin 24)) :
    (p.setOccupant pl x).readCount = p.readCount := by cases pl <;> rfl
@[simp] theorem Part.setOccupant_contexts (pl : Place) (x : Option (Fin 24)) :
    (p.setOccupant pl x).contexts = p.contexts := by cases pl <;> rfl
@[simp] theorem Part.setOccupant_station (pl : Place) (x : Option (Fin 24)) :
    (p.setOccupant pl x).station = p.station := by cases pl <;> rfl
@[simp] theorem Part.setOccupant_templates (pl : Place) (x : Option (Fin 24)) :
    (p.setOccupant pl x).templates = p.templates := by cases pl <;> rfl
@[simp] theorem Part.setOccupant_ink (pl : Place) (x : Option (Fin 24)) :
    (p.setOccupant pl x).ink = p.ink := by cases pl <;> rfl
@[simp] theorem Part.setOccupant_inkWait (pl : Place) (x : Option (Fin 24)) :
    (p.setOccupant pl x).inkWait = p.inkWait := by cases pl <;> rfl
@[simp] theorem Part.setOccupant_printQueue (pl : Place) (x : Option (Fin 24)) :
    (p.setOccupant pl x).printQueue = p.printQueue := by cases pl <;> rfl
@[simp] theorem Part.setOccupant_shortSet (pl : Place) (x : Option (Fin 24)) :
    (p.setOccupant pl x).shortSet = p.shortSet := by cases pl <;> rfl
@[simp] theorem Part.setOccupant_tower (pl : Place) (x : Option (Fin 24)) :
    (p.setOccupant pl x).tower = p.tower := by cases pl <;> rfl
@[simp] theorem Part.setOccupant_sent (pl : Place) (x : Option (Fin 24)) :
    (p.setOccupant pl x).sent = p.sent := by cases pl <;> rfl
@[simp] theorem Part.setOccupant_disc (pl : Place) (x : Option (Fin 24)) (a' : Fin 24) :
    (p.setOccupant pl x).disc a' = p.disc a' := by cases pl <;> rfl
@[simp] theorem Part.setOccupant_job (pl : Place) (x : Option (Fin 24)) (a' : Fin 16) :
    (p.setOccupant pl x).job a' = p.job a' := by cases pl <;> rfl
@[simp] theorem Part.setOccupant_bay (pl : Place) (x : Option (Fin 24)) (a' : Fin 12) :
    (p.setOccupant pl x).bay a' = p.bay a' := by cases pl <;> rfl
@[simp] theorem Part.setOccupant_image (pl : Place) (x : Option (Fin 24)) (a' : Fin 32) :
    (p.setOccupant pl x).image a' = p.image a' := by cases pl <;> rfl
@[simp] theorem Part.setOccupant_channel (pl : Place) (x : Option (Fin 24)) (a' : Fin 4) :
    (p.setOccupant pl x).channel a' = p.channel a' := by cases pl <;> rfl
@[simp] theorem Part.setOccupant_template (pl : Place) (x : Option (Fin 24)) (a' : Fin 8) :
    (p.setOccupant pl x).template a' = p.template a' := by cases pl <;> rfl
@[simp] theorem Part.setOccupant_entry (pl : Place) (x : Option (Fin 24)) (a' : Fin 16) :
    (p.setOccupant pl x).entry a' = p.entry a' := by cases pl <;> rfl
@[simp] theorem Part.setOccupant_context (pl : Place) (x : Option (Fin 24)) (a' : Fin 12) :
    (p.setOccupant pl x).context a' = p.context a' := by cases pl <;> rfl
@[simp] theorem Part.setOccupant_inkChannel (pl : Place) (x : Option (Fin 24)) (a' : Fin 4) :
    (p.setOccupant pl x).inkChannel a' = p.inkChannel a' := by cases pl <;> rfl
@[simp] theorem Part.setOccupant_spindle (pl : Place) (x : Option (Fin 24)) (a' : SpindleId) :
    (p.setOccupant pl x).spindle a' = p.spindle a' := by cases pl <;> cases a' <;> rfl
@[simp] theorem Part.setOccupant_self (pl : Place) (x : Option (Fin 24)) :
    (p.setOccupant pl x).occupant pl = x := by
  cases pl <;> simp [Part.setOccupant, Part.occupant]
theorem Part.setOccupant_other (pl pl' : Place) (x : Option (Fin 24)) (h : pl' ≠ pl) :
    (p.setOccupant pl x).occupant pl' = p.occupant pl' := by
  cases pl with
  | bay b =>
    cases pl' with
    | bay b' =>
      have : b.val ≠ b'.val := fun e => h (by rw [Fin.ext e])
      simp [Part.setOccupant, Part.occupant, this]
    | arm => rfl
    | printer => rfl
  | arm => cases pl' <;> first | rfl | exact absurd rfl h
  | printer => cases pl' <;> first | rfl | exact absurd rfl h

/-! ### `emit` -/

@[simp] theorem emit_now (x : Sent) : (emit x p).now = p.now := rfl
@[simp] theorem emit_doorOpen (x : Sent) : (emit x p).doorOpen = p.doorOpen := rfl
@[simp] theorem emit_attn (x : Sent) : (emit x p).attn = p.attn := rfl
@[simp] theorem emit_discs (x : Sent) : (emit x p).discs = p.discs := rfl
@[simp] theorem emit_heldSpell (x : Sent) : (emit x p).heldSpell = p.heldSpell := rfl
@[simp] theorem emit_jobs (x : Sent) : (emit x p).jobs = p.jobs := rfl
@[simp] theorem emit_offered (x : Sent) : (emit x p).offered = p.offered := rfl
@[simp] theorem emit_places (x : Sent) : (emit x p).places = p.places := rfl
@[simp] theorem emit_spindleA (x : Sent) : (emit x p).spindleA = p.spindleA := rfl
@[simp] theorem emit_spindleB (x : Sent) : (emit x p).spindleB = p.spindleB := rfl
@[simp] theorem emit_output (x : Sent) : (emit x p).output = p.output := rfl
@[simp] theorem emit_bin (x : Sent) : (emit x p).bin = p.bin := rfl
@[simp] theorem emit_arm (x : Sent) : (emit x p).arm = p.arm := rfl
@[simp] theorem emit_bays (x : Sent) : (emit x p).bays = p.bays := rfl
@[simp] theorem emit_media (x : Sent) : (emit x p).media = p.media := rfl
@[simp] theorem emit_defaultVerdict (x : Sent) : (emit x p).defaultVerdict = p.defaultVerdict := rfl
@[simp] theorem emit_defaultCap (x : Sent) : (emit x p).defaultCap = p.defaultCap := rfl
@[simp] theorem emit_images (x : Sent) : (emit x p).images = p.images := rfl
@[simp] theorem emit_surveyQueue (x : Sent) : (emit x p).surveyQueue = p.surveyQueue := rfl
@[simp] theorem emit_channels (x : Sent) : (emit x p).channels = p.channels := rfl
@[simp] theorem emit_streamReqs (x : Sent) : (emit x p).streamReqs = p.streamReqs := rfl
@[simp] theorem emit_splitReqs (x : Sent) : (emit x p).splitReqs = p.splitReqs := rfl
@[simp] theorem emit_readCount (x : Sent) : (emit x p).readCount = p.readCount := rfl
@[simp] theorem emit_contexts (x : Sent) : (emit x p).contexts = p.contexts := rfl
@[simp] theorem emit_station (x : Sent) : (emit x p).station = p.station := rfl
@[simp] theorem emit_templates (x : Sent) : (emit x p).templates = p.templates := rfl
@[simp] theorem emit_ink (x : Sent) : (emit x p).ink = p.ink := rfl
@[simp] theorem emit_inkWait (x : Sent) : (emit x p).inkWait = p.inkWait := rfl
@[simp] theorem emit_printQueue (x : Sent) : (emit x p).printQueue = p.printQueue := rfl
@[simp] theorem emit_shortSet (x : Sent) : (emit x p).shortSet = p.shortSet := rfl
@[simp] theorem emit_tower (x : Sent) : (emit x p).tower = p.tower := rfl
@[simp] theorem emit_disc (x : Sent) (a' : Fin 24) : (emit x p).disc a' = p.disc a' := rfl
@[simp] theorem emit_job (x : Sent) (a' : Fin 16) : (emit x p).job a' = p.job a' := rfl
@[simp] theorem emit_bay (x : Sent) (a' : Fin 12) : (emit x p).bay a' = p.bay a' := rfl
@[simp] theorem emit_image (x : Sent) (a' : Fin 32) : (emit x p).image a' = p.image a' := rfl
@[simp] theorem emit_channel (x : Sent) (a' : Fin 4) : (emit x p).channel a' = p.channel a' := rfl
@[simp] theorem emit_template (x : Sent) (a' : Fin 8) : (emit x p).template a' = p.template a' := rfl
@[simp] theorem emit_entry (x : Sent) (a' : Fin 16) : (emit x p).entry a' = p.entry a' := rfl
@[simp] theorem emit_context (x : Sent) (a' : Fin 12) : (emit x p).context a' = p.context a' := rfl
@[simp] theorem emit_inkChannel (x : Sent) (a' : Fin 4) :
    (emit x p).inkChannel a' = p.inkChannel a' := rfl
@[simp] theorem emit_spindle (x : Sent) (a' : SpindleId) : (emit x p).spindle a' = p.spindle a' := by
  cases a' <;> rfl
@[simp] theorem emit_occupant (x : Sent) (a' : Place) : (emit x p).occupant a' = p.occupant a' := by
  cases a' <;> rfl

/-! ### `raise` -/

@[simp] theorem raise_now (f : Flag) : (raise f p).now = p.now := rfl
@[simp] theorem raise_doorOpen (f : Flag) : (raise f p).doorOpen = p.doorOpen := rfl
@[simp] theorem raise_discs (f : Flag) : (raise f p).discs = p.discs := rfl
@[simp] theorem raise_heldSpell (f : Flag) : (raise f p).heldSpell = p.heldSpell := rfl
@[simp] theorem raise_jobs (f : Flag) : (raise f p).jobs = p.jobs := rfl
@[simp] theorem raise_offered (f : Flag) : (raise f p).offered = p.offered := rfl
@[simp] theorem raise_places (f : Flag) : (raise f p).places = p.places := rfl
@[simp] theorem raise_spindleA (f : Flag) : (raise f p).spindleA = p.spindleA := rfl
@[simp] theorem raise_spindleB (f : Flag) : (raise f p).spindleB = p.spindleB := rfl
@[simp] theorem raise_output (f : Flag) : (raise f p).output = p.output := rfl
@[simp] theorem raise_bin (f : Flag) : (raise f p).bin = p.bin := rfl
@[simp] theorem raise_arm (f : Flag) : (raise f p).arm = p.arm := rfl
@[simp] theorem raise_bays (f : Flag) : (raise f p).bays = p.bays := rfl
@[simp] theorem raise_media (f : Flag) : (raise f p).media = p.media := rfl
@[simp] theorem raise_defaultVerdict (f : Flag) : (raise f p).defaultVerdict = p.defaultVerdict := rfl
@[simp] theorem raise_defaultCap (f : Flag) : (raise f p).defaultCap = p.defaultCap := rfl
@[simp] theorem raise_images (f : Flag) : (raise f p).images = p.images := rfl
@[simp] theorem raise_surveyQueue (f : Flag) : (raise f p).surveyQueue = p.surveyQueue := rfl
@[simp] theorem raise_channels (f : Flag) : (raise f p).channels = p.channels := rfl
@[simp] theorem raise_streamReqs (f : Flag) : (raise f p).streamReqs = p.streamReqs := rfl
@[simp] theorem raise_splitReqs (f : Flag) : (raise f p).splitReqs = p.splitReqs := rfl
@[simp] theorem raise_readCount (f : Flag) : (raise f p).readCount = p.readCount := rfl
@[simp] theorem raise_contexts (f : Flag) : (raise f p).contexts = p.contexts := rfl
@[simp] theorem raise_station (f : Flag) : (raise f p).station = p.station := rfl
@[simp] theorem raise_templates (f : Flag) : (raise f p).templates = p.templates := rfl
@[simp] theorem raise_ink (f : Flag) : (raise f p).ink = p.ink := rfl
@[simp] theorem raise_inkWait (f : Flag) : (raise f p).inkWait = p.inkWait := rfl
@[simp] theorem raise_printQueue (f : Flag) : (raise f p).printQueue = p.printQueue := rfl
@[simp] theorem raise_shortSet (f : Flag) : (raise f p).shortSet = p.shortSet := rfl
@[simp] theorem raise_tower (f : Flag) : (raise f p).tower = p.tower := rfl
@[simp] theorem raise_sent (f : Flag) : (raise f p).sent = p.sent := rfl
@[simp] theorem raise_disc (f : Flag) (a' : Fin 24) : (raise f p).disc a' = p.disc a' := rfl
@[simp] theorem raise_job (f : Flag) (a' : Fin 16) : (raise f p).job a' = p.job a' := rfl
@[simp] theorem raise_bay (f : Flag) (a' : Fin 12) : (raise f p).bay a' = p.bay a' := rfl
@[simp] theorem raise_image (f : Flag) (a' : Fin 32) : (raise f p).image a' = p.image a' := rfl
@[simp] theorem raise_channel (f : Flag) (a' : Fin 4) : (raise f p).channel a' = p.channel a' := rfl
@[simp] theorem raise_template (f : Flag) (a' : Fin 8) : (raise f p).template a' = p.template a' := rfl
@[simp] theorem raise_entry (f : Flag) (a' : Fin 16) : (raise f p).entry a' = p.entry a' := rfl
@[simp] theorem raise_context (f : Flag) (a' : Fin 12) : (raise f p).context a' = p.context a' := rfl
@[simp] theorem raise_inkChannel (f : Flag) (a' : Fin 4) :
    (raise f p).inkChannel a' = p.inkChannel a' := rfl
@[simp] theorem raise_spindle (f : Flag) (a' : SpindleId) : (raise f p).spindle a' = p.spindle a' := by
  cases a' <;> rfl
@[simp] theorem raise_occupant (f : Flag) (a' : Place) : (raise f p).occupant a' = p.occupant a' := by
  cases a' <;> rfl

/-! ### `Part.fresh` -/

@[simp] theorem Part.fresh_now : (p.fresh).now = p.now := rfl
@[simp] theorem Part.fresh_doorOpen : (p.fresh).doorOpen = p.doorOpen := rfl
@[simp] theorem Part.fresh_attn : (p.fresh).attn = p.attn := rfl
@[simp] theorem Part.fresh_discs : (p.fresh).discs = p.discs := rfl
@[simp] theorem Part.fresh_heldSpell : (p.fresh).heldSpell = p.heldSpell := rfl
@[simp] theorem Part.fresh_jobs : (p.fresh).jobs = p.jobs := rfl
@[simp] theorem Part.fresh_offered : (p.fresh).offered = p.offered := rfl
@[simp] theorem Part.fresh_places : (p.fresh).places = p.places := rfl
@[simp] theorem Part.fresh_spindleA : (p.fresh).spindleA = p.spindleA := rfl
@[simp] theorem Part.fresh_spindleB : (p.fresh).spindleB = p.spindleB := rfl
@[simp] theorem Part.fresh_output : (p.fresh).output = p.output := rfl
@[simp] theorem Part.fresh_bin : (p.fresh).bin = p.bin := rfl
@[simp] theorem Part.fresh_arm : (p.fresh).arm = p.arm := rfl
@[simp] theorem Part.fresh_bays : (p.fresh).bays = p.bays := rfl
@[simp] theorem Part.fresh_media : (p.fresh).media = p.media := rfl
@[simp] theorem Part.fresh_defaultVerdict : (p.fresh).defaultVerdict = p.defaultVerdict := rfl
@[simp] theorem Part.fresh_defaultCap : (p.fresh).defaultCap = p.defaultCap := rfl
@[simp] theorem Part.fresh_images : (p.fresh).images = p.images := rfl
@[simp] theorem Part.fresh_surveyQueue : (p.fresh).surveyQueue = p.surveyQueue := rfl
@[simp] theorem Part.fresh_channels : (p.fresh).channels = p.channels := rfl
@[simp] theorem Part.fresh_streamReqs : (p.fresh).streamReqs = p.streamReqs := rfl
@[simp] theorem Part.fresh_splitReqs : (p.fresh).splitReqs = p.splitReqs := rfl
@[simp] theorem Part.fresh_readCount : (p.fresh).readCount = p.readCount := rfl
@[simp] theorem Part.fresh_contexts : (p.fresh).contexts = p.contexts := rfl
@[simp] theorem Part.fresh_station : (p.fresh).station = p.station := rfl
@[simp] theorem Part.fresh_templates : (p.fresh).templates = p.templates := rfl
@[simp] theorem Part.fresh_ink : (p.fresh).ink = p.ink := rfl
@[simp] theorem Part.fresh_inkWait : (p.fresh).inkWait = p.inkWait := rfl
@[simp] theorem Part.fresh_printQueue : (p.fresh).printQueue = p.printQueue := rfl
@[simp] theorem Part.fresh_shortSet : (p.fresh).shortSet = p.shortSet := rfl
@[simp] theorem Part.fresh_tower : (p.fresh).tower = p.tower := rfl
@[simp] theorem Part.fresh_disc (a' : Fin 24) : (p.fresh).disc a' = p.disc a' := rfl
@[simp] theorem Part.fresh_job (a' : Fin 16) : (p.fresh).job a' = p.job a' := rfl
@[simp] theorem Part.fresh_bay (a' : Fin 12) : (p.fresh).bay a' = p.bay a' := rfl
@[simp] theorem Part.fresh_image (a' : Fin 32) : (p.fresh).image a' = p.image a' := rfl
@[simp] theorem Part.fresh_channel (a' : Fin 4) : (p.fresh).channel a' = p.channel a' := rfl
@[simp] theorem Part.fresh_template (a' : Fin 8) : (p.fresh).template a' = p.template a' := rfl
@[simp] theorem Part.fresh_entry (a' : Fin 16) : (p.fresh).entry a' = p.entry a' := rfl
@[simp] theorem Part.fresh_context (a' : Fin 12) : (p.fresh).context a' = p.context a' := rfl
@[simp] theorem Part.fresh_inkChannel (a' : Fin 4) : (p.fresh).inkChannel a' = p.inkChannel a' := rfl
@[simp] theorem Part.fresh_spindle (a' : SpindleId) : (p.fresh).spindle a' = p.spindle a' := by
  cases a' <;> rfl
@[simp] theorem Part.fresh_occupant (a' : Place) : (p.fresh).occupant a' = p.occupant a' := by
  cases a' <;> rfl
@[simp] theorem emit_sent (x : Sent) : (emit x p).sent = p.sent ++ [x] := rfl
@[simp] theorem raise_attn (f : Flag) : (raise f p).attn = p.attn.raise f p.now := rfl
@[simp] theorem Part.fresh_sent : p.fresh.sent = [] := rfl

end Sys2Proof.Machine
end

