-- ==== Sys2Proof/Laws/Exec.lean ====
section
/-! SUPPORT. What each command's meaning is, one equation per command: a request taken, or an event taken. -/

namespace Sys2Proof.Machine

@[simp] theorem exec_identify (tag : Byte) (s : State) :
    exec (.identify tag) s = takeRequest 0x01 tag reqIdentify s := rfl
@[simp] theorem exec_configureTower (tag : Byte) (c : TowerFields) (s : State) :
    exec (.configureTower tag c) s = takeRequest 0x02 tag (reqConfigureTower c) s := rfl
@[simp] theorem exec_startTower (tag : Byte) (s : State) :
    exec (.startTower tag) s = takeRequest 0x03 tag reqStartTower s := rfl
@[simp] theorem exec_stopTowerNormal (tag : Byte) (s : State) :
    exec (.stopTowerNormal tag) s = takeRequest 0x04 tag reqStopNormal s := rfl
@[simp] theorem exec_stopTowerAbrupt (tag : Byte) (s : State) :
    exec (.stopTowerAbrupt tag) s = takeRequest 0x04 tag reqStopAbrupt s := rfl
@[simp] theorem exec_armRecover (tag : Byte) (s : State) :
    exec (.armRecover tag) s = takeRequest 0x05 tag reqArmRecover s := rfl
@[simp] theorem exec_spindleLoaded (tag spindle cls count : Byte) (s : State) :
    exec (.spindleLoaded tag spindle cls count) s =
      takeRequest 0x06 tag (reqSpindleLoaded spindle cls count) s := rfl
@[simp] theorem exec_outputEmptied (tag : Byte) (s : State) :
    exec (.outputEmptied tag) s = takeRequest 0x07 tag reqOutputEmptied s := rfl
@[simp] theorem exec_rejectBinEmptied (tag : Byte) (s : State) :
    exec (.rejectBinEmptied tag) s = takeRequest 0x08 tag reqRejectBinEmptied s := rfl
@[simp] theorem exec_setAttention (tag : Byte) (enables : Word32) (mode : Byte) (s : State) :
    exec (.setAttention tag enables mode) s = takeRequest 0x10 tag (reqSetAttention enables mode) s := rfl
@[simp] theorem exec_readAttention (tag : Byte) (s : State) :
    exec (.readAttention tag) s = takeRequest 0x11 tag reqReadAttention s := rfl
@[simp] theorem exec_registerImage (tag : Byte) (address blocks : Word32) (cls : Byte) (s : State) :
    exec (.registerImage tag address blocks cls) s =
      takeRequest 0x20 tag (reqRegisterImage address blocks cls) s := rfl
@[simp] theorem exec_surveyImage (tag image : Byte) (s : State) :
    exec (.surveyImage tag image) s = takeRequest 0x21 tag (reqSurveyImage image) s := rfl
@[simp] theorem exec_lookUpImage (tag image pageStart : Byte) (s : State) :
    exec (.lookUpImage tag image pageStart) s =
      takeRequest 0x22 tag (reqLookUpImage image pageStart) s := rfl
@[simp] theorem exec_retireImage (tag image : Byte) (s : State) :
    exec (.retireImage tag image) s = takeRequest 0x23 tag (reqRetireImage image) s := rfl
@[simp] theorem exec_defineJob (tag : Byte) (f : JobFields) (s : State) :
    exec (.defineJob tag f) s = takeRequest 0x30 tag (reqDefineJob f) s := rfl
@[simp] theorem exec_changeJob (tag job : Byte) (c : JobChange) (s : State) :
    exec (.changeJob tag job c) s = takeRequest 0x31 tag (reqChangeJob job c) s := rfl
@[simp] theorem exec_startJob (tag job : Byte) (s : State) :
    exec (.startJob tag job) s = takeRequest 0x32 tag (reqStartJob job) s := rfl
@[simp] theorem exec_pauseJob (tag job : Byte) (s : State) :
    exec (.pauseJob tag job) s = takeRequest 0x33 tag (reqPauseJob job) s := rfl
@[simp] theorem exec_resumeJob (tag job : Byte) (s : State) :
    exec (.resumeJob tag job) s = takeRequest 0x34 tag (reqResumeJob job) s := rfl
@[simp] theorem exec_cancelJob (tag job : Byte) (s : State) :
    exec (.cancelJob tag job) s = takeRequest 0x35 tag (reqCancelJob job) s := rfl
@[simp] theorem exec_lookUpJob (tag job : Byte) (s : State) :
    exec (.lookUpJob tag job) s = takeRequest 0x36 tag (reqLookUpJob job) s := rfl
@[simp] theorem exec_listJobs (tag start : Byte) (s : State) :
    exec (.listJobs tag start) s = takeRequest 0x37 tag (reqListJobs start) s := rfl
@[simp] theorem exec_retireJob (tag job : Byte) (s : State) :
    exec (.retireJob tag job) s = takeRequest 0x38 tag (reqRetireJob job) s := rfl
@[simp] theorem exec_lookUpDisc (tag disc : Byte) (s : State) :
    exec (.lookUpDisc tag disc) s = takeRequest 0x40 tag (reqLookUpDisc disc) s := rfl
@[simp] theorem exec_lookUpPlace (tag place : Byte) (s : State) :
    exec (.lookUpPlace tag place) s = takeRequest 0x41 tag (reqLookUpPlace place) s := rfl
@[simp] theorem exec_listDiscs (tag start filter : Byte) (s : State) :
    exec (.listDiscs tag start filter) s = takeRequest 0x42 tag (reqListDiscs start filter) s := rfl
@[simp] theorem exec_routeDisc (tag disc dest : Byte) (s : State) :
    exec (.routeDisc tag disc dest) s = takeRequest 0x43 tag (reqRouteDisc disc dest) s := rfl
@[simp] theorem exec_markDisc (tag disc : Byte) (s : State) :
    exec (.markDisc tag disc) s = takeRequest 0x44 tag (reqMarkDisc disc) s := rfl
@[simp] theorem exec_removeDisc (tag disc : Byte) (s : State) :
    exec (.removeDisc tag disc) s = takeRequest 0x45 tag (reqRemoveDisc disc) s := rfl
@[simp] theorem exec_retireDisc (tag disc : Byte) (s : State) :
    exec (.retireDisc tag disc) s = takeRequest 0x46 tag (reqRetireDisc disc) s := rfl
@[simp] theorem exec_lookUpBay (tag bay : Byte) (s : State) :
    exec (.lookUpBay tag bay) s = takeRequest 0x50 tag (reqLookUpBay bay) s := rfl
@[simp] theorem exec_enableBay (tag bay : Byte) (s : State) :
    exec (.enableBay tag bay) s = takeRequest 0x51 tag (reqEnableBay bay) s := rfl
@[simp] theorem exec_disableBay (tag bay : Byte) (s : State) :
    exec (.disableBay tag bay) s = takeRequest 0x52 tag (reqDisableBay bay) s := rfl
@[simp] theorem exec_clearBayFault (tag bay : Byte) (s : State) :
    exec (.clearBayFault tag bay) s = takeRequest 0x53 tag (reqClearBayFault bay) s := rfl
@[simp] theorem exec_setMediaEntry (tag : Byte) (f : MediaFields) (s : State) :
    exec (.setMediaEntry tag f) s = takeRequest 0x60 tag (reqSetMediaEntry f) s := rfl
@[simp] theorem exec_clearMediaEntry (tag entry : Byte) (s : State) :
    exec (.clearMediaEntry tag entry) s = takeRequest 0x61 tag (reqClearMediaEntry entry) s := rfl
@[simp] theorem exec_setDefaultMedia (tag verdict cap : Byte) (s : State) :
    exec (.setDefaultMedia tag verdict cap) s =
      takeRequest 0x62 tag (reqSetDefaultMedia verdict cap) s := rfl
@[simp] theorem exec_lookUpMediaEntry (tag entry : Byte) (s : State) :
    exec (.lookUpMediaEntry tag entry) s = takeRequest 0x63 tag (reqLookUpMediaEntry entry) s := rfl
@[simp] theorem exec_defineTemplate (tag : Byte) (f : TemplateFields) (s : State) :
    exec (.defineTemplate tag f) s = takeRequest 0x70 tag (reqDefineTemplate f) s := rfl
@[simp] theorem exec_lookUpTemplate (tag template : Byte) (s : State) :
    exec (.lookUpTemplate tag template) s = takeRequest 0x71 tag (reqLookUpTemplate template) s := rfl
@[simp] theorem exec_cartridgeInstalled (tag channel : Byte) (level : Word32) (s : State) :
    exec (.cartridgeInstalled tag channel level) s =
      takeRequest 0x72 tag (reqCartridgeInstalled channel level) s := rfl
@[simp] theorem exec_setInkChannel (tag channel : Byte) (floor : Option Word32) (drop trim : Option Byte)
    (s : State) :
    exec (.setInkChannel tag channel floor drop trim) s =
      takeRequest 0x73 tag (reqSetInkChannel channel floor drop trim) s := rfl
@[simp] theorem exec_lookUpInk (tag template job : Byte) (s : State) :
    exec (.lookUpInk tag template job) s = takeRequest 0x74 tag (reqLookUpInk template job) s := rfl
@[simp] theorem exec_clearPrinter (tag : Byte) (s : State) :
    exec (.clearPrinter tag) s = takeRequest 0x75 tag reqClearPrinter s := rfl
@[simp] theorem exec_attnPulseEnd (s : State) : exec .attnPulseEnd s = takeEvent pulseEnds s := rfl
@[simp] theorem exec_doorOpen (s : State) : exec .doorOpen s = moveDoor true doorOpened s := rfl
@[simp] theorem exec_doorClosed (s : State) : exec .doorClosed s = moveDoor false doorShut s := rfl
@[simp] theorem exec_gripped (op : Nat) (s : State) :
    exec (.gripped op) s = takeEvent (fun p => settle (takeGripped op p)) s := rfl
@[simp] theorem exec_done (op : Nat) (s : State) :
    exec (.done op) s = takeEvent (fun p => settle (takeDone op p)) s := rfl
@[simp] theorem exec_missed (op : Nat) (s : State) :
    exec (.missed op) s = takeEvent (fun p => settle (armReport op missed p)) s := rfl
@[simp] theorem exec_double (op : Nat) (s : State) :
    exec (.double op) s = takeEvent (fun p => settle (armReport op doubled p)) s := rfl
@[simp] theorem exec_single (op : Nat) (s : State) :
    exec (.single op) s = takeEvent (fun p => settle (armReport op separated p)) s := rfl
@[simp] theorem exec_stillDouble (op : Nat) (s : State) :
    exec (.stillDouble op) s = takeEvent (fun p => settle (armReport op unseparated p)) s := rfl
@[simp] theorem exec_dropped (op : Nat) (s : State) :
    exec (.dropped op) s = takeEvent (fun p => settle (armReport op dropped p)) s := rfl
@[simp] theorem exec_interrupted (op : Nat) (s : State) :
    exec (.interrupted op) s =
      takeEvent (fun p => settle (armReport op (fun _ _ p => interruptedHeld p) p)) s := rfl
@[simp] theorem exec_jammed (op : Nat) (s : State) :
    exec (.jammed op) s = takeEvent (fun p => settle (armReport op (fun _ _ p => jam p) p)) s := rfl
@[simp] theorem exec_homed (op : Nat) (discHeld : Bool) (s : State) :
    exec (.homed op discHeld) s =
      takeEvent (fun p => settle (armReport op (fun o _ p => takeHomed discHeld o p) p)) s := rfl
@[simp] theorem exec_moveTimeout (s : State) :
    exec .moveTimeout s = takeEvent (fun p => settle (armExpired p)) s := rfl
@[simp] theorem exec_loaded (b : Fin 12) (s : State) :
    exec (.loaded b) s = takeEvent (driveReport b .load (takeLoaded b)) s := rfl
@[simp] theorem exec_loadError (b : Fin 12) (s : State) :
    exec (.loadError b) s = takeEvent (driveReport b .load (bayFailure b .recordFailed)) s := rfl
@[simp] theorem exec_identified (b : Fin 12) (blank : Bool) (maker type : Word16) (cls : DiscClass)
    (capacity : Nat) (s : State) :
    exec (.identified b blank maker type cls capacity) s =
      takeEvent (driveReport b .identify (takeIdentified b blank maker type cls capacity)) s := rfl
@[simp] theorem exec_idError (b : Fin 12) (s : State) :
    exec (.idError b) s = takeEvent (driveReport b .identify (bayFailure b .recordFailed)) s := rfl
@[simp] theorem exec_ready (b : Fin 12) (s : State) :
    exec (.ready b) s = takeEvent (driveReport b .write (memberReady b)) s := rfl
@[simp] theorem exec_chunkAck (b : Fin 12) (s : State) :
    exec (.chunkAck b) s = takeEvent (driveReport b .write (memberAck b)) s := rfl
@[simp] theorem exec_writeError (b : Fin 12) (s : State) :
    exec (.writeError b) s = takeEvent (driveReport b .write (bayFailure b .recordFailed)) s := rfl
@[simp] theorem exec_closed (b : Fin 12) (s : State) :
    exec (.closed b) s = takeEvent (driveReport b .close (takeClosed b)) s := rfl
@[simp] theorem exec_closeError (b : Fin 12) (s : State) :
    exec (.closeError b) s = takeEvent (driveReport b .close (bayFailure b .recordFailed)) s := rfl
@[simp] theorem exec_segment (b : Fin 12) (bytes : List Byte) (s : State) :
    exec (.segment b bytes) s =
      takeEvent (driveReport b .read fun p => takeRead b (p.readMatches s.memory b bytes) p) s := rfl
@[simp] theorem exec_readError (b : Fin 12) (s : State) :
    exec (.readError b) s = takeEvent (driveReport b .read (takeRead b false)) s := rfl
@[simp] theorem exec_opened (b : Fin 12) (s : State) :
    exec (.opened b) s = takeEvent (driveReport b .eject (takeOpened b)) s := rfl
@[simp] theorem exec_ejectError (b : Fin 12) (s : State) :
    exec (.ejectError b) s = takeEvent (driveReport b .eject (ejectFails b)) s := rfl
@[simp] theorem exec_resetDone (b : Fin 12) (present : Bool) (tray : Tray) (s : State) :
    exec (.resetDone b present tray) s =
      takeEvent (driveReport b .reset (abortTested b (takeResetDone b present tray))) s := rfl
@[simp] theorem exec_resetFailed (b : Fin 12) (s : State) :
    exec (.resetFailed b) s = takeEvent (driveReport b .reset (abortTested b (failedRecovery b))) s := rfl
@[simp] theorem exec_watchdogExpiry (b : Fin 12) (s : State) :
    exec (.watchdogExpiry b) s = takeEvent (fun p => settle (watchdogExpires b p)) s := rfl
@[simp] theorem exec_data (c : Fin 4) (id : Nat) (bytes : List Byte) (s : State) :
    exec (.data c id bytes) s =
      takeEvent (fun p => if p.answers c id then settle (takeData c id p) else p)
        (if s.link.resetLow then s else { s with memory := storeData s.part c id bytes s.memory }) := rfl
@[simp] theorem exec_storeError (c : Fin 4) (id : Nat) (s : State) :
    exec (.storeError c id) s = takeEvent (takeStoreError c id) s := rfl
@[simp] theorem exec_storeReadLimitExpiry (c : Fin 4) (s : State) :
    exec (.storeReadLimitExpiry c) s = takeEvent (storeLimitExpires c) s := rfl
@[simp] theorem exec_joinPeriodEnd (c : Fin 4) (s : State) :
    exec (.joinPeriodEnd c) s = takeEvent (joinEnds c) s := rfl
@[simp] theorem exec_status (present : Bool) (condition : Condition) (t : Nat) (s : State) :
    exec (.status present condition t) s =
      takeEvent (fun p => settle (takeStatus present condition t p)) s := rfl
@[simp] theorem exec_labelDone (d : Drops) (t : Nat) (s : State) :
    exec (.labelDone d t) s = takeEvent (fun p => settle (takeLabel false d t p)) s := rfl
@[simp] theorem exec_labelFailed (d : Drops) (t : Nat) (s : State) :
    exec (.labelFailed d t) s = takeEvent (fun p => settle (takeLabel true d t p)) s := rfl
@[simp] theorem exec_temperature (t : Nat) (s : State) :
    exec (.temperature t) s = takeEvent (fun p => settle (takeTemperature t p)) s := rfl
@[simp] theorem exec_printerFault (d : Drops) (s : State) :
    exec (.printerFault d) s = takeEvent (fun p => settle (takeEngineFault d p)) s := rfl
@[simp] theorem exec_labelLimitExpiry (s : State) :
    exec .labelLimitExpiry s = takeEvent (fun p => settle (labelExpires p)) s := rfl
@[simp] theorem exec_queryLimitExpiry (s : State) :
    exec .queryLimitExpiry s = takeEvent (fun p => settle (queryExpires p)) s := rfl

@[simp] theorem exec_selectBegin (s : State) : exec .selectBegin s = execSelectBegin s := rfl
@[simp] theorem exec_selectEnd (bytes : List Byte) (s : State) :
    exec (.selectEnd bytes) s = execSelectEnd bytes s := rfl
@[simp] theorem exec_rstNLow (s : State) :
    exec .rstNLow s =
      .next { s with link := { s.link with resetLow := true }, part := emit .armStop s.part.fresh } := rfl
@[simp] theorem exec_rstNRise (s : State) :
    exec .rstNRise s = .next { s with link := s.link.afterRise, part := s.part.afterRise } := rfl

end Sys2Proof.Machine
end

