-- ==== Sys2Proof/Laws/Taking.lean ====
section
/-! SUPPORT. What taking an event and taking a request answer (R173, R175, R177). -/

namespace Sys2Proof.Machine

/-- An event reaches the records while RST_N is high. -/
theorem takeEvent_live {f : Part → Part} {s : State} (h : s.link.resetLow = false) :
    takeEvent f s = .next { s with part := f s.part.fresh } := by
  simp [takeEvent, h]

/-- While RST_N is low an event is discarded. -/
theorem takeEvent_low {f : Part → Part} {s : State} (h : s.link.resetLow = true) :
    takeEvent f s = .next s := by
  simp [takeEvent, h]

/-- An event answers a next state, with the queue as it was. -/
theorem takeEvent_next (f : Part → Part) (s : State) :
    ∃ t, takeEvent f s = .next t ∧ t.pending = s.pending ∧ t.link = s.link ∧ t.memory = s.memory ∧
      (t.part = s.part ∨ t.part = f s.part.fresh) := by
  unfold takeEvent
  split
  · exact ⟨_, rfl, rfl, rfl, rfl, .inl rfl⟩
  · exact ⟨_, rfl, rfl, rfl, rfl, .inr rfl⟩

/-- A request with a slot free is executed and answered. -/
theorem takeRequest_taken {code tag : Byte} {act : Part → Part × Answer} {s : State}
    (low : s.link.resetLow = false) (free : s.link.slotFree = true) :
    takeRequest code tag act s = .next { s with
      part := (act s.part.fresh).1
      link := { s.link with
        replies := s.link.replies ++ [replyFrame code tag (act s.part.fresh).2] } } := by
  simp [takeRequest, low, free, answer]

/-- A request with no slot free raises LINK_OVERRUN. -/
theorem takeRequest_full {code tag : Byte} {act : Part → Part × Answer} {s : State}
    (low : s.link.resetLow = false) (full : s.link.slotFree = false) :
    takeRequest code tag act s = .next { s with part := raise .linkOverrun s.part.fresh } := by
  simp [takeRequest, low, full]

/-- While RST_N is low a request is not taken. -/
theorem takeRequest_low {code tag : Byte} {act : Part → Part × Answer} {s : State}
    (low : s.link.resetLow = true) : takeRequest code tag act s = .next s := by
  simp [takeRequest, low]

/-- A request answers a next state: nothing, the overrun, or one reply more. -/
theorem takeRequest_next (code tag : Byte) (act : Part → Part × Answer) (s : State) :
    ∃ t, takeRequest code tag act s = .next t ∧ t.pending = s.pending ∧ t.memory = s.memory ∧
      ((t.part = s.part ∧ t.link = s.link) ∨
        (t.part = raise .linkOverrun s.part.fresh ∧ t.link = s.link) ∨
        (s.link.slotFree = true ∧ t.part = (act s.part.fresh).1 ∧
          t.link = { s.link with
            replies := s.link.replies ++ [replyFrame code tag (act s.part.fresh).2] })) := by
  unfold takeRequest
  split
  · exact ⟨_, rfl, rfl, rfl, .inl ⟨rfl, rfl⟩⟩
  · split
    · rename_i h
      exact ⟨_, rfl, rfl, rfl, .inr (.inr ⟨h, rfl, rfl⟩)⟩
    · exact ⟨_, rfl, rfl, rfl, .inr (.inl ⟨rfl, rfl⟩)⟩

/-- A request row takes its request: the owner's meaning is the one a frame of it is handed to. -/
theorem exec_request {i : Instr} {code : Byte} {body : List Byte}
    (h : requestBody i = some (code, body)) (s : State) :
    exec i s = takeRequest code (tagOf i) (runRequest i) s := by
  cases i <;> simp only [requestBody, Option.some.injEq, Prod.mk.injEq, reduceCtorEq] at h <;>
    (obtain ⟨rfl, -⟩ := h; rfl)

/-- A command that is neither a request row, a select, an edge of RST_N, a move of the door nor DATA takes
an event. -/
theorem exec_event (i : Instr) (m : Memory) (request : requestBody i = none) :
    i = .selectBegin ∨ (∃ bytes, i = .selectEnd bytes) ∨ i = .rstNLow ∨ i = .rstNRise ∨ i = .doorOpen ∨
      i = .doorClosed ∨ (∃ c id bytes, i = .data c id bytes) ∨
      ∃ f, ∀ s : State, s.memory = m → exec i s = takeEvent f s := by
  have event : ∀ {j : Instr} {f : Part → Part}, (∀ s : State, s.memory = m → exec j s = takeEvent f s) →
      j = .selectBegin ∨ (∃ bytes, j = .selectEnd bytes) ∨ j = .rstNLow ∨ j = .rstNRise ∨ j = .doorOpen ∨
        j = .doorClosed ∨ (∃ c id bytes, j = .data c id bytes) ∨
        ∃ f, ∀ s : State, s.memory = m → exec j s = takeEvent f s :=
    fun h => .inr (.inr (.inr (.inr (.inr (.inr (.inr ⟨_, h⟩))))))
  cases i <;> simp only [requestBody, reduceCtorEq] at request
  case selectBegin => exact .inl rfl
  case selectEnd bytes => exact .inr (.inl ⟨bytes, rfl⟩)
  case rstNLow => exact .inr (.inr (.inl rfl))
  case rstNRise => exact .inr (.inr (.inr (.inl rfl)))
  case doorOpen => exact .inr (.inr (.inr (.inr (.inl rfl))))
  case doorClosed => exact .inr (.inr (.inr (.inr (.inr (.inl rfl)))))
  case data c id bytes => exact .inr (.inr (.inr (.inr (.inr (.inr (.inl ⟨c, id, bytes, rfl⟩))))))
  case attnPulseEnd => exact event fun s _ => exec_attnPulseEnd s
  case gripped op => exact event fun s _ => exec_gripped op s
  case done op => exact event fun s _ => exec_done op s
  case missed op => exact event fun s _ => exec_missed op s
  case double op => exact event fun s _ => exec_double op s
  case single op => exact event fun s _ => exec_single op s
  case stillDouble op => exact event fun s _ => exec_stillDouble op s
  case dropped op => exact event fun s _ => exec_dropped op s
  case interrupted op => exact event fun s _ => exec_interrupted op s
  case jammed op => exact event fun s _ => exec_jammed op s
  case homed op discHeld => exact event fun s _ => exec_homed op discHeld s
  case moveTimeout => exact event fun s _ => exec_moveTimeout s
  case loaded b => exact event fun s _ => exec_loaded b s
  case loadError b => exact event fun s _ => exec_loadError b s
  case identified b blank maker type cls capacity => exact event fun s _ => exec_identified b blank maker type cls capacity s
  case idError b => exact event fun s _ => exec_idError b s
  case ready b => exact event fun s _ => exec_ready b s
  case chunkAck b => exact event fun s _ => exec_chunkAck b s
  case writeError b => exact event fun s _ => exec_writeError b s
  case closed b => exact event fun s _ => exec_closed b s
  case closeError b => exact event fun s _ => exec_closeError b s
  case readError b => exact event fun s _ => exec_readError b s
  case opened b => exact event fun s _ => exec_opened b s
  case ejectError b => exact event fun s _ => exec_ejectError b s
  case resetDone b present tray => exact event fun s _ => exec_resetDone b present tray s
  case resetFailed b => exact event fun s _ => exec_resetFailed b s
  case watchdogExpiry b => exact event fun s _ => exec_watchdogExpiry b s
  case storeError c id => exact event fun s _ => exec_storeError c id s
  case storeReadLimitExpiry c => exact event fun s _ => exec_storeReadLimitExpiry c s
  case joinPeriodEnd c => exact event fun s _ => exec_joinPeriodEnd c s
  case status present condition t => exact event fun s _ => exec_status present condition t s
  case labelDone d t => exact event fun s _ => exec_labelDone d t s
  case labelFailed d t => exact event fun s _ => exec_labelFailed d t s
  case temperature t => exact event fun s _ => exec_temperature t s
  case printerFault d => exact event fun s _ => exec_printerFault d s
  case labelLimitExpiry => exact event fun s _ => exec_labelLimitExpiry s
  case queryLimitExpiry => exact event fun s _ => exec_queryLimitExpiry s
  case segment b bytes =>
    refine event (f := driveReport b .read fun p => takeRead b (p.readMatches m b bytes) p) fun s h => ?_
    subst h
    exact exec_segment b bytes s

end Sys2Proof.Machine
end

