-- ==== Sys2Proof/Laws/Ops.lean ====
section
/-! SUPPORT. For each shared operation, once, everything it does: the operation as an explicit update of the
records, or what it leaves alone. -/

namespace Sys2Proof.Machine

variable {p : Part}

/-! ## Flags -/

/-- Every flag is one of the 19 bits of the flags word (R184). -/
theorem Flag.bit_lt (f : Flag) : f.bit < 19 := by cases f <;> decide

/-- Two flags do not share a bit (R184). -/
theorem Flag.bit_inj {f g : Flag} (h : f.bit = g.bit) : f = g := by
  cases f <;> cases g <;> first | rfl | exact absurd h (by decide)

/-- Raising a flag sets it and no other (R180). -/
@[simp] theorem Attention.isSet_raise (a : Attention) (f g : Flag) (n : Nat) :
    (a.raise f n).isSet g = (a.isSet g || decide (g = f)) := by
  unfold Attention.raise Attention.isSet
  simp only [BitVec.getLsbD_or, BitVec.getLsbD_twoPow]
  by_cases h : g = f
  · subst h
    simp [Flag.bit_lt]
  · have : f.bit ≠ g.bit := fun e => h (Flag.bit_inj e.symm)
    simp [this, h]

@[simp] theorem Attention.raise_enables (a : Attention) (f : Flag) (n : Nat) :
    (a.raise f n).enables = a.enables := rfl
@[simp] theorem Attention.raise_mode (a : Attention) (f : Flag) (n : Nat) : (a.raise f n).mode = a.mode := rfl

/-- Raising on a condition is an update of the attention record alone. -/
theorem raiseIf_eq (c : Bool) (f : Flag) (p : Part) :
    raiseIf c f p = { p with attn := if c then p.attn.raise f p.now else p.attn } := by
  cases c <;> rfl

/-! ## Held records -/

/-- Changing a held disc record writes it. -/
theorem modDisc_held {r : Fin 24} {d : Disc} (h : p.disc r = some d) (f : Disc → Disc) :
    p.modDisc r f = p.setDisc r (some (f d)) := by
  rw [Part.modDisc, h]; rfl

/-- Changing a held job record writes it. -/
theorem modJob_held {x : Fin 16} {j : Job} (h : p.job x = some j) (f : Job → Job) :
    p.modJob x f = p.setJob x (some (f j)) := by
  rw [Part.modJob, h]; rfl

/-- A write a record's stage accepts is stored (R3). -/
theorem Disc.atStage_accepted {d : Disc} {st : Stage} (h : d.stage.accepts st = true) :
    d.atStage st = { d with stage := st } := by
  rw [Disc.atStage, if_pos h]

/-- A write its stage does not accept is discarded (R3). -/
theorem Disc.atStage_refused {d : Disc} {st : Stage} (h : d.stage.accepts st = false) :
    d.atStage st = d := by
  rw [Disc.atStage, if_neg (by simp [h])]

/-- A write of a record's *stage* touches no other field of it (R3). -/
theorem Disc.atStage_eq (d : Disc) (st : Stage) :
    d.atStage st = { d with stage := if d.stage.accepts st then st else d.stage } := by
  unfold Disc.atStage
  split <;> rfl

/-- Writing a disc record keeps the ranks held, when its own stays. -/
theorem eligibleRanks_setDisc {r : Fin 24} {d e : Disc} (h : p.disc r = some d)
    (he : e.eligible = d.eligible) : (p.setDisc r (some e)).eligibleRanks = p.eligibleRanks := by
  have key : ∀ (l : List (Option Disc)) (i : Nat) (h : i < l.length), l[i] = some d →
      (l.set i (some e)).filterMap (fun d => d.bind (·.eligible)) =
        l.filterMap (fun d => d.bind (·.eligible)) := by
    intro l
    induction l with
    | nil => intro i h; cases h
    | cons x l ih =>
      intro i h hi
      cases i with
      | zero =>
        simp only [List.getElem_cons_zero] at hi
        subst hi
        simp [List.filterMap_cons, he]
      | succ i =>
        simp only [List.getElem_cons_succ] at hi
        simp only [List.set_cons_succ, List.filterMap_cons, ih i (by simpa using h) hi]
  unfold Part.eligibleRanks Part.setDisc
  simp only [Vector.toList_set]
  exact key _ _ (by simp) (by simpa [Part.disc] using h)

/-- The first write of REJECT (R4). -/
theorem writeReject_first {r : Fin 24} {d : Disc} (h : p.disc r = some d) (hv : d.verdict ≠ .reject)
    (why : Reason) :
    writeReject r why p =
      raise .discRejected (p.setDisc r (some { d with verdict := .reject, reason := some why })) := by
  rw [writeReject, h]; simp [hv]

/-! ## Places -/

/-- Writing an occupant leaves every other place alone (R42). -/
theorem setOccupant_get (p : Part) (pl ql : Place) (o : Option (Fin 24)) :
    (p.setOccupant pl o).occupant ql = if ql = pl then o else p.occupant ql := by
  by_cases h : ql = pl
  · subst h; simp
  · rw [if_neg h, Part.setOccupant_other p pl ql o h]

/-! ## The class support of CONFIGURE TOWER -/

/-- An entry that stands is one of the request's. -/
theorem standingEntries_subset : ∀ l, standingEntries l ⊆ l
  | [] => List.Subset.refl _
  | e :: rest => by
    rw [standingEntries]
    split
    · exact List.subset_cons_of_subset e (standingEntries_subset rest)
    · exact List.cons_subset_cons e (standingEntries_subset rest)

/-- No two entries that stand name one bay. -/
theorem standingEntries_distinct : ∀ l, ((standingEntries l).map (·.bay)).Nodup
  | [] => List.nodup_nil
  | e :: rest => by
    rw [standingEntries]
    split
    · exact standingEntries_distinct rest
    · rename_i h
      refine List.nodup_cons.2 ⟨fun m => h ?_, standingEntries_distinct rest⟩
      obtain ⟨x, hx, hb⟩ := List.mem_map.1 m
      exact List.any_eq_true.2 ⟨x, standingEntries_subset rest hx, by simpa using hb⟩

/-- Of entries that name bays 0-11 at most 12 stand (R184; log 41). -/
theorem standingEntries_length (l : List SupportEntry) (h : ∀ e ∈ l, e.bay.toNat ≤ 11) :
    (standingEntries l).length ≤ 12 := by
  have d : ((standingEntries l).map (·.bay.toNat)).Nodup := by
    simpa [Function.comp_def] using (standingEntries_distinct l).map (f := BitVec.toNat) fun _ _ => BitVec.eq_of_toNat_eq
  have s : (standingEntries l).map (·.bay.toNat) ⊆ List.range 12 := by
    intro n m
    obtain ⟨e, he, rfl⟩ := List.mem_map.1 m
    exact List.mem_range.2 (Nat.lt_succ_of_le (h e (standingEntries_subset l he)))
  simpa using (List.subperm_of_subset d s).length_le

/-- A named-value byte of DEFINE JOB is taken when it has a code, or is absent in a field that does not apply (R176;
log 44). -/
theorem namedFits_iff {α : Type} (applies : Bool) (of : Byte → Option α) (b : Byte) :
    namedFits applies of b = true ↔ (of b).isSome = true ∨ applies = false ∧ b = 0xFF := by
  simp [namedFits]

end Sys2Proof.Machine
end

