-- ==== Sys2Proof/Laws/Handler.lean ====
section
/-! SUPPORT. The handler unit's and the bay controller's shared operations as explicit updates. -/

namespace Sys2Proof.Machine

variable {p : Part}

/-! ## Spindles and sinks -/

/-- A spindle is written, and SPINDLE_EMPTY raised when it became empty (R43). -/
theorem changeSpindle_eq (s : SpindleId) (x : Spindle) (p : Part) :
    changeSpindle s x p = { p.setSpindle s x with
      attn := if x.empty = true ∧ (p.spindle s).empty = false then p.attn.raise .spindleEmpty p.now
        else p.attn } := by
  unfold changeSpindle
  rw [raiseIf_eq]
  cases s <;> simp [Part.setSpindle]

/-- A blank leaves its spindle (R43). -/
theorem useBlank_eq (s : SpindleId) (p : Part) :
    useBlank s p = { p.setSpindle s { p.spindle s with
        count := (p.spindle s).count - 1, empty := (p.spindle s).empty || decide ((p.spindle s).count ≤ 1) } with
      attn := if (p.spindle s).empty = false ∧ (p.spindle s).count ≤ 1 then
        p.attn.raise .spindleEmpty p.now else p.attn } := by
  unfold useBlank
  rw [changeSpindle_eq]
  cases h : (p.spindle s).empty <;> simp

/-- OUTPUT counts what is dropped onto it (R45). -/
theorem addOutput_eq (n : Nat) (p : Part) :
    addOutput n p = { p with
      output := { p.output with count := p.output.count + n }
      attn := if p.output.count < p.output.capacity ∧ p.output.capacity ≤ p.output.count + n then
        p.attn.raise .outputFull p.now else p.attn } := by
  unfold addOutput
  rw [raiseIf_eq]
  simp [Sink.full]

/-- The REJECT BIN counts what is dropped into it (R45). -/
theorem addBin_eq (n : Nat) (p : Part) :
    addBin n p = { p with
      bin := { p.bin with count := p.bin.count + n }
      attn := if p.bin.count < p.bin.capacity ∧ p.bin.capacity ≤ p.bin.count + n then
        p.attn.raise .rejectFull p.now else p.attn } := by
  unfold addBin
  rw [raiseIf_eq]
  simp [Sink.full]

/-! ## The arm -/

/-- An operation is sent on the handler port (R48, R50). -/
theorem sendArm_eq (o : ArmOrder) (p : Part) :
    sendArm o p = { p with
      arm := p.arm.sending o (p.now + p.tower.moveTimeout), sent := p.sent ++ [.arm o] } := rfl

/-- A move ends, the arm not HALTED (R47). -/
theorem endMove_idle (h : p.arm.state ≠ .halted) :
    endMove p = { p with arm := { p.arm with move := none, state := .idle } } := by
  simp [endMove, h]

/-- The tower halts (R172). -/
theorem haltTower_eq (p : Part) :
    haltTower p = { p with
      tower := match p.tower.state.asResume with
        | some x => { p.tower with state := .halted, resume := some x }
        | none => if p.tower.state = .paused then { p.tower with state := .halted } else p.tower
      attn := if p.tower.state.asResume.isSome = true ∨ p.tower.state = .paused then
        p.attn.raise .towerState p.now else p.attn } := by
  unfold haltTower
  cases h : p.tower.state.asResume with
  | some x => rfl
  | none =>
    by_cases hp : p.tower.state = .paused
    · simp [hp]; rfl
    · simp [hp]

/-- The tower pauses (R171). -/
theorem pauseTower_eq (p : Part) :
    pauseTower p = { p with
      tower := match p.tower.state.asResume with
        | some x => { p.tower with state := .paused, resume := some x }
        | none => p.tower
      attn := match p.tower.state.asResume with
        | some _ => p.attn.raise .towerState p.now
        | none => p.attn } := by
  unfold pauseTower
  cases p.tower.state.asResume <;> rfl

/-- A jam (R61). -/
theorem jam_eq (p : Part) :
    jam p = haltTower { p with
      attn := p.attn.raise .armHalt p.now
      arm := { p.arm with
        state := .halted, halt := some .jam, op := none, heldInterrupted := false
        move := p.arm.move.map fun m => { m with interrupted := true } } } := rfl

/-- An unseparated pair waits while the bin is full (R57, R60). -/
theorem deliverPair_waits (h : p.bin.full = true) :
    deliverPair p = { p with arm := { p.arm with
      state := .moving, halt := none, move := p.arm.move.map fun m => { m with feed := .pairWaiting } } } := by
  simp [deliverPair, enterArm, modMove, h]

/-- An unseparated pair is delivered while the bin has room (R57, R60). -/
theorem deliverPair_sends (h : p.bin.full = false) :
    deliverPair p = { p with
      arm := { p.arm.sending (.deliver .bin) (p.now + p.tower.moveTimeout) with
        state := .moving, halt := none, move := p.arm.move.map fun m => { m with feed := .pair } }
      sent := p.sent ++ [.arm (.deliver .bin)] } := by
  simp [deliverPair, enterArm, modMove, sendArm_eq, Arm.sending, h]

/-- A move already gripped goes on by DELIVER to its destination (R60). -/
theorem deliverHeld_gripped {m : Move} (h : m.gripped = true) :
    deliverHeld m p = { p with
      arm := { p.arm.sending (.deliver m.dest) (p.now + p.tower.moveTimeout) with state := .moving, halt := none }
      sent := p.sent ++ [.arm (.deliver m.dest)] } := by
  simp [deliverHeld, enterArm, sendArm_eq, Arm.sending, h]

/-- DISC HELD: an unfinished SEPARATE is sent again, a pair that was waiting goes to the bin or waits, and any other
move goes on to its destination (R60). -/
theorem resolveHeld_eq (m : Move) (p : Part) :
    resolveHeld m p = if m.feed = .separating then sendArm .separate (enterArm .separating p)
      else if m.feed = .pairWaiting then deliverPair p else deliverHeld m p := by
  unfold resolveHeld
  cases m.feed <;> rfl

/-- The door's opening cuts the arm's operation short (R47, R58, R62). -/
theorem cutArm_eq (p : Part) :
    cutArm p = { p with
      arm := if p.arm.state = .halted then p.arm else { p.arm with
        state := .halted, op := none, heldInterrupted := false, cut := p.arm.op
        halt := if p.arm.op.map (·.order) = some (.home .recover) then some .jam else some .door
        move := p.arm.move.map fun m => { m with interrupted := true } } } := by
  unfold cutArm
  split
  · rfl
  · dsimp only [modMove]
    congr 2
    generalize p.arm.op.map (·.order) = o
    cases o with
    | none => rfl
    | some o =>
      cases o with
      | home w => cases w <;> rfl
      | _ => rfl

/-- How the report of an operation in flight stands to the arm (R48, R50, R58). -/
theorem fit_flying {s : State} {o : ArmOp} (h : s.flying o) : s.part.fresh.fit o.id = .flight o := by
  obtain ⟨h1, h2, h3, h4, h5, h6, h7⟩ := h
  unfold Part.fit
  simp only [Part.fresh_arm, Part.fresh_doorOpen, h3, h4, h2, h6]
  simp [Nat.not_lt.2 h5]

/-! ## Bays -/

/-- An empty bay with its tray open (R74, R75, R79). -/
theorem emptyBay_eq (b : Fin 12) (p : Part) :
    emptyBay b p = { p.setBay b (p.bay b).emptied with
      attn := if (p.bay b).consecutiveFailures = 3 then p.attn.raise .bayFault p.now else p.attn } := by
  unfold emptyBay Bay.emptied
  by_cases h : (p.bay b).consecutiveFailures = 3
  · simp only [h, if_true]; rfl
  · simp only [h, if_false]
    cases (p.bay b).disablePending <;> rfl

/-- A pick's bay is released (R68). -/
theorem releaseBay_expecting {b : Fin 12} (h : (p.bay b).state = .expecting) :
    releaseBay b p = p.setBay b
      (if (p.bay b).disablePending then (p.bay b).enter .offline else (p.bay b).enter .open_) := by
  rw [releaseBay, if_pos h]
  cases (p.bay b).disablePending <;> rfl

/-- A bay that is not EXPECTING is not released (R68). -/
theorem releaseBay_other {b : Fin 12} (h : (p.bay b).state ≠ .expecting) : releaseBay b p = p := by
  rw [releaseBay, if_neg h]

/-- LOAD is sent (R68, R80). -/
theorem loadBay_eq (b : Fin 12) (p : Part) :
    loadBay b p = { p.setBay b (((p.bay b).driven .load (p.now + 20000)).enter .closingTray) with
      sent := p.sent ++ [.drive b .load] } := by
  simp [loadBay, enterBay, sendDrive, Part.modBay, emit, Part.setBay, Part.bay, Bay.driven, trayTimeout]

/-- EJECT is sent (R73). -/
theorem ejectBay_eq (b : Fin 12) (p : Part) :
    ejectBay b p = { p.setBay b (((p.bay b).driven .eject (p.now + 20000)).enter .openingTray) with
      sent := p.sent ++ [.drive b .eject] } := by
  simp [ejectBay, enterBay, sendDrive, Part.modBay, emit, Part.setBay, Part.bay, Bay.driven, trayTimeout]

/-! ## The label unit's hold on a record -/

/-- A record with no reservation releases nothing (R148). -/
theorem release_none {r : Fin 24} (h : ∀ d, p.disc r = some d → d.reservation = none) : release r p = p := by
  unfold release Part.reserves
  cases hd : p.disc r with
  | none => rfl
  | some d => simp [h d hd]

/-- The release of a reservation, and its retry pass (R148, R152). -/
theorem release_held {r : Fin 24} (h : p.reserves r = true) : release r p = retryPass (unreserve r p) := by
  rw [release, if_pos h]

/-- A record not in the ink-wait list does not leave it. -/
theorem leaveInkWait_absent {r : Fin 24} (h : r ∉ p.inkWait) : leaveInkWait r p = p := by
  unfold leaveInkWait
  rw [if_neg (by simpa using h)]

/-- A record not in the print queue does not leave it. -/
theorem leavePrintQueue_absent {r : Fin 24} (h : r ∉ p.printQueue) : leavePrintQueue r p = p := by
  unfold leavePrintQueue
  have : p.printQueue.filter (· != r) = p.printQueue :=
    List.filter_eq_self.2 fun x hx => by
      simp only [bne_iff_ne, ne_eq]
      rintro rfl
      exact h hx
  rw [this]

/-- A record that holds nothing of the label unit's. -/
theorem leaveLabelUnit_absent {r : Fin 24} (h : ∀ d, p.disc r = some d → d.reservation = none)
    (hw : r ∉ p.inkWait) (hq : r ∉ p.printQueue) : leaveLabelUnit r p = p := by
  unfold leaveLabelUnit
  rw [leaveInkWait_absent hw, leavePrintQueue_absent hq, release_none h]

/-! ## The ends of a record -/

/-- The move of a record found LOST is discarded, and no other (R47). -/
theorem forgetMove_eq (r : Fin 24) (p : Part) :
    forgetMove r p = { p with arm := { p.arm with move := p.arm.move.filter (·.record != r) } } := by
  unfold forgetMove
  split
  · next m hm =>
    by_cases h : m.record = r
    · simp [hm, h, Option.filter]
    · simp only [if_neg h, hm, Option.filter]
      rw [if_pos (by simpa using h), ← hm]
  · next hm =>
    simp only [hm, Option.filter]
    rw [← hm]

/-- The test of an abort's completion does nothing outside ABORTING (R170). -/
theorem testAbort_other (h : p.tower.state ≠ .aborting) : testAbort p = p := by
  rw [testAbort, if_neg fun x => h x.1]

/-- With auto-retire off a final record is kept (R15). -/
theorem autoRetire_off (h : p.tower.autoRetire = false) (r : Fin 24) : autoRetire r p = p := by
  simp [autoRetire, h]

end Sys2Proof.Machine
end

