-- ==== Sys2Proof/Laws/Blocks.lean ====
section
/-! SUPPORT. For the operations the blocks share, the fields of the part it may change: every other field
is as it was. An operation's frame is put together from the frames of the operations it is made of. -/

namespace Sys2Proof.Machine

variable {p q r : Part} {fs gs : List Field}

/-- Every field of one list is in another. -/
def within (gs fs : List Field) : Bool := gs.all fs.contains

/-- One change, then another: the fields of both. -/
theorem Part.Changes.andThen (h : p.Changes fs q) (h' : q.Changes gs r) : p.Changes (fs ++ gs) r :=
  (h.mono fun _ hf => List.mem_append_left _ hf).trans (h'.mono fun _ hf => List.mem_append_right _ hf)

/-- A change seen as a change of more fields. -/
theorem Part.Changes.widen (h : p.Changes fs q) (sub : within fs gs = true) : p.Changes gs q :=
  h.mono fun f hf => by
    have := List.all_eq_true.1 sub f hf
    simpa using this

/-- A change of some fields, then of fields among them. -/
theorem Part.Changes.step (h : p.Changes fs q) (h' : q.Changes gs r) (sub : within gs fs = true) :
    p.Changes fs r :=
  h.trans (h'.widen sub)

/-- A fold of updates that each change the same fields. -/
theorem Part.Changes.fold {α : Type} {op : Part → α → Part} (each : ∀ (q : Part) (a : α), q.Changes fs (op q a))
    (l : List α) (p : Part) : p.Changes fs (l.foldl op p) := by
  induction l generalizing p with
  | nil => exact .refl p fs
  | cons a l ih => exact (each p a).trans (ih _)

/-! ## Records, flags and ports -/

theorem raise_changes {f : Flag} {p : Part} : p.Changes [.attn] (raise f p) := by
  intro f hf; cases f <;> first | rfl | simp at hf

theorem raiseIf_changes {c : Bool} {f : Flag} {p : Part} : p.Changes [.attn] (raiseIf c f p) := by
  cases c
  · exact .refl _ _
  · exact raise_changes

theorem setDisc_changes {p : Part} {r : Fin 24} {d : Option Disc} : p.Changes [.discs] (p.setDisc r d) := by
  intro f hf; cases f <;> first | rfl | simp at hf

theorem modDisc_changes {p : Part} {r : Fin 24} {f : Disc → Disc} : p.Changes [.discs] (p.modDisc r f) :=
  setDisc_changes

theorem modJob_changes {p : Part} {x : Fin 16} {f : Job → Job} : p.Changes [.jobs] (p.modJob x f) := by
  intro f hf; cases f <;> first | rfl | simp at hf

theorem modBay_changes {p : Part} {b : Fin 12} {f : Bay → Bay} : p.Changes [.bays] (p.modBay b f) := by
  intro f hf; cases f <;> first | rfl | simp at hf

theorem setImage_changes {p : Part} {i : Fin 32} {x : Option Image} :
    p.Changes [.images] (p.setImage i x) := by
  intro f hf; cases f <;> first | rfl | simp at hf

theorem modImage_changes {p : Part} {i : Fin 32} {f : Image → Image} :
    p.Changes [.images] (p.modImage i f) := setImage_changes

theorem setChannel_changes {p : Part} {c : Fin 4} {x : Channel} :
    p.Changes [.channels] (p.setChannel c x) := by
  intro f hf; cases f <;> first | rfl | simp at hf

theorem setContext_changes {p : Part} {b : Fin 12} {x : Option Context} :
    p.Changes [.contexts] (p.setContext b x) := by
  intro f hf; cases f <;> first | rfl | simp at hf

theorem setEntry_changes {p : Part} {e : Fin 16} {x : Option MediaEntry} :
    p.Changes [.media] (p.setEntry e x) := by
  intro f hf; cases f <;> first | rfl | simp at hf

theorem setInk_changes {p : Part} {k : Fin 4} {x : InkChannel} : p.Changes [.ink] (p.setInk k x) := by
  intro f hf; cases f <;> first | rfl | simp at hf

theorem setSpindle_changes {p : Part} {s : SpindleId} {x : Spindle} :
    p.Changes [.spindleA, .spindleB] (p.setSpindle s x) := by
  intro f hf; cases s <;> cases f <;> first | rfl | simp at hf

theorem setOccupant_changes {p : Part} {pl : Place} {o : Option (Fin 24)} :
    p.Changes [.places] (p.setOccupant pl o) := by
  intro f hf; cases pl <;> cases f <;> first | rfl | simp at hf

theorem giveOrder_changes {r : Fin 24} {p : Part} : p.Changes [.discs] (giveOrder r p) := modDisc_changes

theorem clearOrder_changes {r : Fin 24} {p : Part} : p.Changes [.discs] (clearOrder r p) := modDisc_changes

theorem setStage_changes {r : Fin 24} {st : Stage} {p : Part} : p.Changes [.discs] (setStage r st p) :=
  modDisc_changes

/-- Freeing a record writes the disc table and the held spell alone (R1, R9). -/
theorem freeRecord_changes {r : Fin 24} {p : Part} : p.Changes [.discs, .heldSpell] (freeRecord r p) := by
  intro f hf; cases f <;> first | rfl | simp at hf

/-- Writing REJECT writes the disc table, and raises a flag (R4). -/
theorem writeReject_changes {r : Fin 24} {why : Reason} {p : Part} :
    p.Changes [.discs, .attn] (writeReject r why p) := by
  unfold writeReject
  split
  · exact .refl _ _
  · split
    · split
      · exact setDisc_changes.widen rfl
      · exact .refl _ _
    · exact (setDisc_changes.andThen raise_changes).widen rfl

theorem writeGood_changes {r : Fin 24} {p : Part} : p.Changes [.discs] (writeGood r p) := modDisc_changes

theorem emit_changes {x : Sent} {p : Part} : p.Changes [.sent] (emit x p) := by
  intro f hf; cases f <;> first | rfl | simp at hf

theorem sendArm_changes {o : ArmOrder} {p : Part} : p.Changes [.arm, .sent] (sendArm o p) := by
  intro f hf; cases f <;> first | rfl | simp at hf

theorem sendDrive_changes {b : Fin 12} {op : DriveOp} {o : DriveOrder} {t : Nat} {p : Part} :
    p.Changes [.bays, .sent] (sendDrive b op o t p) :=
  (modBay_changes.andThen emit_changes).widen rfl

theorem endDriveOp_changes {b : Fin 12} {p : Part} : p.Changes [.bays] (endDriveOp b p) := modBay_changes

theorem sendQuery_changes {p : Part} : p.Changes [.station, .sent] (sendQuery p) := by
  intro f hf; cases f <;> first | rfl | simp at hf

/-! ## Jobs -/

theorem changeHolds_changes {x : Fin 16} {f : Holds → Holds} {p : Part} :
    p.Changes [.jobs] (changeHolds x f p) := modJob_changes

theorem changeImageHolds_changes {i : Fin 32} {f : Holds → Holds} {p : Part} :
    p.Changes [.jobs] (changeImageHolds i f p) := by
  refine .fold (fun q x => ?_) _ _
  split
  · split
    · exact changeHolds_changes
    · exact .refl _ _
  · exact .refl _ _

theorem endJob_changes {x : Fin 16} {st : JobState} {p : Part} : p.Changes [.jobs, .attn] (endJob x st p) :=
  (modJob_changes.andThen raise_changes).widen rfl

theorem closeIdle_changes {x : Fin 16} {p : Part} : p.Changes [.jobs, .attn] (closeIdle x p) := by
  unfold closeIdle
  repeat' split
  all_goals first | exact .refl _ _ | exact endJob_changes

theorem failJob_changes {x : Fin 16} {p : Part} : p.Changes [.jobs, .attn] (failJob x p) :=
  (modJob_changes.andThen closeIdle_changes).widen rfl

theorem jobCreated_changes {x : Fin 16} {p : Part} : p.Changes [.jobs] (jobCreated x p) := modJob_changes

theorem jobWithdrawn_changes {x : Fin 16} {p : Part} : p.Changes [.jobs, .attn] (jobWithdrawn x p) :=
  (modJob_changes.andThen closeIdle_changes).widen rfl

theorem stampPick_changes {x : Fin 16} {p : Part} : p.Changes [.jobs] (stampPick x p) := modJob_changes

/-- A delivery writes the job table, and may end the job (R32, R34). -/
theorem jobDelivered_changes {x : Fin 16} {u : Bool} {p : Part} :
    p.Changes [.jobs, .attn] (jobDelivered x u p) := by
  unfold jobDelivered
  extract_lets q
  refine .step (q := q) (.widen modJob_changes rfl) (gs := [.jobs, .attn]) ?_ rfl
  repeat' split
  all_goals first | exact .refl _ _ | exact endJob_changes | exact closeIdle_changes

/-- A reject writes the job table, and may fail or end the job (R32, R33). -/
theorem jobRejected_changes {x : Fin 16} {c : Bool} {p : Part} :
    p.Changes [.jobs, .attn] (jobRejected x c p) := by
  unfold jobRejected
  extract_lets q
  refine .step (q := q) (.widen modJob_changes rfl) (gs := [.jobs, .attn]) ?_ rfl
  repeat' split
  all_goals first | exact .refl _ _ | exact failJob_changes | exact closeIdle_changes

/-! ## Ink -/

theorem eachInk_changes {f : Fin 4 → InkChannel → InkChannel} {p : Part} : p.Changes [.ink] (eachInk f p) :=
  .fold (fun _ _ => setInk_changes) _ _

theorem raiseInkLow_changes {before p : Part} : p.Changes [.attn] (raiseInkLow before p) := raiseIf_changes

theorem reserve_changes {r : Fin 24} {v : Vector Nat 4} {p : Part} :
    p.Changes [.ink, .discs] (reserve r v p) :=
  (eachInk_changes.andThen modDisc_changes).widen rfl

/-- The end of a reservation writes the ink channels and the disc table alone (R148). -/
theorem unreserve_changes {r : Fin 24} {p : Part} : p.Changes [.ink, .discs] (unreserve r p) := by
  unfold unreserve
  repeat' split
  · exact .refl _ _
  · exact .refl _ _
  · exact (eachInk_changes.andThen modDisc_changes).widen rfl

theorem testInkHold_changes {x : Fin 16} {p : Part} : p.Changes [.jobs] (testInkHold x p) := by
  unfold testInkHold
  split
  · exact .refl _ _
  · exact changeHolds_changes

theorem inkWait_changes {p : Part} {l : List (Fin 24)} : p.Changes [.inkWait] { p with inkWait := l } := by
  intro f hf; cases f <;> first | rfl | simp at hf

theorem leaveInkWait_changes {r : Fin 24} {p : Part} :
    p.Changes [.inkWait, .jobs] (leaveInkWait r p) := by
  unfold leaveInkWait
  split
  · extract_lets q
    refine .step (q := q) (.widen inkWait_changes rfl) (gs := [.jobs]) ?_ rfl
    split
    · exact testInkHold_changes
    · exact .refl _ _
  · exact .refl _ _

theorem printQueue_changes {p : Part} {l : List (Fin 24)} :
    p.Changes [.printQueue] { p with printQueue := l } := by
  intro f hf; cases f <;> first | rfl | simp at hf

theorem leavePrintQueue_changes {r : Fin 24} {p : Part} : p.Changes [.printQueue] (leavePrintQueue r p) :=
  printQueue_changes

/-- What a reservation attempt may change (R151). -/
theorem attemptReservation_changes {r : Fin 24} {p : Part} :
    p.Changes [.inkWait, .jobs, .printQueue, .ink, .discs] (attemptReservation r p) := by
  unfold attemptReservation
  repeat' split
  · exact .refl _ _
  · exact ((((@reserve_changes r _ p).andThen leaveInkWait_changes).andThen
      printQueue_changes).andThen setStage_changes).widen rfl
  · exact .refl _ _

/-- What a retry pass may change (R152). -/
theorem retryPass_changes {p : Part} :
    p.Changes [.inkWait, .jobs, .printQueue, .ink, .discs] (retryPass p) :=
  .fold (fun _ _ => attemptReservation_changes) _ _

/-- What a release and its retry pass may change (R148, R152). -/
theorem release_changes {r : Fin 24} {p : Part} :
    p.Changes [.inkWait, .jobs, .printQueue, .ink, .discs] (release r p) := by
  unfold release
  split
  · exact (unreserve_changes.andThen retryPass_changes).widen rfl
  · exact .refl _ _

/-- What a record's leaving the label unit may change (R148, R151, R153). -/
theorem leaveLabelUnit_changes {r : Fin 24} {p : Part} :
    p.Changes [.inkWait, .jobs, .printQueue, .ink, .discs] (leaveLabelUnit r p) :=
  (((@leaveInkWait_changes r p).andThen leavePrintQueue_changes).andThen release_changes).widen rfl

/-- What entering the label unit may change (R151). -/
theorem enterLabelUnit_changes {r : Fin 24} {p : Part} :
    p.Changes [.inkWait, .jobs, .printQueue, .ink, .discs, .attn] (enterLabelUnit r p) := by
  unfold enterLabelUnit
  extract_lets q₁ q
  refine .step (q := q) (gs := [.inkWait, .jobs, .discs, .attn])
    (.step (.step (.widen inkWait_changes rfl) setStage_changes rfl) attemptReservation_changes rfl) ?_ rfl
  repeat' split
  · exact (leaveInkWait_changes.andThen modDisc_changes).widen rfl
  · exact (changeHolds_changes.andThen raise_changes).widen rfl
  · exact .refl _ _
  · exact .refl _ _

theorem shortSet_changes {p : Part} {l : List (Fin 16)} : p.Changes [.shortSet] { p with shortSet := l } := by
  intro f hf; cases f <;> first | rfl | simp at hf

theorem forecastJob_changes {x : Fin 16} {p : Part} : p.Changes [.shortSet, .attn] (forecastJob x p) := by
  unfold forecastJob
  dsimp only
  repeat' split
  all_goals first
    | exact .refl _ _
    | exact shortSet_changes.widen rfl
    | exact .step (q := { p with shortSet := _ }) (.widen shortSet_changes rfl) raise_changes rfl

/-- The forecasts write the short set, and raise a flag (R160). -/
theorem forecastAll_changes {p : Part} : p.Changes [.shortSet, .attn] (forecastAll p) :=
  .fold (fun _ _ => forecastJob_changes) _ _

/-- A recording outcome writes the media table alone (R92). -/
theorem handOutcome_changes {r : Fin 24} {o : RecOutcome} {p : Part} :
    p.Changes [.media] (handOutcome r o p) := by
  unfold handOutcome
  split
  · exact .refl _ _
  · exact setEntry_changes

/-! ## The ends of a record -/

theorem autoRetire_changes {r : Fin 24} {p : Part} : p.Changes [.discs, .heldSpell] (autoRetire r p) := by
  unfold autoRetire
  split
  · exact freeRecord_changes
  · exact .refl _ _

/-- What the end of a rejected record may change (R5, R14, R15). -/
theorem finaliseReject_changes {r : Fin 24} {p : Part} :
    p.Changes [.inkWait, .jobs, .printQueue, .ink, .discs, .attn, .heldSpell] (finaliseReject r p) := by
  unfold finaliseReject
  split
  · exact .refl _ _
  · refine .step ?_ autoRetire_changes rfl
    split
    · exact ((leaveLabelUnit_changes.andThen modDisc_changes).andThen jobRejected_changes).widen rfl
    · exact (leaveLabelUnit_changes.andThen modDisc_changes).widen rfl

/-- What the end of a delivered record may change (R14, R15). -/
theorem finaliseDelivered_changes {r : Fin 24} {p : Part} :
    p.Changes [.jobs, .discs, .attn, .heldSpell] (finaliseDelivered r p) := by
  unfold finaliseDelivered
  split
  · exact .refl _ _
  · refine .step ?_ autoRetire_changes rfl
    split
    · exact (modDisc_changes.andThen jobDelivered_changes).widen rfl
    · exact modDisc_changes.widen rfl

theorem finaliseDropped_changes {r : Fin 24} {p : Part} :
    p.Changes [.inkWait, .jobs, .printQueue, .ink, .discs, .attn, .heldSpell] (finaliseDropped r p) := by
  unfold finaliseDropped
  split
  · exact finaliseReject_changes
  · exact finaliseDelivered_changes.widen rfl

theorem finaliseLost_changes {r : Fin 24} {p : Part} :
    p.Changes [.inkWait, .jobs, .printQueue, .ink, .discs, .attn, .heldSpell] (finaliseLost r p) :=
  (writeReject_changes.andThen finaliseReject_changes).widen rfl

/-- A found disc's record writes the disc table and the place, and raises a flag (R11). -/
theorem createFound_changes {pl : Place} {p : Part} :
    p.Changes [.discs, .places, .attn] (createFound pl p).1 := by
  unfold createFound
  split
  · exact raise_changes.widen rfl
  · exact ((setDisc_changes.andThen setOccupant_changes).andThen raise_changes).widen rfl

/-- What the EXTRA record may change (R12, R15). -/
theorem createExtra_changes {p : Part} : p.Changes [.discs, .attn, .heldSpell] (createExtra p) := by
  unfold createExtra
  split
  · exact raise_changes.widen rfl
  · exact ((setDisc_changes.andThen raise_changes).andThen autoRetire_changes).widen rfl

/-! ## Bays -/

theorem enterBay_changes {b : Fin 12} {st : BayState} {p : Part} : p.Changes [.bays] (enterBay b st p) :=
  modBay_changes

theorem faultBay_changes {b : Fin 12} {c : BayFault} {p : Part} : p.Changes [.bays, .attn] (faultBay b c p) :=
  (modBay_changes.andThen raise_changes).widen rfl

theorem tower_changes {p : Part} {t : Tower} : p.Changes [.tower] { p with tower := t } := by
  intro f hf; cases f <;> first | rfl | simp at hf

theorem paySweepReset_changes {b : Fin 12} {p : Part} : p.Changes [.tower] (paySweepReset b p) := by
  unfold paySweepReset
  split
  · exact .refl _ _
  · exact tower_changes

/-- A RESET of a bay writes its record and the sweep, and sends operations (R65, R168). -/
theorem resetBay_changes {b : Fin 12} {p : Part} : p.Changes [.bays, .sent, .tower] (resetBay b p) := by
  unfold resetBay
  refine .step (.step (.step ?_ sendDrive_changes rfl) modBay_changes rfl) paySweepReset_changes rfl
  split
  · exact (endDriveOp_changes.andThen emit_changes).widen rfl
  · exact .refl _ _

theorem ejectBay_changes {b : Fin 12} {p : Part} : p.Changes [.bays, .sent] (ejectBay b p) :=
  (sendDrive_changes.andThen enterBay_changes).widen rfl

theorem loadBay_changes {b : Fin 12} {p : Part} : p.Changes [.bays, .sent] (loadBay b p) :=
  (sendDrive_changes.andThen enterBay_changes).widen rfl

theorem emptyBay_changes {b : Fin 12} {p : Part} : p.Changes [.bays, .attn] (emptyBay b p) := by
  unfold emptyBay
  repeat' split
  · exact faultBay_changes
  · exact enterBay_changes.widen rfl
  · exact enterBay_changes.widen rfl

theorem releaseBay_changes {b : Fin 12} {p : Part} : p.Changes [.bays] (releaseBay b p) := by
  unfold releaseBay
  repeat' split
  all_goals first | exact .refl _ _ | exact enterBay_changes

theorem bayVacated_changes {b : Fin 12} {p : Part} : p.Changes [.bays, .attn, .sent] (bayVacated b p) := by
  unfold bayVacated
  split
  · exact emptyBay_changes.widen rfl
  · exact ejectBay_changes.widen rfl
  · exact .refl _ _

theorem orderIfDue_changes {r : Fin 24} {p : Part} : p.Changes [.discs] (orderIfDue r p) := by
  unfold orderIfDue
  split
  · exact giveOrder_changes
  · exact .refl _ _

theorem presentBay_changes {b : Fin 12} {p : Part} : p.Changes [.bays, .discs] (presentBay b p) := by
  unfold presentBay
  refine .step (.widen (@enterBay_changes b .presenting p) rfl) (gs := [.discs]) ?_ rfl
  dsimp only
  split
  · exact orderIfDue_changes
  · exact .refl _ _

theorem trayRule_changes {b : Fin 12} {p : Part} : p.Changes [.bays, .discs, .sent] (trayRule b p) := by
  unfold trayRule
  repeat' split
  all_goals first | exact .refl _ _ | exact ejectBay_changes.widen rfl | exact orderIfDue_changes.widen rfl

/-- The tray rule writes bays and orders, and sends EJECT (R73). -/
theorem trayRules_changes {p : Part} : p.Changes [.bays, .discs, .sent] (trayRules p) :=
  .fold (fun _ _ => trayRule_changes) _ _

theorem countFailure_changes {b : Fin 12} {p : Part} : p.Changes [.bays] (countFailure b p) :=
  modBay_changes

theorem countGood_changes {b : Fin 12} {p : Part} : p.Changes [.bays] (countGood b p) := modBay_changes

theorem clearBayMark_changes {b : Fin 12} {p : Part} : p.Changes [.tower] (clearBayMark b p) := by
  unfold clearBayMark
  split
  · exact .refl _ _
  · exact tower_changes

theorem endReset_changes {b : Fin 12} {p : Part} : p.Changes [.bays, .tower] (endReset b p) :=
  ((endDriveOp_changes.andThen modBay_changes).andThen clearBayMark_changes).widen rfl

/-- What a finding in a bay may change (R80). -/
theorem bayFinding_changes {b : Fin 12} {tray : Tray} {p : Part} :
    p.Changes [.discs, .places, .attn, .bays, .sent] (bayFinding b tray p) := by
  unfold bayFinding
  refine .step (.widen (@createFound_changes (.bay b) p) rfl) (gs := [.bays, .attn, .sent]) ?_ rfl
  dsimp only
  repeat' split
  · exact enterBay_changes.widen rfl
  · exact loadBay_changes.widen rfl
  · exact faultBay_changes.widen rfl

/-! ## Streams -/

theorem splitReqs_changes {p : Part} {l : List (Fin 4)} : p.Changes [.splitReqs] { p with splitReqs := l } := by
  intro f hf; cases f <;> first | rfl | simp at hf

theorem streamReqs_changes {p : Part} {l : List StreamReq} :
    p.Changes [.streamReqs] { p with streamReqs := l } := by
  intro f hf; cases f <;> first | rfl | simp at hf

theorem surveyQueue_changes {p : Part} {l : List (Fin 32)} :
    p.Changes [.surveyQueue] { p with surveyQueue := l } := by
  intro f hf; cases f <;> first | rfl | simp at hf

theorem readChunk_changes {c : Fin 4} {i : Image} {k n : Nat} {p : Part} :
    p.Changes [.readCount, .sent] (readChunk c i k n p).1 := by
  intro f hf; cases f <;> first | rfl | simp at hf

theorem freeChannel_changes {c : Fin 4} {p : Part} : p.Changes [.splitReqs, .channels] (freeChannel c p) :=
  (splitReqs_changes.andThen setChannel_changes).widen rfl

theorem closeIfEmpty_changes {c : Fin 4} {p : Part} : p.Changes [.splitReqs, .channels] (closeIfEmpty c p) := by
  unfold closeIfEmpty
  repeat' split
  all_goals first | exact .refl _ _ | exact freeChannel_changes

/-- A bay's leaving its stream writes the bay, its disc's record and the channels (R124). -/
theorem leaveStream_changes {b : Fin 12} {p : Part} :
    p.Changes [.bays, .discs, .splitReqs, .channels] (leaveStream b p) := by
  have occupied : ∀ q : Part, q.Changes [.discs] (match q.occupant (.bay b) with
      | some r => q.modDisc r fun d => { d with channel := none }
      | none => q) := fun q => by
    split
    · exact modDisc_changes
    · exact .refl _ _
  unfold leaveStream
  split
  · exact .refl _ _
  · extract_lets q₁ q
    refine .step (q := q) (.step (.widen modBay_changes rfl) (occupied q₁) rfl)
      (gs := [.splitReqs, .channels]) ?_ rfl
    split
    · exact .refl _ _
    · exact (setChannel_changes.andThen closeIfEmpty_changes).widen rfl

/-- A bay's joining a stream writes the bay and its disc's record, and sends WRITE (R116). -/
theorem bayJoined_changes {b : Fin 12} {c : Fin 4} {n : Nat} {p : Part} :
    p.Changes [.bays, .discs, .sent] (bayJoined b c n p) := by
  unfold bayJoined
  split
  · exact .refl _ _
  · exact (((modDisc_changes.andThen sendDrive_changes).andThen enterBay_changes).andThen
      modBay_changes).widen rfl

/-- What a bay's entry into ATTACHING does to the streams (R122). -/
theorem attach_changes {b : Fin 12} {i : Fin 32} {p : Part} :
    p.Changes [.channels, .bays, .discs, .sent, .streamReqs] (attach b i p) := by
  unfold attach
  dsimp only
  split
  · split
    · exact (setChannel_changes.andThen bayJoined_changes).widen rfl
    · exact .refl _ _
  · exact streamReqs_changes.widen rfl

theorem withdrawRequest_changes {b : Fin 12} {p : Part} : p.Changes [.streamReqs] (withdrawRequest b p) :=
  streamReqs_changes

theorem sendChunks_changes {c : Fin 4} {p : Part} :
    p.Changes [.bays, .sent, .channels] (sendChunks c p) := by
  unfold sendChunks
  split
  · exact .refl _ _
  · exact ((Part.Changes.fold (fun _ _ => modBay_changes.andThen emit_changes) _ _).andThen
      setChannel_changes).widen rfl

theorem moveTail_changes {c : Fin 4} {p : Part} : p.Changes [.channels] (moveTail c p) := by
  unfold moveTail
  split
  · exact .refl _ _
  · exact setChannel_changes

theorem fetchNext_changes {c : Fin 4} {p : Part} :
    p.Changes [.readCount, .sent, .channels] (fetchNext c p) := by
  unfold fetchNext
  repeat' split
  all_goals first
    | exact .refl _ _
    | exact (readChunk_changes.andThen setChannel_changes).widen rfl

theorem testSplit_changes {c : Fin 4} {p : Part} : p.Changes [.splitReqs, .channels] (testSplit c p) := by
  unfold testSplit
  split
  · exact .refl _ _
  · dsimp only
    generalize (_ && _ : Bool) = wanted
    repeat' split
    all_goals first
      | exact .refl _ _
      | exact (splitReqs_changes.andThen setChannel_changes).widen rfl

/-- What one pass over a stream may change (R117 to R123). -/
theorem pumpStream_changes {c : Fin 4} {p : Part} :
    p.Changes [.bays, .sent, .channels, .readCount, .splitReqs] (pumpStream c p) :=
  (((sendChunks_changes.andThen moveTail_changes).andThen fetchNext_changes).andThen
    testSplit_changes).widen rfl

theorem pumpStreams_changes {p : Part} :
    p.Changes [.bays, .sent, .channels, .readCount, .splitReqs] (pumpStreams p) :=
  .fold (fun _ _ => pumpStream_changes) _ _

/-- What opening a stream may change (R116, R126). -/
theorem grantStream_changes {x : StreamReq} {c : Fin 4} {p : Part} :
    p.Changes [.streamReqs, .channels, .bays, .discs, .sent] (grantStream x c p) := by
  unfold grantStream
  split
  · exact .refl _ _
  · exact ((streamReqs_changes.andThen setChannel_changes).andThen
      (.fold (fun _ _ => bayJoined_changes) _ _)).widen rfl

/-- What a split may change (R126). -/
theorem grantSplit_changes {old c : Fin 4} {p : Part} :
    p.Changes [.splitReqs, .channels, .bays, .discs] (grantSplit old c p) := by
  unfold grantSplit
  extract_lets q
  refine .step (q := q) (.widen splitReqs_changes rfl) (gs := [.splitReqs, .channels, .bays, .discs]) ?_ rfl
  split
  · exact .refl _ _
  · split
    · exact .refl _ _
    · extract_lets q₁ q₂ q₃ q₄
      have moved : q₃.Changes [.discs] q₄ := by
        unfold q₄
        split
        · exact modDisc_changes
        · exact .refl _ _
      have opened : q.Changes [.channels, .bays] q₃ :=
        .step (q := q₂) (.step (q := q₁) (.widen setChannel_changes rfl) setChannel_changes rfl)
          modBay_changes rfl
      exact ((opened.andThen moved).andThen closeIfEmpty_changes).widen rfl

/-- What a survey's grant may change (R105, R106). -/
theorem grantSurvey_changes {i : Fin 32} {c : Fin 4} {p : Part} :
    p.Changes [.surveyQueue, .images, .readCount, .sent, .channels] (grantSurvey i c p) := by
  unfold grantSurvey
  extract_lets q
  refine .step (q := q) (.widen surveyQueue_changes rfl) (gs := [.images, .readCount, .sent, .channels]) ?_ rfl
  split
  · exact .refl _ _
  · exact ((setImage_changes.andThen readChunk_changes).andThen setChannel_changes).widen rfl

/-- What the grant of a channel may change (R126). -/
theorem grantChannel_changes (h : grantChannel p = some q) :
    p.Changes [.splitReqs, .streamReqs, .surveyQueue, .images, .readCount, .channels, .bays, .discs, .sent]
      q := by
  unfold grantChannel at h
  split at h
  · cases h; exact grantSplit_changes.widen rfl
  · cases h; exact grantStream_changes.widen rfl
  · split at h
    · cases h; exact grantSurvey_changes.widen rfl
    · cases h

theorem grantRound_changes {p : Part} :
    p.Changes [.splitReqs, .streamReqs, .surveyQueue, .images, .readCount, .channels, .bays, .discs, .sent]
      (grantRound p) := by
  unfold grantRound
  split
  · next h => exact ((pumpStreams_changes (p := p)).andThen (grantChannel_changes h)).widen rfl
  · exact pumpStreams_changes.widen rfl

/-- What the stream engine may change after an event (R117 to R127). -/
theorem settleStreams_changes {p : Part} :
    p.Changes [.splitReqs, .streamReqs, .surveyQueue, .images, .readCount, .channels, .bays, .discs, .sent]
      (settleStreams p) :=
  ((Part.Changes.fold (fun _ _ => grantRound_changes) _ _).andThen pumpStreams_changes).widen rfl

theorem surveyFails_changes {c : Fin 4} {s : Survey} {p : Part} :
    p.Changes [.images, .splitReqs, .channels, .attn] (surveyFails c s p) :=
  ((modImage_changes.andThen freeChannel_changes).andThen raise_changes).widen rfl

theorem faultImage_changes {i : Fin 32} {k : Nat} {p : Part} : p.Changes [.images, .attn] (faultImage i k p) := by
  unfold faultImage
  split
  · exact (modImage_changes.andThen raise_changes).widen rfl
  · exact .refl _ _

/-- What the last acknowledgement of a member may change (R119). -/
theorem memberFinished_changes {b : Fin 12} {r : Fin 24} {p : Part} :
    p.Changes [.bays, .discs, .splitReqs, .channels, .sent] (memberFinished b r p) :=
  ((((endDriveOp_changes.andThen leaveStream_changes).andThen sendDrive_changes).andThen
    enterBay_changes).andThen setStage_changes).widen rfl

/-! ## The printer station -/

theorem station_changes {p : Part} {x : Station} : p.Changes [.station] { p with station := x } := by
  intro f hf; cases f <;> first | rfl | simp at hf

/-- A temperature writes the station, and raises a flag (R146). -/
theorem takeTemperature_changes {t : Nat} {p : Part} : p.Changes [.station, .attn] (takeTemperature t p) :=
  (station_changes.andThen raiseIf_changes).widen rfl

theorem enterStation_changes {st : StationState} {p : Part} : p.Changes [.station] (enterStation st p) :=
  station_changes

theorem faultStation_changes {c : StationFault} {p : Part} : p.Changes [.station] (faultStation c p) :=
  station_changes

theorem finishStation_changes {p : Part} : p.Changes [.station, .discs] (finishStation p) := by
  unfold finishStation
  refine .step (.widen (@enterStation_changes .finished p) rfl) (gs := [.discs]) ?_ rfl
  dsimp only
  repeat' split
  all_goals first | exact .refl _ _ | exact giveOrder_changes

theorem trayVacated_changes {p : Part} : p.Changes [.station] (trayVacated p) := by
  unfold trayVacated
  split
  · exact enterStation_changes
  · exact .refl _ _

theorem placeOnTray_changes {r : Fin 24} {p : Part} : p.Changes [.station, .discs] (placeOnTray r p) := by
  unfold placeOnTray
  dsimp only
  repeat' split
  · exact setStage_changes.widen rfl
  · exact (setStage_changes.andThen finishStation_changes).widen rfl
  · exact setStage_changes.widen rfl
  · exact (setStage_changes.andThen enterStation_changes).widen rfl

/-- A label order writes the record's serial, the job's serials and the station, and sends LABEL (R155). -/
theorem orderLabel_changes {r : Fin 24} {x : Fin 16} {j : Job} {t : Template} {p : Part} :
    p.Changes [.discs, .jobs, .sent, .station] (orderLabel r x j t p) :=
  ((((modDisc_changes.andThen modJob_changes).andThen emit_changes).andThen
    enterStation_changes).andThen station_changes).widen rfl

theorem labelOrder_changes {p : Part} : p.Changes [.discs, .jobs, .sent, .station] (labelOrder p) := by
  unfold labelOrder
  repeat' split
  all_goals first | exact .refl _ _ | exact orderLabel_changes

theorem settleInk_changes {r : Fin 24} {v : Vector Nat 4} {p : Part} :
    p.Changes [.inkWait, .jobs, .printQueue, .ink, .discs, .attn] (settleInk r v p) :=
  (((unreserve_changes.andThen eachInk_changes).andThen raiseInkLow_changes).andThen
    retryPass_changes).widen rfl

theorem labelledDisc_changes {r : Fin 24} {failed : Bool} {p : Part} :
    p.Changes [.discs, .attn] (labelledDisc r failed p) := by
  unfold labelledDisc
  repeat' split
  · exact setStage_changes.widen rfl
  · exact (writeReject_changes.andThen setStage_changes).widen rfl
  · exact (writeGood_changes.andThen setStage_changes).widen rfl

theorem payQuery_changes {p : Part} : p.Changes [.tower, .station, .sent] (payQuery p) := by
  unfold payQuery
  repeat' split
  all_goals first | exact .refl _ _ | exact (tower_changes.andThen sendQuery_changes).widen rfl

/-- What the end of a label may change (R156, R157). -/
theorem endLabel_changes {v : Vector Nat 4} {failed : Bool} {fault : Option StationFault} {p : Part} :
    p.Changes [.inkWait, .jobs, .printQueue, .station, .ink, .discs, .attn, .tower, .sent]
      (endLabel v failed fault p) := by
  have ended : ∀ q : Part, q.Changes [.inkWait, .jobs, .printQueue, .ink, .discs, .attn] (match q.occupant .printer with
      | some r => labelledDisc r failed (settleInk r v q)
      | none => q) := fun q => by
    split
    · exact (settleInk_changes.andThen labelledDisc_changes).widen rfl
    · exact .refl _ _
  have done : ∀ q : Part, q.Changes [.station, .discs] (match fault with
      | none => finishStation q
      | some c => match (faultStation c q).occupant .printer with
        | some r => giveOrder r (faultStation c q)
        | none => faultStation c q) := fun q => by
    split
    · exact finishStation_changes
    · split
      · exact (faultStation_changes.andThen giveOrder_changes).widen rfl
      · exact faultStation_changes.widen rfl
  exact (((station_changes.andThen (ended _)).andThen (done _)).andThen payQuery_changes).widen rfl

theorem trayFinding_changes {p : Part} :
    p.Changes [.discs, .places, .attn, .station] (trayFinding p) := by
  unfold trayFinding
  refine .step (.widen (@createFound_changes .printer p) rfl) (gs := [.station, .discs]) ?_ rfl
  dsimp only
  split
  · exact finishStation_changes
  · exact faultStation_changes.widen rfl

/-! ## A REJECT reaching a disc, and the failures -/

/-- What a REJECT does to the occupant's bay (R77). -/
theorem bayReject_changes {b : Fin 12} {p : Part} :
    p.Changes [.bays, .discs, .sent, .tower, .splitReqs, .streamReqs, .channels, .contexts]
      (bayReject b p) := by
  unfold bayReject
  split
  · exact resetBay_changes.widen rfl
  · exact resetBay_changes.widen rfl
  · exact resetBay_changes.widen rfl
  · exact (leaveStream_changes.andThen resetBay_changes).widen rfl
  · exact (setContext_changes.andThen resetBay_changes).widen rfl
  · exact (withdrawRequest_changes.andThen enterBay_changes).widen rfl
  · exact .refl _ _

theorem rejectUnprinted_changes {r : Fin 24} {p : Part} :
    p.Changes [.inkWait, .jobs, .printQueue, .ink, .discs, .station] (rejectUnprinted r p) := by
  unfold rejectUnprinted
  extract_lets q
  refine .step (q := q) (.step (.widen release_changes rfl) setStage_changes rfl)
    (gs := [.station, .discs]) ?_ rfl
  split
  · exact finishStation_changes
  · exact giveOrder_changes.widen rfl
  · exact .refl _ _

/-- What the propagation of a first REJECT may change (R13). -/
theorem propagateReject_changes {r : Fin 24} {p : Part} :
    p.Changes [.inkWait, .jobs, .printQueue, .ink, .discs, .station, .bays, .sent, .tower, .splitReqs,
      .streamReqs, .channels, .contexts] (propagateReject r p) := by
  unfold propagateReject
  split
  · exact .refl _ _
  · split
    · exact .refl _ _
    · exact .refl _ _
    · exact .refl _ _
    · split
      · exact .refl _ _
      · exact rejectUnprinted_changes.widen rfl
    · extract_lets q
      have bound : p.Changes [.inkWait, .jobs, .printQueue, .ink, .discs] q :=
        .step leaveLabelUnit_changes setStage_changes rfl
      clear_value q
      split
      · exact (bound.andThen bayReject_changes).widen rfl
      · split
        · exact (bound.andThen giveOrder_changes).widen rfl
        · exact bound.widen rfl
      · exact bound.widen rfl

/-- What a REJECT may change (R4, R13). -/
theorem rejectDisc_changes {r : Fin 24} {why : Reason} {p : Part} :
    p.Changes [.inkWait, .jobs, .printQueue, .ink, .discs, .attn, .station, .bays, .sent, .tower, .splitReqs,
      .streamReqs, .channels, .contexts] (rejectDisc r why p) := by
  unfold rejectDisc
  split
  · exact writeReject_changes.widen rfl
  · exact (writeReject_changes.andThen propagateReject_changes).widen rfl

/-- What a failure of a bay may change (R76). -/
theorem bayFailure_changes {b : Fin 12} {why : Reason} {p : Part} :
    p.Changes [.inkWait, .jobs, .printQueue, .ink, .discs, .attn, .station, .bays, .sent, .tower, .splitReqs,
      .streamReqs, .channels, .contexts, .media] (bayFailure b why p) := by
  unfold bayFailure
  split
  · exact resetBay_changes.widen rfl
  · extract_lets pending q₁ q₂ q₃
    have rejected : q₁.Changes [.contexts, .bays, .discs, .splitReqs, .channels] q₂ :=
      .step (.widen setContext_changes rfl) leaveStream_changes rfl
    have handed : q₂.Changes [.media] q₃ := by
      unfold q₃
      split
      · exact handOutcome_changes
      · exact .refl _ _
    exact .step (.step (.step (.step (.widen resetBay_changes rfl) rejectDisc_changes rfl) rejected rfl)
      handed rfl) countFailure_changes rfl

/-- What a failed recovery may change (R78). -/
theorem failedRecovery_changes {b : Fin 12} {p : Part} :
    p.Changes [.inkWait, .jobs, .printQueue, .ink, .discs, .attn, .station, .bays, .sent, .tower, .splitReqs,
      .streamReqs, .channels, .contexts] (failedRecovery b p) := by
  unfold failedRecovery
  extract_lets q
  have faulted : p.Changes [.bays, .tower, .attn] q := .step (.widen endReset_changes rfl) faultBay_changes rfl
  clear_value q
  split
  · exact ((faulted.andThen rejectDisc_changes).andThen clearOrder_changes).widen rfl
  · exact faulted.widen rfl

/-! ## The handler unit -/

theorem arm_changes {p : Part} {x : Arm} : p.Changes [.arm] { p with arm := x } := by
  intro f hf; cases f <;> first | rfl | simp at hf

theorem offered_changes {p : Part} {x : Option Pick} : p.Changes [.offered] { p with offered := x } := by
  intro f hf; cases f <;> first | rfl | simp at hf

theorem changeSpindle_changes {s : SpindleId} {x : Spindle} {p : Part} :
    p.Changes [.spindleA, .spindleB, .attn] (changeSpindle s x p) :=
  (setSpindle_changes.andThen raiseIf_changes).widen rfl

theorem useBlank_changes {s : SpindleId} {p : Part} :
    p.Changes [.spindleA, .spindleB, .attn] (useBlank s p) := changeSpindle_changes

theorem emptySpindle_changes {s : SpindleId} {p : Part} :
    p.Changes [.spindleA, .spindleB, .attn] (emptySpindle s p) := changeSpindle_changes

theorem wasteBlank_changes {s : SpindleId} {p : Part} :
    p.Changes [.spindleA, .spindleB, .attn] (wasteBlank s p) :=
  (useBlank_changes.andThen setSpindle_changes).widen rfl

theorem addOutput_changes {n : Nat} {p : Part} : p.Changes [.output, .attn] (addOutput n p) := by
  rw [addOutput_eq]
  intro f hf; cases f <;> first | rfl | simp at hf

theorem addBin_changes {n : Nat} {p : Part} : p.Changes [.bin, .attn] (addBin n p) := by
  rw [addBin_eq]
  intro f hf; cases f <;> first | rfl | simp at hf

theorem modMove_changes {f : Move → Move} {p : Part} : p.Changes [.arm] (modMove f p) := arm_changes

theorem enterArm_changes {st : ArmState} {p : Part} : p.Changes [.arm] (enterArm st p) := arm_changes

theorem endArmOp_changes {p : Part} : p.Changes [.arm] (endArmOp p) := arm_changes

theorem endMove_changes {p : Part} : p.Changes [.arm] (endMove p) := arm_changes

theorem releaseDest_changes {m : Move} {p : Part} :
    p.Changes [.inkWait, .jobs, .printQueue, .ink, .discs, .bays] (releaseDest m p) := by
  unfold releaseDest
  split
  · exact (release_changes.andThen releaseBay_changes).widen rfl
  · exact release_changes.widen rfl

/-- What the withdrawal of a pick may change (R10, R55). -/
theorem withdrawPick_changes {m : Move} {p : Part} :
    p.Changes [.ink, .discs, .bays, .places, .inkWait, .jobs, .printQueue, .heldSpell, .attn, .arm]
      (withdrawPick m p) := by
  unfold withdrawPick
  dsimp only
  refine .step ?_ endMove_changes rfl
  split
  · exact (((((@releaseDest_changes m p).andThen setOccupant_changes).andThen
      leaveLabelUnit_changes).andThen freeRecord_changes).andThen jobWithdrawn_changes).widen rfl
  · exact ((((@releaseDest_changes m p).andThen setOccupant_changes).andThen
      leaveLabelUnit_changes).andThen freeRecord_changes).widen rfl

/-- What the loss of the disc on the arm may change (R51, R60). -/
theorem dropLost_changes {m : Move} {p : Part} :
    p.Changes [.ink, .discs, .bays, .places, .inkWait, .jobs, .printQueue, .heldSpell, .attn, .arm]
      (dropLost m p) :=
  ((((@releaseDest_changes m p).andThen setOccupant_changes).andThen finaliseLost_changes).andThen
    endMove_changes).widen rfl

theorem placeVacated_changes {pl : Place} {p : Part} :
    p.Changes [.bays, .attn, .sent, .station] (placeVacated pl p) := by
  unfold placeVacated
  split
  · exact bayVacated_changes.widen rfl
  · exact trayVacated_changes.widen rfl
  · exact .refl _ _

/-- What the grip of a move's disc may change (R49). -/
theorem grip_changes {m : Move} {p : Part} :
    p.Changes [.spindleA, .spindleB, .places, .discs, .printQueue, .bays, .attn, .sent, .station, .arm]
      (grip m p) := by
  unfold grip
  refine .step ?_ modMove_changes rfl
  split
  · exact useBlank_changes.widen rfl
  · exact ((((setOccupant_changes.andThen setOccupant_changes).andThen modDisc_changes).andThen
      leavePrintQueue_changes).andThen placeVacated_changes).widen rfl

theorem deliverPair_changes {p : Part} : p.Changes [.arm, .sent] (deliverPair p) := by
  unfold deliverPair
  dsimp only
  split
  · exact (enterArm_changes.andThen modMove_changes).widen rfl
  · exact ((enterArm_changes.andThen modMove_changes).andThen sendArm_changes).widen rfl

theorem selectPick_changes {p : Part} : p.Changes [.offered, .heldSpell, .attn] (selectPick p) := by
  unfold selectPick beginSpell
  repeat' split
  all_goals first
    | exact .refl _ _
    | exact offered_changes.widen rfl
    | (intro f hf; cases f <;> first | rfl | simp at hf)

theorem checkOffer_changes {p : Part} : p.Changes [.offered] (checkOffer p) := by
  unfold checkOffer
  repeat' split
  all_goals first | exact .refl _ _ | exact offered_changes

theorem beginSpell_changes {p : Part} : p.Changes [.heldSpell, .attn] (beginSpell p) := by
  unfold beginSpell
  split
  · exact .refl _ _
  · intro f hf; cases f <;> first | rfl | simp at hf

/-- A granted move writes the arm, the offered pick and the moved record's order (R49, R53). -/
theorem grantMove_changes {r : Fin 24} {d : Dest} {p : Part} :
    p.Changes [.offered, .arm, .discs, .sent] (grantMove r d p) := by
  unfold grantMove
  split
  · exact .refl _ _
  · extract_lets fromArm m _ q₁ q₂
    have begun : p.Changes [.offered, .arm] q₁ := by
      intro f hf; cases f <;> first | rfl | simp at hf
    have cleared : q₁.Changes [.arm, .discs] q₂ := by
      refine .step ?_ enterArm_changes rfl
      split
      · exact clearOrder_changes.widen rfl
      · exact .refl _ _
    exact ((begun.andThen cleared).andThen sendArm_changes).widen rfl

/-- What the issue of a pick may change (R8, R49, R163). -/
theorem issuePick_changes {k : Pick} {r : Fin 24} {t : Option Template} {p : Part} :
    p.Changes [.discs, .places, .jobs, .bays, .ink, .arm, .sent] (issuePick k r t p) := by
  unfold issuePick
  extract_lets _ q₁ q₂ q₃ m
  have counted : q₁.Changes [.places, .jobs] q₂ :=
    .step (.step (.widen setOccupant_changes rfl) jobCreated_changes rfl) stampPick_changes rfl
  have reserved : q₂.Changes [.bays, .ink, .discs] q₃ := by
    unfold q₃
    split
    · exact enterBay_changes.widen rfl
    · exact reserve_changes.widen rfl
    · exact .refl _ _
  exact .step (.step (.step (.step (.step (.widen setDisc_changes rfl) counted rfl) reserved rfl) arm_changes
    rfl) enterArm_changes rfl) sendArm_changes rfl

/-- What the grant of the offered pick may change (R37). -/
theorem grantPick_changes {k : Pick} {p : Part} :
    p.Changes [.offered, .heldSpell, .attn, .discs, .places, .jobs, .bays, .ink, .arm, .sent]
      (grantPick k p) := by
  unfold grantPick
  extract_lets q t admitted
  have dropped : p.Changes [.offered] q := offered_changes
  clear_value admitted t q
  repeat' split
  · exact (dropped.andThen issuePick_changes).widen rfl
  · exact (dropped.andThen beginSpell_changes).widen rfl
  · exact (dropped.andThen beginSpell_changes).widen rfl
  · exact dropped.widen rfl

/-- What the move arbiter may change (R53). -/
theorem grantArm_changes {p : Part} :
    p.Changes [.offered, .heldSpell, .attn, .discs, .places, .jobs, .bays, .ink, .arm, .sent]
      (grantArm p) := by
  unfold grantArm
  repeat' split
  all_goals first
    | exact .refl _ _
    | exact grantMove_changes.widen rfl
    | exact grantPick_changes

/-- What the pick selector and the move arbiter may change after an event (R36, R37, R53). -/
theorem settleArm_changes {p : Part} :
    p.Changes [.offered, .heldSpell, .attn, .discs, .places, .jobs, .bays, .ink, .arm, .sent]
      (settleArm p) :=
  (((@checkOffer_changes p).andThen selectPick_changes).andThen grantArm_changes).widen rfl

/-! ## Tower control -/

theorem enterTower_changes {st : TowerState} {p : Part} : p.Changes [.tower, .attn] (enterTower st p) :=
  (tower_changes.andThen raise_changes).widen rfl

theorem resumeTower_changes {p : Part} : p.Changes [.tower, .attn] (resumeTower p) := by
  unfold resumeTower
  repeat' split
  all_goals first | exact .refl _ _ | exact (tower_changes.andThen enterTower_changes).widen rfl

theorem pauseTower_changes {p : Part} : p.Changes [.tower, .attn] (pauseTower p) := by
  rw [pauseTower_eq]
  intro f hf; cases f <;> first | rfl | simp at hf

theorem haltTower_changes {p : Part} : p.Changes [.tower, .attn] (haltTower p) := by
  rw [haltTower_eq]
  intro f hf; cases f <;> first | rfl | simp at hf

theorem clearArmMark_changes {p : Part} : p.Changes [.tower] (clearArmMark p) := tower_changes

theorem clearPrinterMark_changes {p : Part} : p.Changes [.tower] (clearPrinterMark p) := tower_changes

/-- A jam writes the arm and tower control, and raises flags (R61). -/
theorem jam_changes {p : Part} : p.Changes [.arm, .attn, .tower] (jam p) :=
  (((endArmOp_changes.andThen modMove_changes).andThen arm_changes).andThen raise_changes
    |>.andThen haltTower_changes).widen rfl

theorem sweepFollow_changes {b : Fin 12} {p : Part} :
    p.Changes [.bays, .sent, .tower] (sweepFollow b p) := by
  unfold sweepFollow
  repeat' split
  all_goals first
    | exact .refl _ _
    | exact clearBayMark_changes.widen rfl
    | exact resetBay_changes.widen rfl

/-- A move forgotten writes the arm alone (R47). -/
theorem forgetMove_changes {r : Fin 24} {p : Part} : p.Changes [.arm] (forgetMove r p) := by
  unfold forgetMove
  repeat' split
  all_goals first | exact .refl _ _ | exact arm_changes

/-- What a place found empty of its record may change (R6, R14, R47). -/
theorem foundLost_changes {pl : Place} {r : Fin 24} {p : Part} :
    p.Changes [.places, .inkWait, .jobs, .printQueue, .ink, .discs, .attn, .heldSpell, .arm]
      (foundLost pl r p) :=
  ((setOccupant_changes.andThen finaliseLost_changes).andThen forgetMove_changes).widen rfl

/-- The test of an abort's completion writes tower control, and raises a flag (R170). -/
theorem testAbort_changes {p : Part} : p.Changes [.tower, .attn] (testAbort p) := by
  unfold testAbort
  split
  · exact enterTower_changes
  · exact .refl _ _

/-- What tower control may change after an event (R166, R169). -/
theorem settleTower_changes {p : Part} : p.Changes [.bays, .sent, .tower, .attn] (settleTower p) := by
  unfold settleTower
  extract_lets q
  have followed : p.Changes [.bays, .sent, .tower] q := .fold (fun _ _ => sweepFollow_changes) _ _
  clear_value q
  refine .step (followed.widen rfl) (gs := [.tower, .attn]) ?_ rfl
  repeat' split
  all_goals first
    | exact .refl _ _
    | exact enterTower_changes
    | exact .step (q := { q with tower := _ }) (.widen tower_changes rfl) enterTower_changes rfl

end Sys2Proof.Machine
end

