-- ==== Sys2Proof/Laws/Memory.lean ====
section
/-! SUPPORT. The addressed memories: every operation keeps the canonical form, a read after a write, and
what a write leaves alone (R98, R114; log 13). -/

namespace Sys2Proof.Machine

variable {w : Nat}

/-- The cells of a run lie inside the run, and none reads as an unlisted address. -/
theorem cellsFrom_mem {a : Nat} {vs : List (BitVec w)} {c : Nat × BitVec w} (h : c ∈ cellsFrom a vs) :
    a ≤ c.1 ∧ c.1 < a + vs.length ∧ c.2 ≠ 0 := by
  induction vs generalizing a with
  | nil => cases h
  | cons v vs ih =>
    simp only [cellsFrom] at h
    split at h
    · obtain ⟨h1, h2, h3⟩ := ih h
      exact ⟨by omega, by simp only [List.length_cons]; omega, h3⟩
    · rcases List.mem_cons.1 h with rfl | h
      · exact ⟨Nat.le_refl _, by simp only [List.length_cons]; omega, by assumption⟩
      · obtain ⟨h1, h2, h3⟩ := ih h
        exact ⟨by omega, by simp only [List.length_cons]; omega, h3⟩

/-- The addresses of a run's cells rise. -/
theorem cellsFrom_pairwise (a : Nat) (vs : List (BitVec w)) :
    (cellsFrom a vs).Pairwise (fun x y => x.1 < y.1) := by
  induction vs generalizing a with
  | nil => exact List.Pairwise.nil
  | cons v vs ih =>
    simp only [cellsFrom]
    split
    · exact ih _
    · exact List.Pairwise.cons (fun c hc => (cellsFrom_mem hc).1) (ih _)

/-- A write keeps the canonical form. -/
theorem poke_wf {mem : List (Nat × BitVec w)} (h : CellsWf mem) (a : Nat) (vs : List (BitVec w)) :
    CellsWf (poke mem a vs) := by
  constructor
  · simp only [poke, List.pairwise_append]
    refine ⟨⟨h.1.filter _, cellsFrom_pairwise a vs, ?_⟩, h.1.filter _, ?_⟩
    · intro x hx y hy
      have := (cellsFrom_mem hy).1
      simp only [List.mem_filter, decide_eq_true_eq] at hx
      omega
    · intro x hx y hy
      simp only [List.mem_filter, decide_eq_true_eq, List.mem_append] at hx hy
      rcases hx with hx | hx
      · omega
      · have := (cellsFrom_mem hx).2.1
        omega
  · intro c hc
    simp only [poke, List.mem_append, List.mem_filter] at hc
    rcases hc with (hc | hc) | hc
    · exact h.2 c hc.1
    · exact (cellsFrom_mem hc).2.2
    · exact h.2 c hc.1

/-- An address that no cell lists reads 0. -/
theorem peek_absent {mem : List (Nat × BitVec w)} {a : Nat} (h : ∀ c ∈ mem, c.1 ≠ a) :
    peek mem a = 0 := by
  induction mem with
  | nil => rfl
  | cons c rest ih =>
    obtain ⟨k, v⟩ := c
    have hk : k ≠ a := h (k, v) (List.mem_cons_self ..)
    simp only [peek, if_neg hk]
    exact ih fun c hc => h c (List.mem_cons_of_mem _ hc)

/-- Reading through a join: the first part's cell where it lists the address. -/
theorem peek_append {l m : List (Nat × BitVec w)} (a : Nat) :
    peek (l ++ m) a = if l.any (·.1 == a) then peek l a else peek m a := by
  induction l with
  | nil => rfl
  | cons c rest ih =>
    obtain ⟨k, v⟩ := c
    by_cases hk : k = a
    · simp [peek, hk]
    · simp only [List.cons_append, peek, if_neg hk, ih, List.any_cons]
      simp [hk]

/-- Keeping the cells of a set of addresses keeps what those addresses read as. -/
theorem peek_filter {mem : List (Nat × BitVec w)} {f : Nat → Bool} {a : Nat} (h : f a = true) :
    peek (mem.filter fun c => f c.1) a = peek mem a := by
  induction mem with
  | nil => rfl
  | cons c rest ih =>
    obtain ⟨k, v⟩ := c
    by_cases hk : k = a
    · subst hk
      simp [List.filter, h, peek]
    · cases hf : f k <;> simp [List.filter, hf, peek, hk, ih]

/-- What a run's cells read as. -/
theorem peek_cellsFrom (b : Nat) (vs : List (BitVec w)) (i : Nat) :
    peek (cellsFrom b vs) (b + i) = vs.getD i 0 := by
  induction vs generalizing b i with
  | nil => simp [cellsFrom, peek]
  | cons v vs ih =>
    have absent : peek (cellsFrom (b + 1) vs) b = 0 :=
      peek_absent fun c hc => by have := (cellsFrom_mem hc).1; omega
    simp only [cellsFrom]
    cases i with
    | zero =>
      split
      · rename_i hv
        simpa [hv] using absent
      · simp [peek]
    | succ j =>
      have step : b + (j + 1) = (b + 1) + j := by omega
      split
      · rw [step, ih]; simp
      · simp only [peek, if_neg (show b ≠ b + (j + 1) by omega)]
        rw [step, ih]; simp

/-- A read outside the bytes written gives what it gave before. -/
theorem peek_poke_outside (mem : List (Nat × BitVec w)) {a b : Nat} {vs : List (BitVec w)}
    (h : a < b ∨ b + vs.length ≤ a) : peek (poke mem b vs) a = peek mem a := by
  have run : (cellsFrom b vs).any (·.1 == a) = false := by
    rw [List.any_eq_false]
    intro c hc
    obtain ⟨h1, h2, -⟩ := cellsFrom_mem hc
    simp only [beq_iff_eq]
    omega
  rcases h with h | h
  · have high : peek (mem.filter fun c => decide (b + vs.length ≤ c.1)) a = 0 :=
      peek_absent fun c hc => by simp only [List.mem_filter, decide_eq_true_eq] at hc; omega
    have low : peek (mem.filter fun c => decide (c.1 < b)) a = peek mem a :=
      peek_filter (f := fun k => decide (k < b)) (by simpa using h)
    by_cases hl : (mem.filter fun c => decide (c.1 < b)).any (·.1 == a)
    · simp only [poke, List.append_assoc, peek_append, hl, if_true, low]
    · have none : peek (mem.filter fun c => decide (c.1 < b)) a = 0 :=
        peek_absent fun c hc e => hl (List.any_eq_true.2 ⟨c, hc, by simpa using e⟩)
      simp [poke, peek_append, hl, run, high, ← low, none]
  · have low : (mem.filter fun c => decide (c.1 < b)).any (·.1 == a) = false := by
      rw [List.any_eq_false]
      intro c hc
      simp only [List.mem_filter, decide_eq_true_eq] at hc
      simp only [beq_iff_eq]
      omega
    have high : peek (mem.filter fun c => decide (b + vs.length ≤ c.1)) a = peek mem a :=
      peek_filter (f := fun k => decide (b + vs.length ≤ k)) (by simpa using h)
    simp only [poke, List.append_assoc, peek_append, low, run, Bool.false_eq_true, if_false, high]

/-- A read inside the bytes written gives the byte written. -/
theorem peek_poke_inside (mem : List (Nat × BitVec w)) {b i : Nat} {vs : List (BitVec w)}
    (h : i < vs.length) : peek (poke mem b vs) (b + i) = vs.getD i 0 := by
  have low : (mem.filter fun c => decide (c.1 < b)).any (·.1 == b + i) = false := by
    rw [List.any_eq_false]
    intro c hc
    simp only [List.mem_filter, decide_eq_true_eq] at hc
    simp only [beq_iff_eq]
    omega
  have high : peek (mem.filter fun c => decide (b + vs.length ≤ c.1)) (b + i) = 0 :=
    peek_absent fun c hc => by simp only [List.mem_filter, decide_eq_true_eq] at hc; omega
  by_cases hr : (cellsFrom b vs).any (·.1 == b + i)
  · simp only [poke, List.append_assoc, peek_append, low, Bool.false_eq_true, if_false, hr, if_true,
      peek_cellsFrom]
  · have zero : vs.getD i 0 = 0 := by
      rw [← peek_cellsFrom b vs i]
      exact peek_absent fun c hc e => hr (List.any_eq_true.2 ⟨c, hc, by simpa using e⟩)
    simp only [poke, List.append_assoc, peek_append, low, Bool.false_eq_true, if_false, hr, high, zero]

/-- Reading from a rising list with no cell below the start is reading address by address. -/
theorem readRun_eq (n : Nat) (mem : List (Nat × BitVec w)) (a : Nat)
    (rising : mem.Pairwise (fun x y => x.1 < y.1)) (above : ∀ c ∈ mem, a ≤ c.1) :
    readRun n mem a = (List.range n).map fun i => peek mem (a + i) := by
  induction n generalizing mem a with
  | zero => cases mem <;> rfl
  | succ n ih =>
    cases mem with
    | nil =>
      rw [readRun, ih [] (a + 1) List.Pairwise.nil (by simp), List.range_succ_eq_map]
      simp [peek, Function.comp_def, List.map_const']
    | cons c rest =>
      obtain ⟨k, v⟩ := c
      have hrest := List.pairwise_cons.1 rising
      rw [readRun, List.range_succ_eq_map]
      split
      · rename_i hk
        subst hk
        rw [ih rest (k + 1) hrest.2 fun c hc => hrest.1 c hc]
        simp only [List.map_cons, List.map_map, Nat.add_zero, peek, if_true, List.cons.injEq, true_and]
        refine List.map_congr_left fun i _ => ?_
        simp only [Function.comp_apply]
        rw [if_neg (by omega), show k + i.succ = k + 1 + i by omega]
      · rename_i hk
        have ha : a ≤ k := above (k, v) (List.mem_cons_self ..)
        rw [ih ((k, v) :: rest) (a + 1) rising ?_]
        · have zero : peek ((k, v) :: rest) a = 0 := by
            refine peek_absent fun c hc => ?_
            rcases List.mem_cons.1 hc with rfl | hc
            · exact hk
            · have := hrest.1 c hc
              simp only at this
              omega
          simp only [List.map_cons, List.map_map, Nat.add_zero, zero, List.cons.injEq, true_and]
          refine List.map_congr_left fun i _ => ?_
          simp only [Function.comp_apply]
          rw [show a + i.succ = a + 1 + i by omega]
        · intro c hc
          rcases List.mem_cons.1 hc with rfl | hc
          · simp only; omega
          · have := hrest.1 c hc
            simp only at this
            omega

/-- Reading a run is reading each of its addresses. -/
theorem peekRun_eq {mem : List (Nat × BitVec w)} (h : CellsWf mem) (a n : Nat) :
    peekRun mem a n = (List.range n).map fun i => peek mem (a + i) := by
  rw [peekRun, readRun_eq n _ a (h.1.filter _) (by simp [List.mem_filter])]
  refine List.map_congr_left fun i _ => ?_
  exact peek_filter (f := fun k => decide (a ≤ k)) (by simp)

/-- A run written reads back. -/
theorem peekRun_poke {mem : List (Nat × BitVec w)} (h : CellsWf mem) (a : Nat) (vs : List (BitVec w)) :
    peekRun (poke mem a vs) a vs.length = vs := by
  rw [peekRun_eq (poke_wf h a vs)]
  refine List.ext_getElem (by simp) fun i h1 h2 => ?_
  simp only [List.getElem_map, List.getElem_range]
  rw [peek_poke_inside mem h2, List.getD_eq_getElem _ _ h2]

/-- DATA keeps both memories in canonical form. -/
theorem storeData_wf (p : Part) (c : Fin 4) (id : Nat) (bytes : List Byte) {m : Memory} (h : m.wf) :
    (storeData p c id bytes m).wf := by
  unfold storeData
  split
  · exact h
  · split
    · dsimp only
      split
      · split
        · split
          · exact ⟨poke_wf h.1 _ _, poke_wf h.2 _ _⟩
          · exact ⟨poke_wf h.1 _ _, h.2⟩
        · exact ⟨poke_wf h.1 _ _, h.2⟩
      · exact ⟨poke_wf h.1 _ _, h.2⟩
    · exact h

/-- The memories after reset are in canonical form. -/
theorem reset_memory_wf : State.reset.memory.wf := by decide

end Sys2Proof.Machine
end

