-- ==== Sys2Proof/Tests/Slice0.lean ====
section
/-! SUPPORT. The model's own tests: ill-formed commands, values the spec works out, one step of the commands,
and for every statement with hypotheses a witness that meets them, clause by clause. -/

namespace Sys2Proof.Machine.Tests

/-! ## States to test on -/

/-- A machine with these records, its link at rest. -/
def on (p : Part) : State := { State.reset with part := p }

/-- A READY image of 40 blocks. -/
def image0 : Image :=
  { state := .ready, storeAddress := 100, blocks := 40, cls := .a, chunks := 2, segments := 1, pages := [0]
    attachCount := 3, surveyProgress := 1, referenceValid := true, surveyChannel := none, fault := none }

/-- An image under survey on channel 2. -/
def image2 : Image :=
  { image0 with
    state := .surveying, storeAddress := 0, blocks := 300, chunks := 10, segments := 2, pages := [1]
    attachCount := 0, surveyProgress := 0, referenceValid := false, surveyChannel := some 2 }

/-- A RUNNING BURN job with full verification. -/
def job0 : Job :=
  { hostRef := 7, kind := .burn, state := .running, image := some 0, cls := .a, ordered := 20, priority := 1
    maxSpeed := 8, verifyMode := some .full, recoveredLimit := some 0, rejectLimit := 3, template := none
    inkPolicy := none, serialDigits := none, serials := none
    holds := { ink := false, source := false, imageNotReady := false }, lastPick := some 0, started := 10
    delivered := 0, rejected := 0, failures := 0, active := 10, unlabelledDelivered := 0 }

/-- A RUNNING BURN_PRINT job with serials and no verification. -/
def job1 : Job :=
  { job0 with
    kind := .burnPrint, verifyMode := some .none, template := some 0, inkPolicy := some .wait
    serialDigits := some 3, serials := some { first := 990, step := 4, issued := 1, next := 994 }
    lastPick := some 1, started := 1, active := 1 }

/-- A DEFINED BURN job. -/
def job3 : Job :=
  { job0 with state := .defined, verifyMode := some .quick, lastPick := none, started := 0, active := 0 }

/-- The template of the worked example of R149. -/
def template0 : Template :=
  { inner := 42, outer := 118, quality := .normal, coverage := #v[80, 250, 0, 120], users := 1 }

/-- A disc of job 1 in a bay. -/
def inBay (b : Fin 12) (st : Stage) : Disc :=
  { Disc.fresh st .pending with job := some 0, place := some (.bay b), bay := some b }

/-- The disc at ARM. -/
def disc0 : Disc := { Disc.fresh .feeding .pending with job := some 0, place := some .arm }

/-- The disc on the printer's tray. -/
def disc9 : Disc :=
  { Disc.fresh .printing .pending with
    job := some 1, place := some .printer, bay := some 4, reservation := some #v[3370, 11067, 0, 5157]
    serial := some 990 }

/-- The pick in flight. -/
def move0 : Move :=
  { kind := .pick, record := 0, source := .spindle .a, dest := .bay 0, gripped := false, missCount := 0
    interrupted := false, feed := .single }

/-- The operation of that pick. -/
def pick0 : ArmOp := { id := 0, order := .pick .a (.bay 0), deadline := 8000 }

/-- The arm with that pick. -/
def arm0 : Arm :=
  { state := .moving, move := some move0, halt := none
    op := some pick0, heldInterrupted := false, cut := none
    stale := [], opCount := 1, liveFrom := 0 }

/-- A recording stream on channel 0, its last chunk being read. -/
def stream0 : Stream :=
  { image := 0, chunks := 2, resident := true, catchUp := false, joinPeriodEnd := 5000, joinOver := false
    head := 1, tail := 0, read := some { id := 0, chunk := 1, attempt := 1, deadline := 2000 }
    members := [{ bay := 3, position := 1, driveReady := false }], splitRequested := false }

/-- The survey on channel 2, its chunk 0 being read. -/
def survey2 : Survey := { image := 2, read := { id := 1, chunk := 0, attempt := 1, deadline := 2000 } }

/-- A bay in service in a state. -/
def bayIn (st : BayState) (op : Option DriveOp) : Bay :=
  { Bay.reset with state := st, enabled := true, operation := op, deadline := op.map fun _ => 20000 }

/-- The read-back in bay 5. -/
def context5 : Context :=
  { record := 5, image := 0, plan := .full, nextSelected := some 0, inHand := some { segment := 0, attempt := 1 }
    readOutstanding := true, awaitingReference := false }

/-- An ink channel with ink. -/
def ink0 : InkChannel := { level := 900000, floor := 500000, reserved := 20000, dropVolume := 8, trim := 0 }

/-- A tower at work: something in every place. -/
def busy : Part :=
  let p := { Part.reset false 1 2 with
    tower := { Tower.reset with state := .running }
    arm := arm0
    spindleA := { cls := .a, count := 5, empty := false, wasted := 0 }
    spindleB := { cls := .b, count := 3, empty := false, wasted := 0 }
    images := (((Vector.replicate 32 none).set 0 (some image0)).set 1
      (some { image0 with state := .registered, attachCount := 0, pages := [2] })).set 2 (some image2)
    jobs := ((((Vector.replicate 16 none).set 0 (some job0)).set 1 (some job1)).set 2
      (some { job0 with verifyMode := some .none, active := 0, started := 0 })).set 3 (some job3)
    templates := (Vector.replicate 8 none).set 0 (some template0)
    station := { Station.reset with state := .printing, labelDeadline := some 120000 }
    ink := Vector.replicate 4 ink0
    channels := #v[.recording stream0, .free, .survey survey2, .free]
    contexts := (Vector.replicate 12 none).set 5 (some context5)
    places :=
      { bays := #v[none, some 1, some 2, some 3, some 4, some 5, some 6, some 7, some 8, none, none, none]
        arm := some 0, printer := some 9 }
    bays := #v[bayIn .expecting none, bayIn .closingTray (some .load), bayIn .querying (some .identify),
      { bayIn .writing (some .write) with channel := some 0 }, bayIn .finalizing (some .close),
      bayIn .readingBack (some .read), bayIn .openingTray (some .eject), bayIn .presenting none,
      { bayIn .resetting (some .reset) with recovering := true },
      { bayIn .faulted none with faultCause := some .resetFailed }, bayIn .open_ none, Bay.reset]
    discs := (#v[some disc0, some (inBay 1 .loading), some (inBay 2 .identifying),
      some { inBay 3 .recording with speed := some 8, channel := some 0 }, some (inBay 4 .closing),
      some { inBay 5 .verifying with
        verify := some { checked := 0, recovered := 0, mismatched := 0, firstMismatch := none } },
      some { inBay 6 .outbound with verdict := .good },
      some { inBay 7 .outbound with verdict := .good, eligible := some 0 },
      some { inBay 8 .rejectBound with verdict := .reject, reason := some .stalled }, some disc9,
      none, some { Disc.fresh .delivered .good with job := some 0 }] : Vector (Option Disc) 12) ++
      (Vector.replicate 12 none : Vector (Option Disc) 12) }
  p

/-- A part as a device reset leaves it. -/
def quiet : Part := Part.reset false 0 0

/-- What an optional value satisfies when it is there. -/
theorem allSome {α : Type} {P : α → Prop} [DecidablePred P] (x : Option α)
    (h : x.all (fun a => decide (P a)) = true) : ∀ a, x = some a → P a := by
  rintro a rfl; simpa using h

/-- The state after a command. -/
def after (i : Instr) (s : State) : State :=
  match exec i s with
  | .next t => t
  | _ => s

/-- The last reply queued. -/
def lastReply (s : State) : List Byte := (s.link.replies.getLast?).getD []

/-! ## Ill-formed commands -/

/-- A CONFIGURE TOWER that carries nothing. -/
def noSettings : TowerFields :=
  { installed := none, support := none, spindleA := none, spindleB := none, outputCapacity := none
    binCapacity := none, progressTimeout := none, moveTimeout := none, joinHold := none, splitThreshold := none
    splitSetting := none, surveyReserve := none, autoRetire := none, warning := none, critical := none }

/-- A CHANGE JOB that carries nothing. -/
def noChange : JobChange :=
  { hostRef := none, kind := none, image := none, cls := none, ordered := none, priority := none
    maxSpeed := none, verifyMode := none, recoveredLimit := none, rejectLimit := none, template := none
    inkPolicy := none, serialDigits := none, firstSerial := none, step := none }

theorem test_wf_configure_too_long :
    (Instr.configureTower 0 { noSettings with
      support := some (List.replicate 83 { bay := 0, supportA := 1, supportB := 1 }) }).wf = false := by
  simp [Instr.wf, TowerFields.bodyLength, noSettings, carriedLength]

theorem test_wf_configure_long :
    (Instr.configureTower 0 { noSettings with
      support := some (List.replicate 82 { bay := 0, supportA := 1, supportB := 1 }) }).wf = true := by
  simp [Instr.wf, TowerFields.bodyLength, noSettings, carriedLength]

theorem test_wf_capacity : (Instr.identified 0 true 0 0 .a 4294967296).wf = false := by decide

theorem test_wf_segment_blocks : (Instr.segment 0 [1, 2, 3]).wf = false := by decide

theorem test_wf_data_blocks : (Instr.data 0 0 [1, 2, 3]).wf = false := by decide

theorem test_wf_data_long (l : List Byte) (h : l.length = 67584) : (Instr.data 0 0 l).wf = false := by
  simp [Instr.wf, wholeBlocks, h, Config.slotBytes]

theorem test_wf_temperature : (Instr.temperature 128).wf = false := by decide

theorem test_wf_status : (Instr.status true .ready 128).wf = false := by decide

theorem test_wf_drops : (Instr.printerFault { k := 16777216, c := 0, m := 0, y := 0 }).wf = false := by decide

theorem test_wf_label :
    (Instr.labelDone { k := 0, c := 0, m := 0, y := 16777216 } 40).wf = false ∧
      (Instr.labelFailed { k := 0, c := 0, m := 0, y := 0 } 128).wf = false := by decide

/-! ## Values the spec works out -/

set_option maxRecDepth 20000 in
/-- The check value of the digest over the digits 1 to 9 (R185). -/
theorem test_digest :
    digest [0x31, 0x32, 0x33, 0x34, 0x35, 0x36, 0x37, 0x38, 0x39] = 0xCBF43926#32 := by decide

/-- The worked needs of R149's example: outer 118, inner 42, NORMAL, trims -4, +6, 0, 0. -/
theorem test_ink_example :
    template0.area = 9550 ∧ template0.need 0 (-4) = 3370 ∧ template0.need 1 6 = 11067 ∧
      template0.need 2 0 = 0 ∧ template0.need 3 0 = 5157 := by decide

/-- The least and the greatest area, and the greatest need (R149). -/
theorem test_ink_limits :
    ({ template0 with inner := 50, outer := 60 } : Template).area = 863 ∧
      ({ template0 with inner := 15, outer := 120 } : Template).area = 11133 ∧
      ({ template0 with inner := 15, outer := 120, quality := .fine
                        coverage := #v[1000, 1000, 1000, 1000] } : Template).need 0 31 = 77152 := by decide

/-- A QUICK plan of 40 segments reads 0, 16, 32 and 39 (R134). -/
theorem test_quick_plan :
    Plan.quick.next 40 0 = some 16 ∧ Plan.quick.next 40 16 = some 32 ∧ Plan.quick.next 40 32 = some 39 ∧
      Plan.quick.next 40 39 = none ∧ Plan.full.next 40 38 = some 39 := by decide

/-- The frame of START JOB with tag 9 and job 3, by the layouts of R174 and R184. -/
theorem test_start_job_frame : readFrame [0x32, 9, 1, 3] = .request (.startJob 9 3) := by decide

/-- SET ATTENTION: the enables word is sent least significant byte first (R184). -/
theorem test_set_attention_frame :
    readFrame [0x10, 1, 5, 2, 1, 0, 0, 1] = .request (.setAttention 1 0x102 1) := by decide

/-- A frame whose body is shorter than it declares, and a code of no request (R176). -/
theorem test_bad_frames :
    readFrame [0x32, 9, 2, 3] = .malformed ∧ readFrame [0x7F, 9, 0] = .unknown := by decide

/-! ## Witnesses: the queue, the link, the pins -/

/-- A machine held in reset. -/
def held : State := { on quiet with link := { Link.reset with resetLow := true } }

/-- A machine with every reply slot taken. -/
def full : State := { on quiet with link := { Link.reset with replies := List.replicate 8 [1, 0, 0, 1, 0] } }

/-- A machine with a select in progress, its output the head reply. -/
def selecting (replies : List (List Byte)) (output : List Byte) (discard : Bool) : State :=
  { on quiet with link := { Link.reset with
    replies := replies, select := some { output := output, discard := discard } } }

/-- A machine with a drive operation of bay 1 due, and none of bay 0. -/
def bayDue : Part := { quiet.setBay 1 (bayIn .closingTray (some .load)) with now := 20000 }

/-- The same with an arm operation in flight that is not due. -/
def bayDueLater : Part := { bayDue with arm := { arm0 with op := some { pick0 with deadline := 30000 } } }

/-- A machine with a read of channel 0 due, and with a join period at its end. -/
def readDue : Part := { quiet.setChannel 0 (.recording stream0) with now := 2000 }

/-- A machine with a join period of channel 0 at its end. -/
def joinDue : Part := { quiet.setChannel 0 (.recording { stream0 with read := none }) with now := 5000 }

/-- A machine with a printer limit due, the label's or the query's. -/
def printerDue (label query : Option Nat) : Part :=
  { quiet with now := 9, station := { quiet.station with labelDeadline := label, queryDeadline := query } }

/-- A machine with a pulse at its end. -/
def pulseDue : Part := { quiet with now := 2, attn := { quiet.attn with pulseEnd := some 2 } }

/-- No timer of the arm is due. -/
def ArmClear (p : Part) : Prop := ∀ o, p.arm.op = some o → p.now < o.deadline

/-- No watchdog of the bays below `n` is due. -/
def BaysClear (p : Part) (n : Nat) : Prop :=
  ∀ b : Fin 12, b.val < n → ∀ t, (p.bay b).deadline = some t → p.now < t

/-- No read limit of the channels below `n` is due. -/
def ReadsClear (p : Part) (n : Nat) : Prop :=
  ∀ c : Fin 4, c.val < n → ∀ x, p.readOf c = some x → p.now < x.deadline

/-- No join period of the channels below `n` is at its end. -/
def JoinsClear (p : Part) (n : Nat) : Prop :=
  ∀ c : Fin 4, c.val < n → ∀ st, p.stream c = some st → st.joinOver = false → p.now < st.joinPeriodEnd

/-- The arm, every bay and every channel's read are clear in these states. -/
theorem quiet_timers :
    ∀ p ∈ [quiet, bayDueLater, readDue, joinDue, printerDue (some 9) none, printerDue none (some 9), pulseDue],
      ArmClear p := by
  simp only [List.mem_cons, List.not_mem_nil, or_false]
  rintro p (rfl | rfl | rfl | rfl | rfl | rfl | rfl) <;> exact allSome _ (by decide)

theorem quiet_bays :
    ∀ p ∈ [quiet, readDue, joinDue, printerDue (some 9) none, printerDue none (some 9), pulseDue],
      BaysClear p 12 := by
  simp only [List.mem_cons, List.not_mem_nil, or_false]
  rintro p (rfl | rfl | rfl | rfl | rfl | rfl) <;> exact fun b h => allSome _ (by revert b; decide)

theorem quiet_reads :
    ∀ p ∈ [quiet, joinDue, printerDue (some 9) none, printerDue none (some 9), pulseDue], ReadsClear p 4 := by
  simp only [List.mem_cons, List.not_mem_nil, or_false]
  rintro p (rfl | rfl | rfl | rfl | rfl) <;> exact fun c h => allSome _ (by revert c; decide)

theorem quiet_joins :
    ∀ p ∈ [quiet, printerDue (some 9) none, printerDue none (some 9), pulseDue], JoinsClear p 4 := by
  simp only [List.mem_cons, List.not_mem_nil, or_false]
  rintro p (rfl | rfl | rfl | rfl) <;> exact fun c h => allSome _ (by revert c; decide)

/-- EmptyQueueIsTheTimeBase, clause by clause: in reset; the arm's timer due at its very time; a bay's with an
arm operation in flight; a read's, a join period's, the label's, the query's and the pulse's, each with the
timers before it clear; and none due. -/
theorem witness_EmptyQueueIsTheTimeBase :
    (held.pending = [] ∧ held.link.resetLow = true) ∧
    ((on busy).link.resetLow = false ∧ (on { busy with now := 8000 }).pending = [] ∧
      ({ busy with now := 8000 } : Part).arm.op = some pick0 ∧ pick0.deadline ≤ 8000) ∧
    (ArmClear bayDueLater ∧ bayDueLater.arm.op.isSome = true ∧ BaysClear bayDueLater 1 ∧
      (bayDueLater.bay 1).deadline = some 20000 ∧ 20000 ≤ bayDueLater.now) ∧
    (ArmClear readDue ∧ BaysClear readDue 12 ∧ ReadsClear readDue 0 ∧ readDue.readOf 0 = stream0.read ∧
      stream0.read.all (·.deadline ≤ readDue.now) = true) ∧
    (ArmClear joinDue ∧ BaysClear joinDue 12 ∧ ReadsClear joinDue 4 ∧ JoinsClear joinDue 0 ∧
      joinDue.stream 0 = some { stream0 with read := none } ∧ stream0.joinOver = false ∧
      stream0.joinPeriodEnd ≤ joinDue.now) ∧
    ((printerDue (some 9) none).station.labelDeadline = some 9 ∧ JoinsClear (printerDue (some 9) none) 4) ∧
    ((printerDue none (some 9)).station.labelDeadline = none ∧ JoinsClear (printerDue none (some 9)) 4 ∧
      (printerDue none (some 9)).station.queryDeadline = some 9) ∧
    (pulseDue.station.queryDeadline = none ∧ JoinsClear pulseDue 4 ∧ pulseDue.attn.pulseEnd = some 2) ∧
    (ArmClear quiet ∧ BaysClear quiet 12 ∧ ReadsClear quiet 4 ∧ JoinsClear quiet 4 ∧
      quiet.station.labelDeadline = none ∧ quiet.station.queryDeadline = none ∧ quiet.attn.pulseEnd = none) := by
  refine ⟨⟨rfl, rfl⟩, by decide, ⟨quiet_timers _ (by simp), rfl, ?_, by decide, by decide⟩,
    ⟨quiet_timers _ (by simp), quiet_bays _ (by simp), fun c h => absurd h (Nat.not_lt_zero _), by decide, by decide⟩,
    ⟨quiet_timers _ (by simp), quiet_bays _ (by simp), quiet_reads _ (by simp), fun c h => absurd h (Nat.not_lt_zero _),
      by decide, by decide, by decide⟩,
    ⟨rfl, quiet_joins _ (by simp)⟩, ⟨rfl, quiet_joins _ (by simp), rfl⟩, ⟨rfl, quiet_joins _ (by simp), rfl⟩,
    quiet_timers _ (by simp), quiet_bays _ (by simp), quiet_reads _ (by simp), quiet_joins _ (by simp), rfl, rfl, rfl⟩
  intro b h
  have : b = 0 := by omega
  subst this
  exact allSome _ (by decide)

/-- RequestsAnswerOnce: taken, with every slot held, in reset; and a request refused. -/
theorem witness_RequestsAnswerOnce :
    requestBody (.identify 5) = some (0x01, []) ∧ (on quiet).takes ∧
    (full.link.resetLow = false ∧ full.link.slotFree = false) ∧ held.link.resetLow = true ∧
    ((runRequest (.startJob 5 0) quiet).2.status ≠ .ok ∧
      (runRequest (.startJob 5 0) quiet).2.status ≠ .accepted ∧
      (runRequest (.startJob 5 0) quiet).2.status ≠ .clamped) := by decide

/-- NothingIsTakenWhileReset: a report in reset; at the rise, the door closed and open, a select in progress or
none. -/
theorem witness_NothingIsTakenWhileReset :
    (held.link.resetLow = true ∧ Instr.temperature 5 ≠ .selectBegin ∧
      (∀ bytes, Instr.temperature 5 ≠ .selectEnd bytes) ∧ Instr.temperature 5 ≠ .rstNLow ∧
      Instr.temperature 5 ≠ .rstNRise ∧ Instr.temperature 5 ≠ .doorOpen ∧
      Instr.temperature 5 ≠ .doorClosed) ∧
    (on quiet).part.doorOpen = false ∧ (on (Part.reset true 0 0)).part.doorOpen = true ∧
    (on quiet).link.select = none ∧ (selecting [] [] false).link.select.isSome = true := by
  refine ⟨by simp [held], by decide, by decide, by decide, by decide⟩

/-- SelectsBeginAndEnd: each clause of the beginning, then of the end. -/
theorem witness_SelectsBeginAndEnd :
    ((selecting [] [] false).link.select = some { output := [], discard := false }) ∧
    (full.link.select = none ∧ full.link.resetLow = false ∧ full.link.replies ≠ []) ∧
    ((on quiet).link.select = none ∧ (on quiet).link.replies = []) ∧
    (held.link.select = none ∧ held.link.resetLow = true) ∧
    ((selecting [] [] true).link.resetLow = false) ∧
    (([] : List Byte).head? = none ∧ ([0, 7] : List Byte).head? = some 0) ∧
    (((selecting (List.replicate 8 [1]) [1] false).link.ended { output := [1], discard := false } 0).slotFree =
      false ∧ ([7] : List Byte).head? = some 7) ∧
    (((selecting (List.replicate 8 [1]) [1] false).link.ended { output := [1], discard := false } 2).slotFree =
      true ∧ ([7, 1] : List Byte).head? = some 7 ∧ ([7, 1] : List Byte).length < 3) := by decide

/-- The length of the fields a presence word carries. -/
def carriedOf (word : Nat) (sizes : List Nat) : Nat :=
  (sizes.zipIdx.map fun f => if word.testBit f.2 then f.1 else 0).sum

/-- UnreadableFramesAreRefused: a frame that is too short, of no request, of a wrong fixed length, a STOP
TOWER of mode 2, and subset bodies that carry less than their presence word says, or end within it. -/
theorem witness_UnreadableFramesAreRefused :
    let s := selecting [] [] false
    (s.link.select = some { output := [], discard := false } ∧ s.link.resetLow = false ∧
      s.link.requests = [] ∧ (s.link.ended { output := [], discard := false } 3).slotFree = true) ∧
    (([0x32, 9, 1] : List Byte).take 256 = [0x32, 9, 1] ∧
      ¬ ((1 : Byte).toNat ≤ 252 ∧ (1 : Byte).toNat ≤ ([] : List Byte).length ∧
        ∀ b ∈ ([] : List Byte).drop 1, b = 0)) ∧
    (fixedBody 0x7F = none ∧ (0x7F : Byte) ≠ 0x02 ∧ (0x7F : Byte) ≠ 0x31 ∧ (0x7F : Byte) ≠ 0x73 ∧
      (0 : Byte).toNat ≤ 252) ∧
    (fixedBody 0x32 = some 1 ∧ (2 : Byte).toNat ≠ 1 ∧ (2 : Byte).toNat ≤ ([3, 0] : List Byte).length) ∧
    (([2] : List Byte).head? ≠ some 0 ∧ ([2] : List Byte).head? ≠ some 1 ∧
      (1 : Byte).toNat ≤ ([2] : List Byte).length) ∧
    ((4 : Byte).toNat ≤ ([1, 0, 0, 0] : List Byte).length ∧
      (4 : Byte).toNat ≠ 4 + carriedOf 1 ([1, 1 + 3 * 0] ++ List.replicate 13 1)) ∧
    ((5 : Byte).toNat ≤ ([2, 0, 0, 0, 1] : List Byte).length ∧
      (5 : Byte).toNat ≠ 5 + carriedOf 2 [4, 1, 1, 1, 2, 1, 1, 1, 1, 1, 1, 1, 1, 4, 1]) ∧
    (4 : Byte).toNat < 5 := by decide

/-- SelectEndRunsTheRequest and FramesReadBack: START JOB, with two bytes of 00h after its frame. -/
theorem witness_SelectEndRunsTheRequest :
    let s := selecting [] [] false
    (Instr.startJob 9 3).wf = true ∧ encodeRequest (.startJob 9 3) = some [0x32, 9, 1, 3] ∧
    s.link.select = some { output := [], discard := false } ∧ s.link.resetLow = false ∧
    s.link.requests = [] ∧ (s.link.ended { output := [], discard := false } (4 + 2)).slotFree = true ∧
    readFrame [0x32, 9, 1, 3] = .request (.startJob 9 3) := by decide

/-- Job 2 of a tower at work. -/
def job2 : Job := { job0 with verifyMode := some .none, active := 0, started := 0 }

/-- The jobs of a tower at work are in range. -/
theorem busy_jobs : ∀ x j, busy.job x = some j → j.ok := by
  intro x j h
  have all : ∀ x, (busy.job x).all (fun j => decide (j ∈ [job0, job1, job2, job3])) = true := by decide
  have mem := allSome (P := fun j => j ∈ [job0, job1, job2, job3]) _ (all x) j h
  simp only [List.mem_cons, List.not_mem_nil, or_false] at mem
  have s1 : 1 ≤ 4 ∧ 4 ≤ 100 ∧ ∃ n, job1.serialDigits = some n ∧ 990 < 10 ^ n ∧ 994 < 10 ^ n :=
    ⟨by decide, by decide, 3, rfl, by decide, by decide⟩
  obtain rfl | rfl | rfl | rfl := mem
  · exact ⟨by decide, by decide, by decide, allSome _ (by decide), by decide, allSome _ (by decide), nofun⟩
  · exact ⟨by decide, by decide, by decide, allSome _ (by decide), by decide, allSome _ (by decide),
      by rintro y h; cases h; exact s1⟩
  · exact ⟨by decide, by decide, by decide, allSome _ (by decide), by decide, allSome _ (by decide), nofun⟩
  · exact ⟨by decide, by decide, by decide, allSome _ (by decide), by decide, allSome _ (by decide), nofun⟩

/-- LinkAndMemoryKeepTheirForm, CausesKeepTheirForm, CountsKeepTheirRanges: the states after a reset and of a
tower at work meet the invariants, and their steps answer a next state. -/
theorem witness_Invariants :
    (on busy).LinkOk ∧ busy.CausesOk ∧ busy.RangesOk ∧ (∃ t, step (on busy) = .next t) ∧
    ∃ t, step { on busy with pending := [.done 0] } = .next t := by
  refine ⟨by decide, ⟨by decide, by decide, by decide, by decide⟩,
    ⟨?_, by decide, ?_, by decide, by decide, busy_jobs, ?_, ?_, ?_, ?_,
      ⟨by decide, by decide, by decide, by decide, by decide⟩, ?_⟩, ⟨_, rfl⟩, ⟨_, rfl⟩⟩
  · intro e
    have : busy.entry e = none := by revert e; decide
    rw [this]; nofun
  · intro s; cases s <;> simp [Spindle.ok] <;> decide
  · intro b; unfold Bay.countsOk; revert b; decide
  · intro b; exact ⟨allSome _ (by revert b; decide), allSome _ (by revert b; decide)⟩
  · intro k; unfold InkChannel.ok; revert k; decide
  · intro t; unfold Template.ok; exact allSome _ (by revert t; decide)
  · unfold Station.limitsOk; decide

/-- AttentionLine: the two modes, reset, and a pulse under way. -/
theorem witness_AttentionLine :
    ((on quiet).link.resetLow = false ∧ quiet.attn.mode = .level) ∧
    ((on { quiet with attn := { quiet.attn with mode := .pulse } }).part.attn.mode = .pulse) ∧
    held.link.resetLow = true ∧
    ((on pulseDue).link.resetLow = false ∧ (on pulseDue).part.attn.pulseEnd = some 2) := by decide

/-- AttentionRequests: each mode's code and a code of no mode. -/
theorem witness_AttentionRequests :
    (on quiet).takes ∧ (((1 : Byte) = 0 ∧ AttnMode.pulse = .level) ∨ (1 : Byte) = 1 ∧ AttnMode.pulse = .pulse) ∧
    ((2 : Byte) ≠ 0 ∧ (2 : Byte) ≠ 1) := by decide

/-- DoorMoves: an arm at work, one HALTED, one HALTED by the door; a tower that pauses and one that does not. -/
theorem witness_DoorMoves :
    (on busy).link.resetLow = false ∧ busy.arm.state ≠ .halted ∧ busy.arm.halt ≠ some .door ∧
    busy.tower.state.asResume = some .running ∧ quiet.tower.state.asResume = none ∧
    (Part.reset true 0 0).arm.state ≠ .halted ∧
    ({ quiet.arm with state := .halted, halt := some .door } : Arm).halt = some .door := by decide

/-! ## Witnesses: the handler unit's reports -/

/-- A transfer of disc 7 from bay 7 to OUTPUT, not gripped. -/
def moveOut : Move := { move0 with kind := .transfer, record := 7, source := .place (.bay 7), dest := .output }

/-- Its operation. -/
def opOut : ArmOp := { pick0 with order := .transfer (.bay 7) .output }

/-- The tower with ARM empty and that transfer in flight. -/
def taking : Part :=
  { busy with
    arm := { arm0 with move := some moveOut, op := some opOut }
    places := { busy.places with arm := none }, discs := busy.discs.set 0 none }

/-- The pick, gripped. -/
def gripped0 : Move := { move0 with gripped := true }

/-- The tower with the pick gripped. -/
def carrying : Part := { busy with arm := { arm0 with move := some gripped0 } }

/-- The disc at ARM, rejected. -/
def rejected0 : Disc := { disc0 with verdict := .reject, reason := some .aborted, stage := .rejectBound }

/-- The tower with the pick's disc rejected on its way. -/
def carryingRejected : Part := carrying.setDisc 0 (some rejected0)

/-- A transfer of the tray's disc to OUTPUT, not gripped. -/
def moveTray : Move := { moveOut with record := 9, source := .place .printer }

/-- The tower with that transfer in flight, the station FINISHED. -/
def unloading : Part :=
  { taking with
    arm := { arm0 with move := some moveTray, op := some { pick0 with order := .transfer .printer .output } }
    station := { busy.station with state := .finished, labelDeadline := none } }

/-- A disc carried to the printer. -/
def movePrint : Move := { moveOut with record := 9, source := .place (.bay 4), dest := .printer, gripped := true }

/-- The disc being carried there. -/
def printing9 (v : Verdict) : Disc := { disc9 with stage := .printQueued, place := some .arm, verdict := v }

/-- The tower with that disc at ARM, its station in a state. -/
def loadingTray (v : Verdict) (st : StationState) : Part :=
  { busy with
    arm := { arm0 with move := some movePrint, op := some { pick0 with order := .transfer (.bay 4) .printer } }
    places := { busy.places with arm := some 9, printer := none }
    station := { busy.station with
      state := st, faultCause := if st = StationState.fault then some .engine else none, labelDeadline := none } }.setDisc 9
    (some (printing9 v))

/-- Disc 7 at ARM. -/
def disc7 : Disc := { inBay 7 .outbound with verdict := .good, place := some .arm }

/-- The tower about to drop disc 7 onto OUTPUT, its last place. -/
def dropping : Part :=
  { taking with
    arm := { arm0 with move := some { moveOut with gripped := true }, op := some opOut }
    places := { taking.places with arm := some 7, bays := taking.places.bays.set 7 none }
    output := { count := 99, capacity := 100 } }.setDisc 7 (some disc7)

/-- The move that carries a rejected disc, or a pair, to the REJECT BIN. -/
def moveBin (f : Feed) : Move := { moveOut with dest := .bin, gripped := true, feed := f }

/-- Its operation. -/
def opBin : ArmOp := { pick0 with order := .transfer (.bay 7) .bin }

/-- Disc 7 rejected. -/
def rejected7 : Disc := { disc7 with verdict := .reject, reason := some .stalled, stage := .rejectBound }

/-- The tower about to drop it into the bin, its last place. -/
def binning (f : Feed) (o : ArmOp) : Part :=
  { dropping with
    arm := { arm0 with move := some (moveBin f), op := some o }, bin := { count := 49, capacity := 50 } }.setDisc 7
    (some rejected7)

theorem witness_GrippedTakesTheDisc :
    ((on busy).flying pick0 ∧ busy.arm.move = some move0 ∧ move0.gripped = false ∧
      pick0.order = .pick .a (.bay 0) ∧ move0.source = .spindle .a) ∧
    ((on taking).flying opOut ∧ taking.arm.move = some moveOut ∧ moveOut.gripped = false ∧
      opOut.order = .transfer (.bay 7) .output ∧ moveOut.source = .place (.bay 7) ∧
      (taking.bay 7).state = .presenting) ∧
    ((on unloading).flying { pick0 with order := .transfer .printer .output } ∧
      unloading.arm.move = some moveTray ∧ moveTray.source = .place .printer) := by decide

/-- The tower with bay 0 taken out of the installed set while a disc is on its way to it. -/
def uninstalled (p : Part) : Part := p.setBay 0 (p.bay 0).uninstalled

/-- The tower carrying disc 0 to bay 0, which has meanwhile come into a state, with an occupant or none. -/
def carryingTo (st : BayState) (found : Option (Fin 24)) : Part :=
  (carrying.modBay 0 fun x => { x with state := st }).setOccupant (.bay 0) found

/-- DonePlacesTheDisc: the bay is OPEN again, or a disc was found there. -/
theorem witness_destinationChanged :
    ((on (carryingTo .open_ none)).flying pick0 ∧ (carryingTo .open_ none).arm.move = some gripped0 ∧
      ((carryingTo .open_ none).bay 0).state = .open_ ∧ (carryingTo .open_ none).disc 0 = some disc0) ∧
    ((on (carryingTo .holding (some 20))).flying pick0 ∧
      (carryingTo .holding (some 20)).arm.move = some gripped0 ∧
      ((carryingTo .holding (some 20)).bay 0).state ≠ .expecting ∧
      ((carryingTo .holding (some 20)).bay 0).state ≠ .open_ ∧
      (carryingTo .holding (some 20)).occupant (.bay 0) = some 20) := by decide

theorem witness_DonePlacesTheDisc :
    ((on carrying).flying pick0 ∧ carrying.arm.move = some gripped0 ∧ pick0.order.endsDone gripped0 = true ∧
      carrying.disc 0 = some disc0 ∧ gripped0.dest = .bay 0 ∧ (carrying.bay 0).state = .expecting ∧
      disc0.verdict ≠ .reject) ∧
    ((on carryingRejected).flying pick0 ∧ carryingRejected.disc 0 = some rejected0 ∧
      rejected0.verdict = .reject ∧ rejected0.stage = .rejectBound) ∧
    ((on (loadingTray .pending .empty)).flying { pick0 with order := .transfer (.bay 4) .printer } ∧
      (ArmOrder.transfer (.bay 4) .printer).endsDone movePrint = true ∧ movePrint.dest = .printer ∧
      (loadingTray .pending .empty).disc 9 = some (printing9 .pending)) ∧
    ((loadingTray .reject .empty).disc 9 = some (printing9 .reject) ∧
      (loadingTray .reject .empty).station.state ≠ .fault) ∧
    (loadingTray .reject .fault).station.state = .fault ∧
    ((on (uninstalled carryingRejected)).flying pick0 ∧
      (uninstalled carryingRejected).arm.move = some gripped0 ∧
      ((uninstalled carryingRejected).bay 0).state = .offline ∧
      (uninstalled carryingRejected).disc 0 = some rejected0) := by
  refine ⟨?_, ?_, ?_, ?_, ?_, ?_⟩ <;> decide

/-- The tower about to drop that rejected disc onto OUTPUT. -/
def droppingRejected : Part := dropping.setDisc 7 (some rejected7)

/-- The tower about to deliver a pair into the bin, a record free or none. -/
def binningPair (free : Bool) : Part :=
  let p := binning .pair { pick0 with order := .deliver .bin }
  if free then p else
    { p with discs := (Vector.replicate 24 (some disc9)).set 7 (some rejected7) }

/-- The same tower with auto-retire on. -/
def retiring (p : Part) : Part := { p with tower := { p.tower with autoRetire := true } }

theorem witness_DoneDropsTheDisc :
    ((on dropping).flying opOut ∧ dropping.arm.move = some { moveOut with gripped := true } ∧
      opOut.order.endsDone { moveOut with gripped := true } = true ∧ dropping.disc 7 = some disc7 ∧
      disc7.verdict ≠ .reject ∧ dropping.tower.autoRetire = false ∧
      (retiring dropping).tower.autoRetire = true ∧ (on (retiring dropping)).flying opOut) ∧
    ((on droppingRejected).flying opOut ∧ droppingRejected.disc 7 = some rejected7 ∧
      rejected7.verdict = .reject) ∧
    ((on (binning .single opBin)).flying opBin ∧ (binning .single opBin).disc 7 = some rejected7 ∧
      opBin.order.endsDone (moveBin .single) = true ∧ (moveBin .single).dest = .bin ∧
      (moveBin .single).feed.isPair = false) ∧
    ((on (binningPair true)).flying { pick0 with order := .deliver .bin } ∧
      (binningPair true).arm.move = some (moveBin .pair) ∧ (moveBin .pair).feed.isPair = true ∧
      (ArmOrder.deliver .bin).endsDone (moveBin .pair) = true ∧ (binningPair true).lowestFree = some 0) ∧
    ((on (binningPair false)).flying { pick0 with order := .deliver .bin } ∧
      (binningPair false).arm.move = some (moveBin .pair) ∧ (binningPair false).lowestFree = none) := by
  refine ⟨?_, ?_, ?_, ?_, ?_⟩ <;> decide

/-- The tower with its door open, which cut the arm's operation short. -/
def doored (p : Part) : Part :=
  { p with
    doorOpen := true
    arm := { p.arm with state := .halted, halt := some .door, op := none, cut := p.arm.op } }

/-- GrippedTakesTheDisc, DonePlacesTheDisc, DoneDropsTheDisc, UnansweredReports: the door cut the operation. -/
theorem witness_cutShort :
    ((on (doored busy)).cutShort pick0 ∧ (doored busy).arm.move = some move0 ∧ move0.gripped = false) ∧
    ((on (doored taking)).cutShort opOut ∧ (doored taking).arm.move = some moveOut ∧
      ((doored taking).bay 7).state = .presenting) ∧
    ((on (doored unloading)).cutShort { pick0 with order := .transfer .printer .output } ∧
      (doored unloading).arm.move = some moveTray) ∧
    ((on (doored carrying)).cutShort pick0 ∧ (doored carrying).arm.move = some gripped0 ∧
      pick0.order.endsDone gripped0 = true ∧ (doored carrying).disc 0 = some disc0 ∧
      ((doored carrying).bay 0).state = .expecting) ∧
    ((on (doored (loadingTray .pending .empty))).cutShort { pick0 with order := .transfer (.bay 4) .printer } ∧
      (doored (loadingTray .pending .empty)).arm.move = some movePrint) ∧
    ((on (doored dropping)).cutShort opOut ∧ (doored dropping).disc 7 = some disc7) ∧
    ((on (doored (binningPair true))).cutShort { pick0 with order := .deliver .bin } ∧
      (doored (binningPair true)).arm.move = some (moveBin .pair)) := by
  refine ⟨?_, ?_, ?_, ?_, ?_, ?_, ?_⟩ <;> decide

/-- The tower with the pick MISSED once. -/
def missedOnce : Part := { busy with arm := { arm0 with move := some { move0 with missCount := 1 } } }

/-- The tower delivering the pick's disc. -/
def delivering : Part :=
  { carrying with arm := { carrying.arm with op := some { pick0 with order := .deliver (.bay 0) } } }

/-- The tower whose transfer's disc was found LOST meanwhile. -/
def forgotten : Part := { taking with arm := { taking.arm with move := none } }

theorem witness_MissedAndDropped :
    ((on busy).flying pick0 ∧ busy.arm.move = some move0 ∧ move0.gripped = false ∧ move0.missCount = 0 ∧
      pick0.order = .pick .a (.bay 0)) ∧
    ((on missedOnce).flying pick0 ∧ missedOnce.arm.move = some { move0 with missCount := 1 } ∧
      move0.kind = .pick ∧ missedOnce.disc 0 = some disc0 ∧ (0 : Fin 24) ∉ missedOnce.inkWait ∧
      (0 : Fin 24) ∉ missedOnce.printQueue ∧ move0.dest = .bay 0 ∧ (missedOnce.bay 0).state = .expecting) ∧
    ((on taking).flying opOut ∧ taking.arm.move = some moveOut ∧ moveOut.source = .place (.bay 7) ∧
      (taking.bay 7).state = .presenting ∧ (taking.disc 7).isSome = true ∧ Place.bay 7 ≠ .arm) ∧
    ((on unloading).flying { pick0 with order := .transfer .printer .output } ∧
      unloading.arm.move = some moveTray ∧ moveTray.gripped = false ∧ (unloading.disc 9).isSome = true ∧
      unloading.station.state = .finished) ∧
    ((on forgotten).flying opOut ∧ forgotten.arm.move = none ∧ opOut.order = .transfer (.bay 7) .output) ∧
    ((on carrying).flying pick0 ∧ carrying.arm.move = some gripped0 ∧ gripped0.gripped = true ∧
      carrying.disc 0 = some disc0 ∧ (0 : Fin 24) ∉ carrying.inkWait ∧ (0 : Fin 24) ∉ carrying.printQueue ∧
      gripped0.kind = .pick ∧ gripped0.dest = .bay 0) ∧
    ((on delivering).flying { pick0 with order := .deliver (.bay 0) } ∧
      delivering.arm.move = some gripped0 ∧ delivering.disc 0 = some disc0) := by
  refine ⟨?_, ?_, ?_, ?_, ?_, ?_, ?_⟩ <;> decide

/-- The tower separating a double feed, with the bin in a state. -/
def separating (bin : Sink) : Part :=
  { busy with
    bin := bin
    arm := { arm0 with
      state := .separating, move := some { gripped0 with feed := .separating }
      op := some { pick0 with order := .separate } } }

theorem witness_DoubleFeeds :
    ((on carrying).flying pick0 ∧ carrying.arm.move = some gripped0 ∧ gripped0.gripped = true ∧
      pick0.order = .pick .a (.bay 0)) ∧
    ((on (separating busy.bin)).flying { pick0 with order := .separate } ∧
      (separating busy.bin).arm.move = some { gripped0 with feed := .separating } ∧
      gripped0.source = .spindle .a ∧ gripped0.kind = .pick ∧ gripped0.dest = .bay 0 ∧
      (separating busy.bin).disc 0 = some disc0 ∧ disc0.stage.active = true ∧ disc0.verdict ≠ .reject ∧
      (0 : Fin 24) ∉ (separating busy.bin).inkWait ∧
      ((separating busy.bin).bay 0).state = .expecting ∧ busy.bin.count < busy.bin.capacity) ∧
    (separating { count := 50, capacity := 50 }).bin.capacity ≤
      (separating { count := 50, capacity := 50 }).bin.count := by decide

/-- The tower with a current move and no operation in flight. -/
def unsent : Part := { carrying with arm := { carrying.arm with op := none } }

theorem witness_JamsHaltTheArm :
    ((on carrying).link.resetLow = false ∧ (on carrying).flying pick0 ∧
      carrying.tower.state.asResume = some .running) ∧
    (unsent.arm.op = none ∧ (∀ x, unsent.arm.cut = some x → x.id ≠ 7) ∧ unsent.doorOpen = false ∧ unsent.arm.liveFrom ≤ 7 ∧
      unsent.arm.stale.contains 7 = false ∧
      Instr.gripped 7 ∈ [Instr.gripped 7, .done 7, .missed 7, .double 7, .single 7, .stillDouble 7, .dropped 7,
        .interrupted 7, .jammed 7, .homed 7 true]) ∧
    ({ carrying.tower with state := .paused } : Tower).state = .paused ∧
    (quiet.tower.state.asResume = none ∧ quiet.tower.state ≠ .paused) := by
  refine ⟨by decide, ⟨by decide, allSome _ (by decide), by decide, by decide, by decide, by decide⟩, by decide,
    by decide⟩

/-- JamsHaltTheArm: a report of another operation's number, the other outcomes of an operation in flight, and
one with the door closed after it cut another operation. -/
theorem witness_misfits :
    ((on carrying).flying pick0 ∧ 7 ≠ pick0.id ∧ carrying.arm.liveFrom ≤ 7 ∧
      carrying.arm.stale.contains 7 = false) ∧
    ((on taking).flying opOut ∧ (∀ sp d, opOut.order ≠ .pick sp d)) ∧
    ((on busy).flying pick0 ∧ busy.arm.move = some move0 ∧ move0.gripped = false) ∧
    ((on delivering).flying { pick0 with order := .deliver (.bay 0) }) ∧
    ((on (separating busy.bin)).flying { pick0 with order := .separate }) ∧
    ((on forgotten).flying opOut ∧ forgotten.arm.move = none) ∧
    (({ doored carrying with doorOpen := false } : Part).arm.cut = some pick0 ∧ (doored carrying).arm.op = none) := by
  refine ⟨by decide, ⟨by decide, nofun⟩, by decide, by decide, by decide, by decide, by decide⟩

/-- The operation of ARM RECOVER's HOME. -/
def opHome : ArmOp := { pick0 with order := .home .recover }

/-- The tower homing after a jam, with a move or none. -/
def homing (p : Part) (m : Option Move) : Part :=
  { p with
    arm := { arm0 with state := .homing, move := m, op := some opHome }
    tower := { busy.tower with state := .halted, resume := some .running } }

/-- The same with every record in use. -/
def homingFull : Part := { homing taking none with discs := Vector.replicate 24 (some disc9) }

/-- The tower with the pick's blank not yet gripped, the record without a place. -/
def homingPick : Part := homing taking (some move0)

/-- The record of that pick. -/
def picked0 : Disc := { disc0 with place := none }

/-- The tower homing with a double-feed pair held, whose DELIVER had been sent or which was waiting, the bin with
room or full. -/
def homingPair (f : Feed) (bin : Sink) : Part :=
  { homing busy (some { gripped0 with feed := f, dest := .bin }) with bin := bin }

/-- A full bin. -/
def fullBin : Sink := { count := 50, capacity := 50 }

theorem witness_HomingResolves :
    ((on (homing taking none)).flying opHome ∧ opHome.order = .home .recover ∧
      (homing taking none).arm.move = none ∧ false = ((homing taking none).occupant .arm).isSome ∧
      (homing taking none).lowestFree = some 0 ∧ (homing taking none).tower.state = .halted ∧
      (homing taking none).tower.resume = some .running) ∧
    ((homing busy none).occupant .arm = some 0 ∧ true = ((homing busy none).occupant .arm).isSome ∧
      (homing busy none).disc 0 = some disc0) ∧
    ((on homingFull).flying opHome ∧ homingFull.arm.move = none ∧ homingFull.occupant .arm = none ∧
      homingFull.lowestFree = none) ∧
    ((on (homing carrying (some gripped0))).flying opHome ∧
      (homing carrying (some gripped0)).arm.move = some gripped0 ∧ gripped0.gripped = true ∧
      gripped0.feed = .single ∧ (homing carrying (some gripped0)).disc 0 = some disc0 ∧
      (0 : Fin 24) ∉ busy.inkWait ∧ (0 : Fin 24) ∉ busy.printQueue) ∧
    ((on (homingPick.setDisc 0 (some picked0))).flying opHome ∧ homingPick.arm.move = some move0 ∧
      move0.gripped = false ∧ move0.source = .spindle .a ∧ move0.kind = .pick ∧
      (homingPick.setDisc 0 (some picked0)).disc 0 = some picked0) ∧
    ((on (homing taking (some moveOut))).flying opHome ∧ moveOut.gripped = false ∧ moveOut.feed = .single ∧
      moveOut.kind ≠ .pick ∧ moveOut.source = .place (.bay 7) ∧ Place.bay 7 ≠ .arm ∧
      ((homing taking (some moveOut)).bay 7).state = .presenting) ∧
    ((on (homing busy (some { gripped0 with feed := .separating }))).flying opHome) ∧
    ((on (homingPair .pairWaiting busy.bin)).flying opHome ∧
      (homingPair .pairWaiting busy.bin).arm.move = some { gripped0 with feed := .pairWaiting, dest := .bin } ∧
      busy.bin.count < busy.bin.capacity ∧
      (homingPair .pairWaiting fullBin).bin.capacity ≤ (homingPair .pairWaiting fullBin).bin.count) ∧
    ((on (homingPair .pair fullBin)).flying opHome ∧
      (homingPair .pair fullBin).arm.move = some { gripped0 with feed := .pair, dest := .bin } ∧
      (homingPair .pair fullBin).bin.full = true) := by
  refine ⟨?_, ?_, ?_, ?_, ?_, ?_, ?_, ?_, ?_⟩ <;> decide

/-- R60: with the bin full, a pair whose DELIVER was cut short or jammed is delivered; one that waited waits. -/
theorem test_homed_pair_delivered_or_waits :
    (homed true (homingPair .pair fullBin)).sent = [.arm (.deliver .bin)] ∧
    (homed true (homingPair .pairWaiting fullBin)).sent = [] ∧
    (homed true (homingPair .pairWaiting fullBin)).arm.state = .moving := by decide

/-! ## Witnesses: tower control's and the handler unit's requests -/

/-- A part whose tower is in a state. -/
def inTower (p : Part) (st : TowerState) (r : Option Resume) : Part :=
  { p with tower := { p.tower with state := st, resume := r } }

/-- A sweep that owes every RESET. -/
def sweep0 : Sweep :=
  { armMark := true, printerMark := true, queryOwed := false, bayMarks := Vector.replicate 12 true
    resetOwed := Vector.replicate 12 true }

/-- The same with that sweep under way. -/
def swept (p : Part) : Part := { p with tower := { p.tower with state := .starting, sweep := some sweep0 } }

theorem witness_StartTower :
    ((on quiet).takes ∧ quiet.tower.state = .stopped ∧ quiet.doorOpen = false ∧ quiet.arm.op = none) ∧
    ((Part.reset true 0 0).tower.state = .stopped ∧ (Part.reset true 0 0).doorOpen = true) ∧
    busy.tower.state ≠ .stopped ∧
    (busy.tower.sweep = none ∧ (swept busy).tower.sweep = some sweep0 ∧
      (∀ b : Fin 12, sweep0.resetOwed[b] = true) ∧ ((swept busy).bay 1).operation.isSome = true ∧
      ((swept busy).bay 10).operation = none ∧ ((swept busy).bay 10).state ≠ .faulted ∧
      ((swept busy).bay 10).enabled = true ∧ ((swept busy).bay 9).operation = none ∧
      ((swept busy).bay 9).state = .faulted ∧ ((swept busy).bay 11).operation = none ∧
      ((swept busy).bay 11).enabled = false) := by decide

/-- A start under way: its marks pending, or clear. -/
def starting (marks : Bool) : Part :=
  { quiet with tower := { quiet.tower with
    state := .starting
    sweep := some { armMark := marks, printerMark := marks, queryOwed := false
                    bayMarks := Vector.replicate 12 marks, resetOwed := Vector.replicate 12 false } } }

/-- An abort with an arm operation in flight, and with a RESET of it in flight. -/
def aborting (arm reset : Bool) : Part :=
  (inTower { quiet with arm := if arm then arm0 else quiet.arm } .aborting none).setBay 0
    { quiet.bay 0 with abortMark := reset }

theorem witness_StopTower :
    ((on busy).takes ∧ busy.tower.state = .running) ∧
    ((inTower busy .paused (some .running)).tower.resume = some .running ∧
      (inTower busy .halted (some .starting)).tower.resume ≠ some .running) ∧
    (quiet.tower.state = .stopped) ∧
    (busy.disc 0 = some disc0 ∧ disc0.stage = .feeding ∧ disc0.verdict ≠ .reject ∧ (0 : Fin 24) ∉ busy.inkWait) ∧
    ((∀ r d, quiet.disc r = some d → d.stage ≠ .feeding) ∧
      (∀ b, (quiet.bay b).state.abortable = false) ∧
      (∀ r d, taking.disc r = some d → d.stage ≠ .feeding)) ∧
    ((busy.bay 3).state.abortable = true ∧ busy.occupant (.bay 3) = some 3 ∧
      (busy.bay 7).state.abortable = false) ∧
    ((starting true).tower.state = .starting ∧ (starting false).tower.state = .starting ∧
      (∀ w, (starting true).tower.sweep = some w →
        w.armMark = true ∧ ∀ b : Fin 12, w.resetOwed[b] = false) ∧
      (∀ w, (starting false).tower.sweep = some w →
        w.armMark = false ∧ w.printerMark = false ∧ (∀ b : Fin 12, w.bayMarks[b] = false) ∧
          ∀ b : Fin 12, w.resetOwed[b] = false) ∧
      allBays.foldl (fun p b => sweepFollow b p) (starting true) = starting true ∧
      allBays.foldl (fun p b => sweepFollow b p) (starting false) = starting false ∧
      (allBays.foldl (fun p b => sweepFollow b p) (swept quiet)).tower.state = .starting ∧
      (inTower quiet .starting none).tower.sweep = none) ∧
    ((inTower quiet .stopping none).arm.op = none ∧
      (∀ r d, quiet.disc r = some d → d.stage.active = true → d.stage = .hostHold) ∧
      (inTower busy .stopping none).arm.op.isSome = true) ∧
    ((aborting false false).tower.state = .aborting ∧ (aborting false false).arm.op = none ∧
      (∀ b, ((aborting false false).bay b).abortMark = false) ∧
      (aborting true false).arm.op.isSome = true ∧ ((aborting false true).bay 0).abortMark = true) := by
  refine ⟨by decide, by decide, by decide, by decide,
    ⟨fun r => allSome _ (by revert r; decide), by decide, fun r => allSome _ (by revert r; decide)⟩, by decide,
    ⟨rfl, rfl, allSome _ (by decide), allSome _ (by decide), by decide, by decide, by decide, rfl⟩,
    ⟨by decide, fun r => allSome _ (by revert r; decide), by decide⟩, by decide⟩

/-- A pair waiting at ARM for room in the bin. -/
def pairWaiting : Part :=
  { busy with arm := { arm0 with move := some { gripped0 with feed := .pairWaiting, dest := .bin }, op := none } }

theorem witness_OperatorRequests :
    ((on (homing busy (some gripped0))).takes ∧ (homing busy (some gripped0)).tower.state = .halted ∧
      (homing busy (some gripped0)).arm.state = .homing) ∧
    (let p := { homing busy (some gripped0) with
       arm := { arm0 with state := .halted, halt := some .jam, op := none } }
     p.tower.state = .halted ∧ p.doorOpen = false ∧ p.arm.state = .halted ∧ p.arm.halt = some .jam) ∧
    (quiet.tower.state ≠ .halted) ∧
    (spindleOf 1 = some .b ∧ classOf 1 = some .b ∧ busy.arm.move = some move0 ∧
      move0.source ≠ .spindle .b ∧ move0.source = .spindle .a ∧ spindleOf 0 = some .a ∧
      (150 : Byte).toNat ≤ 150 ∧ 2 ≤ (2 : Byte).toNat) ∧
    (busy.arm.op.isSome = true) ∧
    (pairWaiting.arm.move = some { gripped0 with feed := .pairWaiting, dest := .bin } ∧ pairWaiting.arm.op = none ∧
      pairWaiting.arm.state = .moving ∧ 0 < pairWaiting.bin.capacity) := by decide

/-- Settings in range, among them the least and the greatest. -/
def someSettings : TowerFields :=
  { noSettings with
    installed := some 12, support := some [{ bay := 11, supportA := 0xFF, supportB := 16 }]
    outputCapacity := some 150, binCapacity := some 1, progressTimeout := some 2, moveTimeout := some 30
    joinHold := some 0, splitThreshold := some 56, warning := some 90, critical := some 100 }

theorem witness_ConfigureTower :
    ((on quiet).takes ∧ settingCodesFit someSettings = true ∧ quiet.tower.state = .stopped ∧
      (∀ e ∈ someSettings.support.getD [], e.bay.toNat ≤ 11) ∧
      (∀ b : Fin 12, stored 1 12 someSettings.installed quiet.tower.installed ≤ b.val →
        b.val < quiet.tower.installed → quiet.occupant (.bay b) = none) ∧
      (∀ b ∈ someSettings.warning, 30 ≤ b.toNat ∧ b.toNat ≤ 90) ∧
      stored 30 90 someSettings.warning quiet.station.warning <
        stored 35 100 someSettings.critical quiet.station.critical) ∧
    settingCodesFit { noSettings with spindleA := some 2 } = false ∧ busy.tower.state ≠ .stopped ∧
    (∃ e ∈ ([{ bay := 12, supportA := 1, supportB := 1 }] : List SupportEntry), 11 < e.bay.toNat) ∧
    ((inTower busy .stopped none).tower.state = .stopped ∧
      ∃ b : Fin 12, stored 1 12 (some 1) busy.tower.installed ≤ b.val ∧ b.val < busy.tower.installed ∧
        (busy.occupant (.bay b)).isSome = true) ∧
    (quiet.station.limitsOk ∧ settingCodesFit { noSettings with installed := some 0 } = true ∧
      ¬ 1 ≤ (0 : Byte).toNat ∧ ∀ b : Fin 12, quiet.occupant (.bay b) = none) := by
  refine ⟨⟨by decide, by decide, by decide, by decide, by decide, allSome _ (by decide), by decide⟩, by decide,
    by decide, by decide, by decide, ⟨by unfold Station.limitsOk; decide, by decide, by decide, by decide⟩⟩

/-! ## Witnesses: jobs and discs -/

/-- A part with the occupant of a bay changed. -/
def occupied (p : Part) (b : Fin 12) (o : Option (Fin 24)) : Part :=
  { p with places := { p.places with bays := p.places.bays.set b o } }

/-- The disc of bay 2 at its stream's door. -/
def joiner : Disc := { inBay 2 .waitingStream with speed := some 4 }

/-- The tower with it. -/
def joining : Part := (busy.setDisc 2 (some joiner)).setBay 2 (bayIn .attaching none)

/-- The tray loaded, its label not yet sent. -/
def loadedTray : Part := { busy with station := { busy.station with state := .loaded, labelDeadline := none } }

/-- A BURN job's fields. -/
def burnFields : JobFields :=
  { hostRef := 5, kind := 1, image := 0, cls := 0, ordered := 9999, priority := 3, maxSpeed := 16, verifyMode := 2
    recoveredLimit := 0, rejectLimit := 255, template := 0, inkPolicy := 0, serialDigits := 0, firstSerial := 0
    step := 1 }

/-- A PRINT job's fields. -/
def printFields : JobFields := { burnFields with kind := 3, inkPolicy := 1, serialDigits := 8, step := 100 }

/-- Every job record held. -/
def jobsFull : Part := { busy with jobs := Vector.replicate 16 (some job0) }

theorem witness_DefineJob :
    ((on busy).takes ∧ kindOf burnFields.kind = some .burn ∧ burnFields.image.toNat = (0 : Fin 32).val ∧
      busy.image 0 = some image0 ∧ DiscClass.a = image0.cls ∧ burnFields.verifyMode.toNat ≤ 2 ∧
      busy.job 4 = none ∧ (∀ y : Fin 16, y < 4 → (busy.job y).isSome = true) ∧
      1 ≤ burnFields.ordered.toNat ∧ burnFields.ordered.toNat ≤ 9999 ∧ burnFields.priority.toNat ≤ 3 ∧
      burnFields.maxSpeed.toNat ≤ 16 ∧ 1 ≤ burnFields.rejectLimit.toNat ∧
      burnFields.firstSerial.toNat < 10 ^ burnFields.serialDigits.toNat ∧ 1 ≤ burnFields.step.toNat) ∧
    (kindOf printFields.kind = some .print ∧ classOf printFields.cls = some .a ∧
      printFields.template.toNat = (0 : Fin 8).val ∧ busy.template 0 = some template0 ∧
      printFields.inkPolicy.toNat ≤ 1 ∧ printFields.serialDigits.toNat ≤ 8 ∧ printFields.step.toNat ≤ 100) ∧
    ((17 : Byte).toNat > 16 ∧ changeCodesFit noChange = true ∧
      (5 : Byte).toNat = (4 : Fin 16).val + 1 ∧ busy.job 4 = none) ∧
    (3 < (4 : Byte).toNat ∧ ({ burnFields with image := 31 } : JobFields).image.toNat = (31 : Fin 32).val ∧
      busy.image 31 = none) ∧
    ((busy.image 0).isSome = true ∧ ∀ x, (jobsFull.job x).isSome = true) := by decide

/-- A part with job 1 changed. -/
def withJob0 (j : Job) : Part := busy.setJob 0 (some j)

/-- A PAUSED job with a hold reason. -/
def paused0 : Job := { job0 with state := .paused, holds := { ink := false, source := true, imageNotReady := false } }

/-- A DEFINED job of an image that is not READY. -/
def waiting3 : Job := { job3 with image := some 1 }

theorem witness_JobStates :
    ((on busy).takes ∧ (4 : Byte).toNat = (3 : Fin 16).val + 1 ∧ busy.job 3 = some job3 ∧ job3.state = .defined ∧
      (∀ i, job3.image = some i → busy.imageReady i = true)) ∧
    ((busy.setJob 3 (some waiting3)).job 3 = some waiting3 ∧ waiting3.state = .defined ∧
      waiting3.image = some 1 ∧ (busy.setJob 3 (some waiting3)).imageReady 1 = false) ∧
    (busy.job 0 = some job0 ∧ job0.state = .running ∧ job0.state ≠ .defined ∧ job0.state ≠ .paused) ∧
    ((withJob0 paused0).job 0 = some paused0 ∧ paused0.state = .paused ∧ paused0.state ≠ .held) := by
  refine ⟨⟨by decide, by decide, by decide, by decide, allSome _ (by decide)⟩, by decide, by decide, by decide⟩

/-- A job with nothing active, two failures and four delivered. -/
def idle0 : Job := { job0 with active := 0, delivered := 4, failures := 2 }

/-- The same with a disc active. -/
def last0 : Job := { idle0 with active := 1 }

/-- A DEFINED PRINT job without serials. -/
def print3 : Job :=
  { job3 with
    kind := .print, image := none, verifyMode := none, recoveredLimit := none, template := some 0
    inkPolicy := some .unlabelled, serialDigits := some 0 }

/-- A change that makes a DEFINED BURN job a PRINT job. -/
def toPrint : JobChange :=
  { noChange with
    kind := some 3, template := some 0, inkPolicy := some 1, serialDigits := some 2, firstSerial := some 7
    step := some 1 }

theorem witness_ChangeJob :
    ((on busy).takes ∧ (1 : Byte).toNat = (0 : Fin 16).val + 1 ∧ busy.job 0 = some job0 ∧
      changeCodesFit { noChange with kind := some 1 } = true ∧
      changeRedefines { noChange with kind := some 1 } = true ∧ job0.state ≠ .defined) ∧
    (job0.state.started = true ∧ changeRedefines { noChange with priority := some 7 } = false) ∧
    ((withJob0 idle0).job 0 = some idle0 ∧ idle0.state = .running ∧
      idle0.delivered = clamp 1 9999 (max (3 : Word16).toNat (idle0.delivered + idle0.active))) ∧
    (stored 1 255 (some 2) idle0.rejectLimit ≤ idle0.failures ∧ idle0.active = 0 ∧ last0.state = .running ∧
      0 < last0.active ∧ (withJob0 last0).job 0 = some last0) ∧
    (busy.job 3 = some job3 ∧ job3.state = .defined ∧ changeCodesFit { noChange with kind := some 2 } = true ∧
      job3.inkPolicy = none ∧ (busy.setJob 3 (some print3)).job 3 = some print3 ∧
      changeCodesFit { noChange with serialDigits := some 3 } = true ∧ print3.serials = none) ∧
    (job3.kind = .burn ∧ job3.verifyMode.isSome = true ∧ job3.recoveredLimit.isSome = true ∧
      changeCodesFit { noChange with image := some 31 } = true ∧ busy.image 31 = none ∧
      job3.image = some 0 ∧ busy.image 0 = some image0 ∧ changeCodesFit noChange = true) ∧
    (changeCodesFit toPrint = true ∧ busy.template 0 = some template0) := by
  refine ⟨?_, ?_, ?_, ?_, ?_, ?_, ?_⟩ <;> decide

/-- A DONE job. -/
def done3 : Job := { job0 with state := .done, active := 0 }

/-- A HELD job with no disc. -/
def held3 : Job := { job0 with state := .held, active := 0 }

theorem witness_CancelAndRetireJob :
    ((on busy).takes ∧ (4 : Byte).toNat = (3 : Fin 16).val + 1 ∧ busy.job 3 = some job3 ∧
      job3.state = .defined ∧ job3.state.started = false ∧
      (∀ r d, busy.disc r = some d → d.job ≠ some 3)) ∧
    ((busy.setJob 3 (some held3)).job 3 = some held3 ∧ held3.state = .held ∧ held3.active = 0 ∧
      held3.state.started = true ∧
      ∀ r d, (busy.setJob 3 (some held3)).disc r = some d → d.job ≠ some 3) ∧
    ((busy.setJob 3 (some done3)).job 3 = some done3 ∧ done3.state.ended = true) ∧
    ((withJob0 done3).job 0 = some done3 ∧ done3.state.started = false ∧
      ∃ r d, (withJob0 done3).disc r = some d ∧ d.job = some 0) ∧
    (busy.job 0 = some job0 ∧ job0.state = .running ∧ 0 < job0.active ∧ busy.disc 0 = some disc0 ∧
      disc0.job = some 0 ∧ disc0.stage.active = true ∧ disc0.stage ≠ .outbound ∧
      disc0.verdict ≠ .reject ∧ (6 : Fin 24) ∉ busy.inkWait) ∧
    (∃ d, busy.disc 8 = some d ∧ d.verdict = .reject) ∧
    (∃ d, busy.disc 6 = some d ∧ d.stage = .outbound ∧ d.verdict ≠ .reject ∧
      ∀ m, busy.arm.move = some m → m.record ≠ 6) ∧
    (∃ d, taking.disc 7 = some d ∧ d.stage = .outbound ∧ d.verdict ≠ .reject ∧
      ∃ m, taking.arm.move = some m ∧ m.record = 7) := by
  refine ⟨⟨by decide, by decide, by decide, by decide, by decide, fun r => allSome _ (by revert r; decide)⟩,
    ⟨by decide, by decide, by decide, by decide, fun r => allSome _ (by revert r; decide)⟩, by decide,
    ⟨by decide, by decide, 0, _, rfl, by decide⟩, by decide, ⟨_, rfl, by decide⟩,
    ⟨_, rfl, by decide, by decide, allSome _ (by decide)⟩,
    ⟨_, rfl, by decide, by decide, _, rfl, by decide⟩⟩

/-- A disc held for the host at ARM. -/
def found0 : Disc := { disc0 with stage := .hostHold, job := none }

/-- The tower with that disc and no move. -/
def foundAtArm : Part := { busy with arm := Arm.reset 0 }.setDisc 0 (some found0)

theorem witness_JobCounts : busy.job 0 = some job0 := by decide

/-- The read-back in bay 5 waiting for its image's reference. -/
def awaiting : Part :=
  busy.setContext 5 (some { context5 with inHand := none, readOutstanding := false, awaitingReference := true })

theorem witness_JobHolds :
    awaiting.referenceValid 0 = true ∧ (awaiting.context 5).map (·.awaitingReference) = some true ∧
      (awaiting.context 5).map (·.image) = some 0 ∧ awaiting.context 4 = none := by decide

/-- The tray's disc with its label not sent, the station in FAULT. -/
def faultedTray : Part :=
  { loadedTray with station := { loadedTray.station with state := .fault, faultCause := some .engine } }

theorem witness_RejectRule :
    (busy.disc 0 = some disc0 ∧ disc0.verdict ≠ .reject ∧ disc0.stage.active = true ∧
      disc0.stage ≠ .rejectBound ∧ disc0.stage ≠ .printing ∧ disc0.stage ≠ .hostHold ∧
      disc0.place = some .arm) ∧
    ((busy.disc 8).map (·.verdict) = some .reject ∧ (busy.disc 8).map (·.stage) = some .rejectBound) ∧
    ((busy.disc 11).map (·.verdict) = some .good ∧ (busy.disc 11).map (·.stage) = some .delivered) ∧
    (busy.disc 9 = some disc9 ∧ disc9.verdict ≠ .reject ∧ disc9.stage = .printing ∧
      busy.occupant .printer = some 9 ∧ busy.station.labelDeadline.isSome = true) ∧
    (loadedTray.disc 9 = some disc9 ∧ loadedTray.station.labelDeadline = none ∧
      loadedTray.station.state = .loaded ∧ faultedTray.station.state = .fault ∧
      faultedTray.station.labelDeadline = none ∧ faultedTray.disc 9 = some disc9) ∧
    (foundAtArm.disc 0 = some found0 ∧ found0.stage = .hostHold ∧ found0.place = some .arm ∧
      found0.verdict ≠ .reject) ∧
    ((busy.bay 1).state = .closingTray ∧ (busy.bay 2).state = .querying ∧ (busy.bay 3).state = .writing ∧
      (busy.bay 4).state = .finalizing ∧ (busy.bay 5).state = .readingBack ∧
      (joining.bay 2).state = .attaching ∧ joining.disc 2 = some joiner ∧
      (busy.bay 7).state.abortable = false) ∧
    (∀ r ∈ ([1, 2, 3, 4, 5, 7] : List (Fin 24)), ∃ d b, busy.disc r = some d ∧ d.verdict ≠ .reject ∧
      d.stage.active = true ∧ d.stage ≠ .printing ∧ d.place = some (.bay b) ∧ b.val = r.val) := by
  refine ⟨?_, ?_, ?_, ?_, ?_, ?_, ?_, ?_⟩
  iterate 7 decide
  intro r h
  simp only [List.mem_cons, List.not_mem_nil, or_false] at h
  obtain rfl | rfl | rfl | rfl | rfl | rfl := h <;> exact ⟨_, _, rfl, by decide, by decide, by decide, rfl, rfl⟩

/-- A disc held for the host in bay 7, its bay in a state. -/
def heldInBay (st : BayState) : Part := (busy.setDisc 7 (some (inBay 7 .hostHold))).setBay 7 (bayIn st none)

/-- A disc held for the host on the printer's tray, a QUERY in flight or none. -/
def heldOnTray (query : Option Nat) : Part :=
  { loadedTray.setDisc 9 (some { disc9 with stage := .hostHold }) with
    station := { loadedTray.station with state := .finished, queryDeadline := query } }

/-- The disc of the pick at ARM, the arm HALTED with it. -/
def haltedWith : Part := { inTower carrying .halted (some .running) with
  arm := { carrying.arm with state := .halted, halt := some .jam, op := none } }

theorem witness_DiscRequests :
    ((on busy).takes ∧ 23 < (24 : Byte).toNat ∧ 1 < (2 : Byte).toNat ∧
      (23 : Byte).toNat = (23 : Fin 24).val ∧ busy.disc 23 = none) ∧
    ((on foundAtArm).takes ∧ (0 : Byte).toNat = (0 : Fin 24).val ∧ foundAtArm.disc 0 = some found0 ∧
      found0.stage = .hostHold ∧ found0.place = some .arm ∧ found0.stage.active = true ∧
      foundAtArm.arm.move = none) ∧
    ((on (heldInBay .presenting)).takes ∧ (heldInBay .presenting).disc 7 = some (inBay 7 .hostHold) ∧
      (inBay 7 .hostHold).place = some (.bay 7) ∧ ((heldInBay .presenting).bay 7).state = .presenting ∧
      (heldInBay .holding).disc 7 = some (inBay 7 .hostHold) ∧
      ((heldInBay .holding).bay 7).state = .holding) ∧
    ((on (heldOnTray none)).takes ∧ ((heldOnTray none).disc 9).map (·.stage) = some .hostHold ∧
      ((heldOnTray none).disc 9).bind (·.place) = some .printer ∧
      (heldOnTray none).station.queryDeadline = none ∧
      ((heldOnTray (some 5)).disc 9).bind (·.place) = some .printer ∧
      (heldOnTray (some 5)).station.queryDeadline = some 5) ∧
    ((on haltedWith).takes ∧ haltedWith.tower.state = .halted ∧ haltedWith.arm.move = some gripped0 ∧
      gripped0.record = 0 ∧ gripped0.source = .spindle .a ∧ haltedWith.disc 0 = some disc0 ∧
      disc0.place = some .arm ∧ (0 : Fin 24) ∉ haltedWith.inkWait ∧ (0 : Fin 24) ∉ haltedWith.printQueue) ∧
    ((busy.disc 3).map (·.stage) = some .recording ∧ (busy.disc 3).bind (·.place) = some (.bay 3) ∧
      (busy.bay 3).state ≠ .faulted ∧ busy.arm.move.map (·.record) = some 0) ∧
    ((busy.disc 11).map (·.stage.active) = some false ∧ (busy.disc 8).map (·.verdict) = some .reject) := by
  refine ⟨?_, ?_, ?_, ?_, ?_, ?_, ?_⟩ <;> decide

/-! ## Witnesses: bays, media, images, the label unit, lookups -/

/-- A part with a bay changed. -/
def withBay (b : Fin 12) (f : Bay → Bay) : Part := busy.setBay b (f (busy.bay b))

theorem witness_BayRequests :
    ((on busy).takes ∧ 11 < (12 : Byte).toNat ∧ (11 : Byte).toNat = (11 : Fin 12).val ∧
      (inTower { busy with tower := { busy.tower with installed := 11 } } .running none).tower.installed ≤
        (11 : Fin 12).val ∧ (11 : Fin 12).val < busy.tower.installed) ∧
    ((busy.bay 11).state = .offline ∧ (busy.bay 11).operation = none ∧ busy.tower.sweep = none ∧
      ((swept (withBay 11 fun x => { x with operation := some .eject })).bay 11).operation = some .eject) ∧
    (((withBay 7 fun x => { x with disablePending := true }).bay 7).state ≠ .offline ∧
      ((withBay 7 fun x => { x with disablePending := true }).bay 7).disablePending = true) ∧
    ((busy.bay 7).state ≠ .offline ∧ (busy.bay 7).disablePending = false ∧ (busy.bay 7).state ≠ .open_ ∧
      (busy.bay 7).state ≠ .faulted) ∧
    ((busy.bay 10).state = .open_) ∧
    ((busy.bay 9).state = .faulted ∧ busy.occupant (.bay 9) = none ∧ (busy.bay 9).operation = none) := by decide

/-- A MASKED entry. -/
def entry0 : MediaEntry :=
  { mode := .masked, maker := 5, type := some 0x10, mask := some 0xF0, verdict := .accept, ceiling := 8, cap := 4
    recent := List.replicate 15 .good, burns := 65535, fails := 0 }

/-- The tower with that entry. -/
def withMedia : Part := busy.setEntry 0 (some entry0)

/-- A record of a disc the entry decided. -/
def decided2 : Disc :=
  { inBay 2 .identifying with media := some { maker := 5, type := 0x1F, cls := .a, capacity := 40, entry := some 0 } }

theorem witness_MediaTable :
    (entry0.type = some 0x10 ∧ entry0.mode = .masked ∧ entry0.mask = some 0xF0 ∧
      ({ entry0 with mode := .exact } : MediaEntry).mode = .exact ∧
      ({ entry0 with mode := .maker, type := none, mask := none } : MediaEntry).mode = .maker) ∧
    (withMedia.entry 0 = some entry0) ∧ entry0.recent.length ≤ 16 ∧
    ((withMedia.setDisc 2 (some decided2)).disc 2 = some decided2 ∧
      (decided2.media.bind (·.entry)) = some 0 ∧ (withMedia.setDisc 2 (some decided2)).entry 0 = some entry0) ∧
    ((busy.setDisc 2 (some decided2)).entry 0 = none) := by decide

/-- The body of a SET MEDIA ENTRY. -/
def mediaFields : MediaFields :=
  { entry := 15, mode := 2, maker := 65535, verdict := 1, ceiling := 17, type := 1, mask := 65535 }

theorem witness_MediaRequests :
    ((on withMedia).takes ∧ matchModeOf mediaFields.mode = some .masked ∧
      mediaVerdictOf mediaFields.verdict = some .refuse ∧ mediaFields.entry.toNat = (15 : Fin 16).val) ∧
    (2 < ({ mediaFields with mode := 3 } : MediaFields).mode.toNat) ∧
    ((0 : Byte).toNat = (0 : Fin 16).val ∧ (withMedia.entry 0).isSome = true ∧ withMedia.entry 0 = some entry0 ∧
      withMedia.entry 15 = none) ∧
    (1 < (2 : Byte).toNat ∧ mediaVerdictOf 0 = some .accept) := by decide

/-- A part with every digest page in use. -/
def pagesFull : Part :=
  { quiet with images := quiet.images.set 0 (some { image0 with pages := List.range 1024 }) }

theorem witness_ImageRequests :
    ((on busy).takes ∧ 1 < (2 : Byte).toNat ∧ classOf 0 = some .a ∧ (0 : Word32).toNat = 0 ∧
      360000 < (360001 : Word32).toNat ∧ 4294967296 < (4294967295 : Word32).toNat + (2 : Word32).toNat) ∧
    (0 < (1 : Word32).toNat ∧ (1 : Word32).toNat ≤ 360000 ∧
      (4294967295 : Word32).toNat + (1 : Word32).toNat ≤ 4294967296 ∧
      busy.image 3 = none ∧ (∀ k : Fin 32, k < 3 → (busy.image k).isSome = true)) ∧
    (∀ i, ({ busy with images := Vector.replicate 32 (some image0) } : Part).image i ≠ none) ∧
    (31 < (32 : Byte).toNat ∧ (31 : Byte).toNat = (31 : Fin 32).val ∧ busy.image 31 = none) ∧
    (∃ x, busy.image 1 = some x ∧ x.state = .registered ∧ busy.imageInUse 1 = false ∧ x.attachCount = 0 ∧
      x.surveyChannel = none) ∧
    (busy.image 0 = some image0 ∧ image0.state = .ready ∧ busy.imageInUse 0 = true ∧ 0 < image0.attachCount) ∧
    (quiet.setImage 0 (some image0)).imageInUse 0 = false ∧
    (busy.image 2 = some image2 ∧ image2.state = .surveying ∧ image2.attachCount = 0 ∧
      image2.surveyChannel = some 2) := by
  refine ⟨by decide, by decide, by decide, by decide, ⟨_, rfl, by decide, by decide, by decide, by decide⟩,
    by decide, by decide, by decide⟩

/-- No free page is left when one image holds them all, and one is needed by an image of one block. -/
theorem witness_ImageRequests_noPages :
    pagesFull.image 1 = none ∧ (∀ k : Fin 32, k < 1 → (pagesFull.image k).isSome = true) ∧
      pagesFull.freePages.length < (((1 : Word32).toNat + 255) / 256 + 63) / 64 := by
  refine ⟨by decide, by decide, ?_⟩
  have : pagesFull.freePages = [] := by
    unfold Part.freePages
    rw [List.filter_eq_nil_iff]
    intro g hg
    have mem : some { image0 with pages := List.range 1024 } ∈ pagesFull.images.toList := by
      simpa [pagesFull] using Vector.getElem_mem (xs := pagesFull.images) (i := 0) (by decide)
    have small : g < 1024 := by simpa [Config.digestPages] using hg
    have : g ∈ pagesFull.heldPages :=
      List.mem_flatMap.2 ⟨some { image0 with pages := List.range 1024 }, mem, by simpa using small⟩
    simpa using this
  rw [this]; decide

theorem witness_InkArithmetic : (-31 : Int) ≤ -31 ∧ (-31 : Int) ≤ 31 := by decide

/-- A job that prints, its disc 6 in the label unit. -/
def labelling (policy : InkPolicy) : Part :=
  { (busy.setDisc 6 (some { inBay 6 .awaitInk with verdict := .good, job := some 1 })).setJob 1 (some { job1 with
      inkPolicy := some policy }) with inkWait := [6] }

/-- The same with no ink to give. -/
def dry (policy : InkPolicy) : Part :=
  { labelling policy with ink := Vector.replicate 4 { ink0 with level := 500000, reserved := 0 } }

/-- A disc entering the label unit. -/
def entering : Disc := { inBay 6 .closing with verdict := .good, job := some 1 }

theorem witness_InkWaiting :
    ((labelling .wait).disc 6 = some { inBay 6 .awaitInk with verdict := .good, job := some 1 } ∧
      ((labelling .wait).job 1).bind (·.template) = some 0 ∧
      (labelling .wait).template 0 = some template0 ∧ (labelling .wait).admits template0 = true ∧
      (6 : Fin 24) ∈ (labelling .wait).inkWait ∧ (dry .wait).admits template0 = false) ∧
    (entering.stage.active = true ∧ entering.stage ≠ .rejectBound ∧ entering.job = some 1 ∧
      ((dry .wait).job 1).bind (·.inkPolicy) = some .wait ∧
      ((dry .unlabelled).job 1).bind (·.inkPolicy) = some .unlabelled) ∧
    ((labelling .wait).disc 0 = some disc0 ∧ disc0.reservation = none ∧ (0 : Fin 24) ∉ busy.inkWait ∧
      busy.disc 9 = some disc9 ∧ disc9.reservation.isSome = true ∧ (9 : Fin 24) ∉ busy.inkWait) ∧
    (((labelling .wait).disc 6).bind (·.job) = some 1 ∧ busy.inkWait = []) ∧
    ((dry .wait).forecast template0 < job1.ordered - job1.delivered ∧ (1 : Fin 16) ∉ (dry .wait).shortSet ∧
      job1.state = .running ∧ job1.template = some 0 ∧ print3.state ≠ .running ∧
      job1.ordered - job1.delivered ≤ busy.forecast template0 ∧ busy.job 1 = some job1 ∧
      (1 : Fin 16) ∈ ({ busy with shortSet := [1] } : Part).shortSet) := by
  refine ⟨?_, ?_, ?_, ?_, ?_⟩ <;> decide

/-- A template's fields, at the ends of their ranges. -/
def templateFields : TemplateFields :=
  { template := 7, inner := 15, outer := 120, quality := 2, covK := 1000, covC := 0, covM := 0, covY := 0 }

theorem witness_LabelUnitRequests :
    ((on busy).takes ∧ templateFields.template.toNat = (7 : Fin 8).val ∧
      qualityOf templateFields.quality = some .fine ∧ busy.template 7 = none ∧
      15 ≤ templateFields.inner.toNat ∧ templateFields.outer.toNat ≤ 120 ∧
      templateFields.covK.toNat ≤ 1000) ∧
    (busy.template 0 = some template0 ∧ 0 < template0.users ∧ (0 : Byte).toNat = (0 : Fin 8).val) ∧
    (¬ (15 ≤ ({ templateFields with inner := 14 } : TemplateFields).inner.toNat)) ∧
    (7 < (8 : Byte).toNat ∧ 2 < (3 : Byte).toNat ∧ 3 < (4 : Byte).toNat) ∧
    (busy.station.state = .printing ∧ quiet.station.state ≠ .printing ∧
      (60000000 : Word32).toNat ≤ 60000000 ∧ 60000000 < (60000001 : Word32).toNat ∧
      (3 : Byte).toNat = (3 : Fin 4).val) ∧
    ((8 : Byte) ≠ 0xFF ∧ (7 : Byte).toNat = (7 : Fin 8).val) ∧
    ((0 : Byte) ≠ 0xFF ∧ 16 < (17 : Byte).toNat ∧ (1 : Byte).toNat = (0 : Fin 16).val + 1 ∧
      busy.job 0 = some job0 ∧ job0.template = none ∧ (16 : Byte).toNat = (15 : Fin 16).val + 1 ∧
      busy.job 15 = none ∧ (2 : Byte).toNat = (1 : Fin 16).val + 1 ∧ busy.job 1 = some job1 ∧
      job1.template = some 0) := by
  refine ⟨?_, ?_, ?_, ?_, ?_, ?_, ?_⟩ <;> decide

theorem witness_Lookups :
    ((on busy).takes ∧ (1 : Byte).toNat = (0 : Fin 16).val + 1 ∧ busy.job 0 = some job0) ∧
    ((23 : Byte).toNat = (23 : Fin 24).val ∧ (0 : Byte).toNat = (0 : Fin 24).val ∧ busy.disc 0 = some disc0) ∧
    (23 < (24 : Byte).toNat ∧ (11 : Byte).toNat = (11 : Fin 12).val ∧ 0x11 < (0x12 : Byte).toNat ∧
      (0x12 : Byte) ≠ 0xFF ∧ 1 ≤ (15 : Byte).toNat ∧ (15 : Byte).toNat ≤ 15) := by decide

/-! ## Witnesses: the bays' reports -/

/-- The arm's numbers after a reset and an expiry. -/
def staleArm : Part := { busy with arm := { busy.arm with stale := [4], liveFrom := 2 } }

theorem witness_UnansweredReports :
    ((on busy).link.resetLow = false ∧ (busy.bay 10).operation ≠ some .write ∧
      (busy.bay 1).operation ≠ some .write) ∧
    ((∀ x, busy.readOf 0 = some x → x.id ≠ 7) ∧ ∀ x, busy.readOf 1 = some x → x.id ≠ 0) ∧
    ((on staleArm).link.resetLow = false ∧ 1 < staleArm.arm.liveFrom ∧ 4 ∈ staleArm.arm.stale) ∧
    ((doored busy).doorOpen = true ∧ ∀ o, (doored busy).arm.cut = some o → o.id ≠ 7) ∧
    ((on carrying).flying pick0 ∧ carrying.arm.move = some gripped0 ∧ gripped0.gripped = true ∧
      pick0.order = .pick .a (.bay 0)) ∧
    ((on (doored carrying)).cutShort pick0 ∧ Instr.missed 0 ∈ [Instr.missed 0, .double 0] ∧
      (doored forgotten).arm.move = none ∧ (on (doored forgotten)).cutShort opOut) ∧
    (quiet.station.labelDeadline = none ∧ quiet.station.queryDeadline = none ∧ quiet.arm.op = none ∧
      (quiet.bay 0).deadline = none ∧ quiet.readOf 0 = none ∧ quiet.attn.pulseEnd = none ∧
      ∀ st, quiet.stream 0 = some st → st.joinOver = true) := by
  refine ⟨by decide, ⟨allSome _ (by decide), allSome _ (by decide)⟩, by decide, ⟨rfl, allSome _ (by decide)⟩,
    by decide, by decide, by decide, by decide, by decide, by decide, by decide, by decide, allSome _ (by decide)⟩

theorem witness_LoadedAndOpened :
    ((on busy).driving 1 .load ∧ busy.occupant (.bay 1) = some 1 ∧ busy.disc 1 = some (inBay 1 .loading)) ∧
    (((on (busy.setDisc 1 (some (inBay 1 .rejectBound)))).driving 1 .load) ∧
      (busy.setDisc 1 (some (inBay 1 .rejectBound))).stageOf 1 ≠ some .loading) ∧
    ((on (occupied busy 1 none)).driving 1 .load ∧ (occupied busy 1 none).occupant (.bay 1) = none ∧
      (occupied busy 1 none).tower.sweep = none) ∧
    ((on (swept (occupied busy 1 none))).driving 1 .load ∧
      (swept (occupied busy 1 none)).tower.sweep = some sweep0 ∧ sweep0.resetOwed[(1 : Fin 12)] = true) ∧
    ((on busy).driving 6 .eject ∧ busy.occupant (.bay 6) = some 6 ∧
      ∃ d, busy.disc 6 = some d ∧ d.stage = .outbound) ∧
    ((on (busy.setDisc 6 (some (inBay 6 .hostHold)))).driving 6 .eject ∧
      (inBay 6 .hostHold).stage ≠ .outbound ∧ (inBay 6 .hostHold).stage ≠ .rejectBound ∧
      (inBay 6 .hostHold).stage ≠ .printQueued) ∧
    ((on (occupied busy 6 none)).driving 6 .eject ∧ (occupied busy 6 none).occupant (.bay 6) = none) ∧
    ((busy.setBay 6 (bayIn .holding none)).occupant (.bay 6) = some 6 ∧
      ((busy.setBay 6 (bayIn .holding none)).bay 6).state = .holding ∧ busy.tower.state = .running ∧
      (busy.disc 6).map (·.stage) = some .outbound ∧ (busy.bay 7).state = .presenting ∧
      busy.occupant (.bay 7) = some 7 ∧ (busy.disc 7).map (·.stage) = some .outbound ∧
      (busy.bay 3).state ≠ .holding ∧ (busy.bay 3).state ≠ .presenting) := by
  refine ⟨by decide, by decide, by decide, by decide, ⟨by decide, by decide, _, rfl, by decide⟩, by decide,
    by decide, by decide⟩

/-- The disc under identification, and the same rejected. -/
def rejected2 : Disc := { inBay 2 .rejectBound with verdict := .reject, reason := some .cancelled }

/-- A part that accepts media by default. -/
def accepting : Part := { busy with defaultVerdict := .accept, defaultCap := 4 }

theorem witness_IdentifiedReport :
    ((on busy).driving 2 .identify ∧ busy.occupant (.bay 2) = some 2 ∧
      busy.disc 2 = some (inBay 2 .identifying) ∧ (inBay 2 .identifying).verdict ≠ .reject ∧
      (inBay 2 .identifying).job = some 0 ∧ busy.job 0 = some job0 ∧ job0.image = some 0 ∧
      busy.image 0 = some image0) ∧
    ((on (busy.setDisc 2 (some rejected2))).driving 2 .identify ∧
      (busy.setDisc 2 (some rejected2)).disc 2 = some rejected2 ∧ rejected2.verdict = .reject) ∧
    (DiscClass.b ≠ job0.cls ∧ DiscClass.a = job0.cls ∧ 39 < image0.blocks ∧ image0.blocks ≤ 40) ∧
    (busy.mediaVerdict (busy.decidingEntry 5 6) = .refuse ∧
      accepting.mediaVerdict (accepting.decidingEntry 5 6) = .accept ∧ (on accepting).driving 2 .identify) := by
  decide

/-- Streams with one member at its last chunk, with two, and with one before its first. -/
def lastChunk (ms : List Member) : Stream := { stream0 with read := none, head := 2, members := ms }

/-- The member at its last chunk. -/
def last3 : Member := { bay := 3, position := 2, driveReady := false }

/-- The tower with such a stream. -/
def streaming (ms : List Member) : Part := busy.setChannel 0 (.recording (lastChunk ms))

/-- Another member. -/
def other7 : Member := { bay := 7, position := 1, driveReady := true }

/-- The member of channel 0 in a state. -/
def memberAt (position : Nat) (driveReady : Bool) : Part :=
  streaming [{ bay := 3, position := position, driveReady := driveReady }]

theorem witness_RecordingReports :
    ((∃ y, joining.image 0 = some y ∧ y.state = .ready) ∧
      (∃ st, joining.stream 0 = some st ∧ st.image = 0 ∧ st.resident = true) ∧
      joining.occupant (.bay 2) = some 2 ∧ joining.disc 2 = some joiner ∧ joiner.speed = some 4) ∧
    (∀ y, joining.image 2 = some y → y.state ≠ .ready) ∧
    ((on busy).driving 3 .write ∧ (busy.bay 3).channel = some 0 ∧ busy.stream 0 = some stream0 ∧
      stream0.member 3 = some { bay := 3, position := 1, driveReady := false } ∧
      busy.occupant (.bay 3) = some 3 ∧ (busy.disc 3).isSome = true ∧ busy.image stream0.image = some image0 ∧
      1 ≠ stream0.chunks) ∧
    ((on (streaming [last3])).driving 3 .write ∧ (streaming [last3]).stream 0 = some (lastChunk [last3]) ∧
      (lastChunk [last3]).member 3 = some last3 ∧ last3.position = (lastChunk [last3]).chunks ∧
      last3.driveReady = false ∧ (lastChunk [last3]).members.filter (·.bay != 3) = []) ∧
    ((streaming [other7, last3]).stream 0 = some (lastChunk [other7, last3]) ∧
      (lastChunk [other7, last3]).member 3 = some last3 ∧
      (lastChunk [other7, last3]).members.filter (·.bay != 3) ≠ []) ∧
    ((on (memberAt 0 false)).driving 3 .write ∧ (on (memberAt 1 true)).driving 3 .write ∧
      ((memberAt 0 false).stream 0).bind (·.member 3) = some { bay := 3, position := 0, driveReady := false } ∧
      ((memberAt 1 true).stream 0).bind (·.member 3) = some { bay := 3, position := 1, driveReady := true }) := by
  refine ⟨⟨⟨_, rfl, by decide⟩, ⟨_, rfl, by decide⟩, by decide, by decide, by decide⟩, allSome _ (by decide),
    by decide, by decide, by decide, by decide⟩

/-- The disc being closed, for another job. -/
def closing4 (x : Fin 16) : Disc := { inBay 4 .closing with job := some x }

/-- The job of a burn without verification. -/
def plain2 : Job := { job0 with verifyMode := some .none, active := 0, started := 0 }

/-- The tower with an image whose reference is not valid. -/
def unreferenced : Part := busy.setImage 0 (some { image0 with referenceValid := false, state := .surveyWaiting })

theorem witness_ClosedReport :
    ((on busy).driving 4 .close ∧ busy.occupant (.bay 4) = some 4 ∧ busy.disc 4 = some (closing4 0) ∧
      (closing4 0).job = some 0 ∧ busy.job 0 = some job0 ∧ job0.image = some 0 ∧
      job0.verifyMode = some .full ∧ busy.referenceValid 0 = true) ∧
    ((on (busy.setDisc 4 (some (closing4 2)))).driving 4 .close ∧ busy.job 2 = some plain2 ∧
      plain2.verifyMode = some .none ∧ plain2.kind = .burn ∧ (closing4 2).verdict ≠ .reject) ∧
    (busy.job 1 = some job1 ∧ job1.verifyMode = some .none ∧ job1.kind = .burnPrint) ∧
    ((on unreferenced).driving 4 .close ∧ unreferenced.referenceValid 0 = false) := by decide

/-- The read-back in bay 5 at an attempt. -/
def contextAt (n : Nat) : Context := { context5 with inHand := some { segment := 0, attempt := n } }

/-- An image of two segments. -/
def image300 : Image := { image0 with blocks := 300, segments := 2, chunks := 10 }

/-- The tower reading segment 0 at an attempt. -/
def reading (n : Nat) (y : Image) : Part := (busy.setImage 0 (some y)).setContext 5 (some (contextAt n))

/-- The disc of bay 5. -/
def verifying5 : Disc :=
  { inBay 5 .verifying with
    verify := some { checked := 0, recovered := 0, mismatched := 0, firstMismatch := none } }

/-- The last read of a BURN_PRINT job's disc, and a read whose image's reference is no longer valid. -/
def printing5 : Part := (reading 2 image0).setDisc 5 (some { verifying5 with job := some 1 })

theorem witness_ReadBackReports :
    ((on (reading 1 image0)).driving 5 .read ∧ (reading 1 image0).context 5 = some (contextAt 1) ∧
      (contextAt 1).inHand = some { segment := 0, attempt := 1 } ∧
      (reading 1 image0).image (contextAt 1).image = some image0 ∧
      (reading 1 image0).disc (contextAt 1).record = some verifying5 ∧ verifying5.verify.isSome = true ∧
      verifying5.job = some 0 ∧ (reading 1 image0).job 0 = some job0 ∧ verifying5.verdict ≠ .reject ∧
      job0.kind = .burn) ∧
    (2 ≠ 1 ∧ (on (reading 2 image300)).driving 5 .read ∧ (contextAt 2).plan.next image300.segments 0 = some 1 ∧
      (reading 2 image300).referenceValid (contextAt 2).image = true ∧
      (reading 2 { image300 with referenceValid := false, state := .surveyWaiting }).referenceValid
        (contextAt 2).image = false) ∧
    ((on (reading 2 image0)).driving 5 .read ∧ (contextAt 2).plan.next image0.segments 0 = none ∧
      0 < 0 + 1 ∧ (0 : Nat) ≤ job0.recoveredLimit.getD 0) ∧
    ((on printing5).driving 5 .read ∧ printing5.disc 5 = some { verifying5 with job := some 1 } ∧
      printing5.job 1 = some job1 ∧ job1.kind = .burnPrint) ∧
    (∃ bytes : List Byte, ((false = true) ↔ bytes.length = 2048 * min 256 (image0.blocks - 256 * 0) ∧
      digest bytes = peek (on busy).memory.digests (image0.pages.getD (0 / 64) 0 * 64 + 0 % 64))) ∧
    39 < 40 := by
  refine ⟨by decide, by decide, by decide, by decide, ⟨[], by decide⟩, by decide⟩

/-- Data of the segment's 40 blocks, and the digest stored for it. -/
theorem witness_ReadBackReports_match :
    let bytes : List Byte := List.replicate (2048 * 40) 0
    let s := { on (reading 1 image0) with memory := { buffer := [], digests := poke [] 0 [digest bytes] } }
    s.driving 5 .read ∧
      (true = true ↔ bytes.length = 2048 * min 256 (image0.blocks - 256 * 0) ∧
        digest bytes = peek s.memory.digests (image0.pages.getD (0 / 64) 0 * 64 + 0 % 64)) := by
  refine ⟨⟨rfl, rfl⟩, iff_of_true rfl ⟨List.length_replicate.trans (by decide), ?_⟩⟩
  exact (peek_poke_inside [] (b := 0) (i := 0) (vs := [_]) (by decide)).symm

/-- A bay writing a disc already rejected, and a RESET that an abort sent. -/
def failing : Part :=
  (busy.setDisc 1 (some { inBay 1 .rejectBound with verdict := .reject, reason := some .cancelled })).setBay 8
    { busy.bay 8 with abortMark := true }

theorem witness_BayFailures :
    ((on busy).driving 1 .load ∧ busy.occupant (.bay 1) = some 1 ∧ busy.disc 1 = some (inBay 1 .loading) ∧
      (inBay 1 .loading).place = some (.bay 1) ∧ (inBay 1 .loading).verdict ≠ .reject ∧
      (inBay 1 .loading).stage.active = true ∧ (busy.bay 1).channel = none ∧
      (busy.bay 1).deadline = some 20000 ∧ DriveOp.load ≠ .reset) ∧
    ((on busy).driving 3 .write ∧ (busy.bay 3).channel = some 0 ∧ busy.stream 0 = some stream0 ∧
      stream0.members.filter (·.bay != 3) = [] ∧
      (streaming [other7, last3]).stream 0 = some (lastChunk [other7, last3]) ∧
      (lastChunk [other7, last3]).members.filter (·.bay != 3) ≠ [] ∧
      (busy.disc 3).bind (·.place) = some (.bay 3) ∧ (busy.disc 3).map (·.verdict) = some .pending) ∧
    ((on busy).driving 5 .read ∧ (busy.bay 5).deadline = some 20000 ∧ (busy.disc 5).map (·.stage) = some .verifying) ∧
    ((on busy).driving 6 .eject ∧ (busy.bay 6).recovering = false) ∧
    ((on (occupied busy 6 none)).driving 6 .eject ∧ (occupied busy 6 none).occupant (.bay 6) = none) ∧
    ((on failing).driving 1 .load ∧ (failing.disc 1).map (·.verdict) = some .reject ∧
      (failing.bay 1).channel = none) := by
  refine ⟨?_, ?_, ?_, ?_, ?_, ?_⟩ <;> decide

/-- Every record in use, and bay 8 empty. -/
def tableFull : Part := { occupied busy 8 none with discs := Vector.replicate 24 (some disc9) }

/-- The sweep's RESET of a bay that holds a disc not yet rejected. -/
def resetting8 : Part := busy.setDisc 8 (some (inBay 8 .hostHold))

theorem witness_ResetReports :
    ((on busy).driving 8 .reset ∧ busy.occupant (.bay 8) = some 8 ∧
      (busy.disc 8).map (·.stage) = some .rejectBound ∧ (busy.disc 8).map (·.verdict) = some .reject ∧
      (busy.bay 8).deadline = some 20000) ∧
    ((on (occupied busy 8 none)).driving 8 .reset ∧ (occupied busy 8 none).occupant (.bay 8) = none ∧
      (occupied busy 8 none).lowestFree = some 10) ∧
    ((on tableFull).driving 8 .reset ∧ tableFull.occupant (.bay 8) = none ∧ tableFull.lowestFree = none) ∧
    ((on resetting8).driving 8 .reset ∧ resetting8.disc 8 = some (inBay 8 .hostHold) ∧
      (inBay 8 .hostHold).stage = .hostHold ∧ (inBay 8 .hostHold).place = some (.bay 8) ∧
      (inBay 8 .hostHold).verdict ≠ .reject) ∧
    ((on (withBay 6 fun x => { x with recovering := true })).driving 6 .eject ∧
      ((withBay 6 fun x => { x with recovering := true }).bay 6).recovering = true ∧
      ((withBay 6 fun x => { x with recovering := true }).bay 6).deadline = some 20000) ∧
    ((on failing).driving 8 .reset ∧ (failing.bay 8).abortMark = true) := by
  refine ⟨?_, ?_, ?_, ?_, ?_, ?_⟩ <;> decide

/-! ## Witnesses: the store, the printer, the arbiter -/

/-- The read in flight on channel 0. -/
def read0 (n : Nat) : StoreRead := { id := 0, chunk := 1, attempt := n, deadline := 2000 }

/-- A stream and a survey at their third attempt. -/
def thirdAttempt : Part :=
  (busy.setChannel 0 (.recording { stream0 with read := some (read0 3) })).setChannel 2
    (.survey { survey2 with read := { survey2.read with attempt := 3 } })

theorem witness_DataArrives :
    ((on busy).link.resetLow = false ∧ busy.readOf 0 = some (read0 1) ∧ ([] : List Byte).length ≤ 65536 ∧
      busy.channel 0 = .recording stream0) ∧
    (busy.readOf 2 = some survey2.read ∧ busy.channel 2 = .survey survey2 ∧
      busy.image survey2.image = some image2 ∧ survey2.read.chunk + 1 ≠ image2.chunks) ∧
    ((busy.setChannel 2 (.survey { survey2 with read := { survey2.read with chunk := 9 } })).readOf 2 =
      some { survey2.read with chunk := 9 } ∧ 9 + 1 = image2.chunks) := by decide

theorem witness_StoreFailures :
    ((on busy).link.resetLow = false ∧ busy.readOf 0 = some (read0 1) ∧ busy.channel 0 = .recording stream0 ∧
      busy.image stream0.image = some image0 ∧ (read0 1).attempt < 3 ∧ image0.state = .ready) ∧
    (thirdAttempt.readOf 0 = some (read0 3) ∧ 3 ≤ (read0 3).attempt ∧
      thirdAttempt.channel 0 = .recording { stream0 with read := some (read0 3) } ∧
      (∀ m ∈ stream0.members, (thirdAttempt.bay m.bay).channel = some 0) ∧ stream0.members ≠ [] ∧
      thirdAttempt.occupant (.bay 3) = some 3 ∧ (thirdAttempt.disc 3).map (·.verdict) = some .pending ∧
      thirdAttempt.job 0 = some job0 ∧ job0.image = some stream0.image ∧ job0.state.started = true) ∧
    (busy.readOf 2 = some survey2.read ∧ busy.channel 2 = .survey survey2 ∧ survey2.read.attempt < 3) ∧
    (∃ v, thirdAttempt.channel 2 = .survey v ∧ 3 ≤ v.read.attempt) ∧
    (busy.stream 0 = some stream0 ∧ stream0.joinOver = false) := by
  refine ⟨by decide, by decide, by decide, ⟨_, rfl, by decide⟩, by decide⟩

/-- A stream that is not resident, past its join period. -/
def passing : Stream :=
  { stream0 with read := none, resident := false, joinOver := true, members := [other7, { last3 with position := 1 }] }

/-- A stream held with its slowest member 64 chunks behind. -/
def heldBack (requested : Bool) : Stream :=
  { stream0 with
    chunks := 100, read := none, resident := false, joinOver := true, head := 64, tail := 0
    members := [{ bay := 7, position := 64, driveReady := true }, { bay := 3, position := 0, driveReady := false }]
    splitRequested := requested }

/-- The tower with that stream, its image as long. -/
def held64 (requested : Bool) : Part :=
  { (busy.setImage 0 (some { image0 with blocks := 3200, chunks := 100 })).setChannel 0
      (.recording (heldBack requested)) with splitReqs := if requested then [0] else [] }

/-- The tower with bay 2 and bay 10 waiting for a new stream of image 0. -/
def requesting : Part :=
  { joining with streamReqs := [{ bay := 2, image := 0 }, { bay := 10, image := 0 }], channels := Vector.replicate 4 .free }

theorem witness_StreamEngine :
    ((busy.setChannel 0 (.recording passing)).channel 0 = .recording passing ∧
      busy.image passing.image = some image0 ∧ passing.read = none ∧ passing.head - passing.tail < 64 ∧
      passing.head < passing.chunks ∧ (∀ m ∈ passing.members, m.position ≤ passing.head) ∧
      passing.members ≠ [] ∧ passing.tail ≤ passing.head ∧ ∀ m ∈ passing.members, passing.tail ≤ m.position) ∧
    (busy.channel 0 = .recording stream0 ∧ stream0.read.isSome = true ∧ stream0.resident = true) ∧
    ((held64 false).channel 0 = .recording (heldBack false) ∧
      (heldBack false).slowest = some { bay := 3, position := 0, driveReady := false } ∧
      (heldBack false).head - (heldBack false).tail = 64 ∧ (heldBack false).head < (heldBack false).chunks ∧
      (held64 false).tower.splitOn = true ∧ (held64 false).tower.splitThreshold ≤ 64 ∧
      (heldBack false).splitRequested = false ∧ (heldBack true).splitRequested = true ∧
      ((held64 false).image 0).map (·.state) = some .ready) ∧
    ((requesting.image 0).isSome = true ∧ requesting.occupant (.bay 2) = some 2 ∧
      requesting.disc 2 = some joiner ∧ requesting.disc 0 = some disc0) ∧
    ((held64 true).stream 0 = some (heldBack true) ∧ (0 : Fin 4) ≠ 1 ∧
      (held64 true).splitReqs = [0] ∧ (held64 true).recordingChannel = some 1 ∧
      (held64 true).occupant (.bay 3) = some 3) ∧
    (requesting.splitReqs = [] ∧ requesting.bestRequest = some { bay := 2, image := 0 } ∧
      requesting.recordingChannel = some 0 ∧ requesting.imageReady 0 = true) ∧
    (busy.recordingChannel = some 1 ∧ busy.splitReqs = [] ∧ busy.bestRequest = none ∧
      ({ busy with surveyQueue := [1] } : Part).surveyQueue = [1] ∧ busy.surveyChannel = some 1 ∧
      (busy.image 1).isSome = true ∧ busy.surveyQueue = [] ∧ busy.tower.surveyReserve = false ∧
      quiet.channel 3 = .free) := by
  refine ⟨?_, ?_, ?_, ?_, ?_, ?_, ?_⟩ <;> decide

theorem witness_TemperatureGate :
    (on busy).link.resetLow = false ∧
      Instr.temperature 65 ∈ [Instr.temperature 65, .status true .ready 65,
        .labelDone { k := 0, c := 0, m := 0, y := 0 } 65, .labelFailed { k := 0, c := 0, m := 0, y := 0 } 65] ∧
      busy.station.gateOpen = true ∧ busy.station.critical = 65 ∧
      ({ busy.station with gateOpen := false } : Station).gateOpen = false := by decide

/-- A station with a QUERY in flight, the tray's disc in a stage or none. -/
def queried (st : Option Stage) : Part :=
  { busy with
    places := { busy.places with printer := st.map fun _ => 9 }
    discs := busy.discs.set 9 (st.map fun x => { disc9 with stage := x })
    station := { busy.station with
      state := .fault, faultCause := some .queryTimeout, labelDeadline := none, queryDeadline := some 5000 } }

/-- A station in FAULT with nothing in flight. -/
def faulted : Part :=
  { quiet with station := { quiet.station with state := .fault, faultCause := some .engine } }

theorem witness_PrinterQueries :
    ((on (queried none)).link.resetLow = false ∧ (queried none).station.queryDeadline = some 5000 ∧
      (queried none).occupant .printer = none ∧ (queried none).lowestFree = some 9) ∧
    (({ queried none with discs := Vector.replicate 24 (some disc9) } : Part).lowestFree = none) ∧
    ((queried (some .printing)).occupant .printer = some 9 ∧
      (queried (some .printing)).disc 9 = some { disc9 with stage := .printing } ∧
      (queried (some .hostHold)).disc 9 = some { disc9 with stage := .hostHold } ∧
      (queried (some .outbound)).disc 9 = some { disc9 with stage := .outbound } ∧
      (queried (some .outbound)).station.queryDeadline = some 5000) ∧
    ((on faulted).takes ∧ faulted.station.state = .fault ∧ faulted.station.queryDeadline = none) ∧
    busy.station.state ≠ .fault := by decide

/-- The amounts reserved for the tray's disc. -/
def reserved9 : Vector Nat 4 := #v[3370, 11067, 0, 5157]

/-- The tray's disc rejected while its label is printed. -/
def rejectedTray : Part := busy.setDisc 9 (some { disc9 with verdict := .reject, reason := some .cancelled })

theorem witness_Labels :
    (loadedTray.station.state = .loaded ∧ loadedTray.station.gateOpen = true ∧
      loadedTray.tower.state = .running ∧ loadedTray.station.labelDeadline = none ∧
      loadedTray.station.queryDeadline = none ∧ loadedTray.occupant .printer = some 9 ∧
      loadedTray.disc 9 = some disc9 ∧ disc9.verdict ≠ .reject ∧ disc9.job = some 1 ∧
      loadedTray.job 1 = some job1 ∧ job1.template = some 0 ∧ loadedTray.template 0 = some template0 ∧
      job1.serials.isSome = true ∧ job1.serialDigits = some 3 ∧ job0.serials = none) ∧
    busy.station.state ≠ .loaded ∧
    ((on busy).link.resetLow = false ∧ busy.occupant .printer = some 9 ∧ busy.disc 9 = some disc9 ∧
      disc9.stage = .printing ∧ disc9.reservation = some reserved9 ∧ busy.station.state = .printing ∧
      busy.station.labelDeadline = some 120000 ∧ (9 : Fin 24) ∉ busy.inkWait) ∧
    (rejectedTray.disc 9 = some { disc9 with verdict := .reject, reason := some .cancelled } ∧
      rejectedTray.station.state = .printing ∧ rejectedTray.occupant .printer = some 9) ∧
    faulted.station.state = .fault ∧ quiet.station.state = .offline := by decide

/-- The tower with the arm IDLE and ARM empty: disc 7 alone waits. -/
def idleArm : Part := { taking with arm := Arm.reset 0 }

/-- The tower with a disc found at ARM due out, and the arm IDLE. -/
def armFull : Part :=
  { (foundAtArm.setDisc 0 (some { found0 with stage := .outbound, eligible := some 0 })) with
    discs := (foundAtArm.discs.set 0 (some { found0 with stage := .outbound, eligible := some 0 })).set 7
      (some (inBay 7 .hostHold)) }

/-- A PRINT job's pick, the tray empty, and the ink for its label admitted or not. -/
def picking (ink : InkChannel) : Part :=
  { idleArm.setJob 0 (some { job0 with kind := .print, image := none, template := some 0 }) with
    station := { Station.reset with state := .empty }, ink := Vector.replicate 4 ink }

/-- That pick. -/
def printPick : Pick := { job := 0, spindle := .a, dest := .printer }

/-- The tower with the arm IDLE, and nothing to move: both sinks full, nothing queued for the printer. -/
def fullSinks (o : Option Pick) : Part :=
  { idleArm with
    offered := o, printQueue := []
    output := { idleArm.output with count := 100 }, bin := { idleArm.bin with count := 50 } }

/-- The pick of job 0 into bay 10. -/
def bayPick : Pick := { job := 0, spindle := .a, dest := .bay 10 }

/-- The four requests of R52: a REJECT_BOUND disc, an OUTBOUND one on the tray, the head of the print queue, an
OUTBOUND one in a bay. -/
def asking : Part :=
  { ((({ idleArm with places := { idleArm.places with printer := none } }.setBay 8 (bayIn .presenting none)).setDisc 8
      (some { inBay 8 .rejectBound with verdict := .reject, eligible := some 3 })).setBay 6
      (bayIn .presenting none)).setDisc 6 (some { inBay 6 .printQueued with eligible := some 4 }) with
    printQueue := [6], station := { Station.reset with state := .empty } }

/-- MoveRequests, PickSelector, and the arbiter's grant of an offered pick: their states. -/
theorem witness_PickSelector :
    (asking.request 8 = some (1, .bin) ∧ asking.request 6 = some (3, .printer) ∧
      asking.request 7 = some (4, .output) ∧
      (idleArm.setDisc 9 (some { disc9 with stage := .outbound, eligible := some 5 })).request 9 =
        some (2, .output)) ∧
    ((∀ r, (fullSinks (some bayPick)).request r = none) ∧ (fullSinks (some bayPick)).arm.state = .idle ∧
      (fullSinks (some bayPick)).tower.state = .running ∧ (fullSinks (some bayPick)).places.arm = none) ∧
    ((fullSinks none).offered = none ∧ (fullSinks none).bestPick = some bayPick ∧ 2 ≤ (fullSinks none).freeCount ∧
      quiet.bestPick = none) ∧
    ({ fullSinks none with discs := Vector.replicate 24 (some disc9) } : Part).freeCount < 2 ∧
    ((fullSinks (some bayPick)).job 0 = some job0 ∧ (fullSinks (some bayPick)).pickHolds bayPick = true ∧
      job0.delivered + job0.active < job0.ordered ∧ ((fullSinks (some bayPick)).spindle .a).offers job0.cls = true ∧
      ((fullSinks (some bayPick)).bay 10).takes job0.cls = true ∧
      ({ fullSinks (some bayPick) with arm := arm0 } : Part).pickHolds bayPick = false) := by
  refine ⟨?_, ?_, ?_, ?_, ?_⟩ <;> decide

theorem witness_ArmArbiter :
    (idleArm.arm.state = .idle ∧ idleArm.tower.state = .running ∧ idleArm.request 7 = some (4, .output) ∧
      idleArm.places.arm = none ∧ (∀ r : Fin 24, r ≠ 7 → idleArm.request r = none) ∧
      (idleArm.disc 7).bind (·.eligible) = some 0 ∧ (idleArm.disc 7).bind (·.place) = some (.bay 7)) ∧
    (armFull.arm.state = .idle ∧ (armFull.disc 0).bind (·.place) = some .arm ∧
      (armFull.request 0).map (·.2) = some .output ∧ (armFull.disc 0).bind (·.eligible) = some 0 ∧
      ∀ r : Fin 24, r ≠ 0 → armFull.request r = none) ∧
    (busy.arm.state ≠ .idle) ∧
    (idleArm.bestPick = some { job := 0, spindle := .a, dest := .bay 10 } ∧ idleArm.job 0 = some job0 ∧
      job0.kind ≠ .print ∧ idleArm.lowestFree = some 0 ∧ 2 ≤ idleArm.freeCount) ∧
    ((picking ink0).pickFor 0 = some printPick ∧ (picking ink0).admits template0 = true ∧
      (picking ink0).template 0 = some template0 ∧ (picking ink0).lowestFree = some 0 ∧
      2 ≤ (picking ink0).freeCount ∧ (picking { ink0 with level := 0 }).admits template0 = false ∧
      ((picking { ink0 with level := 0 }).job 0).bind (·.template) = some 0) ∧
    ({ idleArm with discs := Vector.replicate 24 (some disc9) } : Part).freeCount < 2 := by
  refine ⟨?_, ?_, ?_, ?_, ?_, ?_⟩ <;> decide

theorem witness_EvaluationsFrame :
    quiet.tower.state = .stopped ∧ quiet.tower.sweep = none ∧ (∀ c, quiet.channel c = .free) ∧
    quiet.streamReqs = [] ∧ quiet.splitReqs = [] ∧ quiet.surveyQueue = [] ∧
    quiet.offered = none ∧ (∀ x j, quiet.job x = some j → j.state ≠ .running) ∧
    (∀ b, (quiet.bay b).state ≠ .presenting) := by
  refine ⟨by decide, by decide, by decide, by decide, by decide, by decide, by decide,
    fun x => allSome _ (by revert x; decide), by decide⟩

/-! ## One step of the commands -/

set_option maxRecDepth 16000

/-- IDENTIFY after a reset, byte by byte (R183, R184). -/
theorem test_identify :
    lastReply (after (.identify 7) State.reset) =
      [1, 0x00, 7, 0x01, 14, 0x12, 0x0C, 1, 12, 4, 24, 16, 32, 0, 4, 16, 8, 0, 0xFF] := by decide

/-- A ninth request is not taken: LINK_OVERRUN (R175). -/
theorem test_overrun :
    (after (.identify 7) full).link.replies.length = 8 ∧
      (after (.identify 7) full).part.attn.isSet .linkOverrun = true := by decide

/-- A select that reads out the whole reply frees its slot (R175, R178). -/
theorem test_select_delivers :
    (after (.selectEnd [0, 0]) (selecting [[1, 2]] [1, 2] false)).link.replies = [] ∧
      (after (.selectEnd [0]) (selecting [[1, 2]] [1, 2] false)).link.replies = [[1, 2]] := by decide

/-- READ ATTENTION after a reset answers RESET_OCCURRED and clears it (R180, R182). -/
theorem test_read_attention :
    lastReply (after (.readAttention 1) State.reset) =
        [1, 0x00, 1, 0x11, 9, 1, 0, 0, 0, 0xFF, 0xFF, 0x07, 0, 0] ∧
      (after (.readAttention 1) State.reset).part.attn.flags = 0 ∧
      (after (.readAttention 1) State.reset).attnLow = false := by decide

/-- SPINDLE LOADED of 200 blanks is CLAMPED to 150 (R44). -/
theorem test_spindle_loaded :
    (after (.spindleLoaded 1 1 0 200) State.reset).part.spindleB.count = 150 ∧
      (after (.spindleLoaded 1 1 0 200) State.reset).part.spindleB.cls = .a ∧
      (lastReply (after (.spindleLoaded 1 1 0 200) State.reset))[5]? = some 150 := by decide

/-- REGISTER IMAGE of 257 blocks takes 2 segments and 1 page (R100, R101). -/
theorem test_register_image :
    ((after (.registerImage 1 16 257 0) State.reset).part.image 0).map (fun x => (x.chunks, x.segments, x.pages)) =
      some (9, 2, [0]) := by
  decide

/-- GRIPPED of a PICK takes one blank (R43). -/
theorem test_gripped : (after (.gripped 0) (on busy)).part.spindleA.count = 4 := by decide

/-- The second blank of a double feed is wasted (R43, R57). -/
theorem test_still_double :
    (after (.stillDouble 0) (on (separating busy.bin))).part.spindleA.wasted = 1 ∧
      (after (.stillDouble 0) (on (separating busy.bin))).part.spindleA.count = 4 := by decide

/-- The 50th disc in the REJECT BIN makes it full (R45). -/
theorem test_reject_full :
    (after (.done 0) (on (binning .single opBin))).part.bin.count = 50 ∧
      (after (.done 0) (on (binning .single opBin))).part.attn.isSet .rejectFull = true := by decide

/-- The door's opening halts the arm and pauses the tower (R58, R171). -/
theorem test_door :
    (after .doorOpen (on busy)).part.arm.halt = some .door ∧
      (after .doorOpen (on busy)).part.tower.state = .paused := by decide

/-- A DONE of the operation the door cut short places the disc, and the arm stays HALTED (R58). -/
theorem test_done_cut :
    (after (.done 0) (on (doored carrying))).part.occupant (.bay 0) = some 0 ∧
      (after (.done 0) (on (doored carrying))).part.arm.state = .halted := by decide

/-- A second GRIPPED takes no second blank; DOUBLE of a TRANSFER jams (R48). -/
theorem test_misfits :
    (after (.gripped 0) (on carrying)).part.spindleA.count = 5 ∧
      (after (.double 0) (on taking)).part.arm.halt = some .jam := by decide

/-- A disc delivered to a bay out of the installed set leaves the bay OFFLINE, its tray untouched (R64). -/
theorem test_done_uninstalled :
    ((after (.done 0) (on (uninstalled carryingRejected))).part.bay 0).state = .offline ∧
      (after (.done 0) (on (uninstalled carryingRejected))).part.occupant (.bay 0) = some 0 ∧
      ((after (.done 0) (on (uninstalled carryingRejected))).part.disc 0).map (·.eligible) = some none := by decide

/-- Of 82 entries for one bay a CLAMPED reply repeats the last alone, in a body of 9 bytes (R165, R184). -/
theorem test_superseded :
    lastReply (after (.configureTower 1 { noSettings with
        installed := some 0
        support := some (List.replicate 81 { bay := 3, supportA := 1, supportB := 2 } ++
          [{ bay := 3, supportA := 8, supportB := 0xFF }]) }) (on quiet)) =
      [1, 2, 1, 2, 9, 3, 0, 0, 0, 1, 1, 3, 8, 0xFF] := by decide

/-- A move timeout is a jam (R50, R61). -/
theorem test_move_timeout :
    (after .moveTimeout (on busy)).part.arm.halt = some .jam ∧ (after .moveTimeout (on busy)).part.now = 8000 := by
  decide

/-- The third FAIL among the last outcomes lowers the cap and empties the list (R93). -/
theorem test_learn_fail :
    ({ entry0 with recent := [.fail, .good, .fail] } : MediaEntry).learn .fail =
      { entry0 with cap := 3, recent := [], burns := 65535, fails := 1 } := by decide

/-- Sixteen GOODs raise it (R93). -/
theorem test_learn_good :
    (entry0.learn .good).cap = 5 ∧ (entry0.learn .good).recent = [] := by decide

/-- The last chunk acknowledged: CLOSE is sent and the stream ends (R119, R124). -/
theorem test_last_chunk :
    ((after (.chunkAck 3) (on (streaming [last3]))).part.bay 3).state = .finalizing ∧
      (after (.chunkAck 3) (on (streaming [last3]))).part.channel 0 = .free := by decide

/-- A refused medium is rejected MEDIA_REFUSED and its tray opens (R69, R90). -/
theorem test_media_refused :
    ((after (.identified 2 true 5 6 .a 40) (on busy)).part.disc 2).bind (·.reason) = some .mediaRefused ∧
      ((after (.identified 2 true 5 6 .a 40) (on busy)).part.bay 2).state = .openingTray := by decide

/-- The read that does not match is repeated once, then counted mismatched (R137, R138). -/
theorem test_read_error :
    ((after (.readError 5) (on busy)).part.context 5).bind (·.inHand) = some { segment := 0, attempt := 2 } ∧
      ((after (.readError 5) (on (reading 2 image300))).part.disc 5).bind (·.verify) =
        some { checked := 1, recovered := 0, mismatched := 1, firstMismatch := some 0 } := by decide

/-- A failed RESET faults the bay, and the disc's reason becomes BAY_FAULT (R4, R78). -/
theorem test_reset_failed :
    ((after (.resetFailed 8) (on busy)).part.disc 8).bind (·.reason) = some .bayFault ∧
      ((after (.resetFailed 8) (on busy)).part.bay 8).faultCause = some .resetFailed := by decide

/-- The temperature gate closes at *critical* and opens at *warning* (R146). -/
theorem test_gate :
    (after (.temperature 65) (on busy)).part.station.gateOpen = false ∧
      (after (.temperature 64) (on busy)).part.station.gateOpen = true := by decide

/-- Serials 994, 998, 002: three digits wrap (R155). -/
theorem test_serials :
    ((after (.temperature 40) (on loadedTray)).part.job 1).bind (·.serials) =
        some { first := 990, step := 4, issued := 2, next := 998 } ∧
      ((after (.temperature 40) (on (loadedTray.setJob 1 (some { job1 with
        serials := some { first := 990, step := 4, issued := 2, next := 998 } })))).part.job 1).bind (·.serials) =
        some { first := 990, step := 4, issued := 3, next := 2 } := by decide

/-- A label's DONE: each level falls by the drops' volume, rounded up (R156). -/
theorem test_label_done :
    ((after (.labelDone { k := 1, c := 125, m := 126, y := 0 } 40) (on busy)).part.inkChannel 0).level = 899999 ∧
      ((after (.labelDone { k := 1, c := 125, m := 126, y := 0 } 40) (on busy)).part.inkChannel 1).level = 899999 ∧
      ((after (.labelDone { k := 1, c := 125, m := 126, y := 0 } 40) (on busy)).part.inkChannel 2).level = 899998 ∧
      ((after (.labelDone { k := 1, c := 125, m := 126, y := 0 } 40) (on busy)).part.inkChannel 3).level = 900000 := by
  decide

/-- The third failed attempt of a stream's read faults the image and rejects its discs (R117). -/
theorem test_source_error :
    ((after (.storeError 0 0) (on thirdAttempt)).part.image 0).map (·.state) = some .faulted ∧
      ((after (.storeError 0 0) (on thirdAttempt)).part.disc 3).bind (·.reason) = some .sourceError := by decide

/-- On an empty queue the time goes on, or the earliest timer expires (log 1). -/
theorem test_time_base :
    (match step (on quiet) with | .next t => t.part.now | _ => 0) = 1 ∧
      (match step (on bayDue) with | .next t => (t.part.bay 1).state | _ => .open_) = .resetting := by decide

/-- A command waits its turn: the front of the queue runs, the rest stays. -/
theorem test_queue :
    (match step { State.reset with pending := [.rstNLow, .doorOpen] } with
      | .next t => (t.link.resetLow, t.pending) | _ => (false, [])) = (true, [.doorOpen]) := by decide

/-- The door's opening leaves an abort ABORTING, though it cuts the last arm operation (R170, R171). -/
theorem test_door_aborting :
    (after .doorOpen (on (aborting true false))).part.tower.state = .aborting ∧
      (after (.jammed 0) (on (aborting true false))).part.tower.state = .stopped := by decide

/-- The tower with a transfer from bay 7 under way, its bay resetting. -/
def resetLost : Part := taking.setBay 7 (bayIn .resetting (some .reset))

/-- A transfer's disc found LOST by its bay's RESET loses its move, and HOMED with a disc held finds a disc (R6,
R47, R60). -/
theorem test_lost_move :
    (after (.resetDone 7 false .opened) (on resetLost)).part.arm.move = none ∧
      ((after (.resetDone 7 false .opened) (on resetLost)).part.disc 7).map (·.stage) = some .rejected ∧
      ((after (.homed 0 true) (on (homing (occupied taking 7 none) none))).part.disc 0).map (·.stage) =
        some .hostHold := by decide

/-- Switches are by their position in R165's list: 00h is on, 01h off (R184). -/
theorem test_switch_codes :
    (after (.configureTower 1 { noSettings with autoRetire := some 0, splitSetting := some 1 })
        State.reset).part.tower.autoRetire = true ∧
      (after (.configureTower 1 { noSettings with autoRetire := some 0, splitSetting := some 1 })
        State.reset).part.tower.splitOn = false := by decide

/-- CHANGE JOB's body begins with its presence word (R184). -/
theorem test_change_job_frame :
    readFrame [0x31, 1, 6, 0x20, 0, 0, 0, 4, 2] = .request (.changeJob 1 4 { noChange with priority := some 2 }) := by
  decide

/-! ## Witnesses: replies, codes, and reports that do not fit -/

/-- DEFINE JOB: a number out of range; a code or a number outside, in each form; a template missing. -/
theorem witness_DefineJob_replies :
    ((on busy).takes ∧ kindOf ({ burnFields with ordered := 0 } : JobFields).kind = some .burn ∧
      ¬ 1 ≤ ({ burnFields with ordered := 0 } : JobFields).ordered.toNat) ∧
    (burnFields.kind = 1 ∧ 2 < ({ burnFields with verifyMode := 3 } : JobFields).verifyMode.toNat ∧
      31 < ({ burnFields with image := 32 } : JobFields).image.toNat) ∧
    (printFields.kind = 3 ∧ 1 < ({ printFields with cls := 2 } : JobFields).cls.toNat ∧
      1 < ({ printFields with inkPolicy := 2 } : JobFields).inkPolicy.toNat ∧
      7 < ({ printFields with template := 8 } : JobFields).template.toNat) ∧
    (({ printFields with template := 7 } : JobFields).template.toNat = (7 : Fin 8).val ∧
      busy.template 7 = none ∧ ¬ 1 < printFields.cls.toNat ∧ ¬ 1 < printFields.inkPolicy.toNat) := by decide

/-- CHANGE JOB: a code that names no value; values of a started job in range and out of it; a DEFINED job's
reject limit out of range; an image number that names no record; a template not defined. -/
theorem witness_ChangeJob_replies :
    changeCodesFit { noChange with kind := some 4 } = false ∧
    changeRedefines noChange = false ∧ changeRedefines { noChange with step := some 1 } = true ∧
    (job0.state.started = true ∧ (2 : Byte).toNat = stored 0 3 (some 2) job0.priority ∧
      (7 : Byte).toNat ≠ stored 0 3 (some 7) job0.priority) ∧
    (busy.job 3 = some job3 ∧ job3.state = .defined ∧
      changeCodesFit { noChange with rejectLimit := some 0 } = true ∧ ¬ 1 ≤ (0 : Byte).toNat ∧
      1 ≤ job3.ordered ∧ job3.ordered ≤ 9999) ∧
    (changeCodesFit { noChange with image := some 32 } = true ∧ (∀ n : Fin 32, (32 : Byte).toNat ≠ n.val)) ∧
    (changeCodesFit { toPrint with template := some 7 } = true ∧ busy.template 7 = none) := by decide

/-- StoreFailures: a member recording, and one rejected before. -/
theorem witness_StoreFailures_sent :
    ∀ d ∈ [inBay 3 .recording, { inBay 3 .recording with verdict := .reject }],
      let p := thirdAttempt.setDisc 3 (some d)
      (stream0.members.map fun m => m.bay).Nodup ∧ (∀ m ∈ stream0.members, m.bay = 3) ∧
        p.occupant (.bay 3) = some 3 ∧ p.disc 3 = some d ∧ d.place = some (.bay 3) ∧ (3 : Fin 24) ∉ p.inkWait ∧
        d.stage = .recording ∧ (p.bay 3).state = .writing ∧ (p.bay 3).operation.isSome = true := by decide

/-- A place with a disc and one without. -/
theorem witness_Lookups_places :
    busy.occupant (.bay 3) = some 3 ∧ (busy.disc 3).isSome = true ∧ quiet.occupant .arm = none := by decide

/-- UnansweredReports: a DONE of the cut PICK that has not reported GRIPPED. -/
theorem witness_UnansweredReports_cut :
    (on (doored busy)).cutShort pick0 ∧ pick0.order = .pick .a (.bay 0) ∧
      (doored busy).arm.move.map (·.gripped) = some false := by decide

/-- It is discarded: the move and the records stay (log 47). -/
theorem test_done_cut_ungripped :
    (after (.done 0) (on (doored busy))).part.arm = (doored busy).arm ∧
      (after (.done 0) (on (doored busy))).part.occupant .arm = some 0 := by decide

/-- REMOVE DISC at ARM of the pick's disc, not gripped, from a spindle of so many blanks. -/
def lastBlankOf (n : Nat) : Part :=
  let p := inTower busy .halted (some .running)
  { p with
    spindleA := { p.spindleA with count := n }
    arm := { p.arm with state := .halted, halt := some .jam, op := none } }

/-- The blank of a pick not gripped is counted, and the last one empties the spindle (R20, R43). -/
theorem test_remove_last_blank :
    (after (.removeDisc 1 0) (on (lastBlankOf 1))).part.attn.isSet .spindleEmpty = true ∧
      (after (.removeDisc 1 0) (on (lastBlankOf 2))).part.attn.isSet .spindleEmpty = false := by decide

/-- A BURN job's fields with *class* and *ink policy* absent. -/
def absentFields : JobFields := { burnFields with cls := 0xFF, inkPolicy := 0xFF }

/-- DEFINE JOB: an undefined code in a field that does not apply, for each kind, and the same field absent. -/
theorem witness_DefineJob_codes :
    (absentFields.kind = 1 ∧ absentFields.cls = 0xFF ∧ absentFields.inkPolicy = 0xFF ∧
      absentFields.verifyMode.toNat ≤ 2) ∧
    (1 < ({ absentFields with cls := 2 } : JobFields).cls.toNat ∧
      ({ absentFields with cls := 2 } : JobFields).cls ≠ 0xFF) ∧
    (({ printFields with verifyMode := 0xFF } : JobFields).kind = 3 ∧
      2 < ({ printFields with verifyMode := 3 } : JobFields).verifyMode.toNat) := by decide

/-- An undefined code refuses DEFINE JOB in a field that does not apply to the kind too; an absent one does not (R176,
R184; log 44). -/
theorem test_define_job_codes :
    (runRequest (.defineJob 1 absentFields) busy).2.status = .ok ∧
      (runRequest (.defineJob 1 { absentFields with cls := 2 }) busy).2.status = .outOfRange ∧
      (runRequest (.defineJob 1 { absentFields with inkPolicy := 2 }) busy).2.status = .outOfRange ∧
      (runRequest (.defineJob 1 { printFields with verifyMode := 3 }) busy).2.status = .outOfRange := by decide

end Sys2Proof.Machine.Tests
end

