-- ==== Sys2Proof/Proofs/JobStates.lean ====
section
/-! PROOF. START, PAUSE and RESUME JOB in every job state (R24, R28, R29, R36). -/

namespace Sys2Proof.Machine

variable {p : Part} {x : Fin 16} {j k : Job} {job : Byte}

/-! ## A request that is taken, and the job it names -/

/-- A request taken answers the records and the reply its meaning gives (R177). -/
theorem takeRequest_replied {s : State} {act : Part → Part × Answer} {q : Part} {a : Answer}
    (taken : s.takes) (code tag : Byte) (meaning : act s.part.fresh = (q, a)) :
    takeRequest code tag act s = .next (s.replied code tag a q) := by
  obtain ⟨low, free⟩ := taken
  rw [takeRequest_taken low free, meaning]
  rfl

/-- Job numbers 1 to 16 name the records in order (R21). -/
theorem jobIdx_eq_some_iff : jobIdx job = some x ↔ job.toNat = x.val + 1 := by
  have bound := x.isLt
  unfold jobIdx
  split
  · simp; omega
  · split
    · simp [Fin.ext_iff]; omega
    · simp; omega

/-- A request that names a held job acts on its record (R21). -/
theorem withJob_held (number : job.toNat = x.val + 1) (held : p.job x = some j)
    (f : Fin 16 → Job → Part → Part × Answer) : withJob job f p = f x j p := by
  simp only [withJob, jobIdx_eq_some_iff.2 number, held]

/-! ## The newest pick rank -/

/-- Of two writes of one job record the second stands. -/
@[simp] theorem Part.setJob_setJob (p : Part) (x : Fin 16) (a b : Option Job) :
    (p.setJob x a).setJob x b = p.setJob x b := by
  simp [Part.setJob]

/-- Replacing an element by one that the function takes to the same value changes no `filterMap`. -/
theorem filterMap_set_same {α β : Type} {f : α → Option β} {a b : α} (same : f b = f a) :
    ∀ {l : List α} {i : Nat}, l[i]? = some a → (l.set i b).filterMap f = l.filterMap f
  | [], _, h => by simp at h
  | c :: l, 0, h => by
    obtain rfl : c = a := by simpa using h
    simp [List.filterMap_cons, same]
  | c :: l, i + 1, h => by
    simp [List.filterMap_cons, filterMap_set_same same (l := l) (i := i) (by simpa using h)]

/-- Writing a job record keeps the pick ranks held, when its own stays (R36). -/
theorem pickRanks_setJob (held : p.job x = some j) (rank : k.lastPick = j.lastPick) :
    (p.setJob x (some k)).pickRanks = p.pickRanks := by
  have place : p.jobs.toList[x.val]? = some (some j) := by simpa [Part.job] using held
  simp only [Part.pickRanks, Part.setJob, Vector.toList_set]
  exact filterMap_set_same (by simpa using rank) place

/-- A job written and stamped holds the rank above every rank held before (R36). -/
theorem stampPick_setJob (held : p.job x = some j) (rank : k.lastPick = j.lastPick) :
    stampPick x (p.setJob x (some k)) =
      p.setJob x (some { k with lastPick := some (nextRank p.pickRanks) }) := by
  rw [stampPick, modJob_held (Part.setJob_self p x (some k)), Part.setJob_setJob,
    pickRanks_setJob held rank]

/-! ## The three requests, by the job's state -/

section Requests

variable (number : job.toNat = x.val + 1) (held : p.job x = some j)
include number held

/-- START JOB of a DEFINED job whose image, if it has one, is READY (R28). -/
theorem reqStartJob_ready (defined : j.state = .defined)
    (ready : ∀ i, j.image = some i → p.imageReady i = true) :
    reqStartJob job p = settled (p.setJob x (some { j with
      state := .running, lastPick := some (nextRank p.pickRanks) })) okay := by
  rw [reqStartJob, withJob_held number held, if_pos defined]
  cases image : j.image with
  | none => simp [stampPick_setJob held]
  | some i => simp [ready i image, stampPick_setJob held]

/-- START JOB of a DEFINED job whose image is not READY: it waits for the survey (R24, R28). -/
theorem reqStartJob_waiting (defined : j.state = .defined) {i : Fin 32} (image : j.image = some i)
    (waiting : p.imageReady i = false) :
    reqStartJob job p = settled (p.setJob x (some { j with
      state := .held, holds := { j.holds with imageNotReady := true }
      lastPick := some (nextRank p.pickRanks) })) okay := by
  rw [reqStartJob, withJob_held number held, if_pos defined]
  simp [image, waiting, stampPick_setJob held]

/-- START JOB of a job that is not DEFINED is refused (R28). -/
theorem reqStartJob_refused (other : j.state ≠ .defined) :
    reqStartJob job p = turnDown .badState p := by
  rw [reqStartJob, withJob_held number held, if_neg other]

/-- PAUSE JOB of a RUNNING or a HELD job (R29). -/
theorem reqPauseJob_runningOrHeld (going : j.state = .running ∨ j.state = .held) :
    reqPauseJob job p = settled (p.setJob x (some { j with state := .paused })) okay := by
  rw [reqPauseJob, withJob_held number held, if_pos going]

/-- PAUSE JOB of a job that is neither RUNNING nor HELD is refused (R29). -/
theorem reqPauseJob_refused (other : ¬ (j.state = .running ∨ j.state = .held)) :
    reqPauseJob job p = turnDown .badState p := by
  rw [reqPauseJob, withJob_held number held, if_neg other]

/-- RESUME JOB of a PAUSED job follows its hold reasons (R24, R29). -/
theorem reqResumeJob_paused (paused : j.state = .paused) :
    reqResumeJob job p = settled (p.setJob x (some { j with
      state := if j.holds.any then .held else .running })) okay := by
  rw [reqResumeJob, withJob_held number held, if_pos paused]

/-- RESUME JOB of a job that is not PAUSED is refused (R29). -/
theorem reqResumeJob_refused (other : j.state ≠ .paused) :
    reqResumeJob job p = turnDown .badState p := by
  rw [reqResumeJob, withJob_held number held, if_neg other]

end Requests

/-- Settles O30: the job's state decides each request, and a started job's rank is one above the ranks held
before, since the write that starts it keeps them. -/
theorem jobStates : Obligations.JobStates := by
  intro s tag job x j taken number held
  have held : s.part.fresh.job x = some j := held
  refine ⟨fun defined ready => ?_, fun defined i image waiting => ?_, fun other => ?_, fun going => ?_,
    fun notRunning notHeld => ?_, fun paused => ?_, fun other => ?_⟩
  · exact takeRequest_replied taken 0x32 tag (reqStartJob_ready number held defined ready)
  · exact takeRequest_replied taken 0x32 tag (reqStartJob_waiting number held defined image waiting)
  · exact takeRequest_replied taken 0x32 tag (reqStartJob_refused number held other)
  · exact takeRequest_replied taken 0x33 tag (reqPauseJob_runningOrHeld number held going)
  · exact takeRequest_replied taken 0x33 tag (reqPauseJob_refused number held (not_or.2 ⟨notRunning, notHeld⟩))
  · exact takeRequest_replied taken 0x34 tag (reqResumeJob_paused number held paused)
  · exact takeRequest_replied taken 0x34 tag (reqResumeJob_refused number held other)

end Sys2Proof.Machine
end

