-- ==== Sys2Proof/Proofs/InkArithmetic.lean ====
section
/-! PROOF. The ink a label needs (R149), its admission (R150) and the forecast (R160). -/

namespace Sys2Proof.Machine

variable {p : Part} {t : Template} {k : Fin 4}

/-- The list of the ink channels holds every one of them (R148). -/
theorem mem_allInks (k : Fin 4) : k ∈ allInks := by
  revert k
  decide

/-- An admission tests the channels the template uses, and no other (R150). -/
theorem admits_iff :
    p.admits t = true ↔ ∀ k, 0 < p.need t k → (p.need t k : Int) ≤ (p.inkChannel k).available := by
  simp only [Part.admits, List.all_eq_true, mem_allInks, true_implies, Bool.or_eq_true, beq_iff_eq,
    decide_eq_true_eq]
  refine forall_congr' fun k => ?_
  rw [Nat.pos_iff_ne_zero, or_iff_not_imp_left]

/-- A channel the template uses covers the labels its available ink is enough for (R160). -/
theorem covered_eq_some_iff {n : Nat} : p.covered t k = some n ↔
    0 < p.need t k ∧ (p.inkChannel k).available.toNat / p.need t k = n := by
  unfold Part.covered
  split
  · next unused => simp [unused]
  · next used => simp [Nat.pos_of_ne_zero used]

/-- The forecast is the least of 65535 and the labels that each used channel covers (R160). -/
theorem forecast_least : p.forecast t ∈ 65535 :: allInks.filterMap (p.covered t) ∧
    ∀ n ∈ 65535 :: allInks.filterMap (p.covered t), p.forecast t ≤ n :=
  List.min?_eq_some_iff.1 List.min?_cons'

/-- The forecast saturates (R160). -/
theorem forecast_le_saturated : p.forecast t ≤ 65535 :=
  forecast_least.2 _ List.mem_cons_self

/-- No used channel covers fewer labels than the forecast (R160). -/
theorem forecast_le_covered (used : 0 < p.need t k) :
    p.forecast t ≤ (p.inkChannel k).available.toNat / p.need t k :=
  forecast_least.2 _ <| List.mem_cons_of_mem _ <|
    List.mem_filterMap.2 ⟨k, mem_allInks k, covered_eq_some_iff.2 ⟨used, rfl⟩⟩

/-- The forecast below its saturation is what some used channel covers (R160). -/
theorem forecast_attained : p.forecast t = 65535 ∨
    ∃ k, 0 < p.need t k ∧ (p.inkChannel k).available.toNat / p.need t k = p.forecast t := by
  refine (List.mem_cons.1 forecast_least.1).imp_right fun covered => ?_
  obtain ⟨k, -, covers⟩ := List.mem_filterMap.1 covered
  exact ⟨k, covered_eq_some_iff.1 covers⟩

/-- The forecast's labels fit in the ink a used channel has available (R160). -/
theorem forecast_mul_need_le (used : 0 < p.need t k) :
    (p.forecast t * p.need t k : Int) ≤ max 0 (p.inkChannel k).available := by
  have fits := (Nat.le_div_iff_mul_le used).1 (forecast_le_covered used)
  have fitsInt : (p.forecast t * p.need t k : Int) ≤ (p.inkChannel k).available.toNat := by exact_mod_cast fits
  rwa [Int.toNat_eq_max, max_comm] at fitsInt

/-- One label more than the forecast does not fit in some used channel, unless it saturates (R160). -/
theorem forecast_short : p.forecast t = 65535 ∨
    ∃ k, 0 < p.need t k ∧
      max 0 (p.inkChannel k).available < ((p.forecast t + 1) * p.need t k : Int) := by
  refine forecast_attained.imp_right fun ⟨k, used, covers⟩ => ⟨k, used, ?_⟩
  have short : (p.inkChannel k).available.toNat < (p.forecast t + 1) * p.need t k := by
    rw [← covers, ← Nat.div_lt_iff_lt_mul used]
    exact Nat.lt_succ_self _
  have shortInt : ((p.inkChannel k).available.toNat : Int) < (p.forecast t + 1) * p.need t k := by
    exact_mod_cast short
  rwa [Int.toNat_eq_max, max_comm] at shortInt

/-- Rounding a quotient up adds one less than the divisor (R149). -/
theorem ceilDiv_eq {a b : Nat} (pos : 0 < b) : ceilDiv a b = (a + (b - 1)) / b := by
  rw [ceilDiv, Nat.add_sub_assoc pos]

/-- The printable area, with its squares (R149). -/
theorem area_eq (t : Template) : t.area = 355 * (t.outer ^ 2 - t.inner ^ 2) / 452 := by
  rw [Template.area, sq, sq]

/-- Settles O41: the needs are the spec's formulas, and the forecast is a least element of the labels covered. -/
theorem inkArithmetic : Obligations.InkArithmetic := by
  refine ⟨fun t k trim _ _ => ?_, fun p t => ⟨admits_iff, forecast_le_saturated,
    fun _ used => forecast_mul_need_le used, forecast_short⟩⟩
  extract_lets area dose base
  have area_is : t.area = area := area_eq t
  have dose_is : t.quality.dose = dose := by
    unfold dose Quality.dose
    cases t.quality <;> rfl
  have base_is : t.baseNeed k = base := by
    rw [Template.baseNeed, area_is, dose_is, ceilDiv_eq (by decide)]
    rfl
  exact ⟨area_is, by rw [Template.need, base_is, ceilDiv_eq (by decide)]⟩

end Sys2Proof.Machine
end

