-- ==== Sys2Proof/Proofs/TemperatureGate.lean ====
section
/-! PROOF. The temperature gate (R146): its rule, and that nothing else an event does, its evaluations included,
touches the head temperature, the gate or HEAD_HOT. -/

namespace Sys2Proof.Machine

variable {p q u : Part} {r : Fin 24} {x : Fin 16}

/-! ## What leaves the print head's part of the records alone -/

/-- The head temperature, the gate and HEAD_HOT are as they were (R146). -/
structure Part.KeepsHead (p q : Part) : Prop where
  temperature : q.station.headTemperature = p.station.headTemperature
  gate : q.station.gateOpen = p.station.gateOpen
  hot : q.attn.isSet .headHot = p.attn.isSet .headHot

theorem Part.KeepsHead.refl (p : Part) : p.KeepsHead p := ⟨rfl, rfl, rfl⟩

theorem Part.KeepsHead.trans (h : p.KeepsHead q) (h' : q.KeepsHead u) : p.KeepsHead u :=
  ⟨h'.temperature.trans h.temperature, h'.gate.trans h.gate, h'.hot.trans h.hot⟩

/-- A change of neither the station nor the flags. -/
theorem Part.Changes.keepsHead {fs : List Field} (h : p.Changes fs q) (station : .station ∉ fs := by decide)
    (attn : .attn ∉ fs := by decide) : p.KeepsHead q := by
  have sameStation : q.station = p.station := h .station station
  have sameFlags : q.attn = p.attn := h .attn attn
  exact ⟨by rw [sameStation], by rw [sameStation], by rw [sameFlags]⟩

/-- A fold of updates that each keep it. -/
theorem Part.KeepsHead.fold {α : Type} {op : Part → α → Part}
    (each : ∀ (q : Part) (a : α), q.KeepsHead (op q a)) (l : List α) (p : Part) : p.KeepsHead (l.foldl op p) := by
  induction l generalizing p with
  | nil => exact .refl p
  | cons a l ih => exact (each p a).trans (ih _)

/-- Raising another flag (R180). -/
theorem raise_keepsHead {f : Flag} (other : f ≠ .headHot) : p.KeepsHead (raise f p) :=
  ⟨rfl, rfl, by simp [raise, other.symm]⟩

theorem raiseIf_keepsHead {c : Bool} {f : Flag} (other : f ≠ .headHot) : p.KeepsHead (raiseIf c f p) := by
  cases c with
  | false => exact .refl p
  | true => exact raise_keepsHead other

/-! ## The ends of records and jobs -/

theorem writeReject_keepsHead {why : Reason} : p.KeepsHead (writeReject r why p) := by
  unfold writeReject
  split
  · exact .refl p
  · split
    · split
      · exact setDisc_changes.keepsHead
      · exact .refl p
    · exact setDisc_changes.keepsHead.trans (raise_keepsHead (by decide))

theorem endJob_keepsHead {st : JobState} : p.KeepsHead (endJob x st p) :=
  modJob_changes.keepsHead.trans (raise_keepsHead (by decide))

theorem closeIdle_keepsHead : p.KeepsHead (closeIdle x p) := by
  unfold closeIdle
  split
  · exact .refl p
  · split
    · split
      · exact endJob_keepsHead
      · exact endJob_keepsHead
      · exact .refl p
    · exact .refl p

theorem jobRejected_keepsHead {counts : Bool} : p.KeepsHead (jobRejected x counts p) := by
  unfold jobRejected
  extract_lets q
  have counted : p.KeepsHead q := modJob_changes.keepsHead
  clear_value q
  refine counted.trans ?_
  split
  · exact .refl _
  · split
    · exact modJob_changes.keepsHead.trans closeIdle_keepsHead
    · exact closeIdle_keepsHead

theorem finaliseReject_keepsHead : p.KeepsHead (finaliseReject r p) := by
  unfold finaliseReject
  split
  · exact .refl p
  · extract_lets q₁ q₂ q₃
    have ended : p.KeepsHead q₂ := leaveLabelUnit_changes.keepsHead.trans modDisc_changes.keepsHead
    refine (ended.trans ?_).trans autoRetire_changes.keepsHead
    clear_value q₂
    unfold q₃
    split
    · exact jobRejected_keepsHead
    · exact .refl _

theorem foundLost_keepsHead {pl : Place} : p.KeepsHead (foundLost pl r p) :=
  setOccupant_changes.keepsHead.trans <| writeReject_keepsHead.trans <|
    finaliseReject_keepsHead.trans forgetMove_changes.keepsHead

theorem createFound_keepsHead {pl : Place} : p.KeepsHead (createFound pl p).1 := by
  unfold createFound
  split
  · exact raise_keepsHead (by decide)
  · exact setDisc_changes.keepsHead.trans <| setOccupant_changes.keepsHead.trans (raise_keepsHead (by decide))

/-! ## The station -/

theorem enterStation_keepsHead {st : StationState} : p.KeepsHead (enterStation st p) := ⟨rfl, rfl, rfl⟩

theorem faultStation_keepsHead {c : StationFault} : p.KeepsHead (faultStation c p) := ⟨rfl, rfl, rfl⟩

theorem endQuery_keepsHead : p.KeepsHead (endQuery p) := ⟨rfl, rfl, rfl⟩

theorem orderLabel_keepsHead {j : Job} {t : Template} : p.KeepsHead (orderLabel r x j t p) := ⟨rfl, rfl, rfl⟩

theorem finishStation_keepsHead : p.KeepsHead (finishStation p) := by
  unfold finishStation
  refine .trans (enterStation_keepsHead (st := .finished)) ?_
  dsimp only
  split
  · split
    · exact .refl _
    · exact giveOrder_changes.keepsHead
  · exact .refl _

theorem trayFinding_keepsHead : p.KeepsHead (trayFinding p) := by
  unfold trayFinding
  refine .trans (createFound_keepsHead (pl := .printer)) ?_
  dsimp only
  split
  · exact finishStation_keepsHead
  · exact faultStation_keepsHead

theorem statusReady_keepsHead {present : Bool} : p.KeepsHead (statusReady present p) := by
  unfold statusReady
  split
  · split
    · exact trayFinding_keepsHead
    · exact enterStation_keepsHead
  · split
    · split
      · exact enterStation_keepsHead
      · exact finishStation_keepsHead
    · exact foundLost_keepsHead.trans enterStation_keepsHead

theorem settleInk_keepsHead {v : Vector Nat 4} : p.KeepsHead (settleInk r v p) :=
  unreserve_changes.keepsHead.trans <| eachInk_changes.keepsHead.trans <|
    (raiseIf_keepsHead (by decide)).trans retryPass_changes.keepsHead

theorem labelledDisc_keepsHead {failed : Bool} : p.KeepsHead (labelledDisc r failed p) := by
  unfold labelledDisc
  split
  · exact setStage_changes.keepsHead
  · split
    · exact writeReject_keepsHead.trans setStage_changes.keepsHead
    · exact writeGood_changes.keepsHead.trans setStage_changes.keepsHead

theorem payQuery_keepsHead : p.KeepsHead (payQuery p) := by
  unfold payQuery
  split
  · split
    · exact ⟨rfl, rfl, rfl⟩
    · exact .refl p
  · exact .refl p

/-- The end of a label by DONE or FAILED (R156). -/
theorem endLabel_keepsHead {v : Vector Nat 4} {failed : Bool} : p.KeepsHead (endLabel v failed none p) := by
  unfold endLabel
  extract_lets station q₁ q₂
  have limitCleared : p.KeepsHead q₁ := ⟨rfl, rfl, rfl⟩
  clear_value q₁
  refine (limitCleared.trans ?_).trans (finishStation_keepsHead.trans payQuery_keepsHead)
  unfold q₂
  split
  · exact settleInk_keepsHead.trans labelledDisc_keepsHead
  · exact .refl q₁

/-! ## The evaluations after an event -/

theorem enterTower_keepsHead {st : TowerState} : p.KeepsHead (enterTower st p) :=
  tower_changes.keepsHead.trans (raise_keepsHead (by decide))

theorem settleTower_keepsHead : p.KeepsHead (settleTower p) := by
  unfold settleTower
  extract_lets q
  have swept : p.KeepsHead q := .fold (fun _ _ => sweepFollow_changes.keepsHead) allBays p
  clear_value q
  refine swept.trans ?_
  split
  · split
    · split
      · exact tower_changes.keepsHead.trans enterTower_keepsHead
      · exact .refl _
    · exact enterTower_keepsHead
  · split
    · exact enterTower_keepsHead
    · exact .refl _
  · exact .refl _

theorem labelOrder_keepsHead : p.KeepsHead (labelOrder p) := by
  unfold labelOrder
  split
  · split
    · exact .refl p
    · split
      · exact .refl p
      · split
        · exact orderLabel_keepsHead
        · exact .refl p
  · exact .refl p

theorem beginSpell_keepsHead : p.KeepsHead (beginSpell p) := by
  unfold beginSpell
  split
  · exact .refl p
  · exact .trans (q := { p with heldSpell := true }) ⟨rfl, rfl, rfl⟩ (raise_keepsHead (by decide))

theorem selectPick_keepsHead : p.KeepsHead (selectPick p) := by
  unfold selectPick
  split
  · split
    · exact .refl p
    · split
      · exact offered_changes.keepsHead
      · exact beginSpell_keepsHead
  · exact .refl p

theorem grantPick_keepsHead {k : Pick} : p.KeepsHead (grantPick k p) := by
  unfold grantPick
  extract_lets q t admitted
  have dropped : p.KeepsHead q := offered_changes.keepsHead
  clear_value admitted t q
  refine dropped.trans ?_
  split
  · split
    · split
      · exact issuePick_changes.keepsHead
      · exact beginSpell_keepsHead
    · exact beginSpell_keepsHead
  · exact .refl q

theorem grantArm_keepsHead : p.KeepsHead (grantArm p) := by
  unfold grantArm
  split
  · split
    · exact grantMove_changes.keepsHead
    · split
      · split
        · exact grantPick_keepsHead
        · exact .refl p
      · exact .refl p
  · exact .refl p

theorem forecastJob_keepsHead : p.KeepsHead (forecastJob x p) := by
  unfold forecastJob
  dsimp only
  split
  · exact .refl p
  · split
    · exact .refl p
    · split
      · split
        · split
          · exact shortSet_changes.keepsHead
          · exact .refl p
        · split
          · exact shortSet_changes.keepsHead.trans (raise_keepsHead (by decide))
          · exact .refl p
      · exact .refl p

theorem settleArm_keepsHead : p.KeepsHead (settleArm p) :=
  checkOffer_changes.keepsHead.trans (selectPick_keepsHead.trans grantArm_keepsHead)

theorem forecastAll_keepsHead : p.KeepsHead (forecastAll p) :=
  .fold (fun _ _ => forecastJob_keepsHead) allJobs p

/-- The evaluations after an event leave the head, the gate and HEAD_HOT alone (R146; log 15). -/
theorem settle_keepsHead : p.KeepsHead (settle p) := by
  unfold settle
  exact settleTower_keepsHead.trans <| settleStreams_changes.keepsHead.trans <| labelOrder_keepsHead.trans <|
    trayRules_changes.keepsHead.trans <| settleArm_keepsHead.trans forecastAll_keepsHead

/-! ## The gate -/

/-- A head temperature taken is one update of the station and the flags (R145, R146). -/
theorem takeTemperature_eq (t : Nat) (p : Part) : takeTemperature t p = p.heated t := by
  unfold takeTemperature Part.heated
  rw [raiseIf_eq]
  cases p.station.gateOpen <;> simp

/-- An OPEN gate closes at *critical* and above, and that raises HEAD_HOT (R146). -/
theorem heated_open (t : Nat) (isOpen : p.station.gateOpen = true) :
    ((p.heated t).station.gateOpen = true ↔ t < p.station.critical) ∧
      (p.station.critical ≤ t → (p.heated t).attn = p.attn.raise .headHot p.now) ∧
      (t < p.station.critical → (p.heated t).attn = p.attn) := by
  refine ⟨by simp [Part.heated, isOpen], fun hot => ?_, fun cool => ?_⟩
  · simp [Part.heated, isOpen, hot]
  · simp [Part.heated, isOpen, Nat.not_le.2 cool]

/-- A CLOSED gate opens at *warning* and below, and that raises nothing (R146). -/
theorem heated_closed (t : Nat) (closed : p.station.gateOpen = false) :
    ((p.heated t).station.gateOpen = true ↔ t ≤ p.station.warning) ∧ (p.heated t).attn = p.attn := by
  simp [Part.heated, closed]

/-! ## The reports that carry a head temperature -/

/-- What answers a STATUS leaves the temperature and the gate as the report set them (R145, R158). -/
theorem takeStatus_keepsHead (present : Bool) (c : Condition) (t : Nat) :
    (p.heated t).KeepsHead (takeStatus present c t p) := by
  unfold takeStatus
  rw [takeTemperature_eq]
  dsimp only
  split
  · split
    · exact endQuery_keepsHead.trans faultStation_keepsHead
    · exact endQuery_keepsHead.trans statusReady_keepsHead
  · exact .refl _

/-- What ends a label leaves the temperature and the gate as the report set them (R145, R156). -/
theorem takeLabel_keepsHead (failed : Bool) (n : Drops) (t : Nat) :
    (p.heated t).KeepsHead (takeLabel failed n t p) := by
  unfold takeLabel
  rw [takeTemperature_eq]
  dsimp only
  split
  · exact endLabel_keepsHead
  · exact .refl _

/-- An event whose own effect is a head temperature and what keeps it. -/
theorem takeEvent_heated {s : State} {t : Nat} {f : Part → Part} (low : s.link.resetLow = false)
    (effect : (s.part.fresh.heated t).KeepsHead (f s.part.fresh)) :
    ∃ u, takeEvent (fun p => settle (f p)) s = .next u ∧
      u.part.station.headTemperature = t ∧
      u.part.station.gateOpen = (s.part.heated t).station.gateOpen ∧
      u.part.attn.isSet .headHot = (s.part.heated t).attn.isSet .headHot := by
  have kept := effect.trans (settle_keepsHead (p := f s.part.fresh))
  rw [takeEvent_live low]
  generalize settle (f s.part.fresh) = q at kept
  exact ⟨_, rfl, kept.temperature, kept.gate, kept.hot⟩

/-- Settles O56: each report's own effect is the head temperature and what leaves it alone, and so are the
evaluations after it. -/
theorem temperatureGate : Obligations.TemperatureGate := by
  intro s t low
  refine ⟨?_, fun present c n i carries => ?_, fun p => ⟨rfl, heated_open t, heated_closed t⟩⟩
  · rw [exec_temperature, takeEvent_live low, takeTemperature_eq]
    rfl
  · simp only [List.mem_cons, List.not_mem_nil, or_false] at carries
    obtain rfl | rfl | rfl | rfl := carries
    · exact takeEvent_heated low (takeTemperature_eq t s.part.fresh ▸ .refl _)
    · exact takeEvent_heated low (takeStatus_keepsHead present c t)
    · exact takeEvent_heated low (takeLabel_keepsHead false n t)
    · exact takeEvent_heated low (takeLabel_keepsHead true n t)

end Sys2Proof.Machine
end

