-- ==== Sys2Proof/Proofs/AttentionRequests.lean ====
section
/-! PROOF. SET ATTENTION and READ ATTENTION, taken by the link unit (R181, R182). -/

namespace Sys2Proof.Machine

variable {p : Part} {code : Byte} {m : AttnMode}

/-! ## The mode and its code -/

/-- The mode codes are LEVEL 00h and PULSE 01h (R182). -/
theorem attnModeOf_eq_some_iff :
    attnModeOf code = some m ↔ (code = 0 ∧ m = .level) ∨ (code = 1 ∧ m = .pulse) := by
  unfold attnModeOf
  split
  case isTrue level => subst level; simp [eq_comm]
  case isFalse notLevel =>
    split
    case isTrue pulse => subst pulse; simp [eq_comm]
    case isFalse notPulse => simp only [notLevel, notPulse, false_and, or_self, reduceCtorEq]

/-- A code of neither mode names none (R182). -/
theorem attnModeOf_eq_none (notLevel : code ≠ 0) (notPulse : code ≠ 1) : attnModeOf code = none := by
  rw [attnModeOf, if_neg notLevel, if_neg notPulse]

/-- The mode's byte in a reply body is its code (R182). -/
theorem u8_attnModeCode (m : AttnMode) : u8 m.code = [if m = .level then 0 else 1] := by
  cases m <;> rfl

/-! ## The two requests -/

/-- SET ATTENTION of a mode's code stores the enables and the mode, and answers OK (R182). -/
theorem reqSetAttention_mode (named : attnModeOf code = some m) (e : Word32) :
    reqSetAttention e code p = ({ p with attn := p.attn.store (e.setWidth 19) m }, okay) := by
  simp only [reqSetAttention, named]

/-- SET ATTENTION of a code of no mode is refused (R182). -/
theorem reqSetAttention_noMode (unnamed : attnModeOf code = none) (e : Word32) :
    reqSetAttention e code p = turnDown .outOfRange p := by
  simp only [reqSetAttention, unnamed]

/-- READ ATTENTION answers the registers as they stand and clears the flags alone (R181, R182). -/
theorem reqReadAttention_eq (p : Part) :
    reqReadAttention p = ({ p with attn := { p.attn with flags := 0 } },
      { status := .ok
        body := u32 p.attn.flags.toNat ++ u32 p.attn.enables.toNat ++
          [if p.attn.mode = .level then 0 else 1] }) := by
  rw [reqReadAttention, attentionBody, u8_attnModeCode]
  rfl

/-- Settles O15: the mode's code decides SET ATTENTION, and READ ATTENTION replies before it clears. -/
theorem attentionRequests : Obligations.AttentionRequests := by
  intro s tag taken
  refine ⟨fun e code m named => ?_, fun e code notLevel notPulse => ?_, ?_⟩
  · exact takeRequest_replied taken 0x10 tag (reqSetAttention_mode (attnModeOf_eq_some_iff.2 named) e)
  · exact takeRequest_replied taken 0x10 tag
      (reqSetAttention_noMode (attnModeOf_eq_none notLevel notPulse) e)
  · exact takeRequest_replied taken 0x11 tag (reqReadAttention_eq s.part.fresh)

end Sys2Proof.Machine
end

