-- ==== Sys2Proof/Proofs/Commands.lean ====
section
/-! PROOF. What every command answers: a next state with the queue's rest, the link's queues in their slots and
the memories in canonical form (R173 to R178; log 13). -/

namespace Sys2Proof.Machine

variable {p : Part} {s t u : State} {i : Instr}

/-! ## Steps that keep the queue and the form of the link -/

/-- `t` has the queue of `s`, and keeps the form of the link and the memories. -/
structure State.Follows (s t : State) : Prop where
  pending : t.pending = s.pending
  form : s.LinkOk → t.LinkOk

theorem State.Follows.refl (s : State) : s.Follows s := ⟨rfl, id⟩

theorem State.Follows.trans (h : s.Follows t) (h' : t.Follows u) : s.Follows u :=
  ⟨h'.pending.trans h.pending, h'.form ∘ h.form⟩

/-- A change of the records alone. -/
theorem State.Follows.records (s : State) (q : Part) : s.Follows { s with part := q } := ⟨rfl, id⟩

/-- A link whose request queue is as it was, with no more replies. -/
theorem State.Follows.linked {l : Link} {q : Part} (requests : l.requests = s.link.requests)
    (replies : l.replies.length ≤ s.link.replies.length) : s.Follows { s with link := l, part := q } :=
  ⟨rfl, fun ⟨empty, fits, memories⟩ => ⟨requests.trans empty, replies.trans fits, memories⟩⟩

/-- One reply more, in a free slot (R175, R177). -/
theorem State.Follows.answered (free : s.link.slotFree = true) (reply : List Byte) (q : Part) :
    s.Follows { s with part := q, link := { s.link with replies := s.link.replies ++ [reply] } } := by
  refine ⟨rfl, fun ⟨empty, _, memories⟩ => ⟨empty, ?_, memories⟩⟩
  have room : s.link.requests.length + s.link.replies.length < 8 := of_decide_eq_true free
  simp only [List.length_append, List.length_singleton]
  omega

theorem takeEvent_follows (f : Part → Part) (s : State) : ∃ t, takeEvent f s = .next t ∧ s.Follows t := by
  unfold takeEvent
  split
  · exact ⟨s, rfl, .refl s⟩
  · exact ⟨_, rfl, .records s _⟩

theorem takeRequest_follows (code tag : Byte) (act : Part → Part × Answer) (s : State) :
    ∃ t, takeRequest code tag act s = .next t ∧ s.Follows t := by
  unfold takeRequest
  split
  · exact ⟨s, rfl, .refl s⟩
  · split
    case isTrue free => exact ⟨_, rfl, .answered free _ _⟩
    case isFalse => exact ⟨_, rfl, .records s _⟩

/-- The frame taken is queued and executed at once, on an empty request queue (R176, R177). -/
theorem executeOldest_enqueue {frame : List Byte} (empty : s.link.requests = []) :
    executeOldest (enqueue frame s) = answer (frame.getD 0 0) (frame.getD 1 0) (runFrame frame) s := by
  simp [executeOldest, enqueue, answer, empty]

theorem executeOldest_pending (s : State) : (executeOldest s).pending = s.pending := by
  unfold executeOldest
  split <;> rfl

theorem takeInput_follows (input : List Byte) (s : State) : s.Follows (takeInput input s) := by
  unfold takeInput
  split
  · exact .refl s
  · split
    · exact .refl s
    · split
      · exact .records s _
      · split
        · exact .records s _
        case isFalse free _ =>
          refine ⟨executeOldest_pending _, fun ok => ?_⟩
          rw [executeOldest_enqueue ok.1]
          exact (State.Follows.answered (by simpa using free) _ _).form ok

/-- A reply read out whole leaves its queue; the request queue stays (R175, R178). -/
theorem dropDelivered_requests (x : Select) (n : Nat) (l : Link) :
    (dropDelivered x n l).requests = l.requests := by
  unfold dropDelivered
  split <;> rfl

theorem dropDelivered_replies (x : Select) (n : Nat) (l : Link) :
    (dropDelivered x n l).replies.length ≤ l.replies.length := by
  unfold dropDelivered
  split
  · simp
  · exact Nat.le_refl _

theorem execSelectBegin_follows (s : State) : ∃ t, execSelectBegin s = .next t ∧ s.Follows t := by
  refine ⟨_, rfl, ?_⟩
  split
  · exact .refl s
  · exact .linked rfl (Nat.le_refl _)

theorem execSelectEnd_follows (bytes : List Byte) (s : State) :
    ∃ t, execSelectEnd bytes s = .next t ∧ s.Follows t := by
  have ended : s.Follows { s with link := { s.link with select := none }, part := s.part.fresh } :=
    .linked rfl (Nat.le_refl _)
  refine ⟨_, rfl, ?_⟩
  dsimp only
  split
  · exact ended
  · split
    · exact ended.trans (takeInput_follows _ _)
    · split
      · exact ended
      · refine .trans (.linked ?_ ?_) (takeInput_follows _ _)
        · exact dropDelivered_requests _ _ _
        · exact dropDelivered_replies _ _ _

/-- DATA writes the buffer and the digests, and nothing of the link (R106, R117). -/
theorem execData_follows (c : Fin 4) (id : Nat) (bytes : List Byte) (s : State) :
    ∃ t, execData c id bytes s = .next t ∧ s.Follows t := by
  have stored : s.Follows
      (if s.link.resetLow then s else { s with memory := storeData s.part c id bytes s.memory }) := by
    split
    · exact .refl s
    · exact ⟨rfl, fun ⟨empty, fits, memories⟩ => ⟨empty, fits, storeData_wf _ _ _ _ memories⟩⟩
  obtain ⟨t, taken, follows⟩ := takeEvent_follows
    (fun p => if p.answers c id then settle (takeData c id p) else p) _
  exact ⟨t, taken, stored.trans follows⟩

theorem moveDoor_follows (isOpen : Bool) (f : Part → Part) (s : State) :
    ∃ t, moveDoor isOpen f s = .next t ∧ s.Follows t := by
  obtain ⟨t, taken, follows⟩ := takeEvent_follows (fun p => settle (f p))
    { s with part := { s.part with doorOpen := isOpen } }
  exact ⟨t, taken, .trans (.records s _) follows⟩

/-- Every command answers a next state that follows the state it is taken in. -/
theorem exec_follows (i : Instr) (s : State) : ∃ t, exec i s = .next t ∧ s.Follows t := by
  cases row : requestBody i with
  | some x =>
    obtain ⟨code, body⟩ := x
    rw [exec_request row]
    exact takeRequest_follows _ _ _ _
  | none =>
    obtain rfl | ⟨bytes, rfl⟩ | rfl | rfl | rfl | rfl | ⟨c, id, bytes, rfl⟩ | ⟨f, event⟩ :=
      exec_event i s.memory row
    · exact execSelectBegin_follows s
    · exact execSelectEnd_follows bytes s
    · exact ⟨_, rfl, .linked rfl (Nat.le_refl _)⟩
    · exact ⟨_, rfl, rfl, fun ⟨_, _, memories⟩ => ⟨rfl, Nat.zero_le _, memories⟩⟩
    · exact moveDoor_follows _ _ _
    · exact moveDoor_follows _ _ _
    · exact execData_follows c id bytes s
    · rw [event s rfl]
      exact takeEvent_follows f s

/-! ## The queue -/

/-- Settles O1: the front of the queue is the first case of the step. -/
theorem stepRunsTheFrontCommand : Obligations.StepRunsTheFrontCommand := fun _ _ _ => rfl

/-- Settles O3: every command's next state follows the state it is taken in. -/
theorem everyCommandAnswersNext : Obligations.EveryCommandAnswersNext := fun i s =>
  let ⟨t, next, follows⟩ := exec_follows i s
  ⟨t, next, follows.pending⟩

/-- A step is a command of the queue, an expiry on the empty queue, or 1 ms (log 1). -/
theorem step_cases (s : State) : (∃ c rest, s.pending = c :: rest ∧ step s = exec c { s with pending := rest }) ∨
    (∃ c, s.dueExpiry = some c ∧ step s = exec c s) ∨ step s = .next (tick s) := by
  unfold step
  split
  case h_1 c rest queued => exact .inl ⟨c, rest, queued, rfl⟩
  case h_2 =>
    split
    case h_1 c due => exact .inr (.inl ⟨c, due, rfl⟩)
    case h_2 => exact .inr (.inr rfl)

/-- What a command's next state keeps, given by name. -/
theorem State.Follows.of_exec (next : exec i s = .next t) : s.Follows t := by
  obtain ⟨u, next', follows⟩ := exec_follows i s
  rw [next, Host.Outcome.next.injEq] at next'
  exact next' ▸ follows

theorem tick_link (s : State) : (tick s).link = s.link ∧ (tick s).memory = s.memory := by
  unfold tick
  split <;> exact ⟨rfl, rfl⟩

/-- Settles O10: a step runs one command, which keeps the form, or lets the time pass. -/
theorem linkAndMemoryKeepTheirForm : Obligations.LinkAndMemoryKeepTheirForm := by
  intro s t ok stepped
  obtain ⟨c, rest, -, run⟩ | ⟨c, -, run⟩ | pass := step_cases s
  · exact (State.Follows.of_exec (s := { s with pending := rest }) (run ▸ stepped)).form ok
  · exact (State.Follows.of_exec (run ▸ stepped)).form ok
  · obtain ⟨link, memory⟩ := tick_link s
    obtain rfl : tick s = t := by rwa [pass, Host.Outcome.next.injEq] at stepped
    rw [State.LinkOk, link, memory]
    exact ok

end Sys2Proof.Machine
end

