-- ==== Sys2Proof/Proofs/Resets.lean ====
section
/-! PROOF. The device reset: what it leaves, that the invariants hold after it, and what RST_N low takes (R173). -/

namespace Sys2Proof.Machine

variable {s : State} {i : Instr}

/-! ## The values after a device reset -/

/-- The bays after a device reset (R63). -/
@[simp] theorem reset_bay (doorOpen : Bool) (n k : Nat) (b : Fin 12) :
    (Part.reset doorOpen n k).bay b = Bay.reset := by
  simp [Part.bay, Part.reset]

@[simp] theorem reset_disc (doorOpen : Bool) (n k : Nat) (r : Fin 24) :
    (Part.reset doorOpen n k).disc r = none := by
  simp [Part.disc, Part.reset]

@[simp] theorem reset_job (doorOpen : Bool) (n k : Nat) (x : Fin 16) :
    (Part.reset doorOpen n k).job x = none := by
  simp [Part.job, Part.reset]

@[simp] theorem reset_image (doorOpen : Bool) (n k : Nat) (i : Fin 32) :
    (Part.reset doorOpen n k).image i = none := by
  simp [Part.image, Part.reset]

@[simp] theorem reset_entry (doorOpen : Bool) (n k : Nat) (e : Fin 16) :
    (Part.reset doorOpen n k).entry e = none := by
  simp [Part.entry, Part.reset]

@[simp] theorem reset_template (doorOpen : Bool) (n k : Nat) (t : Fin 8) :
    (Part.reset doorOpen n k).template t = none := by
  simp [Part.template, Part.reset]

@[simp] theorem reset_channel (doorOpen : Bool) (n k : Nat) (c : Fin 4) :
    (Part.reset doorOpen n k).channel c = .free := by
  simp [Part.channel, Part.reset]

@[simp] theorem reset_context (doorOpen : Bool) (n k : Nat) (b : Fin 12) :
    (Part.reset doorOpen n k).context b = none := by
  simp [Part.context, Part.reset]

@[simp] theorem reset_inkChannel (doorOpen : Bool) (n k : Nat) (c : Fin 4) :
    (Part.reset doorOpen n k).inkChannel c =
      { level := 0, floor := 500000, reserved := 0, dropVolume := 8, trim := 0 } := by
  simp [Part.inkChannel, Part.reset]

@[simp] theorem reset_occupant (doorOpen : Bool) (n k : Nat) (pl : Place) :
    (Part.reset doorOpen n k).occupant pl = none := by
  cases pl <;> simp [Part.occupant, Part.reset]

/-- Settles O16: each register's value, by the lemma of its block. -/
theorem resetValues : Obligations.ResetValues := by
  unfold Obligations.ResetValues State.reset
  refine ⟨rfl, rfl, reset_disc _ _ _, rfl, reset_job _ _ _, rfl, reset_image _ _ _, reset_entry _ _ _,
    reset_template _ _ _, reset_channel _ _ _, reset_context _ _ _, reset_occupant _ _ _, rfl, rfl, rfl, rfl,
    rfl, rfl, rfl, rfl, fun b => ?_, rfl, rfl, rfl, rfl, rfl, rfl, rfl, rfl, rfl, rfl, rfl, rfl, rfl, rfl, rfl,
    rfl, fun k => ?_, rfl, rfl, rfl, rfl, rfl, rfl, rfl, rfl, rfl, rfl, rfl, rfl, rfl, rfl, rfl, rfl, rfl⟩
  · rw [reset_bay]
    repeat' constructor
  · rw [reset_inkChannel]
    repeat' constructor

/-! ## The invariants -/

/-- No cause is held after a device reset (R47, R63, R144, R164). -/
theorem reset_causesOk (doorOpen : Bool) (n k : Nat) : (Part.reset doorOpen n k).CausesOk where
  bays b := by rw [reset_bay]; simp [Bay.reset]
  station := by simp [Part.reset, Station.reset]
  arm := by simp [Part.reset, Arm.reset]
  tower := by simp [Part.reset, Tower.reset]

/-- Every setting is in its range after a device reset (R43, R45, R63, R85, R144, R148, R165). -/
theorem reset_rangesOk (doorOpen : Bool) (n k : Nat) : (Part.reset doorOpen n k).RangesOk where
  media e x held := by simp at held
  defaultCap := by simp [Part.reset]
  spindles s := by cases s <;> simp [Part.reset, Part.spindle, Spindle.ok]
  output := by simp [Part.reset]
  bin := by simp [Part.reset]
  jobs x j held := by simp at held
  bays b := by rw [reset_bay]; simp [Bay.reset, Bay.countsOk]
  support b := by rw [reset_bay]; simp [Bay.reset, Bay.supportOk]
  ink k := by rw [reset_inkChannel]; simp [InkChannel.ok]
  templates t x held := by simp at held
  tower := by constructor <;> simp [Part.reset, Tower.reset]
  gate := by simp [Part.reset, Station.reset, Station.limitsOk]

/-- Settles O13: a device reset leaves the queues and the memories empty, no cause, and the settings of R165. -/
theorem invariantsHoldAtReset : Obligations.InvariantsHoldAtReset :=
  ⟨⟨rfl, Nat.zero_le _, reset_memory_wf⟩, reset_causesOk _ _ _, reset_rangesOk _ _ _⟩

/-! ## RST_N -/

/-- While RST_N is low every command but the selects, the pins' edges and the door is discarded (R173). -/
theorem exec_low (low : s.link.resetLow = true) (begins : i ≠ .selectBegin) (ends : ∀ bytes, i ≠ .selectEnd bytes)
    (falls : i ≠ .rstNLow) (rises : i ≠ .rstNRise) (opens : i ≠ .doorOpen) (closes : i ≠ .doorClosed) :
    exec i s = .next s := by
  cases row : requestBody i with
  | some x =>
    obtain ⟨code, body⟩ := x
    rw [exec_request row, takeRequest_low low]
  | none =>
    obtain h | ⟨bytes, h⟩ | h | h | h | h | ⟨c, id, bytes, rfl⟩ | ⟨f, event⟩ := exec_event i s.memory row
    · exact absurd h begins
    · exact absurd h (ends bytes)
    · exact absurd h falls
    · exact absurd h rises
    · exact absurd h opens
    · exact absurd h closes
    · rw [exec_data, if_pos low, takeEvent_low low]
    · rw [event s rfl, takeEvent_low low]

/-- The door's pin moves while RST_N is low, and nothing else (R173). -/
theorem moveDoor_low (low : s.link.resetLow = true) (isOpen : Bool) (f : Part → Part) :
    moveDoor isOpen f s = .next (s.became { s.part with doorOpen := isOpen }) :=
  takeEvent_low (s := s.became { s.part with doorOpen := isOpen }) low

/-- The records at the rise of RST_N with the door closed (R173). -/
theorem afterRise_closed {p : Part} (closed : p.doorOpen = false) :
    p.afterRise = Part.reset false p.arm.opCount p.readCount := by
  simp [Part.afterRise, closed]

/-- The records at the rise of RST_N with the door open: DOOR is reported at once (R58, R173). -/
theorem afterRise_open {p : Part} (isOpen : p.doorOpen = true) :
    p.afterRise = { State.reset.part with
      doorOpen := true, readCount := p.readCount
      attn := { State.reset.part.attn with flags := 0x101 }
      arm := { State.reset.part.arm with
        state := .halted, halt := some .door, opCount := p.arm.opCount, liveFrom := p.arm.opCount } } := by
  have told : Attention.reset.raise .doorOpen 0 = { Attention.reset with flags := 0x101 } := by decide
  simp only [Part.afterRise, isOpen, if_true, doorOpened, pauseTower_eq, cutArm_eq, raise]
  simp [Part.reset, State.reset, Arm.reset, Tower.reset, TowerState.asResume, told]

/-- ATTN_N is driven low at the rise of RST_N: RESET_OCCURRED is set and enabled (R173, R181). -/
theorem afterRise_attn (p : Part) : p.afterRise.attn.low = true := by
  cases isOpen : p.doorOpen with
  | false =>
    have driven : Attention.reset.low = true := by decide
    rw [afterRise_closed isOpen]
    exact driven
  | true =>
    have driven : ({ State.reset.part.attn with flags := 0x101 } : Attention).low = true := by decide
    rw [afterRise_open isOpen]
    exact driven

/-- Settles O5: RST_N low discards, its fall asserts the stop, its rise leaves the records of reset. -/
theorem nothingIsTakenWhileReset : Obligations.NothingIsTakenWhileReset := by
  refine ⟨fun i s low begins ends falls rises opens closes => exec_low low begins ends falls rises opens closes,
    fun s low => ⟨moveDoor_low low _ _, moveDoor_low low _ _⟩,
    fun s => ⟨_, rfl, rfl, rfl, rfl⟩, fun s => ⟨_, rfl, rfl, rfl, rfl, rfl, rfl, rfl, ?_, ?_, ?_, ?_, ?_⟩⟩
  · simp [State.attnLow, Link.afterRise, afterRise_attn]
  · intro h; simp [Link.afterRise, h]
  · intro x h; simp [Link.afterRise, h]
  · intro closed
    exact afterRise_closed closed
  · intro isOpen
    exact afterRise_open isOpen

end Sys2Proof.Machine
end

