-- ==== Sys2Proof/Proofs/TimeBase.lean ====
section
/-! PROOF. The time base on an empty queue: which expiry is taken, and the 1 ms that passes (logs 1, 2). -/

namespace Sys2Proof.Machine

variable {p : Part} {s : State}

/-! ## The first of the due expiries -/

/-- The head of a list of joined runs is the first run's that is not empty. -/
theorem head?_flatMap_first {α β : Type} [LT α] {f : α → List β} {a : α} {x : β} {xs : List β}
    (found : f a = x :: xs) {l : List α} (rising : l.Pairwise (· < ·)) (mem : a ∈ l)
    (before : ∀ b ∈ l, b < a → f b = []) : (l.flatMap f).head? = some x := by
  induction l with
  | nil => simp at mem
  | cons c l ih =>
    obtain ⟨below, rest⟩ := List.pairwise_cons.1 rising
    obtain rfl | later := List.mem_cons.1 mem
    · simp [found]
    · have empty : f c = [] := before c List.mem_cons_self (below a later)
      simpa [empty] using ih rest later fun b hb => before b (List.mem_cons_of_mem _ hb)

theorem allBays_rising : allBays.Pairwise (· < ·) := by decide

theorem allChannels_rising : allChannels.Pairwise (· < ·) := by decide

theorem mem_allBays (b : Fin 12) : b ∈ allBays := by revert b; decide

theorem mem_allChannels (c : Fin 4) : c ∈ allChannels := by revert c; decide

/-- A timer that is due gives its expiry. -/
theorem whenDue_due {t : Option Nat} {n : Nat} (set : t = some n) (due : n ≤ p.now) (i : Instr) :
    p.whenDue t i = [i] := by
  simp [Part.whenDue, Part.isDue, set, due]

/-- A timer above `now`, or none, gives nothing. -/
theorem whenDue_later {t : Option Nat} (later : ∀ n, t = some n → p.now < n) (i : Instr) :
    p.whenDue t i = [] := by
  cases t with
  | none => rfl
  | some n => simp [Part.whenDue, Part.isDue, later n rfl]

/-- The timer of a stream within its join period (R115, R120). -/
theorem joinTimer_eq_some_iff {c : Fin 4} {n : Nat} : p.joinTimer c = some n ↔
    ∃ st, p.stream c = some st ∧ st.joinOver = false ∧ st.joinPeriodEnd = n := by
  unfold Part.joinTimer
  cases p.stream c with
  | none => simp
  | some st => cases h : st.joinOver <;> simp [h]

/-! ## The step on an empty queue -/

theorem step_expiry (empty : s.pending = []) (live : s.link.resetLow = false) {i : Instr}
    (first : s.part.dueExpiries.head? = some i) : step s = exec i s := by
  simp [step, empty, State.dueExpiry, live, first]

theorem step_tick (empty : s.pending = []) (live : s.link.resetLow = false)
    (none : s.part.dueExpiries = []) :
    step s = .next (s.became { s.part.fresh with now := s.part.now + 1 }) := by
  simp [step, empty, State.dueExpiry, live, none, tick, State.became]

/-- The timers of one kind that are not due, before the one of number `n`. -/
theorem flatMap_whenDue_later {m : Nat} {l : List (Fin m)} {t : Fin m → Option Nat} {i : Fin m → Instr}
    (later : ∀ b n, t b = some n → p.now < n) : l.flatMap (fun b => p.whenDue (t b) (i b)) = [] :=
  List.flatMap_eq_nil_iff.2 fun b _ => whenDue_later (later b) (i b)

/-- The first timer of one kind that is due. -/
theorem flatMap_whenDue_first {m : Nat} {l : List (Fin m)} (rising : l.Pairwise (· < ·)) {a : Fin m} (mem : a ∈ l)
    {t : Fin m → Option Nat} {n : Nat} (set : t a = some n) (due : n ≤ p.now) (i : Fin m → Instr)
    (before : ∀ b : Fin m, b.val < a.val → ∀ n, t b = some n → p.now < n) :
    (l.flatMap fun b => p.whenDue (t b) (i b)).head? = some (i a) :=
  head?_flatMap_first (f := fun b => p.whenDue (t b) (i b)) (whenDue_due set due _) rising mem
    fun b _ below => whenDue_later (before b below) _

/-- Settles O2: the kinds of timers in log 2's order, each kind's not due when a later kind's expires. -/
theorem emptyQueueIsTheTimeBase : Obligations.EmptyQueueIsTheTimeBase := by
  intro s empty now arm bays reads joins label query
  have armLater : arm → s.part.whenDue (s.part.arm.op.map (·.deadline)) .moveTimeout = [] := fun h =>
    whenDue_later (fun n set => by
      obtain ⟨o, op, rfl⟩ := Option.map_eq_some_iff.1 set
      exact h o op) _
  have baysLater : bays 12 →
      allBays.flatMap (fun b => s.part.whenDue (s.part.bay b).deadline (.watchdogExpiry b)) = [] := fun h =>
    flatMap_whenDue_later fun b => h b b.isLt
  have readBefore : ∀ n, reads n → ∀ c : Fin 4, c.val < n →
      ∀ t, (s.part.readOf c).map (·.deadline) = some t → now < t := by
    intro n h c below t set
    obtain ⟨x, read, rfl⟩ := Option.map_eq_some_iff.1 set
    exact h c below x read
  have readsLater : reads 4 → allChannels.flatMap (fun c =>
      s.part.whenDue ((s.part.readOf c).map (·.deadline)) (.storeReadLimitExpiry c)) = [] := fun h =>
    flatMap_whenDue_later fun c => readBefore 4 h c c.isLt
  have joinBefore : ∀ n, joins n → ∀ c : Fin 4, c.val < n →
      ∀ t, s.part.joinTimer c = some t → now < t := by
    intro n h c below t set
    obtain ⟨st, stream, within, rfl⟩ := joinTimer_eq_some_iff.1 set
    exact h c below st stream within
  have joinsLater : joins 4 →
      allChannels.flatMap (fun c => s.part.whenDue (s.part.joinTimer c) (.joinPeriodEnd c)) = [] := fun h =>
    flatMap_whenDue_later fun c => joinBefore 4 h c c.isLt
  refine ⟨fun low => ?_, fun live => ⟨fun o op due => ?_, fun b t a below set due => ?_,
    fun c x a b below read due => ?_, fun c st a b r below stream within due => ?_,
    fun t a b r j set due => ?_, fun t a b r j l set due => ?_, fun t a b r j l q set due => ?_,
    fun a b r j l q pulse => ?_⟩⟩
  · simp [step, empty, State.dueExpiry, low, tick]
  · refine step_expiry empty live ?_
    have taken := whenDue_due (p := s.part) (t := s.part.arm.op.map (·.deadline)) (by simp [op]) due .moveTimeout
    simp only [Part.dueExpiries, taken, List.cons_append, List.nil_append, List.head?_cons]
  · refine step_expiry empty live ?_
    have taken := flatMap_whenDue_first (p := s.part) allBays_rising (mem_allBays b) set due .watchdogExpiry below
    simp only [Part.dueExpiries, armLater a, List.append_assoc, List.nil_append, List.head?_append, taken,
      Option.some_or]
  · refine step_expiry empty live ?_
    have taken := flatMap_whenDue_first (p := s.part) (t := fun c => (s.part.readOf c).map (·.deadline))
      allChannels_rising (mem_allChannels c) (by simp [read]) due .storeReadLimitExpiry (readBefore _ below)
    simp only [Part.dueExpiries, armLater a, baysLater b, List.append_assoc, List.nil_append,
      List.head?_append, taken, Option.some_or]
  · refine step_expiry empty live ?_
    have taken := flatMap_whenDue_first (p := s.part) allChannels_rising (mem_allChannels c)
      (joinTimer_eq_some_iff.2 ⟨st, stream, within, rfl⟩) due .joinPeriodEnd (joinBefore _ below)
    simp only [Part.dueExpiries, armLater a, baysLater b, readsLater r, List.append_assoc, List.nil_append,
      List.head?_append, taken, Option.some_or]
  · refine step_expiry empty live ?_
    simp only [Part.dueExpiries, armLater a, baysLater b, readsLater r, joinsLater j, whenDue_due set due,
      List.nil_append, List.cons_append, List.head?_cons]
  · refine step_expiry empty live ?_
    simp only [Part.dueExpiries, armLater a, baysLater b, readsLater r, joinsLater j, whenDue_later l,
      whenDue_due set due, List.nil_append, List.cons_append, List.head?_cons]
  · refine step_expiry empty live ?_
    simp only [Part.dueExpiries, armLater a, baysLater b, readsLater r, joinsLater j, whenDue_later l,
      whenDue_later q, whenDue_due set due, List.nil_append, List.head?_cons]
  · refine step_tick empty live ?_
    simp only [Part.dueExpiries, armLater a, baysLater b, readsLater r, joinsLater j, whenDue_later l,
      whenDue_later q, whenDue_later pulse, List.append_nil]

end Sys2Proof.Machine
end

