-- ==== Sys2Proof/Proofs/Requests.lean ====
section
/-! PROOF. Each request row answers once, and a refusal changes nothing (R173, R175, R177, R179). -/

namespace Sys2Proof.Machine

variable {p : Part} {a : Answer} {x : Part × Answer}

/-! ## Refusals -/

/-- The statuses of a request that is done: the others are refusals (R179). -/
def Status.done : Status → Bool
  | .ok => true | .accepted => true | .clamped => true
  | _ => false

/-- The owner's answer is of a request done, or it leaves the records alone and has no body (R179). -/
def Harmless (p : Part) (x : Part × Answer) : Prop := x.2.status.done = true ∨ x = (p, refuse x.2.status)

@[simp] theorem turnDown_harmless (st : Status) (p : Part) : Harmless p (turnDown st p) := .inr rfl

@[simp] theorem okay_harmless (q : Part) : Harmless p (q, okay) := .inl rfl

@[simp] theorem ok_harmless (q : Part) (body : List Byte) : Harmless p (q, { status := .ok, body := body }) :=
  .inl rfl

@[simp] theorem clamped_harmless (q : Part) (changed : Bool) (b c : List Byte) :
    Harmless p (q, okOrClamped changed b c) := by
  cases changed <;> exact .inl rfl

@[simp] theorem settled_okay_harmless (q : Part) : Harmless p (settled q okay) := .inl rfl

@[simp] theorem settled_accepted_harmless (q : Part) : Harmless p (settled q accepted) := .inl rfl

@[simp] theorem settled_clamped_harmless (q : Part) (changed : Bool) (b c : List Byte) :
    Harmless p (settled q (okOrClamped changed b c)) :=
  clamped_harmless (settle q) changed b c

/-- A request that names a job is refused, or does what it does to a held one (R21). -/
theorem withJob_harmless {job : Byte} {f : Fin 16 → Job → Part → Part × Answer}
    (held : ∀ x j, p.job x = some j → Harmless p (f x j p)) : Harmless p (withJob job f p) := by
  unfold withJob
  split
  · exact turnDown_harmless _ _
  · split
    · exact turnDown_harmless _ _
    case h_2 j is => exact held _ _ is

/-- A request that names a disc is refused, or does what it does to a held record (R15 to R20). -/
theorem withDisc_harmless {disc : Byte} {f : Fin 24 → Disc → Part → Part × Answer}
    (held : ∀ r d, p.disc r = some d → Harmless p (f r d p)) : Harmless p (withDisc disc f p) := by
  unfold withDisc
  split
  · exact turnDown_harmless _ _
  · split
    · exact turnDown_harmless _ _
    case h_2 d is => exact held _ _ is

/-- A request that names an image is refused, or does what it does to a held one (R98). -/
theorem withImage_harmless {image : Byte} {f : Fin 32 → Image → Part → Part × Answer}
    (held : ∀ i x, p.image i = some x → Harmless p (f i x p)) : Harmless p (withImage image f p) := by
  unfold withImage
  split
  · exact turnDown_harmless _ _
  · split
    · exact turnDown_harmless _ _
    case h_2 x is => exact held _ _ is

/-- A request that names a bay is refused, or does what it does to an installed one (R64). -/
theorem withBay_harmless {bay : Byte} {f : Fin 12 → Bay → Part → Part × Answer}
    (installed : ∀ b, p.installed b = true → Harmless p (f b (p.bay b) p)) : Harmless p (withBay bay f p) := by
  unfold withBay
  split
  · exact turnDown_harmless _ _
  · split
    case isTrue is => exact installed _ is
    case isFalse => exact turnDown_harmless _ _

theorem registerIn_harmless {i : Fin 32} {address blocks : Nat} {cls : DiscClass} :
    Harmless p (registerIn i address blocks cls p) := by
  unfold registerIn
  dsimp only
  split <;> simp

theorem redefineJob_harmless {c : JobChange} {y : Fin 16} {j : Job} : Harmless p (redefineJob c y j p) := by
  unfold redefineJob
  dsimp only
  split
  · simp
  · split <;> simp

/-- A request refused leaves the records as they were, and its reply's body is empty (R179). -/
theorem runRequest_harmless (i : Instr) (p : Part) : Harmless p (runRequest i p) := by
  cases i
  case configureTower | startTower | stopTowerNormal | stopTowerAbrupt | armRecover | spindleLoaded |
      outputEmptied | rejectBinEmptied | clearPrinter =>
    simp only [runRequest, reqConfigureTower, reqStartTower, reqStopNormal, reqStopAbrupt, reqArmRecover,
      reqSpindleLoaded, reqOutputEmptied, reqRejectBinEmptied, reqClearPrinter]
    repeat' split
    all_goals simp
  case setMediaEntry | clearMediaEntry | setDefaultMedia | lookUpMediaEntry | defineTemplate | lookUpTemplate |
      cartridgeInstalled | setInkChannel | lookUpInk =>
    simp only [runRequest, reqSetMediaEntry, reqClearMediaEntry, reqSetDefaultMedia, reqLookUpMediaEntry,
      reqDefineTemplate, reqLookUpTemplate, reqCartridgeInstalled, reqSetInkChannel, reqLookUpInk]
    repeat' split
    all_goals simp
  case identify | setAttention | readAttention | lookUpPlace | listDiscs | listJobs | defineJob =>
    simp only [runRequest, reqIdentify, reqSetAttention, reqReadAttention, reqLookUpPlace, reqListDiscs,
      reqListJobs, reqDefineJob]
    repeat' split
    all_goals simp
  case registerImage =>
    simp only [runRequest, reqRegisterImage]
    repeat' split
    all_goals first | exact turnDown_harmless _ _ | exact registerIn_harmless
  case lookUpJob => exact withJob_harmless fun _ _ _ => by simp
  case lookUpDisc => exact withDisc_harmless fun _ _ _ => by simp
  case lookUpImage => exact withImage_harmless fun _ _ _ => by simp
  case lookUpBay => exact withBay_harmless fun _ _ => by simp
  case surveyImage | retireImage =>
    refine withImage_harmless fun i x _ => ?_
    repeat' split
    all_goals simp
  case startJob | pauseJob | resumeJob | cancelJob | retireJob =>
    refine withJob_harmless fun x j _ => ?_
    repeat' split
    all_goals simp
  case markDisc | removeDisc | retireDisc =>
    refine withDisc_harmless fun r d _ => ?_
    repeat' split
    all_goals simp
  case enableBay | disableBay | clearBayFault =>
    refine withBay_harmless fun b _ => ?_
    repeat' split
    all_goals simp
  case routeDisc =>
    simp only [runRequest, reqRouteDisc]
    split
    · simp
    · refine withDisc_harmless fun r d _ => ?_
      split <;> simp
  case changeJob =>
    simp only [runRequest, reqChangeJob]
    split
    · simp
    · refine withJob_harmless fun y j _ => ?_
      repeat' split
      · exact redefineJob_harmless
      · simp
      · simp
  all_goals exact turnDown_harmless _ _

/-- Settles O4: a request row takes its request, which answers once; the owner's refusals are harmless. -/
theorem requestsAnswerOnce : Obligations.RequestsAnswerOnce := by
  refine ⟨fun i code body s row => ⟨fun taken => ?_, fun live full => ?_, fun low => ?_⟩,
    fun i p notOk notAccepted notClamped => ?_⟩
  · obtain ⟨live, free⟩ := taken
    exact (exec_request row s).trans (takeRequest_taken live free)
  · rw [exec_request row, takeRequest_full live full]
    rfl
  · rw [exec_request row, takeRequest_low low]
  · rcases runRequest_harmless i p with done | refused
    · revert done
      cases status : (runRequest i p).2.status <;> simp_all [Status.done]
    · exact ⟨congrArg Prod.fst refused, congrArg (·.2.body) refused⟩

end Sys2Proof.Machine
end

