-- ==== Sys2Proof/Proofs/Frames.lean ====
section
/-! PROOF. Request frames: encoding and decoding, and what the tests of a frame make of one that is no request
(R169, R174, R176, R184). -/

namespace Sys2Proof

open Machine

/-! ## Fields of several bytes -/

theorem word16_bytes16 (w : Word16) : word16 (w.extractLsb' 0 8) (w.extractLsb' 8 8) = w := by
  unfold word16
  ext i h
  simp only [BitVec.getElem_append, BitVec.getElem_extractLsb']
  split
  · simp [BitVec.getLsbD_eq_getElem h]
  · rw [show 8 + (i - 8) = i by omega, BitVec.getLsbD_eq_getElem h]

theorem word32_bytes32 (w : Word32) :
    word32 (w.extractLsb' 0 8) (w.extractLsb' 8 8) (w.extractLsb' 16 8) (w.extractLsb' 24 8) = w := by
  unfold word32 word16
  ext i h
  simp only [BitVec.getElem_append, BitVec.getElem_extractLsb']
  repeat' split
  all_goals
    rw [← BitVec.getLsbD_eq_getElem h]
    congr 1
    omega

/-- A number that fits its field reads back from its bytes (R184). -/
theorem unle_le {w n : Nat} (fits : n < 256 ^ w) : unle (le w n) = n := by
  induction w generalizing n with
  | zero => simp only [pow_zero, Nat.lt_one_iff] at fits; subst fits; rfl
  | succ w ih =>
    rw [le, unle, ih (Nat.div_lt_of_lt_mul (by rwa [pow_succ, mul_comm] at fits)), BitVec.toNat_ofNat]
    omega

theorem length_le (w n : Nat) : (le w n).length = w := by
  induction w generalizing n with
  | zero => rfl
  | succ w ih => rw [le, List.length_cons, ih]

/-! ## Subset bodies -/

/-- A carried field is as long as its width says, whatever follows it. -/
def Width.Fits (w : Width) (f : Option (List Byte)) : Prop :=
  ∀ l, f = some l → ∀ rest, w.length (l ++ rest) = l.length

theorem Width.fixed_fits {n : Nat} {f : Option (List Byte)} (h : ∀ l, f = some l → l.length = n) :
    (Width.fixed n).Fits f := fun l held _ => (h l held).symm

theorem carry1_fits (f : Option Byte) : (Width.fixed 1).Fits (carry1 f) :=
  Width.fixed_fits fun l held => by
    obtain ⟨b, -, rfl⟩ := Option.map_eq_some_iff.1 held
    rfl

theorem carry2_fits (f : Option Word16) : (Width.fixed 2).Fits (carry2 f) :=
  Width.fixed_fits fun l held => by
    obtain ⟨b, -, rfl⟩ := Option.map_eq_some_iff.1 held
    rfl

theorem carry4_fits (f : Option Word32) : (Width.fixed 4).Fits (carry4 f) :=
  Width.fixed_fits fun l held => by
    obtain ⟨b, -, rfl⟩ := Option.map_eq_some_iff.1 held
    rfl

/-- The bytes of a class support field: its count, and three for each entry (R184). -/
theorem length_entries (l : List SupportEntry) :
    (listBytes (fun e => [e.bay, e.supportA, e.supportB]) l).length = 1 + 3 * l.length := by
  simp [listBytes, u8, le, List.length_flatMap, mul_comm, add_comm]

theorem carryEntries_fits {f : Option (List SupportEntry)} (short : ∀ l, f = some l → l.length < 256) :
    Width.entries.Fits (carryEntries f) := by
  intro bytes held rest
  obtain ⟨l, carried, rfl⟩ := Option.map_eq_some_iff.1 held
  rw [length_entries]
  simp [listBytes, u8, le, Width.length, Nat.mod_eq_of_lt (short l carried)]

/-- A subset body's fields read back, when each fits its width (R184; log 6). -/
theorem readSubset_carried {ws : List Width} {fs : List (Option (List Byte))}
    (fit : List.Forall₂ Width.Fits ws fs) :
    readSubset ws (presence fs) (fs.flatMap (·.getD [])) = some fs := by
  induction fit with
  | nil => rfl
  | @cons w f ws fs fits _ ih =>
    cases f with
    | none => simpa [readSubset, presence] using ih
    | some l =>
      have odd : (1 + 2 * presence fs) % 2 = 1 := by omega
      have half : (1 + 2 * presence fs) / 2 = presence fs := by omega
      simp [readSubset, presence, odd, half, fits l rfl, ih]

theorem presence_lt {α : Type} (fs : List (Option α)) : presence fs < 2 ^ fs.length := by
  induction fs with
  | nil => simp [presence]
  | cons f fs ih =>
    rw [presence, List.length_cons, pow_succ]
    split <;> omega

/-- The presence word of at most 32 fields reads back. -/
theorem unle_presence {fs : List (Option (List Byte))} (few : fs.length ≤ 32) :
    unle (u32 (presence fs)) = presence fs :=
  unle_le ((presence_lt fs).trans_le (Nat.pow_le_pow_right (by decide) few))

theorem readSubsetBody_carried {ws : List Width} {fs : List (Option (List Byte))} (few : fs.length ≤ 32)
    (fit : List.Forall₂ Width.Fits ws fs) : readSubsetBody ws (subsetBody fs) = some fs := by
  have four : (u32 (presence fs)).length = 4 := length_le _ _
  unfold readSubsetBody subsetBody
  rw [if_pos (by simp [four]), List.take_left' four, List.drop_left' four, unle_presence few,
    readSubset_carried fit]

/-- The bytes of a named subset body: the presence word's four, the name, the carried fields (log 6). -/
theorem namedSubsetBody_eq (name : Byte) (fs : List (Option (List Byte))) :
    ∃ p0 p1 p2 p3, u32 (presence fs) = [p0, p1, p2, p3] ∧
      namedSubsetBody name fs = p0 :: p1 :: p2 :: p3 :: name :: fs.flatMap (·.getD []) :=
  ⟨_, _, _, _, rfl, rfl⟩

@[simp] theorem one_carry1 (f : Option Byte) : one (carry1 f) = f := by cases f <;> rfl

@[simp] theorem two_carry2 (f : Option Word16) : two (carry2 f) = f := by
  cases f with
  | none => rfl
  | some w => exact congrArg some (word16_bytes16 w)

@[simp] theorem four_carry4 (f : Option Word32) : four (carry4 f) = f := by
  cases f with
  | none => rfl
  | some w => exact congrArg some (word32_bytes32 w)

@[simp] theorem support_carryEntries (f : Option (List SupportEntry)) : support (carryEntries f) = f := by
  cases f with
  | none => rfl
  | some l =>
    have entries : entriesOf (l.flatMap fun e => [e.bay, e.supportA, e.supportB]) = l := by
      induction l with
      | nil => rfl
      | cons e l ih => simpa [entriesOf] using ih
    exact congrArg some entries

/-! ## A request's body reads back -/

theorem carriedLength_eq {α : Type} {n : Nat} {f : Option α} {g : α → List Byte} (h : ∀ a, (g a).length = n) :
    ((f.map g).getD []).length = carriedLength n f := by
  cases f with
  | none => rfl
  | some a => exact h a

theorem length_carry1 (f : Option Byte) : ((carry1 f).getD []).length = carriedLength 1 f :=
  carriedLength_eq fun _ => rfl

theorem length_carry2 (f : Option Word16) : ((carry2 f).getD []).length = carriedLength 2 f :=
  carriedLength_eq fun _ => rfl

theorem length_carry4 (f : Option Word32) : ((carry4 f).getD []).length = carriedLength 4 f :=
  carriedLength_eq fun _ => rfl

theorem length_carryEntries (l : List SupportEntry) : ((carryEntries (some l)).getD []).length = 1 + 3 * l.length :=
  length_entries l

theorem carriedLength_le {α : Type} (n : Nat) (f : Option α) : carriedLength n f ≤ n := by
  unfold carriedLength
  split
  · exact Nat.le_refl n
  · exact Nat.zero_le n

/-- A CONFIGURE TOWER body is as long as the settings it carries (R184). -/
theorem length_towerBody (c : TowerFields) : (subsetBody (towerCarried c)).length = c.bodyLength := by
  simp only [subsetBody, towerCarried, List.length_append, u32, length_le, List.flatMap_cons, List.flatMap_nil,
    length_carry1, TowerFields.bodyLength, List.length_nil]
  cases c.support with
  | none =>
    simp only [carryEntries, Option.map_none, Option.getD_none, List.length_nil]
    omega
  | some l =>
    dsimp only
    rw [length_carryEntries]
    omega

theorem bodyConfigure_carried (tag : Byte) {c : TowerFields} (short : c.bodyLength ≤ 252) :
    bodyConfigure tag (subsetBody (towerCarried c)) = .request (.configureTower tag c) := by
  have entries : ∀ l, c.support = some l → l.length < 256 := by
    intro l carried
    simp only [TowerFields.bodyLength, carried] at short
    omega
  have fit : List.Forall₂ Width.Fits towerWidths (towerCarried c) := by
    unfold towerWidths towerCarried
    repeat' constructor
    all_goals first | exact carry1_fits _ | exact carryEntries_fits entries
  rw [bodyConfigure, readSubsetBody_carried (by simp [towerCarried]) fit]
  simp [towerFields, towerCarried, orMalformed]

theorem bodyChangeJob_carried (tag job : Byte) (c : JobChange) :
    bodyChangeJob tag (namedSubsetBody job (jobCarried c)) = .request (.changeJob tag job c) := by
  have fit : List.Forall₂ Width.Fits jobWidths (jobCarried c) := by
    unfold jobWidths jobCarried
    repeat' constructor
    all_goals first | exact carry1_fits _ | exact carry2_fits _ | exact carry4_fits _
  obtain ⟨p0, p1, p2, p3, word, body⟩ := namedSubsetBody_eq job (jobCarried c)
  rw [body, bodyChangeJob, ← word, unle_presence (by simp [jobCarried]), readSubset_carried fit]
  simp [jobChange, jobCarried, orMalformed]

theorem bodyInk_carried (tag k : Byte) (f : Option Word32) (d t : Option Byte) :
    bodyInk tag (namedSubsetBody k [carry4 f, carry1 d, carry1 t]) = .request (.setInkChannel tag k f d t) := by
  have fit : List.Forall₂ Width.Fits inkWidths [carry4 f, carry1 d, carry1 t] :=
    .cons (carry4_fits f) (.cons (carry1_fits d) (.cons (carry1_fits t) .nil))
  obtain ⟨p0, p1, p2, p3, word, body⟩ := namedSubsetBody_eq k [carry4 f, carry1 d, carry1 t]
  rw [body, bodyInk, ← word, unle_presence (by simp), readSubset_carried fit]
  simp [inkChange, orMalformed]

/-- A body of a request reads back as that request (R179, R184). -/
theorem readRequest_body {i : Instr} {code : Byte} {body : List Byte} (wf : i.wf = true)
    (row : requestBody i = some (code, body)) : readRequest code (tagOf i) body = .request i := by
  cases i <;> simp only [requestBody, Option.some.injEq, Prod.mk.injEq, reduceCtorEq] at row <;>
    obtain ⟨rfl, rfl⟩ := row
  case configureTower tag c => exact bodyConfigure_carried tag (of_decide_eq_true wf)
  case changeJob tag job c => exact bodyChangeJob_carried tag job c
  case setInkChannel tag k f d t => exact bodyInk_carried tag k f d t
  case setAttention tag e m => exact congrArg (fun w => FrameRead.request (.setAttention tag w m)) (word32_bytes32 e)
  case cartridgeInstalled tag k l =>
    exact congrArg (fun w => FrameRead.request (.cartridgeInstalled tag k w)) (word32_bytes32 l)
  case registerImage tag a b c =>
    exact congrArg₂ (fun v w => FrameRead.request (.registerImage tag v w c)) (word32_bytes32 a) (word32_bytes32 b)
  case defineJob tag f =>
    simp [readRequest, tagOf, bodyDefineJob, bytes32, bytes16, word32_bytes32, word16_bytes16]
  case setMediaEntry tag f => simp [readRequest, tagOf, bodyMedia, bytes16, word16_bytes16]
  case defineTemplate tag f => simp [readRequest, tagOf, bodyTemplate, bytes16, word16_bytes16]
  all_goals rfl

/-- A request's body is at most 252 bytes long (R174). -/
theorem requestBody_length {i : Instr} {code : Byte} {body : List Byte} (wf : i.wf = true)
    (row : requestBody i = some (code, body)) : body.length ≤ 252 := by
  cases i <;> simp only [requestBody, Option.some.injEq, Prod.mk.injEq, reduceCtorEq] at row <;>
    obtain ⟨-, rfl⟩ := row
  case configureTower tag c => rw [length_towerBody]; exact of_decide_eq_true wf
  case changeJob tag job c =>
    have one := fun f : Option Byte => carriedLength_le 1 f
    have two := fun f : Option Word16 => carriedLength_le 2 f
    have four := fun f : Option Word32 => carriedLength_le 4 f
    simp only [namedSubsetBody, jobCarried, List.length_append, u32, length_le, List.length_cons,
      List.flatMap_cons, List.flatMap_nil, length_carry1, length_carry2, length_carry4, List.length_nil]
    have := one c.kind; have := one c.image; have := one c.cls; have := one c.priority; have := one c.maxSpeed
    have := one c.verifyMode; have := one c.recoveredLimit; have := one c.rejectLimit; have := one c.template
    have := one c.inkPolicy; have := one c.serialDigits; have := one c.step; have := two c.ordered
    have := four c.hostRef; have := four c.firstSerial
    omega
  case setInkChannel tag k f d t =>
    have := carriedLength_le 4 f
    have := carriedLength_le 1 d
    have := carriedLength_le 1 t
    simp only [namedSubsetBody, List.length_append, u32, length_le, List.length_cons, List.flatMap_cons,
      List.flatMap_nil, length_carry1, length_carry4, List.length_nil]
    omega
  all_goals simp [bytes32, bytes16]

/-- A frame whose declared length fits is read by its code (R174, R176). -/
theorem readFrame_fits {code tag n : Byte} {rest : List Byte} (short : n.toNat ≤ 252) (there : n.toNat ≤ rest.length)
    (padding : ∀ b ∈ rest.drop n.toNat, b = 0) :
    readFrame (code :: tag :: n :: rest) = readRequest code tag (rest.take n.toNat) := by
  simp only [readFrame, lengthFits, short, there, decide_true, Bool.true_and]
  rw [if_pos (List.all_eq_true.2 fun b mem => by simpa using padding b mem)]

/-- A request's frame, with bytes of 00h after it, reads as the request (R174, R176). -/
theorem readFrame_padded {i : Instr} {code : Byte} {body : List Byte} (wf : i.wf = true)
    (row : requestBody i = some (code, body)) (k : Nat) :
    readFrame (code :: tagOf i :: BitVec.ofNat 8 body.length :: (body ++ List.replicate k 0)) = .request i := by
  have short := requestBody_length wf row
  have length : (BitVec.ofNat 8 body.length).toNat = body.length :=
    by rw [BitVec.toNat_ofNat, Nat.mod_eq_of_lt (by omega)]
  rw [readFrame_fits (by omega) (by simp [length]) (by simp [length, List.mem_replicate]), length,
    List.take_left, readRequest_body wf row]

theorem encodeRequest_eq_some_iff {i : Instr} {frame : List Byte} : encodeRequest i = some frame ↔
    ∃ code body, requestBody i = some (code, body) ∧
      frame = code :: tagOf i :: BitVec.ofNat 8 body.length :: body := by
  simp [encodeRequest, eq_comm]

/-! ## A frame read as a request is one of the table's rows -/

/-- The command is the request of a code, with a tag. -/
def IsRow (code tag : Byte) (i : Instr) : Prop := tagOf i = tag ∧ ∃ body, requestBody i = some (code, body)

/-- What is read, if it is a request, is the request of a code, with a tag. -/
def ReadsRow (code tag : Byte) (x : FrameRead) : Prop := ∀ i, x = .request i → IsRow code tag i

variable {code tag : Byte} {b : List Byte}

theorem request_reads {i : Instr} (row : IsRow code tag i) : ReadsRow code tag (.request i) := by
  rintro _ ⟨⟩; exact row

theorem malformed_reads : ReadsRow code tag .malformed := by rintro _ ⟨⟩

theorem body0_reads {i : Instr} (row : IsRow code tag i) : ReadsRow code tag (body0 i b) := by
  unfold body0
  split
  · exact request_reads row
  · exact malformed_reads

theorem body1_reads {f : Byte → Instr} (row : ∀ x, IsRow code tag (f x)) : ReadsRow code tag (body1 f b) := by
  unfold body1
  split
  · exact request_reads (row _)
  · exact malformed_reads

theorem body2_reads {f : Byte → Byte → Instr} (row : ∀ x y, IsRow code tag (f x y)) :
    ReadsRow code tag (body2 f b) := by
  unfold body2
  split
  · exact request_reads (row _ _)
  · exact malformed_reads

theorem body3_reads {f : Byte → Byte → Byte → Instr} (row : ∀ x y z, IsRow code tag (f x y z)) :
    ReadsRow code tag (body3 f b) := by
  unfold body3
  split
  · exact request_reads (row _ _ _)
  · exact malformed_reads

theorem orMalformed_reads {x : Option Instr} (row : ∀ i, x = some i → IsRow code tag i) :
    ReadsRow code tag (orMalformed x) := by
  cases x with
  | none => exact malformed_reads
  | some i => exact request_reads (row i rfl)

theorem code_eq {n : Nat} (h : code.toNat = n) : code = BitVec.ofNat 8 n :=
  BitVec.eq_of_toNat_eq (by simpa [h] using (Nat.mod_eq_of_lt (h ▸ code.isLt)).symm)

theorem bodyStop_reads : ReadsRow 0x04 tag (bodyStop tag b) := by
  unfold bodyStop
  split
  · split
    · exact request_reads ⟨rfl, _, rfl⟩
    · split
      · exact request_reads ⟨rfl, _, rfl⟩
      · rintro _ ⟨⟩
  · exact malformed_reads

/-- A fixed body of its own form is one request or MALFORMED. -/
theorem fixed_reads : ReadsRow 0x10 tag (bodySetAttention tag b) ∧ ReadsRow 0x20 tag (bodyRegister tag b) ∧
    ReadsRow 0x30 tag (bodyDefineJob tag b) ∧ ReadsRow 0x60 tag (bodyMedia tag b) ∧
    ReadsRow 0x70 tag (bodyTemplate tag b) ∧ ReadsRow 0x72 tag (bodyCartridge tag b) := by
  unfold bodySetAttention bodyRegister bodyDefineJob bodyMedia bodyTemplate bodyCartridge
  refine ⟨?_, ?_, ?_, ?_, ?_, ?_⟩
  all_goals
    split
    · exact request_reads ⟨rfl, _, rfl⟩
    · exact malformed_reads

theorem subset_reads : ReadsRow 0x02 tag (bodyConfigure tag b) ∧ ReadsRow 0x31 tag (bodyChangeJob tag b) ∧
    ReadsRow 0x73 tag (bodyInk tag b) := by
  refine ⟨orMalformed_reads fun i held => ?_, ?_, ?_⟩
  · obtain ⟨c, -, rfl⟩ := Option.map_eq_some_iff.1 held
    exact ⟨rfl, _, rfl⟩
  · unfold bodyChangeJob
    split
    · refine orMalformed_reads fun i held => ?_
      obtain ⟨c, -, rfl⟩ := Option.map_eq_some_iff.1 held
      exact ⟨rfl, _, rfl⟩
    · exact malformed_reads
  · unfold bodyInk
    split
    · refine orMalformed_reads fun i held => ?_
      obtain ⟨fields, -, change⟩ := Option.bind_eq_some_iff.1 held
      unfold inkChange at change
      split at change
      · obtain rfl := Option.some.inj change
        exact ⟨rfl, _, rfl⟩
      · cases change
    · exact malformed_reads

/-- A body read as a request is the request of its code (R176, R179). -/
theorem readRequest_reads (code tag : Byte) (b : List Byte) : ReadsRow code tag (readRequest code tag b) := by
  obtain ⟨setAttention, register, defineJob, media, template, cartridge⟩ := fixed_reads (tag := tag) (b := b)
  obtain ⟨configure, changeJob, ink⟩ := subset_reads (tag := tag) (b := b)
  unfold readRequest
  split
  case h_45 => rintro _ ⟨⟩
  all_goals
    rename_i h
    obtain rfl := code_eq h
    first
      | exact body0_reads ⟨rfl, _, rfl⟩
      | exact body1_reads fun _ => ⟨rfl, _, rfl⟩
      | exact body2_reads fun _ _ => ⟨rfl, _, rfl⟩
      | exact body3_reads fun _ _ _ => ⟨rfl, _, rfl⟩
      | assumption
      | exact bodyStop_reads

/-- A frame read as a request is a request of its code and its tag (R176). -/
theorem readFrame_reads (code tag n : Byte) (rest : List Byte) :
    ReadsRow code tag (readFrame (code :: tag :: n :: rest)) := by
  unfold readFrame
  dsimp only
  split
  · exact readRequest_reads _ _ _
  · exact malformed_reads

/-- Settles O9: each body reads back by its form, and what is read is a row of its code. -/
theorem framesReadBack : Obligations.FramesReadBack := by
  refine ⟨fun i frame wf encoded => ?_, fun code tag n rest i reads => readFrame_reads code tag n rest i reads⟩
  obtain ⟨code, body, row, rfl⟩ := encodeRequest_eq_some_iff.1 encoded
  have short := requestBody_length wf row
  refine ⟨by simpa using readFrame_padded wf row 0, ?_, ?_⟩ <;> simp only [List.length_cons] <;> omega

end Sys2Proof
end

