-- ==== Sys2Proof/Proofs/Selects.lean ====
section
/-! PROOF. The selects of the host link: their beginning and end, a frame that is no request, and a request's
frame (R173 to R178, R184). -/

namespace Sys2Proof.Machine

variable {s : State} {x : Select} {bytes frame : List Byte} {code tag n : Byte} {rest : List Byte}

/-! ## The end of a select -/

/-- The link as a select leaves it (R175, R178). -/
theorem dropDelivered_ended (x : Select) (k : Nat) (l : Link) :
    dropDelivered x k { l with select := none } = l.ended x k := by
  unfold dropDelivered Link.ended
  split <;> rfl

/-- The end of a select that delivers takes its input on the link as the select leaves it. -/
theorem execSelectEnd_delivers (begun : s.link.select = some x) (live : s.link.resetLow = false)
    (kept : x.discard = false) : execSelectEnd bytes s =
      .next (takeInput (bytes.take 256) { s with part := s.part.fresh, link := s.link.ended x bytes.length }) := by
  unfold execSelectEnd
  rw [begun]
  dsimp only
  rw [if_neg (by simp [live]), if_neg (by simp [kept]), dropDelivered_ended]

/-- An input that is no NOP, with a slot free and at least 3 bytes, is a frame to execute (R174 to R177). -/
theorem takeInput_frame (noNop : code ≠ 0) (free : s.link.slotFree = true) (empty : s.link.requests = []) :
    takeInput (code :: tag :: n :: rest) s = answer code tag (runFrame (code :: tag :: n :: rest)) s := by
  simp only [takeInput, if_neg noNop, free, Bool.not_true, Bool.false_eq_true, if_false]
  rw [if_neg (by simp), executeOldest_enqueue empty]
  rfl

theorem head?_take {α : Type} {l : List α} {k : Nat} (pos : 0 < k) : (l.take k).head? = l.head? := by
  cases l with
  | nil => simp
  | cons a l => simp [List.take_cons pos]

/-- Settles O6: the cases of the select's beginning, and of the input at its end. -/
theorem selectsBeginAndEnd : Obligations.SelectsBeginAndEnd := by
  refine ⟨fun s => ⟨fun x begun => ?_, fun idle live r rest queued => ?_, fun idle nothing => ?_⟩,
    fun s x bytes begun live => ⟨fun discard => ?_, fun kept silent => ?_, fun kept b head input full => ?_,
      fun kept b head input free short => ?_⟩, fun s bytes => ⟨fun low => ?_, fun live idle => ?_⟩⟩
  · simp [execSelectBegin, begun]
  · simp [execSelectBegin, idle, live, queued]
  · rcases nothing with none | low
    · cases low : s.link.resetLow <;> simp [execSelectBegin, idle, none, low]
    · simp [execSelectBegin, idle, low]
  · simp [execSelectEnd, begun, live, discard]
  · rw [exec_selectEnd, execSelectEnd_delivers begun live kept]
    rcases silent with rfl | nop
    · rfl
    · rw [← head?_take (k := 256) (by decide)] at nop
      obtain ⟨rest, taken⟩ := List.head?_eq_some_iff.1 nop
      rw [taken]
      rfl
  · rw [exec_selectEnd, execSelectEnd_delivers begun live kept]
    rw [← head?_take (k := 256) (by decide)] at head
    obtain ⟨rest, taken⟩ := List.head?_eq_some_iff.1 head
    have overrun : (s.link.ended x bytes.length).slotFree = false := full
    simp only [taken, takeInput, if_neg input, overrun, Bool.not_false, if_true]
    rfl
  · rw [exec_selectEnd, execSelectEnd_delivers begun live kept]
    have length : (bytes.take 256).length < 3 := by rw [List.length_take]; omega
    rw [← head?_take (k := 256) (by decide)] at head
    obtain ⟨rest, taken⟩ := List.head?_eq_some_iff.1 head
    have slot : (s.link.ended x bytes.length).slotFree = true := free
    rw [taken] at length ⊢
    simp only [takeInput, if_neg input, slot, Bool.not_true, Bool.false_eq_true, if_false]
    rw [if_pos length]
    rfl
  · simp [execSelectEnd, low]
  · simp [execSelectEnd, live, idle, dropDelivered]

/-! ## A request's frame -/

theorem requestBody_code {i : Instr} {body : List Byte} (row : requestBody i = some (code, body)) : code ≠ 0 := by
  cases i <;> simp only [requestBody, Option.some.injEq, Prod.mk.injEq, reduceCtorEq] at row <;>
    (obtain ⟨rfl, -⟩ := row; decide)

/-- A frame of at least 3 bytes at the end of a select is answered by what its tests make of it (R176, R177). -/
theorem exec_selectEnd_frame (begun : s.link.select = some x) (live : s.link.resetLow = false)
    (kept : x.discard = false) (empty : s.link.requests = []) (taken : bytes.take 256 = code :: tag :: n :: rest)
    (noNop : code ≠ 0) (free : (s.link.ended x bytes.length).slotFree = true) :
    exec (.selectEnd bytes) s =
      .next (answer code tag (runFrame (code :: tag :: n :: rest))
        { s with link := s.link.ended x bytes.length }) := by
  have executed := takeInput_frame (s := { s with part := s.part.fresh, link := s.link.ended x bytes.length })
    (tag := tag) (n := n) (rest := rest) noNop free empty
  rw [exec_selectEnd, execSelectEnd_delivers begun live kept, taken, executed]
  rfl

/-- Settles O8: the padded frame reads as its request, whose row takes it on the link the select leaves. -/
theorem selectEndRunsTheRequest : Obligations.SelectEndRunsTheRequest := by
  intro i frame k s x wf encoded begun kept live empty free
  obtain ⟨code, body, row, rfl⟩ := encodeRequest_eq_some_iff.1 encoded
  have short := requestBody_length wf row
  set frame := code :: tagOf i :: BitVec.ofNat 8 body.length :: body with frame_eq
  have length : (frame ++ List.replicate k (0 : Byte)).length = frame.length + k := by simp
  have taken : (frame ++ List.replicate k (0 : Byte)).take 256 =
      code :: tagOf i :: BitVec.ofNat 8 body.length ::
        (body ++ List.replicate (min (256 - frame.length) k) 0) := by
    rw [List.take_append, List.take_of_length_le (by simp only [frame_eq, List.length_cons]; omega),
      List.take_replicate]
    rfl
  have row_taken := takeRequest_taken (s := { s with link := s.link.ended x (frame.length + k) })
    (code := code) (tag := tagOf i) (act := runRequest i) live free
  rw [exec_selectEnd_frame begun live kept empty taken (requestBody_code row) (length ▸ free), length,
    exec_request row, row_taken]
  have reads : ∀ p, runFrame (code :: tagOf i :: BitVec.ofNat 8 body.length ::
      (body ++ List.replicate (min (256 - frame.length) k) 0)) p = runRequest i p := fun p => by
    simp only [runFrame, readFrame_padded wf row]
  simp only [answer, reads]

/-! ## A frame that is no request -/

/-- A frame whose tests refuse it is answered with its own code and tag, and changes nothing (R176). -/
theorem runFrame_refused {st : Status} (p : Part)
    (refused : readFrame frame = .malformed ∧ st = .malformed ∨ readFrame frame = .unknown ∧ st = .unknown ∨
      readFrame frame = .badMode ∧ st = .outOfRange) : runFrame frame p = turnDown st p := by
  rcases refused with ⟨reads, rfl⟩ | ⟨reads, rfl⟩ | ⟨reads, rfl⟩ <;> simp only [runFrame, reads]

theorem body0_length {i : Instr} {b : List Byte} (other : b.length ≠ 0) : body0 i b = .malformed := by
  match b, other with
  | _ :: _, _ => rfl

theorem body1_length {f : Byte → Instr} {b : List Byte} (other : b.length ≠ 1) : body1 f b = .malformed := by
  match b, other with
  | [], _ => rfl
  | _ :: _ :: _, _ => rfl

theorem body2_length {f : Byte → Byte → Instr} {b : List Byte} (other : b.length ≠ 2) :
    body2 f b = .malformed := by
  match b, other with
  | [], _ => rfl
  | [_], _ => rfl
  | _ :: _ :: _ :: _, _ => rfl

theorem body3_length {f : Byte → Byte → Byte → Instr} {b : List Byte} (other : b.length ≠ 3) :
    body3 f b = .malformed := by
  unfold body3
  split
  · exact absurd rfl other
  · rfl

theorem bodyStop_length {b : List Byte} (other : b.length ≠ 1) : bodyStop tag b = .malformed := by
  unfold bodyStop
  split
  · exact absurd rfl other
  · rfl

/-- A fixed body of several fields and another length is MALFORMED. -/
theorem fields_length {b : List Byte} : (b.length ≠ 5 → bodySetAttention tag b = .malformed) ∧
    (b.length ≠ 9 → bodyRegister tag b = .malformed) ∧ (b.length ≠ 22 → bodyDefineJob tag b = .malformed) ∧
    (b.length ≠ 10 → bodyMedia tag b = .malformed) ∧ (b.length ≠ 12 → bodyTemplate tag b = .malformed) ∧
    (b.length ≠ 5 → bodyCartridge tag b = .malformed) := by
  unfold bodySetAttention bodyRegister bodyDefineJob bodyMedia bodyTemplate bodyCartridge
  refine ⟨?_, ?_, ?_, ?_, ?_, ?_⟩
  all_goals
    intro other
    split
    · exact absurd rfl other
    · rfl

/-- A body of another length than its request's is MALFORMED (R176). -/
theorem readRequest_length {k : Nat} {b : List Byte} (fixed : fixedBody code = some k) (other : b.length ≠ k) :
    readRequest code tag b = .malformed := by
  obtain ⟨setAttention, register, defineJob, media, template, cartridge⟩ := fields_length (tag := tag) (b := b)
  unfold fixedBody at fixed
  unfold readRequest
  split at fixed
  case h_42 => cases fixed
  all_goals
    cases fixed
    rename_i h
    simp only [h]
    first
      | exact body0_length other
      | exact body1_length other
      | exact body2_length other
      | exact body3_length other
      | exact bodyStop_length other
      | exact setAttention other
      | exact register other
      | exact defineJob other
      | exact media other
      | exact template other
      | exact cartridge other

/-- A code of no request is UNKNOWN (R176). -/
theorem readRequest_unknown {b : List Byte} (none : fixedBody code = none) (configure : code ≠ 0x02)
    (changeJob : code ≠ 0x31) (ink : code ≠ 0x73) : readRequest code tag b = .unknown := by
  unfold readRequest
  split
  case h_45 => rfl
  all_goals
    rename_i h
    obtain rfl := code_eq h
    first | exact absurd rfl configure | exact absurd rfl changeJob | exact absurd rfl ink | cases none

/-! ## Subset bodies -/

/-- The bytes the carried fields of a presence word take. -/
def carriedBytes (sizes : List Nat) (word : Nat) : Nat :=
  (sizes.zipIdx.map fun f => if word.testBit f.2 then f.1 else 0).sum

theorem carriedBytes_cons (k : Nat) (sizes : List Nat) (word : Nat) :
    carriedBytes (k :: sizes) word = (if word % 2 = 1 then k else 0) + carriedBytes sizes (word / 2) := by
  have shifted : sizes.zipIdx 1 = sizes.zipIdx.map fun f => (f.1, f.2 + 1) := by
    rw [List.zipIdx_succ]
  simp only [carriedBytes, List.zipIdx_cons, List.map_cons, List.sum_cons, Nat.testBit_zero, shifted, List.map_map,
    Function.comp_def, Nat.testBit_succ, decide_eq_true_eq]

/-- A field that is read is there, and the fields after it are read from the bytes after it. -/
theorem readSubset_cons {w : Width} {ws : List Width} {word : Nat} {b : List Byte}
    {fs : List (Option (List Byte))} (reads : readSubset (w :: ws) word b = some fs) :
    (if word % 2 = 1 then w.length b else 0) ≤ b.length ∧
      ∃ gs, readSubset ws (word / 2) (b.drop (if word % 2 = 1 then w.length b else 0)) = some gs := by
  rw [readSubset] at reads
  split at reads
  case isTrue odd =>
    dsimp only at reads
    split at reads
    case isTrue there =>
      obtain ⟨gs, reads, -⟩ := Option.map_eq_some_iff.1 reads
      rw [if_pos odd]
      exact ⟨there, gs, reads⟩
    case isFalse => cases reads
  case isFalse even =>
    obtain ⟨gs, reads, -⟩ := Option.map_eq_some_iff.1 reads
    rw [if_neg even]
    exact ⟨Nat.zero_le _, gs, reads⟩

/-- A subset body of fixed fields is as long as the fields its word carries (R176; log 6). -/
theorem readSubset_length {sizes : List Nat} {word : Nat} {b : List Byte} {fs : List (Option (List Byte))}
    (reads : readSubset (sizes.map .fixed) word b = some fs) : b.length = carriedBytes sizes word := by
  induction sizes generalizing word b fs with
  | nil =>
    cases b with
    | nil => rfl
    | cons => cases reads
  | cons k sizes ih =>
    obtain ⟨there, gs, reads⟩ := readSubset_cons reads
    have after := ih reads
    rw [List.length_drop] at after
    rw [carriedBytes_cons, ← after]
    change _ = (if word % 2 = 1 then (Width.fixed k).length b else 0) + _
    omega

/-- The count of a class support field is the byte after the fields before it (R184). -/
theorem entries_length (b : List Byte) : Width.entries.length b = 1 + 3 * (b.getD 0 0).toNat := by
  cases b <;> rfl

/-- A CONFIGURE TOWER body is as long as the fields its word carries (R176; log 6). -/
theorem readSubset_tower_length {word : Nat} {b : List Byte} {fs : List (Option (List Byte))}
    (reads : readSubset towerWidths word b = some fs) :
    b.length = carriedBytes ([1, 1 + 3 * (b.getD (word % 2) 0).toNat] ++ List.replicate 13 1) word := by
  obtain ⟨first, gs, reads⟩ := readSubset_cons reads
  obtain ⟨second, hs, reads⟩ := readSubset_cons reads
  have after := readSubset_length (sizes := List.replicate 13 1) reads
  have skipped : (if word % 2 = 1 then (Width.fixed 1).length b else 0) = word % 2 := by
    rcases Nat.mod_two_eq_zero_or_one word with even | odd
    · simp [even]
    · simp [odd, Width.length]
  have one : (if word % 2 = 1 then 1 else 0) = word % 2 := skipped
  have count : (b.drop (word % 2)).getD 0 0 = b.getD (word % 2) 0 := by simp
  rw [skipped] at first second after
  rw [entries_length, count] at second after
  rw [List.length_drop, List.length_drop] at after
  rw [List.length_drop] at second
  rw [List.cons_append, List.singleton_append, carriedBytes_cons, carriedBytes_cons, ← after, one]
  omega

/-- The number the first four bytes of a body spell. -/
theorem unle_four {b : List Byte} (long : 4 ≤ b.length) : unle (b.take 4) = (b.getD 0 0).toNat +
    2 ^ 8 * (b.getD 1 0).toNat + 2 ^ 16 * (b.getD 2 0).toNat + 2 ^ 24 * (b.getD 3 0).toNat := by
  match b, long with
  | b0 :: b1 :: b2 :: b3 :: rest, _ =>
    simp only [List.take_succ_cons, List.take_zero, unle, List.getD_cons_zero, List.getD_cons_succ]
    omega

theorem bodyConfigure_malformed {b : List Byte} (other : b.length < 4 ∨ b.length ≠ 4 +
      carriedBytes ([1, 1 + 3 * (b.getD (4 + unle (b.take 4) % 2) 0).toNat] ++ List.replicate 13 1)
        (unle (b.take 4))) : bodyConfigure tag b = .malformed := by
  have none : readSubsetBody towerWidths b = none := by
    unfold readSubsetBody
    split
    case isTrue long =>
      cases reads : readSubset towerWidths (unle (b.take 4)) (b.drop 4) with
      | none => rfl
      | some fs =>
        have length := readSubset_tower_length reads
        have count : ∀ k, (b.drop 4).getD k 0 = b.getD (4 + k) 0 := by simp
        rw [List.length_drop, count] at length
        omega
    case isFalse => rfl
  rw [bodyConfigure, none]
  rfl

/-- A body with a presence word and a name, and its fields of another length, is none (log 6). -/
theorem named_malformed {sizes : List Nat} {b fields : List Byte} {p0 p1 p2 p3 name : Byte}
    (is : b = p0 :: p1 :: p2 :: p3 :: name :: fields)
    (other : b.length < 5 ∨ b.length ≠ 5 + carriedBytes sizes (unle (b.take 4))) :
    readSubset (sizes.map .fixed) (unle [p0, p1, p2, p3]) fields = none := by
  cases reads : readSubset (sizes.map .fixed) (unle [p0, p1, p2, p3]) fields with
  | none => rfl
  | some fs =>
    have length := readSubset_length reads
    have word : unle (b.take 4) = unle [p0, p1, p2, p3] := by rw [is]; rfl
    rw [word, is] at other
    simp only [List.length_cons] at other
    omega

theorem bodyChangeJob_malformed {b : List Byte} (other : b.length < 5 ∨ b.length ≠ 5 +
      carriedBytes [4, 1, 1, 1, 2, 1, 1, 1, 1, 1, 1, 1, 1, 4, 1] (unle (b.take 4))) :
    bodyChangeJob tag b = .malformed := by
  unfold bodyChangeJob
  split
  · have none := named_malformed rfl other
    rw [show jobWidths = [4, 1, 1, 1, 2, 1, 1, 1, 1, 1, 1, 1, 1, 4, 1].map .fixed from rfl, none]
    rfl
  · rfl

theorem bodyInk_malformed {b : List Byte} (other : b.length < 5 ∨ b.length ≠ 5 +
      carriedBytes [4, 1, 1] (unle (b.take 4))) : bodyInk tag b = .malformed := by
  unfold bodyInk
  split
  · have none := named_malformed rfl other
    rw [show inkWidths = [4, 1, 1].map .fixed from rfl, none]
    rfl
  · rfl

/-- Settles O7: the tests of a frame in R176's order, and the lengths of each form of body. -/
theorem unreadableFramesAreRefused : Obligations.UnreadableFramesAreRefused := by
  intro s x bytes code tag n rest begun live kept empty taken noNop free l fits replies body word carried
  have answered : ∀ {st : Status}, (∀ p, runFrame (code :: tag :: n :: rest) p = turnDown st p) →
      exec (.selectEnd bytes) s = replies st.code := fun {st} refused => by
    rw [exec_selectEnd_frame begun live kept empty taken noNop free, answer, refused]
    rfl
  have read : fits → ∀ {x}, readRequest code tag body = x → readFrame (code :: tag :: n :: rest) = x :=
    fun ⟨short, there, padding⟩ _ reads => (readFrame_fits short there padding).trans reads
  have malformed : readFrame (code :: tag :: n :: rest) = .malformed → exec (.selectEnd bytes) s = replies 0x20 :=
    fun reads => answered (st := .malformed) fun p => runFrame_refused p (.inl ⟨reads, rfl⟩)
  have length : fits → body.length = n.toNat := fun ⟨_, there, _⟩ => by
    simp only [body, List.length_take]
    omega
  have spelled : 4 ≤ body.length → unle (body.take 4) = word := unle_four
  refine ⟨fun unfit => malformed ?_, fun fit none configure changeJob ink => ?_,
    fun fit k fixed other => malformed (read fit (readRequest_length fixed (by rwa [length fit]))),
    fun fit stop one notNormal notAbrupt => ?_, fun fit configure other => malformed (read fit ?_),
    fun fit changeJob other => malformed (read fit ?_), fun fit ink other => malformed (read fit ?_)⟩
  · have notFits : lengthFits (code :: tag :: n :: rest) = false := by
      refine Bool.eq_false_iff.2 fun fit => unfit ?_
      simp only [lengthFits, Bool.and_eq_true, decide_eq_true_eq, List.all_eq_true, beq_iff_eq, and_assoc] at fit
      exact fit
    simp only [readFrame, notFits, Bool.false_eq_true, if_false]
  · exact answered (st := .unknown) fun p =>
      runFrame_refused p (.inr (.inl ⟨read fit (readRequest_unknown none configure changeJob ink), rfl⟩))
  · refine answered (st := .outOfRange) fun p => runFrame_refused p (.inr (.inr ⟨read fit ?_, rfl⟩))
    subst stop one
    obtain ⟨_, there, _⟩ := fit
    obtain _ | ⟨m, rest⟩ := rest
    · cases there
    · have noNormal : m ≠ 0 := by simpa using notNormal
      have noAbrupt : m ≠ 1 := by simpa using notAbrupt
      change (if m = 0 then _ else if m = 1 then _ else _) = _
      rw [if_neg noNormal, if_neg noAbrupt]
  · subst configure
    refine bodyConfigure_malformed ?_
    rw [length fit]
    rcases Nat.lt_or_ge n.toNat 4 with short | long
    · exact .inl short
    · rw [spelled (by rw [length fit]; exact long)]
      exact other
  · subst changeJob
    refine bodyChangeJob_malformed ?_
    rw [length fit]
    rcases Nat.lt_or_ge n.toNat 5 with short | long
    · exact .inl short
    · rw [spelled (by rw [length fit]; omega)]
      exact other
  · subst ink
    refine bodyInk_malformed ?_
    rw [length fit]
    rcases Nat.lt_or_ge n.toNat 5 with short | long
    · exact .inl short
    · rw [spelled (by rw [length fit]; omega)]
      exact other

end Sys2Proof.Machine
end

