-- ==== Sys2Proof/Proofs/KeptRecords.lean ====
section
/-! PROOF. The invariants of causes and of ranges, operation by operation: what the records' shared operations
keep (R22, R43, R45, R47, R63, R79, R86, R93, R144, R147, R148, R161, R164, R165). -/

namespace Sys2Proof.Machine

-- One proof after another: side by side, their threads' stacks pass the check's memory limit.
set_option Elab.async false

variable {p q u : Part} {b : Fin 12} {r : Fin 24} {x : Fin 16}

/-! ## Changes that keep both invariants -/

/-- If `p` meets the invariant of causes, or of ranges, so does `q`. -/
structure Part.Keeps (p q : Part) : Prop where
  causes : p.CausesOk → q.CausesOk
  ranges : p.RangesOk → q.RangesOk

theorem Part.Keeps.refl (p : Part) : p.Keeps p := ⟨id, id⟩

theorem Part.Keeps.trans (h : p.Keeps q) (h' : q.Keeps u) : p.Keeps u :=
  ⟨h'.causes ∘ h.causes, h'.ranges ∘ h.ranges⟩

/-- The composition taken from its last operation on, as the operations' definitions are written. -/
theorem Part.Keeps.after (h' : q.Keeps u) (h : p.Keeps q) : p.Keeps u := h.trans h'

/-- A fold of updates that each keep the invariants. -/
theorem Part.Keeps.fold {α : Type} {op : Part → α → Part} (each : ∀ (q : Part) (a : α), q.Keeps (op q a))
    (l : List α) (p : Part) : p.Keeps (l.foldl op p) := by
  induction l generalizing p with
  | nil => exact .refl p
  | cons a l ih => exact (each p a).trans (ih _)

/-- The fields no invariant speaks of. -/
def Field.neutral : Field → Bool
  | .bays => false | .station => false | .arm => false | .tower => false | .media => false
  | .defaultCap => false | .spindleA => false | .spindleB => false | .output => false | .bin => false
  | .jobs => false | .ink => false | .templates => false
  | _ => true

/-- A change of fields no invariant speaks of. -/
theorem Part.Changes.keeps {fs : List Field} (h : p.Changes fs q) (free : fs.all Field.neutral = true := by rfl) :
    p.Keeps q := by
  have same : ∀ f, Field.neutral f = false → p.SameAt q f := fun f speaks => h f fun mem => by
    have := List.all_eq_true.1 free f mem
    simp [speaks] at this
  have bays : q.bays = p.bays := same .bays rfl
  have station : q.station = p.station := same .station rfl
  have arm : q.arm = p.arm := same .arm rfl
  have tower : q.tower = p.tower := same .tower rfl
  have media : q.media = p.media := same .media rfl
  have defaultCap : q.defaultCap = p.defaultCap := same .defaultCap rfl
  have spindleA : q.spindleA = p.spindleA := same .spindleA rfl
  have spindleB : q.spindleB = p.spindleB := same .spindleB rfl
  have output : q.output = p.output := same .output rfl
  have bin : q.bin = p.bin := same .bin rfl
  have jobs : q.jobs = p.jobs := same .jobs rfl
  have ink : q.ink = p.ink := same .ink rfl
  have templates : q.templates = p.templates := same .templates rfl
  refine ⟨fun ok => ⟨?_, ?_, ?_, ?_⟩, fun ok => ⟨?_, ?_, ?_, ?_, ?_, ?_, ?_, ?_, ?_, ?_, ?_, ?_⟩⟩
  · simpa only [Part.bay, bays] using ok.bays
  · simpa only [station] using ok.station
  · simpa only [arm] using ok.arm
  · simpa only [tower] using ok.tower
  · simpa only [Part.entry, media] using ok.media
  · simpa only [defaultCap] using ok.defaultCap
  · intro s
    cases s
    · simpa only [Part.spindle, spindleA] using ok.spindles .a
    · simpa only [Part.spindle, spindleB] using ok.spindles .b
  · simpa only [output] using ok.output
  · simpa only [bin] using ok.bin
  · simpa only [Part.job, jobs] using ok.jobs
  · simpa only [Part.bay, bays] using ok.bays
  · simpa only [Part.bay, bays] using ok.support
  · simpa only [Part.inkChannel, ink] using ok.ink
  · simpa only [Part.template, templates] using ok.templates
  · simpa only [tower] using ok.tower
  · simpa only [station] using ok.gate

/-! ## One record written -/

/-- A bay's *fault cause* is held in FAULTED alone (R63). -/
abbrev Bay.CauseOk (x : Bay) : Prop := x.faultCause.isSome = true ↔ x.state = .faulted

/-- A bay record that may stand for another: its cause and its ranges are as good. -/
structure Bay.Keeps (x y : Bay) : Prop where
  cause : x.CauseOk → y.CauseOk
  counts : x.countsOk → y.countsOk
  support : x.supportOk → y.supportOk

theorem setBay_keeps {y : Bay} (h : (p.bay b).Keeps y) : p.Keeps (p.setBay b y) where
  causes ok :=
    { ok with
      bays := fun c => by
        rw [Part.setBay_get]
        split
        · exact h.cause (ok.bays b)
        · exact ok.bays c }
  ranges ok :=
    { ok with
      bays := fun c => by
        rw [Part.setBay_get]
        split
        · exact h.counts (ok.bays b)
        · exact ok.bays c
      support := fun c => by
        rw [Part.setBay_get]
        split
        · exact h.support (ok.support b)
        · exact ok.support c }

theorem modBay_keeps {f : Bay → Bay} (h : ∀ x : Bay, x.Keeps (f x)) : p.Keeps (p.modBay b f) := setBay_keeps (h _)

/-- A job record written in its ranges. -/
theorem setJob_keeps {o : Option Job} (h : p.RangesOk → ∀ j, o = some j → j.ok) : p.Keeps (p.setJob x o) where
  causes ok := { ok with }
  ranges ok :=
    { ok with
      jobs := fun y j held => by
        rw [Part.setJob_get] at held
        split at held
        · exact h ok j held
        · exact ok.jobs y j held }

theorem modJob_keeps {f : Job → Job} (h : ∀ j, j.ok → (f j).ok) : p.Keeps (p.modJob x f) :=
  setJob_keeps fun ok j held => by
    obtain ⟨k, is, rfl⟩ := Option.map_eq_some_iff.1 held
    exact h k (ok.jobs x k is)

theorem setInk_keeps {k : Fin 4} {c : InkChannel} (h : (p.inkChannel k).ok → c.ok) : p.Keeps (p.setInk k c) where
  causes ok := { ok with }
  ranges ok :=
    { ok with
      ink := fun l => by
        rw [Part.setInk_get]
        split
        · exact h (ok.ink k)
        · exact ok.ink l }

theorem setTemplate_keeps {t : Fin 8} {o : Option Template} (h : p.RangesOk → ∀ y, o = some y → y.ok) :
    p.Keeps (p.setTemplate t o) where
  causes ok := { ok with }
  ranges ok :=
    { ok with
      templates := fun l y held => by
        rw [Part.setTemplate_get] at held
        split at held
        · exact h ok y held
        · exact ok.templates l y held }

theorem setEntry_keeps {e : Fin 16} {o : Option MediaEntry} (h : p.RangesOk → ∀ y, o = some y → y.ok) :
    p.Keeps (p.setEntry e o) where
  causes ok := { ok with }
  ranges ok :=
    { ok with
      media := fun l y held => by
        rw [Part.setEntry_get] at held
        split at held
        · exact h ok y held
        · exact ok.media l y held }

theorem setSpindle_keeps {s : SpindleId} {y : Spindle} (h : (p.spindle s).ok → y.ok) :
    p.Keeps (p.setSpindle s y) := by
  cases s with
  | a =>
    exact ⟨fun ok => { ok with }, fun ok => { ok with
      spindles := fun s => by
        cases s
        · exact h (ok.spindles .a)
        · exact ok.spindles .b }⟩
  | b =>
    exact ⟨fun ok => { ok with }, fun ok => { ok with
      spindles := fun s => by
        cases s
        · exact ok.spindles .a
        · exact h (ok.spindles .b) }⟩

theorem output_keeps {y : Sink} (h : y.capacity = p.output.capacity) : p.Keeps { p with output := y } :=
  ⟨fun ok => { ok with }, fun ok => { ok with output := by rw [h]; exact ok.output }⟩

theorem bin_keeps {y : Sink} (h : y.capacity = p.bin.capacity) : p.Keeps { p with bin := y } :=
  ⟨fun ok => { ok with }, fun ok => { ok with bin := by rw [h]; exact ok.bin }⟩

/-- The arm written, with a halt cause in HALTED alone. -/
theorem arm_keeps {a : Arm}
    (h : (p.arm.halt.isSome = true ↔ p.arm.state = .halted) → (a.halt.isSome = true ↔ a.state = .halted)) :
    p.Keeps { p with arm := a } :=
  ⟨fun ok => { ok with arm := h ok.arm }, fun ok => { ok with }⟩

/-- The station written, with a fault cause in FAULT alone and the gate's limits kept. -/
theorem station_keeps {y : Station}
    (cause : (p.station.faultCause.isSome = true ↔ p.station.state = .fault) →
      (y.faultCause.isSome = true ↔ y.state = .fault))
    (limits : p.station.limitsOk → y.limitsOk) : p.Keeps { p with station := y } :=
  ⟨fun ok => { ok with station := cause ok.station }, fun ok => { ok with gate := limits ok.gate }⟩

/-- *resume state* is held in PAUSED and HALTED alone (R164). -/
abbrev Tower.ResumeOk (t : Tower) : Prop := t.resume.isSome = true ↔ (t.state = .paused ∨ t.state = .halted)

/-- Tower control's record written, with a resume state in PAUSED and HALTED alone. -/
theorem tower_keeps {t : Tower} (resume : p.tower.ResumeOk → t.ResumeOk) (settings : p.tower.ok → t.ok) :
    p.Keeps { p with tower := t } :=
  ⟨fun ok => { ok with tower := resume ok.tower }, fun ok => { ok with tower := settings ok.tower }⟩

/-! ## Jobs -/

theorem Job.ok.followHolds {j : Job} (ok : j.ok) : j.followHolds.ok := by
  unfold Job.followHolds
  split
  · exact { ok with }
  · exact { ok with }
  · exact ok

theorem changeHolds_keeps {f : Holds → Holds} : p.Keeps (changeHolds x f p) :=
  modJob_keeps fun j ok => by
    split
    · exact Job.ok.followHolds { ok with }
    · exact ok

theorem changeImageHolds_keeps {i : Fin 32} {f : Holds → Holds} : p.Keeps (changeImageHolds i f p) := by
  refine .fold (fun q y => ?_) _ _
  split
  · split
    · exact changeHolds_keeps
    · exact .refl q
  · exact .refl q

theorem raise_keeps {f : Flag} : p.Keeps (raise f p) := raise_changes.keeps

theorem endJob_keeps {st : JobState} : p.Keeps (endJob x st p) :=
  .after raise_keeps (modJob_keeps fun _ ok => { ok with })

theorem closeIdle_keeps : p.Keeps (closeIdle x p) := by
  unfold closeIdle
  split
  · exact .refl p
  · split
    · split
      · exact endJob_keeps
      · exact endJob_keeps
      · exact .refl p
    · exact .refl p

theorem failJob_keeps : p.Keeps (failJob x p) :=
  .after closeIdle_keeps (modJob_keeps fun _ ok => { ok with })

theorem jobCreated_keeps : p.Keeps (jobCreated x p) := modJob_keeps fun _ ok => { ok with }

theorem jobWithdrawn_keeps : p.Keeps (jobWithdrawn x p) :=
  .after closeIdle_keeps (modJob_keeps fun _ ok => { ok with })

theorem jobDelivered_keeps {unlabelled : Bool} : p.Keeps (jobDelivered x unlabelled p) := by
  unfold jobDelivered
  extract_lets q
  have counted : p.Keeps q := modJob_keeps fun _ ok => { ok with }
  clear_value q
  refine counted.trans ?_
  split
  · exact .refl q
  · split
    · exact endJob_keeps
    · exact closeIdle_keeps

theorem jobRejected_keeps {counts : Bool} : p.Keeps (jobRejected x counts p) := by
  unfold jobRejected
  extract_lets q
  have counted : p.Keeps q := modJob_keeps fun _ ok => { ok with }
  clear_value q
  refine counted.trans ?_
  split
  · exact .refl q
  · split
    · exact failJob_keeps
    · exact closeIdle_keeps

theorem stampPick_keeps : p.Keeps (stampPick x p) := modJob_keeps fun _ ok => { ok with }

/-- A serial issued stays below 10^digits (R155). -/
theorem Job.ok.issue {j : Job} (ok : j.ok) {n : Nat} (digits : j.serials.isSome → j.serialDigits.getD 0 = n) :
    Job.ok { j with serials := j.serials.map (·.issue n) } :=
  { ok with
    serials := fun y held => by
      obtain ⟨old, is, rfl⟩ := Option.map_eq_some_iff.1 held
      obtain ⟨low, high, m, width, first, next⟩ := ok.serials old is
      have := digits (by simp [is])
      simp only [width, Option.getD_some] at this
      subst this
      exact ⟨low, high, m, width, first, Nat.mod_lt _ (by positivity)⟩ }

/-! ## Ink, and the ends of a record -/

theorem eachInk_keeps {f : Fin 4 → InkChannel → InkChannel} (h : ∀ k c, c.ok → (f k c).ok) : p.Keeps (eachInk f p) :=
  .fold (fun _ k => setInk_keeps (h k _)) _ _

theorem reserve_keeps {v : Vector Nat 4} : p.Keeps (reserve r v p) :=
  .after modDisc_changes.keeps (eachInk_keeps fun _ _ ok => ok)

theorem unreserve_keeps : p.Keeps (unreserve r p) := by
  unfold unreserve
  split
  · exact .refl p
  · split
    · exact .refl p
    · exact .after modDisc_changes.keeps (eachInk_keeps fun _ _ ok => ok)

theorem testInkHold_keeps : p.Keeps (testInkHold x p) := by
  unfold testInkHold
  split
  · exact .refl p
  · exact changeHolds_keeps

theorem leaveInkWait_keeps : p.Keeps (leaveInkWait r p) := by
  unfold leaveInkWait
  split
  · extract_lets q
    have left : p.Keeps q := inkWait_changes.keeps
    clear_value q
    refine left.trans ?_
    split
    · exact testInkHold_keeps
    · exact .refl q
  · exact .refl p

theorem attemptReservation_keeps : p.Keeps (attemptReservation r p) := by
  unfold attemptReservation
  split
  · exact .refl p
  · split
    · exact reserve_keeps.trans <| leaveInkWait_keeps.trans <| printQueue_changes.keeps.trans setStage_changes.keeps
    · exact .refl p

theorem retryPass_keeps : p.Keeps (retryPass p) := .fold (fun _ _ => attemptReservation_keeps) _ _

theorem release_keeps : p.Keeps (release r p) := by
  unfold release
  split
  · exact unreserve_keeps.trans retryPass_keeps
  · exact .refl p

theorem leaveLabelUnit_keeps : p.Keeps (leaveLabelUnit r p) :=
  leaveInkWait_keeps.trans (leavePrintQueue_changes.keeps.trans release_keeps)

theorem enterLabelUnit_keeps : p.Keeps (enterLabelUnit r p) := by
  unfold enterLabelUnit
  extract_lets q₁ q
  have attempted : p.Keeps q :=
    inkWait_changes.keeps.trans (setStage_changes.keeps.trans attemptReservation_keeps)
  clear_value q
  refine attempted.trans ?_
  split
  · split
    · exact leaveInkWait_keeps.trans modDisc_changes.keeps
    · exact changeHolds_keeps.trans raise_keeps
    · exact .refl q
  · exact .refl q

theorem finaliseReject_keeps : p.Keeps (finaliseReject r p) := by
  unfold finaliseReject
  split
  · exact .refl p
  · extract_lets q₁ q₂ q₃
    have ended : p.Keeps q₂ := leaveLabelUnit_keeps.trans modDisc_changes.keeps
    refine (ended.trans ?_).trans autoRetire_changes.keeps
    clear_value q₂
    unfold q₃
    split
    · exact jobRejected_keeps
    · exact .refl _

theorem finaliseDelivered_keeps : p.Keeps (finaliseDelivered r p) := by
  unfold finaliseDelivered
  split
  · exact .refl p
  · extract_lets q₁ q₂
    have ended : p.Keeps q₁ := modDisc_changes.keeps
    refine (ended.trans ?_).trans autoRetire_changes.keeps
    clear_value q₁
    unfold q₂
    split
    · exact jobDelivered_keeps
    · exact .refl _

theorem finaliseDropped_keeps : p.Keeps (finaliseDropped r p) := by
  unfold finaliseDropped
  split
  · exact finaliseReject_keeps
  · exact finaliseDelivered_keeps

theorem finaliseLost_keeps : p.Keeps (finaliseLost r p) := writeReject_changes.keeps.trans finaliseReject_keeps

theorem forgetMove_keeps : p.Keeps (forgetMove r p) := by
  rw [forgetMove_eq]
  exact arm_keeps id

theorem foundLost_keeps {pl : Place} : p.Keeps (foundLost pl r p) :=
  setOccupant_changes.keeps.trans (finaliseLost_keeps.trans forgetMove_keeps)

/-! ## Media -/

/-- An outcome learned keeps the entry in its ranges (R86, R93). -/
theorem MediaEntry.ok.learn {e : MediaEntry} (ok : e.ok) (o : RecOutcome) : (e.learn o).ok := by
  obtain ⟨low, high, ceiling, recent, burns, fails⟩ := ok
  have shorter : (if 16 < (e.recent ++ [o]).length then (e.recent ++ [o]).drop 1 else e.recent ++ [o]).length ≤ 16 := by
    split
    · simp only [List.length_drop, List.length_append, List.length_singleton]
      omega
    · omega
  unfold MediaEntry.learn
  extract_lets isFail long recent' counted
  split
  · exact ⟨by dsimp only; omega, by dsimp only [counted]; omega, ceiling, Nat.zero_le _, Nat.min_le_left _ _,
      Nat.min_le_left _ _⟩
  · split
    · exact ⟨by dsimp only [counted]; omega, by dsimp only [counted]; omega, ceiling, Nat.zero_le _,
        Nat.min_le_left _ _, Nat.min_le_left _ _⟩
    · exact ⟨low, high, ceiling, shorter, Nat.min_le_left _ _, Nat.min_le_left _ _⟩

theorem handOutcome_keeps {o : RecOutcome} : p.Keeps (handOutcome r o p) := by
  unfold handOutcome
  split
  · exact .refl p
  · refine setEntry_keeps fun ok y held => ?_
    obtain ⟨e, is, rfl⟩ := Option.map_eq_some_iff.1 held
    exact (ok.media _ e is).learn o

end Sys2Proof.Machine
end

