-- ==== Sys2Proof/Proofs/KeptBlocks.lean ====
section
/-! PROOF. The invariants of causes and of ranges through the blocks' operations: the bays, the read-backs, the
streams, tower control, the printer, the rejects and the handler (R22, R43, R45, R47, R63, R79, R144, R155,
R164). -/

namespace Sys2Proof.Machine

-- One proof after another: side by side, their threads' stacks pass the check's memory limit.
set_option Elab.async false

variable {p q u : Part} {b : Fin 12} {r : Fin 24} {x : Fin 16} {c : Fin 4}

/-! ## Bays -/

theorem Bay.enter_keeps {y : Bay} {st : BayState} (h : st ≠ .faulted) : y.Keeps (y.enter st) :=
  ⟨fun _ => by simp [Bay.CauseOk, Bay.enter, h], id, id⟩

theorem enterBay_keeps {st : BayState} (h : st ≠ .faulted := by decide) : p.Keeps (enterBay b st p) :=
  modBay_keeps fun _ => Bay.enter_keeps h

theorem faultBay_keeps {cause : BayFault} : p.Keeps (faultBay b cause p) :=
  .after raise_keeps (modBay_keeps fun _ => ⟨fun _ => by simp [Bay.CauseOk, Bay.enter], id, id⟩)

/-- Tower control's record with another sweep. -/
theorem sweep_keeps {w : Option Sweep} : p.Keeps { p with tower := { p.tower with sweep := w } } :=
  tower_keeps id fun ok => { ok with }

theorem paySweepReset_keeps : p.Keeps (paySweepReset b p) := by
  unfold paySweepReset
  split
  · exact .refl p
  · exact sweep_keeps

theorem clearBayMark_keeps : p.Keeps (clearBayMark b p) := by
  unfold clearBayMark
  split
  · exact .refl p
  · exact sweep_keeps

theorem endDriveOp_keeps : p.Keeps (endDriveOp b p) := modBay_keeps fun _ => ⟨id, id, id⟩

theorem emit_keeps {o : Sent} : p.Keeps (emit o p) := emit_changes.keeps

theorem sendDrive_keeps {op : DriveOp} {o : DriveOrder} {n : Nat} : p.Keeps (sendDrive b op o n p) :=
  .after emit_keeps (modBay_keeps fun _ => ⟨id, id, id⟩)

theorem resetBay_keeps : p.Keeps (resetBay b p) := by
  unfold resetBay
  extract_lets q u
  have aborted : p.Keeps q := by
    unfold q
    split
    · exact .after emit_keeps endDriveOp_keeps
    · exact .refl p
  clear_value q
  have sent : q.Keeps u := sendDrive_keeps
  clear_value u
  refine (aborted.trans sent).trans (.after paySweepReset_keeps (modBay_keeps fun y => ?_))
  exact ⟨fun _ => by simp [Bay.CauseOk, Bay.enter], id, id⟩

theorem ejectBay_keeps : p.Keeps (ejectBay b p) := .after enterBay_keeps sendDrive_keeps

theorem loadBay_keeps : p.Keeps (loadBay b p) := .after enterBay_keeps sendDrive_keeps

theorem emptyBay_keeps : p.Keeps (emptyBay b p) := by
  unfold emptyBay
  split
  · exact faultBay_keeps
  · split <;> exact enterBay_keeps

theorem releaseBay_keeps : p.Keeps (releaseBay b p) := by
  unfold releaseBay
  split
  · split <;> exact enterBay_keeps
  · exact .refl p

theorem bayVacated_keeps : p.Keeps (bayVacated b p) := by
  unfold bayVacated
  split
  · exact emptyBay_keeps
  · exact ejectBay_keeps
  · exact .refl p

theorem presentBay_keeps : p.Keeps (presentBay b p) := by
  unfold presentBay
  extract_lets q
  have entered : p.Keeps q := enterBay_keeps
  clear_value q
  refine entered.trans ?_
  split
  · exact orderIfDue_changes.keeps
  · exact .refl q

theorem trayRule_keeps : p.Keeps (trayRule b p) := by
  unfold trayRule
  split
  · exact .refl p
  · split
    · split
      · exact ejectBay_keeps
      · exact .refl p
    · exact orderIfDue_changes.keeps
    · exact .refl p

theorem trayRules_keeps : p.Keeps (trayRules p) := .fold (fun _ _ => trayRule_keeps) _ _

theorem countFailure_keeps : p.Keeps (countFailure b p) :=
  modBay_keeps fun _ => ⟨id, fun ⟨_, loads, goods, _⟩ => ⟨Nat.min_le_left _ _, loads, goods, Nat.min_le_left _ _⟩, id⟩

theorem countGood_keeps : p.Keeps (countGood b p) :=
  modBay_keeps fun _ => ⟨id, fun ⟨_, loads, _, failures⟩ => ⟨Nat.zero_le _, loads, Nat.min_le_left _ _, failures⟩, id⟩

theorem endReset_keeps : p.Keeps (endReset b p) :=
  .after clearBayMark_keeps (.after (modBay_keeps fun _ => ⟨id, id, id⟩) endDriveOp_keeps)

theorem createFound_keeps {pl : Place} : p.Keeps (createFound pl p).1 := createFound_changes.keeps

theorem bayFinding_keeps {tray : Tray} : p.Keeps (bayFinding b tray p) := by
  unfold bayFinding
  dsimp only
  split
  · split
    · exact .after enterBay_keeps createFound_keeps
    · exact .after loadBay_keeps createFound_keeps
  · exact .after faultBay_keeps createFound_keeps

/-! ## Read-backs -/

theorem setContext_keeps {o : Option Context} : p.Keeps (p.setContext b o) := setContext_changes.keeps

theorem modDisc_keeps {f : Disc → Disc} : p.Keeps (p.modDisc r f) := modDisc_changes.keeps

theorem setStage_keeps {st : Stage} : p.Keeps (setStage r st p) := setStage_changes.keeps

theorem writeReject_keeps {why : Reason} : p.Keeps (writeReject r why p) := writeReject_changes.keeps

theorem sendRead_keeps {ctx : Context} {s n : Nat} : p.Keeps (sendRead b ctx s n p) :=
  .after sendDrive_keeps setContext_keeps

theorem askNext_keeps : p.Keeps (askNext b p) := by
  unfold askNext
  split
  · exact .refl p
  · split
    · exact .refl p
    · split
      · exact sendRead_keeps
      · exact setContext_keeps

theorem wakeReadBacks_keeps {i : Fin 32} : p.Keeps (wakeReadBacks i p) := by
  refine .fold (fun q b => ?_) _ _
  split
  · split
    · exact askNext_keeps
    · exact .refl q
  · exact .refl q

theorem startReadBack_keeps {i : Fin 32} {plan : Plan} : p.Keeps (startReadBack b r i plan p) :=
  .after askNext_keeps (.after modDisc_keeps (.after setContext_keeps enterBay_keeps))

theorem goodGoesOn_keeps {kind : JobKind} : p.Keeps (goodGoesOn b r kind p) := by
  unfold goodGoesOn
  refine .after ?_ (enterBay_keeps (b := b) (st := .holding))
  cases kind with
  | burn => exact setStage_keeps
  | print => exact setStage_keeps
  | burnPrint => exact enterLabelUnit_keeps

theorem verdictGood_keeps {kind : JobKind} : p.Keeps (verdictGood b r kind p) :=
  .after goodGoesOn_keeps <| .after countGood_keeps <| .after handOutcome_keeps writeGood_changes.keeps

theorem verdictFail_keeps : p.Keeps (verdictFail b r p) :=
  .after ejectBay_keeps <| .after countFailure_keeps <| .after handOutcome_keeps <| .after setStage_keeps writeReject_keeps

theorem takeVerdict_keeps : p.Keeps (takeVerdict b r p) := by
  unfold takeVerdict
  extract_lets q
  have ended : p.Keeps q := setContext_keeps
  clear_value q
  refine ended.trans ?_
  split
  · split
    · exact verdictGood_keeps
    · exact verdictFail_keeps
  · exact .refl q

theorem takeRead_keeps {hit : Bool} : p.Keeps (takeRead b hit p) := by
  unfold takeRead
  split
  · exact .refl p
  · split
    · exact .refl p
    · extract_lets q settled segments next told
      have ended : p.Keeps q := endDriveOp_keeps
      clear_value q
      refine ended.trans ?_
      split
      · exact sendRead_keeps
      · have counted : q.Keeps told := .after setContext_keeps modDisc_keeps
        clear_value told
        refine counted.trans ?_
        split
        · exact askNext_keeps
        · exact takeVerdict_keeps

/-! ## Streams -/

theorem setChannel_keeps {y : Channel} : p.Keeps (p.setChannel c y) := setChannel_changes.keeps

theorem freeChannel_keeps : p.Keeps (freeChannel c p) := freeChannel_changes.keeps

theorem readChunk_keeps {i : Image} {chunk n : Nat} : p.Keeps (readChunk c i chunk n p).1 := readChunk_changes.keeps

theorem setImage_keeps {i : Fin 32} {o : Option Image} : p.Keeps (p.setImage i o) := setImage_changes.keeps

theorem imageBecomesReady_keeps {i : Fin 32} : p.Keeps (imageBecomesReady i p) :=
  .after wakeReadBacks_keeps (.after changeImageHolds_keeps raise_keeps)

theorem sendChunks_keeps : p.Keeps (sendChunks c p) := by
  unfold sendChunks
  split
  · exact .refl p
  · refine .after setChannel_keeps (.fold (fun q m => ?_) _ _)
    exact .after emit_keeps (modBay_keeps fun _ => ⟨id, id, id⟩)

theorem pumpStream_keeps : p.Keeps (pumpStream c p) :=
  .after testSplit_changes.keeps (.after fetchNext_changes.keeps (.after moveTail_changes.keeps sendChunks_keeps))

theorem pumpStreams_keeps : p.Keeps (pumpStreams p) := .fold (fun _ _ => pumpStream_keeps) _ _

theorem closeIfEmpty_keeps : p.Keeps (closeIfEmpty c p) := closeIfEmpty_changes.keeps

theorem leaveStream_keeps : p.Keeps (leaveStream b p) := by
  unfold leaveStream
  split
  · exact .refl p
  · extract_lets q u
    have left : p.Keeps q := modBay_keeps fun _ => ⟨id, id, id⟩
    clear_value q
    have cleared : q.Keeps u := by
      unfold u
      split
      · exact modDisc_keeps
      · exact .refl q
    clear_value u
    refine (left.trans cleared).trans ?_
    split
    · exact .refl u
    · exact .after closeIfEmpty_keeps setChannel_keeps

theorem bayJoined_keeps {n : Nat} : p.Keeps (bayJoined b c n p) := by
  unfold bayJoined
  split
  · exact .refl p
  · exact .after (modBay_keeps fun _ => ⟨id, id, id⟩) <| .after enterBay_keeps <| .after sendDrive_keeps modDisc_keeps

theorem attach_keeps {i : Fin 32} : p.Keeps (attach b i p) := by
  unfold attach
  extract_lets blocks fits
  split
  · split
    · exact .after bayJoined_keeps setChannel_keeps
    · exact .refl p
  · exact streamReqs_changes.keeps

theorem grantStream_keeps {y : StreamReq} : p.Keeps (grantStream y c p) := by
  unfold grantStream
  split
  · exact .refl p
  · exact .after (.fold (fun _ _ => bayJoined_keeps) _ _) (.after setChannel_keeps streamReqs_changes.keeps)

theorem grantSplit_keeps {old : Fin 4} : p.Keeps (grantSplit old c p) := by
  unfold grantSplit
  extract_lets q
  have withdrawn : p.Keeps q := splitReqs_changes.keeps
  clear_value q
  refine withdrawn.trans ?_
  split
  · exact .refl q
  · split
    · exact .refl q
    · extract_lets q₁ q₂ q₃ q₄
      have moved : q.Keeps q₃ :=
        .after (modBay_keeps fun _ => ⟨id, id, id⟩) (.after setChannel_keeps setChannel_keeps)
      clear_value q₃
      refine .after closeIfEmpty_keeps (moved.trans ?_)
      unfold q₄
      split
      · exact modDisc_keeps
      · exact .refl q₃

theorem grantChannel_keeps (h : grantChannel p = some q) : p.Keeps q := by
  unfold grantChannel at h
  split at h
  · exact Option.some.inj h ▸ grantSplit_keeps
  · exact Option.some.inj h ▸ grantStream_keeps
  · split at h
    · exact Option.some.inj h ▸ grantSurvey_changes.keeps
    · cases h

theorem grantRound_keeps : p.Keeps (grantRound p) := by
  unfold grantRound
  split
  case h_1 granted => exact pumpStreams_keeps.trans (grantChannel_keeps granted)
  case h_2 => exact pumpStreams_keeps

theorem settleStreams_keeps : p.Keeps (settleStreams p) :=
  .after pumpStreams_keeps (.fold (fun _ _ => grantRound_keeps) _ _)

theorem surveyRead_keeps {s : Survey} : p.Keeps (surveyRead c s p) := by
  unfold surveyRead
  split
  · exact .refl p
  · extract_lets progress q₁ q₂ sent
    split
    · exact .after imageBecomesReady_keeps (.after freeChannel_keeps setImage_keeps)
    · exact .after setChannel_keeps (.after readChunk_keeps setImage_keeps)

theorem takeData_keeps {id : Nat} : p.Keeps (takeData c id p) := by
  unfold takeData
  split
  · split
    · exact setChannel_keeps
    · exact surveyRead_keeps
    · exact .refl p
  · exact .refl p

theorem memberReady_keeps : p.Keeps (memberReady b p) := by
  unfold memberReady
  split
  · exact .refl p
  · split
    · exact .refl p
    · split
      · exact .refl p
      · split
        · exact .after setChannel_keeps (modBay_keeps fun _ => ⟨id, id, id⟩)
        · exact .refl p

theorem memberFinished_keeps : p.Keeps (memberFinished b r p) :=
  .after setStage_keeps <| .after enterBay_keeps <| .after sendDrive_keeps <| .after leaveStream_keeps endDriveOp_keeps

theorem memberAck_keeps : p.Keeps (memberAck b p) := by
  unfold memberAck
  split
  · split
    · exact .refl p
    · split
      · split
        · split
          · exact .after memberFinished_keeps modDisc_keeps
          · exact .after setChannel_keeps (.after (modBay_keeps fun _ => ⟨id, id, id⟩) modDisc_keeps)
        · exact .refl p
      · exact .refl p
  · exact .refl p

/-! ## Tower control -/

/-- A tower state entered, with the resume state held as the state asks. -/
theorem enterTower_keeps {st : TowerState} (h : p.tower.ResumeOk → (p.tower.resume.isSome = true ↔ (st = .paused ∨ st = .halted))) :
    p.Keeps (enterTower st p) :=
  .after raise_keeps (tower_keeps h fun ok => { ok with })

/-- A tower state entered with another resume state. -/
theorem enterTower_resume_keeps {st : TowerState} {o : Option Resume} {w : Option Sweep}
    (h : o.isSome = true ↔ (st = .paused ∨ st = .halted)) :
    p.Keeps (enterTower st { p with tower := { p.tower with resume := o, sweep := w } }) :=
  .after raise_keeps (tower_keeps (p := p) (t := { p.tower with resume := o, sweep := w, state := st }) (fun _ => h)
    fun ok => { ok with })

theorem pauseTower_keeps : p.Keeps (pauseTower p) := by
  unfold pauseTower
  split
  · exact enterTower_resume_keeps (w := p.tower.sweep) (by simp)
  · exact .refl p

theorem haltTower_keeps : p.Keeps (haltTower p) := by
  unfold haltTower
  split
  · exact enterTower_resume_keeps (w := p.tower.sweep) (by simp)
  · split
    case isTrue paused => exact enterTower_keeps fun ok => by simp [ok.2 (.inl paused)]
    case isFalse => exact .refl p

theorem resumeTower_keeps : p.Keeps (resumeTower p) := by
  unfold resumeTower
  split
  · split
    case h_1 y _ => exact enterTower_resume_keeps (w := p.tower.sweep) (by cases y <;> simp [Resume.state])
    case h_2 => exact .refl p
  · exact .refl p

theorem clearArmMark_keeps : p.Keeps (clearArmMark p) := sweep_keeps

theorem clearPrinterMark_keeps : p.Keeps (clearPrinterMark p) := sweep_keeps

/-- A tower that is neither PAUSED nor HALTED enters another such state: no resume state is held. -/
theorem enterTower_going_keeps {st : TowerState} (paused : p.tower.state ≠ .paused) (halted : p.tower.state ≠ .halted)
    (goes : st ≠ .paused ∧ st ≠ .halted := by decide) : p.Keeps (enterTower st p) :=
  enterTower_keeps fun ok => ok.trans (by simp [paused, halted, goes])

theorem testAbort_keeps : p.Keeps (testAbort p) := by
  unfold testAbort
  split
  case isTrue h => exact enterTower_going_keeps (by simp [h.1]) (by simp [h.1])
  case isFalse => exact .refl p

theorem sweepFollow_keeps : p.Keeps (sweepFollow b p) := by
  unfold sweepFollow
  split
  · exact .refl p
  · split
    · split
      · exact clearBayMark_keeps
      · exact resetBay_keeps
    · exact .refl p

theorem settleTower_keeps : p.Keeps (settleTower p) := by
  unfold settleTower
  extract_lets q
  have swept : p.Keeps q := .fold (fun _ _ => sweepFollow_keeps) _ _
  clear_value q
  refine swept.trans ?_
  split
  case h_1 starting =>
    have paused : q.tower.state ≠ .paused := by simp [starting]
    have halted : q.tower.state ≠ .halted := by simp [starting]
    split
    · split
      · exact .after (enterTower_going_keeps paused halted) sweep_keeps
      · exact .refl q
    · exact enterTower_going_keeps paused halted
  case h_2 stopping =>
    split
    · exact enterTower_going_keeps (by simp [stopping]) (by simp [stopping])
    · exact .refl q
  case h_3 => exact .refl q

/-! ## The printer -/

theorem raiseIf_keeps {t : Bool} {f : Flag} : p.Keeps (raiseIf t f p) := raiseIf_changes.keeps

theorem takeTemperature_keeps {t : Nat} : p.Keeps (takeTemperature t p) := .after raiseIf_keeps (station_keeps id id)

theorem enterStation_keeps {st : StationState} (h : st ≠ .fault := by decide) : p.Keeps (enterStation st p) :=
  station_keeps (fun _ => by simp [h]) id

theorem faultStation_keeps {cause : StationFault} : p.Keeps (faultStation cause p) :=
  station_keeps (fun _ => by simp) id

theorem sendQuery_keeps : p.Keeps (sendQuery p) := .after emit_keeps (station_keeps id id)

theorem giveOrder_keeps : p.Keeps (giveOrder r p) := giveOrder_changes.keeps

theorem finishStation_keeps : p.Keeps (finishStation p) := by
  unfold finishStation
  extract_lets q
  have entered : p.Keeps q := enterStation_keeps
  clear_value q
  refine entered.trans ?_
  split
  · split
    · exact .refl q
    · exact giveOrder_keeps
  · exact .refl q

theorem trayVacated_keeps : p.Keeps (trayVacated p) := by
  unfold trayVacated
  split
  · exact enterStation_keeps
  · exact .refl p

theorem placeOnTray_keeps : p.Keeps (placeOnTray r p) := by
  unfold placeOnTray
  split
  · extract_lets q
    have staged : p.Keeps q := setStage_keeps
    clear_value q
    refine staged.trans ?_
    split
    · exact .refl q
    · exact finishStation_keeps
  · extract_lets q
    have staged : p.Keeps q := setStage_keeps
    clear_value q
    refine staged.trans ?_
    split
    · exact .refl q
    · exact enterStation_keeps

/-- The label order keeps the invariants when it is given the job's own record, whose digits bound the serials. -/
theorem orderLabel_keeps {j : Job} {t : Template} (held : p.job x = some j) : p.Keeps (orderLabel r x j t p) := by
  unfold orderLabel
  refine .after (station_keeps id id) (.after enterStation_keeps (.after emit_keeps (.after (setJob_keeps ?_) modDisc_keeps)))
  intro ok y is
  obtain ⟨k, was, rfl⟩ := Option.map_eq_some_iff.1 is
  have same : k = j := by
    rw [Part.modDisc, Part.setDisc_job, held] at was
    exact (Option.some.inj was).symm
  subst same
  exact (ok.jobs x k was).issue fun _ => rfl

theorem labelOrder_keeps : p.Keeps (labelOrder p) := by
  unfold labelOrder
  split
  · split
    · exact .refl p
    · split
      · exact .refl p
      · split
        case h_1 y j _ named held _ =>
          refine orderLabel_keeps ?_
          obtain ⟨d, is, job⟩ := Option.bind_eq_some_iff.1 named
          simpa [Part.jobOf, is, job] using held
        case h_2 => exact .refl p
  · exact .refl p

theorem settleInk_keeps {v : Vector Nat 4} : p.Keeps (settleInk r v p) := by
  unfold settleInk
  extract_lets q
  have removed : p.Keeps q := unreserve_keeps
  clear_value q
  refine removed.trans (.after retryPass_keeps (.after raiseInkLow_changes.keeps (eachInk_keeps fun k y ok => ?_)))
  obtain ⟨level, rest⟩ := ok
  exact ⟨(Nat.sub_le _ _).trans level, rest⟩

theorem labelledDisc_keeps {failed : Bool} : p.Keeps (labelledDisc r failed p) := labelledDisc_changes.keeps

theorem payQuery_keeps : p.Keeps (payQuery p) := by
  unfold payQuery
  split
  · split
    · exact .after sendQuery_keeps sweep_keeps
    · exact .refl p
  · exact .refl p

theorem endLabel_keeps {v : Vector Nat 4} {failed : Bool} {fault : Option StationFault} :
    p.Keeps (endLabel v failed fault p) := by
  unfold endLabel
  extract_lets s q₁ q₂ q₃
  have ended : p.Keeps q₁ := station_keeps id id
  clear_value q₁
  have settled : q₁.Keeps q₂ := by
    unfold q₂
    split
    · exact .after labelledDisc_keeps settleInk_keeps
    · exact .refl q₁
  clear_value q₂
  refine (ended.trans settled).trans (.after payQuery_keeps ?_)
  unfold q₃
  split
  · exact finishStation_keeps
  · extract_lets q₄
    have faulted : q₂.Keeps q₄ := faultStation_keeps
    clear_value q₄
    refine faulted.trans ?_
    split
    · exact giveOrder_keeps
    · exact .refl q₄

theorem trayFinding_keeps : p.Keeps (trayFinding p) := by
  unfold trayFinding
  dsimp only
  split
  · exact .after finishStation_keeps createFound_keeps
  · exact .after faultStation_keeps createFound_keeps

theorem statusReady_keeps {present : Bool} : p.Keeps (statusReady present p) := by
  unfold statusReady
  split
  · split
    · exact trayFinding_keeps
    · exact enterStation_keeps
  · split
    · split
      · exact enterStation_keeps
      · exact finishStation_keeps
    · exact .after enterStation_keeps foundLost_keeps

/-! ## Rejects and failures -/

theorem bayReject_keeps : p.Keeps (bayReject b p) := by
  unfold bayReject
  split
  · exact resetBay_keeps
  · exact resetBay_keeps
  · exact resetBay_keeps
  · exact .after resetBay_keeps leaveStream_keeps
  · exact .after resetBay_keeps setContext_keeps
  · exact .after enterBay_keeps withdrawRequest_changes.keeps
  · exact .refl p

theorem rejectUnprinted_keeps : p.Keeps (rejectUnprinted r p) := by
  unfold rejectUnprinted
  extract_lets q
  have released : p.Keeps q := .after setStage_keeps release_keeps
  clear_value q
  refine released.trans ?_
  split
  · exact finishStation_keeps
  · exact giveOrder_keeps
  · exact .refl q

theorem propagateReject_keeps : p.Keeps (propagateReject r p) := by
  unfold propagateReject
  split
  · exact .refl p
  · split
    · exact .refl p
    · exact .refl p
    · exact .refl p
    · split
      · exact .refl p
      · exact rejectUnprinted_keeps
    · extract_lets q
      have left : p.Keeps q := .after setStage_keeps leaveLabelUnit_keeps
      clear_value q
      refine left.trans ?_
      split
      · exact bayReject_keeps
      · split
        · exact giveOrder_keeps
        · exact .refl q
      · exact .refl q

theorem rejectDisc_keeps {why : Reason} : p.Keeps (rejectDisc r why p) := by
  unfold rejectDisc
  split
  · exact writeReject_keeps
  · exact .after propagateReject_keeps writeReject_keeps

theorem bayFailure_keeps {why : Reason} : p.Keeps (bayFailure b why p) := by
  unfold bayFailure
  split
  · exact resetBay_keeps
  · extract_lets pending q₁ q₂ q₃
    have left : p.Keeps q₂ :=
      .after leaveStream_keeps (.after setContext_keeps (.after rejectDisc_keeps resetBay_keeps))
    clear_value q₂
    refine .after countFailure_keeps (left.trans ?_)
    unfold q₃
    split
    · exact handOutcome_keeps
    · exact .refl q₂

theorem failedRecovery_keeps : p.Keeps (failedRecovery b p) := by
  unfold failedRecovery
  extract_lets q
  have faulted : p.Keeps q := .after faultBay_keeps endReset_keeps
  clear_value q
  refine faulted.trans ?_
  split
  · exact .after clearOrder_changes.keeps rejectDisc_keeps
  · exact .refl q

theorem afterReset_keeps {present : Bool} {tray : Tray} : p.Keeps (afterReset b present tray p) := by
  have emptied : ∀ q : Part, q.Keeps (match tray with | .opened => emptyBay b q | .shut => ejectBay b q) := fun q => by
    cases tray with
    | opened => exact emptyBay_keeps
    | shut => exact ejectBay_keeps
  unfold afterReset
  extract_lets f
  split
  · split
    · exact bayFinding_keeps
    · exact emptied p
  · split
    · split
      · exact enterBay_keeps
      · exact presentBay_keeps
    · exact foundLost_keeps.trans (emptied _)

theorem streamFails_keeps {st : Stream} {chunk : Nat} : p.Keeps (streamFails c st chunk p) := by
  unfold streamFails
  refine .after (.fold (fun q m => .after leaveStream_keeps ?_) _ _)
    (.after setChannel_keeps (.after changeImageHolds_keeps faultImage_changes.keeps))
  split
  · exact rejectDisc_keeps
  · exact .refl q

theorem failAttempt_keeps : p.Keeps (failAttempt c p) := by
  unfold failAttempt
  split
  · exact .refl p
  · split
    · split
      · exact .after setChannel_keeps readChunk_keeps
      · exact streamFails_keeps
    · exact .refl p
  · split
    · split
      · exact .after setChannel_keeps readChunk_keeps
      · exact surveyFails_changes.keeps
    · exact .refl p

theorem abortBay_keeps : p.Keeps (abortBay b p) := by
  unfold abortBay
  split
  · split
    · exact .after (modBay_keeps fun _ => ⟨id, id, id⟩) rejectDisc_keeps
    · exact .refl p
  · exact .refl p

theorem abortOrder_keeps : p.Keeps (abortOrder p) := by
  refine .after (.fold (fun _ _ => abortBay_keeps) _ _) (.fold (fun q r => ?_) _ _)
  split
  · exact rejectDisc_keeps
  · exact .refl q

end Sys2Proof.Machine
end

