-- ==== Sys2Proof/Proofs/KeptHandler.lean ====
section
/-! PROOF. The invariants of causes and of ranges through the handler's operations and the evaluations at the
end of an event (R43, R45, R47, R164). -/

namespace Sys2Proof.Machine

-- One proof after another: side by side, their threads' stacks pass the check's memory limit.
set_option Elab.async false

variable {p q u : Part} {b : Fin 12} {r : Fin 24} {m : Move}

/-! ## Spindles, sinks and the arm -/

theorem changeSpindle_keeps {s : SpindleId} {y : Spindle} (h : (p.spindle s).ok → y.ok) :
    p.Keeps (changeSpindle s y p) :=
  .after raiseIf_keeps (setSpindle_keeps h)

theorem useBlank_keeps {s : SpindleId} : p.Keeps (useBlank s p) :=
  changeSpindle_keeps fun ⟨count, wasted⟩ => ⟨(Nat.sub_le _ _).trans count, wasted⟩

theorem emptySpindle_keeps {s : SpindleId} : p.Keeps (emptySpindle s p) :=
  changeSpindle_keeps fun ⟨_, wasted⟩ => ⟨Nat.zero_le _, wasted⟩

theorem wasteBlank_keeps {s : SpindleId} : p.Keeps (wasteBlank s p) :=
  .after (setSpindle_keeps fun ⟨count, _⟩ => ⟨count, Nat.min_le_left _ _⟩) useBlank_keeps

theorem addOutput_keeps {n : Nat} : p.Keeps (addOutput n p) := .after raiseIf_keeps (output_keeps rfl)

theorem addBin_keeps {n : Nat} : p.Keeps (addBin n p) := .after raiseIf_keeps (bin_keeps rfl)

theorem modMove_keeps {f : Move → Move} : p.Keeps (modMove f p) := arm_keeps id

theorem sendArm_keeps {o : ArmOrder} : p.Keeps (sendArm o p) := .after emit_keeps (arm_keeps id)

theorem enterArm_keeps {st : ArmState} (h : st ≠ .halted := by decide) : p.Keeps (enterArm st p) :=
  arm_keeps fun _ => by simp [h]

theorem endArmOp_keeps : p.Keeps (endArmOp p) := arm_keeps id

theorem endMove_keeps : p.Keeps (endMove p) :=
  arm_keeps fun ok => ok.trans (by by_cases halted : p.arm.state = .halted <;> simp [halted])

theorem setOccupant_keeps {pl : Place} {o : Option (Fin 24)} : p.Keeps (p.setOccupant pl o) := setOccupant_changes.keeps

theorem releaseDest_keeps : p.Keeps (releaseDest m p) := by
  unfold releaseDest
  split
  · exact .after releaseBay_keeps release_keeps
  · exact release_keeps

theorem withdrawPick_keeps : p.Keeps (withdrawPick m p) := by
  unfold withdrawPick
  extract_lets job q₁ q₂ q₃
  have freed : p.Keeps q₂ :=
    .after freeRecord_changes.keeps (.after leaveLabelUnit_keeps (.after setOccupant_keeps releaseDest_keeps))
  clear_value q₂ job
  refine .after endMove_keeps (freed.trans ?_)
  unfold q₃
  split
  · exact jobWithdrawn_keeps
  · exact .refl q₂

theorem dropLost_keeps : p.Keeps (dropLost m p) :=
  .after endMove_keeps (.after finaliseLost_keeps (.after setOccupant_keeps releaseDest_keeps))

theorem placeVacated_keeps {pl : Place} : p.Keeps (placeVacated pl p) := by
  cases pl with
  | bay b => exact bayVacated_keeps
  | printer => exact trayVacated_keeps
  | arm => exact .refl p

theorem transferMissed_keeps : p.Keeps (transferMissed m p) := by
  unfold transferMissed
  refine .after endMove_keeps ?_
  split
  · exact .after placeVacated_keeps (.after finaliseLost_keeps setOccupant_keeps)
  · exact .refl p

theorem grip_keeps : p.Keeps (grip m p) := by
  unfold grip
  refine .after modMove_keeps ?_
  split
  · exact useBlank_keeps
  · exact .after placeVacated_keeps <| .after leavePrintQueue_changes.keeps <|
      .after modDisc_keeps <| .after setOccupant_keeps setOccupant_keeps

theorem placedInBay_keeps : p.Keeps (placedInBay b r p) := by
  have load {q : Part} : q.Keeps (loadBay b ((setStage r .loading q).modBay b fun x =>
      { x with loads := min 65535 (x.loads + 1) })) := .after loadBay_keeps <| .after (modBay_keeps fun _ =>
    ⟨id, fun ⟨failed, _, goods, failures⟩ => ⟨failed, Nat.min_le_left _ _, goods, failures⟩, id⟩) setStage_keeps
  unfold placedInBay
  extract_lets q
  have marked : p.Keeps q := modDisc_keeps
  clear_value q
  refine marked.trans ?_
  split
  · split
    · exact presentBay_keeps
    · exact load
  · split
    · exact presentBay_keeps
    · exact load
  · exact .refl q

theorem createExtra_keeps : p.Keeps (createExtra p) := createExtra_changes.keeps

theorem arrive_keeps : p.Keeps (arrive m p) := by
  unfold arrive
  extract_lets q put q'
  have left : p.Keeps q := setOccupant_keeps
  clear_value q
  have stood : ∀ (pl : Place) (u : Part), u.Keeps (put pl u) := fun pl u => .after modDisc_keeps setOccupant_keeps
  clear_value put
  refine .after endMove_keeps (left.trans ?_)
  unfold q'
  split
  · exact (stood _ _).trans placedInBay_keeps
  · exact (stood _ _).trans placeOnTray_keeps
  · exact .after finaliseDropped_keeps addOutput_keeps
  · split
    · exact .after createExtra_keeps (.after finaliseReject_keeps addBin_keeps)
    · exact .after finaliseReject_keeps addBin_keeps

theorem deliverPair_keeps : p.Keeps (deliverPair p) := by
  unfold deliverPair
  extract_lets q
  have moving : p.Keeps q := enterArm_keeps
  clear_value q
  refine moving.trans ?_
  split
  · exact modMove_keeps
  · exact .after sendArm_keeps modMove_keeps

/-! ## Granting -/

theorem grantMove_keeps {dest : Dest} : p.Keeps (grantMove r dest p) := by
  unfold grantMove
  split
  · exact .refl p
  · extract_lets fromArm mv a q q'
    have moved : p.Keeps q := .after (p := p) (q := { p with offered := none }) (arm_keeps id) offered_changes.keeps
    clear_value q
    refine moved.trans (.after sendArm_keeps (.after enterArm_keeps ?_))
    split
    · exact clearOrder_changes.keeps
    · exact .refl q

theorem issuePick_keeps {k : Pick} {t : Option Template} : p.Keeps (issuePick k r t p) := by
  unfold issuePick
  extract_lets d q₁ q₂ q₃ mv
  have created : p.Keeps q₂ :=
    .after stampPick_keeps (.after jobCreated_keeps (.after setOccupant_keeps setDisc_changes.keeps))
  clear_value q₂
  have reserved : q₂.Keeps q₃ := by
    unfold q₃
    split
    · exact enterBay_keeps
    · exact reserve_keeps
    · exact .refl q₂
  clear_value q₃
  exact (created.trans reserved).trans (.after sendArm_keeps (.after enterArm_keeps (arm_keeps id)))

theorem beginSpell_keeps : p.Keeps (beginSpell p) := beginSpell_changes.keeps

theorem grantPick_keeps {k : Pick} : p.Keeps (grantPick k p) := by
  unfold grantPick
  extract_lets q t admitted
  have offered : p.Keeps q := offered_changes.keeps
  clear_value t admitted q
  refine offered.trans ?_
  split
  · split
    · split
      · exact issuePick_keeps
      · exact beginSpell_keeps
    · exact beginSpell_keeps
  · exact .refl q

theorem grantArm_keeps : p.Keeps (grantArm p) := by
  unfold grantArm
  split
  · split
    · exact grantMove_keeps
    · split
      · split
        · exact grantPick_keeps
        · exact .refl p
      · exact .refl p
  · exact .refl p

theorem settleArm_keeps : p.Keeps (settleArm p) :=
  .after grantArm_keeps (.after selectPick_changes.keeps checkOffer_changes.keeps)

/-- The evaluations at the end of an event keep the invariants. -/
theorem settle_keeps : p.Keeps (settle p) :=
  .after forecastAll_changes.keeps <| .after settleArm_keeps <| .after trayRules_keeps <| .after labelOrder_keeps <|
    .after settleStreams_keeps settleTower_keeps

/-! ## Jams, the door and homing -/

theorem jam_keeps : p.Keeps (jam p) :=
  .after haltTower_keeps (.after raise_keeps (.after (arm_keeps fun _ => by simp) (.after modMove_keeps endArmOp_keeps)))

theorem cutArm_keeps : p.Keeps (cutArm p) := by
  unfold cutArm
  split
  · exact .refl p
  · exact .after (arm_keeps fun _ => by simp) modMove_keeps

theorem doorOpened_keeps : p.Keeps (doorOpened p) := .after pauseTower_keeps (.after cutArm_keeps raise_keeps)

theorem homeArm_keeps {why : HomeFor} : p.Keeps (homeArm why p) := .after sendArm_keeps enterArm_keeps

theorem doorShut_keeps : p.Keeps (doorShut p) := by
  unfold doorShut
  split
  · exact .after homeArm_keeps (arm_keeps id)
  · exact .refl p

theorem deliverHeld_keeps : p.Keeps (deliverHeld m p) := by
  unfold deliverHeld
  refine .after sendArm_keeps (.after enterArm_keeps ?_)
  split
  · exact .refl p
  · exact grip_keeps

theorem resolveHeld_keeps : p.Keeps (resolveHeld m p) := by
  unfold resolveHeld
  split
  · exact .after sendArm_keeps enterArm_keeps
  · exact deliverPair_keeps
  · exact deliverHeld_keeps
  · exact deliverHeld_keeps

theorem resolveEmpty_keeps : p.Keeps (resolveEmpty m p) := by
  unfold resolveEmpty
  split
  · exact dropLost_keeps
  · split
    · exact withdrawPick_keeps
    · exact endMove_keeps
    · exact endMove_keeps

theorem resolveAbsent_keeps {held : Bool} : p.Keeps (resolveAbsent held p) := by
  unfold resolveAbsent
  split
  · exact .refl p
  · exact .after finaliseLost_keeps setOccupant_keeps
  · dsimp only
    split
    · exact createFound_keeps
    · exact .after jam_keeps createFound_keeps
  · exact .refl p

theorem homed_keeps {held : Bool} : p.Keeps (homed held p) := by
  unfold homed
  extract_lets q₁ q₂
  have idle : p.Keeps q₁ := .after modMove_keeps (.after enterArm_keeps endArmOp_keeps)
  have resolved : q₁.Keeps q₂ := by
    unfold q₂
    split
    · split
      · exact resolveHeld_keeps
      · exact resolveEmpty_keeps
    · exact resolveAbsent_keeps
  refine (idle.trans resolved).trans ?_
  split
  · exact .refl q₂
  · refine .after resumeTower_keeps ?_
    split
    · exact clearArmMark_keeps
    · exact .refl q₂

/-! ## Reports -/

theorem jamTested_keeps : p.Keeps (testAbort (jam p)) := .after testAbort_keeps jam_keeps

theorem armReport_keeps {op : Nat} {f : ArmOrder → Option Move → Part → Part} (h : ∀ o mv, p.Keeps (f o mv p)) :
    p.Keeps (armReport op f p) := by
  unfold armReport
  split
  · exact .refl p
  · exact .refl p
  · exact .after testAbort_keeps (h _ _)
  · exact jamTested_keeps

theorem takeGripped_keeps {op : Nat} : p.Keeps (takeGripped op p) := by
  have gripped {mv : Move} : p.Keeps (if mv.gripped then p else grip mv p) := by
    split
    · exact .refl p
    · exact grip_keeps
  unfold takeGripped
  split
  · exact .refl p
  · exact jamTested_keeps
  · split
    · exact gripped
    · exact gripped
    · exact .refl p
  · split
    · exact gripped
    · exact gripped
    · exact jamTested_keeps

theorem takeDone_keeps {op : Nat} : p.Keeps (takeDone op p) := by
  unfold takeDone
  split
  · exact .refl p
  · exact jamTested_keeps
  · split
    · split
      · exact .after testAbort_keeps (.after clearArmMark_keeps arrive_keeps)
      · exact .refl p
    · exact .refl p
  · split
    · refine .after testAbort_keeps ?_
      split
      · exact .after clearArmMark_keeps (.after arrive_keeps endArmOp_keeps)
      · exact jam_keeps
    · exact jamTested_keeps

theorem missed_keeps {o : ArmOrder} {mv : Option Move} : p.Keeps (missed o mv p) := by
  unfold missed
  split
  · split
    · exact jam_keeps
    · split
      · exact .after sendArm_keeps (.after modMove_keeps endArmOp_keeps)
      · exact .after withdrawPick_keeps (.after emptySpindle_keeps endArmOp_keeps)
  · split
    · exact jam_keeps
    · exact .after transferMissed_keeps endArmOp_keeps
  · exact .after endMove_keeps endArmOp_keeps
  · exact jam_keeps

theorem doubled_keeps {o : ArmOrder} {mv : Option Move} : p.Keeps (doubled o mv p) := by
  unfold doubled
  split
  · split
    · exact .after sendArm_keeps (.after enterArm_keeps (.after modMove_keeps endArmOp_keeps))
    · exact jam_keeps
  · exact jam_keeps

theorem separated_keeps {o : ArmOrder} {mv : Option Move} : p.Keeps (separated o mv p) := by
  unfold separated
  split
  · exact .after clearArmMark_keeps (.after sendArm_keeps (.after enterArm_keeps (.after modMove_keeps endArmOp_keeps)))
  · exact jam_keeps

theorem unseparated_keeps {o : ArmOrder} {mv : Option Move} : p.Keeps (unseparated o mv p) := by
  unfold unseparated
  split
  case h_1 mv =>
    extract_lets q₁ q₂ q₃
    have ended : p.Keeps q₁ := endArmOp_keeps
    clear_value q₁
    have wasted : q₁.Keeps q₂ := by
      unfold q₂
      split
      · exact wasteBlank_keeps
      · exact .refl q₁
    clear_value q₂
    refine (ended.trans wasted).trans ?_
    exact .after clearArmMark_keeps <| .after deliverPair_keeps <| .after modMove_keeps <|
      .after releaseDest_keeps <| .after setStage_keeps writeReject_keeps
  case h_2 => exact jam_keeps

theorem dropped_keeps {o : ArmOrder} {mv : Option Move} : p.Keeps (dropped o mv p) := by
  unfold dropped
  split
  · split
    · exact .after dropLost_keeps endArmOp_keeps
    · exact missed_keeps
  · split
    · exact .after dropLost_keeps endArmOp_keeps
    · exact missed_keeps
  · exact missed_keeps
  · exact .after clearArmMark_keeps (.after dropLost_keeps endArmOp_keeps)
  · exact jam_keeps

theorem interruptedHeld_keeps : p.Keeps (interruptedHeld p) := arm_keeps id

theorem takeHomed_keeps {held : Bool} {o : ArmOrder} : p.Keeps (takeHomed held o p) := by
  unfold takeHomed
  split
  · exact homed_keeps
  · exact jam_keeps

/-- The time moved up to an expiry's. -/
theorem now_keeps {n : Nat} : p.Keeps { p with now := n } :=
  Part.Changes.keeps (fs := [.now]) fun f other => by cases f <;> first | rfl | simp at other

theorem armExpired_keeps : p.Keeps (armExpired p) := by
  unfold armExpired
  split
  · exact .refl p
  · exact .after testAbort_keeps (.after jam_keeps (.trans (q := { p with now := max p.now _ }) now_keeps (arm_keeps id)))

end Sys2Proof.Machine
end

