-- ==== Sys2Proof/Proofs/KeptCommands.lean ====
section
/-! PROOF. The invariants of causes and of ranges through the requests, the reports, the expiries and the pins,
and so through every step. -/

namespace Sys2Proof.Machine

-- One proof after another: side by side, their threads' stacks pass the check's memory limit.
set_option Elab.async false

variable {p q u : Part} {b : Fin 12} {r : Fin 24} {x : Fin 16} {s t : State}

theorem clamp_le {lo hi n : Nat} (h : lo ≤ hi) : clamp lo hi n ≤ hi := by
  unfold clamp
  split
  · exact h
  · split <;> omega

theorem le_clamp {lo hi n : Nat} (h : lo ≤ hi) : lo ≤ clamp lo hi n := by
  unfold clamp
  split
  · exact Nat.le_refl lo
  · split <;> omega

/-! ## CONFIGURE TOWER -/

theorem Bay.uninstalled_keeps {y : Bay} : y.Keeps y.uninstalled := by
  unfold Bay.uninstalled
  split
  · exact ⟨id, id, id⟩
  · exact ⟨fun _ => by simp [Bay.CauseOk, Bay.reset], fun ⟨_, kept⟩ => ⟨Nat.zero_le _, kept⟩,
      fun _ => by simp [Bay.supportOk, Bay.reset]⟩

theorem clampByte_range {lo hi n : Nat} {f : Option Byte} (h : lo ≤ hi) (is : clampByte lo hi f = some n) :
    lo ≤ n ∧ n ≤ hi := by
  obtain ⟨b, -, rfl⟩ := Option.map_eq_some_iff.1 is
  exact ⟨le_clamp h, clamp_le h⟩

/-- A carried number in its range, or the number held, is in range (R165). -/
theorem getD_range {lo hi n : Nat} {o : Option Nat} (h : ∀ k, o = some k → lo ≤ k ∧ k ≤ hi) (held : lo ≤ n ∧ n ≤ hi) :
    lo ≤ o.getD n ∧ o.getD n ≤ hi := by
  cases o with
  | none => exact held
  | some k => exact h k rfl

theorem storeInstalled_keeps {n : Nat} (low : 1 ≤ n) (high : n ≤ 12) : p.Keeps (storeInstalled n p) := by
  unfold storeInstalled
  extract_lets q
  have left : p.Keeps q := by
    refine .fold (fun u b => ?_) _ _
    split
    · exact modBay_keeps fun _ => Bay.uninstalled_keeps
    · exact .refl u
  clear_value q
  exact left.trans (tower_keeps id fun ok => { ok with installed := ⟨low, high⟩ })

theorem supportOf_range {c : Byte} {n : Nat} (is : supportOf c = some n) : 1 ≤ n ∧ n ≤ 16 := by
  unfold supportOf at is
  split at is
  · cases is
  · exact Option.some.inj is ▸ ⟨le_clamp (by decide), clamp_le (by decide)⟩

theorem storeSupport_keeps {e : SupportEntry} : p.Keeps (storeSupport p e) := by
  unfold storeSupport
  split
  · exact modBay_keeps fun _ => ⟨id, id, fun _ => ⟨fun _ => supportOf_range, fun _ => supportOf_range⟩⟩
  · exact .refl p

/-- The sinks written with capacities in their ranges. -/
theorem sinks_keeps {out bin : Sink} (h : p.RangesOk → (1 ≤ out.capacity ∧ out.capacity ≤ 150) ∧
    1 ≤ bin.capacity ∧ bin.capacity ≤ 60) : p.Keeps { p with output := out, bin := bin } :=
  ⟨fun ok => { ok with }, fun ok => { ok with output := (h ok).1, bin := (h ok).2 }⟩

theorem storeCapacities_keeps {st : Station} {f : TowerFields} : p.Keeps (storeCapacities (usedSettings st f) p) := by
  unfold storeCapacities
  refine .after raiseIf_keeps (.after raiseIf_keeps (sinks_keeps fun ok => ⟨?_, ?_⟩))
  · exact getD_range (fun k is => clampByte_range (f := f.outputCapacity) (by decide) is) ok.output
  · exact getD_range (fun k is => clampByte_range (f := f.binCapacity) (by decide) is) ok.bin

/-- A carried time in seconds is stored in ms, within its range (R165). -/
theorem milliseconds_range {lo hi n : Nat} {f : Option Byte} (h : lo ≤ hi)
    (held : 1000 * lo ≤ n ∧ n ≤ 1000 * hi) :
    1000 * lo ≤ ((clampByte lo hi f).map (1000 * ·)).getD n ∧
      ((clampByte lo hi f).map (1000 * ·)).getD n ≤ 1000 * hi := by
  refine getD_range (fun k is => ?_) held
  obtain ⟨m, used, rfl⟩ := Option.map_eq_some_iff.1 is
  obtain ⟨low, high⟩ := clampByte_range h used
  exact ⟨Nat.mul_le_mul_left _ low, Nat.mul_le_mul_left _ high⟩

theorem storeTower_ok {st : Station} {f : TowerFields} {y : Tower} (ok : y.ok) :
    (storeTower (usedSettings st f) y).ok where
  installed := ok.installed
  progressTimeout := milliseconds_range (lo := 2) (hi := 60) (by decide) ok.progressTimeout
  moveTimeout := milliseconds_range (lo := 2) (hi := 30) (by decide) ok.moveTimeout
  joinHold := (milliseconds_range (lo := 0) (hi := 30) (by decide) ⟨Nat.zero_le _, ok.joinHold⟩).2
  splitThreshold := getD_range (fun _ is => clampByte_range (by decide) is) ok.splitThreshold

/-- The gate's limits as stored: *critical* stays above *warning* (R144, R165). -/
theorem usedLimits_ok {st : Station} {f : TowerFields} (ok : st.limitsOk) : Station.limitsOk { st with
    warning := (usedSettings st f).warning.getD st.warning
    critical := (usedSettings st f).critical.getD st.critical } := by
  obtain ⟨warnLow, warnHigh, critLow, critHigh, -⟩ := ok
  obtain ⟨low, high⟩ : 30 ≤ (clampByte 30 90 f.warning).getD st.warning ∧ _ ≤ 90 :=
    getD_range (fun k is => clampByte_range (by decide) is) ⟨warnLow, warnHigh⟩
  obtain ⟨low', high'⟩ : 35 ≤ (clampByte 35 100 f.critical).getD st.critical ∧ _ ≤ 100 :=
    getD_range (fun k is => clampByte_range (by decide) is) ⟨critLow, critHigh⟩
  simp only [usedSettings, usedCritical, Station.limitsOk]
  split
  · simp only [Option.getD_some]
    omega
  · omega

theorem storeInstalled_changes {n : Nat} : p.Changes [.bays, .tower] (storeInstalled n p) := by
  unfold storeInstalled
  extract_lets q
  have left : p.Changes [.bays] q := by
    refine .fold (fun u b => ?_) _ _
    split
    · exact modBay_changes
    · exact .refl _ _
  clear_value q
  exact left.andThen tower_changes

theorem storeSupport_changes {e : SupportEntry} : p.Changes [.bays] (storeSupport p e) := by
  unfold storeSupport
  split
  · exact modBay_changes
  · exact .refl _ _

/-- The settings that are stored before the station's and tower control's own. -/
def storeBaysAndSinks (u : Settings) (p : Part) : Part :=
  storeCapacities u
    ((u.support.getD []).foldl storeSupport
      (match u.installed with
      | some n => storeInstalled n p
      | none => p))

theorem storeSettings_eq (u : Settings) (p : Part) :
    storeSettings u p = { storeBaysAndSinks u p with
      spindleA := { (storeBaysAndSinks u p).spindleA with cls := u.spindleA.getD (storeBaysAndSinks u p).spindleA.cls }
      spindleB := { (storeBaysAndSinks u p).spindleB with cls := u.spindleB.getD (storeBaysAndSinks u p).spindleB.cls }
      station := { (storeBaysAndSinks u p).station with
        warning := u.warning.getD (storeBaysAndSinks u p).station.warning
        critical := u.critical.getD (storeBaysAndSinks u p).station.critical }
      tower := storeTower u (storeBaysAndSinks u p).tower } := by
  unfold storeSettings storeBaysAndSinks
  cases u.support <;> rfl

theorem storeBaysAndSinks_station (w : Settings) (p : Part) : (storeBaysAndSinks w p).station = p.station := by
  have installed : (match w.installed with | some n => storeInstalled n p | none => p).station = p.station := by
    cases w.installed with
    | none => rfl
    | some n => exact storeInstalled_changes .station (by simp)
  have supported (q : Part) : ((w.support.getD []).foldl storeSupport q).station = q.station :=
    Part.Changes.fold (fs := [.bays]) (fun _ _ => storeSupport_changes) _ q .station (by simp)
  simp [storeBaysAndSinks, storeCapacities, raiseIf_eq, supported, installed]

theorem storeBaysAndSinks_keeps {st : Station} {f : TowerFields} : p.Keeps (storeBaysAndSinks (usedSettings st f) p) := by
  refine .after storeCapacities_keeps (.after (.fold (fun _ _ => storeSupport_keeps) _ _) ?_)
  split
  case h_1 n is =>
    obtain ⟨low, high⟩ := clampByte_range (f := f.installed) (by decide) is
    exact storeInstalled_keeps low high
  case h_2 => exact .refl p

theorem storeSettings_keeps {f : TowerFields} : p.Keeps (storeSettings (usedSettings p.station f) p) := by
  rw [storeSettings_eq]
  refine storeBaysAndSinks_keeps.trans (q := storeBaysAndSinks (usedSettings p.station f) p) ?_
  have station := storeBaysAndSinks_station (usedSettings p.station f) p
  generalize storeBaysAndSinks (usedSettings p.station f) p = q at station ⊢
  refine ⟨fun ok => { ok with }, fun ok => { ok with spindles := ?_, tower := storeTower_ok ok.tower, gate := ?_ }⟩
  · intro s
    cases s
    · exact ok.spindles .a
    · exact ok.spindles .b
  · have gate := ok.gate
    rw [station] at gate ⊢
    exact usedLimits_ok gate

theorem configureTower_keeps {f : TowerFields} : p.Keeps (reqConfigureTower f p).1 := by
  unfold reqConfigureTower
  dsimp only
  split
  · exact .refl p
  · split
    · exact .refl p
    · split
      · exact .refl p
      · split
        · exact .refl p
        · exact storeSettings_keeps

/-! ## Tower control and the handler -/

theorem settled_fst (p : Part) (a : Answer) : (settled p a).1 = settle p := by simp only [settled]

theorem settled_keeps {a : Answer} : p.Keeps (settled p a).1 := by
  rw [settled_fst]
  exact settle_keeps

theorem sweepQuery_keeps : p.Keeps (sweepQuery p) := by
  unfold sweepQuery
  split
  · exact .refl p
  · exact sendQuery_keeps

theorem startTower_keeps : p.Keeps (reqStartTower p).1 := by
  unfold reqStartTower
  split
  · exact .refl p
  · split
    · exact .refl p
    case isFalse.isFalse stopped _ =>
      have stopped : p.tower.state = .stopped := not_not.1 stopped
      dsimp only
      have started : p.Keeps (enterTower .starting { p with tower := { p.tower with sweep := some p.newSweep } }) :=
        sweep_keeps.trans (enterTower_going_keeps (show p.tower.state ≠ _ by simp [stopped])
          (show p.tower.state ≠ _ by simp [stopped]))
      exact started.trans (.after settled_keeps (.after sweepQuery_keeps homeArm_keeps))

/-- A resume state of RUNNING turned to STOPPING (R169). -/
theorem resumeStopping_keeps (held : p.tower.resume = some .running) :
    p.Keeps { p with tower := { p.tower with resume := some .stopping } } :=
  tower_keeps (fun ok => by simpa [held, Tower.ResumeOk] using ok) fun ok => { ok with }

theorem stopNormal_keeps : p.Keeps (reqStopNormal p).1 := by
  unfold reqStopNormal
  split
  case h_1 running =>
    exact .after settled_keeps (enterTower_going_keeps (by simp [running]) (by simp [running]))
  case h_2 held => exact resumeStopping_keeps held
  case h_3 held => exact resumeStopping_keeps held
  case h_4 => exact .refl p

theorem stopAbrupt_keeps : p.Keeps (reqStopAbrupt p).1 := by
  unfold reqStopAbrupt
  split
  · exact .after settled_keeps (.after testAbort_keeps (.after abortOrder_keeps
      (enterTower_resume_keeps (w := none) (by decide))))
  · exact .refl p

theorem armRecover_keeps : p.Keeps (reqArmRecover p).1 := by
  unfold reqArmRecover
  split
  · exact .refl p
  · split
    · exact .refl p
    · split
      · exact .after settled_keeps homeArm_keeps
      · exact .refl p

theorem spindleLoaded_keeps {spindle cls count : Byte} : p.Keeps (reqSpindleLoaded spindle cls count p).1 := by
  unfold reqSpindleLoaded
  split
  · split
    · exact .refl p
    · exact .after settled_keeps (changeSpindle_keeps fun _ => ⟨Nat.min_le_left _ _, Nat.zero_le _⟩)
  · exact .refl p

theorem rejectBinEmptied_keeps : p.Keeps (reqRejectBinEmptied p).1 := by
  unfold reqRejectBinEmptied
  extract_lets y q
  have emptied : p.Keeps q := bin_keeps rfl
  clear_value q
  refine emptied.trans (.after settled_keeps ?_)
  split
  · exact deliverPair_keeps
  · exact .refl q

theorem setAttention_keeps {enables : Word32} {mode : Byte} : p.Keeps (reqSetAttention enables mode p).1 := by
  unfold reqSetAttention
  split
  · exact Part.Changes.keeps (fs := [.attn]) fun f other => by cases f <;> first | rfl | simp at other
  · exact .refl p

/-! ## Images -/

theorem registerImage_keeps {address blocks : Word32} {cls : Byte} : p.Keeps (reqRegisterImage address blocks cls p).1 := by
  unfold reqRegisterImage
  split
  · exact .refl p
  · split
    · exact .refl p
    · split
      · exact .refl p
      · split
        · exact .refl p
        · unfold registerIn
          dsimp only
          split
          · exact .refl p
          · exact setImage_keeps

theorem withImage_keeps {image : Byte} {f : Fin 32 → Image → Part → Part × Answer}
    (held : ∀ i y, p.Keeps (f i y p).1) : p.Keeps (withImage image f p).1 := by
  unfold withImage
  split
  · exact .refl p
  · split
    · exact .refl p
    · exact held _ _

theorem surveyImage_keeps {image : Byte} : p.Keeps (reqSurveyImage image p).1 := by
  refine withImage_keeps fun i y => ?_
  split
  · exact .refl p
  · split
    · exact .refl p
    · refine .after settled_keeps ?_
      unfold askSurvey
      extract_lets q₁ q₂
      have queued : p.Keeps q₂ := .after surveyQueue_changes.keeps setImage_keeps
      clear_value q₂
      refine queued.trans ?_
      split
      · exact changeImageHolds_keeps
      · exact .refl q₂

theorem retireImage_keeps {image : Byte} : p.Keeps (reqRetireImage image p).1 := by
  refine withImage_keeps fun i y => ?_
  split
  · exact .refl p
  · refine .after settled_keeps (.after setImage_keeps ?_)
    split
    · exact .after freeChannel_keeps surveyQueue_changes.keeps
    · exact surveyQueue_changes.keeps

/-! ## Jobs -/

theorem JobSpec.clamped_record_ok (d : JobSpec) (image : Option (Fin 32)) (template : Option (Fin 8)) (cls : DiscClass) :
    (d.clamped.record image template cls).ok where
  ordered := ⟨le_clamp (by decide), clamp_le (by decide)⟩
  priority := clamp_le (Nat.zero_le _)
  maxSpeed := ⟨le_clamp (by decide), clamp_le (by decide)⟩
  recovered n is := by
    obtain ⟨m, -, rfl⟩ := Option.map_eq_some_iff.1 is
    exact clamp_le (Nat.zero_le _)
  rejects := ⟨le_clamp (by decide), clamp_le (by decide)⟩
  digits n is := by
    obtain ⟨m, -, rfl⟩ := Option.map_eq_some_iff.1 is
    exact clamp_le (Nat.zero_le _)
  serials y is := by
    simp only [JobSpec.record, JobSpec.serials] at is
    split at is
    case h_1 n f st digits first step =>
      cases is
      obtain ⟨m, -, rfl⟩ := Option.map_eq_some_iff.1 step
      obtain ⟨k, -, rfl⟩ := Option.map_eq_some_iff.1 first
      have below : clamp 0 (10 ^ (d.clamped.serialDigits.getD 0) - 1) k < 10 ^ (n + 1) := by
        rw [digits, Option.getD_some]
        exact Nat.lt_of_le_pred (by positivity) (clamp_le (Nat.zero_le _))
      exact ⟨le_clamp (by decide), clamp_le (by decide), n + 1, digits, below, below⟩
    case h_2 => cases is

theorem modImage_keeps {i : Fin 32} {f : Image → Image} : p.Keeps (p.modImage i f) := modImage_changes.keeps

theorem attachImage_keeps {i : Option (Fin 32)} : p.Keeps (attachImage i p) := by
  cases i with
  | none => exact .refl p
  | some i => exact modImage_keeps

theorem detachImage_keeps {i : Option (Fin 32)} : p.Keeps (detachImage i p) := by
  cases i with
  | none => exact .refl p
  | some i => exact modImage_keeps

theorem modTemplate_keeps {k : Fin 8} {f : Template → Template} (h : ∀ y, y.ok → (f y).ok) :
    p.Keeps (p.setTemplate k ((p.template k).map f)) :=
  setTemplate_keeps fun ok y is => by
    obtain ⟨z, held, rfl⟩ := Option.map_eq_some_iff.1 is
    exact h z (ok.templates k z held)

theorem useTemplate_keeps {k : Option (Fin 8)} : p.Keeps (useTemplate k p) := by
  cases k with
  | none => exact .refl p
  | some k => exact modTemplate_keeps fun _ => id

theorem leaveTemplate_keeps {k : Option (Fin 8)} : p.Keeps (leaveTemplate k p) := by
  cases k with
  | none => exact .refl p
  | some k => exact modTemplate_keeps fun _ => id

theorem defineJob_keeps {f : JobFields} : p.Keeps (reqDefineJob f p).1 := by
  unfold reqDefineJob
  split
  · exact .refl p
  · split
    · exact .refl p
    · split
      · exact .refl p
      · refine .after useTemplate_keeps (.after attachImage_keeps (setJob_keeps fun _ j is => ?_))
        exact Option.some.inj is ▸ JobSpec.clamped_record_ok _ _ _ _

theorem withJob_keeps {job : Byte} {f : Fin 16 → Job → Part → Part × Answer}
    (held : ∀ x j, p.job x = some j → p.Keeps (f x j p).1) : p.Keeps (withJob job f p).1 := by
  unfold withJob
  split
  · exact .refl p
  · split
    · exact .refl p
    case h_2 j is => exact held _ j is

theorem redefineJob_keeps {c : JobChange} {j : Job} : p.Keeps (redefineJob c x j p).1 := by
  unfold redefineJob
  dsimp only
  split
  · exact .refl p
  · split
    · exact .refl p
    · refine .after (setJob_keeps fun _ k is => ?_) (.after useTemplate_keeps <| .after leaveTemplate_keeps <|
        .after attachImage_keeps detachImage_keeps)
      exact Option.some.inj is ▸ JobSpec.clamped_record_ok _ _ _ _

theorem Job.ok.applyChange {j : Job} (ok : j.ok) (c : JobChange) : (applyChange c j).ok :=
  { ok with
    ordered := by
      unfold Machine.applyChange
      dsimp only
      split
      · exact ⟨le_clamp (by decide), clamp_le (by decide)⟩
      · exact ok.ordered
    priority := by
      unfold Machine.applyChange
      dsimp only
      split
      · exact clamp_le (by decide)
      · exact ok.priority
    maxSpeed := by
      unfold Machine.applyChange
      dsimp only
      split
      · exact ⟨le_clamp (by decide), clamp_le (by decide)⟩
      · exact ok.maxSpeed
    rejects := by
      unfold Machine.applyChange
      dsimp only
      split
      · exact ⟨le_clamp (by decide), clamp_le (by decide)⟩
      · exact ok.rejects }

theorem afterChange_keeps {c : JobChange} : p.Keeps (afterChange c x p) := by
  unfold afterChange
  split
  · exact .refl p
  · split
    · exact endJob_keeps
    · split
      · exact failJob_keeps
      · exact .refl p

/-- A held job's record replaced by one as good. -/
theorem replaceJob_keeps {j k : Job} (held : p.job x = some j) (h : j.ok → k.ok) : p.Keeps (p.setJob x (some k)) :=
  setJob_keeps fun ok _ is => Option.some.inj is ▸ h (ok.jobs x j held)

theorem changeJob_keeps {job : Byte} {c : JobChange} : p.Keeps (reqChangeJob job c p).1 := by
  unfold reqChangeJob
  split
  · exact .refl p
  · refine withJob_keeps fun x j held => ?_
    split
    · exact redefineJob_keeps
    · split
      · exact .refl p
      · exact .after settled_keeps (.after afterChange_keeps (replaceJob_keeps held fun ok => ok.applyChange c))

theorem startJob_keeps {job : Byte} : p.Keeps (reqStartJob job p).1 := by
  refine withJob_keeps fun x j held => ?_
  split
  · extract_lets ready holds k
    clear_value ready
    refine .after settled_keeps (.after stampPick_keeps (replaceJob_keeps held fun ok => ?_))
    unfold k
    split <;> exact { ok with }
  · exact .refl p

theorem pauseJob_keeps {job : Byte} : p.Keeps (reqPauseJob job p).1 := by
  refine withJob_keeps fun x j held => ?_
  split
  · exact .after settled_keeps (replaceJob_keeps held fun ok => { ok with })
  · exact .refl p

theorem resumeJob_keeps {job : Byte} : p.Keeps (reqResumeJob job p).1 := by
  refine withJob_keeps fun x j held => ?_
  split
  · exact .after settled_keeps (replaceJob_keeps held fun ok => { ok with })
  · exact .refl p

theorem cancelDisc_keeps : p.Keeps (cancelDisc r p) := by
  unfold cancelDisc
  split
  · exact .refl p
  · split
    · exact .refl p
    · split
      · exact .after clearOrder_changes.keeps setStage_keeps
      · exact rejectDisc_keeps

theorem cancelDiscs_keeps : p.Keeps (cancelDiscs x p) := by
  refine .fold (fun q r => ?_) _ _
  split
  · exact cancelDisc_keeps
  · exact .refl q

theorem cancelJob_keeps {job : Byte} : p.Keeps (reqCancelJob job p).1 := by
  refine withJob_keeps fun x j held => ?_
  have cancelled : p.Keeps (settled (closeIdle x (cancelDiscs x (p.setJob x (some { j with state := .cancelling })))) okay).1 :=
    .after settled_keeps (.after closeIdle_keeps (.after cancelDiscs_keeps (replaceJob_keeps held fun ok => { ok with })))
  cases j.state with
  | defined => exact .after settled_keeps endJob_keeps
  | running => exact cancelled
  | paused => exact cancelled
  | held => exact cancelled
  | failing => exact cancelled
  | cancelling => exact .refl p
  | done => exact .refl p
  | failed => exact .refl p
  | cancelled => exact .refl p

theorem listJobs_keeps {start : Byte} : p.Keeps (reqListJobs start p).1 := by
  unfold reqListJobs
  split <;> exact .refl p

theorem retireJob_keeps {job : Byte} : p.Keeps (reqRetireJob job p).1 := by
  refine withJob_keeps fun x j held => ?_
  split
  · exact .refl p
  · split
    · exact .refl p
    · exact .after (p := p) shortSet_changes.keeps (.after (setJob_keeps fun _ _ is => nomatch is)
        (.after leaveTemplate_keeps detachImage_keeps))

/-! ## Discs -/

theorem withDisc_keeps {disc : Byte} {f : Fin 24 → Disc → Part → Part × Answer}
    (held : ∀ r d, p.Keeps (f r d p).1) : p.Keeps (withDisc disc f p).1 := by
  unfold withDisc
  split
  · exact .refl p
  · split
    · exact .refl p
    · exact held _ _

theorem lookUpPlace_keeps {place : Byte} : p.Keeps (reqLookUpPlace place p).1 := by
  unfold reqLookUpPlace
  split
  · exact .refl p
  · split <;> exact .refl p
  all_goals exact .refl p

theorem listDiscs_keeps {start filter : Byte} : p.Keeps (reqListDiscs start filter p).1 := by
  unfold reqListDiscs
  split <;> exact .refl p

theorem orderRouted_keeps : p.Keeps (orderRouted r p) := by
  unfold orderRouted
  split
  · split
    · exact giveOrder_keeps
    · exact .refl p
  · exact giveOrder_keeps
  · exact .refl p

theorem routeDisc_keeps {disc dest : Byte} : p.Keeps (reqRouteDisc disc dest p).1 := by
  unfold reqRouteDisc
  split
  · exact .refl p
  · refine withDisc_keeps fun r d => ?_
    split
    · refine .after settled_keeps (.after orderRouted_keeps ?_)
      split
      · exact setStage_keeps
      · exact rejectDisc_keeps
    · exact .refl p

theorem markDisc_keeps {disc : Byte} : p.Keeps (reqMarkDisc disc p).1 := by
  refine withDisc_keeps fun r d => ?_
  split
  · exact .after settled_keeps rejectDisc_keeps
  · exact .refl p

theorem retireDisc_keeps {disc : Byte} : p.Keeps (reqRetireDisc disc p).1 := by
  refine withDisc_keeps fun r d => ?_
  split
  · exact .refl p
  · exact .after settled_keeps freeRecord_changes.keeps

theorem discardMove_keeps : p.Keeps (discardMove r p) := by
  unfold discardMove
  split
  · exact .refl p
  · split
    · extract_lets q
      have released : p.Keeps q := by
        unfold q
        split
        · refine .after releaseDest_keeps ?_
          split
          · exact .refl p
          · exact useBlank_keeps
        · exact .refl p
      clear_value q
      exact released.trans (arm_keeps id)
    · exact .refl p

/-- The owner of the tray asks the printer, unless a QUERY is in flight (R159). -/
theorem removedFrom_printer (p : Part) : removedFrom .printer p =
    if (enterStation .empty p).station.queryDeadline.isSome then enterStation .empty p
    else sendQuery (enterStation .empty p) := rfl

theorem removedFrom_keeps {pl : Place} : p.Keeps (removedFrom pl p) := by
  cases pl with
  | bay b => exact bayVacated_keeps
  | arm => exact .refl p
  | printer =>
    rw [removedFrom_printer]
    refine .after ?_ (enterStation_keeps (st := .empty))
    split
    · exact .refl _
    · exact sendQuery_keeps

theorem removeDisc_keeps {disc : Byte} : p.Keeps (reqRemoveDisc disc p).1 := by
  refine withDisc_keeps fun r d => ?_
  split
  · exact .refl p
  · split
    · split
      · exact .after settled_keeps <| .after removedFrom_keeps <| .after finaliseReject_keeps <|
          .after setOccupant_keeps <| .after discardMove_keeps writeReject_keeps
      · exact .refl p
    · exact .refl p

/-! ## Bays, media and the label unit -/

theorem withBay_keeps {bay : Byte} {f : Fin 12 → Bay → Part → Part × Answer}
    (installed : ∀ b y, p.Keeps (f b y p).1) : p.Keeps (withBay bay f p).1 := by
  unfold withBay
  split
  · exact .refl p
  · split
    · exact installed _ _
    · exact .refl p

theorem serviceReset_keeps : p.Keeps (serviceReset b p) := .after (modBay_keeps fun _ => ⟨id, id, id⟩) resetBay_keeps

theorem enableBay_keeps {bay : Byte} : p.Keeps (reqEnableBay bay p).1 := by
  refine withBay_keeps fun b y => ?_
  split
  · exact .after settled_keeps (.after serviceReset_keeps (modBay_keeps fun _ => ⟨id, id, id⟩))
  · split
    · exact .after settled_keeps (modBay_keeps fun _ => ⟨id, id, id⟩)
    · exact .refl p

theorem disableBay_keeps {bay : Byte} : p.Keeps (reqDisableBay bay p).1 := by
  refine withBay_keeps fun b y => ?_
  split
  · exact .refl p
  · split
    · exact .after settled_keeps enterBay_keeps
    · exact .after settled_keeps (modBay_keeps fun _ => ⟨id, id, id⟩)

theorem clearBayFault_keeps {bay : Byte} : p.Keeps (reqClearBayFault bay p).1 := by
  refine withBay_keeps fun b y => ?_
  split
  · exact .after settled_keeps serviceReset_keeps
  · exact .refl p

theorem newEntry_ok (f : MediaFields) (mode : MatchMode) (verdict : MediaVerdict) : (newEntry f mode verdict).ok :=
  ⟨le_clamp (by decide), Nat.le_refl _, clamp_le (by decide), Nat.zero_le _, Nat.zero_le _, Nat.zero_le _⟩

theorem setMediaEntry_keeps {f : MediaFields} : p.Keeps (reqSetMediaEntry f p).1 := by
  unfold reqSetMediaEntry
  split
  · exact setEntry_keeps fun _ y is => Option.some.inj is ▸ newEntry_ok _ _ _
  · exact .refl p

theorem clearMediaEntry_keeps {entry : Byte} : p.Keeps (reqClearMediaEntry entry p).1 := by
  unfold reqClearMediaEntry
  split
  · exact .refl p
  · split
    · exact setEntry_keeps fun _ _ is => nomatch is
    · exact .refl p

theorem setDefaultMedia_keeps {verdict cap : Byte} : p.Keeps (reqSetDefaultMedia verdict cap p).1 := by
  unfold reqSetDefaultMedia
  split
  · exact .refl p
  · exact ⟨fun ok => { ok with }, fun ok => { ok with defaultCap := ⟨le_clamp (by decide), clamp_le (by decide)⟩ }⟩

theorem lookUpMediaEntry_keeps {entry : Byte} : p.Keeps (reqLookUpMediaEntry entry p).1 := by
  unfold reqLookUpMediaEntry
  split
  · exact .refl p
  · split
    · exact .refl p
    · split <;> exact .refl p

theorem newTemplate_ok (f : TemplateFields) (y : Quality) : (newTemplate f y).ok := by
  refine ⟨le_clamp (by decide), clamp_le (by decide), le_clamp (by decide), clamp_le (by decide), fun k => ?_⟩
  match k with
  | 0 => exact clamp_le (Nat.zero_le 1000)
  | 1 => exact clamp_le (Nat.zero_le 1000)
  | 2 => exact clamp_le (Nat.zero_le 1000)
  | 3 => exact clamp_le (Nat.zero_le 1000)

theorem defineTemplate_keeps {f : TemplateFields} : p.Keeps (reqDefineTemplate f p).1 := by
  unfold reqDefineTemplate
  split
  · extract_lets used
    clear_value used
    split
    · exact .refl p
    · exact setTemplate_keeps fun _ y is => Option.some.inj is ▸ newTemplate_ok _ _
  · exact .refl p

theorem lookUpTemplate_keeps {template : Byte} : p.Keeps (reqLookUpTemplate template p).1 := by
  unfold reqLookUpTemplate
  split
  · exact .refl p
  · split <;> exact .refl p

theorem raiseInkLow_keeps : q.Keeps (raiseInkLow p q) := raiseInkLow_changes.keeps

theorem cartridgeInstalled_keeps {channel : Byte} {level : Word32} : p.Keeps (reqCartridgeInstalled channel level p).1 := by
  unfold reqCartridgeInstalled
  split
  · exact .refl p
  · split
    · exact .refl p
    · exact .after settled_keeps <| .after retryPass_keeps <| .after raiseInkLow_keeps <|
        setInk_keeps fun ⟨_, rest⟩ => ⟨Nat.min_le_left _ _, rest⟩

theorem clampInt_range {lo hi n : Int} (h : lo ≤ hi) : lo ≤ clampInt lo hi n ∧ clampInt lo hi n ≤ hi := by
  unfold clampInt
  split
  · exact ⟨Int.le_refl _, h⟩
  · split <;> omega

theorem setInkChannel_keeps {channel : Byte} {floor : Option Word32} {drop trim : Option Byte} :
    p.Keeps (reqSetInkChannel channel floor drop trim p).1 := by
  unfold reqSetInkChannel
  split
  · exact .refl p
  · extract_lets f d v y q₁ changed moved q₂
    have stored : p.Keeps q₁ := setInk_keeps fun ⟨level, low, drops, drops', trimLow, trimHigh⟩ => by
      refine ⟨level, ?_, (getD_range (fun k is => clampByte_range (by decide) is) ⟨drops, drops'⟩).1,
        (getD_range (fun k is => clampByte_range (by decide) is) ⟨drops, drops'⟩).2, ?_, ?_⟩
      · cases floor with
        | none => exact low
        | some w => exact Nat.min_le_left _ _
      · cases trim with
        | none => exact trimLow
        | some w => exact (clampInt_range (by decide)).1
      · cases trim with
        | none => exact trimHigh
        | some w => exact (clampInt_range (by decide)).2
    have told : q₁.Keeps q₂ := raiseInkLow_keeps
    clear_value q₂
    refine (stored.trans told).trans (.after settled_keeps ?_)
    split
    · exact retryPass_keeps
    · exact .refl q₂

theorem lookUpInk_keeps {template job : Byte} : p.Keeps (reqLookUpInk template job p).1 := by
  unfold reqLookUpInk
  split <;> exact .refl p

theorem clearPrinter_keeps : p.Keeps (reqClearPrinter p).1 := by
  unfold reqClearPrinter
  split
  · exact .after settled_keeps sendQuery_keeps
  · exact .refl p

/-! ## Every request -/

theorem runRequest_keeps (i : Instr) : p.Keeps (runRequest i p).1 := by
  cases i with
  | configureTower => exact configureTower_keeps
  | startTower => exact startTower_keeps
  | stopTowerNormal => exact stopNormal_keeps
  | stopTowerAbrupt => exact stopAbrupt_keeps
  | armRecover => exact armRecover_keeps
  | spindleLoaded => exact spindleLoaded_keeps
  | outputEmptied => exact .after settled_keeps (output_keeps rfl)
  | rejectBinEmptied => exact rejectBinEmptied_keeps
  | setAttention => exact setAttention_keeps
  | readAttention => exact Part.Changes.keeps (fs := [.attn]) fun f other => by cases f <;> first | rfl | simp at other
  | registerImage => exact registerImage_keeps
  | surveyImage => exact surveyImage_keeps
  | lookUpImage => exact withImage_keeps fun _ _ => .refl p
  | retireImage => exact retireImage_keeps
  | defineJob => exact defineJob_keeps
  | changeJob => exact changeJob_keeps
  | startJob => exact startJob_keeps
  | pauseJob => exact pauseJob_keeps
  | resumeJob => exact resumeJob_keeps
  | cancelJob => exact cancelJob_keeps
  | lookUpJob => exact withJob_keeps fun _ _ _ => .refl p
  | listJobs => exact listJobs_keeps
  | retireJob => exact retireJob_keeps
  | lookUpDisc => exact withDisc_keeps fun _ _ => .refl p
  | lookUpPlace => exact lookUpPlace_keeps
  | listDiscs => exact listDiscs_keeps
  | routeDisc => exact routeDisc_keeps
  | markDisc => exact markDisc_keeps
  | removeDisc => exact removeDisc_keeps
  | retireDisc => exact retireDisc_keeps
  | lookUpBay => exact withBay_keeps fun _ _ => .refl p
  | enableBay => exact enableBay_keeps
  | disableBay => exact disableBay_keeps
  | clearBayFault => exact clearBayFault_keeps
  | setMediaEntry => exact setMediaEntry_keeps
  | clearMediaEntry => exact clearMediaEntry_keeps
  | setDefaultMedia => exact setDefaultMedia_keeps
  | lookUpMediaEntry => exact lookUpMediaEntry_keeps
  | defineTemplate => exact defineTemplate_keeps
  | lookUpTemplate => exact lookUpTemplate_keeps
  | cartridgeInstalled => exact cartridgeInstalled_keeps
  | setInkChannel => exact setInkChannel_keeps
  | lookUpInk => exact lookUpInk_keeps
  | clearPrinter => exact clearPrinter_keeps
  | _ => exact .refl p

end Sys2Proof.Machine
end

