-- ==== Sys2Proof/Proofs/KeptSteps.lean ====
section
/-! PROOF. The invariants of causes and of ranges through the reports, the expiries and the pins, and so through
every step (R22, R43, R45, R47, R63, R79, R86, R93, R144, R147, R148, R161, R164, R165). -/

namespace Sys2Proof.Machine

-- One proof after another: side by side, their threads' stacks pass the check's memory limit.
set_option Elab.async false

variable {p q : Part} {b : Fin 12} {r : Fin 24} {c : Fin 4} {s t : State}

/-! ## Reports and expiries of the drives -/

theorem takeLoaded_keeps : p.Keeps (takeLoaded b p) := by
  unfold takeLoaded
  refine .after ?_ (endDriveOp_keeps (b := b))
  dsimp only
  split
  · split
    · exact .after sendDrive_keeps (.after enterBay_keeps setStage_keeps)
    · exact enterBay_keeps
  · split
    · exact .refl _
    · exact ejectBay_keeps

theorem refuseDisc_keeps {why : Reason} : p.Keeps (refuseDisc b r why p) :=
  .after ejectBay_keeps (.after setStage_keeps writeReject_keeps)

theorem acceptDisc_keeps {j : Job} {m : DiscMedia} : p.Keeps (acceptDisc b r j m p) := by
  unfold acceptDisc
  extract_lets speed q₁ q₂
  have attaching : p.Keeps q₂ := .after enterBay_keeps modDisc_keeps
  clear_value q₂
  refine attaching.trans ?_
  split
  · exact attach_keeps
  · exact .refl q₂

theorem takeIdentified_keeps {blank : Bool} {maker type : Word16} {cls : DiscClass} {capacity : Nat} :
    p.Keeps (takeIdentified b blank maker type cls capacity p) := by
  unfold takeIdentified
  extract_lets q
  have ended : p.Keeps q := endDriveOp_keeps
  clear_value q
  refine ended.trans ?_
  split
  · exact ejectBay_keeps
  · extract_lets u
    have written : q.Keeps u := modDisc_keeps
    clear_value u
    refine written.trans ?_
    split
    · exact ejectBay_keeps
    · split
      · exact refuseDisc_keeps
      · split
        · exact ejectBay_keeps
        · split
          · exact refuseDisc_keeps
          · exact acceptDisc_keeps

theorem takeClosed_keeps : p.Keeps (takeClosed b p) := by
  unfold takeClosed
  refine .after ?_ (endDriveOp_keeps (b := b))
  dsimp only
  split
  · exact ejectBay_keeps
  · split
    · exact enterBay_keeps
    · split
      · exact startReadBack_keeps
      · exact startReadBack_keeps
      · exact verdictGood_keeps

theorem takeOpened_keeps : p.Keeps (takeOpened b p) := by
  unfold takeOpened
  refine .after ?_ (endDriveOp_keeps (b := b))
  dsimp only
  split
  · exact presentBay_keeps
  · exact emptyBay_keeps

theorem ejectFails_keeps : p.Keeps (ejectFails b p) := by
  unfold ejectFails
  split
  · exact failedRecovery_keeps
  · exact bayFailure_keeps

theorem takeResetDone_keeps {present : Bool} {tray : Tray} : p.Keeps (takeResetDone b present tray p) := by
  refine .after afterReset_keeps (.after endReset_keeps (modBay_keeps fun y => ⟨id, fun ⟨low, kept⟩ => ⟨?_, kept⟩, id⟩))
  dsimp only
  split
  · exact Nat.zero_le _
  · exact low

theorem abortTested_keeps {f : Part → Part} (h : p.Keeps (f p)) : p.Keeps (abortTested b f p) := by
  unfold abortTested
  split
  · exact .after testAbort_keeps h
  · exact h

theorem watchdogFails_keeps : p.Keeps (watchdogFails b p) := by
  unfold watchdogFails
  split
  · exact failedRecovery_keeps
  · exact ejectFails_keeps
  · exact bayFailure_keeps

theorem watchdogExpires_keeps : p.Keeps (watchdogExpires b p) := by
  unfold watchdogExpires
  split
  · exact .refl p
  · exact now_keeps.trans (abortTested_keeps watchdogFails_keeps)

theorem driveReport_keeps {op : DriveOp} {f : Part → Part} (h : ∀ p, Part.Keeps p (f p)) :
    p.Keeps (driveReport b op f p) := by
  unfold driveReport
  split
  · exact (h p).trans settle_keeps
  · exact .refl p

/-! ## Reports and expiries of the store and the printer, and the pins -/

theorem takeStoreError_keeps {id : Nat} : p.Keeps (takeStoreError c id p) := by
  unfold takeStoreError
  split
  · exact failAttempt_keeps.trans settle_keeps
  · exact .refl p

theorem storeLimitExpires_keeps : p.Keeps (storeLimitExpires c p) := by
  unfold storeLimitExpires
  split
  · exact now_keeps.trans (failAttempt_keeps.trans settle_keeps)
  · exact .refl p

theorem joinEnds_keeps : p.Keeps (joinEnds c p) := by
  unfold joinEnds
  split
  · split
    · exact .refl p
    · exact now_keeps.trans (setChannel_keeps.trans settle_keeps)
  · exact .refl p

theorem endQuery_keeps : p.Keeps (endQuery p) := .after clearPrinterMark_keeps (station_keeps id id)

theorem takeStatus_keeps {present : Bool} {condition : Condition} {n : Nat} :
    p.Keeps (takeStatus present condition n p) := by
  unfold takeStatus
  refine .after ?_ (takeTemperature_keeps (t := n))
  dsimp only
  split
  · split
    · exact .after faultStation_keeps endQuery_keeps
    · exact .after statusReady_keeps endQuery_keeps
  · exact .refl _

theorem takeLabel_keeps {failed : Bool} {d : Drops} {n : Nat} : p.Keeps (takeLabel failed d n p) := by
  unfold takeLabel
  refine .after ?_ (takeTemperature_keeps (t := n))
  dsimp only
  split
  · exact endLabel_keeps
  · exact .refl _

theorem takeEngineFault_keeps {d : Drops} : p.Keeps (takeEngineFault d p) := by
  unfold takeEngineFault
  split
  · exact endLabel_keeps
  · exact faultStation_keeps
  · exact faultStation_keeps
  · exact faultStation_keeps
  · exact .refl p
  · exact .refl p

theorem labelExpires_keeps : p.Keeps (labelExpires p) := by
  unfold labelExpires
  split
  · exact .refl p
  · exact now_keeps.trans endLabel_keeps

theorem queryExpires_keeps : p.Keeps (queryExpires p) := by
  unfold queryExpires
  split
  · exact .refl p
  · exact now_keeps.trans (endQuery_keeps.trans faultStation_keeps)

theorem pulseEnds_keeps : p.Keeps (pulseEnds p) := by
  unfold pulseEnds
  split
  · exact .refl p
  · exact Part.Changes.keeps (fs := [.now, .attn]) fun f other => by cases f <;> first | rfl | simp at other

/-! ## Every command and every step -/

theorem fresh_keeps : p.Keeps p.fresh :=
  Part.Changes.keeps (fs := [.sent]) fun f other => by cases f <;> first | rfl | simp at other

/-- An event keeps the invariants when its effect on the records does. -/
theorem takeEvent_keeps {f : Part → Part} (next : takeEvent f s = .next t) (h : ∀ p, Part.Keeps p (f p)) :
    s.part.Keeps t.part := by
  obtain ⟨u, taken, -, -, -, same | done⟩ := takeEvent_next f s
  all_goals rw [next, Host.Outcome.next.injEq] at taken
  · rw [taken, same]
    exact .refl _
  · rw [taken, done]
    exact fresh_keeps.trans (h _)

/-- An event of the arm, which the evaluations follow. -/
theorem takeSettled_keeps {f : Part → Part} (next : takeEvent (fun p => settle (f p)) s = .next t)
    (h : ∀ p, Part.Keeps p (f p)) : s.part.Keeps t.part :=
  takeEvent_keeps next fun p => (h p).trans settle_keeps

theorem takeRequest_keeps {code tag : Byte} {i : Instr} (next : takeRequest code tag (runRequest i) s = .next t) :
    s.part.Keeps t.part := by
  obtain ⟨u, taken, -, -, ⟨same, -⟩ | ⟨full, -⟩ | ⟨-, done, -⟩⟩ := takeRequest_next code tag (runRequest i) s
  all_goals rw [next, Host.Outcome.next.injEq] at taken
  · rw [taken, same]
    exact .refl _
  · rw [taken, full]
    exact fresh_keeps.trans raise_keeps
  · rw [taken, done]
    exact fresh_keeps.trans (runRequest_keeps i)

theorem runFrame_keeps {frame : List Byte} : p.Keeps (runFrame frame p).1 := by
  unfold runFrame
  split
  · exact runRequest_keeps _
  · exact .refl p
  · exact .refl p
  · exact .refl p

theorem takeInput_keeps {input : List Byte} (is : s.part = p) : p.Keeps (takeInput input s).part := by
  subst is
  unfold takeInput
  split
  · exact .refl _
  · split
    · exact .refl _
    · split
      · exact raise_keeps
      · split
        · exact raise_keeps
        · unfold executeOldest
          split
          · exact .refl _
          · exact fresh_keeps.trans runFrame_keeps

theorem execSelectEnd_keeps {bytes : List Byte} (next : execSelectEnd bytes s = .next t) : s.part.Keeps t.part := by
  unfold execSelectEnd at next
  simp only [Host.Outcome.next.injEq] at next
  subst next
  split
  · exact fresh_keeps
  · split
    · exact fresh_keeps.trans (takeInput_keeps rfl)
    · split
      · exact fresh_keeps
      · exact fresh_keeps.trans (takeInput_keeps rfl)

theorem execSelectBegin_keeps (next : execSelectBegin s = .next t) : s.part.Keeps t.part := by
  unfold execSelectBegin at next
  simp only [Host.Outcome.next.injEq] at next
  subst next
  split
  · exact .refl _
  · exact fresh_keeps

theorem moveDoor_keeps {isOpen : Bool} {f : Part → Part} (next : moveDoor isOpen f s = .next t)
    (h : ∀ p, Part.Keeps p (f p)) : s.part.Keeps t.part :=
  .trans (q := { s.part with doorOpen := isOpen })
    (Part.Changes.keeps (fs := [.doorOpen]) fun f other => by cases f <;> first | rfl | simp at other)
    (takeSettled_keeps next h)

theorem execData_keeps {id : Nat} {bytes : List Byte} (next : execData c id bytes s = .next t) :
    s.part.Keeps t.part := by
  unfold execData at next
  have part : (if s.link.resetLow then s else { s with memory := storeData s.part c id bytes s.memory }).part = s.part := by
    split <;> rfl
  rw [← part]
  refine takeEvent_keeps next fun p => ?_
  split
  · exact takeData_keeps.trans settle_keeps
  · exact .refl p

/-- Every command keeps the invariants: a request by its owner, a report or expiry by its effect, and a rise of
RST_N because the reset values meet them. -/
theorem exec_keeps {i : Instr} (next : exec i s = .next t) : s.part.Keeps t.part := by
  cases row : requestBody i with
  | some y =>
    obtain ⟨code, body⟩ := y
    rw [exec_request row] at next
    exact takeRequest_keeps next
  | none =>
    cases i <;> simp only [requestBody, reduceCtorEq] at row
    case selectBegin => exact execSelectBegin_keeps next
    case selectEnd => exact execSelectEnd_keeps next
    case rstNLow =>
      obtain rfl := Host.Outcome.next.inj next
      exact fresh_keeps.trans emit_keeps
    case rstNRise =>
      obtain rfl := Host.Outcome.next.inj next
      have risen : (Part.reset s.part.doorOpen s.part.arm.opCount s.part.readCount).Keeps s.part.afterRise := by
        unfold Part.afterRise
        dsimp only
        split
        · exact doorOpened_keeps
        · exact .refl _
      exact ⟨fun _ => risen.causes (reset_causesOk _ _ _), fun _ => risen.ranges (reset_rangesOk _ _ _)⟩
    case attnPulseEnd => exact takeEvent_keeps next fun _ => pulseEnds_keeps
    case doorOpen => exact moveDoor_keeps next fun _ => doorOpened_keeps
    case doorClosed => exact moveDoor_keeps next fun _ => doorShut_keeps
    case gripped => exact takeSettled_keeps next fun _ => takeGripped_keeps
    case done => exact takeSettled_keeps next fun _ => takeDone_keeps
    case missed => exact takeSettled_keeps next fun _ => armReport_keeps fun _ _ => missed_keeps
    case double => exact takeSettled_keeps next fun _ => armReport_keeps fun _ _ => doubled_keeps
    case single => exact takeSettled_keeps next fun _ => armReport_keeps fun _ _ => separated_keeps
    case stillDouble => exact takeSettled_keeps next fun _ => armReport_keeps fun _ _ => unseparated_keeps
    case dropped => exact takeSettled_keeps next fun _ => armReport_keeps fun _ _ => dropped_keeps
    case interrupted => exact takeSettled_keeps next fun _ => armReport_keeps fun _ _ => interruptedHeld_keeps
    case jammed => exact takeSettled_keeps next fun _ => armReport_keeps fun _ _ => jam_keeps
    case homed => exact takeSettled_keeps next fun _ => armReport_keeps fun _ _ => takeHomed_keeps
    case moveTimeout => exact takeSettled_keeps next fun _ => armExpired_keeps
    case loaded => exact takeEvent_keeps next fun _ => driveReport_keeps fun _ => takeLoaded_keeps
    case loadError => exact takeEvent_keeps next fun _ => driveReport_keeps fun _ => bayFailure_keeps
    case identified => exact takeEvent_keeps next fun _ => driveReport_keeps fun _ => takeIdentified_keeps
    case idError => exact takeEvent_keeps next fun _ => driveReport_keeps fun _ => bayFailure_keeps
    case ready => exact takeEvent_keeps next fun _ => driveReport_keeps fun _ => memberReady_keeps
    case chunkAck => exact takeEvent_keeps next fun _ => driveReport_keeps fun _ => memberAck_keeps
    case writeError => exact takeEvent_keeps next fun _ => driveReport_keeps fun _ => bayFailure_keeps
    case closed => exact takeEvent_keeps next fun _ => driveReport_keeps fun _ => takeClosed_keeps
    case closeError => exact takeEvent_keeps next fun _ => driveReport_keeps fun _ => bayFailure_keeps
    case segment => exact takeEvent_keeps next fun _ => driveReport_keeps fun _ => takeRead_keeps
    case readError => exact takeEvent_keeps next fun _ => driveReport_keeps fun _ => takeRead_keeps
    case opened => exact takeEvent_keeps next fun _ => driveReport_keeps fun _ => takeOpened_keeps
    case ejectError => exact takeEvent_keeps next fun _ => driveReport_keeps fun _ => ejectFails_keeps
    case resetDone =>
      exact takeEvent_keeps next fun _ => driveReport_keeps fun _ => abortTested_keeps takeResetDone_keeps
    case resetFailed =>
      exact takeEvent_keeps next fun _ => driveReport_keeps fun _ => abortTested_keeps failedRecovery_keeps
    case watchdogExpiry => exact takeSettled_keeps next fun _ => watchdogExpires_keeps
    case data => exact execData_keeps next
    case storeError => exact takeEvent_keeps next fun _ => takeStoreError_keeps
    case storeReadLimitExpiry => exact takeEvent_keeps next fun _ => storeLimitExpires_keeps
    case joinPeriodEnd => exact takeEvent_keeps next fun _ => joinEnds_keeps
    case status => exact takeSettled_keeps next fun _ => takeStatus_keeps
    case labelDone => exact takeSettled_keeps next fun _ => takeLabel_keeps
    case labelFailed => exact takeSettled_keeps next fun _ => takeLabel_keeps
    case temperature => exact takeSettled_keeps next fun _ => takeTemperature_keeps
    case printerFault => exact takeSettled_keeps next fun _ => takeEngineFault_keeps
    case labelLimitExpiry => exact takeSettled_keeps next fun _ => labelExpires_keeps
    case queryLimitExpiry => exact takeSettled_keeps next fun _ => queryExpires_keeps

theorem tick_keeps : s.part.Keeps (tick s).part := by
  unfold tick
  split
  · exact .refl _
  · exact fresh_keeps.trans now_keeps

theorem step_keeps (next : step s = .next t) : s.part.Keeps t.part := by
  obtain ⟨i, rest, -, run⟩ | ⟨i, -, run⟩ | pass := step_cases s
  · exact exec_keeps (s := { s with pending := rest }) (run ▸ next)
  · exact exec_keeps (run ▸ next)
  · rw [pass, Host.Outcome.next.injEq] at next
    exact next ▸ tick_keeps

/-- Settles O11: every operation on the records keeps each cause with the state it explains. -/
theorem causesKeepTheirForm : Obligations.CausesKeepTheirForm := fun _ _ ok next => (step_keeps next).causes ok

/-- Settles O12: every operation on the records keeps the settings and counts in their ranges. -/
theorem countsKeepTheirRanges : Obligations.CountsKeepTheirRanges := fun _ _ ok next => (step_keeps next).ranges ok

end Sys2Proof.Machine
end

