-- ==== Sys2Proof/Proofs/Pins.lean ====
section
/-! PROOF. The attention line and the door (R47, R58, R59, R62, R171, R180, R181). -/

namespace Sys2Proof.Machine

-- One proof after another: side by side, their threads' stacks pass the check's memory limit.
set_option Elab.async false

variable {p q : Part} {s t : State}

/-! ## The attention line -/

/-- Every bit of the flags' word names a flag (R180). -/
theorem Flag.exists_bit {i : Nat} (h : i < 19) : ∃ f : Flag, f.bit = i := by
  have named : ∀ i < 19, ∃ f ∈ [Flag.resetOccurred, .towerState, .jobEnded, .discRejected, .foundDisc, .tableHeld,
      .bayFault, .armHalt, .doorOpen, .spindleEmpty, .outputFull, .rejectFull, .inkShort, .inkLow, .headHot,
      .imageReady, .imageFault, .linkOverrun, .linkError], f.bit = i := by decide
  obtain ⟨f, -, is⟩ := named i h
  exact ⟨f, is⟩

/-- In LEVEL the line is low while some enabled flag is set (R181). -/
theorem Attention.low_level {a : Attention} (level : a.mode = .level) :
    a.low = true ↔ ∃ f : Flag, a.isSet f = true ∧ a.enables.getLsbD f.bit = true := by
  have low : a.low = true ↔ a.flags &&& a.enables ≠ 0#19 := by simp [Attention.low, level]
  rw [low]
  constructor
  · intro some
    by_contra none
    refine some (BitVec.eq_of_getLsbD_eq fun i h => ?_)
    obtain ⟨f, rfl⟩ := Flag.exists_bit h
    rw [BitVec.getLsbD_and, BitVec.getLsbD_zero]
    by_contra set
    exact none ⟨f, by simpa [Attention.isSet] using set⟩
  · rintro ⟨f, set, enabled⟩ zero
    have bit := congrArg (·.getLsbD f.bit) zero
    simp only [BitVec.getLsbD_and, BitVec.getLsbD_zero] at bit
    rw [show a.flags.getLsbD f.bit = true from set, enabled] at bit
    exact absurd bit (by decide)

/-- In PULSE the line is low while a pulse is in progress (R181). -/
theorem Attention.low_pulse {a : Attention} (pulse : a.mode = .pulse) :
    a.low = true ↔ ∃ n, a.pulseEnd = some n := by
  simp [Attention.low, pulse, Option.isSome_iff_exists]

theorem State.attnLow_high (high : s.link.resetLow = false) : s.attnLow = s.part.attn.low := by
  simp [State.attnLow, high]

/-- Settles O14: raising is one bit of the flags' word, and the line follows the mode. -/
theorem attentionLine : Obligations.AttentionLine := by
  refine ⟨⟨fun f p => ⟨?_, fun g other => ?_, ?_⟩, fun s high level => ?_, fun s high pulse => ?_, fun s low => ?_⟩,
    fun s n high ending => ?_⟩
  · simp [raise]
  · simp [raise, other]
  · simp [raise, Attention.raise, and_assoc]
  · rw [State.attnLow_high high, Attention.low_level level]
  · rw [State.attnLow_high high, Attention.low_pulse pulse]
  · simp [State.attnLow, low]
  · refine ⟨_, (exec_attnPulseEnd s).trans (takeEvent_live high), ?_, fun pulse => ?_⟩
    · simp [pulseEnds, ending, State.became]
    · simp [State.attnLow, high, pulseEnds, ending, Attention.low, pulse]

/-! ## The door -/

theorem moveDoor_live (high : s.link.resetLow = false) (isOpen : Bool) (f : Part → Part) :
    moveDoor isOpen f s = .next (s.became (settle (f { s.part.fresh with doorOpen := isOpen }))) :=
  takeEvent_live (s := s.became { s.part with doorOpen := isOpen }) high

theorem doorOpened_eq (p : Part) : doorOpened p = pauseTower (cutArm { p with attn := p.attn.raise .doorOpen p.now }) :=
  rfl

/-- Settles O17: the door's opening cuts the arm and pauses the tower, its closing sends HOME. -/
theorem doorMoves : Obligations.DoorMoves := by
  intro s high
  refine ⟨⟨_, (exec_doorOpen s).trans (moveDoor_live high _ _), ?_, ?_, ?_, ?_, ?_, ?_, ?_⟩, fun byDoor => ?_, fun other => ?_⟩
  · rw [doorOpened_eq, pauseTower_eq, cutArm_eq]
    intro f other
    cases f <;> first | rfl | simp at other
  · rw [doorOpened_eq, pauseTower_eq, cutArm_eq]
  · rw [doorOpened_eq, pauseTower_eq, cutArm_eq]
    cases leaves : s.part.tower.state.asResume <;> simp [leaves]
  · intro halted
    simp [doorOpened_eq, pauseTower_eq, cutArm_eq, halted]
  · intro going
    simp [doorOpened_eq, pauseTower_eq, cutArm_eq, going]
  · intro x leaves
    simp [doorOpened_eq, pauseTower_eq, cutArm_eq, leaves]
  · intro stays
    simp [doorOpened_eq, pauseTower_eq, cutArm_eq, stays]
  · rw [exec_doorClosed, moveDoor_live high]
    simp [doorShut, byDoor, homeArm, enterArm, sendArm_eq, Arm.sending, Part.fresh]
  · rw [exec_doorClosed, moveDoor_live high]
    simp [doorShut, other]

end Sys2Proof.Machine
end

