-- ==== Sys2Proof/Proofs/OperatorRequests.lean ====
section
/-! PROOF. The requests of tower control and the handler unit that an operator's action is behind: ARM RECOVER,
SPINDLE LOADED, OUTPUT EMPTIED, REJECT BIN EMPTIED, START TOWER (R43, R44, R46, R57, R62, R166, R168). -/

namespace Sys2Proof.Machine

-- One proof after another: side by side, their threads' stacks pass the check's memory limit.
set_option Elab.async false

variable {p q : Part} {s t : State} {tag : Byte}

/-- HOME is sent: the arm is HOMING (R59, R62, R166). -/
theorem homeArm_eq (why : HomeFor) (p : Part) : homeArm why p = { p with
    arm := { p.arm.sending (.home why) (p.now + p.tower.moveTimeout) with state := .homing, halt := none }
    sent := p.sent ++ [.arm (.home why)] } := rfl

/-! ## ARM RECOVER -/

theorem reqArmRecover_homes (halted : p.tower.state = .halted) (closed : p.doorOpen = false)
    (armHalted : p.arm.state = .halted) (byJam : p.arm.halt = some .jam) :
    reqArmRecover p = settled (homeArm .recover p) accepted := by
  simp [reqArmRecover, halted, closed, armHalted, byJam]

theorem reqArmRecover_busy (halted : p.tower.state = .halted) (busy : p.doorOpen = true ∨ p.arm.state = .homing) :
    reqArmRecover p = turnDown .busy p := by
  rw [reqArmRecover, if_neg (not_not.2 halted), if_pos (by simpa using busy)]

theorem reqArmRecover_badState (other : p.tower.state ≠ .halted) : reqArmRecover p = turnDown .badState p :=
  if_pos other

/-! ## SPINDLE LOADED -/

theorem pickingFrom_iff {x : SpindleId} : p.pickingFrom x = true ↔ ∃ m, p.arm.move = some m ∧ m.source = .spindle x := by
  unfold Part.pickingFrom
  cases p.arm.move <;> simp

theorem reqSpindleLoaded_loads {spindle cls count : Byte} {x : SpindleId} {c : DiscClass} (which : spindleOf spindle = some x)
    (named : classOf cls = some c) (still : ∀ m, p.arm.move = some m → m.source ≠ .spindle x) :
    reqSpindleLoaded spindle cls count p = settled (loadSpindle x c (min 150 count.toNat) p)
      (okOrClamped (decide (150 < count.toNat)) [] (u8 150)) := by
  have idle : p.pickingFrom x = false := by
    rw [← Bool.not_eq_true, pickingFrom_iff]
    rintro ⟨m, moves, fromIt⟩
    exact still m moves fromIt
  simp [reqSpindleLoaded, which, named, idle]

theorem reqSpindleLoaded_busy {spindle cls count : Byte} {x : SpindleId} {c : DiscClass} {m : Move}
    (which : spindleOf spindle = some x) (named : classOf cls = some c) (moves : p.arm.move = some m)
    (fromIt : m.source = .spindle x) : reqSpindleLoaded spindle cls count p = turnDown .busy p := by
  simp [reqSpindleLoaded, which, named, pickingFrom_iff.2 ⟨m, moves, fromIt⟩]

/-- A byte of 2 or above is no code of a pair of named values. -/
theorem ne_codes_of_two_le {b : Byte} (h : 2 ≤ b.toNat) : b ≠ 0 ∧ b ≠ 1 := by
  constructor <;> rintro rfl <;> exact absurd h (by decide)

theorem reqSpindleLoaded_outOfRange {spindle cls count : Byte} (bad : 2 ≤ spindle.toNat ∨ 2 ≤ cls.toNat) :
    reqSpindleLoaded spindle cls count p = turnDown .outOfRange p := by
  unfold reqSpindleLoaded
  obtain none | none : spindleOf spindle = none ∨ classOf cls = none := by
    refine bad.imp (fun h => ?_) fun h => ?_
    · rw [spindleOf, if_neg (ne_codes_of_two_le h).1, if_neg (ne_codes_of_two_le h).2]
    · rw [classOf, if_neg (ne_codes_of_two_le h).1, if_neg (ne_codes_of_two_le h).2]
  · rw [none]
  · rw [none]
    cases spindleOf spindle <;> rfl

/-- The count as SPINDLE LOADED stores it is 0 exactly when the byte is (R44). -/
theorem loadedCount_eq_zero (count : Byte) : (min 150 count.toNat == 0) = (count == 0) := by
  rw [Bool.eq_iff_iff, beq_iff_eq, beq_iff_eq, ← BitVec.toNat_inj]
  change _ ↔ count.toNat = 0
  omega

theorem loadSpindle_eq (x : SpindleId) (c : DiscClass) (count : Byte) (p : Part) :
    loadSpindle x c (min 150 count.toNat) p =
      { p.setSpindle x { cls := c, count := min 150 count.toNat, empty := count == 0, wasted := 0 } with
        attn := if count = 0 ∧ (p.spindle x).empty = false then p.attn.raise .spindleEmpty p.now else p.attn } := by
  rw [loadSpindle, loadedCount_eq_zero, changeSpindle_eq]
  simp

theorem okOrClamped_count (count : Byte) : okOrClamped (decide (150 < count.toNat)) [] (u8 150) =
    if count.toNat ≤ 150 then { status := .ok, body := [] } else { status := .clamped, body := [150] } := by
  by_cases fits : count.toNat ≤ 150
  · simp [okOrClamped, fits]
  · simp only [okOrClamped, fits, Nat.not_le.1 fits, decide_true, if_true, if_false]
    rfl

/-! ## The sinks emptied -/

theorem pairWaits_iff : p.pairWaits = true ↔
    p.arm.state = .moving ∧ p.arm.op = none ∧ ∃ m, p.arm.move = some m ∧ m.feed = .pairWaiting := by
  unfold Part.pairWaits
  cases p.arm.move <;> simp [and_assoc]

theorem reqRejectBinEmptied_still (still : p.pairWaits = false) :
    reqRejectBinEmptied p = settled { p with bin := { p.bin with count := 0 } } okay := by
  have still' : Part.pairWaits { p with bin := { p.bin with count := 0 } } = false := still
  simp [reqRejectBinEmptied, still']

theorem reqRejectBinEmptied_pair (waits : p.pairWaits = true) :
    reqRejectBinEmptied p = settled (deliverPair { p with bin := { p.bin with count := 0 } }) okay := by
  have waits' : Part.pairWaits { p with bin := { p.bin with count := 0 } } = true := waits
  simp [reqRejectBinEmptied, waits']

/-- Settles O27: each request's meaning, case by case. -/
theorem operatorRequests : Obligations.OperatorRequests := by
  refine ⟨fun s tag taken => ⟨fun halted closed armHalted byJam => ?_, fun halted busy => ?_, fun other => ?_⟩,
    fun s tag taken => ⟨fun spindle cls count x c which named => ⟨fun still => ?_, fun m moves fromIt => ?_⟩,
      fun spindle cls count bad => ?_, ?_, fun still => ?_, fun m moves pair ended moving room => ?_⟩⟩
  · rw [exec_armRecover]
    exact takeRequest_replied taken _ _ (reqArmRecover_homes halted closed armHalted byJam)
  · rw [exec_armRecover]
    exact takeRequest_replied taken _ _ (reqArmRecover_busy halted busy)
  · rw [exec_armRecover]
    exact takeRequest_replied taken _ _ (reqArmRecover_badState other)
  · rw [exec_spindleLoaded]
    refine takeRequest_replied taken _ _ ?_
    rw [reqSpindleLoaded_loads (p := s.part.fresh) which named still, loadSpindle_eq, okOrClamped_count]
    rfl
  · rw [exec_spindleLoaded]
    exact takeRequest_replied taken _ _ (reqSpindleLoaded_busy which named moves fromIt)
  · rw [exec_spindleLoaded]
    exact takeRequest_replied taken _ _ (reqSpindleLoaded_outOfRange bad)
  · rw [exec_outputEmptied]
    exact takeRequest_replied taken _ _ rfl
  · rw [exec_rejectBinEmptied]
    refine takeRequest_replied taken _ _ (reqRejectBinEmptied_still ?_)
    rw [← Bool.not_eq_true, pairWaits_iff]
    rintro ⟨moving, ended, m, moves, pair⟩
    obtain no | sent | other := still
    · exact no m moves pair
    · exact absurd sent (by simpa using ended)
    · exact other moving
  · rw [exec_rejectBinEmptied]
    refine takeRequest_replied taken _ _ ?_
    rw [reqRejectBinEmptied_pair (p := s.part.fresh) (pairWaits_iff.2 ⟨moving, ended, m, moves, pair⟩),
      deliverPair_sends (by simpa [Sink.full, Nat.pos_iff_ne_zero] using room)]
    simp only [Part.fresh_arm, moves]
    rfl

/-! ## START TOWER -/

theorem swept_iff {b : Fin 12} : p.swept b = true ↔
    b.val < p.tower.installed ∧ (p.bay b).enabled = true ∧ (p.bay b).state ≠ .faulted := by
  simp [Part.swept, Part.installed, and_assoc]

theorem sweepQuery_eq (p : Part) : sweepQuery p =
    if p.station.labelDeadline = none ∧ p.station.queryDeadline = none then
      { p with station := { p.station with queryDeadline := some (p.now + 5000) }, sent := p.sent ++ [.query] }
    else p := by
  unfold sweepQuery
  cases p.station.labelDeadline <;> cases p.station.queryDeadline <;> simp [sendQuery, emit, queryLimit]

/-- What START TOWER sends and marks as the sweep begins (R166, R168). -/
theorem sweepBegun_eq (w : Sweep) (p : Part) :
    sweepQuery (homeArm .sweep (enterTower .starting { p with tower := { p.tower with sweep := some w } })) =
      { p with
        sent := p.sent ++ [.arm (.home .sweep)] ++
          if p.station.labelDeadline = none ∧ p.station.queryDeadline = none then [.query] else []
        attn := p.attn.raise .towerState p.now
        tower := { p.tower with state := .starting, sweep := some w }
        station := if p.station.labelDeadline = none ∧ p.station.queryDeadline = none then
          { p.station with queryDeadline := some (p.now + 5000) } else p.station
        arm := { p.arm.sending (.home .sweep) (p.now + p.tower.moveTimeout) with state := .homing, halt := none } } := by
  rw [sweepQuery_eq]
  by_cases quiet : p.station.labelDeadline = none ∧ p.station.queryDeadline = none
  · simp only [if_pos quiet]
    exact if_pos quiet
  · simp only [if_neg quiet, List.append_nil]
    exact if_neg quiet

theorem reqStartTower_starts (stopped : p.tower.state = .stopped) (closed : p.doorOpen = false) (ended : p.arm.op = none) :
    reqStartTower p = settled (sweepQuery (homeArm .sweep
      (enterTower .starting { p with tower := { p.tower with sweep := some p.newSweep } }))) accepted := by
  simp [reqStartTower, stopped, closed, ended]

theorem reqStartTower_busy (stopped : p.tower.state = .stopped) (busy : p.doorOpen = true ∨ p.arm.op.isSome = true) :
    reqStartTower p = turnDown .busy p := by
  rw [reqStartTower, if_neg (not_not.2 stopped), if_pos (by simpa using busy)]

theorem reqStartTower_badState (other : p.tower.state ≠ .stopped) : reqStartTower p = turnDown .badState p :=
  if_pos other

/-- RESET is sent, after ABORT where an operation is in flight (R65, R66). -/
theorem resetBay_eq (b : Fin 12) (p : Part) : resetBay b p = paySweepReset b
    { p.setBay b ((p.bay b).resetting p.now) with
      sent := (if (p.bay b).operation.isSome then p.sent ++ [.drive b .abort] else p.sent) ++ [.drive b .reset] } := by
  cases flying : (p.bay b).operation.isSome with
  | false =>
    simp only [resetBay, flying]
    simp [sendDrive, emit, Part.modBay, Part.setBay, Part.bay, Bay.resetting, Bay.driven, Bay.enter, identifyTimeout]
  | true =>
    simp only [resetBay, flying]
    simp [endDriveOp, sendDrive, emit, Part.modBay, Part.setBay, Part.bay, Bay.resetting, Bay.driven, Bay.enter,
      identifyTimeout]

theorem resetBay_idle {b : Fin 12} (idle : (p.bay b).operation = none) :
    resetBay b p = paySweepReset b { p.setBay b ((p.bay b).resetting p.now) with sent := p.sent ++ [.drive b .reset] } := by
  rw [resetBay_eq, idle]
  rfl

theorem Tower.unmarked_none {y : Tower} (none : y.sweep = none) (b : Fin 12) : y.unmarked b = y := by
  cases y
  cases none
  rfl

theorem clearBayMark_eq (b : Fin 12) (p : Part) : clearBayMark b p = { p with tower := p.tower.unmarked b } := by
  unfold clearBayMark
  cases sweep : p.tower.sweep with
  | none => rw [Tower.unmarked_none sweep]
  | some w => simp only [Tower.unmarked, sweep]; rfl

theorem sweepFollow_absent {b : Fin 12} (none : p.tower.sweep = none) : sweepFollow b p = p := by
  simp [sweepFollow, none]

theorem sweepFollow_still {b : Fin 12} {w : Sweep} (sweep : p.tower.sweep = some w)
    (still : w.resetOwed[b.val] = false ∨ (p.bay b).operation.isSome = true) : sweepFollow b p = p := by
  obtain paid | flying := still
  · simp [sweepFollow, sweep, paid]
  · simp [sweepFollow, sweep, Option.isSome_iff_ne_none.1 flying]

theorem sweepFollow_clears {b : Fin 12} {w : Sweep} (sweep : p.tower.sweep = some w) (owed : w.resetOwed[b.val] = true)
    (idle : (p.bay b).operation = none) (out : (p.bay b).state = .faulted ∨ (p.bay b).enabled = false) :
    sweepFollow b p = clearBayMark b p := by
  simp [sweepFollow, sweep, owed, idle, out]

theorem sweepFollow_resets {b : Fin 12} {w : Sweep} (sweep : p.tower.sweep = some w) (owed : w.resetOwed[b.val] = true)
    (idle : (p.bay b).operation = none) (sound : (p.bay b).state ≠ .faulted) (enabled : (p.bay b).enabled = true) :
    sweepFollow b p = resetBay b p := by
  simp [sweepFollow, sweep, owed, idle, sound, enabled]

/-- Settles O25: the sweep START TOWER begins, and each bay's part in it. -/
theorem startTower : Obligations.StartTower := by
  refine ⟨fun s tag taken => ⟨fun stopped closed ended => ?_, fun stopped busy => ?_, fun other => ?_⟩,
    fun p b => ⟨sweepFollow_absent, fun w sweep => ⟨sweepFollow_still sweep, fun owed idle => ⟨fun out => ?_,
      fun sound enabled => ?_⟩⟩⟩⟩
  · refine ⟨s.part.newSweep, rfl, rfl, rfl, fun b => ?_, fun b => ?_, ?_⟩
    · simpa [Part.newSweep] using swept_iff
    · simp [Part.newSweep]
    · intro free
      rw [exec_startTower]
      refine takeRequest_replied taken _ _ ?_
      rw [reqStartTower_starts (p := s.part.fresh) stopped closed ended, sweepBegun_eq]
      rfl
  · rw [exec_startTower]
    exact takeRequest_replied taken _ _ (reqStartTower_busy stopped busy)
  · rw [exec_startTower]
    exact takeRequest_replied taken _ _ (reqStartTower_badState other)
  · rw [sweepFollow_clears sweep owed idle out, clearBayMark_eq]
  · rw [sweepFollow_resets sweep owed idle sound enabled, resetBay_idle idle]
    simp [paySweepReset, sweep]

end Sys2Proof.Machine
end

