-- ==== Sys2Proof/Proofs/JobEvents.lean ====
section
/-! PROOF. The job table's events as explicit updates: the four disc events with the ends they cause, the hold
reasons and what an image that becomes READY wakes (R24, R32 to R34, R108, R111, R142). -/

namespace Sys2Proof.Machine

-- One proof after another: side by side, their threads' stacks pass the check's memory limit.
set_option Elab.async false

variable {p q : Part} {x : Fin 16} {j k : Job}

/-! ## The ends of a job -/

/-- The records after job `x`, standing as `k`, has ended in `st` (R23). -/
def Part.ends (p : Part) (x : Fin 16) (k : Job) (st : JobState) : Part :=
  { p.setJob x (some { k with
      state := st, holds := { ink := false, source := false, imageNotReady := false } }) with
    attn := p.attn.raise .jobEnded p.now }

/-- The records with job `x` standing as `k`, ended when it was FAILING or CANCELLING and has no active disc
(R33, R38). -/
def Part.closes (p : Part) (x : Fin 16) (k : Job) : Part :=
  if k.active = 0 ∧ k.state = .failing then p.ends x k .failed
  else if k.active = 0 ∧ k.state = .cancelling then p.ends x k .cancelled
  else p.setJob x (some k)

theorem endJob_held (held : p.job x = some j) (st : JobState) : endJob x st p = p.ends x j st := by
  rw [endJob, modJob_held held]
  rfl

theorem setJob_ends (p : Part) (x : Fin 16) (o : Option Job) (k : Job) (st : JobState) :
    (p.setJob x o).ends x k st = p.ends x k st := by
  simp [Part.ends, Part.setJob_setJob]

theorem endJob_set (p : Part) (x : Fin 16) (k : Job) (st : JobState) :
    endJob x st (p.setJob x (some k)) = p.ends x k st := by
  rw [endJob_held (Part.setJob_self p x (some k)), setJob_ends]

theorem closeIdle_set (p : Part) (x : Fin 16) (k : Job) : closeIdle x (p.setJob x (some k)) = p.closes x k := by
  unfold closeIdle Part.closes
  rw [Part.setJob_self]
  dsimp only
  by_cases idle : k.active = 0
  · rw [if_pos idle]
    cases state : k.state <;> simp [idle, endJob_set]
  · simp [idle]

theorem failJob_set (p : Part) (x : Fin 16) (k : Job) :
    failJob x (p.setJob x (some k)) = p.closes x { k with state := .failing } := by
  rw [failJob, modJob_held (Part.setJob_self p x (some k)), Part.setJob_setJob, closeIdle_set]

theorem open_iff {st : JobState} : st.open_ = true ↔ st = .running ∨ st = .paused ∨ st = .held := by
  cases st <;> simp [JobState.open_]

/-! ## The disc events -/

theorem jobCreated_held (held : p.job x = some j) :
    jobCreated x p = p.setJob x (some { j with started := j.started + 1, active := j.active + 1 }) :=
  modJob_held held _

theorem jobWithdrawn_held (held : p.job x = some j) :
    jobWithdrawn x p = p.closes x { j with started := j.started - 1, active := j.active - 1 } := by
  rw [jobWithdrawn, modJob_held held, closeIdle_set]

/-- The job's record once one disc more is delivered (R32). -/
def Job.delivering (j : Job) (unlabelled : Bool) : Job :=
  { j with
    active := j.active - 1, delivered := j.delivered + 1
    unlabelledDelivered := j.unlabelledDelivered + if unlabelled then 1 else 0 }

theorem jobDelivered_held (held : p.job x = some j) (unlabelled : Bool) : jobDelivered x unlabelled p =
    if (j.state = .running ∨ j.state = .paused ∨ j.state = .held) ∧ j.delivered + 1 = j.ordered then
      p.ends x (j.delivering unlabelled) .done
    else p.closes x (j.delivering unlabelled) := by
  rw [jobDelivered, modJob_held held, Part.setJob_self]
  dsimp only
  rw [endJob_set, closeIdle_set]
  simp only [Bool.and_eq_true, open_iff, beq_iff_eq]
  rfl

/-- The job's record once one disc more is rejected (R32). -/
def Job.rejecting (j : Job) (counts : Bool) : Job :=
  { j with
    active := j.active - 1, rejected := j.rejected + 1
    failures := j.failures + if counts then 1 else 0 }

theorem jobRejected_held (held : p.job x = some j) (counts : Bool) : jobRejected x counts p =
    if (j.state = .running ∨ j.state = .paused ∨ j.state = .held) ∧
        j.rejectLimit ≤ (j.rejecting counts).failures then
      p.closes x { j.rejecting counts with state := .failing }
    else p.closes x (j.rejecting counts) := by
  rw [jobRejected, modJob_held held, Part.setJob_self]
  dsimp only
  rw [failJob_set, closeIdle_set]
  simp only [Bool.and_eq_true, open_iff, decide_eq_true_eq]
  rfl

/-- Settles O33: each disc event as one write of the job's record, and the end that write causes. -/
theorem jobCounts : Obligations.JobCounts := fun _ _ _ held =>
  ⟨jobCreated_held held, jobWithdrawn_held held, jobDelivered_held held, jobRejected_held held⟩

/-! ## Hold reasons -/

/-- A job's record after a change of its hold reasons (R23, R24). -/
def Job.holding (f : Holds → Holds) (j : Job) : Job :=
  if j.state.started then { j with
    holds := f j.holds
    state := if j.state = .running ∨ j.state = .held then
        if (f j.holds).ink = true ∨ (f j.holds).source = true ∨ (f j.holds).imageNotReady = true then .held
        else .running
      else j.state }
  else j

theorem followHolds_eq (f : Holds → Holds) (j : Job) :
    (if j.state.started then Job.followHolds { j with holds := f j.holds } else j) = j.holding f := by
  unfold Job.holding
  split
  · unfold Job.followHolds
    cases state : j.state <;> simp [Holds.any, or_assoc]
  · rfl

theorem changeHolds_eq (f : Holds → Holds) (x : Fin 16) (p : Part) :
    changeHolds x f p = p.setJob x ((p.job x).map (Job.holding f)) := by
  unfold changeHolds Part.modJob
  congr 2
  funext j
  exact followHolds_eq f j

/-- A fold over jobs, each step of which rewrites the job it is at alone, rewrites each job once. -/
theorem foldl_job {step : Part → Fin 16 → Part} {change : Fin 16 → Option Job → Option Job}
    (each : ∀ p x, step p x = p.setJob x (change x (p.job x))) :
    ∀ (l : List (Fin 16)) (p : Part), l.Nodup → ∀ y,
      (l.foldl step p).job y = if y ∈ l then change y (p.job y) else p.job y := by
  intro l
  induction l with
  | nil => intro p _ y; simp
  | cons x l ih =>
    intro p distinct y
    obtain ⟨fresh, distinct⟩ := List.nodup_cons.1 distinct
    rw [List.foldl_cons, ih _ distinct, each, Part.setJob_get]
    by_cases here : y = x
    · subst here
      simp [fresh]
    · simp [here]

theorem mem_allJobs (x : Fin 16) : x ∈ allJobs := by
  revert x
  decide

theorem setJob_same {o : Option Job} (held : p.job x = o) : p.setJob x o = p := by
  subst held
  simp [Part.setJob, Part.job]

theorem changeImageHolds_job (i : Fin 32) (f : Holds → Holds) (p : Part) (x : Fin 16) :
    (changeImageHolds i f p).job x = (p.job x).map fun j => if j.image = some i then j.holding f else j := by
  unfold changeImageHolds
  rw [foldl_job (change := fun _ => Option.map fun j => if j.image = some i then j.holding f else j)
    (fun p y => ?_) allJobs p (by decide), if_pos (mem_allJobs x)]
  cases held : p.job y with
  | none => exact (setJob_same held).symm
  | some j =>
    by_cases named : j.image = some i
    · simp [named, changeHolds_eq, held]
    · simp [named, setJob_same held]

/-! ## The read-backs a READY image wakes -/

/-- The segment the read-back of bay `b` asks for when image `i` becomes READY (R142). -/
def Part.wakes (p : Part) (i : Fin 32) (b : Fin 12) : Option Nat :=
  (p.context b).bind fun c => if c.image = i ∧ c.awaitingReference = true then c.nextSelected else none

/-- One bay's part in the waking of read-backs (R142). -/
def wakeBay (i : Fin 32) (p : Part) (b : Fin 12) : Part :=
  match p.context b with
  | some c => if c.awaitingReference && c.image == i then askNext b p else p
  | none => p

theorem wakeReadBacks_eq (i : Fin 32) (p : Part) : wakeReadBacks i p = allBays.foldl (wakeBay i) p := rfl

/-- The context of a read-back whose segment `n` is being read again or for the first time (R135). -/
def Context.reading (c : Context) (n attempt : Nat) : Context :=
  { c with inHand := some { segment := n, attempt := attempt }, readOutstanding := true, awaitingReference := false }

theorem sendRead_eq (b : Fin 12) (c : Context) (n attempt : Nat) (p : Part) : sendRead b c n attempt p =
    { (p.setContext b (some (c.reading n attempt))).setBay b ((p.bay b).driven .read (p.now + p.tower.progressTimeout)) with
      sent := p.sent ++ [.drive b (.read n)] } := rfl

variable {b : Fin 12} {i : Fin 32} {c : Context} {n : Nat}

theorem wakeBay_none (asleep : p.wakes i b = none) : wakeBay i p b = p := by
  unfold wakeBay
  split
  case h_1 c held =>
    split
    case isTrue waits =>
      simp only [Bool.and_eq_true, beq_iff_eq] at waits
      have last : c.nextSelected = none := by simpa [Part.wakes, held, waits] using asleep
      simp [askNext, held, last]
    case isFalse => rfl
  case h_2 => rfl

theorem wakeBay_some (valid : p.referenceValid i = true) (held : p.context b = some c) (woken : p.wakes i b = some n) :
    wakeBay i p b = sendRead b c n 1 p := by
  simp only [Part.wakes, held, Option.bind_some] at woken
  split at woken
  case isTrue waits =>
    obtain ⟨rfl, waits⟩ := waits
    simp [wakeBay, held, waits, askNext, woken, valid]
  case isFalse => cases woken

/-- What the waking of the read-backs of the bays `l` does (R142). -/
structure Woken (i : Fin 32) (l : List (Fin 12)) (p q : Part) : Prop where
  changes : p.Changes [.contexts, .bays, .sent] q
  sent : q.sent = p.sent ++ l.filterMap fun b => (p.wakes i b).map fun n => .drive b (.read n)
  others : ∀ b ∉ l, q.context b = p.context b ∧ q.bay b = p.bay b
  asleep : ∀ b, p.wakes i b = none → q.context b = p.context b ∧ q.bay b = p.bay b
  woken : ∀ b ∈ l, ∀ n c, p.wakes i b = some n → p.context b = some c →
    q.context b = some (c.reading n 1) ∧ q.bay b = (p.bay b).driven .read (p.now + p.tower.progressTimeout)

theorem foldl_wakeBay : ∀ (l : List (Fin 12)) (p : Part), l.Nodup → p.referenceValid i = true →
    Woken i l p (l.foldl (wakeBay i) p) := by
  intro l
  induction l with
  | nil => exact fun p _ _ => ⟨.refl _ _, by simp, by simp, by simp, by simp⟩
  | cons b l ih =>
    intro p distinct valid
    obtain ⟨fresh, distinct⟩ := List.nodup_cons.1 distinct
    rw [List.foldl_cons]
    cases woken : p.wakes i b with
    | none =>
      rw [wakeBay_none woken]
      have rest := ih p distinct valid
      refine ⟨rest.changes, ?_, fun d out => rest.others d (List.not_mem_of_not_mem_cons out), rest.asleep,
        fun d mem n c segment held => ?_⟩
      · rw [rest.sent, List.filterMap_cons, woken]
        rfl
      · obtain rfl | mem := List.mem_cons.1 mem
        · rw [woken] at segment
          cases segment
        · exact rest.woken d mem n c segment held
    | some n =>
      obtain ⟨c, held, -⟩ := Option.bind_eq_some_iff.1 woken
      rw [wakeBay_some valid held woken]
      have sends := sendRead_eq b c n 1 p
      generalize sendRead b c n 1 p = u at sends
      have changes : p.Changes [.contexts, .bays, .sent] u := by
        subst sends
        intro f other
        cases f <;> first | rfl | simp at other
      have elsewhere : ∀ d, d ≠ b → u.context d = p.context d ∧ u.bay d = p.bay d := fun d other => by
        subst sends
        exact ⟨Part.setContext_other _ _ _ _ other, Part.setBay_other _ _ _ _ other⟩
      have wakes : ∀ d, d ≠ b → u.wakes i d = p.wakes i d := fun d other => by
        simp only [Part.wakes, (elsewhere d other).1]
      have here : u.context b = some (c.reading n 1) ∧
          u.bay b = (p.bay b).driven .read (p.now + p.tower.progressTimeout) := by
        subst sends
        exact ⟨Part.setContext_self _ _ _, Part.setBay_self _ _ _⟩
      have asleep : u.wakes i b = none := by simp [Part.wakes, here.1, Context.reading]
      have images : u.images = p.images := changes .images (by simp)
      have rest := ih u distinct (by simpa [Part.referenceValid, Part.image, images] using valid)
      have now : u.now = p.now := changes .now (by simp)
      have tower : u.tower = p.tower := changes .tower (by simp)
      refine ⟨changes.trans rest.changes, ?_, fun d out => ?_, fun d still => ?_, fun d mem m e segment is => ?_⟩
      · have kept : (l.filterMap fun d => (u.wakes i d).map fun n => Sent.drive d (.read n)) =
            l.filterMap fun d => (p.wakes i d).map fun n => Sent.drive d (.read n) :=
          List.filterMap_congr fun d mem => by rw [wakes d fun same => fresh (same ▸ mem)]
        rw [rest.sent, kept, List.filterMap_cons, woken]
        subst sends
        simp
      · obtain ⟨other, out⟩ := not_or.1 (List.mem_cons.not.1 out)
        rw [(rest.others d out).1, (rest.others d out).2]
        exact elsewhere d other
      · have other : d ≠ b := fun same => by
          rw [same, woken] at still
          cases still
        have still' := rest.asleep d (by rw [wakes d other, still])
        rw [still'.1, still'.2]
        exact elsewhere d other
      · by_cases at_ : d = b
        · subst at_
          rw [woken] at segment
          rw [held] at is
          cases segment
          cases is
          rw [(rest.others d fresh).1, (rest.others d fresh).2]
          exact here
        · have mem := (List.mem_cons.1 mem).resolve_left at_
          obtain ⟨context, bay⟩ := elsewhere d at_
          rw [← wakes d at_] at segment
          rw [← context] at is
          rw [← bay, ← now, ← tower]
          exact rest.woken d mem m e segment is

/-- Settles O34: hold reasons job by job, and the waking of read-backs bay by bay. -/
theorem jobHolds : Obligations.JobHolds := by
  refine ⟨fun p x f => changeHolds_eq f x p, fun p i f => ⟨_, rfl, changeImageHolds_changes, changeImageHolds_job i f p⟩,
    fun p i => ⟨rfl, fun valid => ?_⟩⟩
  intro wakes
  have woken := foldl_wakeBay (i := i) allBays p (by decide) valid
  rw [← wakeReadBacks_eq] at woken
  exact ⟨_, rfl, woken.changes, woken.sent, fun b => ⟨woken.asleep b, fun n c => woken.woken b (mem_allBays b) n c⟩⟩

end Sys2Proof.Machine
end

