-- ==== Sys2Proof/Proofs/BayRequests.lean ====
section
/-! PROOF. The requests that name a bay, and what a record's number in a request names (R64, R66, R81 to R84). -/

namespace Sys2Proof.Machine

-- One proof after another: side by side, their threads' stacks pass the check's memory limit.
set_option Elab.async false

variable {p q : Part} {s t : State} {tag bay : Byte} {b : Fin 12}

/-! ## The records a request names -/

theorem idx_of_eq {n : Nat} {k : Byte} {i : Fin n} (is : k.toNat = i.val) : idx n k = some i := by
  have bound := i.isLt
  rw [idx, dif_pos (by omega)]
  exact congrArg some (Fin.ext is)

theorem idx_of_ge {n : Nat} {k : Byte} (high : n ≤ k.toNat) : idx n k = none := dif_neg (by omega)

theorem withBay_outOfRange (high : 11 < bay.toNat) (f : Fin 12 → Bay → Part → Part × Answer) :
    withBay bay f p = turnDown .outOfRange p := by
  rw [withBay, idx_of_ge high]

theorem withBay_notFound (is : bay.toNat = b.val) (out : p.tower.installed ≤ b.val)
    (f : Fin 12 → Bay → Part → Part × Answer) : withBay bay f p = turnDown .notFound p := by
  rw [withBay, idx_of_eq is]
  exact if_neg (by simpa [Part.installed] using out)

theorem withBay_installed (is : bay.toNat = b.val) (there : b.val < p.tower.installed)
    (f : Fin 12 → Bay → Part → Part × Answer) : withBay bay f p = f b (p.bay b) p := by
  rw [withBay, idx_of_eq is]
  exact if_pos (by simpa [Part.installed] using there)

/-! ## The RESET a request sends -/

theorem paySweepReset_eq (b : Fin 12) (p : Part) : paySweepReset b p = { p with
    tower := { p.tower with sweep := p.tower.sweep.map fun w => { w with resetOwed := w.resetOwed.set b.val false } } } := by
  unfold paySweepReset
  split
  case h_1 absent =>
    rw [absent]
    show p = { p with tower := { p.tower with sweep := none } }
    rw [← absent]
  case h_2 w held => rw [held]; rfl

/-- The RESET of ENABLE BAY and CLEAR BAY FAULT, of a bay that stands as `y` (R66, R81, R83). -/
theorem serviceReset_set (b : Fin 12) (y : Bay) (p : Part) : serviceReset b (p.setBay b y) =
    { p.setBay b { (y.enter .resetting).driven .reset (p.now + 30000) with recovering := true, service := true } with
      sent := (if y.operation.isSome = true then p.sent ++ [.drive b .abort] else p.sent) ++ [.drive b .reset]
      tower := { p.tower with sweep := p.tower.sweep.map fun w => { w with
        resetOwed := w.resetOwed.set b.val false } } } := by
  rw [serviceReset, resetBay_eq, paySweepReset_eq]
  simp [Part.modBay, Part.setBay, Part.bay, Bay.resetting]

theorem serviceReset_fresh (b : Fin 12) (y : Bay) (p : Part) : serviceReset b (p.fresh.setBay b y) =
    { p.setBay b { (y.enter .resetting).driven .reset (p.now + 30000) with recovering := true, service := true } with
      sent := (if y.operation.isSome = true then [.drive b .abort] else []) ++ [.drive b .reset]
      tower := { p.tower with sweep := p.tower.sweep.map fun w => { w with
        resetOwed := w.resetOwed.set b.val false } } } := by
  rw [serviceReset_set]
  by_cases busy : y.operation.isSome = true
  · rw [if_pos busy, if_pos busy]; rfl
  · rw [if_neg busy, if_neg busy]; rfl

theorem setBay_same {y : Bay} (held : p.bay b = y) : p.setBay b y = p := by
  subst held
  simp [Part.setBay, Part.bay]

/-! ## The requests of an installed bay -/

section Installed
variable (is : bay.toNat = b.val) (there : b.val < p.tower.installed)
include is there

theorem reqEnableBay_offline (offline : (p.bay b).state = .offline) : reqEnableBay bay p =
    settled (serviceReset b (p.setBay b { p.bay b with enabled := true })) accepted := by
  rw [reqEnableBay, withBay_installed is there, if_pos offline, Part.modBay]

theorem reqEnableBay_pending (online : (p.bay b).state ≠ .offline) (pending : (p.bay b).disablePending = true) :
    reqEnableBay bay p = settled (p.setBay b { p.bay b with disablePending := false }) okay := by
  rw [reqEnableBay, withBay_installed is there, if_neg online, if_pos pending, Part.modBay]

theorem reqEnableBay_refused (online : (p.bay b).state ≠ .offline) (kept : (p.bay b).disablePending = false) :
    reqEnableBay bay p = turnDown .badState p := by
  rw [reqEnableBay, withBay_installed is there, if_neg online, if_neg (by simp [kept])]

theorem reqDisableBay_refused (offline : (p.bay b).state = .offline) : reqDisableBay bay p = turnDown .badState p := by
  rw [reqDisableBay, withBay_installed is there, if_pos offline]

theorem reqDisableBay_leaves (rests : (p.bay b).state = .open_ ∨ (p.bay b).state = .faulted ∧ p.occupant (.bay b) = none) :
    reqDisableBay bay p = settled (enterBay b .offline p) okay := by
  have online : (p.bay b).state ≠ .offline := by
    obtain state | ⟨state, -⟩ := rests <;> simp [state]
  rw [reqDisableBay, withBay_installed is there, if_neg online, if_pos rests]

theorem reqDisableBay_marked (online : (p.bay b).state ≠ .offline) (works : (p.bay b).state ≠ .open_)
    (holds : (p.bay b).state ≠ .faulted ∨ (p.occupant (.bay b)).isSome = true) :
    reqDisableBay bay p = settled (p.setBay b { p.bay b with disablePending := true }) okay := by
  rw [reqDisableBay, withBay_installed is there, if_neg online, if_neg, Part.modBay]
  rintro (state | ⟨faulted, empty⟩)
  · exact works state
  · obtain sound | occupied := holds
    · exact sound faulted
    · simp [empty] at occupied

theorem reqClearBayFault_faulted (faulted : (p.bay b).state = .faulted) :
    reqClearBayFault bay p = settled (serviceReset b (p.setBay b (p.bay b))) accepted := by
  rw [reqClearBayFault, withBay_installed is there, if_pos faulted, setBay_same rfl]

theorem reqClearBayFault_refused (sound : (p.bay b).state ≠ .faulted) : reqClearBayFault bay p = turnDown .badState p := by
  rw [reqClearBayFault, withBay_installed is there, if_neg sound]

end Installed

/-- Settles O37: the bay a number names, then each request by the bay's state. -/
theorem bayRequests : Obligations.BayRequests := by
  refine ⟨fun s tag bay taken => ?_, fun _ _ => rfl⟩
  intro ans all
  refine ⟨fun high => ⟨?_, ?_, ?_, ?_⟩, fun b is out => ⟨?_, ?_, ?_, ?_⟩, fun b is there => ?_⟩
  · rw [exec_lookUpBay]; exact takeRequest_replied taken _ _ (withBay_outOfRange high _)
  · rw [exec_enableBay]; exact takeRequest_replied taken _ _ (withBay_outOfRange high _)
  · rw [exec_disableBay]; exact takeRequest_replied taken _ _ (withBay_outOfRange high _)
  · rw [exec_clearBayFault]; exact takeRequest_replied taken _ _ (withBay_outOfRange high _)
  · rw [exec_lookUpBay]; exact takeRequest_replied taken _ _ (withBay_notFound (p := s.part.fresh) is out _)
  · rw [exec_enableBay]; exact takeRequest_replied taken _ _ (withBay_notFound (p := s.part.fresh) is out _)
  · rw [exec_disableBay]; exact takeRequest_replied taken _ _ (withBay_notFound (p := s.part.fresh) is out _)
  · rw [exec_clearBayFault]; exact takeRequest_replied taken _ _ (withBay_notFound (p := s.part.fresh) is out _)
  intro x set resets
  rw [exec_lookUpBay, exec_enableBay, exec_disableBay, exec_clearBayFault]
  refine ⟨?_, fun offline => ?_, fun online pending => ?_, fun online kept => ?_, fun offline => ?_,
    fun rests => ?_, fun online works holds => ?_, fun faulted => ?_, fun sound => ?_⟩
  · exact takeRequest_replied taken _ _ (withBay_installed (p := s.part.fresh) is there _)
  · refine takeRequest_replied taken _ _ ?_
    rw [reqEnableBay_offline (p := s.part.fresh) is there offline, serviceReset_fresh]
    rfl
  · exact takeRequest_replied taken _ _ (reqEnableBay_pending (p := s.part.fresh) is there online pending)
  · exact takeRequest_replied taken _ _ (reqEnableBay_refused (p := s.part.fresh) is there online kept)
  · exact takeRequest_replied taken _ _ (reqDisableBay_refused (p := s.part.fresh) is there offline)
  · exact takeRequest_replied taken _ _ (reqDisableBay_leaves (p := s.part.fresh) is there rests)
  · exact takeRequest_replied taken _ _ (reqDisableBay_marked (p := s.part.fresh) is there online works holds)
  · refine takeRequest_replied taken _ _ ?_
    rw [reqClearBayFault_faulted (p := s.part.fresh) is there faulted, serviceReset_fresh]
    rfl
  · exact takeRequest_replied taken _ _ (reqClearBayFault_refused (p := s.part.fresh) is there sound)

end Sys2Proof.Machine
end

