-- ==== Sys2Proof/Proofs/MediaTable.lean ====
section
/-! PROOF. The media table: matching, deciding and learning, and its four requests (R86 to R97). -/

namespace Sys2Proof.Machine

-- One proof after another: side by side, their threads' stacks pass the check's memory limit.
set_option Elab.async false

variable {p : Part} {s : State} {tag : Byte}

/-! ## Matching and deciding -/

theorem mem_allEntries (e : Fin 16) : e ∈ allEntries := by revert e; decide

theorem allEntries_ordered : allEntries.Pairwise (· < ·) := by decide

/-- The first element of an ascending list that passes a test is its least one that does. -/
theorem find?_ascending {n : Nat} {l : List (Fin n)} (ordered : l.Pairwise (· < ·)) (all : ∀ i, i ∈ l)
    (test : Fin n → Bool) (i : Fin n) :
    l.find? test = some i ↔ test i = true ∧ ∀ k, k < i → test k = false := by
  constructor
  · intro found
    obtain ⟨passes, front, rest, rfl, earlier⟩ := List.find?_eq_some_iff_append.mp found
    refine ⟨passes, fun k below => ?_⟩
    obtain mem | rfl | mem : k ∈ front ∨ k = i ∨ k ∈ rest := by simpa using all k
    · simpa using earlier k mem
    · exact absurd below (lt_irrefl _)
    · have above := (List.pairwise_cons.mp (List.pairwise_append.mp ordered).2.1).1 k mem
      exact absurd below above.not_gt
  · rintro ⟨passes, earlier⟩
    obtain ⟨front, rest, rfl⟩ := List.append_of_mem (all i)
    refine List.find?_eq_some_iff_append.mpr ⟨passes, front, rest, rfl, fun k mem => ?_⟩
    simpa using earlier k ((List.pairwise_append.mp ordered).2.2 k mem i (by simp))

/-- Entry `e` is defined and matches the media code (R87). -/
def Part.entryHits (p : Part) (maker type : Word16) (e : Fin 16) : Bool :=
  match p.entry e with
  | some x => x.hits maker type
  | none => false

theorem decidingEntry_eq (maker type : Word16) : p.decidingEntry maker type = allEntries.find? (p.entryHits maker type) := by
  rfl

theorem entryHits_iff {maker type : Word16} {e : Fin 16} :
    p.entryHits maker type e = true ↔ ∃ x, p.entry e = some x ∧ x.hits maker type = true := by
  unfold Part.entryHits
  cases p.entry e with
  | none => simp
  | some x => simp

theorem entryHits_eq_false_iff {maker type : Word16} {e : Fin 16} :
    p.entryHits maker type e = false ↔ ∀ x, p.entry e = some x → x.hits maker type = false := by
  unfold Part.entryHits
  cases p.entry e with
  | none => simp
  | some x => simp

theorem decidingEntry_eq_some_iff {maker type : Word16} {e : Fin 16} : p.decidingEntry maker type = some e ↔
    (∃ x, p.entry e = some x ∧ x.hits maker type = true) ∧
      ∀ f, f < e → ∀ x, p.entry f = some x → x.hits maker type = false := by
  rw [decidingEntry_eq, find?_ascending allEntries_ordered mem_allEntries, entryHits_iff]
  simp only [entryHits_eq_false_iff]

theorem decidingEntry_eq_none_iff {maker type : Word16} : p.decidingEntry maker type = none ↔
    ∀ f x, p.entry f = some x → x.hits maker type = false := by
  rw [decidingEntry_eq, List.find?_eq_none]
  simp [mem_allEntries, entryHits_eq_false_iff]

theorem mediaVerdict_entry {e : Fin 16} {x : MediaEntry} (held : p.entry e = some x) :
    p.mediaVerdict (some e) = x.verdict := by
  simp [Part.mediaVerdict, held]

theorem mediaCap_entry {e : Fin 16} {x : MediaEntry} (held : p.entry e = some x) : p.mediaCap (some e) = x.cap := by
  simp [Part.mediaCap, held]

/-! ## Learning -/

/-- An entry with an outcome counted and its list of outcomes set (R93, the first two steps). -/
def MediaEntry.counting (e : MediaEntry) (o : RecOutcome) (kept : List RecOutcome) : MediaEntry :=
  { e with
    burns := min 65535 (e.burns + 1)
    fails := if o = RecOutcome.fail then min 65535 (e.fails + 1) else min 65535 e.fails
    recent := kept }

/-- The last 16 of at most 17 outcomes: the first leaves when there are 17. -/
theorem lastOutcomes_eq {l : List RecOutcome} (bound : l.length ≤ 16) (o : RecOutcome) :
    (if 16 < (l ++ [o]).length then (l ++ [o]).drop 1 else l ++ [o]) = (l ++ [o]).drop (l.length + 1 - 16) := by
  rw [List.length_append, List.length_singleton]
  split
  case isTrue full => rw [show l.length + 1 - 16 = 1 by omega]
  case isFalse room => rw [show l.length + 1 - 16 = 0 by omega, List.drop_zero]

theorem allGood_iff {l : List RecOutcome} :
    (l.length == 16 && l.all (· == .good)) = true ↔ l = List.replicate 16 .good := by
  rw [List.eq_replicate_iff]
  simp

theorem learn_eq {e : MediaEntry} (bound : e.recent.length ≤ 16) (o : RecOutcome) :
    e.learn o = (
      let kept := (e.recent ++ [o]).drop (e.recent.length + 1 - 16)
      if o = .fail ∧ 3 ≤ kept.count .fail then { e.counting o [] with cap := max 1 (e.cap - 1) }
      else if kept = List.replicate 16 .good then { e.counting o [] with cap := min e.ceiling (e.cap + 1) }
      else e.counting o kept) := by
  have fails : min 65535 (e.fails + if o = .fail then 1 else 0) =
      if o = .fail then min 65535 (e.fails + 1) else min 65535 e.fails := by
    cases o <;> rfl
  simp only [MediaEntry.learn, lastOutcomes_eq bound, fails, Bool.and_eq_true, beq_iff_eq, decide_eq_true_eq,
    ← allGood_iff]
  rfl

theorem handOutcome_entry {r : Fin 24} {d : Disc} {m : DiscMedia} {e : Fin 16} (held : p.disc r = some d)
    (media : d.media = some m) (entry : m.entry = some e) (o : RecOutcome) :
    handOutcome r o p = p.setEntry e ((p.entry e).map (·.learn o)) := by
  simp [handOutcome, held, media, entry]

theorem handOutcome_none {r : Fin 24} {d : Disc} {m : DiscMedia} (held : p.disc r = some d)
    (media : d.media = some m) (entry : m.entry = none) (o : RecOutcome) : handOutcome r o p = p := by
  simp [handOutcome, held, media, entry]

theorem setEntry_same {e : Fin 16} {x : Option MediaEntry} (held : p.entry e = x) : p.setEntry e x = p := by
  subst held
  simp [Part.setEntry, Part.entry]

/-- Settles O38: the three modes of matching, the least matching entry, and the learning by its three ends. -/
theorem mediaTable : Obligations.MediaTable := by
  refine ⟨fun e maker type => ⟨fun mode => ?_, fun t mode held => ?_, fun t m mode held mask => ?_⟩,
    fun p maker type => ⟨fun e => decidingEntry_eq_some_iff, decidingEntry_eq_none_iff,
      fun e x held => ⟨mediaVerdict_entry held, mediaCap_entry held⟩, rfl, rfl⟩,
    fun e o bound => learn_eq bound o,
    fun p r d m o held media => ⟨fun e x entry defined => ?_, fun e entry undefined => ?_, fun entry => ?_⟩⟩
  · simp [MediaEntry.hits, mode]
  · simp [MediaEntry.hits, mode, held]
  · simp [MediaEntry.hits, mode, held, mask]
  · rw [handOutcome_entry held media entry, defined]; rfl
  · rw [handOutcome_entry held media entry, undefined]; exact setEntry_same undefined
  · exact handOutcome_none held media entry o

/-! ## The requests -/

theorem mediaVerdictOf_eq_none {b : Byte} (high : 1 < b.toNat) : mediaVerdictOf b = none := by
  obtain ⟨notAccept, notRefuse⟩ := ne_codes_of_two_le high
  rw [mediaVerdictOf, if_neg notAccept, if_neg notRefuse]

theorem matchModeOf_eq_none {b : Byte} (high : 2 < b.toNat) : matchModeOf b = none := by
  obtain ⟨notExact, notMaker⟩ := ne_codes_of_two_le (b := b) (by omega)
  rw [matchModeOf, if_neg notExact, if_neg notMaker, if_neg]
  rintro rfl
  exact absurd high (by decide)

theorem newEntry_eq (f : MediaFields) (m : MatchMode) (v : MediaVerdict) : newEntry f m v =
    { mode := m, maker := f.maker, type := if m = .maker then none else some f.type
      mask := if m = .masked then some f.mask else none, verdict := v
      ceiling := clamp 1 16 f.ceiling.toNat, cap := clamp 1 16 f.ceiling.toNat, recent := []
      burns := 0, fails := 0 } := by
  cases m <;> rfl

/-- A value used as it was sent is answered OK, one moved to its range CLAMPED with the value used (R179). -/
theorem okOrClamped_u8 (sent now : Nat) : okOrClamped (now != sent) [] (u8 now) =
    if now = sent then { status := .ok, body := [] } else { status := .clamped, body := [BitVec.ofNat 8 now] } := by
  by_cases same : now = sent
  · rw [if_pos same, same, okOrClamped, if_neg (by simp)]
  · rw [if_neg same, okOrClamped, if_pos (by simpa using same)]; rfl

theorem reqSetMediaEntry_stores {f : MediaFields} {m : MatchMode} {v : MediaVerdict} {e : Fin 16}
    (mode : matchModeOf f.mode = some m) (verdict : mediaVerdictOf f.verdict = some v)
    (is : f.entry.toNat = e.val) : reqSetMediaEntry f p = (p.setEntry e (some (newEntry f m v)),
      okOrClamped (clamp 1 16 f.ceiling.toNat != f.ceiling.toNat) [] (u8 (clamp 1 16 f.ceiling.toNat))) := by
  simp only [reqSetMediaEntry, mode, verdict, idx_of_eq is]
  rfl

theorem reqSetMediaEntry_refused {f : MediaFields}
    (bad : 2 < f.mode.toNat ∨ 1 < f.verdict.toNat ∨ 15 < f.entry.toNat) :
    reqSetMediaEntry f p = turnDown .outOfRange p := by
  unfold reqSetMediaEntry
  split
  case h_2 => rfl
  case h_1 m v e mode verdict entry =>
    obtain high | high | high := bad
    · rw [matchModeOf_eq_none high] at mode; cases mode
    · rw [mediaVerdictOf_eq_none high] at verdict; cases verdict
    · rw [idx_of_ge high] at entry; cases entry

theorem reqClearMediaEntry_eq {entry : Byte} {e : Fin 16} (is : entry.toNat = e.val) :
    reqClearMediaEntry entry p =
      if (p.entry e).isSome then (p.setEntry e none, okay) else turnDown .notFound p := by
  rw [reqClearMediaEntry, idx_of_eq is]

theorem reqLookUpMediaEntry_eq {entry : Byte} {e : Fin 16} (is : entry.toNat = e.val) :
    reqLookUpMediaEntry entry p = match p.entry e with
      | some x => (p, { status := .ok, body := entryBody x })
      | none => turnDown .notFound p := by
  have named : entry ≠ 0xFF := by
    rintro rfl
    exact absurd is (by have := e.isLt; simp; omega)
  rw [reqLookUpMediaEntry, if_neg named, idx_of_eq is] <;> rfl

theorem reqSetDefaultMedia_stores {verdict cap : Byte} {v : MediaVerdict} (held : mediaVerdictOf verdict = some v) :
    reqSetDefaultMedia verdict cap p = ({ p with defaultVerdict := v, defaultCap := clamp 1 16 cap.toNat },
      okOrClamped (clamp 1 16 cap.toNat != cap.toNat) [] (u8 (clamp 1 16 cap.toNat))) := by
  rw [reqSetDefaultMedia, held]

theorem reqSetDefaultMedia_refused {kind cap : Byte} (high : 1 < kind.toNat) :
    reqSetDefaultMedia kind cap p = turnDown .outOfRange p := by
  rw [reqSetDefaultMedia, mediaVerdictOf_eq_none high]

/-- Settles O39: each request by what its numbers and codes name. -/
theorem mediaRequests : Obligations.MediaRequests := by
  refine ⟨fun s tag taken => ?_, fun _ => rfl⟩
  intro ans used
  simp only [exec_setMediaEntry, exec_clearMediaEntry, exec_lookUpMediaEntry, exec_setDefaultMedia]
  refine ⟨fun f m v e mode verdict is => ?_, fun f bad => ?_, fun entry e is held => ?_,
    fun entry e is empty => ⟨?_, ?_⟩, fun verdict cap v held => ?_, fun kind cap high => ?_,
    fun entry e x is held => ?_, ?_⟩
  · refine takeRequest_replied taken _ _ ?_
    rw [reqSetMediaEntry_stores mode verdict is, newEntry_eq, okOrClamped_u8]
  · exact takeRequest_replied taken _ _ (reqSetMediaEntry_refused (p := s.part.fresh) bad)
  · refine takeRequest_replied taken _ _ ?_
    rw [reqClearMediaEntry_eq is]
    exact if_pos held
  · refine takeRequest_replied taken _ _ ?_
    rw [reqClearMediaEntry_eq is]
    exact if_neg (by simpa using empty)
  · refine takeRequest_replied taken _ _ ?_
    rw [reqLookUpMediaEntry_eq is, Part.fresh_entry, empty]
    rfl
  · refine takeRequest_replied taken _ _ ?_
    rw [reqSetDefaultMedia_stores held, okOrClamped_u8]
  · exact takeRequest_replied taken _ _ (reqSetDefaultMedia_refused (p := s.part.fresh) high)
  · refine takeRequest_replied taken _ _ ?_
    rw [reqLookUpMediaEntry_eq is, Part.fresh_entry, held]
  · exact takeRequest_replied taken _ _ rfl

end Sys2Proof.Machine
end

