-- ==== Sys2Proof/Proofs/ImageRequests.lean ====
section
/-! PROOF. The image catalogue's requests (R98 to R104, R112, R113). -/

namespace Sys2Proof.Machine

-- One proof after another: side by side, their threads' stacks pass the check's memory limit.
set_option Elab.async false

variable {p : Part} {s : State} {tag : Byte}

/-! ## REGISTER IMAGE -/

theorem classOf_eq_none {b : Byte} (high : 1 < b.toNat) : classOf b = none := by
  obtain ⟨notA, notB⟩ := ne_codes_of_two_le high
  rw [classOf, if_neg notA, if_neg notB]

theorem blockLimit_eq (c : DiscClass) : blockLimit c = if c = .a then 360000 else 2290000 := by cases c <;> rfl

theorem mem_allImages (i : Fin 32) : i ∈ allImages := by revert i; decide

theorem allImages_ordered : allImages.Pairwise (· < ·) := by decide

theorem emptyImage_eq_none (full : ∀ i, (p.image i).isSome = true) : p.emptyImage = none := by
  rw [Part.emptyImage, List.find?_eq_none]
  intro i _
  simpa [Option.isSome_iff_ne_none] using full i

theorem emptyImage_eq_some {i : Fin 32} (empty : p.image i = none)
    (lowest : ∀ k, k < i → (p.image k).isSome = true) : p.emptyImage = some i := by
  rw [Part.emptyImage, find?_ascending allImages_ordered mem_allImages]
  refine ⟨by simp [empty], fun k below => ?_⟩
  simpa [Option.isSome_iff_ne_none] using lowest k below

theorem mem_heldPages {g : Nat} : g ∈ p.heldPages ↔ ∃ i x, p.image i = some x ∧ g ∈ x.pages := by
  unfold Part.heldPages
  rw [List.mem_flatMap]
  constructor
  · rintro ⟨img, mem, inPages⟩
    cases img with
    | none => simp at inPages
    | some x =>
      obtain ⟨i, bound, is⟩ := Vector.mem_iff_getElem.mp (Vector.mem_toList_iff.mp mem)
      exact ⟨⟨i, bound⟩, x, is, inPages⟩
  · rintro ⟨i, x, held, inPages⟩
    exact ⟨some x, Vector.mem_toList_iff.mpr (held ▸ Vector.getElem_mem i.isLt), inPages⟩

theorem mem_freePages {g : Nat} : g ∈ p.freePages ↔ g < 1024 ∧ ∀ i x, p.image i = some x → g ∉ x.pages := by
  simp [Part.freePages, Config.digestPages, mem_heldPages]

section Register
variable {address blocks : Word32} {cls : Byte} {c : DiscClass}

theorem reqRegisterImage_noClass (high : 1 < cls.toNat) :
    reqRegisterImage address blocks cls p = turnDown .outOfRange p := by
  rw [reqRegisterImage, classOf_eq_none high]

theorem reqRegisterImage_outOfRange (code : classOf cls = some c)
    (bad : blocks.toNat = 0 ∨ blockLimit c < blocks.toNat ∨ 4294967296 < address.toNat + blocks.toNat) :
    reqRegisterImage address blocks cls p = turnDown .outOfRange p := by
  rw [reqRegisterImage, code]
  dsimp only
  by_cases amount : blocks = 0 ∨ blockLimit c < blocks.toNat
  · rw [if_pos amount]
  · rw [if_neg amount, if_pos]
    rw [← BitVec.toNat_inj] at amount
    change ¬ (blocks.toNat = 0 ∨ _) at amount
    omega

theorem reqRegisterImage_inRange (code : classOf cls = some c) (some' : 0 < blocks.toNat)
    (fits : blocks.toNat ≤ blockLimit c) (inside : address.toNat + blocks.toNat ≤ 4294967296) :
    reqRegisterImage address blocks cls p = match p.emptyImage with
      | none => turnDown .noRoom p
      | some i => registerIn i address.toNat blocks.toNat c p := by
  have amount : ¬ (blocks = 0 ∨ blockLimit c < blocks.toNat) := by
    rw [← BitVec.toNat_inj]
    change ¬ (blocks.toNat = 0 ∨ _)
    omega
  rw [reqRegisterImage, code]
  dsimp only
  rw [if_neg amount, if_neg (by omega)] <;> rfl

theorem pagesFor_eq (n : Nat) : pagesFor n = ((n + 255) / 256 + 63) / 64 := by
  rw [pagesFor, ceilDiv_eq (by decide), ceilDiv_eq (by decide)]

theorem registerIn_noRoom {i : Fin 32} {a n : Nat} (few : p.freePages.length < pagesFor n) :
    registerIn i a n c p = turnDown .noRoom p := if_pos few

theorem registerIn_room {i : Fin 32} {a n : Nat} (room : pagesFor n ≤ p.freePages.length) :
    registerIn i a n c p =
      (p.setImage i (some (.registered a n c (p.freePages.take (pagesFor n)))),
        { status := .ok, body := u8 i.val ++ u16 ((n + 255) / 256) ++ u8 (pagesFor n) }) := by
  rw [registerIn, if_neg (by omega)]
  simp [Image.registered, ceilDiv_eq (b := 256), List.length_take, min_eq_left room]

theorem registered_eq {a n : Nat} {pages : List Nat} : Image.registered a n c pages =
    { state := .registered, storeAddress := a, blocks := n, cls := c, chunks := (n + 31) / 32
      segments := (n + 255) / 256, pages := pages, attachCount := 0, surveyProgress := 0
      referenceValid := false, surveyChannel := none, fault := none } := by
  simp [Image.registered, ceilDiv_eq (b := 32), ceilDiv_eq (b := 256)]

end Register

/-! ## The requests that name an image -/

section Named
variable {image start : Byte} {i : Fin 32} {x : Image}

theorem withImage_outOfRange (high : 31 < image.toNat) (f : Fin 32 → Image → Part → Part × Answer) :
    withImage image f p = turnDown .outOfRange p := by
  rw [withImage, idx_of_ge high]

theorem withImage_notFound (is : image.toNat = i.val) (empty : p.image i = none)
    (f : Fin 32 → Image → Part → Part × Answer) : withImage image f p = turnDown .notFound p := by
  rw [withImage, idx_of_eq is]
  dsimp only
  rw [empty]

theorem withImage_held (is : image.toNat = i.val) (held : p.image i = some x)
    (f : Fin 32 → Image → Part → Part × Answer) : withImage image f p = f i x p := by
  rw [withImage, idx_of_eq is]
  dsimp only
  rw [held]

theorem imageInUse_iff : p.imageInUse i = true ↔
    (∃ c st, p.stream c = some st ∧ st.image = i) ∨
      ∃ b c, p.context b = some c ∧ c.image = i ∧ c.awaitingReference = false := by
  rw [Part.imageInUse, Bool.or_eq_true, List.any_eq_true, List.any_eq_true]
  refine or_congr (exists_congr fun c => ?_) (exists_congr fun b => ?_)
  · cases p.stream c <;> simp [mem_allChannels]
  · cases p.context b <;> simp [mem_allBays]

variable (is : image.toNat = i.val) (held : p.image i = some x)
include is held

theorem reqSurveyImage_asks (can : x.state.surveyable = true) (unused : p.imageInUse i = false) :
    reqSurveyImage image p = settled (askSurvey i x p) accepted := by
  rw [reqSurveyImage, withImage_held is held, can, unused]
  rfl

theorem reqSurveyImage_busy (can : x.state.surveyable = true) (used : p.imageInUse i = true) :
    reqSurveyImage image p = turnDown .busy p := by
  rw [reqSurveyImage, withImage_held is held, can, used]
  rfl

theorem reqSurveyImage_badState (cannot : x.state.surveyable = false) :
    reqSurveyImage image p = turnDown .badState p := by
  rw [reqSurveyImage, withImage_held is held, cannot]
  rfl

theorem reqRetireImage_inUse (attached : 0 < x.attachCount) : reqRetireImage image p = turnDown .inUse p := by
  rw [reqRetireImage, withImage_held is held, if_pos attached]

theorem reqRetireImage_frees (loose : x.attachCount = 0) :
    reqRetireImage image p = settled (retireImage i x p) okay := by
  rw [reqRetireImage, withImage_held is held, if_neg (by omega)]

end Named

theorem askSurvey_ready {i : Fin 32} {x : Image} (ready : x.state = .ready) : askSurvey i x p =
    changeImageHolds i (fun h => { h with imageNotReady := true })
      { p.setImage i (some { x with state := .surveyWaiting, referenceValid := false, fault := none }) with
        surveyQueue := p.surveyQueue ++ [i] } := if_pos ready

theorem askSurvey_other {i : Fin 32} {x : Image} (other : x.state ≠ .ready) : askSurvey i x p =
    { p.setImage i (some { x with state := .surveyWaiting, referenceValid := false, fault := none }) with
      surveyQueue := p.surveyQueue ++ [i] } := if_neg other

theorem retireImage_unsurveyed {i : Fin 32} {x : Image} (free : x.surveyChannel = none) : retireImage i x p =
    { p.setImage i none with surveyQueue := p.surveyQueue.filter (· != i) } := by
  rw [retireImage, free]
  rfl

theorem retireImage_surveyed {i : Fin 32} {x : Image} {c : Fin 4} (on : x.surveyChannel = some c) : retireImage i x p =
    { (p.setImage i none).setChannel c .free with
      surveyQueue := p.surveyQueue.filter (· != i), splitReqs := p.splitReqs.filter (· != c) } := by
  rw [retireImage, on]
  rfl

theorem imageBody_eq (x : Image) (start : Nat) : imageBody x start =
    u8 x.state.code ++ u32 x.storeAddress ++ u32 x.blocks ++ u8 (classCode x.cls) ++ u32 x.chunks ++
      u16 x.segments ++ u8 x.pages.length ++ u8 x.attachCount ++ u16 x.surveyProgress ++
      flagByte x.referenceValid ++ opt8 (x.surveyChannel.map fun c => c.val) ++
      (match x.fault with | some f => u8 f.origin.code ++ u32 f.chunk | none => opt8 none ++ opt32 none) ++
      (u8 (min 64 (x.pages.length - start)) ++ ((x.pages.drop start).take 64).flatMap u16) := by
  unfold imageBody listBytes
  cases x.fault <;> simp [opt8, opt32, List.append_assoc]

/-- Settles O40: registration by the free record and pages, then each request by the image it names. -/
theorem imageRequests : Obligations.ImageRequests := by
  refine ⟨fun s tag address blocks cls taken => ?_, fun s tag image start taken => ?_, imageBody_eq⟩
  · intro no limit
    rw [exec_registerImage]
    refine ⟨fun high => ?_, fun c code bad => ?_, fun c code nonzero fits inside => ?_, fun g => mem_freePages⟩
    · exact takeRequest_replied taken _ _ (reqRegisterImage_noClass (p := s.part.fresh) high)
    · rw [show limit c = blockLimit c from (blockLimit_eq c).symm] at bad
      exact takeRequest_replied taken _ _ (reqRegisterImage_outOfRange (p := s.part.fresh) code bad)
    · rw [show limit c = blockLimit c from (blockLimit_eq c).symm] at fits
      have checked := reqRegisterImage_inRange (p := s.part.fresh) code nonzero fits inside
      have pages := pagesFor_eq blocks.toNat
      refine ⟨fun full => ?_, fun i empty lowest => ⟨fun few => ?_, fun room => ?_⟩⟩
      · refine takeRequest_replied taken _ _ ?_
        rw [checked, emptyImage_eq_none (p := s.part.fresh) full]
        rfl
      · refine takeRequest_replied taken _ _ ?_
        rw [checked, emptyImage_eq_some (p := s.part.fresh) empty lowest]
        exact registerIn_noRoom (p := s.part.fresh) (pages ▸ few)
      · refine takeRequest_replied taken _ _ ?_
        rw [checked, emptyImage_eq_some (p := s.part.fresh) empty lowest]
        refine (registerIn_room (p := s.part.fresh) (pages ▸ room)).trans ?_
        rw [registered_eq, pages]
        rfl
  · intro ans all
    simp only [all, exec_surveyImage, exec_lookUpImage, exec_retireImage]
    refine ⟨fun high => ⟨?_, ?_, ?_⟩, fun i is empty => ⟨?_, ?_, ?_⟩, fun i x is held => ?_, fun i => imageInUse_iff⟩
    · exact takeRequest_replied taken _ _ (withImage_outOfRange high _)
    · exact takeRequest_replied taken _ _ (withImage_outOfRange high _)
    · exact takeRequest_replied taken _ _ (withImage_outOfRange high _)
    · exact takeRequest_replied taken _ _ (withImage_notFound (p := s.part.fresh) is empty _)
    · exact takeRequest_replied taken _ _ (withImage_notFound (p := s.part.fresh) is empty _)
    · exact takeRequest_replied taken _ _ (withImage_notFound (p := s.part.fresh) is empty _)
    refine ⟨fun state unused => ?_, fun ready unused => ?_, fun state used => ?_, fun state => ?_,
      fun attached => ?_, fun loose free => ?_, fun c loose on => ?_, ?_⟩
    · have can : x.state.surveyable = true := by obtain is | is := state <;> rw [is] <;> rfl
      have other : x.state ≠ .ready := by obtain is | is := state <;> rw [is] <;> decide
      refine takeRequest_replied taken _ _ ?_
      rw [reqSurveyImage_asks (p := s.part.fresh) is held can unused, askSurvey_other other]
      rfl
    · refine takeRequest_replied taken _ _ ?_
      rw [reqSurveyImage_asks (p := s.part.fresh) is held (by rw [ready]; rfl) unused, askSurvey_ready ready]
      rfl
    · have can : x.state.surveyable = true := by obtain is | is | is := state <;> rw [is] <;> rfl
      exact takeRequest_replied taken _ _ (reqSurveyImage_busy (p := s.part.fresh) is held can used)
    · have cannot : x.state.surveyable = false := by obtain is | is := state <;> rw [is] <;> rfl
      exact takeRequest_replied taken _ _ (reqSurveyImage_badState (p := s.part.fresh) is held cannot)
    · exact takeRequest_replied taken _ _ (reqRetireImage_inUse (p := s.part.fresh) is held attached)
    · refine takeRequest_replied taken _ _ ?_
      rw [reqRetireImage_frees (p := s.part.fresh) is held loose, retireImage_unsurveyed free]
      rfl
    · refine takeRequest_replied taken _ _ ?_
      rw [reqRetireImage_frees (p := s.part.fresh) is held loose, retireImage_surveyed on]
      rfl
    · exact takeRequest_replied taken _ _ (withImage_held (p := s.part.fresh) is held _)

end Sys2Proof.Machine
end

