-- ==== Sys2Proof/Proofs/LabelUnitRequests.lean ====
section
/-! PROOF. The label unit's requests: templates, cartridges, ink channels and their lookups (R147, R161, R162). -/

namespace Sys2Proof.Machine

-- One proof after another: side by side, their threads' stacks pass the check's memory limit.
set_option Elab.async false

variable {p : Part} {s : State} {tag : Byte}

/-! ## Numbers moved to their ranges, as they are shown -/

theorem clamp_eq_self_iff {lo hi n : Nat} : clamp lo hi n = n ↔ lo ≤ n ∧ n ≤ hi := by
  unfold clamp
  split
  · omega
  · split <;> omega

theorem clamp_zero (hi n : Nat) : clamp 0 hi n = min hi n := by
  unfold clamp
  split
  · omega
  · split <;> omega

theorem clampInt_eq {lo hi : Int} (range : lo ≤ hi) (n : Int) : clampInt lo hi n = max lo (min hi n) := by
  unfold clampInt
  split
  · omega
  · split <;> omega

theorem u8_append_inj {n m : Nat} {a b : List Byte} (n_fits : n < 256) (m_fits : m < 256) :
    u8 n ++ a = u8 m ++ b ↔ n = m ∧ a = b := by
  constructor
  · intro same
    obtain ⟨num, rest⟩ := List.append_inj same rfl
    have read := congrArg unle num
    rw [u8, u8, unle_le (by simpa using n_fits), unle_le (by simpa using m_fits)] at read
    exact ⟨read, rest⟩
  · rintro ⟨rfl, rfl⟩; rfl

theorem u16_append_inj {n m : Nat} {a b : List Byte} (n_fits : n < 65536) (m_fits : m < 65536) :
    u16 n ++ a = u16 m ++ b ↔ n = m ∧ a = b := by
  constructor
  · intro same
    obtain ⟨num, rest⟩ := List.append_inj same rfl
    have read := congrArg unle num
    rw [u16, u16, unle_le (by simpa using n_fits), unle_le (by simpa using m_fits)] at read
    exact ⟨read, rest⟩
  · rintro ⟨rfl, rfl⟩; rfl

theorem u16_inj {n m : Nat} (n_fits : n < 65536) (m_fits : m < 65536) : u16 n = u16 m ↔ n = m := by
  simpa using u16_append_inj (a := []) (b := []) n_fits m_fits

theorem okOrClamped_false (okBody usedBody : List Byte) :
    okOrClamped false okBody usedBody = { status := .ok, body := okBody } := rfl

theorem okOrClamped_true (okBody usedBody : List Byte) :
    okOrClamped true okBody usedBody = { status := .clamped, body := usedBody } := rfl

/-! ## Templates -/

/-- Every number of a DEFINE TEMPLATE is in its range (R147). -/
def templateInRange (f : TemplateFields) : Prop :=
  15 ≤ f.inner.toNat ∧ f.inner.toNat ≤ 50 ∧ 60 ≤ f.outer.toNat ∧ f.outer.toNat ≤ 120 ∧
    f.covK.toNat ≤ 1000 ∧ f.covC.toNat ≤ 1000 ∧ f.covM.toNat ≤ 1000 ∧ f.covY.toNat ≤ 1000

theorem newTemplate_eq (f : TemplateFields) (q : Quality) : newTemplate f q =
    { inner := clamp 15 50 f.inner.toNat, outer := clamp 60 120 f.outer.toNat, quality := q
      coverage := #v[min 1000 f.covK.toNat, min 1000 f.covC.toNat, min 1000 f.covM.toNat,
        min 1000 f.covY.toNat], users := 0 } := by
  simp only [newTemplate, clamp_zero]

theorem quality_code_lt (q : Quality) : q.code < 256 := by cases q <;> decide

/-- The template's fields show as they came exactly when they were in range (R147, R179). -/
theorem templateValues_eq_carried_iff (f : TemplateFields) (q : Quality) :
    templateValues (newTemplate f q) = carriedTemplate f q ↔ templateInRange f := by
  have inner_used : clamp 15 50 f.inner.toNat ≤ 50 := clamp_le (by decide)
  have outer_used : clamp 60 120 f.outer.toNat ≤ 120 := clamp_le (by decide)
  have inner := f.inner.isLt
  have outer := f.outer.isLt
  have covK := f.covK.isLt
  have covC := f.covC.isLt
  have covM := f.covM.isLt
  have covY := f.covY.isLt
  have code := quality_code_lt q
  rw [newTemplate_eq]
  simp only [templateValues, carriedTemplate, List.append_assoc]
  rw [u8_append_inj (by omega) inner, u8_append_inj (by omega) outer, u8_append_inj code code,
    u16_append_inj (by simp) covK, u16_append_inj (by simp) covC,
    u16_append_inj (by simp) covM, u16_inj (by simp) covY,
    clamp_eq_self_iff, clamp_eq_self_iff]
  simp [templateInRange, and_assoc]

theorem qualityOf_eq_none {b : Byte} (high : 2 < b.toNat) : qualityOf b = none := by
  obtain ⟨notDraft, notNormal⟩ := ne_codes_of_two_le (b := b) (by omega)
  rw [qualityOf, if_neg notDraft, if_neg notNormal, if_neg]
  rintro rfl
  exact absurd high (by decide)

section Define
variable {f : TemplateFields} {t : Fin 8} {q : Quality}

theorem reqDefineTemplate_inUse (is : f.template.toNat = t.val) (code : qualityOf f.quality = some q)
    {x : Template} (held : p.template t = some x) (used : 0 < x.users) :
    reqDefineTemplate f p = turnDown .inUse p := by
  simp [reqDefineTemplate, code, idx_of_eq is, held, used]

theorem reqDefineTemplate_stores (is : f.template.toNat = t.val) (code : qualityOf f.quality = some q)
    (unused : ∀ x, p.template t = some x → x.users = 0) : reqDefineTemplate f p =
      (p.setTemplate t (some (newTemplate f q)), okOrClamped
        (templateValues (newTemplate f q) != carriedTemplate f q) [] (templateValues (newTemplate f q))) := by
  simp only [reqDefineTemplate, code, idx_of_eq is]
  cases held : p.template t with
  | none => rfl
  | some x => simp [unused x held]

theorem reqDefineTemplate_refused (bad : 7 < f.template.toNat ∨ 2 < f.quality.toNat) :
    reqDefineTemplate f p = turnDown .outOfRange p := by
  unfold reqDefineTemplate
  split
  case h_2 => rfl
  case h_1 q t code named =>
    obtain high | high := bad
    · rw [idx_of_ge high] at named; cases named
    · rw [qualityOf_eq_none high] at code; cases code

end Define

theorem reqLookUpTemplate_held {n : Byte} {t : Fin 8} {x : Template} (is : n.toNat = t.val)
    (held : p.template t = some x) : reqLookUpTemplate n p = (p, {
      status := .ok
      body := templateValues x ++ u32 x.users ++ u16 x.area ++ u32 (p.need x 0) ++ u32 (p.need x 1) ++
        u32 (p.need x 2) ++ u32 (p.need x 3) ++ u16 (p.forecast x) }) := by
  simp [reqLookUpTemplate, idx_of_eq is, held, inkBytes, Part.needs]

theorem reqLookUpTemplate_notFound {n : Byte} {t : Fin 8} (is : n.toNat = t.val)
    (empty : p.template t = none) : reqLookUpTemplate n p = turnDown .notFound p := by
  simp only [reqLookUpTemplate, idx_of_eq is, empty]

theorem reqLookUpTemplate_outOfRange {n : Byte} (high : 7 < n.toNat) :
    reqLookUpTemplate n p = turnDown .outOfRange p := by
  rw [reqLookUpTemplate, idx_of_ge high]

/-! ## Cartridges and ink channels -/

/-- Channel `k` set, with INK_LOW raised when it became low (R148). -/
def Part.putInk (p : Part) (k : Fin 4) (x : InkChannel) : Part := { p.setInk k x with
  attn := if x.level < x.floor ∧ (p.inkChannel k).floor ≤ (p.inkChannel k).level then
    p.attn.raise .inkLow p.now else p.attn }

theorem raiseInkLow_setInk (k : Fin 4) (x : InkChannel) : raiseInkLow p (p.setInk k x) = p.putInk k x := by
  have low : (allInks.any fun i => ((p.setInk k x).inkChannel i).low && !(p.inkChannel i).low) =
      decide (x.level < x.floor ∧ (p.inkChannel k).floor ≤ (p.inkChannel k).level) := by
    rw [Bool.eq_iff_iff, List.any_eq_true, decide_eq_true_eq]
    constructor
    · rintro ⟨i, -, became⟩
      by_cases at_k : k = i
      · subst at_k
        simpa [InkChannel.low] using became
      · rw [Part.setInk_other _ _ _ _ (Ne.symm at_k)] at became
        simp at became
    · rintro ⟨isLow, wasNot⟩
      exact ⟨k, mem_allInks k, by simpa [InkChannel.low] using ⟨isLow, wasNot⟩⟩
  rw [raiseInkLow, low, raiseIf_eq]
  simp [Part.putInk]

theorem reqCartridgeInstalled_outOfRange {channel : Byte} {level : Word32} (high : 3 < channel.toNat) :
    reqCartridgeInstalled channel level p = turnDown .outOfRange p := by
  rw [reqCartridgeInstalled, idx_of_ge high]

theorem reqCartridgeInstalled_busy {channel : Byte} {level : Word32} {k : Fin 4} (is : channel.toNat = k.val)
    (printing : p.station.state = .printing) : reqCartridgeInstalled channel level p = turnDown .busy p := by
  simp only [reqCartridgeInstalled, idx_of_eq is, printing, if_true]

theorem reqCartridgeInstalled_sets {channel : Byte} {level : Word32} {k : Fin 4} (is : channel.toNat = k.val)
    (rests : p.station.state ≠ .printing) : reqCartridgeInstalled channel level p =
      settled (retryPass (p.putInk k { p.inkChannel k with level := min 60000000 level.toNat }))
        (okOrClamped (min 60000000 level.toNat != level.toNat) [] (u32 (min 60000000 level.toNat))) := by
  simp only [reqCartridgeInstalled, idx_of_eq is, if_neg rests, raiseInkLow_setInk]

/-- An ink channel with the carried numbers, each moved to the nearest limit of its range (R161). -/
def InkChannel.carrying (x : InkChannel) (floor : Option Word32) (drop trim : Option Byte) : InkChannel := { x with
  floor := (match floor with | some w => min 2000000 w.toNat | none => x.floor)
  dropVolume := stored 2 20 drop x.dropVolume
  trim := (match trim with | some b => max (-31) (min 31 b.toInt) | none => x.trim) }

/-- Every carried number of a SET INK CHANNEL is in its range (R161). -/
def inkInRange (floor : Option Word32) (drop trim : Option Byte) : Prop :=
  (∀ w ∈ floor, w.toNat ≤ 2000000) ∧ (∀ b ∈ drop, 2 ≤ b.toNat ∧ b.toNat ≤ 20) ∧
    (∀ b ∈ trim, -31 ≤ b.toInt ∧ b.toInt ≤ 31)

/-- Some value used by a SET INK CHANNEL is not the carried one (R179). -/
def inkMoved (floor : Option Word32) (drop trim : Option Byte) : Bool :=
  floor.map (fun w => min 2000000 w.toNat) != floor.map (·.toNat) || clampByte 2 20 drop != drop.map (·.toNat) ||
    trim.map (fun b => clampInt (-31) 31 (trimOf b)) != trim.map trimOf

theorem map_eq_map_iff {α β : Type} {f g : α → β} {o : Option α} :
    o.map f = o.map g ↔ ∀ a ∈ o, f a = g a := by
  cases o <;> simp

theorem inkMoved_iff (floor : Option Word32) (drop trim : Option Byte) :
    inkMoved floor drop trim = false ↔ inkInRange floor drop trim := by
  simp only [inkMoved, inkInRange, Bool.or_eq_false_iff, bne_eq_false_iff_eq, clampByte, map_eq_map_iff,
    and_assoc, clamp_eq_self_iff, clampInt_eq (show (-31 : Int) ≤ 31 by decide)]
  refine and_congr (forall₂_congr fun w _ => by omega) (and_congr Iff.rfl (forall₂_congr fun b _ => ?_))
  show max (-31) (min 31 b.toInt) = b.toInt ↔ _
  omega

theorem reqSetInkChannel_outOfRange {channel : Byte} {floor : Option Word32} {drop trim : Option Byte}
    (high : 3 < channel.toNat) : reqSetInkChannel channel floor drop trim p = turnDown .outOfRange p := by
  rw [reqSetInkChannel, idx_of_ge high]

theorem carrying_eq (x : InkChannel) (floor : Option Word32) (drop trim : Option Byte) : x.carrying floor drop trim =
    { x with
      floor := (floor.map fun w => min 2000000 w.toNat).getD x.floor
      dropVolume := (clampByte 2 20 drop).getD x.dropVolume
      trim := (trim.map fun b => clampInt (-31) 31 (trimOf b)).getD x.trim } := by
  simp only [clampInt_eq (show (-31 : Int) ≤ 31 by decide)]
  cases floor <;> cases drop <;> cases trim <;> rfl

theorem reqSetInkChannel_sets {channel : Byte} {k : Fin 4} {floor : Option Word32} {drop trim : Option Byte}
    (is : channel.toNat = k.val) {y : InkChannel} (y_is : y = (p.inkChannel k).carrying floor drop trim) :
    reqSetInkChannel channel floor drop trim p = settled
      (if y.floor = (p.inkChannel k).floor ∧ y.trim = (p.inkChannel k).trim then p.putInk k y
        else retryPass (p.putInk k y))
      (okOrClamped (inkMoved floor drop trim) [] (inkUsedBody (floor.map fun w => min 2000000 w.toNat)
        (drop.map fun b => clamp 2 20 b.toNat) (trim.map fun b => max (-31) (min 31 b.toInt)))) := by
  have body : (trim.map fun b => max (-31) (min 31 b.toInt)) = trim.map fun b => clampInt (-31) 31 (trimOf b) := by
    simp only [clampInt_eq (show (-31 : Int) ≤ 31 by decide)]
    rfl
  rw [body, y_is, carrying_eq]
  simp only [reqSetInkChannel, idx_of_eq is, raiseInkLow_setInk]
  congr 1
  rw [← ite_not]
  congr 1
  simp

/-! ## LOOK UP INK -/

theorem inkStationBody_eq (p : Part) : p.inkStationBody = (
    let one := fun c : InkChannel =>
      u32 c.level ++ u32 c.floor ++ u32 c.reserved ++ u8 c.dropVolume ++ [BitVec.ofInt 8 c.trim] ++
        flagByte (decide (c.level < c.floor)) ++ flagByte (decide (c.level = 0))
    one (p.inkChannel 0) ++ one (p.inkChannel 1) ++ one (p.inkChannel 2) ++ one (p.inkChannel 3) ++
      u8 p.station.state.code ++ opt8 ((p.occupant .printer).map fun r => r.val) ++
      u8 p.station.headTemperature ++ [if p.station.gateOpen then 0x00 else 0x01] ++
      opt8 (p.station.faultCause.map fun f => f.code) ++
      (u8 p.inkWait.length ++ p.inkWait.flatMap fun r => u8 r.val) ++
      (u8 p.printQueue.length ++ p.printQueue.flatMap fun r => u8 r.val)) := by
  have gate : u8 (if p.station.gateOpen = true then 0 else 1) = [if p.station.gateOpen = true then 0x00 else 0x01] := by
    cases p.station.gateOpen <;> rfl
  unfold Part.inkStationBody listBytes
  rw [gate]
  rfl

theorem reqLookUpInk_ok {n job : Byte} {more : List Byte} (addition : p.inkAddition n job = (.ok, more)) :
    reqLookUpInk n job p = (p, { status := .ok, body := p.inkStationBody ++ more }) := by
  rw [reqLookUpInk, addition]

theorem reqLookUpInk_refused {n job : Byte} {st : Status} (refusal : st ≠ .ok)
    (addition : p.inkAddition n job = (st, [])) : reqLookUpInk n job p = turnDown st p := by
  rw [reqLookUpInk, addition]
  split
  case h_1 ok => exact absurd (congrArg Prod.fst ok) refusal
  case h_2 same => rw [show st = _ from congrArg Prod.fst same]

theorem ne_ff_of_lt {n : Byte} (low : n.toNat < 255) : n ≠ 0xFF := by
  rintro rfl
  exact absurd low (by decide)

theorem inkAddition_template {n job : Byte} (named : n ≠ 0xFF) : p.inkAddition n job =
    (match idx 8 n with
      | none => (.outOfRange, [])
      | some t => match p.template t with
        | none => (.notFound, [])
        | some x => (.ok, p.needsBody x)) := by
  rw [Part.inkAddition, if_pos named] <;> rfl

theorem inkAddition_job {n : Byte} (named : n ≠ 0xFF) : p.inkAddition 0xFF n =
    (match jobIdx n with
      | none => (.outOfRange, [])
      | some x => match p.job x with
        | none => (.notFound, [])
        | some j => match j.template.bind p.template with
          | none => (.badState, [])
          | some t => (.ok, p.needsBody t ++ u16 (j.ordered - j.delivered))) := by
  rw [Part.inkAddition, if_neg (by simp), if_pos named] <;> rfl

theorem jobIdx_eq_none {n : Byte} (bad : n = 0 ∨ 16 < n.toNat) : jobIdx n = none := by
  rw [Option.eq_none_iff_forall_ne_some]
  intro x named
  have is := jobIdx_eq_some_iff.mp named
  obtain rfl | high := bad
  · exact absurd is (by simp)
  · have := x.isLt
    omega

theorem needsBody_eq (x : Template) : p.needsBody x =
    u32 (p.need x 0) ++ u32 (p.need x 1) ++ u32 (p.need x 2) ++ u32 (p.need x 3) ++ u16 (p.forecast x) := by
  simp [Part.needsBody, inkBytes, Part.needs]


section Addition
variable {n job : Byte} {t : Fin 8} {x : Fin 16} {j : Job} {y : Template}

theorem inkAddition_template_outOfRange (named : n ≠ 0xFF) (high : 7 < n.toNat) :
    p.inkAddition n job = (.outOfRange, []) := by
  rw [inkAddition_template named, idx_of_ge high]

theorem inkAddition_template_notFound (is : n.toNat = t.val) (empty : p.template t = none) :
    p.inkAddition n job = (.notFound, []) := by
  rw [inkAddition_template (ne_ff_of_lt (by have := t.isLt; omega)), idx_of_eq is]
  simp only [empty]

theorem inkAddition_template_held (is : n.toNat = t.val) (held : p.template t = some y) :
    p.inkAddition n job = (.ok, p.needsBody y) := by
  rw [inkAddition_template (ne_ff_of_lt (by have := t.isLt; omega)), idx_of_eq is]
  simp only [held]

theorem inkAddition_job_outOfRange (named : n ≠ 0xFF) (bad : n = 0 ∨ 16 < n.toNat) :
    p.inkAddition 0xFF n = (.outOfRange, []) := by
  rw [inkAddition_job named, jobIdx_eq_none bad]

theorem inkAddition_job_notFound (is : n.toNat = x.val + 1) (free : p.job x = none) :
    p.inkAddition 0xFF n = (.notFound, []) := by
  rw [inkAddition_job (ne_ff_of_lt (by have := x.isLt; omega)), jobIdx_eq_some_iff.mpr is]
  simp only [free]

theorem inkAddition_job_badState (is : n.toNat = x.val + 1) (held : p.job x = some j) (unlabelled : j.template = none) :
    p.inkAddition 0xFF n = (.badState, []) := by
  rw [inkAddition_job (ne_ff_of_lt (by have := x.isLt; omega)), jobIdx_eq_some_iff.mpr is]
  simp only [held, unlabelled, Option.bind_none]

theorem inkAddition_job_held (is : n.toNat = x.val + 1) (held : p.job x = some j) (uses : j.template = some t)
    (defined : p.template t = some y) :
    p.inkAddition 0xFF n = (.ok, p.needsBody y ++ u16 (j.ordered - j.delivered)) := by
  rw [inkAddition_job (ne_ff_of_lt (by have := x.isLt; omega)), jobIdx_eq_some_iff.mpr is]
  simp only [held, uses, Option.bind_some, defined]

end Addition

/-- Settles O43: the templates' requests, then each channel's, then the lookup by what it names. -/
theorem labelUnitRequests : Obligations.LabelUnitRequests := by
  refine ⟨fun s tag taken => ?_, fun s tag taken => ?_, inkStationBody_eq, fun _ _ _ => rfl⟩
  · intro ans no
    simp only [exec_defineTemplate, exec_lookUpTemplate]
    refine ⟨fun f t q is code => ⟨?_, fun unused within => ?_, fun unused outside => ?_⟩, fun f bad => ?_, fun n high => ?_,
      fun n t is => ⟨fun empty => ?_, fun x held => ?_⟩⟩
    · rintro ⟨y, held, used⟩
      exact takeRequest_replied taken _ _ (reqDefineTemplate_inUse (p := s.part.fresh) is code held used)
    · refine takeRequest_replied taken _ _ ?_
      rw [reqDefineTemplate_stores (p := s.part.fresh) is code unused,
        (templateValues_eq_carried_iff f q).mpr within, bne_self_eq_false, okOrClamped_false, newTemplate_eq]
    · refine takeRequest_replied taken _ _ ?_
      rw [reqDefineTemplate_stores (p := s.part.fresh) is code unused,
        bne_iff_ne.mpr fun same => outside ((templateValues_eq_carried_iff f q).mp same), okOrClamped_true,
        newTemplate_eq]
    · exact takeRequest_replied taken _ _ (reqDefineTemplate_refused (p := s.part.fresh) bad)
    · exact takeRequest_replied taken _ _ (reqLookUpTemplate_outOfRange (p := s.part.fresh) high)
    · exact takeRequest_replied taken _ _ (reqLookUpTemplate_notFound (p := s.part.fresh) is empty)
    · exact takeRequest_replied taken _ _ (reqLookUpTemplate_held (p := s.part.fresh) is held)
  · intro ans no needs put
    rw [show put = s.part.fresh.putInk from rfl]
    have found : ∀ {n job : Byte} {more : List Byte}, s.part.fresh.inkAddition n job = (.ok, more) →
        exec (.lookUpInk tag n job) s =
          ans 0x74 { status := .ok, body := s.part.inkStationBody ++ more } s.part.fresh :=
      fun addition => (exec_lookUpInk ..).trans <| takeRequest_replied taken _ _ (reqLookUpInk_ok addition)
    have refused : ∀ {n job : Byte} {st : Status}, st ≠ .ok → s.part.fresh.inkAddition n job = (st, []) →
        exec (.lookUpInk tag n job) s = ans 0x74 (no st) s.part.fresh :=
      fun refusal addition => (exec_lookUpInk ..).trans <| takeRequest_replied taken _ _ (reqLookUpInk_refused refusal addition)
    refine ⟨fun channel level floor drop trim high => ⟨?_, ?_⟩,
      fun channel k level is => ⟨fun printing => ?_, fun rests fits => ?_, fun rests high => ?_⟩,
      fun channel k floor drop trim is => ?_, ?_, fun n job named high => ?_,
      fun n t job is => ⟨fun empty => ?_, fun x held => ?_⟩, fun n named bad => ?_,
      fun n x is => ⟨fun free => ?_, fun j held none => ?_, fun j t y held uses defined => ?_⟩⟩
    · rw [exec_cartridgeInstalled]
      exact takeRequest_replied taken _ _ (reqCartridgeInstalled_outOfRange (p := s.part.fresh) high)
    · rw [exec_setInkChannel]
      exact takeRequest_replied taken _ _ (reqSetInkChannel_outOfRange (p := s.part.fresh) high)
    · rw [exec_cartridgeInstalled]
      exact takeRequest_replied taken _ _ (reqCartridgeInstalled_busy (p := s.part.fresh) is printing)
    · rw [exec_cartridgeInstalled]
      refine takeRequest_replied taken _ _ ?_
      rw [reqCartridgeInstalled_sets (p := s.part.fresh) is rests, min_eq_right fits, bne_self_eq_false,
        okOrClamped_false]
      rfl
    · rw [exec_cartridgeInstalled]
      refine takeRequest_replied taken _ _ ?_
      rw [reqCartridgeInstalled_sets (p := s.part.fresh) is rests, min_eq_left high.le, bne_iff_ne.mpr high.ne,
        okOrClamped_true]
      rfl
    · intro x y inRange
      have y_is : y = (s.part.fresh.inkChannel k).carrying floor drop trim := rfl
      clear_value y
      rw [exec_setInkChannel]
      refine ⟨_, takeRequest_replied taken _ _ (reqSetInkChannel_sets is y_is), fun within => ?_, fun outside => ?_⟩
      · rw [(inkMoved_iff floor drop trim).mpr within, okOrClamped_false]
      · rw [Bool.eq_true_of_not_eq_false (mt (inkMoved_iff floor drop trim).mp outside), okOrClamped_true]
        exact ⟨rfl, rfl⟩
    · exact (found (more := []) rfl).trans (by rw [List.append_nil])
    · exact refused (by decide) (inkAddition_template_outOfRange named high)
    · exact refused (by decide) (inkAddition_template_notFound (p := s.part.fresh) is empty)
    · rw [show needs x = s.part.fresh.needsBody x from (needsBody_eq x).symm]
      exact found (inkAddition_template_held (p := s.part.fresh) is held)
    · exact refused (by decide) (inkAddition_job_outOfRange named bad)
    · exact refused (by decide) (inkAddition_job_notFound (p := s.part.fresh) is free)
    · exact refused (by decide) (inkAddition_job_badState (p := s.part.fresh) is held none)
    · rw [show needs y = s.part.fresh.needsBody y from (needsBody_eq y).symm]
      exact found (inkAddition_job_held (p := s.part.fresh) is held uses defined)

end Sys2Proof.Machine
end

