-- ==== Sys2Proof/Proofs/Lookups.lean ====
section
/-! PROOF. IDENTIFY, the lookups and the lists, and the form of their reply bodies (R16, R17, R30, R179, R183,
R184). -/

namespace Sys2Proof.Machine

-- One proof after another: side by side, their threads' stacks pass the check's memory limit.
set_option Elab.async false

variable {p : Part} {s : State} {tag : Byte}

/-! ## The disc a request names -/

section Named
variable {disc : Byte} {r : Fin 24} {d : Disc}

theorem withDisc_outOfRange (high : 23 < disc.toNat) (f : Fin 24 → Disc → Part → Part × Answer) :
    withDisc disc f p = turnDown .outOfRange p := by
  rw [withDisc, idx_of_ge high]

theorem withDisc_notFound (is : disc.toNat = r.val) (free : p.disc r = none)
    (f : Fin 24 → Disc → Part → Part × Answer) : withDisc disc f p = turnDown .notFound p := by
  simp only [withDisc, idx_of_eq is, free]

theorem withDisc_held (is : disc.toNat = r.val) (held : p.disc r = some d)
    (f : Fin 24 → Disc → Part → Part × Answer) : withDisc disc f p = f r d p := by
  simp only [withDisc, idx_of_eq is, held]

end Named

/-! ## Reply bodies -/

theorem identifyBody_eq (t : Tower) : identifyBody t = [0x12, 0x0C, 1, 12, 4, 24, 16, 32, 0x00, 0x04, 16, 8,
    BitVec.ofNat 8 t.state.code, match t.resume with | some r => BitVec.ofNat 8 r.code | none => 0xFF] := by
  unfold identifyBody
  cases t.resume <;> rfl

theorem jobSummary_eq (x : Fin 16) (j : Job) : jobSummary x j =
    u8 (x.val + 1) ++ u8 j.state.code ++ u8 j.kind.code ++ u8 j.priority ++ u8 j.holds.code ++
      (if j.kind = .print then opt8 (j.template.map fun t => t.val) else opt8 (j.image.map fun i => i.val)) ++
      u16 j.ordered ++ u8 j.active ++ u32 j.delivered ++ u32 j.rejected ++ u32 j.failures ++
      u32 j.hostRef.toNat := by
  unfold jobSummary jobNumber
  cases j.kind <;> rfl

theorem mediaBody_some (m : DiscMedia) : mediaBody (some m) =
    u16 m.maker.toNat ++ u16 m.type.toNat ++ u8 (classCode m.cls) ++ u32 m.capacity ++
      opt8 (m.entry.map fun e => e.val) := rfl

theorem mediaBody_none : mediaBody none = [0xFF, 0xFF, 0xFF, 0xFF, 0xFF, 0xFF, 0xFF, 0xFF, 0xFF, 0xFF] := rfl

theorem verifyBody_some (v : VerifyCounts) : verifyBody (some v) =
    u32 v.checked ++ u32 v.recovered ++ u32 v.mismatched ++ opt16 v.firstMismatch := rfl

theorem verifyBody_none : verifyBody none = opt32 none ++ opt32 none ++ opt32 none ++ opt16 none := rfl

theorem discBody_eq (r : Fin 24) (d : Disc) : discBody r d =
    u8 r.val ++ u8 d.stage.code ++ u8 d.verdict.code ++ opt8 (d.reason.map fun w => w.code) ++ jobByte d.job ++
      opt8 (d.place.map fun pl => pl.code) ++
      (match d.media with
        | some m => u16 m.maker.toNat ++ u16 m.type.toNat ++ u8 (classCode m.cls) ++ u32 m.capacity ++
            opt8 (m.entry.map fun e => e.val)
        | none => [0xFF, 0xFF, 0xFF, 0xFF, 0xFF, 0xFF, 0xFF, 0xFF, 0xFF, 0xFF]) ++
      opt8 (d.bay.map fun b => b.val) ++ opt8 d.speed ++ opt8 (d.channel.map fun c => c.val) ++
      u32 d.blocksWritten ++
      (match d.verify with
        | some v => u32 v.checked ++ u32 v.recovered ++ u32 v.mismatched ++ opt16 v.firstMismatch
        | none => opt32 none ++ opt32 none ++ opt32 none ++ opt16 none) ++
      (match d.reservation with
        | some v => u32 v[0] ++ u32 v[1] ++ u32 v[2] ++ u32 v[3]
        | none => opt32 none ++ opt32 none ++ opt32 none ++ opt32 none) ++
      opt32 d.serial ++ flagByte d.unlabelled := by
  unfold discBody
  congr 3
  · congr 1
    · congr 6
      cases d.media with
      | none => exact mediaBody_none
      | some m => exact mediaBody_some m
    · cases d.verify with
      | none => exact verifyBody_none
      | some v => exact verifyBody_some v

/-- The bits of a disc summary, in the order of R184. -/
theorem summaryBits_eq (unlabelled reserved verified identified : Bool) :
    (if unlabelled = true then 1 else 0) + (if reserved = true then 2 else 0) + (if verified = true then 4 else 0) +
      (if identified = true then 8 else 0) =
    unlabelled.toNat + 2 * reserved.toNat + 4 * verified.toNat + 8 * identified.toNat := by
  cases unlabelled <;> cases reserved <;> cases verified <;> cases identified <;> rfl

theorem discSummary_eq (r : Fin 24) (d : Disc) : discSummary r d =
    u8 r.val ++ u8 d.stage.code ++ u8 d.verdict.code ++
      (match d.reason with | some w => u8 w.code | none => [0]) ++ jobByte d.job ++
      opt8 (d.place.map fun pl => pl.code) ++ opt8 (d.bay.map fun b => b.val) ++
      u8 (d.unlabelled.toNat + 2 * d.reservation.isSome.toNat + 4 * d.verify.isSome.toNat +
        8 * d.media.isSome.toNat) ++
      u32 d.blocksWritten ++ opt32 d.serial := by
  unfold discSummary
  rw [summaryBits_eq]
  cases d.reason <;> rfl

theorem placeBody_empty {pl : Place} (empty : p.occupant pl = none) : p.placeBody pl = [0xFF, 0xFF, 0xFF, 0x00] := by
  rw [Part.placeBody, empty]
  rfl

theorem placeBody_occupied {pl : Place} {r : Fin 24} {d : Disc} (there : p.occupant pl = some r)
    (held : p.disc r = some d) : p.placeBody pl = u8 r.val ++ u8 d.stage.code ++ u8 d.verdict.code ++ jobByte d.job := by
  simp [Part.placeBody, there, held, opt8]

theorem holds_code_eq (a b c : Bool) : ({ ink := a, source := b, imageNotReady := c } : Holds).code =
    a.toNat + 2 * b.toNat + 4 * c.toNat := by
  cases a <;> cases b <;> cases c <;> rfl

/-! ## Lists -/

/-- The body of a LIST reply by the count of the records found (R17, R30, R184). -/
theorem listBody_eq (free : Nat) (found : List (Nat × List Byte)) : listBody free found =
    u8 (min 8 found.length) ++ u8 free ++
      (if found.length ≤ 8 then [0xFF] else u8 ((found[7]?.map (·.1)).getD 0)) ++ (found.take 8).flatMap (·.2) := by
  have next : opt8 (if found.length ≤ 8 then none else (found.take 8).getLast?.map (·.1)) =
      if found.length ≤ 8 then [0xFF] else u8 ((found[7]?.map (·.1)).getD 0) := by
    by_cases short : found.length ≤ 8
    · rw [if_pos short, if_pos short]
      rfl
    · have long : 7 < found.length := by omega
      rw [if_neg short, if_neg short, List.getLast?_take, if_neg (by decide), List.getElem?_eq_getElem long]
      rfl
  show u8 (found.take 8).length ++ u8 free ++ _ ++ _ = _
  rw [next, List.length_take]

/-- A list's records from an index on, filtered first (R17, R30). -/
theorem filterMap_from {n : Nat} (start : Fin n) (l : List (Fin n)) {α : Type} (entry : Fin n → Option α) :
    (l.filterMap fun y => if start.val ≤ y.val then entry y else none) =
      (l.filter fun y => decide (start.val ≤ y.val)).filterMap entry := by
  rw [List.filterMap_filter]
  simp only [decide_eq_true_eq]

theorem reqListJobs_eq {n : Byte} {x : Fin 16} (is : n.toNat = x.val + 1) : reqListJobs n p =
    (p, { status := .ok
          body := listBody (p.jobs.toList.countP (·.isNone))
            ((allJobs.filter fun y => decide (x.val ≤ y.val)).filterMap fun y =>
              (p.job y).map fun j => (y.val + 2, jobSummary y j)) }) := by
  rw [reqListJobs, jobIdx_eq_some_iff.mpr is]
  dsimp only
  rw [filterMap_from x allJobs]
  rfl

/-- A byte of the stage filter names a set of stages (R17, R184). -/
theorem stageFilter_eq {filter : Byte} {keep : Stage → Bool}
    (names : filter = 0xFF ∧ keep = (fun _ => true) ∨ filter = 0x10 ∧ keep = (·.active) ∨
      filter = 0x11 ∧ keep = (fun st => !st.active) ∨
      1 ≤ filter.toNat ∧ filter.toNat ≤ 15 ∧ keep = (fun st => decide (st.code = filter.toNat))) :
    stageFilter filter = some keep := by
  obtain ⟨rfl, rfl⟩ | ⟨rfl, rfl⟩ | ⟨rfl, rfl⟩ | ⟨low, high, rfl⟩ := names
  · rfl
  · rfl
  · rfl
  · have notAll : filter ≠ 0xFF := by rintro rfl; exact absurd high (by decide)
    have notActive : filter ≠ 0x10 := by rintro rfl; exact absurd high (by decide)
    have notFinal : filter ≠ 0x11 := by rintro rfl; exact absurd high (by decide)
    rw [stageFilter, if_neg notAll, if_neg notActive, if_neg notFinal, if_pos ⟨low, high⟩]
    rfl

theorem stageFilter_eq_none {filter : Byte} (bad : filter = 0 ∨ 0x11 < filter.toNat ∧ filter ≠ 0xFF) :
    stageFilter filter = none := by
  obtain rfl | ⟨high, notAll⟩ := bad
  · rfl
  · have notActive : filter ≠ 0x10 := by rintro rfl; exact absurd high (by decide)
    have notFinal : filter ≠ 0x11 := by rintro rfl; exact absurd high (by decide)
    rw [stageFilter, if_neg notAll, if_neg notActive, if_neg notFinal, if_neg (by omega)]

/-- The summary of record `y`, when it is held and its stage is kept (R17). -/
theorem kept_eq (keep : Stage → Bool) (y : Fin 24) :
    (match p.disc y with
      | some d => if keep d.stage then some (y.val + 1, discSummary y d) else none
      | none => none) =
    (p.disc y).bind fun d => if keep d.stage then some (y.val + 1, discSummary y d) else none := by
  cases p.disc y <;> rfl

theorem reqListDiscs_eq {n filter : Byte} {r : Fin 24} {keep : Stage → Bool} (is : n.toNat = r.val)
    (names : stageFilter filter = some keep) : reqListDiscs n filter p =
      (p, { status := .ok
            body := listBody p.freeCount
              ((allDiscs.filter fun y => decide (r.val ≤ y.val)).filterMap fun y =>
                (p.disc y).bind fun d => if keep d.stage then some (y.val + 1, discSummary y d) else none) }) := by
  rw [← filterMap_from r allDiscs]
  simp only [reqListDiscs, names, idx_of_eq is, ← kept_eq] <;> rfl

theorem reqListDiscs_refused {n filter : Byte} (bad : 23 < n.toNat ∨ stageFilter filter = none) :
    reqListDiscs n filter p = turnDown .outOfRange p := by
  unfold reqListDiscs
  split
  case h_2 => rfl
  case h_1 keep r names named =>
    obtain high | none := bad
    · rw [idx_of_ge high] at named; cases named
    · rw [none] at names; cases names

/-! ## LOOK UP PLACE -/

theorem placeNameOf_bay {n : Byte} {b : Fin 12} (is : n.toNat = b.val) : placeNameOf n = some (.place (.bay b)) := by
  have low : n.toNat < 12 := by have := b.isLt; omega
  rw [placeNameOf, dif_pos low]
  exact congrArg (fun i => some (PlaceName.place (.bay i))) (Fin.ext is)

theorem placeNameOf_eq_none {n : Byte} (high : 0x11 < n.toNat) : placeNameOf n = none := by
  have other : ∀ k : Byte, k.toNat ≤ 0x11 → n ≠ k := by
    rintro k low rfl
    omega
  rw [placeNameOf, dif_neg (by omega), if_neg (other _ (by decide)), if_neg (other _ (by decide)),
    if_neg (other _ (by decide)), if_neg (other _ (by decide)), if_neg (other _ (by decide)),
    if_neg (other _ (by decide))]

theorem reqLookUpPlace_bay {n : Byte} {b : Fin 12} (is : n.toNat = b.val) : reqLookUpPlace n p =
    if b.val < p.tower.installed then (p, { status := .ok, body := p.placeBody (.bay b) })
    else turnDown .notFound p := by
  rw [reqLookUpPlace, placeNameOf_bay is]
  simp [Part.installed]

theorem reqLookUpPlace_outOfRange {n : Byte} (high : 0x11 < n.toNat) :
    reqLookUpPlace n p = turnDown .outOfRange p := by
  rw [reqLookUpPlace, placeNameOf_eq_none high]

/-- Settles O44: each lookup's answer, then the bodies field by field, then the codes. -/
theorem lookups : Obligations.Lookups := by
  refine ⟨fun s tag taken => ?_, fun s tag taken => ?_,
    ⟨fun _ => rfl, jobSummary_eq, discBody_eq, discSummary_eq, fun p pl => ⟨placeBody_empty, fun r d => placeBody_occupied⟩⟩,
    fun n => ⟨rfl, rfl, ?_, rfl, rfl, rfl⟩, rfl, rfl, rfl, rfl, rfl, rfl, fun _ => rfl, fun _ => ⟨rfl, rfl⟩, rfl,
    fun _ _ => ⟨rfl, rfl⟩, fun _ _ _ => rfl, rfl, rfl, rfl, rfl, fun _ => rfl, rfl, rfl, rfl, rfl, rfl, rfl, rfl, holds_code_eq,
    rfl, rfl, rfl, rfl, rfl, rfl, rfl, rfl, rfl, rfl, rfl, rfl, rfl, rfl⟩
  · rw [exec_identify]
    refine takeRequest_replied taken _ _ ?_
    rw [reqIdentify, identifyBody_eq]
    rfl
  · intro ans no page
    refine ⟨fun n x j is held => ?_, fun n x is => ?_, fun n r d is held => ?_, fun n filter r keep is names => ?_,
      fun n filter bad => ?_, fun n b is => ?_, ?_, ?_, ?_, ?_, ?_, ?_, fun n high => ?_⟩
    · rw [exec_lookUpJob]
      exact takeRequest_replied taken _ _ (withJob_held (p := s.part.fresh) is held _)
    · rw [exec_listJobs]
      refine takeRequest_replied taken _ _ ?_
      rw [reqListJobs_eq is, listBody_eq]
      rfl
    · rw [exec_lookUpDisc]
      exact takeRequest_replied taken _ _ (withDisc_held (p := s.part.fresh) is held _)
    · rw [exec_listDiscs]
      refine takeRequest_replied taken _ _ ?_
      rw [reqListDiscs_eq is (stageFilter_eq names), listBody_eq]
      rfl
    · rw [exec_listDiscs]
      exact takeRequest_replied taken _ _ (reqListDiscs_refused (bad.imp_right stageFilter_eq_none))
    · rw [exec_lookUpPlace]
      split
      case isTrue there =>
        exact takeRequest_replied taken _ _ ((reqLookUpPlace_bay (p := s.part.fresh) is).trans (if_pos there))
      case isFalse out =>
        exact takeRequest_replied taken _ _ ((reqLookUpPlace_bay (p := s.part.fresh) is).trans (if_neg out))
    all_goals rw [exec_lookUpPlace]
    · exact takeRequest_replied taken _ _ rfl
    · exact takeRequest_replied taken _ _ rfl
    · exact takeRequest_replied taken _ _ rfl
    · exact takeRequest_replied taken _ _ rfl
    · exact takeRequest_replied taken _ _ rfl
    · exact takeRequest_replied taken _ _ rfl
    · exact takeRequest_replied taken _ _ (reqLookUpPlace_outOfRange high)
  · rw [u32, le, le, le, le, le, Nat.div_div_eq_div_mul, Nat.div_div_eq_div_mul]

end Sys2Proof.Machine
end

