-- ==== Sys2Proof/Proofs/EvaluationsFrame.lean ====
section
/-! PROOF. What the evaluations at the end of an event leave alone, and a part at rest (log 15). -/

namespace Sys2Proof.Machine

-- One proof after another: side by side, their threads' stacks pass the check's memory limit.
set_option Elab.async false

variable {p q u : Part} {b : Fin 12} {c : Fin 4} {r : Fin 24}

/-! ## What the evaluations change -/

theorem settle_changes : p.Changes [.attn, .discs, .heldSpell, .jobs, .offered, .places, .arm, .bays, .images,
    .surveyQueue, .channels, .streamReqs, .splitReqs, .readCount, .station, .ink, .shortSet, .tower, .sent]
    (settle p) :=
  (((((settleTower_changes.andThen settleStreams_changes).andThen labelOrder_changes).andThen
    trayRules_changes).andThen settleArm_changes).andThen forecastAll_changes).widen rfl

/-! ## The tower's settings -/

/-- The tower is the same but for its state, its resume state and its sweep. -/
def Tower.SameSettings (t t' : Tower) : Prop :=
  t' = { t with state := t'.state, resume := t'.resume, sweep := t'.sweep }

theorem Tower.SameSettings.refl (t : Tower) : t.SameSettings t := rfl

theorem Tower.SameSettings.trans {t t' t'' : Tower} (h : t.SameSettings t') (h' : t'.SameSettings t'') :
    t.SameSettings t'' := by
  unfold Tower.SameSettings at h h'
  rw [h', h]
  rfl

theorem sweepFollow_settings : p.tower.SameSettings (sweepFollow b p).tower := by
  rcases owed : p.tower.sweep with _ | w
  · rw [sweepFollow_absent owed]
    exact .refl _
  · unfold sweepFollow
    rw [owed]
    dsimp only
    split
    · split
      · rw [clearBayMark_eq]
        rfl
      · rw [resetBay_eq, paySweepReset_eq]
        rfl
    · exact .refl _

theorem settleTower_settings : p.tower.SameSettings (settleTower p).tower := by
  unfold settleTower
  extract_lets q
  have swept : p.tower.SameSettings q.tower := by
    suffices ∀ (l : List (Fin 12)) (p : Part),
        p.tower.SameSettings (l.foldl (fun p b => sweepFollow b p) p).tower from this _ p
    intro l
    induction l with
    | nil => exact fun p => .refl p.tower
    | cons b l ih => exact fun p => sweepFollow_settings.trans (ih _)
  clear_value q
  refine swept.trans ?_
  split
  · split
    · split
      · rfl
      · exact .refl _
    · rfl
  · split
    · rfl
    · exact .refl _
  · exact .refl _

theorem settle_settings : p.tower.SameSettings (settle p).tower := by
  have later : (settleTower p).Changes _ (settle p) :=
    (((settleStreams_changes.andThen labelOrder_changes).andThen trayRules_changes).andThen
      settleArm_changes).andThen forecastAll_changes
  rw [show (settle p).tower = (settleTower p).tower from later .tower (by decide)]
  exact settleTower_settings

/-! ## The gate's limits -/

theorem labelOrder_limits : (labelOrder p).station.warning = p.station.warning ∧
    (labelOrder p).station.critical = p.station.critical := by
  unfold labelOrder
  repeat' split
  all_goals exact ⟨rfl, rfl⟩

theorem settle_limits : (settle p).station.warning = p.station.warning ∧
    (settle p).station.critical = p.station.critical := by
  have earlier : p.Changes _ (settleStreams (settleTower p)) := settleTower_changes.andThen settleStreams_changes
  have later : (labelOrder (settleStreams (settleTower p))).Changes _ (settle p) :=
    (trayRules_changes.andThen settleArm_changes).andThen forecastAll_changes
  have same : (settleStreams (settleTower p)).station = p.station := earlier .station (by decide)
  rw [show (settle p).station = (labelOrder _).station from later .station (by decide), ← same]
  exact labelOrder_limits

/-! ## The bays' class support, the ink and the arm's numbers -/

/-- Every bay supports the classes it did, an ink channel differs at most in what is reserved, and the arm tells
the same operations from those before the last device reset (log 10). -/
structure Part.SameSetup (p q : Part) : Prop where
  supportA : ∀ b, (q.bay b).supportA = (p.bay b).supportA
  supportB : ∀ b, (q.bay b).supportB = (p.bay b).supportB
  ink : ∀ k, q.inkChannel k = { p.inkChannel k with reserved := (q.inkChannel k).reserved }
  liveFrom : q.arm.liveFrom = p.arm.liveFrom

theorem Part.SameSetup.refl (p : Part) : p.SameSetup p := ⟨fun _ => rfl, fun _ => rfl, fun _ => rfl, rfl⟩

theorem Part.SameSetup.trans (h : p.SameSetup q) (h' : q.SameSetup u) : p.SameSetup u where
  supportA b := (h'.supportA b).trans (h.supportA b)
  supportB b := (h'.supportB b).trans (h.supportB b)
  ink k := by rw [h'.ink k, h.ink k]
  liveFrom := h'.liveFrom.trans h.liveFrom

/-- The composition taken from its last operation on, as the operations' definitions are written. -/
theorem Part.SameSetup.after (h' : q.SameSetup u) (h : p.SameSetup q) : p.SameSetup u := h.trans h'

theorem Part.SameSetup.fold {α : Type} {op : Part → α → Part} (each : ∀ (q : Part) (a : α), q.SameSetup (op q a))
    (l : List α) (p : Part) : p.SameSetup (l.foldl op p) := by
  induction l generalizing p with
  | nil => exact .refl p
  | cons a l ih => exact (each p a).trans (ih _)

/-- A change of other fields. -/
theorem Part.Changes.setup {fs : List Field} (h : p.Changes fs q)
    (free : Field.bays ∉ fs ∧ Field.ink ∉ fs ∧ Field.arm ∉ fs := by decide) : p.SameSetup q := by
  have bays : q.bays = p.bays := h .bays free.1
  have ink : q.ink = p.ink := h .ink free.2.1
  have arm : q.arm = p.arm := h .arm free.2.2
  exact ⟨fun b => by simp only [Part.bay, bays], fun b => by simp only [Part.bay, bays],
    fun k => by simp only [Part.inkChannel, ink], by rw [arm]⟩

theorem setBay_setup {x : Bay} (a : x.supportA = (p.bay b).supportA) (b' : x.supportB = (p.bay b).supportB) :
    p.SameSetup (p.setBay b x) where
  supportA k := by
    rw [Part.setBay_get]
    split
    case isTrue same => rw [same, a]
    case isFalse => rfl
  supportB k := by
    rw [Part.setBay_get]
    split
    case isTrue same => rw [same, b']
    case isFalse => rfl
  ink _ := rfl
  liveFrom := rfl

theorem modBay_setup {f : Bay → Bay} (a : ∀ x, (f x).supportA = x.supportA) (b' : ∀ x, (f x).supportB = x.supportB) :
    p.SameSetup (p.modBay b f) := setBay_setup (a _) (b' _)

theorem enterBay_setup {st : BayState} : p.SameSetup (enterBay b st p) := setBay_setup rfl rfl

theorem sendDrive_setup {op : DriveOp} {o : DriveOrder} {n : Nat} : p.SameSetup (sendDrive b op o n p) :=
  .after emit_changes.setup (setBay_setup rfl rfl)

theorem arm_setup {a : Arm} (same : a.liveFrom = p.arm.liveFrom) : p.SameSetup { p with arm := a } :=
  ⟨fun _ => rfl, fun _ => rfl, fun _ => rfl, same⟩

theorem sendArm_setup {o : ArmOrder} : p.SameSetup (sendArm o p) := .after emit_changes.setup (arm_setup rfl)

theorem enterArm_setup {st : ArmState} : p.SameSetup (enterArm st p) := arm_setup rfl

theorem setInk_setup {k : Fin 4} {n : Nat} : p.SameSetup (p.setInk k { p.inkChannel k with reserved := n }) where
  supportA _ := rfl
  supportB _ := rfl
  liveFrom := rfl
  ink i := by
    rw [Part.setInk_get]
    split
    case isTrue same => rw [same]
    case isFalse => rfl

theorem reserve_setup {v : Vector Nat 4} : p.SameSetup (reserve r v p) :=
  .after modDisc_changes.setup (.fold (fun _ _ => setInk_setup) _ _)

theorem sweepFollow_setup : p.SameSetup (sweepFollow b p) := by
  unfold sweepFollow
  split
  · exact .refl p
  · split
    · split
      · rw [clearBayMark_eq]
        exact ⟨fun _ => rfl, fun _ => rfl, fun _ => rfl, rfl⟩
      · rw [resetBay_eq]
        exact .trans (q := p.setBay b ((p.bay b).resetting p.now)) (setBay_setup rfl rfl)
          (.after paySweepReset_changes.setup ⟨fun _ => rfl, fun _ => rfl, fun _ => rfl, rfl⟩)
    · exact .refl p

theorem settleTower_setup : p.SameSetup (settleTower p) := by
  unfold settleTower
  extract_lets q
  have swept : p.SameSetup q := .fold (fun _ _ => sweepFollow_setup) _ _
  clear_value q
  refine swept.trans ?_
  repeat' split
  all_goals exact ⟨fun _ => rfl, fun _ => rfl, fun _ => rfl, rfl⟩

theorem pumpStreams_setup : p.SameSetup (pumpStreams p) := by
  refine .fold (fun q c => .after testSplit_changes.setup <| .after fetchNext_changes.setup <|
    .after moveTail_changes.setup ?_) _ _
  unfold sendChunks
  split
  · exact .refl q
  · refine .after setChannel_changes.setup (.fold (fun u m => ?_) _ _)
    exact .after emit_changes.setup (modBay_setup (fun _ => rfl) fun _ => rfl)

theorem bayJoined_setup {n : Nat} : p.SameSetup (bayJoined b c n p) := by
  unfold bayJoined
  split
  · exact .refl p
  · exact .after (setBay_setup rfl rfl) <| .after enterBay_setup <| .after sendDrive_setup modDisc_changes.setup

theorem grantStream_setup {y : StreamReq} : p.SameSetup (grantStream y c p) := by
  unfold grantStream
  split
  · exact .refl p
  · exact .after (.fold (fun _ _ => bayJoined_setup) _ _) (.after setChannel_changes.setup streamReqs_changes.setup)

theorem grantSplit_setup {old : Fin 4} : p.SameSetup (grantSplit old c p) := by
  unfold grantSplit
  extract_lets q
  have withdrawn : p.SameSetup q := splitReqs_changes.setup
  clear_value q
  refine withdrawn.trans ?_
  split
  · exact .refl q
  · split
    · exact .refl q
    · extract_lets q₁ q₂ q₃ q₄
      have moved : q.SameSetup q₃ :=
        .after (setBay_setup rfl rfl) (.after setChannel_changes.setup setChannel_changes.setup)
      clear_value q₃
      refine .after closeIfEmpty_changes.setup (moved.trans ?_)
      unfold q₄
      split
      · exact modDisc_changes.setup
      · exact .refl q₃

theorem grantChannel_setup (h : grantChannel p = some q) : p.SameSetup q := by
  unfold grantChannel at h
  split at h
  · exact Option.some.inj h ▸ grantSplit_setup
  · exact Option.some.inj h ▸ grantStream_setup
  · split at h
    · exact Option.some.inj h ▸ grantSurvey_changes.setup
    · cases h

theorem settleStreams_setup : p.SameSetup (settleStreams p) := by
  refine .after pumpStreams_setup (.fold (fun q _ => ?_) _ _)
  unfold grantRound
  split
  case h_1 granted => exact pumpStreams_setup.trans (grantChannel_setup granted)
  case h_2 => exact pumpStreams_setup

theorem trayRules_setup : p.SameSetup (trayRules p) := by
  refine .fold (fun q b => ?_) _ _
  unfold trayRule
  split
  · exact .refl q
  · split
    · split
      · exact .after enterBay_setup sendDrive_setup
      · exact .refl q
    · exact orderIfDue_changes.setup
    · exact .refl q

theorem grantMove_setup {d : Dest} : p.SameSetup (grantMove r d p) := by
  unfold grantMove
  split
  · exact .refl p
  · extract_lets fromArm m _ q₁ q₂
    have begun : p.SameSetup q₁ := ⟨fun _ => rfl, fun _ => rfl, fun _ => rfl, rfl⟩
    clear_value q₁
    refine .after sendArm_setup (.after enterArm_setup (begun.trans ?_))
    split
    · exact clearOrder_changes.setup
    · exact .refl q₁

theorem issuePick_setup {k : Pick} {t : Option Template} : p.SameSetup (issuePick k r t p) := by
  unfold issuePick
  extract_lets d q₁ q₂ q₃ mv
  have created : p.SameSetup q₂ := .after stampPick_changes.setup <| .after jobCreated_changes.setup <|
    .after setOccupant_changes.setup setDisc_changes.setup
  clear_value q₂
  have reserved : q₂.SameSetup q₃ := by
    unfold q₃
    split
    · exact enterBay_setup
    · exact reserve_setup
    · exact .refl q₂
  clear_value q₃
  exact (created.trans reserved).trans (.after sendArm_setup (.after enterArm_setup (arm_setup rfl)))

theorem grantPick_setup {k : Pick} : p.SameSetup (grantPick k p) := by
  unfold grantPick
  extract_lets q t admitted
  have offered : p.SameSetup q := offered_changes.setup
  clear_value t admitted q
  refine offered.trans ?_
  split
  · split
    · split
      · exact issuePick_setup
      · exact beginSpell_changes.setup
    · exact beginSpell_changes.setup
  · exact .refl q

theorem grantArm_setup : p.SameSetup (grantArm p) := by
  unfold grantArm
  split
  · split
    · exact grantMove_setup
    · split
      · split
        · exact grantPick_setup
        · exact .refl p
      · exact .refl p
  · exact .refl p

theorem settle_setup : p.SameSetup (settle p) :=
  .after forecastAll_changes.setup <| .after grantArm_setup <| .after selectPick_changes.setup <|
    .after checkOffer_changes.setup <| .after trayRules_setup <| .after labelOrder_changes.setup <|
    .after settleStreams_setup settleTower_setup

/-! ## A part at rest -/

theorem foldl_rests {α : Type} {op : Part → α → Part} (rests : ∀ a, op p a = p) (l : List α) : l.foldl op p = p := by
  induction l with
  | nil => rfl
  | cons a l ih => rw [List.foldl_cons, rests, ih]

theorem settleTower_rests (stopped : p.tower.state = .stopped) (unswept : p.tower.sweep = none) :
    settleTower p = p := by
  have followed : allBays.foldl (fun p b => sweepFollow b p) p = p := foldl_rests (fun b => sweepFollow_absent unswept) _
  rw [settleTower, followed]
  dsimp only
  rw [stopped]

theorem stream_free (free : p.channel c = .free) : p.stream c = none := by
  rw [Part.stream, free]

theorem pumpStreams_rests (free : ∀ c, p.channel c = .free) : pumpStreams p = p := by
  refine foldl_rests (fun c => ?_) _
  have closed := stream_free (free c)
  have sent : sendChunks c p = p := by rw [sendChunks, closed]
  have tail : moveTail c p = p := by rw [moveTail, closed]
  have fetched : fetchNext c p = p := by rw [fetchNext, closed]
  rw [pumpStream, sent, tail, fetched, testSplit, closed]

theorem settleStreams_rests (free : ∀ c, p.channel c = .free) (streams : p.streamReqs = []) (splits : p.splitReqs = [])
    (surveys : p.surveyQueue = []) : settleStreams p = p := by
  have nothing : grantChannel p = none := by
    simp [grantChannel, splits, surveys, Part.bestRequest, streams]
  have pumped : pumpStreams p = p := pumpStreams_rests free
  have round : grantRound p = p := by
    unfold grantRound
    simp only [pumped, nothing]
  have rounds : allChannels.foldl (fun q _ => grantRound q) p = p :=
    foldl_rests (op := fun q _ => grantRound q) (fun _ => round) _
  rw [settleStreams, rounds, pumped]

theorem labelOrder_rests (stopped : p.tower.state = .stopped) : labelOrder p = p := by
  simp [labelOrder, Part.labelPossible, stopped, TowerState.working]

theorem trayRules_rests (stopped : p.tower.state = .stopped) (closed : ∀ b, (p.bay b).state ≠ .presenting) :
    trayRules p = p := by
  refine foldl_rests (fun b => ?_) _
  unfold trayRule
  split
  · rfl
  · split
    case h_1 => simp [stopped, TowerState.working]
    case h_2 open' => exact absurd open' (closed b)
    case h_3 => rfl

theorem settleArm_rests (stopped : p.tower.state = .stopped) (offered : p.offered = none) : settleArm p = p := by
  have checked : checkOffer p = p := by rw [checkOffer, offered]
  have selected : selectPick p = p := by simp [selectPick, Part.mayPick, stopped]
  rw [settleArm, checked, selected]
  simp [grantArm, stopped]

theorem forecastAll_rests (idle : ∀ x j, p.job x = some j → j.state ≠ .running) : forecastAll p = p := by
  refine foldl_rests (fun x => ?_) _
  unfold forecastJob
  split
  · rfl
  case h_2 j held =>
    split
    · rfl
    · exact if_neg (idle x j held)

/-- Settles O60: the evaluations' fields, then their configuration piece by piece, then each of them at rest. -/
theorem evaluationsFrame : Obligations.EvaluationsFrame := by
  refine ⟨fun p => ⟨rfl, rfl, rfl, settle_changes, settle_settings, settle_limits.1, settle_limits.2,
    fun b => ⟨settle_setup.supportA b, settle_setup.supportB b⟩, settle_setup.ink, settle_setup.liveFrom⟩, ?_⟩
  intro p stopped unswept free streams splits surveys offered idle closed
  rw [settle, settleTower_rests stopped unswept, settleStreams_rests free streams splits surveys,
    labelOrder_rests stopped, trayRules_rests stopped closed, settleArm_rests stopped offered, forecastAll_rests idle]

end Sys2Proof.Machine
end

