-- ==== Sys2Proof/Proofs/LabelRelease.lean ====
section
/-! PROOF. What a release of a record's ink, and its leaving of the label unit's lists, read and write: the jobs, the
ink, the two lists and the other records only, so that they act alike on records that differ elsewhere (R148, R152). -/

namespace Sys2Proof.Machine

-- One proof after another: side by side, their threads' stacks pass the check's memory limit.
set_option Elab.async false

variable {p q u : Part} {r k : Fin 24} {x : Fin 16}

/-! ## Records alike for the label unit -/

/-- `q` holds what `p` does for the label unit: the jobs, the ink, the lists, the templates, every record but `r`,
and of `r` its job and its reservation. -/
structure Part.Alike (r : Fin 24) (p q : Part) : Prop where
  jobs : q.jobs = p.jobs
  ink : q.ink = p.ink
  inkWait : q.inkWait = p.inkWait
  printQueue : q.printQueue = p.printQueue
  templates : q.templates = p.templates
  others : OthersKept p.disc q.disc r
  held : (q.disc r).isSome = (p.disc r).isSome
  job : (q.disc r).bind (·.job) = (p.disc r).bind (·.job)
  reservation : (q.disc r).bind (·.reservation) = (p.disc r).bind (·.reservation)

theorem Part.Alike.refl (r : Fin 24) (p : Part) : p.Alike r p := ⟨rfl, rfl, rfl, rfl, rfl, fun _ _ => rfl, rfl, rfl, rfl⟩

theorem Part.Alike.trans (h : p.Alike r q) (h' : q.Alike r u) : p.Alike r u where
  jobs := h'.jobs.trans h.jobs
  ink := h'.ink.trans h.ink
  inkWait := h'.inkWait.trans h.inkWait
  printQueue := h'.printQueue.trans h.printQueue
  templates := h'.templates.trans h.templates
  others k other := (h'.others k other).trans (h.others k other)
  held := h'.held.trans h.held
  job := h'.job.trans h.job
  reservation := h'.reservation.trans h.reservation

/-- A change of fields the label unit does not read. -/
theorem Part.Changes.alike {fs : List Field} (h : p.Changes fs q) (r : Fin 24)
    (free : [Field.jobs, .ink, .inkWait, .printQueue, .templates, .discs].all (· ∉ fs) = true := by rfl) :
    p.Alike r q := by
  simp only [List.all_cons, List.all_nil, Bool.and_true, Bool.and_eq_true, decide_eq_true_eq] at free
  obtain ⟨jobs, ink, inkWait, printQueue, templates, discs⟩ := free
  have same : q.discs = p.discs := h .discs discs
  have disc : q.disc = p.disc := funext fun k => by simp only [Part.disc, same]
  exact ⟨h .jobs jobs, h .ink ink, h .inkWait inkWait, h .printQueue printQueue, h .templates templates,
    fun _ _ => by rw [disc], by rw [disc], by rw [disc], by rw [disc]⟩

/-- A write of record `r` that keeps its job and its reservation. -/
theorem setDisc_alike {o : Option Disc} (held : o.isSome = (p.disc r).isSome) (job : o.bind (·.job) = (p.disc r).bind (·.job))
    (reservation : o.bind (·.reservation) = (p.disc r).bind (·.reservation)) : p.Alike r (p.setDisc r o) :=
  ⟨rfl, rfl, rfl, rfl, rfl, fun _ other => Part.setDisc_other _ _ _ _ other, by rw [Part.setDisc_self, held],
    by rw [Part.setDisc_self, job],
    by rw [Part.setDisc_self, reservation]⟩

theorem modDisc_alike {f : Disc → Disc} (job : ∀ d, (f d).job = d.job) (reservation : ∀ d, (f d).reservation = d.reservation) :
    p.Alike r (p.modDisc r f) := by
  refine setDisc_alike ?_ ?_ ?_ <;> cases p.disc r <;> simp [job, reservation]

theorem writeReject_alike {why : Reason} : p.Alike r (writeReject r why p) := by
  unfold writeReject
  split
  · exact .refl r p
  case h_2 d held =>
    split
    · split
      · exact setDisc_alike (by simp [held]) (by simp [held]) (by simp [held])
      · exact .refl r p
    · exact .trans (setDisc_alike (by simp [held]) (by simp [held]) (by simp [held])) (raise_changes.alike r)

section
variable (alike : p.Alike r q)
include alike

theorem Part.Alike.jobNamed (k : Fin 24) : (q.disc k).bind (·.job) = (p.disc k).bind (·.job) := by
  by_cases same : k = r
  · rw [same, alike.job]
  · rw [alike.others k same]

theorem Part.Alike.jobAt (x : Fin 16) : q.job x = p.job x := by simp only [Part.job, alike.jobs]

theorem Part.Alike.templateOf (k : Fin 24) : q.templateOf k = p.templateOf k := by
  have of : ∀ u : Part, u.jobOf k = ((u.disc k).bind (·.job)).bind u.job := fun u => by
    unfold Part.jobOf
    cases u.disc k <;> rfl
  simp only [Part.templateOf, of, alike.jobNamed, show q.job = p.job from funext alike.jobAt,
    show q.template = p.template from funext fun t => by simp only [Part.template, alike.templates]]

theorem Part.Alike.inkChannel (i : Fin 4) : q.inkChannel i = p.inkChannel i := by simp only [Part.inkChannel, alike.ink]

theorem Part.Alike.need (t : Template) (i : Fin 4) : q.need t i = p.need t i := by simp only [Part.need, alike.inkChannel]

theorem Part.Alike.needs (t : Template) : q.needs t = p.needs t := by simp only [Part.needs, alike.need]

theorem Part.Alike.admits (t : Template) : q.admits t = p.admits t := by
  simp only [Part.admits, alike.need, alike.inkChannel]

/-! ## The same write on both sides -/

theorem Part.Alike.setJob (x : Fin 16) (o : Option Job) : (p.setJob x o).Alike r (q.setJob x o) :=
  { alike with jobs := by simp only [Part.setJob, alike.jobs] }

theorem Part.Alike.modJob (x : Fin 16) (f : Job → Job) : (p.modJob x f).Alike r (q.modJob x f) := by
  rw [Part.modJob, Part.modJob, alike.jobAt]
  exact alike.setJob x _

theorem Part.Alike.setInk (i : Fin 4) (c : InkChannel) : (p.setInk i c).Alike r (q.setInk i c) :=
  { alike with ink := by simp only [Part.setInk, alike.ink] }

theorem Part.Alike.eachInk (f : Fin 4 → InkChannel → InkChannel) : (eachInk f p).Alike r (eachInk f q) := by
  unfold Machine.eachInk
  generalize allInks = l
  induction l generalizing p q with
  | nil => exact alike
  | cons i l ih =>
    refine ih ?_
    dsimp only
    rw [alike.inkChannel]
    exact alike.setInk i _

theorem Part.Alike.setInkWait (l : List (Fin 24)) : Part.Alike r { p with inkWait := l } { q with inkWait := l } :=
  { alike with inkWait := rfl }

theorem Part.Alike.setPrintQueue (l : List (Fin 24)) : Part.Alike r { p with printQueue := l } { q with printQueue := l } :=
  { alike with printQueue := rfl }

/-- The same change of a record, when what it does to the job and the reservation hangs on these alone. -/
theorem Part.Alike.modDisc (k : Fin 24) {f : Disc → Disc} (job : ∀ d, (f d).job = d.job)
    (reservation : (∀ d, (f d).reservation = d.reservation) ∨
      ∃ v, ∀ d, (f d).reservation = v) :
    (p.modDisc k f).Alike r (q.modDisc k f) := by
  have field : ∀ {α : Type} (g : Disc → Option α) (u : Part), ((u.disc r).map f).bind g = (u.disc r).bind (g ∘ f) :=
    fun g u => by cases u.disc r <;> rfl
  by_cases same : k = r
  · subst same
    refine { alike with others := fun i other => ?_, held := ?_, job := ?_, reservation := ?_ }
    · rw [Part.modDisc, Part.modDisc, Part.setDisc_other _ _ _ _ other, Part.setDisc_other _ _ _ _ other,
        alike.others i other]
    · rw [Part.modDisc, Part.modDisc, Part.setDisc_self, Part.setDisc_self, Option.isSome_map, Option.isSome_map,
        alike.held]
    · rw [Part.modDisc, Part.modDisc, Part.setDisc_self, Part.setDisc_self, field, field]
      simpa only [Function.comp_def, job] using alike.job
    · rw [Part.modDisc, Part.modDisc, Part.setDisc_self, Part.setDisc_self, field, field]
      obtain kept | ⟨v, set⟩ := reservation
      · simpa only [Function.comp_def, kept] using alike.reservation
      · simp only [Function.comp_def, set]
        have held := alike.held
        cases hp : p.disc k <;> cases hq : q.disc k <;> simp [hp, hq] at held ⊢
  · refine { alike with others := fun i other => ?_, held := ?_, job := ?_, reservation := ?_ }
    · rw [Part.modDisc, Part.modDisc, alike.others k same]
      by_cases at_k : i = k
      · rw [at_k, Part.setDisc_self, Part.setDisc_self]
      · rw [Part.setDisc_other _ _ _ _ at_k, Part.setDisc_other _ _ _ _ at_k, alike.others i other]
    · rw [Part.modDisc, Part.modDisc, Part.setDisc_other _ _ _ _ (Ne.symm same),
        Part.setDisc_other _ _ _ _ (Ne.symm same), alike.held]
    · rw [Part.modDisc, Part.modDisc, Part.setDisc_other _ _ _ _ (Ne.symm same),
        Part.setDisc_other _ _ _ _ (Ne.symm same), alike.job]
    · rw [Part.modDisc, Part.modDisc, Part.setDisc_other _ _ _ _ (Ne.symm same),
        Part.setDisc_other _ _ _ _ (Ne.symm same), alike.reservation]

theorem Part.Alike.setStage (k : Fin 24) (st : Stage) : (setStage k st p).Alike r (setStage k st q) := by
  refine alike.modDisc k (fun d => ?_) (.inl fun d => ?_) <;> unfold Disc.atStage <;> split <;> rfl

theorem Part.Alike.changeHolds (x : Fin 16) (f : Holds → Holds) : (changeHolds x f p).Alike r (changeHolds x f q) :=
  alike.modJob x _

/-! ## The label unit's operations -/

theorem Part.Alike.reserve (k : Fin 24) (v : Vector Nat 4) : (reserve k v p).Alike r (reserve k v q) :=
  (alike.eachInk _).modDisc k (fun _ => rfl) (.inr ⟨some v, fun _ => rfl⟩)

theorem Part.Alike.testInkHold (x : Fin 16) : (testInkHold x p).Alike r (testInkHold x q) := by
  have waits : (q.inkWait.any fun k => (q.disc k).bind (·.job) == some x) =
      p.inkWait.any fun k => (p.disc k).bind (·.job) == some x := by
    rw [alike.inkWait]
    simp only [alike.jobNamed]
  unfold Machine.testInkHold
  rw [waits]
  split
  · exact alike
  · exact alike.changeHolds x _

theorem Part.Alike.leaveInkWait (k : Fin 24) : (leaveInkWait k p).Alike r (leaveInkWait k q) := by
  unfold Machine.leaveInkWait
  rw [alike.inkWait]
  split
  · have left := alike.setInkWait (p.inkWait.filter (· != k))
    have named := left.jobNamed k
    dsimp only at named ⊢
    rw [named]
    split
    · exact left.testInkHold _
    · exact left
  · exact alike

theorem Part.Alike.leavePrintQueue (k : Fin 24) : (leavePrintQueue k p).Alike r (leavePrintQueue k q) := by
  unfold Machine.leavePrintQueue
  rw [alike.printQueue]
  exact alike.setPrintQueue _

theorem Part.Alike.attemptReservation (k : Fin 24) : (attemptReservation k p).Alike r (attemptReservation k q) := by
  unfold Machine.attemptReservation
  rw [alike.templateOf]
  split
  · exact alike
  case h_2 t _ =>
    rw [alike.admits]
    split
    · have left := (alike.reserve k (p.needs t)).leaveInkWait k
      have queued := left.setPrintQueue ((Machine.leaveInkWait k (Machine.reserve k (p.needs t) p)).printQueue ++ [k])
      rw [alike.needs]
      dsimp only
      rw [left.printQueue]
      exact queued.setStage k .printQueued
    · exact alike

theorem Part.Alike.retryPass : (retryPass p).Alike r (retryPass q) := by
  unfold Machine.retryPass
  rw [alike.inkWait]
  generalize p.inkWait = l
  induction l generalizing p q with
  | nil => exact alike
  | cons k l ih => exact ih (alike.attemptReservation k)

theorem Part.Alike.unreserve : (unreserve r p).Alike r (unreserve r q) := by
  have held := alike.held
  have reservation := alike.reservation
  unfold Machine.unreserve
  cases hp : p.disc r with
  | none =>
    cases hq : q.disc r with
    | none => exact alike
    | some e => simp [hp, hq] at held
  | some d =>
    cases hq : q.disc r with
    | none => simp [hp, hq] at held
    | some e =>
      have same : e.reservation = d.reservation := by simpa [hp, hq] using reservation
      dsimp only
      rw [same]
      split
      · exact alike
      · exact (alike.eachInk _).modDisc r (fun _ => rfl) (.inr ⟨none, fun _ => rfl⟩)

theorem Part.Alike.release : (release r p).Alike r (release r q) := by
  unfold Machine.release Part.reserves
  rw [alike.reservation]
  split
  · exact alike.unreserve.retryPass
  · exact alike

theorem Part.Alike.leaveLabelUnit : (leaveLabelUnit r p).Alike r (leaveLabelUnit r q) :=
  ((alike.leaveInkWait r).leavePrintQueue r).release

end

/-! ## What becomes of a record, and of the ink-wait list -/

/-- Record `r` is as it was, and has not come to wait for ink. -/
structure Part.Spares (r : Fin 24) (p q : Part) : Prop where
  disc : q.disc r = p.disc r
  absent : r ∉ q.inkWait

theorem Part.Spares.trans (h : p.Spares r q) (h' : q.Spares r u) : p.Spares r u := ⟨h'.disc.trans h.disc, h'.absent⟩

theorem Part.Changes.spares {fs : List Field} (h : p.Changes fs q) (absent : r ∉ p.inkWait)
    (free : Field.discs ∉ fs ∧ Field.inkWait ∉ fs := by decide) : p.Spares r q := by
  have discs : q.discs = p.discs := h .discs free.1
  have inkWait : q.inkWait = p.inkWait := h .inkWait free.2
  exact ⟨by simp only [Part.disc, discs], inkWait ▸ absent⟩

theorem modDisc_spares {f : Disc → Disc} (absent : r ∉ p.inkWait) (other : r ≠ k) : p.Spares r (p.modDisc k f) :=
  ⟨Part.setDisc_other _ _ _ _ other, absent⟩

theorem leaveInkWait_spares (absent : r ∉ p.inkWait) : p.Spares r (leaveInkWait k p) := by
  unfold leaveInkWait
  split
  · have left : p.Spares r { p with inkWait := p.inkWait.filter (· != k) } :=
      ⟨rfl, fun mem => absent (List.mem_of_mem_filter mem)⟩
    dsimp only
    split
    · exact left.trans (testInkHold_changes.spares left.absent)
    · exact left
  · exact ⟨rfl, absent⟩

theorem attemptReservation_spares (absent : r ∉ p.inkWait) (other : r ≠ k) : p.Spares r (attemptReservation k p) := by
  unfold attemptReservation
  split
  · exact ⟨rfl, absent⟩
  case h_2 t _ =>
    split
    · have inked := eachInk_changes (f := fun i c => { c with reserved := c.reserved + (p.needs t)[i.val] }) (p := p)
        |>.spares (r := r) absent
      have reserved := inked.trans (modDisc_spares (k := k)
        (f := fun d => { d with reservation := some (p.needs t) }) inked.absent other)
      have left := reserved.trans (leaveInkWait_spares (k := k) reserved.absent)
      exact left.trans ⟨Part.setDisc_other _ _ _ _ other, left.absent⟩
    · exact ⟨rfl, absent⟩

theorem retryPass_spares (absent : r ∉ p.inkWait) : p.Spares r (retryPass p) := by
  unfold retryPass
  have apart : ∀ k ∈ p.inkWait, r ≠ k := fun k mem same => absent (same ▸ mem)
  generalize p.inkWait = l at apart
  induction l generalizing p with
  | nil => exact ⟨rfl, absent⟩
  | cons k l ih =>
    have first := attemptReservation_spares (p := p) absent (apart k List.mem_cons_self)
    exact first.trans (ih first.absent fun i mem => apart i (List.mem_cons_of_mem _ mem))

theorem unreserve_disc : (unreserve r p).disc r = (p.disc r).map fun d => { d with reservation := none } := by
  unfold unreserve
  cases held : p.disc r with
  | none => simp [held]
  | some d =>
    dsimp only
    cases reservation : d.reservation with
    | none => exact held.trans (congrArg some (by rw [← reservation]))
    | some v =>
      have inked : (eachInk (fun i c => { c with reserved := c.reserved - v[i.val] }) p).disc r = some d := by
        rw [← held]
        have same := eachInk_changes (f := fun i c => { c with reserved := c.reserved - v[i.val] }) (p := p) .discs (by decide)
        simp only [Part.disc, show _ = _ from same]
      dsimp only
      rw [modDisc_held inked, Part.setDisc_self]
      rfl

theorem unreserve_spares (absent : r ∉ p.inkWait) (other : r ≠ k) : p.Spares r (unreserve k p) := by
  unfold unreserve
  split
  · exact ⟨rfl, absent⟩
  · split
    · exact ⟨rfl, absent⟩
    case h_2 v _ =>
      have inked := eachInk_changes (f := fun i c => { c with reserved := c.reserved - v[i.val] }) (p := p)
        |>.spares (r := r) absent
      exact inked.trans (modDisc_spares inked.absent other)

theorem release_spares (absent : r ∉ p.inkWait) (other : r ≠ k) : p.Spares r (release k p) := by
  unfold release
  split
  · have first := unreserve_spares (p := p) absent other
    exact first.trans (retryPass_spares first.absent)
  · exact ⟨rfl, absent⟩

theorem leaveLabelUnit_spares (absent : r ∉ p.inkWait) (other : r ≠ k) : p.Spares r (leaveLabelUnit k p) := by
  have left := leaveInkWait_spares (k := k) absent
  have unqueued : (leaveInkWait k p).Spares r (leavePrintQueue k (leaveInkWait k p)) := ⟨rfl, left.absent⟩
  have both := left.trans unqueued
  exact both.trans (release_spares both.absent other)

theorem reserves_iff : p.reserves r = true ↔ ∃ d v, p.disc r = some d ∧ d.reservation = some v := by
  unfold Part.reserves
  cases held : p.disc r with
  | none => simp
  | some d => simp [Option.isSome_iff_exists]

/-- A record that waits for no ink keeps everything but its reservation through its release (R148). -/
theorem release_disc (absent : r ∉ p.inkWait) :
    (release r p).disc r = (p.disc r).map fun d => { d with reservation := none } := by
  unfold release
  split
  · have first : r ∉ (unreserve r p).inkWait := by
      rwa [show (unreserve r p).inkWait = p.inkWait from unreserve_changes .inkWait (by decide)]
    rw [(retryPass_spares first).disc, unreserve_disc]
  case isFalse unreserved =>
    cases held : p.disc r with
    | none => rfl
    | some d =>
      have none' : d.reservation = none := by simpa [Part.reserves, held] using unreserved
      rw [← none']
      rfl

theorem leaveInkWait_absent_after : r ∉ (leaveInkWait r p).inkWait := by
  unfold leaveInkWait
  split
  · dsimp only
    split
    · rw [show (testInkHold _ _).inkWait = _ from testInkHold_changes .inkWait (by decide)]
      simp
    · simp
  case isFalse absent => simpa using absent

theorem leaveInkWait_disc : (leaveInkWait k p).disc r = p.disc r := by
  have same : (leaveInkWait k p).discs = p.discs := leaveInkWait_changes .discs (by decide)
  simp only [Part.disc, same]

/-- A record that leaves the label unit keeps everything but its reservation. -/
theorem leaveLabelUnit_disc : (leaveLabelUnit r p).disc r = (p.disc r).map fun d => { d with reservation := none } := by
  have absent : r ∉ (leavePrintQueue r (leaveInkWait r p)).inkWait := leaveInkWait_absent_after
  rw [leaveLabelUnit, release_disc absent]
  exact congrArg _ leaveInkWait_disc

/-- A record that waits for no ink comes to wait for none through its release (R148). -/
theorem release_absent (absent : r ∉ p.inkWait) : r ∉ (release r p).inkWait := by
  unfold release
  split
  · have first : r ∉ (unreserve r p).inkWait := by
      rwa [show (unreserve r p).inkWait = p.inkWait from unreserve_changes .inkWait (by decide)]
    exact (retryPass_spares first).absent
  · exact absent

theorem leaveLabelUnit_absent_after : r ∉ (leaveLabelUnit r p).inkWait :=
  release_absent (p := leavePrintQueue r (leaveInkWait r p)) leaveInkWait_absent_after

theorem leaveLabelUnit_eq_release (unwaiting : r ∉ p.inkWait) (unqueued : r ∉ p.printQueue) :
    leaveLabelUnit r p = release r p := by
  rw [leaveLabelUnit, leaveInkWait_absent unwaiting, leavePrintQueue_absent unqueued]

end Sys2Proof.Machine
end

