-- ==== Sys2Proof/Proofs/RecordEnds.lean ====
section
/-! PROOF. The ends of a disc record: what a reject's or a delivery's finalisation leaves, and what it tells the job
(R5, R9, R14, R15, R32). -/

namespace Sys2Proof.Machine

-- One proof after another: side by side, their threads' stacks pass the check's memory limit.
set_option Elab.async false

variable {p q u v : Part} {r k : Fin 24} {x : Fin 16} {d e : Disc} {why : Reason} {c : Bool}

/-! ## The job's part -/

/-- The same jobs, flags and time. -/
structure Part.SameJobs (p q : Part) : Prop where
  jobs : q.jobs = p.jobs
  attn : q.attn = p.attn
  now : q.now = p.now

theorem Part.SameJobs.setJob (h : p.SameJobs q) (x : Fin 16) (o : Option Job) : (p.setJob x o).SameJobs (q.setJob x o) :=
  ⟨by simp only [Part.setJob, h.jobs], h.attn, h.now⟩

theorem Part.SameJobs.ends (h : p.SameJobs q) (x : Fin 16) (j : Job) (st : JobState) :
    (p.ends x j st).SameJobs (q.ends x j st) :=
  ⟨(h.setJob x _).jobs, by simp only [Part.ends, h.attn, h.now], h.now⟩

theorem Part.SameJobs.closes (h : p.SameJobs q) (x : Fin 16) (j : Job) : (p.closes x j).SameJobs (q.closes x j) := by
  unfold Part.closes
  split
  · exact h.ends x j .failed
  · split
    · exact h.ends x j .cancelled
    · exact h.setJob x _

theorem Part.SameJobs.job (h : p.SameJobs q) (x : Fin 16) : q.job x = p.job x := by simp only [Part.job, h.jobs]

theorem modJob_none (free : p.job x = none) (f : Job → Job) : p.modJob x f = p := by
  rw [Part.modJob, free]
  exact setJob_same free

theorem jobRejected_none (free : p.job x = none) (c : Bool) : jobRejected x c p = p := by
  simp only [jobRejected, modJob_none free, free]

theorem jobDelivered_none (free : p.job x = none) (c : Bool) : jobDelivered x c p = p := by
  simp only [jobDelivered, modJob_none free, free]

theorem jobWithdrawn_none (free : p.job x = none) : jobWithdrawn x p = p := by
  simp only [jobWithdrawn, modJob_none free, closeIdle, free]

theorem Part.SameJobs.jobRejected (h : p.SameJobs q) (x : Fin 16) (c : Bool) :
    (jobRejected x c p).SameJobs (jobRejected x c q) := by
  cases held : p.job x with
  | none => rwa [jobRejected_none held, jobRejected_none ((h.job x).trans held)]
  | some j =>
    rw [jobRejected_held held, jobRejected_held ((h.job x).trans held)]
    split
    · exact h.closes x _
    · exact h.closes x _

theorem Part.SameJobs.jobDelivered (h : p.SameJobs q) (x : Fin 16) (c : Bool) :
    (jobDelivered x c p).SameJobs (jobDelivered x c q) := by
  cases held : p.job x with
  | none => rwa [jobDelivered_none held, jobDelivered_none ((h.job x).trans held)]
  | some j =>
    rw [jobDelivered_held held, jobDelivered_held ((h.job x).trans held)]
    split
    · exact h.ends x _ _
    · exact h.closes x _

theorem Part.SameJobs.jobWithdrawn (h : p.SameJobs q) (x : Fin 16) : (jobWithdrawn x p).SameJobs (jobWithdrawn x q) := by
  cases held : p.job x with
  | none => rwa [jobWithdrawn_none held, jobWithdrawn_none ((h.job x).trans held)]
  | some j =>
    rw [jobWithdrawn_held held, jobWithdrawn_held ((h.job x).trans held)]
    exact h.closes x _

/-- The job a record names is told of the record's end, if it names one. -/
def tellJob (event : Fin 16 → Part → Part) (job : Option (Fin 16)) (p : Part) : Part :=
  match job with
  | some x => event x p
  | none => p

theorem Part.SameJobs.tellJob {event : Fin 16 → Part → Part} (h : p.SameJobs q)
    (each : ∀ x, (event x p).SameJobs (event x q)) (job : Option (Fin 16)) :
    (tellJob event job p).SameJobs (tellJob event job q) := by
  cases job with
  | none => exact h
  | some x => exact each x

/-- What the job is told at a reject's finalisation (R14, R32). -/
abbrev tellRejected (counts : Bool) : Option (Fin 16) → Part → Part := tellJob fun x => jobRejected x counts

/-- What the job is told at a delivery (R14, R32). -/
abbrev tellDelivered (unlabelled : Bool) : Option (Fin 16) → Part → Part := tellJob fun x => jobDelivered x unlabelled

theorem tellRejected_changes {job : Option (Fin 16)} : p.Changes [.jobs, .attn] (tellRejected c job p) := by
  cases job with
  | none => exact .refl p _
  | some x => exact jobRejected_changes

theorem tellDelivered_changes {job : Option (Fin 16)} : p.Changes [.jobs, .attn] (tellDelivered c job p) := by
  cases job with
  | none => exact .refl p _
  | some x => exact jobDelivered_changes

/-! ## The record's part -/

/-- A record that ends stands as `e`, or is freed at once by auto-retire, which may end the held spell (R9, R15). -/
structure Part.Retires (p : Part) (r : Fin 24) (e : Disc) (q : Part) : Prop where
  disc : q.disc r = if p.tower.autoRetire then none else some e
  others : OthersKept p.disc q.disc r
  heldSpell : q.heldSpell = if p.tower.autoRetire = true ∧ 2 ≤ q.freeCount then false else p.heldSpell

theorem freeCount_congr (same : q.discs = p.discs) : q.freeCount = p.freeCount := by rw [Part.freeCount, same, Part.freeCount]

theorem freeRecord_heldSpell : (freeRecord r p).heldSpell = if 2 ≤ (freeRecord r p).freeCount then false else p.heldSpell := by
  have same : (freeRecord r p).freeCount = (p.setDisc r none).freeCount := freeCount_congr rfl
  rw [same]
  rfl

theorem autoRetire_retires (held : p.disc r = some e) : p.Retires r e (autoRetire r p) := by
  unfold autoRetire
  by_cases retire : p.tower.autoRetire = true
  · rw [if_pos retire]
    refine ⟨?_, fun k other => Part.setDisc_other _ _ _ _ other, ?_⟩
    · rw [if_pos retire]
      exact Part.setDisc_self p r none
    · rw [freeRecord_heldSpell]
      simp only [retire, true_and]
  · rw [if_neg retire]
    exact ⟨by rw [if_neg retire, held], fun _ _ => rfl, by simp [retire]⟩

/-- What a reject's finalisation of record `r` leaves: the label unit, and the jobs with the record's told, as `u`
has them, and the record standing as `e` or freed (R5, R14, R15). -/
structure Part.EndsRejected (p u : Part) (r : Fin 24) (e : Disc) (told : Part → Part) (q : Part) : Prop where
  jobs : q.jobs = (told u).jobs
  ink : q.ink = u.ink
  inkWait : q.inkWait = u.inkWait
  printQueue : q.printQueue = u.printQueue
  disc : q.disc r = if p.tower.autoRetire then none else some { e with
    stage := .rejected, place := none, eligible := none, reservation := none }
  others : OthersKept u.disc q.disc r
  heldSpell : q.heldSpell = if p.tower.autoRetire = true ∧ 2 ≤ q.freeCount then false else p.heldSpell

/-- A later change of other fields keeps all that. -/
theorem Part.EndsRejected.andThen {told : Part → Part} (h : p.EndsRejected u r e told q) {fs : List Field} (later : q.Changes fs v)
    (free : [Field.jobs, .ink, .inkWait, .printQueue, .discs, .heldSpell].all (· ∉ fs) = true := by rfl) :
    p.EndsRejected u r e told v := by
  simp only [List.all_cons, List.all_nil, Bool.and_true, Bool.and_eq_true, decide_eq_true_eq] at free
  obtain ⟨jobs, ink, inkWait, printQueue, discs, heldSpell⟩ := free
  have same : v.discs = q.discs := later .discs discs
  have disc : v.disc = q.disc := funext fun k => by simp only [Part.disc, same]
  exact ⟨(later .jobs jobs).trans h.jobs, (later .ink ink).trans h.ink, (later .inkWait inkWait).trans h.inkWait,
    (later .printQueue printQueue).trans h.printQueue, disc ▸ h.disc, disc ▸ h.others,
    (later .heldSpell heldSpell).trans (by rw [h.heldSpell, freeCount_congr same])⟩

/-- The same end of the same record, from a part with the same settings and held spell. -/
theorem Part.EndsRejected.of {told : Part → Part} (h : p.EndsRejected u r e told q) {p' : Part}
    (tower : p'.tower.autoRetire = p.tower.autoRetire) (heldSpell : p'.heldSpell = p.heldSpell) :
    p'.EndsRejected u r e told q :=
  { h with disc := tower ▸ h.disc, heldSpell := tower ▸ heldSpell ▸ h.heldSpell }

/-- Whether a reason counts as a failure of the job (R32). -/
def Disc.counts (d : Disc) : Bool :=
  match d.reason with
  | some w => w.counts
  | none => false

/-- The finalisation of a reject, seen from a part `p₀` that is alike for the label unit. -/
theorem finaliseReject_ends {p₀ : Part} (alike : p₀.Alike r p) (now : p.now = p₀.now) (held : p.disc r = some e) :
    p.EndsRejected (leaveLabelUnit r p₀) r e (tellRejected e.counts e.job) (finaliseReject r p) ∧
      (finaliseReject r p).attn =
        (tellRejected e.counts e.job { leaveLabelUnit r p₀ with attn := p.attn }).attn := by
  let left := leaveLabelUnit r p
  let placed := left.modDisc r fun d => { d with stage := .rejected, place := none, eligible := none }
  let told := tellRejected e.counts e.job placed
  have is : finaliseReject r p = autoRetire r told := by
    rw [finaliseReject, held]
    simp only [told, tellRejected, tellJob, Disc.counts]
    cases e.job <;> rfl
  have left_alike : (leaveLabelUnit r p₀).Alike r left := alike.leaveLabelUnit
  have left_changes : p.Changes _ left := leaveLabelUnit_changes
  have told_changes : placed.Changes _ told := tellRejected_changes
  have retired := autoRetire_changes (r := r) (p := told)
  have placed_held : placed.disc r = some { e with
      stage := .rejected, place := none, eligible := none, reservation := none } := by
    simp only [placed, left, Part.modDisc, Part.setDisc_self, leaveLabelUnit_disc, held, Option.map_some]
  have placed_others : OthersKept (leaveLabelUnit r p₀).disc placed.disc r := fun k other =>
    (Part.setDisc_other _ _ _ _ other).trans (left_alike.others k other)
  have told_disc : told.disc = placed.disc := by
    have same : told.discs = placed.discs := told_changes .discs (by decide)
    funext k
    simp only [Part.disc, same]
  have ended := autoRetire_retires (p := told) (told_disc ▸ placed_held)
  have tower : told.tower = p.tower := (told_changes .tower (by decide)).trans (left_changes .tower (by decide))
  have spell : told.heldSpell = p.heldSpell :=
    (told_changes .heldSpell (by decide)).trans (left_changes .heldSpell (by decide))
  have same_now : (leaveLabelUnit r p₀).now = placed.now := by
    have kept : (leaveLabelUnit r p₀).now = p₀.now := leaveLabelUnit_changes .now (by decide)
    exact kept.trans (now.symm.trans (left_changes .now (by decide)).symm)
  have same_attn : placed.attn = p.attn := left_changes .attn (by decide)
  have jobs : Part.SameJobs { leaveLabelUnit r p₀ with attn := p.attn } placed :=
    ⟨left_alike.jobs, same_attn, same_now.symm⟩
  have same := jobs.tellJob (fun x => jobs.jobRejected x e.counts) e.job
  have untouched : (tellRejected e.counts e.job { leaveLabelUnit r p₀ with attn := p.attn }).jobs =
      (tellRejected e.counts e.job (leaveLabelUnit r p₀)).jobs := by
    cases e.job with
    | none => rfl
    | some x =>
      show (jobRejected x e.counts { leaveLabelUnit r p₀ with attn := p.attn }).jobs = (jobRejected x e.counts _).jobs
      generalize leaveLabelUnit r p₀ = w
      cases holds : w.job x with
      | none => rw [jobRejected_none holds, jobRejected_none (p := { w with attn := p.attn }) holds]
      | some j =>
        rw [jobRejected_held holds, jobRejected_held (p := { w with attn := p.attn }) holds]
        unfold Part.closes
        repeat' split
        all_goals rfl
  rw [is]
  refine ⟨⟨?_, ?_, ?_, ?_, ?_, ?_, ?_⟩, ?_⟩
  · exact (retired .jobs (by decide)).trans (same.jobs.trans untouched)
  · exact (retired .ink (by decide)).trans ((told_changes .ink (by decide)).trans left_alike.ink)
  · exact (retired .inkWait (by decide)).trans ((told_changes .inkWait (by decide)).trans left_alike.inkWait)
  · exact (retired .printQueue (by decide)).trans ((told_changes .printQueue (by decide)).trans left_alike.printQueue)
  · rw [ended.disc, tower]
  · exact fun k other => (ended.others k other).trans (told_disc ▸ placed_others k other)
  · rw [ended.heldSpell, tower, spell]
  · exact (retired .attn (by decide)).trans same.attn

/-! ## A fate written on a record -/

theorem writeReject_fate (held : p.disc r = some d) (fate : why.fate = true) : writeReject r why p =
    { p.setDisc r (some { d with verdict := .reject, reason := some why }) with
      attn := if d.verdict = .reject then p.attn else p.attn.raise .discRejected p.now } := by
  unfold writeReject
  rw [held]
  dsimp only
  by_cases rejected : d.verdict = .reject
  · rw [if_pos rejected, if_pos fate, if_pos rejected, ← rejected]
    rfl
  · rw [if_neg rejected, if_neg rejected]
    rfl

/-- A record's REJECT with a fate, and its finalisation, seen from a part alike for the label unit (R4, R14). -/
theorem fateReject_ends {p₀ : Part} (alike : p₀.Alike r p) (now : p.now = p₀.now) (held : p.disc r = some d)
    (fate : why.fate = true) (uncounted : why.counts = false) {attn : Attention}
    (flags : attn = if d.verdict = .reject then p.attn else p.attn.raise .discRejected p.now) :
    p.EndsRejected (leaveLabelUnit r p₀) r { d with verdict := .reject, reason := some why }
        (tellRejected false d.job) (finaliseReject r (writeReject r why p)) ∧
      (finaliseReject r (writeReject r why p)).attn =
        (tellRejected false d.job { leaveLabelUnit r p₀ with attn := attn }).attn := by
  have written := writeReject_changes (r := r) (why := why) (p := p)
  have now' : (writeReject r why p).now = p.now := written .now (by decide)
  have standing : (writeReject r why p).disc r = some { d with verdict := .reject, reason := some why } := by
    rw [writeReject_fate held fate]
    exact Part.setDisc_self p r _
  obtain ⟨ends, raised⟩ := finaliseReject_ends (alike.trans writeReject_alike) (now'.trans now) standing
  have tower : (writeReject r why p).tower = p.tower := written .tower (by decide)
  have spell : (writeReject r why p).heldSpell = p.heldSpell := written .heldSpell (by decide)
  have counts : Disc.counts { d with verdict := .reject, reason := some why } = false := uncounted
  have attn' : (writeReject r why p).attn = attn := by
    rw [flags, writeReject_fate held fate]
  rw [counts] at ends raised
  rw [attn'] at raised
  exact ⟨ends.of (by rw [tower]) spell.symm, raised⟩

end Sys2Proof.Machine
end

