-- ==== Sys2Proof/Proofs/RejectRule.lean ====
section
/-! PROOF. REJECT: what it writes, and what it does by the stage and the place of its disc (R3, R4, R13, R77). -/

namespace Sys2Proof.Machine

-- One proof after another: side by side, their threads' stacks pass the check's memory limit.
set_option Elab.async false

variable {p q : Part} {r : Fin 24} {b : Fin 12} {d : Disc} {why : Reason}

/-! ## Stages -/

theorem atStage_final {st : Stage} (final : d.stage = .delivered ∨ d.stage = .rejected) :
    d.atStage st = if st.active then d else { d with stage := st } := by
  unfold Disc.atStage Stage.accepts
  obtain is | is := final <;> rw [is] <;> cases st.active <;> rfl

theorem atStage_rejectBound {st : Stage} (bound : d.stage = .rejectBound) :
    d.atStage st = if st.active then d else { d with stage := st } := by
  unfold Disc.atStage Stage.accepts
  rw [bound]
  by_cases same : st = .rejectBound
  · subst same
    simp [Stage.active, ← bound]
  · cases active : st.active <;> simp [same]

theorem atStage_active {st : Stage} (active : d.stage.active = true) (unbound : d.stage ≠ .rejectBound) :
    d.atStage st = { d with stage := st } := by
  refine Disc.atStage_accepted ?_
  unfold Stage.accepts
  split
  case h_1 is => simp [is, Stage.active] at active
  case h_2 is => simp [is, Stage.active] at active
  case h_3 is => exact absurd is unbound
  case h_4 => rfl

theorem setStage_held (held : p.disc r = some d) (st : Stage) : setStage r st p = p.setDisc r (some (d.atStage st)) :=
  modDisc_held held _

/-! ## Verdicts and reasons -/

/-- The part once record `r`, standing as `d`, has its first REJECT (R4). -/
def Part.firstReject (p : Part) (r : Fin 24) (why : Reason) (d : Disc) : Part :=
  { p.setDisc r (some { d with verdict := .reject, reason := some why }) with
    attn := p.attn.raise .discRejected p.now }

theorem writeReject_firstReject (held : p.disc r = some d) (first : d.verdict ≠ .reject) (why : Reason) :
    writeReject r why p = p.firstReject r why d := writeReject_first held first why

theorem Reason.fate_iff : why.fate = true ↔ why = .lost ∨ why = .removed ∨ why = .bayFault := by
  cases why <;> simp [Reason.fate]

theorem writeReject_replaces (held : p.disc r = some d) (again : d.verdict = .reject) (fate : why.fate = true) :
    writeReject r why p = p.setDisc r (some { d with reason := some why }) := by
  simp [writeReject, held, again, fate]

theorem writeReject_keeps_reason (held : p.disc r = some d) (again : d.verdict = .reject) (common : why.fate = false) :
    writeReject r why p = p := by
  simp [writeReject, held, again, common]

theorem writeGood_pending (held : p.disc r = some d) (unrejected : d.verdict ≠ .reject) :
    writeGood r p = p.setDisc r (some { d with verdict := .good }) := by
  rw [writeGood, modDisc_held held, if_neg unrejected]

theorem setDisc_same {o : Option Disc} (held : p.disc r = o) : p.setDisc r o = p := by
  subst held
  simp [Part.setDisc, Part.disc]

theorem writeGood_rejected (held : p.disc r = some d) (rejected : d.verdict = .reject) : writeGood r p = p := by
  rw [writeGood, modDisc_held held, if_pos rejected, setDisc_same held]

theorem isReject_iff (held : p.disc r = some d) : p.isReject r = true ↔ d.verdict = .reject := by
  simp [Part.isReject, held]

theorem rejectDisc_again (held : p.disc r = some d) (again : d.verdict = .reject) (why : Reason) :
    rejectDisc r why p = writeReject r why p := by
  rw [rejectDisc, if_pos ((isReject_iff held).mpr again)]

theorem rejectDisc_first (held : p.disc r = some d) (first : d.verdict ≠ .reject) (why : Reason) :
    rejectDisc r why p = propagateReject r (p.firstReject r why d) := by
  rw [rejectDisc, if_neg (mt (isReject_iff held).mp first), writeReject_firstReject held first]

theorem firstReject_disc : (p.firstReject r why d).disc r = some { d with verdict := .reject, reason := some why } :=
  Part.setDisc_self p r _

/-! ## The propagation by the stage -/

section Stages
variable (held : q.disc r = some d)
include held

theorem propagateReject_rests (stage : d.stage = .delivered ∨ d.stage = .rejected ∨ d.stage = .rejectBound) :
    propagateReject r q = q := by
  obtain is | is | is := stage <;> simp [propagateReject, held, is]

theorem propagateReject_printing (printing : d.stage = .printing) :
    propagateReject r q = if q.labelInFlight r then q else rejectUnprinted r q := by
  simp [propagateReject, held, printing]

/-- What a first REJECT does with a disc that is moving through the tower, by its place (R13). -/
theorem propagateReject_moves (active : d.stage.active = true) (unbound : d.stage ≠ .rejectBound)
    (unprinting : d.stage ≠ .printing) {bound : Part} (bound_is : bound = setStage r .rejectBound (leaveLabelUnit r q)) :
    (d.place = none → propagateReject r q = bound) ∧
    (∀ b, d.place = some (.bay b) → propagateReject r q = bayReject b bound) ∧
    (d.place ≠ none → (∀ b, d.place ≠ some (.bay b)) →
      propagateReject r q = if d.stage = .hostHold then giveOrder r bound else bound) := by
  subst bound_is
  have undelivered : d.stage ≠ .delivered := fun is => by simp [is, Stage.active] at active
  have unrejected : d.stage ≠ .rejected := fun is => by simp [is, Stage.active] at active
  unfold propagateReject
  rw [held]
  dsimp only
  split
  case h_1 is => exact absurd is undelivered
  case h_2 is => exact absurd is unrejected
  case h_3 is => exact absurd is unbound
  case h_4 is => exact absurd is unprinting
  case h_5 =>
    refine ⟨fun nowhere => by rw [nowhere], fun b there => by rw [there], fun somewhere outside => ?_⟩
    cases place : d.place with
    | none => exact absurd place somewhere
    | some pl =>
      cases pl with
      | bay b => exact absurd place (outside b)
      | arm => rfl
      | printer => rfl

end Stages

theorem labelInFlight_iff : p.labelInFlight r = true ↔
    p.station.labelDeadline.isSome = true ∧ p.occupant .printer = some r := by
  simp [Part.labelInFlight]

/-! ## A REJECT that reaches a bay -/

/-- RESET of a bay, after ABORT where an operation is in flight, told by what a part before holds (R66; log 50). -/
theorem resetBay_of (now : q.now = p.now) (tower : q.tower = p.tower) (sent : q.sent = p.sent)
    (operation : (q.bay b).operation = (p.bay b).operation) : resetBay b q =
      { q.setBay b ((q.bay b).resetting p.now) with
        sent := p.sent ++ (if (p.bay b).operation.isSome then [.drive b .abort] else []) ++ [.drive b .reset]
        tower := { p.tower with sweep := p.tower.sweep.map fun w => { w with
          resetOwed := w.resetOwed.set b.val false } } } := by
  rw [resetBay_eq, paySweepReset_eq, now, sent, operation]
  dsimp only
  rw [Part.setBay_tower, tower]
  by_cases busy : (p.bay b).operation.isSome = true
  · rw [if_pos busy, if_pos busy]
  · rw [if_neg busy, if_neg busy, List.append_nil]

theorem bayReject_waits (waits : (p.bay b).state.abortable = false) : bayReject b p = p := by
  unfold bayReject
  split <;> simp_all [BayState.abortable]

theorem leaveStream_operation : ((leaveStream b p).bay b).operation = (p.bay b).operation := by
  unfold leaveStream
  split
  · rfl
  case h_2 c _ =>
    extract_lets q u
    have left : (q.bay b).operation = (p.bay b).operation := by simp [q, Part.modBay]
    clear_value q
    have cleared : (u.bay b).operation = (q.bay b).operation := by
      unfold u
      split <;> rfl
    clear_value u
    split
    · exact cleared.trans left
    case h_2 st _ =>
      have closed : (closeIfEmpty c (u.setChannel c (.recording
          { st with members := st.members.filter (·.bay != b) }))).bays = u.bays :=
        (setChannel_changes.andThen closeIfEmpty_changes) .bays (by decide)
      exact (congrArg (fun v : Vector Bay 12 => v[b.val].operation) closed).trans (cleared.trans left)

/-- What a first REJECT leaves of the disc's part before its bay is told (R13). -/
def Part.rejectBound (p : Part) (r : Fin 24) (why : Reason) (d : Disc) : Part :=
  setStage r .rejectBound (leaveLabelUnit r (p.firstReject r why d))

theorem rejectBound_changes : p.Changes [.inkWait, .jobs, .printQueue, .ink, .discs, .attn] (p.rejectBound r why d) :=
  (((setDisc_changes (p := p) (r := r)).andThen raise_changes).andThen
    (leaveLabelUnit_changes.andThen setStage_changes)).widen rfl

theorem rejectDisc_printing (held : p.disc r = some d) (first : d.verdict ≠ .reject) (printing : d.stage = .printing)
    (unordered : p.occupant .printer ≠ some r ∨ p.station.labelDeadline = none) :
    rejectDisc r why p = rejectUnprinted r (p.firstReject r why d) := by
  rw [rejectDisc_first held first, propagateReject_printing firstReject_disc printing, if_neg]
  rw [labelInFlight_iff]
  rintro ⟨ordered, there⟩
  obtain elsewhere | unsent := unordered
  · exact elsewhere there
  · rw [show (p.firstReject r why d).station.labelDeadline = none from unsent] at ordered
    cases ordered

/-- The first REJECT of a disc that is moving through the tower, by its place (R13). -/
theorem rejectDisc_moves (held : p.disc r = some d) (first : d.verdict ≠ .reject) (active : d.stage.active = true)
    (unbound : d.stage ≠ .rejectBound) (unprinting : d.stage ≠ .printing) :
    (d.place = none → rejectDisc r why p = p.rejectBound r why d) ∧
    (∀ b, d.place = some (.bay b) → rejectDisc r why p = bayReject b (p.rejectBound r why d)) ∧
    (d.place ≠ none → (∀ b, d.place ≠ some (.bay b)) → rejectDisc r why p =
      if d.stage = .hostHold then giveOrder r (p.rejectBound r why d) else p.rejectBound r why d) := by
  rw [rejectDisc_first held first]
  exact propagateReject_moves firstReject_disc active unbound unprinting rfl

theorem rejectBound_bay (b : Fin 12) : (p.rejectBound r why d).bay b = p.bay b := by
  have same : (p.rejectBound r why d).bays = p.bays := rejectBound_changes .bays (by decide)
  simp only [Part.bay, same]

theorem holds_withdrawn : enterBay b .holding (withdrawRequest b p) =
    { p.setBay b ((p.bay b).enter .holding) with streamReqs := p.streamReqs.filter (·.bay != b) } := rfl

/-- RESET of a bay whose disc has its first REJECT, after a change of the streams and the read-backs alone (R77). -/
theorem resetBay_rejectBound {fs : List Field} (later : (p.rejectBound r why d).Changes fs q)
    (free : Field.now ∉ fs ∧ Field.tower ∉ fs ∧ Field.sent ∉ fs := by decide)
    (operation : (q.bay b).operation = ((p.rejectBound r why d).bay b).operation) : resetBay b q =
      { q.setBay b ((q.bay b).resetting p.now) with
        sent := p.sent ++ (if (p.bay b).operation.isSome then [.drive b .abort] else []) ++ [.drive b .reset]
        tower := { p.tower with sweep := p.tower.sweep.map fun w => { w with
          resetOwed := w.resetOwed.set b.val false } } } := by
  refine resetBay_of ((later .now free.1).trans (rejectBound_changes .now (by decide)))
    ((later .tower free.2.1).trans (rejectBound_changes .tower (by decide)))
    ((later .sent free.2.2).trans (rejectBound_changes .sent (by decide))) ?_
  rw [operation, rejectBound_bay]

/-- Settles O35: the writes of stage, verdict and reason, then the first REJECT by stage, place and bay. -/
theorem rejectRule : Obligations.RejectRule := by
  refine ⟨fun p r d why held => ?_, fun d st => ⟨atStage_final, atStage_rejectBound, atStage_active⟩⟩
  intro first
  refine ⟨setStage_held held, fun unrejected => writeReject_firstReject held unrejected why,
    fun again fate => writeReject_replaces held again (Reason.fate_iff.mpr fate),
    fun again notLost notRemoved notFaulted => writeReject_keeps_reason held again <|
      Bool.eq_false_iff.mpr (mt Reason.fate_iff.mp (by simp [notLost, notRemoved, notFaulted])),
    writeGood_pending held, writeGood_rejected held, fun again => rejectDisc_again held again why,
    fun unrejected stage => ?_, fun unrejected printing there ordered => ?_,
    fun unrejected printing unordered => ?_, fun unrejected active unbound unprinting => ?_⟩
  · rw [rejectDisc_first held unrejected]
    exact propagateReject_rests firstReject_disc stage
  · rw [rejectDisc_first held unrejected, propagateReject_printing firstReject_disc printing]
    exact if_pos (labelInFlight_iff.mpr ⟨ordered, there⟩)
  · intro bound
    rw [rejectDisc_printing held unrejected printing unordered]
    have station : bound.station = p.station :=
      (release_changes.andThen setStage_changes : (first d).Changes _ bound) .station (by decide)
    have is : rejectUnprinted r (first d) = match bound.station.state with
      | .loaded => finishStation bound
      | .fault => giveOrder r bound
      | _ => bound := rfl
    change (_ → rejectUnprinted r (first d) = _) ∧ (_ → rejectUnprinted r (first d) = _) ∧
      (_ → _ → rejectUnprinted r (first d) = _)
    rw [is, station]
    refine ⟨fun loaded => by rw [loaded], fun fault => by rw [fault], fun notLoaded notFault => ?_⟩
    split
    case h_1 loaded => exact absurd loaded notLoaded
    case h_2 fault => exact absurd fault notFault
    case h_3 => rfl
  · intro bound
    have bound_is : p.rejectBound r why d = bound := rfl
    obtain ⟨nowhere, atBay, outside⟩ := rejectDisc_moves (why := why) held unrejected active unbound unprinting
    rw [bound_is] at nowhere outside
    refine ⟨fun noBay calm => ?_, fun noBay waits somewhere => ?_, fun b there => ?_⟩
    · by_cases none' : d.place = none
      · exact nowhere none'
      · rw [outside none' noBay, if_neg (calm.resolve_right none')]
    · rw [outside somewhere noBay, if_pos waits]
    · intro resets st
      have told := atBay b there
      rw [bound_is] at told
      have bay : bound.bay b = p.bay b := rejectBound_bay b
      have state : (bound.bay b).state = st := by rw [bay]
      rw [told]
      unfold bayReject
      refine ⟨fun rests => ?_, fun writing => ?_, fun reading => ?_, fun attaching => ?_, fun waits => ?_⟩
      · have reset : resetBay b bound = resets bound := resetBay_rejectBound (.refl _ []) (operation := rfl)
        obtain is | is | is := rests <;> rw [state, is] <;> exact reset
      · rw [state, writing]
        exact resetBay_rejectBound leaveStream_changes (operation := leaveStream_operation)
      · rw [state, reading]
        exact resetBay_rejectBound setContext_changes (operation := rfl)
      · rw [state, attaching]
        have reqs : bound.streamReqs = p.streamReqs := rejectBound_changes .streamReqs (by decide)
        rw [← bay, ← reqs]
        exact holds_withdrawn
      · have calm := bayReject_waits (b := b) (p := bound) (state ▸ waits)
        unfold bayReject at calm
        exact calm

end Sys2Proof.Machine
end

