-- ==== Sys2Proof/Proofs/StopTower.lean ====
section
/-! PROOF. STOP TOWER, the abort order, and the ends of a start and of a stop (R164, R166, R168 to R171). -/

namespace Sys2Proof.Machine

-- One proof after another: side by side, their threads' stacks pass the check's memory limit.
set_option Elab.async false

variable {p q u : Part} {r k : Fin 24} {b : Fin 12} {d : Disc} {why : Reason}

/-! ## A record's fate while others are rejected -/

/-- What a REJECT writes on a record: its stage, its verdict and its reason. -/
def Disc.fate (d : Disc) : Stage × Verdict × Option Reason := (d.stage, d.verdict, d.reason)

/-- Record `r` keeps its fate and has not come to wait for ink. -/
structure Part.KeepsFate (r : Fin 24) (p q : Part) : Prop where
  fate : (q.disc r).map Disc.fate = (p.disc r).map Disc.fate
  absent : r ∉ q.inkWait

theorem Part.KeepsFate.trans (h : p.KeepsFate r q) (h' : q.KeepsFate r u) : p.KeepsFate r u :=
  ⟨h'.fate.trans h.fate, h'.absent⟩

theorem Part.Spares.fate (h : p.Spares r q) : p.KeepsFate r q := ⟨by rw [h.disc], h.absent⟩

/-- A change of any record that keeps its fate. -/
theorem modDisc_fate {f : Disc → Disc} (absent : r ∉ p.inkWait) (keeps : ∀ d, (f d).fate = d.fate) :
    p.KeepsFate r (p.modDisc k f) := by
  refine ⟨?_, absent⟩
  by_cases same : r = k
  · subst same
    rw [Part.modDisc, Part.setDisc_self, Option.map_map]
    congr 1
    exact funext keeps
  · rw [Part.modDisc, Part.setDisc_other _ _ _ _ same]

theorem giveOrder_fate (absent : r ∉ p.inkWait) : p.KeepsFate r (giveOrder k p) := modDisc_fate absent fun _ => rfl

theorem finishStation_fate (absent : r ∉ p.inkWait) : p.KeepsFate r (finishStation p) := by
  have entered : p.KeepsFate r (enterStation .finished p) := (enterStation_changes.spares absent).fate
  unfold finishStation
  dsimp only
  split
  · split
    · exact entered
    · exact entered.trans (giveOrder_fate entered.absent)
  · exact entered

theorem leaveStream_fate (absent : r ∉ p.inkWait) : p.KeepsFate r (leaveStream b p) := by
  unfold leaveStream
  split
  · exact ⟨rfl, absent⟩
  case h_2 c _ =>
    extract_lets q u
    have cleared : q.KeepsFate r u := by
      unfold u
      split
      · exact modDisc_fate absent fun _ => rfl
      · exact ⟨rfl, absent⟩
    have left : p.KeepsFate r u := ⟨cleared.fate, cleared.absent⟩
    clear_value u
    split
    · exact left
    · exact left.trans ((setChannel_changes.andThen closeIfEmpty_changes).spares left.absent).fate

theorem bayReject_fate (absent : r ∉ p.inkWait) : p.KeepsFate r (bayReject b p) := by
  have reset : ∀ {q : Part}, r ∉ q.inkWait → q.KeepsFate r (resetBay b q) := fun here =>
    (resetBay_changes.spares here).fate
  unfold bayReject
  split
  · exact reset absent
  · exact reset absent
  · exact reset absent
  · exact (leaveStream_fate absent).trans (reset (leaveStream_fate absent).absent)
  · exact ⟨(reset (q := p.setContext b none) absent).fate, (reset (q := p.setContext b none) absent).absent⟩
  · exact ((withdrawRequest_changes.andThen enterBay_changes).spares absent).fate
  · exact ⟨rfl, absent⟩

theorem writeReject_other (absent : r ∉ p.inkWait) (other : r ≠ k) : p.KeepsFate r (writeReject k why p) := by
  have inkWait : (writeReject k why p).inkWait = p.inkWait := writeReject_changes .inkWait (by decide)
  refine ⟨?_, inkWait ▸ absent⟩
  unfold writeReject
  repeat' split
  all_goals simp [raise, Part.disc, Part.setDisc, Fin.val_ne_of_ne (Ne.symm other)]

theorem setStage_other (absent : r ∉ p.inkWait) (other : r ≠ k) (st : Stage) : p.KeepsFate r (setStage k st p) :=
  ⟨by rw [setStage, Part.modDisc, Part.setDisc_other _ _ _ _ other], absent⟩

theorem propagateReject_other (absent : r ∉ p.inkWait) (other : r ≠ k) : p.KeepsFate r (propagateReject k p) := by
  have same : p.KeepsFate r p := ⟨rfl, absent⟩
  have left : p.KeepsFate r (setStage k .rejectBound (leaveLabelUnit k p)) :=
    (leaveLabelUnit_spares absent other).fate.trans
      (setStage_other (leaveLabelUnit_spares absent other).absent other .rejectBound)
  have released : p.KeepsFate r (setStage k .rejectBound (release k p)) :=
    (release_spares absent other).fate.trans (setStage_other (release_spares absent other).absent other .rejectBound)
  unfold propagateReject
  split
  · exact same
  · split
    · exact same
    · exact same
    · exact same
    · split
      · exact same
      · unfold rejectUnprinted
        dsimp only
        split
        · exact released.trans (finishStation_fate released.absent)
        · exact released.trans (giveOrder_fate released.absent)
        · exact released
    · dsimp only
      split
      · exact left.trans (bayReject_fate left.absent)
      · split
        · exact left.trans (giveOrder_fate left.absent)
        · exact left
      · exact left

theorem rejectDisc_other (absent : r ∉ p.inkWait) (other : r ≠ k) : p.KeepsFate r (rejectDisc k why p) := by
  have written := writeReject_other (why := why) absent other
  unfold rejectDisc
  split
  · exact written
  · exact written.trans (propagateReject_other written.absent other)

/-! ## The abort order's records -/

/-- Record `r` has been rejected ABORTED and is bound for the REJECT BIN. -/
def Part.Aborted (r : Fin 24) (p : Part) : Prop :=
  (p.disc r).map Disc.fate = some (.rejectBound, .reject, some .aborted) ∧ r ∉ p.inkWait

theorem Part.KeepsFate.aborted (h : p.KeepsFate r q) (aborted : p.Aborted r) : q.Aborted r :=
  ⟨h.fate.trans aborted.1, h.absent⟩

theorem fate_eq_some {f : Stage × Verdict × Option Reason} (fate : (p.disc r).map Disc.fate = some f) :
    ∃ e, p.disc r = some e ∧ e.stage = f.1 ∧ e.verdict = f.2.1 ∧ e.reason = f.2.2 := by
  obtain ⟨e, held, rfl⟩ := Option.map_eq_some_iff.mp fate
  exact ⟨e, held, rfl, rfl, rfl⟩

theorem rejectDisc_aborted (aborted : p.Aborted r) : (rejectDisc k .aborted p).Aborted r := by
  by_cases same : r = k
  · subst same
    obtain ⟨e, held, -, rejected, -⟩ := fate_eq_some aborted.1
    rwa [rejectDisc_again held rejected, writeReject_keeps_reason held rejected rfl]
  · exact (rejectDisc_other aborted.2 same).aborted aborted

/-- A FEEDING record not yet rejected is ABORTED by a REJECT ABORTED, wherever it stands (R170). -/
theorem rejectDisc_feeding (held : p.disc r = some d) (feeding : d.stage = .feeding) (first : d.verdict ≠ .reject) :
    (rejectDisc r .aborted p).Aborted r := by
  have bound : (p.rejectBound r .aborted d).Aborted r := by
    have left := leaveLabelUnit_disc (p := p.firstReject r .aborted d) (r := r)
    rw [firstReject_disc] at left
    refine ⟨?_, ?_⟩
    · rw [Part.rejectBound, setStage_held left, Part.setDisc_self, atStage_active (by rw [feeding]; rfl)
        (by rw [feeding]; decide)]
      rfl
    · exact leaveLabelUnit_absent_after (p := p.firstReject r .aborted d)
  obtain ⟨nowhere, atBay, outside⟩ := rejectDisc_moves (why := .aborted) held first (by rw [feeding]; rfl)
    (by rw [feeding]; decide) (by rw [feeding]; decide)
  cases place : d.place with
  | none => rwa [nowhere place]
  | some pl =>
    cases pl with
    | bay b =>
      rw [atBay b place]
      exact (bayReject_fate bound.2).aborted bound
    | arm => rwa [outside (by simp [place]) (by simp [place]), if_neg (by simp [feeding])]
    | printer => rwa [outside (by simp [place]) (by simp [place]), if_neg (by simp [feeding])]

/-- Record `r` is a FEEDING one not yet rejected, and waits for no ink. -/
def Part.Feeding (r : Fin 24) (p : Part) : Prop :=
  (∃ v why, (p.disc r).map Disc.fate = some (.feeding, v, why) ∧ v ≠ .reject) ∧ r ∉ p.inkWait

/-- The abort order's part for one record (R170). -/
def abortFeeding (p : Part) (k : Fin 24) : Part :=
  if p.stageOf k = some .feeding then rejectDisc k .aborted p else p

theorem abortOrder_eq (p : Part) :
    abortOrder p = allBays.foldl (fun p b => abortBay b p) (allDiscs.foldl abortFeeding p) := rfl

theorem abortFeeding_aborted (aborted : p.Aborted r) : (abortFeeding p k).Aborted r := by
  unfold abortFeeding
  split
  · exact rejectDisc_aborted aborted
  · exact aborted

theorem abortFeeding_self (feeding : p.Feeding r) : (abortFeeding p r).Aborted r := by
  obtain ⟨⟨v, why, fate, first⟩, -⟩ := feeding
  obtain ⟨e, held, stage, verdict', -⟩ := fate_eq_some fate
  have reached : p.stageOf r = some .feeding := by simp [Part.stageOf, held, stage]
  rw [abortFeeding, if_pos reached]
  exact rejectDisc_feeding held stage (verdict' ▸ first)

theorem abortFeeding_other (feeding : p.Feeding r) (other : r ≠ k) : (abortFeeding p k).Feeding r := by
  unfold abortFeeding
  split
  · obtain ⟨⟨v, why, fate, first⟩, absent⟩ := feeding
    have kept := rejectDisc_other (why := .aborted) absent other
    exact ⟨⟨v, why, kept.fate.trans fate, first⟩, kept.absent⟩
  · exact feeding

theorem abortBay_aborted (aborted : p.Aborted r) : (abortBay b p).Aborted r := by
  unfold abortBay
  split
  · split
    · exact rejectDisc_aborted aborted
    · exact aborted
  · exact aborted

theorem foldl_aborted {α : Type} {op : Part → α → Part} (each : ∀ {q : Part} (a : α), q.Aborted r → (op q a).Aborted r)
    (l : List α) (aborted : p.Aborted r) : (l.foldl op p).Aborted r := by
  induction l generalizing p with
  | nil => exact aborted
  | cons a l ih => exact ih (each a aborted)

theorem foldl_abortFeeding (l : List (Fin 24)) (reached : r ∈ l) (feeding : p.Feeding r) :
    (l.foldl abortFeeding p).Aborted r := by
  induction l generalizing p with
  | nil => cases reached
  | cons k l ih =>
    by_cases same : r = k
    · subst same
      exact foldl_aborted (fun _ => abortFeeding_aborted) l (abortFeeding_self feeding)
    · exact ih ((List.mem_cons.mp reached).resolve_left same) (abortFeeding_other feeding same)

theorem mem_allDiscs (r : Fin 24) : r ∈ allDiscs := by
  revert r
  decide

theorem abortOrder_aborts (held : p.disc r = some d) (feeding : d.stage = .feeding) (first : d.verdict ≠ .reject)
    (absent : r ∉ p.inkWait) : (abortOrder p).Aborted r := by
  rw [abortOrder_eq]
  refine foldl_aborted (fun _ => abortBay_aborted) _ (foldl_abortFeeding allDiscs (mem_allDiscs r) ⟨⟨d.verdict, d.reason, ?_, first⟩, absent⟩)
  rw [held, ← feeding]
  rfl

theorem foldl_abortFeeding_rests (none' : ∀ r d, p.disc r = some d → d.stage ≠ .feeding) :
    allDiscs.foldl abortFeeding p = p := by
  refine foldl_rests (fun k => if_neg fun reached => ?_) _
  obtain ⟨d, held, feeding⟩ := Option.map_eq_some_iff.mp reached
  exact none' k d held feeding

theorem abortBay_rests (rests : (p.bay b).state.abortable = false ∨ p.occupant (.bay b) = none) : abortBay b p = p := by
  unfold abortBay
  obtain calm | empty := rests
  · rw [if_neg (by simp [calm])]
  · rw [empty]
    split <;> rfl

theorem abortBay_reaches (works : (p.bay b).state.abortable = true) (there : p.occupant (.bay b) = some r) :
    abortBay b p = (rejectDisc r .aborted p).setBay b { (rejectDisc r .aborted p).bay b with
      abortMark := decide (((rejectDisc r .aborted p).bay b).state = .resetting) } := by
  rw [abortBay, if_pos works, there]
  rfl

theorem abortable_iff {st : BayState} : st.abortable = true ↔
    st ∈ [BayState.closingTray, .querying, .attaching, .writing, .finalizing, .readingBack] := by
  cases st <;> simp [BayState.abortable]

/-! ## STOP TOWER -/

theorem reqStopNormal_running (running : p.tower.state = .running) :
    reqStopNormal p = settled (enterTower .stopping p) accepted := by
  rw [reqStopNormal, running]

theorem reqStopNormal_interrupted (waits : p.tower.state = .paused ∨ p.tower.state = .halted)
    (resumes : p.tower.resume = some .running) :
    reqStopNormal p = ({ p with tower := { p.tower with resume := some .stopping } }, okay) := by
  obtain is | is := waits <;> rw [reqStopNormal, is, resumes]

theorem reqStopNormal_refused (other : p.tower.state ≠ .running)
    (bad : p.tower.state ≠ .paused ∧ p.tower.state ≠ .halted ∨ p.tower.resume ≠ some .running) :
    reqStopNormal p = turnDown .badState p := by
  unfold reqStopNormal
  split
  case h_1 running => exact absurd running other
  case h_2 paused resumes => exact (bad.elim (fun ne => absurd paused ne.1) fun ne => absurd resumes ne)
  case h_3 halted resumes => exact (bad.elim (fun ne => absurd halted ne.2) fun ne => absurd resumes ne)
  case h_4 => rfl

theorem working_iff {st : TowerState} : st.working = true ↔ st = .running ∨ st = .stopping ∨ st = .paused ∨ st = .halted := by
  cases st <;> simp [TowerState.working]

theorem reqStopAbrupt_working (works : p.tower.state.working = true) : reqStopAbrupt p = settled
    (testAbort (abortOrder (enterTower .aborting { p with tower := { p.tower with resume := none, sweep := none } })))
    accepted := if_pos works

theorem reqStopAbrupt_refused (rests : p.tower.state.working = false) : reqStopAbrupt p = turnDown .badState p :=
  if_neg (by simp [rests])

/-! ## The ends of a start, a stop and an abort -/

/-- The tower enters a state, its sweep as given; TOWER_STATE is raised (R164). -/
def Part.entering (q : Part) (st : TowerState) (sweep : Option Sweep) : Part := { q with
  attn := q.attn.raise .towerState q.now
  tower := { q.tower with state := st, sweep := sweep } }

theorem complete_iff {w : Sweep} : w.complete = true ↔
    w.armMark = false ∧ w.printerMark = false ∧ ∀ b : Fin 12, w.bayMarks[b] = false := by
  simp [Sweep.complete, mem_allBays, and_assoc]

theorem stopComplete_iff : q.stopComplete = true ↔
    q.arm.op = none ∧ ∀ r d, q.disc r = some d → d.stage.active = true → d.stage = .hostHold := by
  unfold Part.stopComplete
  rw [Bool.and_eq_true, Option.isNone_iff_eq_none, List.all_eq_true]
  refine and_congr_right fun _ => forall_congr' fun r => ?_
  simp only [mem_allDiscs, forall_const, Part.stageOf]
  cases q.disc r with
  | none => simp
  | some d => cases active : d.stage.active <;> simp [active]

theorem abortComplete_iff : q.abortComplete = true ↔ q.arm.op = none ∧ ∀ b, (q.bay b).abortMark = false := by
  simp [Part.abortComplete, mem_allBays]

/-- The part once each bay has been sent the RESET it owes the sweep (R168). -/
def Part.followed (p : Part) : Part := allBays.foldl (fun p b => sweepFollow b p) p

theorem followed_rests (none' : ∀ w, p.tower.sweep = some w → ∀ b : Fin 12, w.resetOwed[b] = false) : p.followed = p := by
  refine foldl_rests (fun b => ?_) _
  unfold sweepFollow
  split
  · rfl
  case h_2 w held =>
    have owes : w.resetOwed[b.val] = false := none' w held b
    simp [owes]

section Ends
variable {w : Sweep}

theorem settleTower_starts (starting : p.followed.tower.state = .starting) (held : p.followed.tower.sweep = some w) :
    settleTower p = if w.complete = true then p.followed.entering .running none else p.followed := by
  unfold settleTower
  change (match p.followed.tower.state with | .starting => _ | .stopping => _ | _ => _) = _
  rw [starting]
  dsimp only
  change (match p.followed.tower.sweep with | some w => _ | none => _) = _
  rw [held]
  rfl

theorem settleTower_unswept (starting : p.followed.tower.state = .starting) (held : p.followed.tower.sweep = none) :
    settleTower p = p.followed.entering .running none := by
  unfold settleTower
  change (match p.followed.tower.state with | .starting => _ | .stopping => _ | _ => _) = _
  rw [starting]
  dsimp only
  change (match p.followed.tower.sweep with | some w => _ | none => _) = _
  rw [held]
  show enterTower .running p.followed = _
  rw [enterTower, Part.entering, ← held]
  rfl

theorem settleTower_stops (stopping : p.followed.tower.state = .stopping) : settleTower p =
    if p.followed.stopComplete = true then p.followed.entering .stopped p.followed.tower.sweep else p.followed := by
  unfold settleTower
  change (match p.followed.tower.state with | .starting => _ | .stopping => _ | _ => _) = _
  rw [stopping]
  rfl

theorem settleTower_stays (started : p.followed.tower.state ≠ .starting) (stopping : p.followed.tower.state ≠ .stopping) :
    settleTower p = p.followed := by
  unfold settleTower
  change (match p.followed.tower.state with | .starting => _ | .stopping => _ | _ => p.followed) = _
  split
  case h_1 is => exact absurd is started
  case h_2 is => exact absurd is stopping
  case h_3 => rfl

theorem testAbort_ends (aborting : p.tower.state = .aborting) (complete : p.abortComplete = true) :
    testAbort p = p.entering .stopped p.tower.sweep := if_pos ⟨aborting, complete⟩

end Ends

/-- Settles O26: the requests, the abort order record by record and bay by bay, and the three ends. -/
theorem stopTower : Obligations.StopTower := by
  refine ⟨⟨fun s tag taken => ?_, fun p r d held feeding first absent => ?_, fun p unfed calm => ?_, fun _ => rfl,
    fun p unfed => ?_, fun p b => ⟨abortable_iff, abortBay_rests, fun r => abortBay_reaches⟩⟩, fun p => ?_⟩
  · intro bad t
    rw [exec_stopTowerNormal, exec_stopTowerAbrupt]
    refine ⟨fun running => ?_, fun waits resumes => ?_, fun other refused => ?_, fun works => ?_, fun rests => ?_⟩
    · exact takeRequest_replied taken _ _ (reqStopNormal_running (p := s.part.fresh) running)
    · exact takeRequest_replied taken _ _ (reqStopNormal_interrupted (p := s.part.fresh) waits resumes)
    · exact takeRequest_replied taken _ _ (reqStopNormal_refused (p := s.part.fresh) other refused)
    · exact takeRequest_replied taken _ _ (reqStopAbrupt_working (p := s.part.fresh) (working_iff.mpr works))
    · refine takeRequest_replied taken _ _ (reqStopAbrupt_refused (p := s.part.fresh) ?_)
      change t.working = false
      obtain is | is | is := rests <;> rw [is] <;> rfl
  · obtain ⟨e, standing, stage, rejected, reason⟩ := fate_eq_some (abortOrder_aborts held feeding first absent).1
    exact ⟨e, standing, rejected, reason, stage⟩
  · rw [abortOrder_eq, foldl_abortFeeding_rests unfed]
    exact foldl_rests (fun b => abortBay_rests (.inl (calm b))) _
  · rw [abortOrder_eq, foldl_abortFeeding_rests unfed]
  · intro q enters
    have q_is : p.followed = q := rfl
    rw [show enters = Part.entering from rfl]
    rw [← q_is]
    refine ⟨fun none' => followed_rests none', fun w starting held => ⟨fun clear => ?_, fun pending => ?_⟩,
      fun starting unswept => settleTower_unswept starting unswept,
      fun stopping => ⟨fun done => ?_, fun going => ?_⟩, fun other => ?_, fun aborting idle unmarked => ?_, fun going => ?_⟩
    · rw [settleTower_starts starting held, if_pos (complete_iff.mpr clear)]
    · rw [settleTower_starts starting held, if_neg]
      rw [complete_iff]
      rintro ⟨arm, printer, bays⟩
      obtain set | set | ⟨b, set⟩ := pending
      · simp [arm] at set
      · simp [printer] at set
      · simp [bays b] at set
    · rw [settleTower_stops stopping, if_pos (stopComplete_iff.mpr done)]
    · rw [settleTower_stops stopping, if_neg]
      rw [stopComplete_iff]
      rintro ⟨idle, held⟩
      obtain busy | ⟨r, d, is, active, unheld⟩ := going
      · simp [idle] at busy
      · exact unheld (held r d is active)
    · refine settleTower_stays ?_ ?_
      · obtain is | is | is | is | is := other <;> rw [is] <;> decide
      · obtain is | is | is | is | is := other <;> rw [is] <;> decide
    · exact testAbort_ends aborting (abortComplete_iff.mpr ⟨idle, unmarked⟩)
    · refine if_neg ?_
      rw [abortComplete_iff]
      rintro ⟨aborting, idle, unmarked⟩
      obtain other | busy | ⟨b, marked⟩ := going
      · exact other aborting
      · simp [idle] at busy
      · simp [unmarked b] at marked

end Sys2Proof.Machine
end

