-- ==== Sys2Proof/Proofs/ArmReports.lean ====
section
/-! PROOF. How the handler port's reports are taken, the jams (R47, R48, R50, R61, R172), and GRIPPED (R43, R49). -/

namespace Sys2Proof.Machine

-- One proof after another: side by side, their threads' stacks pass the check's memory limit.
set_option Elab.async false

variable {p q : Part} {s : State} {o : ArmOp} {op : Nat} {m : Move}

/-! ## How a report is taken -/

section Taken
variable (live : s.link.resetLow = false)
include live

theorem gripped_taken (op : Nat) : exec (.gripped op) s = .next (s.became (settle (takeGripped op s.part.fresh))) := by
  rw [exec_gripped, takeEvent_live live]; rfl

theorem done_taken (op : Nat) : exec (.done op) s = .next (s.became (settle (takeDone op s.part.fresh))) := by
  rw [exec_done, takeEvent_live live]; rfl

theorem missed_taken (op : Nat) : exec (.missed op) s = .next (s.became (settle (armReport op missed s.part.fresh))) := by
  rw [exec_missed, takeEvent_live live]; rfl

theorem double_taken (op : Nat) : exec (.double op) s = .next (s.became (settle (armReport op doubled s.part.fresh))) := by
  rw [exec_double, takeEvent_live live]; rfl

theorem single_taken (op : Nat) : exec (.single op) s = .next (s.became (settle (armReport op separated s.part.fresh))) := by
  rw [exec_single, takeEvent_live live]; rfl

theorem stillDouble_taken (op : Nat) :
    exec (.stillDouble op) s = .next (s.became (settle (armReport op unseparated s.part.fresh))) := by
  rw [exec_stillDouble, takeEvent_live live]; rfl

theorem dropped_taken (op : Nat) : exec (.dropped op) s = .next (s.became (settle (armReport op dropped s.part.fresh))) := by
  rw [exec_dropped, takeEvent_live live]; rfl

theorem interrupted_taken (op : Nat) : exec (.interrupted op) s =
    .next (s.became (settle (armReport op (fun _ _ p => interruptedHeld p) s.part.fresh))) := by
  rw [exec_interrupted, takeEvent_live live]; rfl

theorem jammed_taken (op : Nat) :
    exec (.jammed op) s = .next (s.became (settle (armReport op (fun _ _ p => jam p) s.part.fresh))) := by
  rw [exec_jammed, takeEvent_live live]; rfl

theorem homed_taken (op : Nat) (held : Bool) : exec (.homed op held) s =
    .next (s.became (settle (armReport op (fun o _ p => takeHomed held o p) s.part.fresh))) := by
  rw [exec_homed, takeEvent_live live]; rfl

theorem moveTimeout_taken : exec .moveTimeout s = .next (s.became (settle (armExpired s.part.fresh))) := by
  rw [exec_moveTimeout, takeEvent_live live]; rfl

end Taken

theorem armReport_flight (fit : p.fit op = .flight o) (f : ArmOrder → Option Move → Part → Part) :
    armReport op f p = testAbort (f o.order p.arm.move p) := by
  rw [armReport, fit]

theorem armReport_misfit (fit : p.fit op = .misfit) (f : ArmOrder → Option Move → Part → Part) :
    armReport op f p = testAbort (jam p) := by
  rw [armReport, fit]

theorem takeGripped_misfit (fit : p.fit op = .misfit) : takeGripped op p = testAbort (jam p) := by
  rw [takeGripped, fit]

theorem takeDone_misfit (fit : p.fit op = .misfit) : takeDone op p = testAbort (jam p) := by
  rw [takeDone, fit]

/-! ## Jams -/

/-- The ten reports of the handler port. -/
def armReports (op : Nat) (held : Bool) : List Instr :=
  [.gripped op, .done op, .missed op, .double op, .single op, .stillDouble op, .dropped op, .interrupted op,
    .jammed op, .homed op held]

/-- A report that does not fit jams the arm, whatever it is (R48, R61). -/
theorem misfit_jams (live : s.link.resetLow = false) (fit : s.part.fresh.fit op = .misfit) {held : Bool} {i : Instr}
    (report : i ∈ armReports op held) : exec i s = .next (s.became (settle (testAbort (jam s.part.fresh)))) := by
  simp only [armReports, List.mem_cons, List.not_mem_nil, or_false] at report
  rcases report with rfl | rfl | rfl | rfl | rfl | rfl | rfl | rfl | rfl | rfl
  · rw [gripped_taken live, takeGripped_misfit fit]
  · rw [done_taken live, takeDone_misfit fit]
  · rw [missed_taken live, armReport_misfit fit]
  · rw [double_taken live, armReport_misfit fit]
  · rw [single_taken live, armReport_misfit fit]
  · rw [stillDouble_taken live, armReport_misfit fit]
  · rw [dropped_taken live, armReport_misfit fit]
  · rw [interrupted_taken live, armReport_misfit fit]
  · rw [jammed_taken live, armReport_misfit fit]
  · rw [homed_taken live, armReport_misfit fit]

theorem fit_unanswered (idle : p.arm.op = none) (uncut : ∀ x, p.arm.cut = some x → x.id ≠ op)
    (closed : p.doorOpen = false) (current : p.arm.liveFrom ≤ op) (fresh : p.arm.stale.contains op = false) :
    p.fit op = .misfit := by
  unfold Part.fit
  rw [if_neg (by simp only [fresh]; simp; omega), idle, closed]
  cases cut : p.arm.cut with
  | none => rfl
  | some x => simp [uncut x cut]

theorem fit_other (inFlight : p.arm.op = some o) (uncut : p.arm.cut = none) (closed : p.doorOpen = false)
    (other : op ≠ o.id) (current : p.arm.liveFrom ≤ op) (fresh : p.arm.stale.contains op = false) :
    p.fit op = .misfit := by
  unfold Part.fit
  rw [if_neg (by simp only [fresh]; simp; omega), uncut, inFlight, closed]
  simp [Ne.symm other]

/-- A jam: the arm HALTED with its move interrupted, ARM_HALT, and the tower HALTED from a going state (R61, R172). -/
structure Part.Jammed (p q : Part) : Prop where
  changes : p.Changes [.arm, .attn, .tower] q
  arm : q.arm = { p.arm with
    state := .halted, halt := some .jam, op := none, heldInterrupted := false
    move := p.arm.move.map fun m => { m with interrupted := true } }
  raised : q.attn.isSet .armHalt = true
  flags : ∀ f, f ≠ .armHalt → f ≠ .towerState → q.attn.isSet f = p.attn.isSet f
  going : ∀ x, p.tower.state.asResume = some x →
    q.tower = { p.tower with state := .halted, resume := some x } ∧ q.attn.isSet .towerState = true
  paused : p.tower.state = .paused → q.tower = { p.tower with state := .halted } ∧ q.attn.isSet .towerState = true
  resting : p.tower.state.asResume = none → p.tower.state ≠ .paused → q.tower = p.tower

theorem jam_jammed (p : Part) : p.Jammed (jam p) := by
  rw [jam_eq, haltTower_eq]
  dsimp only
  refine ⟨fun f hf => by cases f <;> first | rfl | simp at hf, rfl, ?_, fun f notArm notTower => ?_, fun x going => ?_,
    fun paused => ?_, fun resting unpaused => ?_⟩
  · dsimp only
    split <;> simp [Attention.isSet_raise]
  · dsimp only
    split <;> simp [Attention.isSet_raise, notArm, notTower]
  · simp [going, Attention.isSet_raise]
  · simp [paused, Attention.isSet_raise, TowerState.asResume]
  · simp [resting, unpaused]

/-- A report or an expiry whose effect is a jam, at the time and with the discarded numbers it sets (R48, R50). -/
theorem jams_of {now : Nat} {stale : List Nat} {t : Host.Outcome State Fault Refusal}
    (is : t = .next (s.became (settle (testAbort (jam
      { s.part.fresh with now := now, arm := { s.part.arm with stale := stale } }))))) :
    ∃ q, t = .next (s.became (settle (testAbort q))) ∧
      s.part.fresh.Changes [.now, .arm, .attn, .tower] q ∧
      q.now = now ∧
      q.arm = { s.part.arm with
        state := .halted, halt := some .jam, op := none, heldInterrupted := false, stale := stale
        move := s.part.arm.move.map fun m => { m with interrupted := true } } ∧
      q.attn.isSet .armHalt = true ∧
      (∀ f, f ≠ .armHalt → f ≠ .towerState → q.attn.isSet f = s.part.attn.isSet f) ∧
      (∀ x, s.part.tower.state.asResume = some x →
        q.tower = { s.part.tower with state := .halted, resume := some x } ∧ q.attn.isSet .towerState = true) ∧
      (s.part.tower.state = .paused →
        q.tower = { s.part.tower with state := .halted } ∧ q.attn.isSet .towerState = true) ∧
      (s.part.tower.state.asResume = none → s.part.tower.state ≠ .paused → q.tower = s.part.tower) := by
  have jammed := jam_jammed { s.part.fresh with now := now, arm := { s.part.arm with stale := stale } }
  have moved : s.part.fresh.Changes [.now, .arm]
      { s.part.fresh with now := now, arm := { s.part.arm with stale := stale } } := by
    intro f hf
    cases f <;> first | rfl | simp at hf
  exact ⟨_, is, (moved.andThen jammed.changes).widen rfl, jammed.changes .now (by decide), jammed.arm, jammed.raised,
    jammed.flags, jammed.going, jammed.paused, jammed.resting⟩

/-- A report of the operation in flight that does not fit its stage (R48; log 11). -/
def Misfits (o : ArmOp) (move : Option Move) (held : Bool) (i : Instr) : Prop :=
  let pick := ∃ sp d, o.order = .pick sp d
  let transfer := ∃ pl d, o.order = .transfer pl d
  let deliver := ∃ d, o.order = .deliver d
  let moving := move.isSome = true
  let gripped := ∃ m, move = some m ∧ m.gripped = true
  let empty := ∃ m, move = some m ∧ m.gripped = false
  let lost := transfer ∧ move = none
  i = .gripped o.id ∧ ¬ ((pick ∨ transfer) ∧ moving) ∨
    i = .done o.id ∧ ¬ ((pick ∨ transfer) ∧ gripped ∨ deliver ∧ moving) ∨
    i = .missed o.id ∧ ¬ ((pick ∨ transfer) ∧ empty ∨ lost) ∨
    i = .double o.id ∧ ¬ (pick ∧ gripped) ∨
    (i = .single o.id ∨ i = .stillDouble o.id) ∧ ¬ (o.order = .separate ∧ moving) ∨
    i = .dropped o.id ∧ ¬ ((pick ∨ transfer ∨ deliver) ∧ moving ∨ lost) ∨
    i = .homed o.id held ∧ ∀ why, o.order ≠ .home why

section Stages
variable {order : ArmOrder} {move : Option Move}

theorem takeGripped_unfit (fit : p.fit op = .flight o)
    (bad : ¬ (((∃ sp d, o.order = .pick sp d) ∨ ∃ pl d, o.order = .transfer pl d) ∧ p.arm.move.isSome = true)) :
    takeGripped op p = testAbort (jam p) := by
  rw [takeGripped, fit]
  dsimp only
  split
  case h_1 is held => exact absurd ⟨.inl ⟨_, _, is⟩, by rw [held]; rfl⟩ bad
  case h_2 is held => exact absurd ⟨.inr ⟨_, _, is⟩, by rw [held]; rfl⟩ bad
  case h_3 => rfl

theorem takeDone_unfit (fit : p.fit op = .flight o) (bad : ∀ m, p.arm.move = some m → o.order.endsDone m = false) :
    takeDone op p = testAbort (jam p) := by
  rw [takeDone, fit]
  dsimp only
  split
  case h_1 m held => rw [if_neg (by simp [bad m held])]
  case h_2 => rfl

theorem missed_unfit (bad : ¬ (((∃ sp d, order = .pick sp d) ∨ ∃ pl d, order = .transfer pl d) ∧
      (∃ m, move = some m ∧ m.gripped = false) ∨ (∃ pl d, order = .transfer pl d) ∧ move = none)) :
    missed order move p = jam p := by
  unfold missed
  split
  case h_1 m =>
    refine if_pos (Bool.eq_true_of_not_eq_false fun empty => bad (.inl ⟨.inl ⟨_, _, rfl⟩, m, rfl, empty⟩))
  case h_2 m =>
    refine if_pos (Bool.eq_true_of_not_eq_false fun empty => bad (.inl ⟨.inr ⟨_, _, rfl⟩, m, rfl, empty⟩))
  case h_3 => exact absurd (.inr ⟨⟨_, _, rfl⟩, rfl⟩) bad
  case h_4 => rfl

theorem doubled_unfit (bad : ¬ ((∃ sp d, order = .pick sp d) ∧ ∃ m, move = some m ∧ m.gripped = true)) :
    doubled order move p = jam p := by
  unfold doubled
  split
  case h_1 m => exact if_neg fun gripped => bad ⟨⟨_, _, rfl⟩, m, rfl, gripped⟩
  case h_2 => rfl

theorem separated_unfit (bad : ¬ (order = .separate ∧ move.isSome = true)) : separated order move p = jam p := by
  unfold separated
  split
  case h_1 => exact absurd ⟨rfl, rfl⟩ bad
  case h_2 => rfl

theorem unseparated_unfit (bad : ¬ (order = .separate ∧ move.isSome = true)) : unseparated order move p = jam p := by
  unfold unseparated
  split
  case h_1 => exact absurd ⟨rfl, rfl⟩ bad
  case h_2 => rfl

theorem dropped_unfit (bad : ¬ (((∃ sp d, order = .pick sp d) ∨ (∃ pl d, order = .transfer pl d) ∨
      ∃ d, order = .deliver d) ∧ move.isSome = true ∨ (∃ pl d, order = .transfer pl d) ∧ move = none)) :
    dropped order move p = jam p := by
  unfold dropped
  split
  case h_1 => exact absurd (.inl ⟨.inl ⟨_, _, rfl⟩, rfl⟩) bad
  case h_2 => exact absurd (.inl ⟨.inr (.inl ⟨_, _, rfl⟩), rfl⟩) bad
  case h_3 => exact absurd (.inr ⟨⟨_, _, rfl⟩, rfl⟩) bad
  case h_4 => exact absurd (.inl ⟨.inr (.inr ⟨_, rfl⟩), rfl⟩) bad
  case h_5 => rfl

theorem takeHomed_unfit {held : Bool} (bad : ∀ why, order ≠ .home why) : takeHomed held order p = jam p := by
  unfold takeHomed
  split
  case h_1 why => exact absurd rfl (bad why)
  case h_2 => rfl

end Stages

theorem unfit_jams (flying : s.flying o) {held : Bool} {i : Instr} (unfit : Misfits o s.part.arm.move held i) :
    exec i s = .next (s.became (settle (testAbort (jam s.part.fresh)))) := by
  have live := flying.1
  have fit := fit_flying flying
  rcases unfit with ⟨rfl, bad⟩ | ⟨rfl, bad⟩ | ⟨rfl, bad⟩ | ⟨rfl, bad⟩ | ⟨rfl | rfl, bad⟩ | ⟨rfl, bad⟩ | ⟨rfl, bad⟩
  · rw [gripped_taken live, takeGripped_unfit fit bad]
  · rw [done_taken live, takeDone_unfit fit fun m move => ?_]
    unfold ArmOrder.endsDone
    split
    case h_1 is => exact Bool.eq_false_iff.mpr fun gripped => bad (.inl ⟨.inl ⟨_, _, is⟩, m, move, gripped⟩)
    case h_2 is => exact Bool.eq_false_iff.mpr fun gripped => bad (.inl ⟨.inr ⟨_, _, is⟩, m, move, gripped⟩)
    case h_3 is => exact absurd (.inr ⟨⟨_, is⟩, by rw [show s.part.arm.move = some m from move]; rfl⟩) bad
    case h_4 => rfl
    case h_5 => rfl
  · rw [missed_taken live, armReport_flight fit, missed_unfit (move := s.part.fresh.arm.move) bad]
  · rw [double_taken live, armReport_flight fit, doubled_unfit (move := s.part.fresh.arm.move) bad]
  · rw [single_taken live, armReport_flight fit, separated_unfit (move := s.part.fresh.arm.move) bad]
  · rw [stillDouble_taken live, armReport_flight fit, unseparated_unfit (move := s.part.fresh.arm.move) bad]
  · rw [dropped_taken live, armReport_flight fit, dropped_unfit (move := s.part.fresh.arm.move) bad]
  · rw [homed_taken live, armReport_flight fit, takeHomed_unfit bad]

/-- Settles O23: each of the reports that jam, and the expiry, is one jam. -/
theorem jamsHaltTheArm : Obligations.JamsHaltTheArm := by
  intro s live jammed
  refine ⟨fun o flying => jams_of ?_, fun o inFlight => jams_of ?_, fun op held idle uncut closed current fresh i report => jams_of ?_,
    fun o op held flying other current fresh i report => jams_of ?_, fun o held i flying => ?_⟩
  · rw [jammed_taken live, armReport_flight (fit_flying flying)]
    rfl
  · rw [moveTimeout_taken live, armExpired, show s.part.fresh.arm.op = some o from inFlight]
    rfl
  · exact misfit_jams live (fit_unanswered idle uncut closed current fresh) report
  · obtain ⟨-, closed, inFlight, uncut, -, -, -⟩ := flying
    exact misfit_jams live (fit_other (p := s.part.fresh) inFlight uncut closed other current fresh) report
  · intro pick transfer deliver moving gripped empty lost unfit
    exact jams_of (unfit_jams flying unfit)

end Sys2Proof.Machine
end

