-- ==== Sys2Proof/Proofs/Gripped.lean ====
section
/-! PROOF. What a GRIPPED takes from its source (R43, R49, R75, R153, R156). -/

namespace Sys2Proof.Machine

-- One proof after another: side by side, their threads' stacks pass the check's memory limit.
set_option Elab.async false

variable {p q u : Part} {s : State} {o : ArmOp} {op : Nat} {m : Move} {pl : Place} {b : Fin 12}

theorem fit_cutShort (cut : s.cutShort o) : s.part.fresh.fit o.id = .cut o := by
  obtain ⟨-, held, current, fresh⟩ := cut
  unfold Part.fit
  simp only [Part.fresh_arm, held, fresh]
  simp [Nat.not_lt.mpr current]

/-- The first GRIPPED of a PICK or a TRANSFER takes the disc, that of the operation the door cut short too (R49, R58). -/
theorem gripped_grips (answers : s.flying o ∨ s.cutShort o) (move : s.part.arm.move = some m) (empty : m.gripped = false)
    (fetches : (∃ sp d, o.order = .pick sp d) ∨ ∃ pl d, o.order = .transfer pl d) :
    exec (.gripped o.id) s = .next (s.became (settle (grip m s.part.fresh))) := by
  have live : s.link.resetLow = false := answers.elim (fun flying => flying.1) fun cut => cut.1
  have moving : s.part.fresh.arm.move = some m := move
  have taken : takeGripped o.id s.part.fresh = grip m s.part.fresh := by
    obtain flying | cut := answers
    · rw [takeGripped, fit_flying flying]
      obtain ⟨sp, d, order⟩ | ⟨pl, d, order⟩ := fetches <;> simp only [order, moving, empty] <;> rfl
    · rw [takeGripped, fit_cutShort cut]
      obtain ⟨sp, d, order⟩ | ⟨pl, d, order⟩ := fetches <;> simp only [order, moving, empty] <;> rfl
  rw [gripped_taken live, taken]

/-! ## What leaves the source -/

/-- The disc of the move is lifted from a place onto the arm, and its record leaves the print queue (R49, R153). -/
def liftDisc (m : Move) (pl : Place) (p : Part) : Part :=
  leavePrintQueue m.record
    (((p.setOccupant pl none).setOccupant .arm (some m.record)).modDisc m.record fun d =>
      { d with place := some .arm, eligible := none })

theorem grip_spindle {sp : SpindleId} (source : m.source = .spindle sp) :
    grip m p = modMove (fun m => { m with gripped := true }) (useBlank sp p) := by
  rw [grip, source]

theorem grip_place (source : m.source = .place pl) :
    grip m p = modMove (fun m => { m with gripped := true }) (placeVacated pl (liftDisc m pl p)) := by
  rw [grip, source]
  rfl

/-- What a disc lifted from a place onto the arm leaves (R49, R153). -/
structure Part.Lifts (p : Part) (m : Move) (pl : Place) (q : Part) : Prop where
  printQueue : q.printQueue = p.printQueue.filter (· != m.record)
  disc : q.disc m.record = (p.disc m.record).map fun d => { d with place := some .arm, eligible := none }
  others : OthersKept p.disc q.disc m.record
  left : q.occupant pl = none
  arrived : q.occupant .arm = some m.record
  occupants : ∀ ql, ql ≠ pl → ql ≠ .arm → q.occupant ql = p.occupant ql

theorem liftDisc_changes : p.Changes [.places, .discs, .printQueue] (liftDisc m pl p) :=
  (((setOccupant_changes.andThen setOccupant_changes).andThen modDisc_changes).andThen leavePrintQueue_changes).widen rfl

theorem occupant_congr (same : q.places = p.places) : q.occupant = p.occupant := by
  funext pl
  cases pl <;> simp only [Part.occupant, same]

theorem disc_congr (same : q.discs = p.discs) : q.disc = p.disc := by
  funext r
  simp only [Part.disc, same]

theorem bay_congr (same : q.bays = p.bays) : q.bay = p.bay := by
  funext b
  simp only [Part.bay, same]

theorem setOccupant_disc (pl : Place) (o : Option (Fin 24)) : (p.setOccupant pl o).disc = p.disc :=
  disc_congr (setOccupant_changes .discs (by decide))

theorem liftDisc_lifts (elsewhere : pl ≠ .arm) : p.Lifts m pl (liftDisc m pl p) := by
  let placed := (p.setOccupant pl none).setOccupant .arm (some m.record)
  have places : (liftDisc m pl p).occupant = placed.occupant := rfl
  have discs : placed.disc = p.disc := (setOccupant_disc _ _).trans (setOccupant_disc _ _)
  have queue : placed.printQueue = p.printQueue :=
    (setOccupant_changes .printQueue (by decide)).trans (setOccupant_changes .printQueue (by decide))
  refine ⟨?_, ?_, fun k other => ?_, ?_, ?_, fun ql notSource notArm => ?_⟩
  · exact congrArg (List.filter (· != m.record)) queue
  · show (placed.modDisc m.record _).disc m.record = _
    rw [Part.modDisc, Part.setDisc_self, discs]
  · show (placed.modDisc m.record _).disc k = _
    rw [Part.modDisc, Part.setDisc_other _ _ _ _ other, discs]
  · rw [places, setOccupant_get, if_neg elsewhere, setOccupant_get, if_pos rfl]
  · rw [places, setOccupant_get, if_pos rfl]
  · rw [places, setOccupant_get, if_neg notArm, setOccupant_get, if_neg notSource]

/-- A later change of other fields keeps all that. -/
theorem Part.Lifts.andThen (h : p.Lifts m pl q) {fs : List Field} (later : q.Changes fs u)
    (free : Field.printQueue ∉ fs ∧ Field.discs ∉ fs ∧ Field.places ∉ fs := by decide) : p.Lifts m pl u := by
  obtain ⟨queue, discs, places⟩ := free
  have disc := disc_congr (later .discs discs)
  have occupant := occupant_congr (later .places places)
  exact ⟨(later .printQueue queue).trans h.printQueue, by rw [disc, h.disc], disc ▸ h.others, by rw [occupant, h.left],
    by rw [occupant, h.arrived], fun ql a b => by rw [occupant, h.occupants ql a b]⟩

theorem bayVacated_presenting (presenting : (p.bay b).state = .presenting) : bayVacated b p = emptyBay b p := by
  rw [bayVacated, presenting]

theorem bayVacated_holding (holding : (p.bay b).state = .holding) : bayVacated b p = ejectBay b p := by
  rw [bayVacated, holding]

theorem bayVacated_other (open' : (p.bay b).state ≠ .presenting) (shut : (p.bay b).state ≠ .holding) :
    bayVacated b p = p := by
  unfold bayVacated
  split
  case h_1 is => exact absurd is open'
  case h_2 is => exact absurd is shut
  case h_3 => rfl

/-- What a PRESENTING bay's disc leaves behind when it is taken (R43, R49, R75). -/
theorem grip_bay (source : m.source = .place (.bay b)) (presenting : (p.bay b).state = .presenting) :
    p.Changes [.arm, .attn, .discs, .places, .bays, .printQueue] (grip m p) ∧ p.Lifts m (.bay b) (grip m p) ∧
      (grip m p).arm = { p.arm with move := p.arm.move.map fun m => { m with gripped := true } } ∧
      (grip m p).bay b = (p.bay b).emptied ∧ OthersKept p.bay (grip m p).bay b ∧
      (grip m p).attn = if (p.bay b).consecutiveFailures = 3 then p.attn.raise .bayFault p.now else p.attn := by
  have bays : (liftDisc m (.bay b) p).bay = p.bay := bay_congr (liftDisc_changes .bays (by decide))
  have vacated : placeVacated (.bay b) (liftDisc m (.bay b) p) = emptyBay b (liftDisc m (.bay b) p) :=
    bayVacated_presenting (by rw [bays, presenting])
  have is := (grip_place (p := p) source).trans (congrArg _ vacated)
  rw [is]
  have emptied : (liftDisc m (.bay b) p).Changes [.bays, .attn] (emptyBay b _) := emptyBay_changes
  have moved : (emptyBay b (liftDisc m (.bay b) p)).Changes [.arm] (modMove (fun m => { m with gripped := true }) _) :=
    modMove_changes
  refine ⟨((liftDisc_changes.andThen emptied).andThen moved).widen rfl,
    ((liftDisc_lifts (by simp)).andThen emptied).andThen moved, ?_, ?_, ?_, ?_⟩
  · rw [emptyBay_eq]
    rfl
  · rw [emptyBay_eq, bays]
    exact Part.setBay_self _ _ _
  · intro k other
    rw [emptyBay_eq]
    exact (Part.setBay_other _ _ _ _ other).trans (by rw [bays])
  · rw [emptyBay_eq, bays]
    rfl

theorem modMove_arm (f : Move → Move) : (modMove f p).arm = { p.arm with move := p.arm.move.map f } :=
  rfl

/-- What a disc on the printer's tray leaves behind when it is taken (R49, R156). -/
theorem grip_printer (source : m.source = .place .printer) :
    p.Changes [.arm, .discs, .places, .station, .printQueue] (grip m p) ∧ p.Lifts m .printer (grip m p) ∧
      (grip m p).arm = { p.arm with move := p.arm.move.map fun m => { m with gripped := true } } ∧
      (grip m p).station = if p.station.state = .finished then
        { p.station with state := .empty, faultCause := none } else p.station := by
  rw [grip_place source]
  have emptied : (liftDisc m .printer p).Changes [.station] (placeVacated .printer (liftDisc m .printer p)) :=
    trayVacated_changes
  have moved : (placeVacated .printer (liftDisc m .printer p)).Changes [.arm]
    (modMove (fun m => { m with gripped := true }) _) := modMove_changes
  have station : (liftDisc m .printer p).station = p.station := liftDisc_changes .station (by decide)
  have arm : (placeVacated .printer (liftDisc m .printer p)).arm = p.arm := emptied .arm (by decide)
  refine ⟨((liftDisc_changes.andThen emptied).andThen moved).widen rfl,
    ((liftDisc_lifts (by simp)).andThen emptied).andThen moved, ?_, ?_⟩
  · rw [modMove_arm, arm]
  · show (trayVacated (liftDisc m .printer p)).station = _
    unfold trayVacated
    rw [station]
    split
    · rw [← station]
      rfl
    · exact station

/-- Settles O18: the disc is gripped, from a spindle, a PRESENTING bay or the tray. -/
theorem grippedTakesTheDisc : Obligations.GrippedTakesTheDisc := by
  intro s o m answers move empty
  have gripped : (s.part.fresh.arm.move.map fun m => { m with gripped := true }) = some { m with gripped := true } := by
    rw [show s.part.fresh.arm.move = some m from move]
    rfl
  refine ⟨fun sp d order source => ?_, fun b d order source presenting => ?_, fun d order source => ?_⟩
  · intro x
    refine ⟨_, gripped_grips answers move empty (.inl ⟨sp, d, order⟩), ?_⟩
    rw [grip_spindle source, useBlank_eq]
    refine ⟨fun f hf => ?_, ?_, ?_, fun k other => ?_, rfl⟩
    · cases sp <;> cases f <;> first | rfl | simp at hf
    · rw [modMove_arm]
      cases sp <;> exact congrArg (fun x => { s.part.fresh.arm with move := x }) gripped
    · cases sp <;> rfl
    · cases sp <;> cases k <;> first | rfl | exact absurd rfl other
  · obtain ⟨changes, lifts, arm, bay, bays, attn⟩ := grip_bay (p := s.part.fresh) source presenting
    exact ⟨_, gripped_grips answers move empty (.inr ⟨_, d, order⟩), changes, lifts.printQueue, gripped ▸ arm, lifts.disc,
      lifts.others, lifts.left, lifts.arrived, lifts.occupants, bay, bays, attn⟩
  · obtain ⟨changes, lifts, arm, station⟩ := grip_printer (p := s.part.fresh) source
    exact ⟨_, gripped_grips answers move empty (.inr ⟨_, d, order⟩), changes, lifts.printQueue, gripped ▸ arm, lifts.disc,
      lifts.others, lifts.left, lifts.arrived, fun b => lifts.occupants (.bay b) (by simp) (by simp), station⟩

end Sys2Proof.Machine
end

