-- ==== Sys2Proof/Proofs/DonePlaces.lean ====
section
/-! PROOF. DONE at a bay or on the printer's tray (R3, R4, R49, R68, R74, R154, R167). -/

namespace Sys2Proof.Machine

-- One proof after another: side by side, their threads' stacks pass the check's memory limit.
set_option Elab.async false

variable {p q u : Part} {s : State} {o : ArmOp} {m : Move} {pl : Place} {b : Fin 12} {r : Fin 24} {d : Disc}

/-! ## A record through changes that keep its order -/

/-- From `p` to `q` record `r` has become `d`, every other record and all the orders held are as they were. -/
structure Part.Records (p : Part) (r : Fin 24) (d : Disc) (q : Part) : Prop where
  disc : q.disc r = some d
  others : OthersKept p.disc q.disc r
  ranks : q.eligibleRanks = p.eligibleRanks

theorem Part.Records.refl (held : p.disc r = some d) : p.Records r d p := ⟨held, fun _ _ => rfl, rfl⟩

theorem eligibleRanks_congr (same : q.discs = p.discs) : q.eligibleRanks = p.eligibleRanks := by
  simp only [Part.eligibleRanks, same]

theorem Part.Records.andThen (h : p.Records r d q) {fs : List Field} (later : q.Changes fs u)
    (free : Field.discs ∉ fs := by decide) : p.Records r d u := by
  have discs : u.discs = q.discs := later .discs free
  have disc := disc_congr discs
  exact ⟨disc ▸ h.disc, disc ▸ h.others, (eligibleRanks_congr discs).trans h.ranks⟩

theorem modDisc_disc (f : Disc → Disc) (held : q.disc r = some d) : (q.modDisc r f).disc r = some (f d) := by
  rw [modDisc_held held, Part.setDisc_self]

theorem modDisc_others (f : Disc → Disc) (others : OthersKept p.disc q.disc r) :
    OthersKept p.disc (q.modDisc r f).disc r := fun k other => by
  rw [Part.modDisc, Part.setDisc_other _ _ _ _ other, others k other]

theorem Part.Records.modDisc (h : p.Records r d q) (f : Disc → Disc) (keeps : (f d).eligible = d.eligible) :
    p.Records r (f d) (q.modDisc r f) :=
  ⟨modDisc_disc f h.disc, modDisc_others f h.others, by
    rw [modDisc_held h.disc, eligibleRanks_setDisc h.disc keeps, h.ranks]⟩

theorem Part.Records.setStage (h : p.Records r d q) (st : Stage) : p.Records r (d.atStage st) (setStage r st q) :=
  h.modDisc (·.atStage st) (by rw [Disc.atStage_eq])

theorem Part.Records.stageOf (h : p.Records r d q) : q.stageOf r = some d.stage := by rw [Part.stageOf, h.disc]; rfl

theorem Part.Records.isReject (h : p.Records r d q) : q.isReject r = decide (d.verdict = .reject) := by
  rw [Part.isReject, h.disc]

/-- The order a record holds, or the one it is given: after every order held (R7). -/
def Part.orderFor (p : Part) (d : Disc) : Nat :=
  match d.eligible with
  | some k => k
  | none => nextRank p.eligibleRanks

theorem Part.Records.giveOrder_disc (h : p.Records r d q) :
    (giveOrder r q).disc r = some { d with eligible := some (p.orderFor d) } := by
  rw [giveOrder, modDisc_disc _ h.disc, h.ranks]
  cases eligible : d.eligible <;> simp only [Part.orderFor, eligible]

theorem Part.Records.giveOrder_others (h : p.Records r d q) : OthersKept p.disc (giveOrder r q).disc r :=
  modDisc_others _ h.others

/-! ## The end of the operation -/

/-- The arm with its move ended (R47). -/
def Arm.resting (a : Arm) : Arm := { a with move := none, state := if a.state = .halted then .halted else .idle }

theorem endMove_arm (p : Part) : (endMove p).arm = p.arm.resting := rfl

/-- DONE of an operation that ends so: the disc arrives, and the arm is as after its move's end (R49, R58). -/
theorem done_arrives (answers : s.flying o ∨ s.cutShort o) (move : s.part.arm.move = some m)
    (ends : o.order.endsDone m = true) :
    ∃ a : Arm, a.resting = s.part.arm.ended ∧ exec (.done o.id) s =
      .next (s.became (settle (testAbort (clearArmMark (arrive m { s.part.fresh with arm := a }))))) := by
  have live : s.link.resetLow = false := answers.elim (fun flying => flying.1) fun cut => cut.1
  have moving : s.part.fresh.arm.move = some m := move
  rw [done_taken live, takeDone]
  obtain flying | cut := answers
  · rw [fit_flying flying]
    simp only [moving, ends]
    obtain ⟨-, -, -, uncut, -, -, going⟩ := flying
    refine ⟨{ s.part.arm with op := none, heldInterrupted := false }, ?_, rfl⟩
    rw [Arm.ended, if_pos uncut, Arm.resting, if_neg going]
    rfl
  · rw [fit_cutShort cut]
    simp only [moving, ends]
    refine ⟨s.part.arm, ?_, rfl⟩
    obtain ⟨-, held, -, -⟩ := cut
    rw [Arm.ended, if_neg (by simp [held])]
    rfl

/-! ## The disc put down -/

/-- The disc of the move is put down at a place, and ARM is empty (R49). -/
def putDisc (m : Move) (pl : Place) (p : Part) : Part :=
  ((p.setOccupant .arm none).setOccupant pl (some m.record)).modDisc m.record fun d => { d with place := some pl }

theorem putDisc_changes : p.Changes [.places, .discs] (putDisc m pl p) :=
  ((setOccupant_changes.andThen setOccupant_changes).andThen modDisc_changes).widen rfl

theorem putDisc_records (held : p.disc m.record = some d) :
    p.Records m.record { d with place := some pl } (putDisc m pl p) := by
  have placed : p.Changes [.places] ((p.setOccupant .arm none).setOccupant pl (some m.record)) :=
    (setOccupant_changes.andThen setOccupant_changes).widen rfl
  exact ((Part.Records.refl held).andThen placed).modDisc (fun d => { d with place := some pl }) rfl

/-- A disc stands at its destination, and ARM is empty (R49). -/
structure Part.Arrived (p : Part) (r : Fin 24) (pl : Place) (q : Part) : Prop where
  here : q.occupant pl = some r
  armEmpty : q.occupant .arm = none
  occupants : ∀ ql, ql ≠ pl → ql ≠ .arm → q.occupant ql = p.occupant ql

theorem Part.Arrived.andThen (h : p.Arrived r pl q) {fs : List Field} (later : q.Changes fs u)
    (free : Field.places ∉ fs := by decide) : p.Arrived r pl u := by
  have occupant := occupant_congr (later .places free)
  exact ⟨occupant ▸ h.here, occupant ▸ h.armEmpty, occupant ▸ h.occupants⟩

theorem putDisc_arrived (elsewhere : pl ≠ .arm) : p.Arrived m.record pl (putDisc m pl p) := by
  have placed : p.Arrived m.record pl ((p.setOccupant .arm none).setOccupant pl (some m.record)) := by
    refine ⟨Part.setOccupant_self _ _ _, ?_, fun ql other notArm => ?_⟩
    · rw [setOccupant_get, if_neg (Ne.symm elsewhere), setOccupant_get, if_pos rfl]
    · rw [setOccupant_get, if_neg other, setOccupant_get, if_neg notArm]
  exact placed.andThen modDisc_changes

theorem arrive_bay (dest : m.dest = .bay b) :
    arrive m p = endMove (placedInBay b m.record (putDisc m (.bay b) p)) := by
  rw [arrive, dest]
  rfl

theorem arrive_printer (dest : m.dest = .printer) :
    arrive m p = endMove (placeOnTray m.record (putDisc m .printer p)) := by
  rw [arrive, dest]
  rfl

/-! ## In a bay -/

/-- The record of a disc put in a bay names the bay (R68). -/
def nameBay (b : Fin 12) (r : Fin 24) (p : Part) : Part := p.modDisc r fun d => { d with bay := some b }

theorem Part.Records.nameBay (h : p.Records r d q) (b : Fin 12) :
    p.Records r { d with bay := some b } (nameBay b r q) :=
  h.modDisc (fun d => { d with bay := some b }) rfl

theorem placedInBay_other (notExpecting : (p.bay b).state ≠ .expecting) (shut : (p.bay b).state ≠ .open_) :
    placedInBay b r p = nameBay b r p := by
  have same : ((p.modDisc r fun d => { d with bay := some b }).bay b).state = (p.bay b).state := rfl
  unfold placedInBay
  dsimp only
  rw [same]
  split
  case h_1 is => exact absurd is notExpecting
  case h_2 is => exact absurd is shut
  case h_3 => rfl

theorem placedInBay_takes (state : (p.bay b).state = .expecting ∨ (p.bay b).state = .open_) :
    placedInBay b r p = if (nameBay b r p).isReject r then presentBay b (nameBay b r p) else
      loadBay b ((setStage r .loading (nameBay b r p)).modBay b fun x => { x with loads := min 65535 (x.loads + 1) }) := by
  have same : ((p.modDisc r fun d => { d with bay := some b }).bay b).state = (p.bay b).state := rfl
  unfold placedInBay
  dsimp only
  rw [same]
  obtain expecting | opened := state
  · rw [expecting]
    rfl
  · rw [opened]
    rfl

theorem placedInBay_changes : q.Changes [.discs, .bays, .sent] (placedInBay b r q) := by
  have named : q.Changes [.discs] (nameBay b r q) := modDisc_changes
  by_cases state : (q.bay b).state = .expecting ∨ (q.bay b).state = .open_
  · rw [placedInBay_takes state]
    split
    · exact (named.andThen presentBay_changes).widen rfl
    · exact (((named.andThen setStage_changes).andThen modBay_changes).andThen loadBay_changes).widen rfl
  · rw [not_or] at state
    rw [placedInBay_other state.1 state.2]
    exact named.widen rfl

theorem giveOrder_others : OthersKept p.disc (giveOrder r p).disc r := modDisc_others _ fun _ _ => rfl

/-- The bay that takes a disc touches no other record and no other bay. -/
theorem placedInBay_others (state : (q.bay b).state = .expecting ∨ (q.bay b).state = .open_)
    (occupied : q.occupant (.bay b) = some r) :
    OthersKept q.disc (placedInBay b r q).disc r ∧ OthersKept q.bay (placedInBay b r q).bay b := by
  have named : OthersKept q.disc (nameBay b r q).disc r := modDisc_others _ fun _ _ => rfl
  rw [placedInBay_takes state]
  split
  · have here : (enterBay b .presenting (nameBay b r q)).occupant (.bay b) = some r := occupied
    have is : presentBay b (nameBay b r q) = orderIfDue r (enterBay b .presenting (nameBay b r q)) := by
      simp only [presentBay, here]
    rw [is, orderIfDue]
    have bays : OthersKept q.bay (enterBay b .presenting (nameBay b r q)).bay b := fun k other =>
      Part.setBay_other _ _ _ _ other
    split
    · exact ⟨fun k other => (giveOrder_others k other).trans (named k other), bays⟩
    · exact ⟨named, bays⟩
  · have staged : OthersKept q.disc (setStage r .loading (nameBay b r q)).disc r := modDisc_others _ named
    rw [loadBay_eq]
    exact ⟨staged, fun k other => (Part.setBay_other _ _ _ _ other).trans (Part.setBay_other _ _ _ _ other)⟩

/-- The tray closes over a disc that is not rejected (R68). -/
theorem placedInBay_loads (state : (q.bay b).state = .expecting ∨ (q.bay b).state = .open_) (h : p.Records r d q)
    (kept : d.verdict ≠ .reject) :
    (placedInBay b r q).disc r = some ({ d with bay := some b }.atStage .loading) ∧
      (placedInBay b r q).bay b = { ((q.bay b).enter .closingTray).driven .load (q.now + 20000) with
        loads := min 65535 ((q.bay b).loads + 1) } ∧
      (placedInBay b r q).sent = q.sent ++ [.drive b .load] := by
  have named := h.nameBay b
  have staged := named.setStage .loading
  have unrejected : (nameBay b r q).isReject r = false := by simp [named.isReject, kept]
  rw [placedInBay_takes state, if_neg (by simp [unrejected])]
  have counted := staged.andThen (modBay_changes (b := b) (f := fun x => { x with loads := min 65535 (x.loads + 1) }))
  have loaded := counted.andThen (loadBay_changes (b := b))
  refine ⟨loaded.disc, ?_, ?_⟩
  · rw [loadBay_eq, Part.modBay]
    exact Part.setBay_self _ _ _ |>.trans (by rw [Part.setBay_self]; rfl)
  · rw [loadBay_eq]
    rfl

theorem dueOut_rejectBound (bound : p.stageOf r = some .rejectBound) : p.dueOut r = true := by
  rw [Part.dueOut, bound]

theorem dueOut_outbound (outbound : p.stageOf r = some .outbound) : p.dueOut r = true := by
  rw [Part.dueOut, outbound]

/-- A rejected disc is presented again, its order given (R68, R74). -/
theorem placedInBay_presents (state : (q.bay b).state = .expecting ∨ (q.bay b).state = .open_) (h : p.Records r d q)
    (occupied : q.occupant (.bay b) = some r) (rejected : d.verdict = .reject) (bound : d.stage = .rejectBound) :
    (placedInBay b r q).disc r = some { d with bay := some b, eligible := some (p.orderFor d) } ∧
      (placedInBay b r q).bay b = (q.bay b).enter .presenting ∧ (placedInBay b r q).sent = q.sent := by
  have named := h.nameBay b
  have entered := named.andThen (enterBay_changes (b := b) (st := .presenting))
  have here : (enterBay b .presenting (nameBay b r q)).occupant (.bay b) = some r := occupied
  have due : (enterBay b .presenting (nameBay b r q)).dueOut r = true :=
    dueOut_rejectBound (entered.stageOf.trans (congrArg some bound))
  have presented : presentBay b (nameBay b r q) = giveOrder r (enterBay b .presenting (nameBay b r q)) := by
    simp only [presentBay, here, orderIfDue, due, if_true]
  rw [placedInBay_takes state, if_pos (by simp [named.isReject, rejected]), presented]
  exact ⟨entered.giveOrder_disc, Part.setBay_self _ _ _, rfl⟩

/-! ## On the printer's tray -/

theorem placeOnTray_others (occupied : q.occupant .printer = some r) : OthersKept q.disc (placeOnTray r q).disc r := by
  have staged : ∀ st, OthersKept q.disc (setStage r st q).disc r := fun _ => modDisc_others _ fun _ _ => rfl
  unfold placeOnTray
  split
  · dsimp only
    split
    · exact staged _
    · have here : (enterStation .finished (setStage r .rejectBound q)).occupant .printer = some r := occupied
      rw [finishStation]
      simp only [here]
      split
      · exact staged _
      · exact fun k other => (giveOrder_others k other).trans (staged _ k other)
  · dsimp only
    split
    · exact staged _
    · exact staged _

/-- A disc that is not rejected is to be labelled (R154). -/
theorem placeOnTray_loads (h : p.Records r d q) (kept : d.verdict ≠ .reject) :
    (placeOnTray r q).disc r = some (d.atStage .printing) ∧
      (placeOnTray r q).station = if q.station.state = .fault then q.station
        else { q.station with state := .loaded, faultCause := none } := by
  have staged := h.setStage .printing
  have unrejected : q.isReject r = false := by simp [h.isReject, kept]
  have station : (setStage r .printing q).station = q.station := rfl
  unfold placeOnTray
  rw [if_neg (by simp [unrejected])]
  dsimp only
  rw [station]
  split
  · exact ⟨staged.disc, station⟩
  · exact ⟨staged.disc, rfl⟩

/-- A rejected disc is at once FINISHED and given its order, but not on the tray of a FAULT station (R154; log 21). -/
theorem placeOnTray_rejected (h : p.Records r d q) (occupied : q.occupant .printer = some r)
    (rejected : d.verdict = .reject) (active : d.stage.active = true) :
    (q.station.state ≠ .fault →
        (placeOnTray r q).disc r = some { d with stage := .rejectBound, eligible := some (p.orderFor d) } ∧
        (placeOnTray r q).station = { q.station with state := .finished, faultCause := none }) ∧
      (q.station.state = .fault → (placeOnTray r q).disc r = some { d with stage := .rejectBound } ∧
        (placeOnTray r q).station = q.station) := by
  have accepts : d.atStage .rejectBound = { d with stage := .rejectBound } :=
    Disc.atStage_accepted (by revert active; cases d.stage <;> decide)
  have staged := accepts ▸ h.setStage .rejectBound
  have station : (setStage r .rejectBound q).station = q.station := rfl
  have is : placeOnTray r q = if q.station.state = .fault then setStage r .rejectBound q
      else finishStation (setStage r .rejectBound q) := by
    rw [placeOnTray, if_pos (by simp [h.isReject, rejected])]
    rfl
  rw [is]
  split
  case isTrue fault =>
    exact ⟨fun working => absurd fault working, fun _ => ⟨staged.disc, station⟩⟩
  case isFalse working =>
    have entered := staged.andThen (enterStation_changes (st := .finished))
    have here : (enterStation .finished (setStage r .rejectBound q)).occupant .printer = some r := occupied
    have finished : finishStation (setStage r .rejectBound q) =
        giveOrder r (enterStation .finished (setStage r .rejectBound q)) := by
      simp only [finishStation, here, entered.stageOf]
      rfl
    rw [finished]
    exact ⟨fun _ => ⟨entered.giveOrder_disc, rfl⟩, fun fault => absurd fault working⟩

/-! ## The obligation -/

/-- Tower control with the sweep's arm mark clear (R167). -/
def Tower.armUnmarked (t : Tower) : Tower := { t with sweep := t.sweep.map fun w => { w with armMark := false } }

/-- The move's end and the arm's mark, after the disc is placed. -/
def armDone (p : Part) : Part := clearArmMark (endMove p)

theorem armDone_changes : p.Changes [.arm, .tower] (armDone p) := (endMove_changes.andThen clearArmMark_changes).widen rfl

theorem armDone_arm : (armDone p).arm = p.arm.resting := rfl

theorem armDone_tower : (armDone p).tower = p.tower.armUnmarked := rfl

/-- What the move's end gives, whatever the disc's placing did outside the arm and the tower. -/
theorem armDone_ends {a a' : Arm} {fs : List Field} (resting : a.resting = a') (placed : Part.Changes { p with arm := a } fs q)
    (free : Field.arm ∉ fs ∧ Field.tower ∉ fs) : (armDone q).arm = a' ∧ (armDone q).tower = p.tower.armUnmarked := by
  obtain ⟨arm, tower⟩ := free
  rw [armDone_arm, armDone_tower, placed .arm arm, placed .tower tower]
  exact ⟨resting, rfl⟩

/-- Settles O19: the disc is put down, the owner of the place acts, and the move ends. -/
theorem donePlacesTheDisc : Obligations.DonePlacesTheDisc := by
  intro s o m d answers move ends held order tower
  obtain ⟨a, resting, exec⟩ := done_arrives answers move ends
  let p : Part := { s.part.fresh with arm := a }
  have fresh : s.part.fresh.Changes [.arm] p := arm_changes
  have put : ∀ pl, p.Records m.record { d with place := some pl } (putDisc m pl p) := fun _ => putDisc_records held
  have placed : ∀ pl, p.Changes [.places, .discs] (putDisc m pl p) := fun _ => putDisc_changes
  have fromPut : ∀ pl {q : Part}, OthersKept (putDisc m pl p).disc q.disc m.record → OthersKept s.part.disc q.disc m.record :=
    fun pl q kept k other => (kept k other).trans ((put pl).others k other)
  refine ⟨fun b dest state => ?_, fun b dest notExpecting shut => ?_, fun dest => ?_⟩
  · have arrived : p.Arrived m.record (.bay b) (putDisc m (.bay b) p) := putDisc_arrived (by simp)
    have changes : (putDisc m (.bay b) p).Changes _ (placedInBay b m.record (putDisc m (.bay b) p)) := placedInBay_changes
    have all := (placed (.bay b)).andThen changes
    obtain ⟨arm, tower⟩ := armDone_ends resting all (by decide)
    obtain ⟨others, bays⟩ := placedInBay_others (q := putDisc m (.bay b) p) state arrived.here
    have loads := placedInBay_loads (q := putDisc m (.bay b) p) state (put (.bay b))
    have presents := placedInBay_presents (q := putDisc m (.bay b) p) state (put (.bay b)) arrived.here
    have bay : (putDisc m (.bay b) p).bay = s.part.bay := rfl
    have sent : (putDisc m (.bay b) p).sent = [] := rfl
    have now : (putDisc m (.bay b) p).now = s.part.now := rfl
    have ranks : p.eligibleRanks = s.part.eligibleRanks := rfl
    rw [bay, sent, now] at loads
    rw [bay, sent, Part.orderFor, ranks] at presents
    have arrived := arrived.andThen changes
    rw [exec, arrive_bay dest]
    have others := fromPut _ others
    clear fromPut placed put
    generalize placedInBay b m.record (putDisc m (.bay b) p) = q at *
    have arrived := arrived.andThen armDone_changes
    exact ⟨armDone q, rfl, ((fresh.andThen all).andThen armDone_changes).widen rfl, arm, tower, others, bays,
      arrived.here, arrived.armEmpty, arrived.occupants, loads, presents⟩
  · have arrived : p.Arrived m.record (.bay b) (putDisc m (.bay b) p) := putDisc_arrived (by simp)
    have changes : (putDisc m (.bay b) p).Changes [.discs] (nameBay b m.record (putDisc m (.bay b) p)) := modDisc_changes
    have all := (placed (.bay b)).andThen changes
    obtain ⟨arm, tower⟩ := armDone_ends resting all (by decide)
    have arrived := (arrived.andThen changes).andThen armDone_changes
    have named := (put (.bay b)).nameBay b
    rw [exec, arrive_bay dest, placedInBay_other (p := putDisc m (.bay b) p) notExpecting shut]
    exact ⟨_, rfl, ((fresh.andThen all).andThen armDone_changes).widen rfl, arm, tower, named.disc, named.others,
      arrived.here, arrived.armEmpty, arrived.occupants⟩
  · have arrived : p.Arrived m.record .printer (putDisc m .printer p) := putDisc_arrived (by simp)
    have changes : (putDisc m .printer p).Changes _ (placeOnTray m.record (putDisc m .printer p)) := placeOnTray_changes
    have all := (placed .printer).andThen changes
    obtain ⟨arm, tower⟩ := armDone_ends resting all (by decide)
    have others := placeOnTray_others arrived.here
    have loads := placeOnTray_loads (put .printer)
    have rejects := placeOnTray_rejected (put .printer) arrived.here
    have station : (putDisc m .printer p).station = s.part.station := rfl
    have ranks : p.eligibleRanks = s.part.eligibleRanks := rfl
    rw [station] at loads
    rw [station, Part.orderFor, ranks] at rejects
    have arrived := arrived.andThen changes
    rw [exec, arrive_printer dest]
    have others := fromPut _ others
    clear fromPut placed put
    generalize placeOnTray m.record (putDisc m .printer p) = q at *
    have arrived := arrived.andThen armDone_changes
    exact ⟨armDone q, rfl, ((fresh.andThen all).andThen armDone_changes).widen rfl, arm, tower, others, arrived.here,
      arrived.armEmpty, fun b => arrived.occupants (.bay b) (by simp) (by simp), loads,
      fun rejected active working => (rejects rejected active).1 working,
      fun rejected active fault => (rejects rejected active).2 fault⟩

end Sys2Proof.Machine
end

