-- ==== Sys2Proof/Proofs/DoneDrops.lean ====
section
/-! PROOF. DONE at OUTPUT and at the REJECT BIN (R9, R12, R14, R15, R32 to R34, R45, R49, R152). -/

namespace Sys2Proof.Machine

-- One proof after another: side by side, their threads' stacks pass the check's memory limit.
set_option Elab.async false

variable {p q u : Part} {s : State} {o : ArmOp} {m : Move} {r k : Fin 24} {x : Fin 16} {d e : Disc} {c : Bool} {n : Nat}

/-! ## The records held -/

/-- The same records are held. -/
def Part.SameHeld (p q : Part) : Prop := ∀ k, (q.disc k).isSome = (p.disc k).isSome

theorem Part.SameHeld.refl (p : Part) : p.SameHeld p := fun _ => rfl

theorem Part.SameHeld.trans (h : p.SameHeld q) (h' : q.SameHeld u) : p.SameHeld u := fun k => (h' k).trans (h k)

theorem Part.Changes.sameHeld {fs : List Field} (h : p.Changes fs q) (free : Field.discs ∉ fs := by decide) :
    p.SameHeld q := fun k => by rw [disc_congr (h .discs free)]

theorem modDisc_sameHeld {f : Disc → Disc} : p.SameHeld (p.modDisc r f) := fun k => by
  by_cases same : k = r
  · rw [same, Part.modDisc, Part.setDisc_self, Option.isSome_map]
  · rw [Part.modDisc, Part.setDisc_other _ _ _ _ same]

theorem leaveInkWait_sameHeld : p.SameHeld (leaveInkWait r p) := leaveInkWait_changes.sameHeld

theorem attemptReservation_sameHeld : p.SameHeld (attemptReservation r p) := by
  unfold attemptReservation
  split
  · exact .refl p
  · split
    · dsimp only
      have reserved : ∀ v, p.SameHeld (reserve r v p) := fun v => eachInk_changes.sameHeld.trans modDisc_sameHeld
      exact ((reserved _).trans leaveInkWait_sameHeld).trans (printQueue_changes.sameHeld.trans modDisc_sameHeld)
    · exact .refl p

theorem retryPass_sameHeld : p.SameHeld (retryPass p) := by
  unfold retryPass
  generalize p.inkWait = l
  induction l generalizing p with
  | nil => exact .refl p
  | cons k l ih => exact attemptReservation_sameHeld.trans ih

theorem release_sameHeld : p.SameHeld (release r p) := by
  unfold release
  split
  · refine .trans ?_ retryPass_sameHeld
    unfold unreserve
    split
    · exact .refl p
    · split
      · exact .refl p
      · exact eachInk_changes.sameHeld.trans modDisc_sameHeld
  · exact .refl p

theorem leaveLabelUnit_sameHeld : p.SameHeld (leaveLabelUnit r p) :=
  (leaveInkWait_sameHeld.trans leavePrintQueue_changes.sameHeld).trans release_sameHeld

theorem lowestFree_congr (same : p.SameHeld q) : q.lowestFree = p.lowestFree := by
  unfold Part.lowestFree
  congr 1
  funext k
  rw [← Option.not_isSome, ← Option.not_isSome, same k]

/-! ## A delivery -/

theorem tellDelivered_jobs (a : Attention) (job : Option (Fin 16)) :
    (tellDelivered c job { p with attn := a }).jobs = (tellDelivered c job p).jobs := by
  cases job with
  | none => rfl
  | some x =>
    show (jobDelivered x c { p with attn := a }).jobs = (jobDelivered x c p).jobs
    cases held : p.job x with
    | none => rw [jobDelivered_none held, jobDelivered_none (p := { p with attn := a }) held]
    | some j =>
      rw [jobDelivered_held held, jobDelivered_held (p := { p with attn := a }) held]
      unfold Part.closes
      repeat' split
      all_goals rfl

/-- A delivery's finalisation: the job is told, the record stands DELIVERED or is freed (R14, R15). -/
theorem finaliseDelivered_ends (held : p.disc r = some d) :
    (finaliseDelivered r p).jobs = (tellDelivered d.unlabelled d.job p).jobs ∧
      (finaliseDelivered r p).attn = (tellDelivered d.unlabelled d.job p).attn ∧
      p.Retires r { d with stage := .delivered, place := none, eligible := none } (finaliseDelivered r p) := by
  let placed := p.modDisc r fun d => { d with stage := .delivered, place := none, eligible := none }
  let told := tellDelivered d.unlabelled d.job placed
  have is : finaliseDelivered r p = autoRetire r told := by
    rw [finaliseDelivered, held]
    simp only [told, tellDelivered, tellJob]
    cases d.job <;> rfl
  have jobs : p.SameJobs placed := ⟨rfl, rfl, rfl⟩
  have same := jobs.tellJob (fun x => jobs.jobDelivered x d.unlabelled) d.job
  have told_changes : placed.Changes _ told := tellDelivered_changes
  have disc : told.disc = placed.disc := disc_congr (told_changes .discs (by decide))
  have standing : told.disc r = some { d with stage := .delivered, place := none, eligible := none } :=
    disc ▸ modDisc_disc (fun d => { d with stage := .delivered, place := none, eligible := none }) held
  have retires := autoRetire_retires standing
  have tower : told.tower = p.tower := told_changes .tower (by decide)
  have spell : told.heldSpell = p.heldSpell := told_changes .heldSpell (by decide)
  have retired := autoRetire_changes (r := r) (p := told)
  rw [is]
  refine ⟨(retired .jobs (by decide)).trans same.jobs, (retired .attn (by decide)).trans same.attn, ?_, ?_, ?_⟩
  · rw [retires.disc, tower]
  · exact fun k other => (retires.others k other).trans (disc ▸ Part.setDisc_other _ _ _ _ other)
  · rw [retires.heldSpell, tower, spell]

/-! ## The pair's second disc -/

/-- The EXTRA record's fields (R12). -/
def Disc.extra : Disc := { Disc.fresh .rejected .reject with reason := some .extraDisc }

theorem createExtra_full (full : p.lowestFree = none) : createExtra p = raise .discRejected p := by
  rw [createExtra, full]

theorem createExtra_free (free : p.lowestFree = some r) :
    createExtra p = autoRetire r (raise .discRejected (p.setDisc r (some .extra))) := by
  rw [createExtra, free]
  rfl

theorem lowestFree_free (free : p.lowestFree = some r) : p.disc r = none :=
  Option.isNone_iff_eq_none.1 (List.find?_some (p := fun k => (p.disc k).isNone) free)

theorem setDisc_setDisc (a b : Option Disc) : (p.setDisc r a).setDisc r b = p.setDisc r b := by
  simp [Part.setDisc]

/-- With auto-retire on, the EXTRA record is free again at once (R12, R15). -/
theorem createExtra_retired (retire : p.tower.autoRetire = true) (free : p.lowestFree = some r) :
    (createExtra p).discs = p.discs ∧
      (createExtra p).heldSpell = if 2 ≤ (createExtra p).freeCount then false else p.heldSpell := by
  have is : createExtra p = freeRecord r (raise .discRejected (p.setDisc r (some .extra))) := by
    rw [createExtra_free free]
    exact if_pos retire
  rw [is]
  refine ⟨?_, freeRecord_heldSpell⟩
  show ((p.setDisc r (some .extra)).setDisc r none).discs = p.discs
  rw [setDisc_setDisc, setDisc_same (lowestFree_free free)]

theorem createExtra_attn : (createExtra p).attn = p.attn.raise .discRejected p.now := by
  cases free : p.lowestFree with
  | none => rw [createExtra_full free]; rfl
  | some r => rw [createExtra_free free]; exact autoRetire_changes .attn (by decide)

/-- A pair's end with no EXTRA record left is its lower disc's alone. -/
theorem Part.EndsRejected.extraGone {told : Part → Part} (h : p.EndsRejected u r e told q) (tower : q.tower = p.tower)
    (gone : q.tower.autoRetire = true ∨ q.lowestFree = none) : p.EndsRejected u r e told (createExtra q) := by
  cases free : q.lowestFree with
  | none => exact createExtra_full free ▸ h.andThen raise_changes
  | some k =>
    have retire : q.tower.autoRetire = true := gone.resolve_right (by simp [free])
    obtain ⟨discs, spell⟩ := createExtra_retired retire free
    have changes := createExtra_changes (p := q)
    have disc := disc_congr discs
    refine ⟨(changes .jobs (by decide)).trans h.jobs, (changes .ink (by decide)).trans h.ink,
      (changes .inkWait (by decide)).trans h.inkWait, (changes .printQueue (by decide)).trans h.printQueue,
      disc ▸ h.disc, disc ▸ h.others, ?_⟩
    rw [spell, h.heldSpell, freeCount_congr discs]
    simp only [← tower, retire, true_and]
    split <;> rfl

/-- With auto-retire off the EXTRA record stands beside the pair's lower disc (R12). -/
theorem Part.EndsRejected.extraStands {told : Part → Part} (h : p.EndsRejected u r e told q) (tower : q.tower = p.tower)
    (kept : q.tower.autoRetire = false) (free : q.lowestFree = some k) :
    p.EndsRejected (u.setDisc k (some .extra)) r e (fun _ => told u) (createExtra q) ∧ k ≠ r := by
  have is : createExtra q = raise .discRejected (q.setDisc k (some .extra)) := by
    rw [createExtra_free free]
    exact autoRetire_off (p := raise .discRejected (q.setDisc k (some .extra))) kept k
  have stands : p.tower.autoRetire = false := tower ▸ kept
  have other : k ≠ r := by
    rintro rfl
    have := h.disc
    simp [lowestFree_free free, stands] at this
  have disc : ∀ l, (createExtra q).disc l = (q.setDisc k (some .extra)).disc l := fun l => by rw [is]; rfl
  refine ⟨⟨?_, ?_, ?_, ?_, ?_, fun l notRecord => ?_, ?_⟩, other⟩
  · rw [is]; exact h.jobs
  · rw [is]; exact h.ink
  · rw [is]; exact h.inkWait
  · rw [is]; exact h.printQueue
  · rw [disc, Part.setDisc_other _ _ _ _ (Ne.symm other), h.disc]
  · rw [disc]
    by_cases same : l = k
    · rw [same, Part.setDisc_self, Part.setDisc_self]
    · rw [Part.setDisc_other _ _ _ _ same, Part.setDisc_other _ _ _ _ same, h.others l notRecord]
  · rw [is]
    simpa [stands] using h.heldSpell

/-! ## At a sink -/

/-- What has left ARM, however the record ends. -/
structure Part.Landed (p q : Part) : Prop where
  armEmpty : q.occupant .arm = none
  occupants : ∀ pl, pl ≠ .arm → q.occupant pl = p.occupant pl

theorem armLeft_landed {fs : List Field} (later : (p.setOccupant .arm none).Changes fs q)
    (free : Field.places ∉ fs := by decide) : p.Landed q := by
  have occupant := occupant_congr (later .places free)
  exact ⟨occupant ▸ Part.setOccupant_self _ _ _, fun pl other => by rw [occupant, setOccupant_get, if_neg other]⟩

theorem arrive_output (dest : m.dest = .output) :
    arrive m p = endMove (finaliseDropped m.record (addOutput 1 (p.setOccupant .arm none))) := by
  rw [arrive, dest]

theorem arrive_bin (dest : m.dest = .bin) (single : m.feed.isPair = false) :
    arrive m p = endMove (finaliseReject m.record (addBin 1 (p.setOccupant .arm none))) := by
  simp only [arrive, dest, single]
  rfl

theorem arrive_binPair (dest : m.dest = .bin) (pair : m.feed.isPair = true) :
    arrive m p = endMove (createExtra (finaliseReject m.record (addBin 2 (p.setOccupant .arm none)))) := by
  simp only [arrive, dest, pair]
  rfl

/-- The finalisation of a rejected disc once it has left the arm, seen from the part before (R14). -/
theorem landed_ends {fs : List Field} (changes : p.Changes fs q) (held : p.disc r = some d)
    (free : [Field.jobs, .ink, .inkWait, .printQueue, .templates, .discs].all (· ∉ fs) = true := by rfl)
    (settled : Field.now ∉ fs ∧ Field.tower ∉ fs ∧ Field.heldSpell ∉ fs ∧ Field.discs ∉ fs := by decide) :
    p.EndsRejected (leaveLabelUnit r p) r d (tellRejected d.counts d.job) (finaliseReject r q) ∧
      (finaliseReject r q).attn = (tellRejected d.counts d.job { leaveLabelUnit r p with attn := q.attn }).attn := by
  obtain ⟨now, tower, spell, discs⟩ := settled
  obtain ⟨ends, attn⟩ := finaliseReject_ends (changes.alike r free) (changes .now now)
    ((congrFun (disc_congr (changes .discs discs)) r).trans held)
  exact ⟨ends.of (by rw [changes .tower tower]) (changes .heldSpell spell).symm, attn⟩

/-- Settles O20: the sink counts, the record ends with its job told, and the move ends. -/
theorem doneDropsTheDisc : Obligations.DoneDropsTheDisc := by
  intro s o m d answers move ends held retire sink tower landed counts told u rejected
  obtain ⟨a, resting, exec⟩ := done_arrives answers move ends
  let p : Part := { s.part.fresh with arm := a }
  have fresh : s.part.fresh.Changes [.arm] p := arm_changes
  have left : s.part.fresh.Changes [.arm, .places] (p.setOccupant .arm none) :=
    (fresh.andThen setOccupant_changes).widen rfl
  -- The end of a rejected disc at either sink.
  have rejects : ∀ {u' q : Part} {told' : Part → Part}, s.part.EndsRejected u' m.record d told' q →
      u'.ink = u.ink ∧ u'.inkWait = u.inkWait ∧ u'.printQueue = u.printQueue ∧ (told' u').jobs = (told u).jobs →
      p.Landed q → q.tower = s.part.tower → q.arm = a → rejected (armDone q) := by
    rintro u' q told' ended ⟨ink, inkWait, printQueue, jobs⟩ landed tower arm
    have ended := ended.andThen (armDone_changes (p := q))
    have occupant : (armDone q).occupant = q.occupant := rfl
    have before : p.occupant = s.part.occupant := occupant_congr rfl
    refine ⟨⟨ended.disc, ended.heldSpell, occupant ▸ landed.armEmpty, before ▸ occupant ▸ landed.occupants, ?_, ?_⟩, ended.ink.trans ink,
      ended.inkWait.trans inkWait, ended.printQueue.trans printQueue, ended.jobs.trans jobs⟩
    · rw [armDone_arm, arm, resting]
    · rw [armDone_tower, tower]
      rfl
  have out : ∃ q, addOutput 1 (p.setOccupant .arm none) = q ∧ (p.setOccupant .arm none).Changes [.output, .attn] q ∧
      q.output = { s.part.output with count := s.part.output.count + 1 } ∧ q.attn = sink s.part.output 1 .outputFull :=
    ⟨_, rfl, addOutput_changes, by rw [addOutput_eq]; rfl, by rw [addOutput_eq]; rfl⟩
  have bin : ∀ n, ∃ q, addBin n (p.setOccupant .arm none) = q ∧ (p.setOccupant .arm none).Changes [.bin, .attn] q ∧
      q.bin = { s.part.bin with count := s.part.bin.count + n } ∧ q.attn = sink s.part.bin n .rejectFull :=
    fun n => ⟨_, rfl, addBin_changes, by rw [addBin_eq]; rfl, by rw [addBin_eq]; rfl⟩
  have start : s.part.Changes [.sent] s.part.fresh := fun f notSent => by cases f <;> first | rfl | simp at notSent
  refine ⟨?_, ?_, ?_, ?_⟩
  · intro dest kept given
    obtain ⟨q, is, added, output, attn⟩ := out
    have discs : q.disc = s.part.disc := disc_congr (added .discs (by decide))
    have here : q.disc m.record = some d := discs ▸ held
    have unrejected : q.isReject m.record = false := by simp [Part.isReject, here, kept]
    obtain ⟨jobs, raised, ended⟩ := finaliseDelivered_ends here
    have final := finaliseDelivered_changes (r := m.record) (p := q)
    have alike : Part.SameJobs { s.part with attn := sink s.part.output 1 .outputFull } q :=
      ⟨added .jobs (by decide), attn, added .now (by decide)⟩
    have same := alike.tellJob (fun x => alike.jobDelivered x d.unlabelled) d.job
    have tower' : q.tower = s.part.tower := added .tower (by decide)
    have spell : q.heldSpell = s.part.heldSpell := added .heldSpell (by decide)
    have landed' := armLeft_landed (added.andThen final)
    rw [exec, arrive_output dest, is, finaliseDropped, unrejected]
    refine ⟨armDone (finaliseDelivered m.record q), rfl,
      (((left.andThen added).andThen final).andThen armDone_changes).widen rfl, ?_, (final .output (by decide)).trans output,
      raised.trans same.attn, ⟨?_, ?_, landed'.armEmpty, landed'.occupants, ?_, ?_⟩, discs ▸ ended.others⟩
    · exact jobs.trans (same.jobs.trans (tellDelivered_jobs _ _))
    · exact ended.disc.trans (by rw [tower']; rfl)
    · exact ended.heldSpell.trans (by rw [tower', spell]; rfl)
    · rw [armDone_arm, final .arm (by decide), added .arm (by decide)]
      exact resting
    · rw [armDone_tower, final .tower (by decide), tower']
      rfl
  · intro dest reject
    obtain ⟨q, is, added, output, attn⟩ := out
    have changes := (start.andThen left).andThen added
    obtain ⟨ended, raised⟩ := landed_ends changes held
    have final := finaliseReject_changes (r := m.record) (p := q)
    have rejected' : q.isReject m.record = true := by
      simp [Part.isReject, (congrFun (disc_congr (changes .discs (by decide))) m.record).trans held, reject]
    rw [exec, arrive_output dest, is, finaliseDropped, rejected']
    exact ⟨armDone (finaliseReject m.record q), rfl,
      (((left.andThen added).andThen final).andThen armDone_changes).widen rfl,
      (final .output (by decide)).trans output, attn ▸ raised,
      rejects ended ⟨rfl, rfl, rfl, rfl⟩ (armLeft_landed (added.andThen final)) (final .tower (by decide) |>.trans (added .tower (by decide)))
        (final .arm (by decide) |>.trans (added .arm (by decide))), ended.others⟩
  · intro dest single
    obtain ⟨q, is, added, count, attn⟩ := bin 1
    have changes := (start.andThen left).andThen added
    obtain ⟨ended, raised⟩ := landed_ends changes held
    have final := finaliseReject_changes (r := m.record) (p := q)
    rw [exec, arrive_bin dest single, is]
    exact ⟨armDone (finaliseReject m.record q), rfl, (((left.andThen added).andThen final).andThen armDone_changes).widen rfl,
      (final .bin (by decide)).trans count, attn ▸ raised,
      rejects ended ⟨rfl, rfl, rfl, rfl⟩ (armLeft_landed (added.andThen final)) (final .tower (by decide) |>.trans (added .tower (by decide)))
        (final .arm (by decide) |>.trans (added .arm (by decide))), ended.others⟩
  · intro dest pair
    obtain ⟨q, is, added, count, attn⟩ := bin 2
    have changes := (start.andThen left).andThen added
    obtain ⟨ended, raised⟩ := landed_ends changes held
    have final := (finaliseReject_changes (r := m.record) (p := q)).andThen createExtra_changes
    have tower' : (finaliseReject m.record q).tower = s.part.tower :=
      (finaliseReject_changes .tower (by decide)).trans (changes .tower (by decide))
    have now' : (finaliseReject m.record q).now = s.part.now :=
      (finaliseReject_changes .now (by decide)).trans (changes .now (by decide))
    have lowest : s.part.tower.autoRetire = false → (finaliseReject m.record q).lowestFree = s.part.lowestFree := fun off =>
      lowestFree_congr fun k => by
        by_cases same : k = m.record
        · rw [same, ended.disc, if_neg (by simp [off]), held]
          rfl
        · rw [ended.others k same]
          exact leaveLabelUnit_sameHeld k
    have landed' := armLeft_landed (added.andThen final)
    have arm' := (final .arm (by decide)).trans (added .arm (by decide))
    have tower'' := (final .tower (by decide)).trans (added .tower (by decide))
    rw [exec, arrive_binPair dest pair, is]
    refine ⟨armDone (createExtra (finaliseReject m.record q)), rfl,
      (((left.andThen added).andThen final).andThen armDone_changes).widen rfl, (final .bin (by decide)).trans count,
      ?_, ?_, ?_, ?_⟩
    · exact createExtra_attn.trans (by rw [raised, attn, now']; rfl)
    · by_cases gone : (finaliseReject m.record q).tower.autoRetire = true ∨ (finaliseReject m.record q).lowestFree = none
      · exact rejects (ended.extraGone tower' gone) ⟨rfl, rfl, rfl, rfl⟩ landed' tower'' arm'
      · simp only [not_or, Bool.not_eq_true] at gone
        obtain ⟨e, free⟩ := Option.ne_none_iff_exists'.1 gone.2
        exact rejects (ended.extraStands tower' gone.1 free).1 ⟨rfl, rfl, rfl, rfl⟩ landed' tower'' arm'
    · intro gone
      refine (ended.extraGone tower' ?_).others
      cases on : s.part.tower.autoRetire with
      | true => exact .inl (by rw [tower', on])
      | false => exact .inr ((lowest on).trans (gone.resolve_left (by simp [retire, on])))
    · intro e off free
      have standing := (ended.extraStands tower' (by rw [tower']; exact off) ((lowest off).trans free)).1
      have other := (ended.extraStands tower' (by rw [tower']; exact off) ((lowest off).trans free)).2
      exact ⟨(standing.others e other).trans (Part.setDisc_self _ _ _),
        fun r notRecord notExtra => (standing.others r notRecord).trans (Part.setDisc_other _ _ _ _ notExtra)⟩

end Sys2Proof.Machine
end

