-- ==== Sys2Proof/Proofs/MoveEnds.lean ====
section
/-! PROOF. How a move ends without its disc's arrival: a pick withdrawn, a disc lost, a transfer that found none
(R10, R14, R15, R51, R55, R60, R75, R152, R156). -/

namespace Sys2Proof.Machine

-- One proof after another: side by side, their threads' stacks pass the check's memory limit.
set_option Elab.async false

variable {p q u p₀ : Part} {s : State} {o : ArmOp} {m : Move} {pl : Place} {b : Fin 12} {r k : Fin 24} {x : Fin 16}
  {d : Disc} {a : Attention}

/-! ## A record out of the label unit's lists -/

theorem attemptReservation_unqueued (unqueued : r ∉ p.printQueue) (other : r ≠ k) :
    r ∉ (attemptReservation k p).printQueue := by
  unfold attemptReservation
  split
  · exact unqueued
  · split
    case isTrue =>
      dsimp only
      have left : ∀ v, (leaveInkWait k (reserve k v p)).printQueue = p.printQueue := fun v =>
        (leaveInkWait_changes .printQueue (by decide)).trans (reserve_changes .printQueue (by decide))
      show r ∉ (leaveInkWait k (reserve k _ p)).printQueue ++ [k]
      simp [left, unqueued, other]
    case isFalse => exact unqueued

theorem retryPass_unqueued (unwaiting : r ∉ p.inkWait) (unqueued : r ∉ p.printQueue) : r ∉ (retryPass p).printQueue := by
  unfold retryPass
  generalize p.inkWait = l at unwaiting ⊢
  induction l generalizing p with
  | nil => exact unqueued
  | cons k l ih =>
    rw [List.mem_cons, not_or] at unwaiting
    exact ih (attemptReservation_unqueued unqueued unwaiting.1) unwaiting.2

theorem release_unqueued (unwaiting : r ∉ p.inkWait) (unqueued : r ∉ p.printQueue) : r ∉ (release k p).printQueue := by
  unfold release
  split
  · have same := unreserve_changes (r := k) (p := p)
    exact retryPass_unqueued (same .inkWait (by decide) ▸ unwaiting) (same .printQueue (by decide) ▸ unqueued)
  · exact unqueued

/-- A record out of both lists, its reservation released: it holds nothing of the label unit's (R148, R152). -/
structure Part.Unlisted (p : Part) (r : Fin 24) : Prop where
  unwaiting : r ∉ p.inkWait
  unqueued : r ∉ p.printQueue

theorem Part.Unlisted.release (h : p.Unlisted r) : (release r p).Unlisted r :=
  ⟨release_absent h.unwaiting, release_unqueued h.unwaiting h.unqueued⟩

theorem Part.Unlisted.andThen (h : p.Unlisted r) {fs : List Field} (later : p.Changes fs q)
    (free : Field.inkWait ∉ fs ∧ Field.printQueue ∉ fs := by decide) : q.Unlisted r :=
  ⟨later .inkWait free.1 ▸ h.unwaiting, later .printQueue free.2 ▸ h.unqueued⟩

/-- Once released, it leaves nothing more. -/
theorem Part.Unlisted.released {fs : List Field} (h : p.Unlisted r) (later : (Machine.release r p).Changes fs q)
    (free : Field.inkWait ∉ fs ∧ Field.printQueue ∉ fs ∧ Field.discs ∉ fs := by decide) : leaveLabelUnit r q = q := by
  obtain ⟨inkWait, printQueue, discs⟩ := free
  refine leaveLabelUnit_absent (fun d held => ?_) (later .inkWait inkWait ▸ h.release.unwaiting)
    (later .printQueue printQueue ▸ h.release.unqueued)
  rw [disc_congr (later .discs discs), release_disc h.unwaiting] at held
  obtain ⟨e, -, rfl⟩ := Option.map_eq_some_iff.1 held
  rfl

/-! ## The destination released -/

/-- A bay that expected the pick's disc (R10, R51, R57). -/
def Part.bayFreed (p : Part) (m : Move) (b : Fin 12) : Bay :=
  if m.kind = .pick ∧ m.dest = .bay b ∧ (p.bay b).state = .expecting then
    if (p.bay b).disablePending then (p.bay b).enter .offline else (p.bay b).enter .open_
  else p.bay b

theorem releaseDest_release : (release m.record p).Changes [.bays] (releaseDest m p) := by
  unfold releaseDest
  split
  · exact releaseBay_changes
  · exact .refl _ _

theorem releaseBay_bay (b k : Fin 12) : (releaseBay k p).bay b =
    if k = b ∧ (p.bay b).state = .expecting then
      if (p.bay b).disablePending then (p.bay b).enter .offline else (p.bay b).enter .open_
    else p.bay b := by
  by_cases expecting : (p.bay k).state = .expecting
  · rw [releaseBay_expecting expecting]
    by_cases same : k = b
    · subst same
      rw [Part.setBay_self]
      exact (if_pos ⟨rfl, expecting⟩).symm
    · rw [Part.setBay_other _ _ _ _ (Ne.symm same), if_neg fun h => same h.1]
  · rw [releaseBay_other expecting, if_neg]
    rintro ⟨rfl, h⟩
    exact expecting h

theorem releaseDest_bay (b : Fin 12) : (releaseDest m p).bay b = p.bayFreed m b := by
  have bays : (release m.record p).bay = p.bay := bay_congr (release_changes .bays (by decide))
  unfold releaseDest Part.bayFreed
  split
  case h_1 k pick dest =>
    rw [releaseBay_bay, bays]
    simp only [pick, dest, true_and, Dest.bay.injEq]
  case h_2 other =>
    rw [bays, if_neg]
    rintro ⟨pick, dest, -⟩
    exact other _ pick dest

theorem Part.Landed.of (h : p.Landed q) (same : p.occupant = p₀.occupant) : p₀.Landed q :=
  ⟨h.armEmpty, same ▸ h.occupants⟩

theorem Part.Landed.andThen (h : p.Landed q) {fs : List Field} (later : q.Changes fs u)
    (free : Field.places ∉ fs := by decide) : p.Landed u := by
  have occupant := occupant_congr (later .places free)
  exact ⟨occupant ▸ h.armEmpty, occupant ▸ h.occupants⟩

/-! ## A pick withdrawn -/

/-- What the job is told at a pick's withdrawal (R10, R32). -/
abbrev tellWithdrawn : Option (Fin 16) → Part → Part := tellJob jobWithdrawn

theorem tellWithdrawn_jobs (a : Attention) (job : Option (Fin 16)) :
    (tellWithdrawn job { p with attn := a }).jobs = (tellWithdrawn job p).jobs := by
  cases job with
  | none => rfl
  | some x =>
    show (jobWithdrawn x { p with attn := a }).jobs = (jobWithdrawn x p).jobs
    cases held : p.job x with
    | none => rw [jobWithdrawn_none held, jobWithdrawn_none (p := { p with attn := a }) held]
    | some j =>
      rw [jobWithdrawn_held held, jobWithdrawn_held (p := { p with attn := a }) held]
      unfold Part.closes
      repeat' split
      all_goals rfl

/-- What a pick's withdrawal leaves: the label unit, and the jobs with the record's told, as `u` has them, the record
free, ARM empty and the destination released (R10, R55). -/
structure Part.Withdraws (p u : Part) (m : Move) (job : Option (Fin 16)) (q : Part) : Prop where
  jobs : q.jobs = (tellWithdrawn job u).jobs
  ink : q.ink = u.ink
  inkWait : q.inkWait = u.inkWait
  printQueue : q.printQueue = u.printQueue
  attn : q.attn = (tellWithdrawn job { u with attn := p.attn }).attn
  disc : q.disc m.record = none
  others : OthersKept u.disc q.disc m.record
  heldSpell : q.heldSpell = if 2 ≤ q.freeCount then false else p.heldSpell
  landed : p.Landed q
  bays : ∀ b, q.bay b = p.bayFreed m b
  arm : q.arm = p.arm.resting

theorem withdrawPick_withdraws (alike : p₀.Alike m.record p) (now : p.now = p₀.now) (held : p.disc m.record = some d)
    (unlisted : p.Unlisted m.record) : p.Withdraws (release m.record p₀) m d.job (withdrawPick m p) := by
  let u := release m.record p₀
  let emptied := (releaseDest m p).setOccupant .arm none
  have released : (release m.record p).Changes [.bays, .places] emptied :=
    (releaseDest_release.andThen setOccupant_changes).widen rfl
  let freed := freeRecord m.record emptied
  have is : withdrawPick m p = endMove (tellWithdrawn d.job freed) := by
    have left : leaveLabelUnit m.record emptied = emptied := unlisted.released released
    have job : (p.disc m.record).bind (·.job) = d.job := by rw [held]; rfl
    unfold withdrawPick
    rw [job]
    show endMove (match d.job with
      | some x => jobWithdrawn x (freeRecord m.record (leaveLabelUnit m.record emptied))
      | none => freeRecord m.record (leaveLabelUnit m.record emptied)) = _
    rw [left]
    cases d.job <;> rfl
  have reach := alike.release.trans (released.alike m.record)
  have held' : emptied.disc = (release m.record p).disc := disc_congr (released .discs (by decide))
  have freed_jobs : Part.SameJobs { u with attn := p.attn } freed := by
    have released_attn : (release m.record p).attn = p.attn := release_changes .attn (by decide)
    have released_now : (release m.record p).now = p.now := release_changes .now (by decide)
    have u_now : u.now = p₀.now := release_changes .now (by decide)
    exact ⟨reach.jobs, (released .attn (by decide)).trans released_attn,
      (released .now (by decide)).trans (released_now.trans (now.trans u_now.symm))⟩
  have same := freed_jobs.tellJob freed_jobs.jobWithdrawn d.job
  have told : freed.Changes [.jobs, .attn] (tellWithdrawn d.job freed) := by
    cases d.job with
    | none => exact .refl _ _
    | some x => exact jobWithdrawn_changes
  have ended := told.andThen endMove_changes
  have final := (freeRecord_changes (r := m.record) (p := emptied)).andThen ended
  have discs : (withdrawPick m p).discs = freed.discs := by rw [is]; exact ended .discs (by decide)
  have disc : (withdrawPick m p).disc = freed.disc := disc_congr discs
  have spell : (withdrawPick m p).heldSpell = freed.heldSpell := by rw [is]; exact ended .heldSpell (by decide)
  have spell' : emptied.heldSpell = p.heldSpell := (released .heldSpell (by decide)).trans (release_changes .heldSpell (by decide))
  refine ⟨?_, ?_, ?_, ?_, ?_, ?_, ?_, ?_, ?_, ?_, ?_⟩
  · rw [is]
    exact same.jobs.trans (tellWithdrawn_jobs _ _)
  · rw [is]
    exact (ended .ink (by decide)).trans reach.ink
  · rw [is]
    exact (ended .inkWait (by decide)).trans reach.inkWait
  · rw [is]
    exact (ended .printQueue (by decide)).trans reach.printQueue
  · rw [is]
    exact same.attn
  · rw [disc]
    exact Part.setDisc_self _ _ _
  · intro k other
    rw [disc]
    exact (Part.setDisc_other _ _ _ _ other).trans (reach.others k other)
  · rw [spell, freeCount_congr discs, ← spell']
    exact freeRecord_heldSpell
  · rw [is]
    exact (armLeft_landed final).of (occupant_congr (releaseDest_changes .places (by decide)))
  · intro b
    rw [is, bay_congr (final .bays (by decide)), ← releaseDest_bay]
    exact congrFun (bay_congr (setOccupant_changes .bays (by decide))) b
  · rw [is, endMove_arm, told .arm (by decide)]
    exact congrArg _ ((released .arm (by decide)).trans (release_changes .arm (by decide)))

/-! ## A disc lost -/

/-- A record with the fate LOST written (R4, R14). -/
abbrev Disc.lost (d : Disc) : Disc := { d with verdict := .reject, reason := some .lost }

/-- The flags once a record has been rejected (R4). -/
def Part.rejectFlags (p : Part) (d : Disc) : Attention :=
  if d.verdict = .reject then p.attn else p.attn.raise .discRejected p.now

/-- What the loss of the disc on the arm leaves (R51, R60). -/
structure Part.LosesHeld (p u : Part) (m : Move) (d : Disc) (q : Part) : Prop where
  ends : p.EndsRejected u m.record d.lost (tellRejected false d.job) q
  attn : q.attn = (tellRejected false d.job { u with attn := p.rejectFlags d }).attn
  landed : p.Landed q
  bays : ∀ b, q.bay b = p.bayFreed m b
  arm : q.arm = p.arm.resting

theorem dropLost_loses (alike : p₀.Alike m.record p) (now : p.now = p₀.now) (held : p.disc m.record = some d)
    (unlisted₀ : p₀.Unlisted m.record) : p.LosesHeld (release m.record p₀) m d (dropLost m p) := by
  let u := release m.record p₀
  let emptied := (releaseDest m p).setOccupant .arm none
  have unlisted : p.Unlisted m.record := ⟨alike.inkWait ▸ unlisted₀.unwaiting, alike.printQueue ▸ unlisted₀.unqueued⟩
  have released : (release m.record p).Changes [.bays, .places] emptied :=
    (releaseDest_release.andThen setOccupant_changes).widen rfl
  have reach : u.Alike m.record emptied := alike.release.trans (released.alike m.record)
  have left : leaveLabelUnit m.record u = u := unlisted₀.released (.refl u [])
  have before := release_changes (r := m.record) (p := p)
  have before₀ := release_changes (r := m.record) (p := p₀)
  have now' : emptied.now = u.now :=
    (released .now (by decide)).trans ((before .now (by decide)).trans (now.trans (before₀ .now (by decide)).symm))
  have standing : emptied.disc m.record = some { d with reservation := none } := by
    rw [disc_congr (released .discs (by decide)), release_disc unlisted.unwaiting, held]
    rfl
  have attn' : emptied.attn = p.attn := (released .attn (by decide)).trans (before .attn (by decide))
  have now'' : emptied.now = p.now := (released .now (by decide)).trans (before .now (by decide))
  obtain ⟨ends, attn⟩ := fateReject_ends (why := .lost) (attn := p.rejectFlags d) reach now' standing rfl rfl
    (by rw [attn', now'']; rfl)
  rw [left] at ends attn
  have final := (finaliseLost_changes (r := m.record) (p := emptied)).andThen endMove_changes
  have ended : p.EndsRejected u m.record { d with reservation := none, verdict := .reject, reason := some .lost }
      (tellRejected false d.job) (dropLost m p) :=
    (ends.of ((released .tower (by decide)).trans (before .tower (by decide)) ▸ rfl)
      ((released .heldSpell (by decide)).trans (before .heldSpell (by decide))).symm).andThen endMove_changes
  exact ⟨{ ended with }, attn, (armLeft_landed final).of (occupant_congr (releaseDest_changes .places (by decide))),
    fun b => by
      rw [← releaseDest_bay]
      exact congrFun ((bay_congr (final .bays (by decide))).trans (bay_congr (setOccupant_changes .bays (by decide)))) b, by
      rw [dropLost, endMove_arm, finaliseLost_changes .arm (by decide)]
      exact congrArg _ ((released .arm (by decide)).trans (before .arm (by decide)))⟩

/-- A disc that was lost from the place its record gives, told to the label unit and to its job (R5, R14). -/
theorem placeLost_ends {fs : List Field} (changes : p₀.Changes fs p) (held : p₀.disc r = some d) (pl : Place)
    (free : [Field.jobs, .ink, .inkWait, .printQueue, .templates, .discs, .now, .tower, .heldSpell, .attn].all (· ∉ fs) = true
      := by rfl) :
    p₀.EndsRejected (leaveLabelUnit r p₀) r d.lost (tellRejected false d.job) (finaliseLost r (p.setOccupant pl none)) ∧
      (finaliseLost r (p.setOccupant pl none)).attn =
        (tellRejected false d.job { leaveLabelUnit r p₀ with attn := p₀.rejectFlags d }).attn ∧
      (finaliseLost r (p.setOccupant pl none)).occupant = (p.setOccupant pl none).occupant := by
  simp only [List.all_cons, List.all_nil, Bool.and_true, Bool.and_eq_true, decide_eq_true_eq] at free
  obtain ⟨jobs, ink, inkWait, printQueue, templates, discs, now, tower, spell, attn⟩ := free
  have vacated : p.Changes [.places] (p.setOccupant pl none) := setOccupant_changes
  have alike : p₀.Alike r (p.setOccupant pl none) :=
    (changes.alike r (by simp [jobs, ink, inkWait, printQueue, templates, discs])).trans (vacated.alike r)
  have now' : (p.setOccupant pl none).now = p₀.now := (vacated .now (by decide)).trans (changes .now now)
  have attn' : (p.setOccupant pl none).attn = p₀.attn := (vacated .attn (by decide)).trans (changes .attn attn)
  have standing : (p.setOccupant pl none).disc r = some d :=
    (congrFun (disc_congr ((vacated .discs (by decide)).trans (changes .discs discs))) r).trans held
  obtain ⟨ends, raised⟩ := fateReject_ends (why := .lost) (attn := p₀.rejectFlags d) alike now' standing rfl rfl
    (by rw [attn', now']; rfl)
  exact ⟨ends.of (by rw [vacated .tower (by decide), changes .tower tower])
    ((vacated .heldSpell (by decide)).trans (changes .heldSpell spell)).symm, raised,
    occupant_congr (finaliseLost_changes .places (by decide))⟩

end Sys2Proof.Machine
end

