-- ==== Sys2Proof/Proofs/MissedAndDropped.lean ====
section
/-! PROOF. MISSED, DROPPED and INTERRUPTED (R5, R10, R14, R15, R43, R51, R55, R58, R75, R152, R156). -/

namespace Sys2Proof.Machine

-- One proof after another: side by side, their threads' stacks pass the check's memory limit.
set_option Elab.async false

variable {p q u p₀ : Part} {s : State} {o : ArmOp} {m : Move} {pl : Place} {b : Fin 12} {r k : Fin 24} {x : Fin 16}
  {d : Disc} {a : Attention} {sp : SpindleId}

/-! ## The arm at a report -/

/-- The part once the operation in flight has had its final report. -/
abbrev State.reported (s : State) : Part := endArmOp s.part.fresh

theorem reported_changes : s.part.fresh.Changes [.arm] s.reported := endArmOp_changes

theorem fresh_changes : p.Changes [.sent] p.fresh := fun f notSent => by cases f <;> first | rfl | simp at notSent

theorem reported_resting (flying : s.flying o) : s.reported.arm.resting = s.part.arm.idled := by
  obtain ⟨-, -, -, -, -, -, going⟩ := flying
  show Arm.resting { s.part.arm with op := none, heldInterrupted := false } = _
  rw [Arm.resting, if_neg going]
  rfl

/-- An operation in flight leaves an abort incomplete (R170). -/
theorem testAbort_busy (busy : p.arm.op ≠ none) : testAbort p = p := by
  rw [testAbort, if_neg]
  rintro ⟨-, complete⟩
  exact busy (abortComplete_iff.1 complete).1

theorem missed_flying (flying : s.flying o) :
    exec (.missed o.id) s = .next (s.became (settle (testAbort (missed o.order s.part.arm.move s.part.fresh)))) := by
  rw [missed_taken flying.1, armReport_flight (fit_flying flying)]
  rfl

theorem dropped_flying (flying : s.flying o) :
    exec (.dropped o.id) s = .next (s.became (settle (testAbort (dropped o.order s.part.arm.move s.part.fresh)))) := by
  rw [dropped_taken flying.1, armReport_flight (fit_flying flying)]
  rfl

theorem modMove_some (move : p.arm.move = some m) (f : Move → Move) :
    modMove f p = { p with arm := { p.arm with move := some (f m) } } := by
  rw [modMove, move]
  rfl

/-! ## MISSED -/

theorem missed_again {d : Dest} (ungripped : m.gripped = false) (first : m.missCount = 0) :
    missed (.pick sp d) (some m) p = sendArm (.pick sp d) (modMove (fun m => { m with missCount := 1 }) (endArmOp p)) := by
  simp only [missed, ungripped, first]
  rfl

theorem missed_twice {d : Dest} (ungripped : m.gripped = false) (second : m.missCount ≠ 0) :
    missed (.pick sp d) (some m) p = withdrawPick m (emptySpindle sp (endArmOp p)) := by
  simp only [missed, ungripped, second]
  rfl

theorem missed_transfer {d : Dest} (ungripped : m.gripped = false) :
    missed (.transfer pl d) (some m) p = transferMissed m (endArmOp p) := by
  simp only [missed, ungripped]
  rfl

theorem emptySpindle_eq (sp : SpindleId) (p : Part) :
    emptySpindle sp p = { p.setSpindle sp { p.spindle sp with count := 0, empty := true } with
      attn := if (p.spindle sp).empty then p.attn else p.attn.raise .spindleEmpty p.now } := by
  rw [emptySpindle, changeSpindle_eq]
  cases (p.spindle sp).empty <;> rfl

theorem spindle_congr (same : q.spindleA = p.spindleA ∧ q.spindleB = p.spindleB) : q.spindle = p.spindle := by
  funext sp
  cases sp
  · exact same.1
  · exact same.2

/-- The second MISSED of a pick. -/
theorem withdraws_missed (flying : s.flying o) (ungripped : m.gripped = false) {dest : Dest} (order : o.order = .pick sp dest)
    (move : s.part.arm.move = some m) (second : m.missCount ≠ 0) (held : s.part.disc m.record = some d)
    (unlisted : s.part.Unlisted m.record) :
    ∃ q, exec (.missed o.id) s = .next (s.became (settle (testAbort q))) ∧
      s.part.fresh.Changes [.arm, .attn, .spindleA, .spindleB, .discs, .places, .bays, .heldSpell, .jobs, .ink, .inkWait,
        .printQueue] q ∧
      (emptySpindle sp s.reported).Withdraws (release m.record s.part) m d.job q ∧
      q.spindle = (emptySpindle sp s.reported).spindle := by
  have emptied := emptySpindle_changes (s := sp) (p := s.reported)
  have changes : s.part.Changes [.sent, .arm, .spindleA, .spindleB, .attn] (emptySpindle sp s.reported) :=
    ((fresh_changes.andThen reported_changes).andThen emptied).widen rfl
  have withdraws := withdrawPick_withdraws (changes.alike m.record) (changes .now (by decide))
    ((congrFun (disc_congr (changes .discs (by decide))) _).trans held) (unlisted.andThen changes)
  have final := withdrawPick_changes (m := m) (p := emptySpindle sp s.reported)
  refine ⟨_, ?_, ((reported_changes.andThen emptied).andThen final).widen rfl, withdraws,
    spindle_congr ⟨final .spindleA (by decide), final .spindleB (by decide)⟩⟩
  rw [missed_flying flying, order, move, missed_twice ungripped second]

/-- A TRANSFER's disc is not at its place (R51). -/
theorem transferMissed_ends (source : m.source = .place pl) (p : Part) :
    transferMissed m p = endMove (placeVacated pl (finaliseLost m.record (p.setOccupant pl none))) := by
  rw [transferMissed, source]

theorem placeVacated_presenting (presenting : (p.bay b).state = .presenting) :
    placeVacated (.bay b) p = { p.setBay b (p.bay b).emptied with
      attn := if (p.bay b).consecutiveFailures = 3 then p.attn.raise .bayFault p.now else p.attn } :=
  (bayVacated_presenting presenting).trans (emptyBay_eq b p)

theorem placeVacated_printer : placeVacated .printer p = { p with
    station := if p.station.state = .finished then { p.station with state := .empty, faultCause := none }
      else p.station } := by
  show trayVacated p = _
  unfold trayVacated
  split <;> rfl

/-- What the disc of an ungripped TRANSFER leaves when it is not at its place (R51, R75, R156). -/
structure State.LosesTransfer (s : State) (m : Move) (pl : Place) (d : Disc) (q : Part) : Prop where
  changes : s.part.fresh.Changes [.arm, .attn, .discs, .places, .bays, .jobs, .ink, .inkWait, .printQueue, .station,
    .sent, .heldSpell] q
  arm : q.arm = s.part.arm.idled
  ends : s.part.EndsRejected (leaveLabelUnit m.record s.part) m.record d.lost (tellRejected false d.job) q
  left : q.occupant pl = none
  occupants : ∀ ql, ql ≠ pl → q.occupant ql = s.part.occupant ql
  presenting : ∀ b, pl = .bay b → (s.part.bay b).state = .presenting →
    q.bay b = (s.part.bay b).emptied ∧ OthersKept s.part.bay q.bay b ∧ q.station = s.part.station ∧ q.sent = [] ∧
      q.attn = if (s.part.bay b).consecutiveFailures = 3 then
        (tellRejected false d.job { leaveLabelUnit m.record s.part with attn := s.part.rejectFlags d }).attn.raise .bayFault
          s.part.now
        else (tellRejected false d.job { leaveLabelUnit m.record s.part with attn := s.part.rejectFlags d }).attn
  tray : pl = .printer →
    q.attn = (tellRejected false d.job { leaveLabelUnit m.record s.part with attn := s.part.rejectFlags d }).attn ∧
      q.bays = s.part.bays ∧ q.sent = [] ∧ q.station = if s.part.station.state = .finished then
        { s.part.station with state := .empty, faultCause := none } else s.part.station
  raised : d.verdict ≠ .reject → q.attn.isSet .discRejected = true

/-- The flags that are set stay set. -/
def Attention.Grows (a a' : Attention) : Prop := ∀ f, a.isSet f = true → a'.isSet f = true

theorem Attention.Grows.refl (a : Attention) : a.Grows a := fun _ set => set

theorem raise_grows (f : Flag) (n : Nat) : a.Grows (a.raise f n) := fun g set => by simp [Attention.isSet_raise, set]

theorem closes_grows (j : Job) : p.attn.Grows (p.closes x j).attn := by
  unfold Part.closes
  split
  · exact raise_grows _ _
  · split
    · exact raise_grows _ _
    · exact .refl _

theorem tellRejected_grows (c : Bool) (job : Option (Fin 16)) : p.attn.Grows (tellRejected c job p).attn := by
  cases job with
  | none => exact .refl _
  | some x =>
    show p.attn.Grows (jobRejected x c p).attn
    cases held : p.job x with
    | none => rw [jobRejected_none held]; exact .refl _
    | some j =>
      rw [jobRejected_held held]
      split
      · exact closes_grows _
      · exact closes_grows _

theorem placeVacated_grows (pl : Place) : p.attn.Grows (placeVacated pl p).attn := by
  cases pl with
  | bay b =>
    show p.attn.Grows (bayVacated b p).attn
    unfold bayVacated
    split
    · rw [emptyBay_eq]
      dsimp only
      split
      · exact raise_grows _ _
      · exact .refl _
    · rw [show (ejectBay b p).attn = p.attn from ejectBay_changes .attn (by decide)]
      exact .refl _
    · exact .refl _
  | printer =>
    rw [placeVacated_printer]
    exact .refl _
  | arm => exact .refl _

theorem rejectFlags_set (unrejected : d.verdict ≠ .reject) : (p.rejectFlags d).isSet .discRejected = true := by
  simp [Part.rejectFlags, unrejected, Attention.isSet_raise]

theorem missed_losesTransfer (flying : s.flying o) (ungripped : m.gripped = false) {dest : Dest}
    (order : o.order = .transfer pl dest) (move : s.part.arm.move = some m) (source : m.source = .place pl)
    (held : s.part.disc m.record = some d) :
    ∃ q, exec (.missed o.id) s = .next (s.became (settle (testAbort q))) ∧ s.LosesTransfer m pl d q := by
  have changes : s.part.Changes [.sent, .arm] s.reported := fresh_changes.andThen reported_changes
  obtain ⟨ends, attn, occupant⟩ := placeLost_ends changes held pl
  have lost := (setOccupant_changes (p := s.reported) (pl := pl) (o := none)).andThen (finaliseLost_changes (r := m.record))
  refine ⟨endMove (placeVacated pl (finaliseLost m.record (s.reported.setOccupant pl none))), ?_, ?_⟩
  · rw [missed_flying flying, order, move, missed_transfer ungripped, transferMissed_ends source]
  have reach := reported_changes.andThen lost
  generalize finaliseLost m.record (s.reported.setOccupant pl none) = q at *
  have vacated := placeVacated_changes (pl := pl) (p := q)
  have same := occupant_congr (vacated .places (by decide))
  have bay : q.bay = s.part.bay := bay_congr (lost .bays (by decide))
  have station : q.station = s.part.station := lost .station (by decide)
  have sent : q.sent = [] := lost .sent (by decide)
  have now : q.now = s.part.now := lost .now (by decide)
  refine ⟨((reach.andThen vacated).andThen endMove_changes).widen rfl, ?_, (ends.andThen vacated).andThen endMove_changes, ?_,
    fun ql other => ?_, ?_, ?_, ?_⟩
  · rw [endMove_arm, vacated .arm (by decide), lost .arm (by decide), reported_resting flying]
  · exact (congrFun (same.trans occupant) pl).trans (Part.setOccupant_self _ _ _)
  · refine (congrFun (same.trans occupant) ql).trans ?_
    rw [setOccupant_get, if_neg other]
    rfl
  · rintro b rfl presenting
    rw [placeVacated_presenting (bay ▸ presenting), bay, now, attn]
    exact ⟨Part.setBay_self _ _ _, fun k other => (Part.setBay_other _ _ _ _ other).trans (congrFun bay k), station, sent, rfl⟩
  · rintro rfl
    rw [placeVacated_printer, station]
    exact ⟨attn, lost .bays (by decide), sent, rfl⟩
  · intro unrejected
    refine placeVacated_grows pl _ ?_
    rw [attn]
    exact tellRejected_grows _ _ _ (rejectFlags_set unrejected)

/-! ## DROPPED and INTERRUPTED -/

/-- An ungripped disc that is dropped is MISSED (R48). -/
theorem dropped_ungripped (ungripped : m.gripped = false)
    (fetches : (∃ sp d, o.order = .pick sp d) ∨ ∃ pl d, o.order = .transfer pl d) :
    dropped o.order (some m) p = missed o.order (some m) p := by
  obtain ⟨sp, d, order⟩ | ⟨pl, d, order⟩ := fetches <;> simp only [order, dropped, ungripped] <;> rfl

/-- The sweep's arm mark clears when a DELIVER ends, and else not (R167). -/
def ArmOrder.marks (o : ArmOrder) (t : Tower) : Tower :=
  match o with
  | .deliver _ => t.armUnmarked
  | _ => t

theorem dropped_gripped
    (holds : (m.gripped = true ∧ ((∃ sp d, o.order = .pick sp d) ∨ ∃ pl d, o.order = .transfer pl d)) ∨
      ∃ d, o.order = .deliver d) :
    dropped o.order (some m) p =
      { dropLost m (endArmOp p) with tower := o.order.marks (dropLost m (endArmOp p)).tower } := by
  obtain ⟨gripped, ⟨sp, d, order⟩ | ⟨pl, d, order⟩⟩ | ⟨d, order⟩ := holds
  · simp only [order, dropped, gripped, if_true]
    rfl
  · simp only [order, dropped, gripped, if_true]
    rfl
  · simp only [order, dropped]
    rfl

/-- A disc the arm held is lost (R51). -/
theorem dropped_losesHeld (flying : s.flying o) (move : s.part.arm.move = some m) (held : s.part.disc m.record = some d)
    (unlisted : s.part.Unlisted m.record)
    (holds : (m.gripped = true ∧ ((∃ sp d, o.order = .pick sp d) ∨ ∃ pl d, o.order = .transfer pl d)) ∨
      ∃ d, o.order = .deliver d) :
    ∃ q, exec (.dropped o.id) s = .next (s.became (settle (testAbort { q with tower := o.order.marks s.part.tower }))) ∧
      s.part.fresh.Changes [.arm, .discs, .places, .bays, .jobs, .attn, .ink, .inkWait, .printQueue, .heldSpell] q ∧
      s.reported.LosesHeld (release m.record s.part) m d q := by
  have changes : s.part.Changes [.sent, .arm] s.reported := fresh_changes.andThen reported_changes
  have loses := dropLost_loses (changes.alike m.record) (changes .now (by decide))
    ((congrFun (disc_congr (changes .discs (by decide))) _).trans held) unlisted
  have final := dropLost_changes (m := m) (p := s.reported)
  refine ⟨dropLost m s.reported, ?_, (reported_changes.andThen final).widen rfl, loses⟩
  rw [dropped_flying flying, move, dropped_gripped holds, final .tower (by decide)]
  rfl

/-- Settles O21: a pick is sent again or withdrawn, a disc that is not there is LOST, and INTERRUPTED is held. -/
theorem missedAndDropped : Obligations.MissedAndDropped := by
  constructor
  on_goal 1 => intro s o flying retire; refine ⟨?_, ?_, ?_, ?_⟩
  on_goal 5 => intro s o m flying move retire; refine ⟨?_, ?_, ?_⟩
  · intro m sp d move ungripped order first
    rw [missed_flying flying, order, move, missed_again ungripped first, testAbort_busy (by simp [sendArm_eq, Arm.sending])]
    rw [modMove_some (p := s.reported) move]
    rfl
  · intro m sp dest d move ungripped order pick second held unwaiting unqueued u told
    obtain ⟨q, taken, changes, withdraws, spindle⟩ :=
      withdraws_missed flying ungripped order move second held ⟨unwaiting, unqueued⟩
    have emptied := emptySpindle_changes (s := sp) (p := s.reported)
    have bay : (emptySpindle sp s.reported).bay = s.part.bay := bay_congr (emptied .bays (by decide))
    have spindles : (emptySpindle sp s.reported).spindle = (s.part.setSpindle sp
        { s.part.spindle sp with count := 0, empty := true }).spindle := by
      rw [emptySpindle_eq]
      cases sp <;> exact spindle_congr ⟨rfl, rfl⟩
    refine ⟨q, taken, changes, ?_, withdraws.jobs, withdraws.ink, withdraws.inkWait, withdraws.printQueue, ?_, ?_, ?_,
      withdraws.disc, withdraws.others, ?_, withdraws.landed.armEmpty, ?_, fun b => ?_⟩
    · rw [withdraws.arm, emptied .arm (by decide), reported_resting flying]
    · rw [withdraws.attn, emptySpindle_eq]
      cases sp <;> rfl
    · rw [spindle, spindles]
      exact Part.setSpindle_self _ _ _
    · rw [spindle, spindles]
      exact fun k other => Part.setSpindle_other _ _ _ _ other
    · rw [withdraws.heldSpell, emptied .heldSpell (by decide)]
      rfl
    · have occupant : (emptySpindle sp s.reported).occupant = s.part.occupant := occupant_congr (emptied .places (by decide))
      exact occupant ▸ withdraws.landed.occupants
    · rw [withdraws.bays, Part.bayFreed, bay]
      simp only [pick, true_and]
  · intro m pl d' d move ungripped order source elsewhere held u told rejects attn
    obtain ⟨q, taken, loses⟩ := missed_losesTransfer flying ungripped order move source held
    exact ⟨q, taken, loses.changes, loses.arm, loses.ends.jobs, loses.ends.ink, loses.ends.inkWait, loses.ends.printQueue,
      loses.left, loses.occupants, loses.ends.disc, loses.ends.others, loses.ends.heldSpell, loses.raised, loses.presenting,
      loses.tray⟩
  · intro pl d move order
    have ended : missed (.transfer pl d) none s.part.fresh = { s.part.fresh with arm := s.part.arm.idled } := by
      rw [← reported_resting flying]
      rfl
    rw [missed_flying flying, dropped_flying flying, order, move]
    exact ⟨by rw [ended], rfl⟩
  · intro ungripped fetches
    rw [dropped_flying flying, missed_flying flying, move, dropped_ungripped ungripped fetches]
  · intro d held unwaiting unqueued holds u told
    obtain ⟨q, taken, changes, loses⟩ := dropped_losesHeld flying move held ⟨unwaiting, unqueued⟩ holds
    have marked : q.Changes [.tower] { q with tower := o.order.marks s.part.tower } := tower_changes
    have ends := loses.ends.andThen marked
    have landed := loses.landed
    refine ⟨_, taken, (changes.andThen marked).widen rfl, loses.arm.trans (reported_resting flying), ends.jobs, ends.ink,
      ends.inkWait, ends.printQueue, loses.attn, ends.disc, ends.others, ends.heldSpell, landed.armEmpty, landed.occupants,
      loses.bays, fun other => ?_, fun d order => ?_⟩
    · show o.order.marks s.part.tower = _
      unfold ArmOrder.marks
      split
      case h_1 d order => exact absurd order (other d)
      case h_2 => rfl
    · show o.order.marks s.part.tower = _
      rw [order]
      rfl
  · have busy : (interruptedHeld s.part.fresh).arm.op ≠ none := by
      obtain ⟨-, -, inFlight, -⟩ := flying
      show s.part.arm.op ≠ none
      simp [inFlight]
    rw [interrupted_taken flying.1, armReport_flight (fit_flying flying), testAbort_busy busy]
    rfl

end Sys2Proof.Machine
end

