-- ==== Sys2Proof/Proofs/DoubleFeeds.lean ====
section
/-! PROOF. DOUBLE, SINGLE and STILL_DOUBLE (R43, R56, R57). -/

namespace Sys2Proof.Machine

-- One proof after another: side by side, their threads' stacks pass the check's memory limit.
set_option Elab.async false

variable {p q u : Part} {s : State} {o : ArmOp} {m : Move} {r : Fin 24} {d : Disc} {sp : SpindleId}

theorem double_flying (flying : s.flying o) :
    exec (.double o.id) s = .next (s.became (settle (testAbort (doubled o.order s.part.arm.move s.part.fresh)))) := by
  rw [double_taken flying.1, armReport_flight (fit_flying flying)]
  rfl

theorem single_flying (flying : s.flying o) :
    exec (.single o.id) s = .next (s.became (settle (testAbort (separated o.order s.part.arm.move s.part.fresh)))) := by
  rw [single_taken flying.1, armReport_flight (fit_flying flying)]
  rfl

theorem stillDouble_flying (flying : s.flying o) : exec (.stillDouble o.id) s =
    .next (s.became (settle (testAbort (unseparated o.order s.part.arm.move s.part.fresh)))) := by
  rw [stillDouble_taken flying.1, armReport_flight (fit_flying flying)]
  rfl

/-- The record of a pair that was not separated, rejected and bound for the bin (R57). -/
def rejectPair (r : Fin 24) (p : Part) : Part := setStage r .rejectBound (writeReject r .doubleFeed p)

theorem unseparated_pair (source : m.source = .spindle sp) :
    unseparated .separate (some m) p = clearArmMark (deliverPair (modMove (fun m => { m with dest := .bin })
      (releaseDest m (rejectPair m.record (wasteBlank sp (endArmOp p)))))) := by
  simp only [unseparated, source]
  rfl

theorem rejectPair_changes : p.Changes [.discs, .attn] (rejectPair r p) :=
  (writeReject_changes.andThen setStage_changes).widen rfl

theorem rejectPair_alike : p.Alike r (rejectPair r p) :=
  writeReject_alike.trans (modDisc_alike (fun d => by rw [Disc.atStage_eq]) fun d => by rw [Disc.atStage_eq])

theorem rejectPair_held (held : p.disc r = some d) (active : d.stage.active = true) :
    (rejectPair r p).disc r = some { d with
        verdict := .reject, reason := if d.verdict = .reject then d.reason else some .doubleFeed, stage := .rejectBound } ∧
      (d.verdict ≠ .reject → (rejectPair r p).attn.isSet .discRejected = true) := by
  have accepts : d.stage.accepts .rejectBound = true := by revert active; cases d.stage <;> decide
  by_cases rejected : d.verdict = .reject
  · rw [rejectPair, writeReject_keeps_reason held rejected rfl, setStage_held held, Part.setDisc_self, if_pos rejected,
      Disc.atStage_accepted accepts]
    exact ⟨by rw [← rejected], fun unrejected => absurd rejected unrejected⟩
  · rw [rejectPair, writeReject_first held rejected, if_neg rejected]
    refine ⟨?_, fun _ => ?_⟩
    · refine (modDisc_disc _ (Part.setDisc_self _ _ _)).trans ?_
      exact congrArg some (Disc.atStage_accepted (d := { d with verdict := .reject, reason := some .doubleFeed }) accepts)
    · show (p.attn.raise .discRejected p.now).isSet .discRejected = true
      simp [Attention.isSet_raise]

theorem wasteBlank_eq (sp : SpindleId) (p : Part) :
    wasteBlank sp p = (useBlank sp p).setSpindle sp { p.spindle sp with
      count := (p.spindle sp).count - 1, empty := (p.spindle sp).empty || decide ((p.spindle sp).count ≤ 1)
      wasted := min 65535 ((p.spindle sp).wasted + 1) } := by
  rw [wasteBlank, useBlank_eq]
  cases sp <;> rfl

theorem doubled_sends {d : Dest} (gripped : m.gripped = true) (move : p.arm.move = some m) :
    doubled (.pick sp d) (some m) p = { p with
      sent := p.sent ++ [.arm .separate]
      arm := { p.arm.sending .separate (p.now + p.tower.moveTimeout) with
        state := .separating, halt := none, move := some { m with feed := .separating } } } := by
  have sent : doubled (.pick sp d) (some m) p = sendArm .separate (enterArm .separating
      (modMove (fun m => { m with feed := .separating }) (endArmOp p))) := by
    simp only [doubled, gripped, if_true]
  rw [sent, modMove_some (p := endArmOp p) move]
  rfl

theorem separated_sends (move : p.arm.move = some m) :
    separated .separate (some m) p = { p with
      sent := p.sent ++ [.arm (.deliver m.dest)], tower := p.tower.armUnmarked
      arm := { p.arm.sending (.deliver m.dest) (p.now + p.tower.moveTimeout) with
        state := .moving, halt := none, move := some { m with feed := .single } } } := by
  have sent : separated .separate (some m) p = clearArmMark (sendArm (.deliver m.dest) (enterArm .moving
      (modMove (fun m => { m with feed := .single }) (endArmOp p)))) := rfl
  rw [sent, modMove_some (p := endArmOp p) move]
  rfl

theorem pair_waits (full : p.bin.full = true) :
    (clearArmMark (deliverPair p)).sent = p.sent ∧ (clearArmMark (deliverPair p)).arm = { p.arm with
      state := .moving, halt := none, move := p.arm.move.map fun m => { m with feed := .pairWaiting } } := by
  rw [deliverPair_waits full]
  exact ⟨rfl, rfl⟩

theorem pair_sends (room : p.bin.full = false) :
    (clearArmMark (deliverPair p)).sent = p.sent ++ [.arm (.deliver .bin)] ∧
      (clearArmMark (deliverPair p)).arm = { p.arm.sending (.deliver .bin) (p.now + p.tower.moveTimeout) with
        state := .moving, halt := none, move := p.arm.move.map fun m => { m with feed := .pair } } := by
  rw [deliverPair_sends room]
  exact ⟨rfl, rfl⟩

/-- Settles O22: a double feed is separated, or its pair goes to the REJECT BIN. -/
theorem doubleFeeds : Obligations.DoubleFeeds := by
  intro s o m flying move deadline tower
  refine ⟨fun sp d order gripped => ?_, fun order => ?_, ?_⟩
  · rw [double_flying flying, order, move, doubled_sends (p := s.part.fresh) gripped move, testAbort_busy (by simp [Arm.sending])]
    rfl
  · rw [single_flying flying, order, move, separated_sends (p := s.part.fresh) move, testAbort_busy (by simp [Arm.sending])]
    rfl
  · intro sp d order source pick held active x u
    let wasted := wasteBlank sp s.reported
    let rejected := rejectPair m.record wasted
    let aimed := modMove (fun m => { m with dest := .bin }) (releaseDest m rejected)
    have wastes : s.reported.Changes _ wasted := wasteBlank_changes
    have start : s.part.Changes [.sent, .arm] s.reported := fresh_changes.andThen reported_changes
    have taken : s.part.Changes _ wasted := start.andThen wastes
    have rejects : wasted.Changes _ rejected := rejectPair_changes
    have releases : rejected.Changes _ (releaseDest m rejected) := releaseDest_changes
    have aims : (releaseDest m rejected).Changes [.arm] aimed := modMove_changes
    have delivers : aimed.Changes [.arm, .sent, .tower] (clearArmMark (deliverPair aimed)) :=
      (deliverPair_changes.andThen clearArmMark_changes).widen rfl
    have held' : wasted.disc m.record = some d := (congrFun (disc_congr (taken .discs (by decide))) _).trans held
    obtain ⟨standing, raised⟩ := rejectPair_held held' active
    have alike : s.part.Alike m.record rejected := (taken.alike m.record).trans rejectPair_alike
    have reach : u.Alike m.record (clearArmMark (deliverPair aimed)) :=
      ((alike.release.trans (releaseDest_release.alike m.record)).trans (aims.alike m.record)).trans (delivers.alike m.record)
    have after := aims.andThen delivers
    have bays : (clearArmMark (deliverPair aimed)).bay = (releaseDest m rejected).bay := bay_congr (after .bays (by decide))
    have attn : (clearArmMark (deliverPair aimed)).attn = rejected.attn :=
      (after .attn (by decide)).trans (releases .attn (by decide))
    have discs : (clearArmMark (deliverPair aimed)).disc = (release m.record rejected).disc :=
      (disc_congr (after .discs (by decide))).trans (disc_congr (releaseDest_release .discs (by decide)))
    have spindle : (clearArmMark (deliverPair aimed)).spindle = wasted.spindle := by
      have later := (rejects.andThen releases).andThen after
      exact spindle_congr ⟨later .spindleA (by decide), later .spindleB (by decide)⟩
    have spindles : wasted.spindle = (s.part.setSpindle sp { x with
        count := x.count - 1, empty := x.empty || decide (x.count ≤ 1), wasted := min 65535 (x.wasted + 1) }).spindle := by
      simp only [wasted, wasteBlank_eq, useBlank_eq]
      cases sp <;> exact spindle_congr ⟨rfl, rfl⟩
    have arm : aimed.arm = { s.part.arm with
        op := none, heldInterrupted := false, move := some { m with dest := .bin } } := by
      have same : (releaseDest m rejected).arm = s.reported.arm :=
        (releases .arm (by decide)).trans ((rejects .arm (by decide)).trans (wastes .arm (by decide)))
      show (modMove _ _).arm = _
      rw [modMove_arm, same, show s.reported.arm.move = some m from move]
      rfl
    have before : s.part.Changes _ aimed := ((taken.andThen rejects).andThen releases).andThen aims
    have bin : aimed.bin = s.part.bin := before .bin (by decide)
    have now : aimed.now = s.part.now := before .now (by decide)
    have same : aimed.tower = s.part.tower := before .tower (by decide)
    have sent : aimed.sent = [] :=
      (((wastes.andThen rejects).andThen releases).andThen aims) .sent (by decide)
    have bay : rejected.bay = s.part.bay := bay_congr ((taken.andThen rejects) .bays (by decide))
    have inkWait : rejected.inkWait = s.part.inkWait := (taken.andThen rejects) .inkWait (by decide)
    refine ⟨clearArmMark (deliverPair aimed), ?_, ?_, reach.jobs, reach.ink, reach.inkWait, reach.printQueue, ?_, ?_, ?_,
      fun absent => ?_, reach.others, fun unrejected => ?_, fun b => ?_, fun full => ?_, fun room => ?_⟩
    · rw [stillDouble_flying flying, order, move, unseparated_pair source]
    · exact (((reported_changes.andThen wastes).andThen rejects).andThen (releases.andThen after)).widen rfl
    · show (deliverPair aimed).tower.armUnmarked = _
      rw [deliverPair_changes .tower (by decide), same]
      rfl
    · rw [spindle, spindles]
      exact Part.setSpindle_self _ _ _
    · rw [spindle, spindles]
      exact fun k other => Part.setSpindle_other _ _ _ _ other
    · rw [discs, release_disc (inkWait ▸ absent), standing]
      rfl
    · rw [attn]
      exact raised unrejected
    · rw [bays, releaseDest_bay, Part.bayFreed, bay]
      simp only [pick, true_and]
    · have waits : aimed.bin.full = true := by rw [bin]; simpa [Sink.full] using full
      obtain ⟨sent', arm'⟩ := pair_waits waits
      rw [arm] at arm'
      exact ⟨sent'.trans sent, arm'⟩
    · have sends : aimed.bin.full = false := by rw [bin]; simpa [Sink.full] using room
      obtain ⟨sent', arm'⟩ := pair_sends sends
      rw [sent] at sent'
      rw [arm, now, same] at arm'
      exact ⟨sent', arm'⟩

end Sys2Proof.Machine
end

