-- ==== Sys2Proof/Proofs/Homing.lean ====
section
/-! PROOF. HOMED: the grip resolution and the tower's resumption (R11, R43, R47, R49, R51, R57, R59, R60, R75, R156,
R167, R171, R172). -/

namespace Sys2Proof.Machine

-- One proof after another: side by side, their threads' stacks pass the check's memory limit.
set_option Elab.async false

variable {p q u : Part} {s : State} {o : ArmOp} {m : Move} {pl : Place} {b : Fin 12} {r : Fin 24} {d : Disc}
  {sp : SpindleId} {t : Tower} {a : Attention} {why : HomeFor} {held : Bool}

/-! ## The tower resumes -/

/-- A PAUSED or HALTED tower has resumed, or tower control stands as `t` with the flags `a` (R59, R62). -/
def State.Resumed (s : State) (t : Tower) (a : Attention) (q : Part) : Prop :=
  (∀ x, (s.part.tower.state = .paused ∨ s.part.tower.state = .halted) → s.part.tower.resume = some x →
    q.tower = { t with state := x.state, resume := none } ∧ q.attn = a.raise .towerState s.part.now) ∧
  ((s.part.tower.state ≠ .paused ∧ s.part.tower.state ≠ .halted) ∨ s.part.tower.resume = none → q.tower = t ∧ q.attn = a)

theorem resumeTower_resumed (state : p.tower.state = s.part.tower.state) (resume : p.tower.resume = s.part.tower.resume)
    (now : p.now = s.part.now) : s.Resumed p.tower p.attn (resumeTower p) := by
  unfold State.Resumed resumeTower
  rw [← state, ← resume, ← now]
  refine ⟨fun x stopped some' => ?_, fun going => ?_⟩
  · rw [if_pos stopped, some']
    exact ⟨rfl, rfl⟩
  · by_cases stopped : p.tower.state = .paused ∨ p.tower.state = .halted
    · have none' : p.tower.resume = none := going.resolve_left fun h => stopped.elim h.1 h.2
      rw [if_pos stopped, none']
      exact ⟨rfl, rfl⟩
    · rw [if_neg stopped]
      exact ⟨rfl, rfl⟩

/-! ## The resolution -/

/-- The part as HOMED finds it: the arm IDLE, its move no longer interrupted (R59; log 36). -/
def State.homing (s : State) : Part :=
  modMove (fun m => { m with interrupted := false }) (enterArm .idle (endArmOp s.part.fresh))

theorem homing_changes : s.part.fresh.Changes [.arm] s.homing :=
  ((endArmOp_changes.andThen enterArm_changes).andThen modMove_changes).widen rfl

theorem homing_tower : s.homing.tower = s.part.tower := homing_changes .tower (by decide)

theorem homing_now : s.homing.now = s.part.now := homing_changes .now (by decide)

theorem homing_attn : s.homing.attn = s.part.attn := homing_changes .attn (by decide)

theorem homing_occupant : s.homing.occupant = s.part.occupant := occupant_congr (homing_changes .places (by decide))

theorem homing_disc : s.homing.disc = s.part.disc := disc_congr (homing_changes .discs (by decide))

theorem homing_lowestFree : s.homing.lowestFree = s.part.lowestFree := by rw [Part.lowestFree, homing_disc, Part.lowestFree]

theorem homing_arm : s.homing.arm = { s.part.arm with
    op := none, heldInterrupted := false, state := .idle, halt := none
    move := s.part.arm.move.map fun m => { m with interrupted := false } } := rfl

/-- The grip resolution (R60). -/
def resolve (held : Bool) (p : Part) : Part :=
  match p.arm.move with
  | some m => if held then resolveHeld m p else resolveEmpty m p
  | none => resolveAbsent held p

theorem homed_eq (held : Bool) : homed held s.part.fresh =
    if (resolve held s.homing).arm.state = .halted then resolve held s.homing
    else resumeTower (if (resolve held s.homing).arm.op.isNone then clearArmMark (resolve held s.homing)
      else resolve held s.homing) := rfl

theorem homed_flying (flying : s.flying o) (order : o.order = .home why) (held : Bool) :
    exec (.homed o.id held) s = .next (s.became (settle (testAbort (homed held s.part.fresh)))) := by
  rw [homed_taken flying.1, armReport_flight (fit_flying flying), order]
  rfl

/-- HOMED with the move ended: the sweep's arm mark clears (R167). -/
theorem homed_ends (flying : s.flying o) (order : o.order = .home why) (is : resolve held s.homing = u) {fs : List Field}
    (resolves : s.homing.Changes fs u) (ended : u.arm.op = none) (going : u.arm.state ≠ .halted)
    (free : Field.tower ∉ fs ∧ Field.now ∉ fs := by decide) :
    ∃ q, exec (.homed o.id held) s = .next (s.became (settle (testAbort q))) ∧ u.Changes [.tower, .attn] q ∧
      s.Resumed s.part.tower.armUnmarked u.attn q := by
  obtain ⟨tower, now⟩ := free
  have marked : (clearArmMark u).tower = s.part.tower.armUnmarked := by
    show u.tower.armUnmarked = _
    rw [resolves .tower tower, homing_tower]
  have same : (clearArmMark u).now = s.part.now := (resolves .now now).trans homing_now
  refine ⟨resumeTower (clearArmMark u), ?_, (clearArmMark_changes.andThen resumeTower_changes).widen rfl, ?_⟩
  · rw [homed_flying flying order, homed_eq, is, if_neg going, ended]
    rfl
  · have resumed := resumeTower_resumed (p := clearArmMark u) (s := s) (by rw [marked]; rfl) (by rw [marked]; rfl)
      same
    rwa [marked] at resumed

/-- HOMED with an operation sent: the mark waits for it (R167). -/
theorem homed_sends (flying : s.flying o) (order : o.order = .home why) (is : resolve held s.homing = u) {fs : List Field}
    (resolves : s.homing.Changes fs u) {x : ArmOp} (busy : u.arm.op = some x) (going : u.arm.state ≠ .halted)
    (free : Field.tower ∉ fs ∧ Field.now ∉ fs := by decide) :
    ∃ q, exec (.homed o.id held) s = .next (s.became (settle (testAbort q))) ∧ u.Changes [.tower, .attn] q ∧
      s.Resumed s.part.tower u.attn q := by
  obtain ⟨tower, now⟩ := free
  have same : u.tower = s.part.tower := (resolves .tower tower).trans homing_tower
  refine ⟨resumeTower u, ?_, resumeTower_changes, ?_⟩
  · rw [homed_flying flying order, homed_eq, is, if_neg going, busy]
    rfl
  · have resumed := resumeTower_resumed (p := u) (s := s) (by rw [same]) (by rw [same]) ((resolves .now now).trans homing_now)
    rwa [same] at resumed

/-! ## With no move -/

theorem homing_move_none (move : s.part.arm.move = none) : s.homing.arm.move = none := by
  rw [homing_arm]
  dsimp only
  rw [move]
  rfl

theorem homing_move_some (move : s.part.arm.move = some m) : s.homing.arm.move = some { m with interrupted := false } := by
  rw [homing_arm]
  dsimp only
  rw [move]
  rfl

theorem resolve_none (move : p.arm.move = none) : resolve held p = resolveAbsent held p := by
  rw [resolve, move]

theorem resolve_held (move : p.arm.move = some m) : resolve true p = resolveHeld m p := by
  rw [resolve, move]
  rfl

theorem resolve_empty (move : p.arm.move = some m) : resolve false p = resolveEmpty m p := by
  rw [resolve, move]
  rfl

theorem resolveAbsent_agrees (agrees : held = (p.occupant .arm).isSome) : resolveAbsent held p = p := by
  have agrees' : held = p.places.arm.isSome := agrees
  unfold resolveAbsent
  rw [agrees']
  cases p.places.arm <;> rfl

theorem resolveAbsent_lost (occupied : p.occupant .arm = some r) :
    resolveAbsent false p = finaliseLost r (p.setOccupant .arm none) := by
  unfold resolveAbsent
  rw [show p.places.arm = some r from occupied]

theorem resolveAbsent_found (empty : p.occupant .arm = none) : resolveAbsent true p =
    if (createFound .arm p).2 then (createFound .arm p).1 else jam (createFound .arm p).1 := by
  unfold resolveAbsent
  rw [show p.places.arm = none from empty]

/-- A FOUND record at a place (R11). -/
def foundAt (pl : Place) (r : Fin 24) (p : Part) : Part :=
  raise .foundDisc ((p.setDisc r (some { Disc.fresh .hostHold .pending with place := some pl })).setOccupant pl (some r))

theorem createFound_free (free : p.lowestFree = some r) (pl : Place) : createFound pl p = (foundAt pl r p, true) := by
  rw [createFound, free]
  rfl

theorem foundAt_changes : p.Changes [.discs, .places, .attn] (foundAt pl r p) :=
  (setDisc_changes.andThen setOccupant_changes).andThen raise_changes

theorem foundAt_disc : (foundAt pl r p).disc = (p.setDisc r (some { Disc.fresh .hostHold .pending with place := some pl })).disc :=
  disc_congr ((setOccupant_changes.andThen raise_changes) .discs (by decide))

theorem foundAt_others : OthersKept p.disc (foundAt pl r p).disc r := fun _ other => by
  rw [foundAt_disc, Part.setDisc_other _ _ _ _ other]

theorem foundAt_here : (foundAt pl r p).occupant pl = some r := Part.setOccupant_self _ _ _

theorem foundAt_occupants : OthersKept p.occupant (foundAt pl r p).occupant pl := fun _ other =>
  Part.setOccupant_other _ _ _ _ other

theorem createFound_full (full : p.lowestFree = none) (pl : Place) : createFound pl p = (raise .foundDisc p, false) := by
  rw [createFound, full]

/-- The arm IDLE with no operation in flight (R47). -/
def Arm.idle (a : Arm) : Arm := { a with op := none, heldInterrupted := false, state := .idle, halt := none }

theorem homing_arm_none (move : s.part.arm.move = none) : s.homing.arm = s.part.arm.idle := by
  rw [homing_arm, move]
  simp [Arm.idle, move]

section
variable (flying : s.flying o) (order : o.order = .home why) (move : s.part.arm.move = none)
include flying order move

/-- The grip agrees with the record (R60). -/
theorem homed_confirms (agrees : held = (s.part.occupant .arm).isSome) :
    ∃ q, exec (.homed o.id held) s = .next (s.became (settle (testAbort q))) ∧
      s.part.fresh.Changes [.arm, .tower, .attn] q ∧ q.arm = s.part.arm.idle ∧
      s.Resumed s.part.tower.armUnmarked s.part.attn q := by
  have arm := homing_arm_none move
  have is : resolve held s.homing = s.homing := (resolve_none (homing_move_none move)).trans (resolveAbsent_agrees (by rw [homing_occupant, agrees]))
  obtain ⟨q, taken, later, resumed⟩ := homed_ends flying order is (.refl _ []) (by rw [arm]; rfl) (by rw [arm]; simp [Arm.idle])
  rw [homing_attn] at resumed
  exact ⟨q, taken, (homing_changes.andThen later).widen rfl, (later .arm (by decide)).trans arm, resumed⟩

/-- The arm's disc is lost (R60). -/
theorem homed_loses (occupied : s.part.occupant .arm = some r) (held : s.part.disc r = some d) :
    ∃ q, exec (.homed o.id false) s = .next (s.became (settle (testAbort q))) ∧
      s.part.fresh.Changes [.arm, .tower, .attn, .discs, .places, .jobs, .ink, .inkWait, .printQueue, .heldSpell] q ∧
      q.arm = s.part.arm.idle ∧
      s.part.EndsRejected (leaveLabelUnit r s.part) r d.lost (tellRejected false d.job) q ∧ s.part.Landed q ∧
      s.Resumed s.part.tower.armUnmarked
        (tellRejected false d.job { leaveLabelUnit r s.part with attn := s.part.rejectFlags d }).attn q := by
  have arm := homing_arm_none move
  have start : s.part.Changes [.sent, .arm] s.homing := fresh_changes.andThen homing_changes
  obtain ⟨ends, attn, occupant⟩ := placeLost_ends start held .arm
  have lost := (setOccupant_changes (p := s.homing) (pl := .arm) (o := none)).andThen (finaliseLost_changes (r := r))
  have is : resolve false s.homing = finaliseLost r (s.homing.setOccupant .arm none) :=
    (resolve_none (homing_move_none move)).trans (resolveAbsent_lost (by rw [homing_occupant, occupied]))
  have arm' := (lost .arm (by decide)).trans arm
  obtain ⟨q, taken, later, resumed⟩ := homed_ends flying order is lost (by rw [arm']; rfl) (by rw [arm']; simp [Arm.idle])
  rw [attn] at resumed
  have landed := (armLeft_landed (later := (finaliseLost_changes (r := r)).andThen later)).of
    (occupant_congr (start .places (by decide)))
  exact ⟨q, taken, ((homing_changes.andThen lost).andThen later).widen rfl, (later .arm (by decide)).trans arm',
    ends.andThen later, landed, resumed⟩

/-- A disc with no record becomes FOUND (R11, R60). -/
theorem homed_finds (empty : s.part.occupant .arm = none) (free : s.part.lowestFree = some r) :
    ∃ q, exec (.homed o.id true) s = .next (s.became (settle (testAbort q))) ∧
      s.part.fresh.Changes [.arm, .tower, .attn, .discs, .places] q ∧ q.arm = s.part.arm.idle ∧
      q.disc r = some { Disc.fresh .hostHold .pending with place := some .arm } ∧ OthersKept s.part.disc q.disc r ∧
      q.occupant .arm = some r ∧ (∀ pl, pl ≠ .arm → q.occupant pl = s.part.occupant pl) ∧
      s.Resumed s.part.tower.armUnmarked (s.part.attn.raise .foundDisc s.part.now) q := by
  have arm := homing_arm_none move
  have is : resolve true s.homing = foundAt .arm r s.homing := by
    rw [resolve_none (homing_move_none move), resolveAbsent_found (by rw [homing_occupant, empty]),
      createFound_free (homing_lowestFree.trans free)]
    rfl
  have placed : s.homing.Changes _ (foundAt .arm r s.homing) := foundAt_changes
  have arm' : (foundAt .arm r s.homing).arm = s.part.arm.idle := (placed .arm (by decide)).trans arm
  obtain ⟨q, taken, later, resumed⟩ := homed_ends flying order is placed (by rw [arm']; rfl) (by rw [arm']; simp [Arm.idle])
  have disc := disc_congr (later .discs (by decide))
  have occupant := occupant_congr (later .places (by decide))
  refine ⟨q, taken, ((homing_changes.andThen placed).andThen later).widen rfl, (later .arm (by decide)).trans arm', ?_⟩
  have others := foundAt_others (pl := .arm) (r := r) (p := s.homing)
  have occupants := foundAt_occupants (pl := .arm) (r := r) (p := s.homing)
  have attn : (foundAt .arm r s.homing).attn = s.part.attn.raise .foundDisc s.part.now := by
    show s.homing.attn.raise _ s.homing.now = _
    rw [homing_attn, homing_now]
  rw [homing_disc] at others
  rw [homing_occupant] at occupants
  rw [attn] at resumed
  rw [disc, occupant]
  exact ⟨by rw [foundAt_disc, Part.setDisc_self], others, foundAt_here, occupants, resumed⟩

/-- A disc with no record and none free jams the arm (R11, R60, R61). -/
theorem homed_jams (empty : s.part.occupant .arm = none) (full : s.part.lowestFree = none) :
    ∃ q, exec (.homed o.id true) s = .next (s.became (settle (testAbort q))) ∧
      s.part.fresh.Changes [.arm, .tower, .attn] q ∧ (raise .foundDisc s.homing).Jammed q := by
  have is : resolve true s.homing = jam (raise .foundDisc s.homing) := by
    rw [resolve_none (homing_move_none move), resolveAbsent_found (by rw [homing_occupant, empty]), createFound_full (homing_lowestFree.trans full)]
    rfl
  have jams := jam_jammed (raise .foundDisc s.homing)
  refine ⟨_, ?_, ((homing_changes.andThen raise_changes).andThen jams.changes).widen rfl, jams⟩
  rw [homed_flying flying order, homed_eq, is, if_pos (by rw [jams.arm])]

end

/-! ## With a move, the disc held -/

/-- The move as HOMED resumes it (log 36). -/
def Move.resumed (m : Move) : Move := { m with interrupted := false }

theorem homing_arm_some (move : s.part.arm.move = some m) :
    s.homing.arm = { s.part.arm.idle with move := some m.resumed } := by
  rw [homing_arm, move]
  rfl

/-- An operation sent from HOMED (R48, R50, R60). -/
theorem sent_arm {x : Option Move} (arm : p.arm = { s.part.arm.idle with move := x }) (now : p.now = s.part.now)
    (tower : p.tower = s.part.tower) (order : ArmOrder) (st : ArmState) :
    (sendArm order (enterArm st p)).arm = { s.part.arm.sending order (s.part.now + s.part.tower.moveTimeout) with
      state := st, halt := none, move := x } := by
  rw [sendArm_eq]
  show Arm.sending { p.arm with state := st, halt := none } order (p.now + p.tower.moveTimeout) = _
  rw [arm, now, tower]
  rfl

theorem deliverPair_sending (room : p.bin.full = false) :
    deliverPair p = sendArm (.deliver .bin) (enterArm .moving (modMove (fun m => { m with feed := .pair }) p)) := by
  rw [deliverPair_sends room]
  rfl

theorem sendArm_sent (order : ArmOrder) (st : ArmState) : (sendArm order (enterArm st p)).sent = p.sent ++ [.arm order] := rfl

theorem sentArm_changes (order : ArmOrder) (st : ArmState) : p.Changes [.arm, .sent] (sendArm order (enterArm st p)) :=
  (enterArm_changes.andThen sendArm_changes).widen rfl

theorem resolveEmpty_gripped (gripped : m.gripped = true) (p : Part) : resolveEmpty m p = dropLost m p := by
  rw [resolveEmpty, if_pos gripped]

theorem resolveEmpty_pick (ungripped : m.gripped = false) (pick : m.kind = .pick) (p : Part) :
    resolveEmpty m p = withdrawPick m p := by
  rw [resolveEmpty, if_neg (by simp [ungripped]), pick]

theorem resolveEmpty_other (ungripped : m.gripped = false) (other : m.kind ≠ .pick) (p : Part) :
    resolveEmpty m p = endMove p := by
  rw [resolveEmpty, if_neg (by simp [ungripped])]
  cases kind : m.kind with
  | pick => exact absurd kind other
  | transfer => rfl
  | deliver => rfl

/-- What a disc gripped at its place leaves there: at PRINTER, or in a PRESENTING bay (R43, R49, R75, R156). -/
structure Part.Grips (p : Part) (m : Move) (pl : Place) (q : Part) : Prop where
  changes : p.Changes [.arm, .attn, .discs, .places, .bays, .printQueue, .station] q
  lifts : p.Lifts m pl q
  arm : q.arm = { p.arm with move := p.arm.move.map fun m => { m with gripped := true } }
  bays : ∀ b, q.bay b = if pl = .bay b then (p.bay b).emptied else p.bay b
  station : q.station = if pl = .printer ∧ p.station.state = .finished then
    { p.station with state := .empty, faultCause := none } else p.station
  attn : q.attn = if ∃ b, pl = .bay b ∧ (p.bay b).consecutiveFailures = 3 then p.attn.raise .bayFault p.now else p.attn

theorem grip_grips (source : m.source = .place pl) (elsewhere : pl ≠ .arm)
    (presenting : ∀ b, pl = .bay b → (p.bay b).state = .presenting) : p.Grips m pl (grip m p) := by
  cases pl with
  | bay b =>
    obtain ⟨changes, lifts, arm, bay, others, attn⟩ := grip_bay source (presenting b rfl)
    refine ⟨changes.widen rfl, lifts, arm, fun k => ?_, ?_, ?_⟩
    · by_cases same : b = k
      · rw [← same, if_pos rfl, bay]
      · rw [if_neg (by simpa using same), others k (Ne.symm same)]
    · rw [changes .station (by decide), if_neg (by simp)]
    · rw [attn]
      simp
  | printer =>
    obtain ⟨changes, lifts, arm, station⟩ := grip_printer source (p := p)
    refine ⟨changes.widen rfl, lifts, arm, fun k => ?_, ?_, ?_⟩
    · rw [bay_congr (changes .bays (by decide)), if_neg (by simp)]
    · rw [station]
      simp
    · rw [changes .attn (by decide), if_neg (by simp)]
  | arm => exact absurd rfl elsewhere

section
variable (flying : s.flying o) (order : o.order = .home why) (move : s.part.arm.move = some m)
include flying order move

omit move in
/-- What HOMED resolves by sending one operation, its move as `x` (R60). -/
theorem homed_sendsOrder {fs : List Field} {g : Part} {x : Option Move} {order' : ArmOrder} {st : ArmState}
    (is : resolve held s.homing = sendArm order' (enterArm st g)) (changes : s.homing.Changes fs g)
    (arm : g.arm = { s.part.arm.idle with move := x }) (working : st ≠ .halted)
    (free : Field.tower ∉ fs ∧ Field.now ∉ fs ∧ Field.sent ∉ fs := by decide) :
    ∃ q, exec (.homed o.id held) s = .next (s.became (settle (testAbort q))) ∧ g.Changes [.arm, .sent, .tower, .attn] q ∧
      q.sent = [.arm order'] ∧
      q.arm = { s.part.arm.sending order' (s.part.now + s.part.tower.moveTimeout) with
        state := st, halt := none, move := x } ∧
      s.Resumed s.part.tower g.attn q := by
  obtain ⟨tower, now, sent⟩ := free
  have tower' := (changes .tower tower).trans homing_tower
  have now' := (changes .now now).trans homing_now
  have sends := sentArm_changes (p := g) order' st
  have arm' := sent_arm arm now' tower' order' st
  have sent' : g.sent = [] := (changes .sent sent).trans (homing_changes .sent (by decide))
  obtain ⟨q, taken, later, resumed⟩ := homed_sends flying order is (changes.andThen sends) (by rw [arm']; rfl)
    (by rw [arm']; exact working) (by simp [tower, now])
  rw [sends .attn (by decide)] at resumed
  refine ⟨q, taken, (sends.andThen later).widen rfl, ?_, (later .arm (by decide)).trans arm', resumed⟩
  rw [later .sent (by decide), sendArm_sent, sent']
  rfl

/-- The disc goes on to its destination, gripped first if it was not (R60). -/
theorem homed_delivers (feed : m.feed = .single ∨ m.feed = .pair) {fs : List Field} {g : Part}
    (grips : (if m.gripped then s.homing else grip m.resumed s.homing) = g) (changes : s.homing.Changes fs g)
    (arm : g.arm = { s.part.arm.idle with move := some { m with gripped := true, interrupted := false } })
    (free : Field.tower ∉ fs ∧ Field.now ∉ fs ∧ Field.sent ∉ fs := by decide) :
    ∃ q, exec (.homed o.id true) s = .next (s.became (settle (testAbort q))) ∧ g.Changes [.arm, .sent, .tower, .attn] q ∧
      q.sent = [.arm (.deliver m.dest)] ∧
      q.arm = { s.part.arm.sending (.deliver m.dest) (s.part.now + s.part.tower.moveTimeout) with
        state := .moving, halt := none, move := some { m with gripped := true, interrupted := false } } ∧
      s.Resumed s.part.tower g.attn q := by
  have is : resolve true s.homing = sendArm (.deliver m.dest) (enterArm .moving g) := by
    rw [resolve_held (homing_move_some move), ← grips]
    show resolveHeld m.resumed s.homing = _
    rw [resolveHeld_eq]
    obtain single | pair := feed
    · rw [if_neg (by simp [Move.resumed, single]), if_neg (by simp [Move.resumed, single])]
      rfl
    · rw [if_neg (by simp [Move.resumed, pair]), if_neg (by simp [Move.resumed, pair])]
      rfl
  exact homed_sendsOrder flying order is changes arm (by simp) free

/-- A SEPARATE is sent again (R60). -/
theorem homed_separates (feed : m.feed = .separating) :
    ∃ q, exec (.homed o.id true) s = .next (s.became (settle (testAbort q))) ∧
      s.part.fresh.Changes [.sent, .tower, .attn, .arm] q ∧ q.sent = [.arm .separate] ∧
      q.arm = { s.part.arm.sending .separate (s.part.now + s.part.tower.moveTimeout) with
        state := .separating, halt := none, move := some { m with interrupted := false } } ∧
      s.Resumed s.part.tower s.part.attn q := by
  have is : resolve true s.homing = sendArm .separate (enterArm .separating s.homing) := by
    rw [resolve_held (homing_move_some move), resolveHeld_eq, if_pos feed]
  obtain ⟨q, taken, later, sent, arm, resumed⟩ :=
    homed_sendsOrder flying order is (.refl _ []) (homing_arm_some move) (by simp)
  rw [homing_attn] at resumed
  exact ⟨q, taken, (homing_changes.andThen later).widen rfl, sent, arm, resumed⟩

/-- A pair that was waiting is delivered once the bin has room (R60). -/
theorem homed_deliversPair (feed : m.feed = .pairWaiting) (room : s.part.bin.count < s.part.bin.capacity) :
    ∃ q, exec (.homed o.id true) s = .next (s.became (settle (testAbort q))) ∧
      s.part.fresh.Changes [.sent, .tower, .attn, .arm] q ∧ q.sent = [.arm (.deliver .bin)] ∧
      q.arm = { s.part.arm.sending (.deliver .bin) (s.part.now + s.part.tower.moveTimeout) with
        state := .moving, halt := none, move := some { m with interrupted := false, feed := .pair } } ∧
      s.Resumed s.part.tower s.part.attn q := by
  have roomy : s.homing.bin.full = false := by
    rw [homing_changes .bin (by decide)]
    exact decide_eq_false (Nat.not_le.2 room)
  let g := modMove (fun m => { m with feed := .pair }) s.homing
  have is : resolve true s.homing = sendArm (.deliver .bin) (enterArm .moving g) := by
    rw [resolve_held (homing_move_some move), resolveHeld_eq, if_neg (by simp [feed]), if_pos feed, deliverPair_sending roomy]
  have arm : g.arm = { s.part.arm.idle with move := some { m with interrupted := false, feed := .pair } } := by
    show (modMove _ _).arm = _
    rw [modMove_arm, homing_arm_some move]
    rfl
  obtain ⟨q, taken, later, sent, arm, resumed⟩ := homed_sendsOrder flying order is modMove_changes arm (by simp)
  rw [show g.attn = s.homing.attn from modMove_changes .attn (by decide), homing_attn] at resumed
  exact ⟨q, taken, ((homing_changes.andThen modMove_changes).andThen later).widen rfl, sent, arm, resumed⟩

/-- A pair that was waiting waits again while the bin is full (R60). -/
theorem homed_waits (feed : m.feed = .pairWaiting) (full : s.part.bin.capacity ≤ s.part.bin.count) :
    ∃ q, exec (.homed o.id true) s = .next (s.became (settle (testAbort q))) ∧
      s.part.fresh.Changes [.tower, .attn, .arm] q ∧
      q.arm = { s.part.arm.idle with state := .moving, move := some { m with interrupted := false } } ∧
      s.Resumed s.part.tower.armUnmarked s.part.attn q := by
  have filled : s.homing.bin.full = true := by
    rw [homing_changes .bin (by decide)]
    exact decide_eq_true full
  have is : resolve true s.homing = deliverPair s.homing := by
    rw [resolve_held (homing_move_some move), resolveHeld_eq, if_neg (by simp [feed]), if_pos feed]
  have arm : (deliverPair s.homing).arm =
      { s.part.arm.idle with state := .moving, move := some { m with interrupted := false } } := by
    rw [deliverPair_waits filled, homing_arm_some move, feed]
    rfl
  have changes : s.homing.Changes [.arm] (deliverPair s.homing) := by
    rw [deliverPair_waits filled]
    exact arm_changes
  obtain ⟨q, taken, later, resumed⟩ := homed_ends flying order is changes (by rw [arm]; rfl) (by rw [arm]; simp)
  rw [changes .attn (by decide), homing_attn] at resumed
  exact ⟨q, taken, ((homing_changes.andThen changes).andThen later).widen rfl, (later .arm (by decide)).trans arm, resumed⟩

/-! ## With a move, no disc held -/

/-- A transfer that had gripped nothing ends (R60). -/
theorem homed_endsMove (ungripped : m.gripped = false) (other : m.kind ≠ .pick) :
    ∃ q, exec (.homed o.id false) s = .next (s.became (settle (testAbort q))) ∧
      s.part.fresh.Changes [.arm, .tower, .attn] q ∧ q.arm = { s.part.arm.idle with move := none } ∧
      s.Resumed s.part.tower.armUnmarked s.part.attn q := by
  have is : resolve false s.homing = endMove s.homing :=
    (resolve_empty (homing_move_some move)).trans (resolveEmpty_other (m := m.resumed) ungripped other _)
  have arm : (endMove s.homing).arm = { s.part.arm.idle with move := none } := by
    rw [endMove_arm, homing_arm_some move]
    rfl
  have ends : s.homing.Changes [.arm] (endMove s.homing) := endMove_changes
  obtain ⟨q, taken, later, resumed⟩ := homed_ends flying order is ends (by rw [arm]; rfl) (by rw [arm]; simp [Arm.idle])
  rw [ends .attn (by decide), homing_attn] at resumed
  exact ⟨q, taken, ((homing_changes.andThen ends).andThen later).widen rfl, (later .arm (by decide)).trans arm, resumed⟩

/-- A pick that had gripped nothing is withdrawn (R10, R60). -/
theorem homed_withdraws (ungripped : m.gripped = false) (pick : m.kind = .pick) (held : s.part.disc m.record = some d)
    (unlisted : s.part.Unlisted m.record) :
    ∃ q, exec (.homed o.id false) s = .next (s.became (settle (testAbort q))) ∧
      s.part.fresh.Changes [.arm, .tower, .attn, .discs, .places, .bays, .heldSpell, .jobs, .ink, .inkWait, .printQueue] q ∧
      q.arm = { s.part.arm.idle with move := none } ∧
      q.jobs = (tellWithdrawn d.job (release m.record s.part)).jobs ∧
      q.ink = (release m.record s.part).ink ∧ q.inkWait = (release m.record s.part).inkWait ∧
      q.printQueue = (release m.record s.part).printQueue ∧
      q.disc m.record = none ∧ OthersKept (release m.record s.part).disc q.disc m.record ∧
      q.heldSpell = (if 2 ≤ q.freeCount then false else s.part.heldSpell) ∧ s.part.Landed q ∧
      (∀ b, q.bay b = s.part.bayFreed m b) ∧
      s.Resumed s.part.tower.armUnmarked (tellWithdrawn d.job (release m.record s.part)).attn q := by
  have start : s.part.Changes [.sent, .arm] s.homing := fresh_changes.andThen homing_changes
  have is : resolve false s.homing = withdrawPick m.resumed s.homing :=
    (resolve_empty (homing_move_some move)).trans (resolveEmpty_pick (m := m.resumed) ungripped pick _)
  have withdraws : s.homing.Withdraws (release m.record s.part) m.resumed d.job (withdrawPick m.resumed s.homing) :=
    withdrawPick_withdraws (m := m.resumed) (start.alike m.record) (start .now (by decide))
      ((congrFun (disc_congr (start .discs (by decide))) _).trans held) (unlisted.andThen start)
  have arm : (withdrawPick m.resumed s.homing).arm = { s.part.arm.idle with move := none } := by
    rw [withdraws.arm, homing_arm_some move]
    rfl
  have final := withdrawPick_changes (m := m.resumed) (p := s.homing)
  obtain ⟨q, taken, later, resumed⟩ := homed_ends flying order is final (by rw [arm]; rfl) (by rw [arm]; simp [Arm.idle])
  have disc := disc_congr (later .discs (by decide))
  have occupant := occupant_congr (later .places (by decide))
  have attn : (withdrawPick m.resumed s.homing).attn = (tellWithdrawn d.job (release m.record s.part)).attn := by
    have same : (release m.record s.part).attn = s.part.attn := release_changes .attn (by decide)
    rw [withdraws.attn, homing_attn, ← same]
  rw [attn] at resumed
  refine ⟨q, taken, ((homing_changes.andThen final).andThen later).widen rfl, (later .arm (by decide)).trans arm,
    (later .jobs (by decide)).trans withdraws.jobs, (later .ink (by decide)).trans withdraws.ink,
    (later .inkWait (by decide)).trans withdraws.inkWait, (later .printQueue (by decide)).trans withdraws.printQueue,
    disc ▸ withdraws.disc, disc ▸ withdraws.others, ?_, ?_, fun b => ?_, resumed⟩
  · rw [later .heldSpell (by decide), withdraws.heldSpell, freeCount_congr (later .discs (by decide)),
      homing_changes .heldSpell (by decide)]
    rfl
  · exact (withdraws.landed.of (occupant_congr (start .places (by decide)))).andThen later
  · rw [bay_congr (later .bays (by decide)), withdraws.bays, Part.bayFreed, bay_congr (start .bays (by decide))]
    rfl

/-- The disc the arm held is lost (R60). -/
theorem homed_losesHeld (gripped : m.gripped = true) (held : s.part.disc m.record = some d)
    (unlisted : s.part.Unlisted m.record) :
    ∃ q, exec (.homed o.id false) s = .next (s.became (settle (testAbort q))) ∧
      s.part.fresh.Changes [.arm, .tower, .attn, .discs, .places, .bays, .heldSpell, .jobs, .ink, .inkWait, .printQueue] q ∧
      q.arm = { s.part.arm.idle with move := none } ∧
      (∀ b, q.bay b = s.part.bayFreed m b) ∧
      s.part.EndsRejected (release m.record s.part) m.record d.lost (tellRejected false d.job) q ∧ s.part.Landed q ∧
      s.Resumed s.part.tower.armUnmarked
        (tellRejected false d.job { release m.record s.part with attn := s.part.rejectFlags d }).attn q := by
  have start : s.part.Changes [.sent, .arm] s.homing := fresh_changes.andThen homing_changes
  have is : resolve false s.homing = dropLost m.resumed s.homing :=
    (resolve_empty (homing_move_some move)).trans (resolveEmpty_gripped (m := m.resumed) gripped _)
  have loses : s.homing.LosesHeld (release m.record s.part) m.resumed d (dropLost m.resumed s.homing) :=
    dropLost_loses (m := m.resumed) (start.alike m.record) (start .now (by decide))
      ((congrFun (disc_congr (start .discs (by decide))) _).trans held) unlisted
  have arm : (dropLost m.resumed s.homing).arm = { s.part.arm.idle with move := none } := by
    rw [loses.arm, homing_arm_some move]
    rfl
  have final := dropLost_changes (m := m.resumed) (p := s.homing)
  obtain ⟨q, taken, later, resumed⟩ := homed_ends flying order is final (by rw [arm]; rfl) (by rw [arm]; simp [Arm.idle])
  have flags : s.homing.rejectFlags d = s.part.rejectFlags d := by
    rw [Part.rejectFlags, Part.rejectFlags, homing_attn, homing_now]
  rw [loses.attn, flags] at resumed
  refine ⟨q, taken, ((homing_changes.andThen final).andThen later).widen rfl, (later .arm (by decide)).trans arm,
    fun b => ?_, ?_, (loses.landed.of (occupant_congr (start .places (by decide)))).andThen later, resumed⟩
  · rw [bay_congr (later .bays (by decide)), loses.bays, Part.bayFreed, bay_congr (start .bays (by decide))]
    rfl
  · exact (loses.ends.of (by rw [homing_tower]) (start .heldSpell (by decide)).symm).andThen later

/-- A blank not yet gripped is taken from its spindle, and goes on (R43, R60). -/
theorem homed_gripsBlank (feed : m.feed = .single ∨ m.feed = .pair) (ungripped : m.gripped = false)
    (source : m.source = .spindle sp) :
    ∃ q, exec (.homed o.id true) s = .next (s.became (settle (testAbort q))) ∧
      s.part.fresh.Changes [.sent, .tower, .attn, .arm, .spindleA, .spindleB] q ∧
      q.sent = [.arm (.deliver m.dest)] ∧
      q.arm = { s.part.arm.sending (.deliver m.dest) (s.part.now + s.part.tower.moveTimeout) with
        state := .moving, halt := none, move := some { m with gripped := true, interrupted := false } } ∧
      q.spindle sp = { s.part.spindle sp with
        count := (s.part.spindle sp).count - 1
        empty := (s.part.spindle sp).empty || decide ((s.part.spindle sp).count ≤ 1) } ∧
      OthersKept s.part.spindle q.spindle sp ∧
      s.Resumed s.part.tower (if (s.part.spindle sp).empty = false ∧ (s.part.spindle sp).count ≤ 1 then
        s.part.attn.raise .spindleEmpty s.part.now else s.part.attn) q := by
  have used : s.homing.Changes _ (useBlank sp s.homing) := useBlank_changes
  have changes : s.homing.Changes [.spindleA, .spindleB, .attn, .arm] (grip m.resumed s.homing) := by
    rw [grip_spindle (m := m.resumed) source]
    exact used.andThen modMove_changes
  have arm : (grip m.resumed s.homing).arm =
      { s.part.arm.idle with move := some { m with gripped := true, interrupted := false } } := by
    rw [grip_spindle (m := m.resumed) source, modMove_arm, used .arm (by decide), homing_arm_some move]
    rfl
  have spindle₀ : s.homing.spindle = s.part.spindle :=
    spindle_congr ⟨homing_changes .spindleA (by decide), homing_changes .spindleB (by decide)⟩
  have spindles : (grip m.resumed s.homing).spindle = (s.homing.setSpindle sp { s.homing.spindle sp with
      count := (s.homing.spindle sp).count - 1
      empty := (s.homing.spindle sp).empty || decide ((s.homing.spindle sp).count ≤ 1) }).spindle := by
    rw [grip_spindle (m := m.resumed) source, useBlank_eq]
    exact spindle_congr ⟨rfl, rfl⟩
  have attn : (grip m.resumed s.homing).attn = if (s.part.spindle sp).empty = false ∧ (s.part.spindle sp).count ≤ 1 then
      s.part.attn.raise .spindleEmpty s.part.now else s.part.attn := by
    rw [← spindle₀, ← homing_attn, ← homing_now, grip_spindle (m := m.resumed) source, useBlank_eq]
    rfl
  obtain ⟨q, taken, later, sent, arm', resumes⟩ :=
    homed_delivers flying order move feed (if_neg (by simp [ungripped])) changes arm
  have after := spindle_congr ⟨later .spindleA (by decide), later .spindleB (by decide)⟩
  rw [attn] at resumes
  refine ⟨q, taken, ((homing_changes.andThen changes).andThen later).widen rfl, sent, arm', ?_, ?_, resumes⟩
  · rw [after, spindles, Part.setSpindle_self, spindle₀]
  · intro k other
    rw [after, spindles, Part.setSpindle_other _ _ _ _ other, spindle₀]

omit flying order move in
theorem homing_lifts (lifts : s.homing.Lifts m.resumed pl q) : s.part.Lifts m pl q := by
  have queue : s.homing.printQueue = s.part.printQueue := homing_changes .printQueue (by decide)
  obtain ⟨printQueue, taken, others, left, arrived, occupants⟩ := lifts
  rw [homing_disc] at taken others
  rw [homing_occupant] at occupants
  exact ⟨printQueue.trans (by rw [queue]; rfl), taken, others, left, arrived, occupants⟩

/-- A disc not yet gripped is taken from its place, and goes on (R49, R60). -/
theorem homed_gripsPlace (feed : m.feed = .single ∨ m.feed = .pair) (ungripped : m.gripped = false)
    (source : m.source = .place pl) (elsewhere : pl ≠ .arm)
    (presenting : ∀ b, pl = .bay b → (s.part.bay b).state = .presenting) :
    ∃ q, exec (.homed o.id true) s = .next (s.became (settle (testAbort q))) ∧
      s.part.fresh.Changes [.sent, .tower, .attn, .arm, .discs, .places, .printQueue, .bays, .station] q ∧
      q.sent = [.arm (.deliver m.dest)] ∧
      q.arm = { s.part.arm.sending (.deliver m.dest) (s.part.now + s.part.tower.moveTimeout) with
        state := .moving, halt := none, move := some { m with gripped := true, interrupted := false } } ∧
      s.part.Lifts m pl q ∧
      (∀ b, q.bay b = if pl = .bay b then (s.part.bay b).emptied else s.part.bay b) ∧
      q.station = (if pl = .printer ∧ s.part.station.state = .finished then
        { s.part.station with state := .empty, faultCause := none } else s.part.station) ∧
      s.Resumed s.part.tower (if ∃ b, pl = .bay b ∧ (s.part.bay b).consecutiveFailures = 3 then
        s.part.attn.raise .bayFault s.part.now else s.part.attn) q := by
  have bay₀ : s.homing.bay = s.part.bay := bay_congr (homing_changes .bays (by decide))
  have station₀ : s.homing.station = s.part.station := homing_changes .station (by decide)
  have presents : ∀ b, pl = .bay b → (s.homing.bay b).state = .presenting := by
    rw [bay₀]
    exact presenting
  obtain ⟨changes, lifts, arm, bays, station, attn⟩ := grip_grips (m := m.resumed) source elsewhere presents
  rw [homing_arm_some move] at arm
  rw [bay₀] at bays
  rw [station₀] at station
  rw [bay₀, homing_attn, homing_now] at attn
  obtain ⟨q, taken, later, sent, arm', resumes⟩ :=
    homed_delivers flying order move feed (if_neg (by simp [ungripped])) changes arm
  rw [attn] at resumes
  have lifts := lifts.andThen later
  refine ⟨q, taken, ((homing_changes.andThen changes).andThen later).widen rfl, sent, arm', homing_lifts lifts, ?_, ?_,
    resumes⟩
  · exact fun b => (congrFun (bay_congr (later .bays (by decide))) b).trans (bays b)
  · exact (later .station (by decide)).trans station

end

/-! ## The obligation -/

/-- Settles O24: by the current move, and by whether the arm holds a disc. -/
theorem homingResolves : Obligations.HomingResolves := by
  intro s o why flying order idle deadline marked resumed homes retire lost freed delivers
  refine ⟨?_, ?_, ?_, ?_, ?_, ?_⟩
  · intro move
    refine ⟨fun held agrees => ?_, fun r d occupied held => ?_, fun empty r free => ?_, fun empty full => ?_⟩
    · exact homed_confirms flying order move agrees
    · obtain ⟨q, taken, changes, arm, ends, landed, resumes⟩ := homed_loses flying order move occupied held
      exact ⟨q, taken, changes, arm, ends.jobs, ends.ink, ends.inkWait, ends.printQueue, ends.disc, ends.others,
        ends.heldSpell, landed.armEmpty, landed.occupants, resumes⟩
    · exact homed_finds flying order move empty free
    · obtain ⟨q, taken, changes, jams⟩ := homed_jams flying order move empty full
      have arm : (raise .foundDisc s.homing).arm = s.part.arm.idle := homing_arm_none move
      have tower : (raise .foundDisc s.homing).tower = s.part.tower := homing_tower
      have going := jams.going
      have paused := jams.paused
      have resting := jams.resting
      rw [tower] at going paused resting
      have arm' := jams.arm
      rw [arm] at arm'
      refine ⟨q, taken, changes, ?_, ?_, jams.raised, fun x is => (going x is).1, fun is => (paused is).1, resting⟩
      · rw [arm']
        simp [Arm.idle, idle, move]
      · rw [jams.flags _ (by simp) (by simp)]
        simp [raise, Attention.isSet_raise]
  · intro m move feed
    refine ⟨fun gripped => ?_, fun sp ungripped source => ?_, fun pl ungripped source elsewhere presenting => ?_⟩
    · have arm : s.homing.arm = { s.part.arm.idle with move := some { m with gripped := true, interrupted := false } } := by
        rw [homing_arm_some move, ← gripped]
        rfl
      obtain ⟨q, taken, later, sent, arm', resumes⟩ :=
        homed_delivers flying order move feed (if_pos gripped) (.refl _ []) arm
      rw [homing_attn] at resumes
      exact ⟨q, taken, (homing_changes.andThen later).widen rfl, ⟨sent, arm'⟩, resumes⟩
    · obtain ⟨q, taken, changes, sent, arm, spindle, spindles, resumes⟩ :=
        homed_gripsBlank flying order move feed ungripped source
      exact ⟨q, taken, changes, ⟨sent, arm⟩, spindle, spindles, resumes⟩
    · obtain ⟨q, taken, changes, sent, arm, lifts, bays, station, resumes⟩ :=
        homed_gripsPlace flying order move feed ungripped source elsewhere presenting
      exact ⟨q, taken, changes, ⟨sent, arm⟩, lifts.printQueue, lifts.disc, lifts.others, lifts.left, lifts.arrived,
        lifts.occupants, bays, station, resumes⟩
  · intro m move feed
    obtain ⟨q, taken, changes, sent, arm, resumes⟩ := homed_separates flying order move feed
    exact ⟨q, taken, changes, sent, arm, resumes⟩
  · intro m move feed
    refine ⟨fun room => ?_, fun full => ?_⟩
    · exact homed_deliversPair flying order move feed room
    · exact homed_waits flying order move feed full
  · intro m move ungripped
    refine ⟨fun other => ?_, ?_⟩
    · exact homed_endsMove flying order move ungripped other
    · intro d pick held unwaiting unqueued u told
      obtain ⟨q, taken, changes, arm, jobs, ink, inkWait, printQueue, disc, others, spell, landed, bays, resumes⟩ :=
        homed_withdraws flying order move ungripped pick held ⟨unwaiting, unqueued⟩
      exact ⟨q, taken, changes, arm, jobs, ink, inkWait, printQueue, disc, others, spell, landed.armEmpty, landed.occupants,
        bays, resumes⟩
  · intro m d move gripped held unwaiting unqueued
    obtain ⟨q, taken, changes, arm, bays, ends, landed, resumes⟩ :=
      homed_losesHeld flying order move gripped held ⟨unwaiting, unqueued⟩
    exact ⟨q, taken, changes, arm, bays, ends.jobs, ends.ink, ends.inkWait, ends.printQueue, ends.disc, ends.others,
      ends.heldSpell, landed.armEmpty, landed.occupants, resumes⟩

end Sys2Proof.Machine
end

