-- ==== Sys2Proof/Proofs/DiscRequests.lean ====
section
/-! PROOF. ROUTE, MARK and RETIRE DISC (R15, R18, R19). -/

namespace Sys2Proof.Machine

-- One proof after another: side by side, their threads' stacks pass the check's memory limit.
set_option Elab.async false

variable {p q u : Part} {s : State} {tag disc dest : Byte} {pl : Place} {b : Fin 12} {r k : Fin 24} {d : Disc} {why : Reason}

/-! ## The place of a record that is rejected -/

/-- Record `r` keeps its place. -/
def Part.KeepsPlace (r : Fin 24) (p q : Part) : Prop := (q.disc r).bind (·.place) = (p.disc r).bind (·.place)

theorem Part.KeepsPlace.trans (h : p.KeepsPlace r q) (h' : q.KeepsPlace r u) : p.KeepsPlace r u := Eq.trans h' h

theorem Part.Changes.keepsPlace {fs : List Field} (h : p.Changes fs q) (free : Field.discs ∉ fs := by decide) :
    p.KeepsPlace r q := by
  rw [Part.KeepsPlace, disc_congr (h .discs free)]

theorem modDisc_keepsPlace {f : Disc → Disc} (keeps : ∀ d, (f d).place = d.place) : p.KeepsPlace r (p.modDisc k f) := by
  unfold Part.KeepsPlace
  by_cases same : r = k
  · subst same
    rw [Part.modDisc, Part.setDisc_self]
    cases p.disc r <;> simp [keeps]
  · rw [Part.modDisc, Part.setDisc_other _ _ _ _ same]

theorem giveOrder_keepsPlace : p.KeepsPlace r (giveOrder k p) := modDisc_keepsPlace fun _ => rfl

theorem leaveStream_keepsPlace : p.KeepsPlace r (leaveStream b p) := by
  unfold leaveStream
  split
  · exact rfl
  case h_2 c _ =>
    extract_lets q u
    have cleared : q.KeepsPlace r u := by
      unfold u
      split
      · exact modDisc_keepsPlace fun _ => rfl
      · exact rfl
    have left : p.KeepsPlace r u := cleared
    clear_value u
    split
    · exact left
    · exact left.trans (setChannel_changes.andThen closeIfEmpty_changes).keepsPlace

theorem bayReject_keepsPlace : p.KeepsPlace r (bayReject b p) := by
  have reset : ∀ q : Part, q.KeepsPlace r (resetBay b q) := fun _ => resetBay_changes.keepsPlace
  unfold bayReject
  split
  · exact reset p
  · exact reset p
  · exact reset p
  · exact leaveStream_keepsPlace.trans (reset _)
  · exact (setContext_changes.keepsPlace).trans (reset _)
  · exact (withdrawRequest_changes.andThen enterBay_changes).keepsPlace
  · exact rfl

/-- A disc in HOST_HOLD keeps its place when it is rejected (R13, R19). -/
theorem rejectDisc_hostHold_place (held : p.disc r = some d) (hold : d.stage = .hostHold) :
    ((rejectDisc r .hostReject p).disc r).bind (·.place) = d.place := by
  by_cases rejected : d.verdict = .reject
  · rw [rejectDisc_again held rejected, writeReject_keeps_reason held rejected rfl, held]
    rfl
  · obtain ⟨nowhere, atBay, outside⟩ := rejectDisc_moves (why := .hostReject) held rejected (by rw [hold]; rfl)
      (by simp [hold]) (by simp [hold])
    have bound : ((p.rejectBound r .hostReject d).disc r).bind (·.place) = d.place := by
      rw [Part.rejectBound, setStage, Part.modDisc, Part.setDisc_self, leaveLabelUnit_disc, firstReject_disc]
      simp [Disc.atStage_eq]
    cases place : d.place with
    | none => rw [nowhere place, bound, place]
    | some pl =>
      by_cases there : ∃ b, pl = .bay b
      · obtain ⟨b, rfl⟩ := there
        rw [atBay b place, show _ = _ from bayReject_keepsPlace, bound, place]
      · rw [outside (by simp [place]) (fun b is => there ⟨b, by simpa [place] using is⟩), if_pos hold]
        exact Eq.trans giveOrder_keepsPlace (bound.trans place)

/-! ## Routing -/

theorem orderRouted_outside (place : (p.disc r).bind (·.place) = some .arm ∨ (p.disc r).bind (·.place) = some .printer) :
    orderRouted r p = giveOrder r p := by
  unfold orderRouted
  obtain arm | printer := place
  · rw [arm]
  · rw [printer]

theorem orderRouted_bay (place : (p.disc r).bind (·.place) = some (.bay b)) :
    orderRouted r p = if (p.bay b).state = .presenting then giveOrder r p else p := by
  rw [orderRouted, place]

section
variable (is : disc.toNat = r.val) (held : p.disc r = some d)
include is held

theorem routeDisc_held (toOutput : Bool) (named : routeOf dest = some toOutput) : reqRouteDisc disc dest p =
    if d.stage = .hostHold then
      settled (orderRouted r (if toOutput then setStage r .outbound p else rejectDisc r .hostReject p)) okay
    else turnDown .badState p := by
  rw [reqRouteDisc, named]
  exact withDisc_held is held _

theorem markDisc_held : reqMarkDisc disc p =
    if d.stage.active = true ∧ d.verdict ≠ .reject then settled (rejectDisc r .hostReject p) okay
    else turnDown .badState p := by
  rw [reqMarkDisc, withDisc_held is held]
  simp

theorem retireDisc_held : reqRetireDisc disc p =
    if d.stage.active then turnDown .badState p else settled (freeRecord r p) okay := by
  rw [reqRetireDisc, withDisc_held is held]

omit is in
/-- A disc routed to OUTPUT, with the order it is given or keeps (R19). -/
theorem routed_output (hold : d.stage = .hostHold) :
    (d.place = some .arm ∨ d.place = some .printer → orderRouted r (setStage r .outbound p) =
      p.setDisc r (some { d with stage := .outbound, eligible := some (p.orderFor d) })) ∧
    (∀ b, d.place = some (.bay b) → orderRouted r (setStage r .outbound p) =
      p.setDisc r (some { d with
        stage := .outbound
        eligible := if (p.bay b).state = .presenting then some (p.orderFor d) else d.eligible })) := by
  have staged : setStage r .outbound p = p.setDisc r (some { d with stage := .outbound }) := by
    rw [setStage_held held, Disc.atStage_accepted (by rw [hold]; rfl)]
  have standing := Part.setDisc_self p r (some { d with stage := .outbound })
  have place : ((setStage r .outbound p).disc r).bind (·.place) = d.place := by rw [staged, standing]; rfl
  have ordered : giveOrder r (setStage r .outbound p) =
      p.setDisc r (some { d with stage := .outbound, eligible := some (p.orderFor d) }) := by
    rw [giveOrder, staged, modDisc_held standing, setDisc_setDisc, eligibleRanks_setDisc (e := { d with stage := .outbound }) held rfl]
    cases eligible : d.eligible <;> simp only [Part.orderFor, eligible]
  refine ⟨fun outside => ?_, fun b there => ?_⟩
  · rw [orderRouted_outside (by rwa [place]), ordered]
  · rw [orderRouted_bay (place.trans there)]
    have bay : ((setStage r .outbound p).bay b) = p.bay b := rfl
    rw [bay, ordered, staged]
    split <;> rfl

omit is in
/-- A disc routed to the REJECT BIN (R19). -/
theorem routed_bin (hold : d.stage = .hostHold) :
    (d.place = some .arm ∨ d.place = some .printer → orderRouted r (rejectDisc r .hostReject p) =
      giveOrder r (rejectDisc r .hostReject p)) ∧
    (∀ b, d.place = some (.bay b) → orderRouted r (rejectDisc r .hostReject p) =
      if ((rejectDisc r .hostReject p).bay b).state = .presenting then giveOrder r (rejectDisc r .hostReject p)
      else rejectDisc r .hostReject p) := by
  have place := rejectDisc_hostHold_place held hold
  exact ⟨fun outside => orderRouted_outside (by rwa [place]), fun b there => orderRouted_bay (place.trans there)⟩

end

theorem routeOf_high (high : 1 < dest.toNat) : routeOf dest = none := by
  rw [routeOf, if_neg (by rintro rfl; simp at high), if_neg (by rintro rfl; simp at high)]

theorem routeOf_low (low : dest.toNat ≤ 1) : ∃ toOutput, routeOf dest = some toOutput := by
  by_cases zero : dest = 0
  · exact ⟨true, by rw [routeOf, if_pos zero]⟩
  · by_cases one : dest = 1
    · exact ⟨false, by rw [routeOf, if_neg zero, if_pos one]⟩
    · have unzero : dest.toNat ≠ 0 := fun is => zero (BitVec.eq_of_toNat_eq is)
      have unone : dest.toNat ≠ 1 := fun is => one (BitVec.eq_of_toNat_eq is)
      omega

end Sys2Proof.Machine
end

