-- ==== Sys2Proof/Proofs/RemoveDisc.lean ====
section
/-! PROOF. REMOVE DISC (R14, R20, R43, R47, R75, R152, R159). -/

namespace Sys2Proof.Machine

-- One proof after another: side by side, their threads' stacks pass the check's memory limit.
set_option Elab.async false

variable {p q u p₀ : Part} {s : State} {tag disc dest : Byte} {m : Move} {pl : Place} {b : Fin 12} {r k : Fin 24} {d e : Disc}
  {sp : SpindleId}

/-! ## The move discarded -/

/-- The arm's move is of record `r`. -/
def Part.moves (p : Part) (r : Fin 24) : Bool := p.arm.move.any fun m => m.record == r

/-- The arm's move is a pick of record `r` from a spindle. -/
def Part.picks (p : Part) (r : Fin 24) (sp : SpindleId) : Bool :=
  p.arm.move.any fun m => m.record == r && m.source == .spindle sp

/-- The arm has gripped nothing. -/
def Part.openHand (p : Part) : Bool := p.arm.move.all (!·.gripped)

/-- The blank under the pick of record `r` was its spindle's last (R43). -/
def Part.lastBlank (p : Part) (r : Fin 24) : Bool :=
  p.openHand && [SpindleId.a, .b].any fun sp =>
    p.picks r sp && !(p.spindle sp).empty && decide ((p.spindle sp).count ≤ 1)

theorem moves_congr (same : q.arm = p.arm) : q.moves r = p.moves r := by rw [Part.moves, same, Part.moves]

theorem picks_congr (same : q.arm = p.arm) : q.picks r sp = p.picks r sp := by rw [Part.picks, same, Part.picks]

theorem openHand_congr (same : q.arm = p.arm) : q.openHand = p.openHand := by rw [Part.openHand, same, Part.openHand]

theorem lastBlank_congr (same : q.arm = p.arm) (spindle : q.spindle = p.spindle) : q.lastBlank r = p.lastBlank r := by
  simp only [Part.lastBlank, openHand_congr same, picks_congr same, spindle]

theorem discardMove_other (other : p.moves r = false) : discardMove r p = p := by
  unfold discardMove
  split
  · rfl
  case h_2 m move => rw [if_neg (by simpa [Part.moves, move] using other)]

theorem discardMove_place (move : p.arm.move = some m) (mine : m.record = r) (source : m.source = .place pl) :
    discardMove r p = { p with arm := { p.arm with move := none } } := by
  simp only [discardMove, move, mine, source]
  rfl

theorem discardMove_pick (move : p.arm.move = some m) (mine : m.record = r) (source : m.source = .spindle sp) :
    discardMove r p = { releaseDest m (if m.gripped then p else useBlank sp p) with
      arm := { (releaseDest m (if m.gripped then p else useBlank sp p)).arm with move := none } } := by
  simp only [discardMove, move, mine, source]
  rfl

/-- What a disc's removal leaves of the move that carried it (R20, R43, R47; log 33). -/
structure Part.Discards (p : Part) (r : Fin 24) (q : Part) : Prop where
  changes : p.Changes [.arm, .attn, .spindleA, .spindleB, .inkWait, .jobs, .printQueue, .ink, .discs, .bays] q
  arm : q.arm = { p.arm with move := if p.moves r then none else p.arm.move }
  spindle : ∀ sp, q.spindle sp = if p.picks r sp = true ∧ p.openHand = true then
    { p.spindle sp with
      count := (p.spindle sp).count - 1, empty := (p.spindle sp).empty || decide ((p.spindle sp).count ≤ 1) }
    else p.spindle sp
  attn : q.attn = if p.lastBlank r then p.attn.raise .spindleEmpty p.now else p.attn
  bays : ∀ b, q.bay b = p.bay b ∨ ∃ m, p.arm.move = some m ∧ q.bay b = p.bayFreed m b
  resting : (∀ sp, p.picks r sp = false) → q.bay = p.bay
  freed : ∀ m sp, p.arm.move = some m → m.record = r → m.source = .spindle sp → ∀ b, q.bay b = p.bayFreed m b

theorem lastBlank_unpicked (unpicked : ∀ sp, p.picks r sp = false) : p.lastBlank r = false := by
  simp [Part.lastBlank, unpicked]

/-- A move that leaves the spindles alone. -/
theorem discards_unpicked (unpicked : ∀ sp, p.picks r sp = false)
    (unsourced : ∀ m sp, p.arm.move = some m → m.record = r → m.source ≠ .spindle sp) (x : Option Move)
    (move : x = if p.moves r then none else p.arm.move) : p.Discards r { p with arm := { p.arm with move := x } } where
  changes := Part.Changes.widen arm_changes rfl
  arm := by rw [move]
  spindle sp := by
    rw [if_neg (by simp [unpicked])]
    rfl
  attn := by rw [if_neg (by simp [lastBlank_unpicked unpicked])]
  bays _ := .inl rfl
  resting _ := rfl
  freed m sp is mine source := absurd source (unsourced m sp is mine)

theorem discards_pick (move : p.arm.move = some m) (mine : m.record = r) (source : m.source = .spindle sp) :
    p.Discards r (discardMove r p) := by
  let used := if m.gripped then p else useBlank sp p
  have moves : p.moves r = true := by simp [Part.moves, move, mine]
  have picks : ∀ k, p.picks r k = decide (sp = k) := fun k => by
    rw [Part.picks, move, Option.any_some, mine, source, beq_self_eq_true, Bool.true_and]
    cases sp <;> cases k <;> rfl
  have openHand : p.openHand = !m.gripped := by simp [Part.openHand, move]
  have uses : p.Changes [.spindleA, .spindleB, .attn] used := by
    unfold used
    split
    · exact .refl _ _
    · exact useBlank_changes
  have released : used.Changes _ (releaseDest m used) := releaseDest_changes
  have spindle : used.spindle = if m.gripped then p.spindle else (p.setSpindle sp { p.spindle sp with
      count := (p.spindle sp).count - 1, empty := (p.spindle sp).empty || decide ((p.spindle sp).count ≤ 1) }).spindle := by
    unfold used
    split
    · rfl
    · rw [useBlank_eq]
      exact spindle_congr ⟨rfl, rfl⟩
  have after : (releaseDest m used).spindle = used.spindle :=
    spindle_congr ⟨released .spindleA (by decide), released .spindleB (by decide)⟩
  have bays : ∀ b, (releaseDest m used).bay b = p.bayFreed m b := fun b => by
    rw [releaseDest_bay, Part.bayFreed, bay_congr (uses .bays (by decide)), Part.bayFreed]
  rw [discardMove_pick move mine source]
  refine ⟨((uses.andThen released).andThen arm_changes).widen rfl, ?_, fun k => ?_, ?_, fun b => .inr ⟨m, move, bays b⟩,
    fun unpicked => ?_, ?_⟩
  · rw [if_pos moves]
    show { (releaseDest m used).arm with move := none } = _
    rw [released .arm (by decide), uses .arm (by decide)]
  · refine (congrFun (after.trans spindle) k).trans ?_
    rw [picks, openHand]
    cases gripped : m.gripped with
    | true => simp
    | false =>
      by_cases same : sp = k
      · subst same
        simp
      · rw [if_neg (by simp), if_neg (by simp [same]), Part.setSpindle_other _ _ _ _ (Ne.symm same)]
  · refine (released .attn (by decide)).trans ?_
    have last : p.lastBlank r = (!m.gripped && (!(p.spindle sp).empty && decide ((p.spindle sp).count ≤ 1))) := by
      simp only [Part.lastBlank, openHand, picks, List.any_cons, List.any_nil]
      cases sp <;> simp
    rw [last]
    unfold used
    cases gripped : m.gripped with
    | true => simp
    | false =>
      rw [if_neg (by simp), useBlank_eq]
      simp
  · have := unpicked sp
    simp [picks] at this
  · rintro m' sp' is - - b
    rw [move] at is
    obtain rfl := Option.some.inj is
    exact bays b

theorem discardMove_discards (r : Fin 24) (p : Part) : p.Discards r (discardMove r p) := by
  cases move : p.arm.move with
  | none =>
    have unmoved : p.moves r = false := by simp [Part.moves, move]
    rw [discardMove_other unmoved]
    exact discards_unpicked (fun sp => by simp [Part.picks, move]) (fun m sp is => by simp [move] at is) p.arm.move
      (by rw [if_neg (by simp [unmoved])])
  | some m =>
    by_cases mine : m.record = r
    · cases source : m.source with
      | spindle sp => exact discards_pick move mine source
      | place pl =>
        rw [discardMove_place move mine source]
        refine discards_unpicked (fun sp => by simp [Part.picks, move, source]) (fun m' sp is _ => ?_) none
          (by rw [if_pos (by simp [Part.moves, move, mine])])
        rw [move] at is
        simp [← Option.some.inj is, source]
    · have unmoved : p.moves r = false := by simp [Part.moves, move, mine]
      rw [discardMove_other unmoved]
      refine discards_unpicked (fun sp => by simp [Part.picks, move, mine]) (fun m' sp is mine' => ?_) p.arm.move
        (by rw [if_neg (by simp [unmoved])])
      rw [move] at is
      exact absurd (Option.some.inj is ▸ mine') mine

/-! ## The record's end -/

/-- The same record but for its reservation. -/
abbrev Disc.SameBut (d e : Disc) : Prop := { e with reservation := none } = { d with reservation := none }

/-- The part after the discard, seen from one that is alike for the label unit (R152). -/
theorem discardMove_reach (alike : p₀.Alike r p) (now : p.now = p₀.now) (held : p.disc r = some d)
    (unlisted : p.moves r = true → p₀.Unlisted r) :
    ∃ v e, leaveLabelUnit r v = leaveLabelUnit r p₀ ∧ v.Alike r (discardMove r p) ∧ (discardMove r p).now = v.now ∧
      (discardMove r p).disc r = some e ∧ d.SameBut e := by
  have kept : ∀ x, ∃ v e, leaveLabelUnit r v = leaveLabelUnit r p₀ ∧
      v.Alike r { p with arm := { p.arm with move := x } } ∧ p.now = v.now ∧ p.disc r = some e ∧ d.SameBut e :=
    fun x => ⟨p₀, d, rfl, alike.trans (Part.Changes.alike arm_changes r), now, held, rfl⟩
  cases move : p.arm.move with
  | none =>
    rw [discardMove_other (by simp [Part.moves, move])]
    exact kept p.arm.move
  | some m =>
    by_cases mine : m.record = r
    · cases source : m.source with
      | place pl =>
        rw [discardMove_place move mine source]
        exact kept none
      | spindle sp =>
        have out : p₀.Unlisted r := unlisted (by simp [Part.moves, move, mine])
        have same : leaveLabelUnit r (release r p₀) = leaveLabelUnit r p₀ := by
          rw [out.released (.refl _ []), leaveLabelUnit_eq_release out.unwaiting out.unqueued]
        let used := if m.gripped then p else useBlank sp p
        have uses : p.Changes [.spindleA, .spindleB, .attn] used := by
          unfold used
          split
          · exact .refl _ _
          · exact useBlank_changes
        have listed : used.Unlisted r := by
          have out' : p.Unlisted r := ⟨alike.inkWait ▸ out.unwaiting, alike.printQueue ▸ out.unqueued⟩
          exact out'.andThen uses
        have frees : (release r used).Changes [.bays, .arm] (discardMove r p) := by
          rw [discardMove_pick move mine source]
          subst mine
          exact releaseDest_release.andThen arm_changes
        have now' : (release r used).now = p.now := (release_changes .now (by decide)).trans (uses .now (by decide))
        have now₀ : (release r p₀).now = p₀.now := release_changes .now (by decide)
        refine ⟨release r p₀, { d with reservation := none }, same,
          ((alike.trans (uses.alike r)).release).trans (frees.alike r), ?_, ?_, rfl⟩
        · rw [frees .now (by decide), now', now, now₀]
        · rw [disc_congr (frees .discs (by decide)), release_disc listed.unwaiting, disc_congr (uses .discs (by decide)), held]
          rfl
    · rw [discardMove_other (by simp [Part.moves, move, mine])]
      exact kept p.arm.move

/-- A record with the fate REMOVED written (R4, R14). -/
abbrev Disc.removed (d : Disc) : Disc := { d with verdict := .reject, reason := some .removed }

/-- The disc taken out, its record finalised (R14, R20). -/
def takeOut (r : Fin 24) (pl : Place) (p : Part) : Part :=
  finaliseReject r ((discardMove r (writeReject r .removed p)).setOccupant pl none)

theorem removeDisc_eq (r : Fin 24) (pl : Place) (p : Part) : removeDisc r pl p = removedFrom pl (takeOut r pl p) := rfl

theorem takeOut_ends (held : s.part.disc r = some d) (unlisted : s.part.moves r = true → s.part.Unlisted r) :
    s.part.EndsRejected (leaveLabelUnit r s.part) r d.removed (tellRejected false d.job) (takeOut r pl s.part.fresh) ∧
      (takeOut r pl s.part.fresh).attn = (tellRejected false d.job { leaveLabelUnit r s.part with
        attn := if s.part.lastBlank r then (s.part.rejectFlags d).raise .spindleEmpty s.part.now
          else s.part.rejectFlags d }).attn := by
  let written := writeReject r .removed s.part.fresh
  have held' : s.part.fresh.disc r = some d := held
  have is : written = _ := writeReject_fate held' rfl
  have writes : s.part.fresh.Changes _ written := writeReject_changes
  have standing : written.disc r = some d.removed := by
    rw [is]
    exact Part.setDisc_self _ _ _
  have alike : s.part.Alike r written := (fresh_changes.alike r).trans writeReject_alike
  have now : written.now = s.part.now := writes .now (by decide)
  obtain ⟨v, e, same, reach, now', stands, sameBut⟩ := discardMove_reach alike now standing
    fun moves => unlisted (moves_congr (writes .arm (by decide)) ▸ moves)
  have discards := discardMove_discards r written
  have vacated : (discardMove r written).Changes [.places] ((discardMove r written).setOccupant pl none) :=
    setOccupant_changes
  have there : ((discardMove r written).setOccupant pl none).disc r = some e :=
    (congrFun (disc_congr (vacated .discs (by decide))) r).trans stands
  obtain ⟨ends, attn⟩ := finaliseReject_ends (reach.trans (vacated.alike r)) ((vacated .now (by decide)).trans now') there
  have job : e.job = d.job := (congrArg Disc.job sameBut :)
  have reason : e.reason = some .removed := (congrArg Disc.reason sameBut :)
  have counts : e.counts = false := by rw [Disc.counts, reason]; rfl
  have finals : { e with stage := .rejected, place := none, eligible := none, reservation := none } =
      { d.removed with stage := .rejected, place := none, eligible := none, reservation := none } :=
    congrArg (fun x : Disc => { x with stage := .rejected, place := none, eligible := none, reservation := none }) sameBut
  rw [job, counts, same] at ends attn
  have attn' : ((discardMove r written).setOccupant pl none).attn = if s.part.lastBlank r then
      (s.part.rejectFlags d).raise .spindleEmpty s.part.now else s.part.rejectFlags d := by
    have flags : written.attn = s.part.rejectFlags d := by rw [is]; rfl
    have last : written.lastBlank r = s.part.lastBlank r := lastBlank_congr (writes .arm (by decide))
      (spindle_congr ⟨writes .spindleA (by decide), writes .spindleB (by decide)⟩)
    rw [vacated .attn (by decide), discards.attn, last, flags, now]
  rw [attn'] at attn
  have kept : s.part.Changes _ ((discardMove r written).setOccupant pl none) :=
    ((fresh_changes.andThen writes).andThen discards.changes).andThen vacated
  have ends' := ends.of (by rw [kept .tower (by decide)]) (kept .heldSpell (by decide)).symm
  exact ⟨{ ends' with disc := ends'.disc.trans (by rw [finals]) }, attn⟩

/-! ## The owner of the place -/

/-- What the owner of a place does once its disc has been taken out (R20, R75, R159). -/
structure Part.Vacates (p : Part) (pl : Place) (q : Part) : Prop where
  changes : p.Changes [.bays, .attn, .station, .sent] q
  bays : ∀ b, q.bay b = if pl ≠ .bay b then p.bay b
    else if (p.bay b).state = .presenting then (p.bay b).emptied
    else if (p.bay b).state = .holding then (p.bay b).ejecting p.now
    else p.bay b
  attn : q.attn = if ∃ b, pl = .bay b ∧ (p.bay b).state = .presenting ∧ (p.bay b).consecutiveFailures = 3 then
    p.attn.raise .bayFault p.now else p.attn
  station : q.station = if pl = .printer then { p.station with
      state := .empty, faultCause := none
      queryDeadline := if p.station.queryDeadline.isSome then p.station.queryDeadline else some (p.now + 5000) }
    else p.station
  sent : q.sent = p.sent ++ match pl with
    | .bay b => if (p.bay b).state = .holding then [.drive b .eject] else []
    | .printer => if p.station.queryDeadline.isSome then [] else [.query]
    | .arm => []

theorem vacates_bay {y : Bay} {a : Attention} {sent : List Sent}
    (is : q = { p.setBay b y with attn := a, sent := p.sent ++ sent })
    (bay : y = if (p.bay b).state = .presenting then (p.bay b).emptied
      else if (p.bay b).state = .holding then (p.bay b).ejecting p.now else p.bay b)
    (attn : a = if (p.bay b).state = .presenting ∧ (p.bay b).consecutiveFailures = 3 then p.attn.raise .bayFault p.now
      else p.attn)
    (sends : sent = if (p.bay b).state = .holding then [.drive b .eject] else []) : p.Vacates (.bay b) q := by
  subst is
  refine ⟨fun f hf => by cases f <;> first | rfl | simp at hf, fun k => ?_, ?_, ?_, ?_⟩
  · by_cases same : b = k
    · subst same
      rw [if_neg (by simp), ← bay]
      exact Part.setBay_self _ _ _
    · rw [if_pos (by simpa using same)]
      exact Part.setBay_other _ _ _ _ (Ne.symm same)
  · show a = _
    rw [attn]
    simp
  · rw [if_neg (by simp)]
    rfl
  · show p.sent ++ sent = _
    rw [sends]

theorem removedFrom_vacates (pl : Place) (p : Part) : p.Vacates pl (removedFrom pl p) := by
  cases pl with
  | bay b =>
    show p.Vacates (.bay b) (bayVacated b p)
    by_cases presenting : (p.bay b).state = .presenting
    · rw [bayVacated_presenting presenting]
      refine vacates_bay (y := (p.bay b).emptied) (sent := []) (a := _) ?_ ?_ rfl ?_
      · rw [emptyBay_eq, List.append_nil]
        simp [presenting]
      · simp [presenting]
      · simp [presenting]
    · by_cases holding : (p.bay b).state = .holding
      · rw [bayVacated_holding holding]
        refine vacates_bay (y := (p.bay b).ejecting p.now) (sent := [.drive b .eject]) (a := p.attn) ?_ ?_ ?_ ?_
        · rw [ejectBay_eq]
          rfl
        · simp [holding]
        · simp [presenting]
        · simp [holding]
      · rw [bayVacated_other presenting holding]
        refine vacates_bay (y := p.bay b) (sent := []) (a := p.attn) ?_ ?_ ?_ ?_
        · rw [setBay_same rfl, List.append_nil]
        · simp [presenting, holding]
        · simp [presenting]
        · simp [holding]
  | printer =>
    show p.Vacates .printer (if (enterStation .empty p).station.queryDeadline.isSome then enterStation .empty p
      else sendQuery (enterStation .empty p))
    have same : (enterStation .empty p).station.queryDeadline = p.station.queryDeadline := rfl
    rw [same]
    split
    case isTrue running =>
      refine ⟨enterStation_changes.widen rfl, fun b => by rw [if_pos (by simp)]; rfl, by simp [enterStation], ?_, ?_⟩
      · simp [running]
        rfl
      · simp [running]
        rfl
    case isFalse still =>
      refine ⟨(enterStation_changes.andThen sendQuery_changes).widen rfl, fun b => by rw [if_pos (by simp)]; rfl,
        by simp [sendQuery, enterStation], ?_, ?_⟩
      · simp [still]
        rfl
      · simp [still]
        rfl
  | arm => exact ⟨.refl p _, fun b => by rw [if_pos (by simp)]; rfl, by simp [removedFrom], by simp [removedFrom], by simp [removedFrom]⟩

/-! ## The part with the disc taken out -/

theorem bayFreed_congr (same : q.bay = p.bay) : q.bayFreed m b = p.bayFreed m b := by
  rw [Part.bayFreed, same, Part.bayFreed]

/-- A bay that holds a disc, or presents one, is not freed, and no freed bay does either. -/
theorem bayFreed_state {st : BayState} (st_is : st = .presenting ∨ st = .holding) :
    ((p.bayFreed m b).state = st ↔ (p.bay b).state = st) ∧ ((p.bay b).state = st → p.bayFreed m b = p.bay b) := by
  unfold Part.bayFreed
  split
  case isTrue freed =>
    obtain ⟨-, -, expecting⟩ := freed
    have unlike : BayState.expecting ≠ st := by
      rintro rfl
      simp at st_is
    rw [expecting]
    refine ⟨⟨fun is => ?_, fun is => absurd is unlike⟩, fun is => absurd is unlike⟩
    split at is
    · obtain rfl | rfl := st_is <;> cases is
    · obtain rfl | rfl := st_is <;> cases is
  case isFalse => exact ⟨.rfl, fun _ => rfl⟩

/-- What the disc taken out leaves before the place's owner acts (R20, R43, R47). -/
structure State.TakesOut (s : State) (r : Fin 24) (pl : Place) (q : Part) : Prop where
  changes : s.part.fresh.Changes [.discs, .places, .attn, .jobs, .ink, .inkWait, .printQueue, .heldSpell, .arm, .bays,
    .spindleA, .spindleB] q
  left : q.occupant pl = none
  occupants : ∀ ql, ql ≠ pl → q.occupant ql = s.part.occupant ql
  arm : q.arm = { s.part.arm with move := if s.part.moves r then none else s.part.arm.move }
  spindle : ∀ sp, q.spindle sp = if s.part.picks r sp = true ∧ s.part.openHand = true then
    { s.part.spindle sp with
      count := (s.part.spindle sp).count - 1
      empty := (s.part.spindle sp).empty || decide ((s.part.spindle sp).count ≤ 1) }
    else s.part.spindle sp
  state : ∀ (b : Fin 12) st, st = BayState.presenting ∨ st = .holding →
    ((q.bay b).state = st ↔ (s.part.bay b).state = st) ∧ ((s.part.bay b).state = st → q.bay b = s.part.bay b)
  resting : (∀ sp, s.part.picks r sp = false) → q.bay = s.part.bay
  freed : ∀ m sp, s.part.arm.move = some m → m.record = r → m.source = .spindle sp → ∀ b, q.bay b = s.part.bayFreed m b

theorem takeOut_takesOut (s : State) (r : Fin 24) (pl : Place) : s.TakesOut r pl (takeOut r pl s.part.fresh) := by
  let written := writeReject r .removed s.part.fresh
  have writes : s.part.fresh.Changes _ written := writeReject_changes
  have discards := discardMove_discards r written
  have vacated : (discardMove r written).Changes [.places] ((discardMove r written).setOccupant pl none) :=
    setOccupant_changes
  have final := finaliseReject_changes (r := r) (p := (discardMove r written).setOccupant pl none)
  have later := vacated.andThen final
  have arm₀ : written.arm = s.part.arm := writes .arm (by decide)
  have bay₀ : written.bay = s.part.bay := bay_congr (writes .bays (by decide))
  have spindle₀ : written.spindle = s.part.spindle :=
    spindle_congr ⟨writes .spindleA (by decide), writes .spindleB (by decide)⟩
  have bay : (takeOut r pl s.part.fresh).bay = (discardMove r written).bay := bay_congr (later .bays (by decide))
  have spindle : (takeOut r pl s.part.fresh).spindle = (discardMove r written).spindle :=
    spindle_congr ⟨later .spindleA (by decide), later .spindleB (by decide)⟩
  have before : (discardMove r written).occupant = s.part.occupant :=
    occupant_congr ((writes.andThen discards.changes) .places (by decide))
  have occupant : (takeOut r pl s.part.fresh).occupant = ((discardMove r written).setOccupant pl none).occupant :=
    occupant_congr (final .places (by decide))
  refine ⟨((writes.andThen discards.changes).andThen later).widen rfl, ?_, fun ql other => ?_, ?_, fun sp => ?_,
    fun b st st_is => ?_, fun unpicked => ?_, fun m sp move mine source b => ?_⟩
  · rw [occupant]
    exact Part.setOccupant_self _ _ _
  · rw [occupant, setOccupant_get, if_neg other, before]
  · refine (later .arm (by decide)).trans ?_
    rw [discards.arm, moves_congr arm₀, arm₀]
  · rw [spindle, discards.spindle, picks_congr arm₀, openHand_congr arm₀, spindle₀]
  · rw [bay]
    obtain same | ⟨m, -, freed⟩ := discards.bays b
    · rw [same, bay₀]
      exact ⟨.rfl, fun _ => rfl⟩
    · rw [freed, bayFreed_congr bay₀]
      exact bayFreed_state st_is
  · rw [bay, discards.resting fun sp => (picks_congr arm₀).trans (unpicked sp), bay₀]
  · rw [bay, discards.freed m sp (arm₀ ▸ move) mine source b, bayFreed_congr bay₀]

/-! ## The requests -/

/-- REMOVE DISC is allowed at a place (R20, R159). -/
def State.Removable (s : State) (r : Fin 24) (d : Disc) (pl : Place) : Prop :=
  (∃ b, pl = .bay b ∧ (d.stage = .hostHold ∨ (s.part.bay b).state = .faulted)) ∨
    pl = .arm ∧ (d.stage = .hostHold ∨ s.part.tower.state = .paused ∨ s.part.tower.state = .halted) ∨
    pl = .printer ∧ (d.stage = .hostHold ∨ s.part.station.state ≠ .printing) ∧
      (s.part.arm.move.any fun m => m.record == r && m.source == Source.place .printer && !m.gripped) = false

theorem removable_iff (place : d.place = some pl) : s.part.fresh.removable r d = true ↔ s.Removable r d pl := by
  have leaving : s.part.fresh.leavingTray r =
      s.part.arm.move.any fun m => m.record == r && m.source == Source.place .printer && !m.gripped := by
    have arm : s.part.fresh.arm = s.part.arm := rfl
    unfold Part.leavingTray
    rw [arm]
    cases s.part.arm.move <;> rfl
  unfold Part.removable State.Removable
  rw [place, leaving]
  cases pl with
  | bay b =>
    show (d.stage == .hostHold || (s.part.bay b).state == .faulted) = true ↔ _
    simp
  | arm =>
    show (d.stage == .hostHold || s.part.tower.state == .paused || s.part.tower.state == .halted) = true ↔ _
    simp [or_assoc]
  | printer =>
    show ((d.stage == .hostHold || s.part.station.state != .printing) && !_) = true ↔ _
    simp

section
variable (is : disc.toNat = r.val) (held : p.disc r = some d)
include is held

theorem removeDisc_final (final : d.stage.active = false) : reqRemoveDisc disc p = turnDown .badState p := by
  rw [reqRemoveDisc, withDisc_held is held]
  simp [final]

theorem removeDisc_held (active : d.stage.active = true) (place : d.place = some pl) : reqRemoveDisc disc p =
    if p.removable r d then settled (removeDisc r pl p) okay else turnDown .busy p := by
  rw [reqRemoveDisc, withDisc_held is held]
  simp [active, place]

end

/-- The records after REMOVE DISC (R20). -/
theorem removeDisc_ends (held : s.part.disc r = some d) (unlisted : s.part.moves r = true → s.part.Unlisted r) :
    s.part.EndsRejected (leaveLabelUnit r s.part) r d.removed (tellRejected false d.job) (removeDisc r pl s.part.fresh) ∧
      s.TakesOut r pl (takeOut r pl s.part.fresh) ∧
      (takeOut r pl s.part.fresh).Vacates pl (removeDisc r pl s.part.fresh) ∧
      (takeOut r pl s.part.fresh).attn = (tellRejected false d.job { leaveLabelUnit r s.part with
        attn := if s.part.lastBlank r then (s.part.rejectFlags d).raise .spindleEmpty s.part.now
          else s.part.rejectFlags d }).attn := by
  obtain ⟨ends, attn⟩ := takeOut_ends (pl := pl) held unlisted
  have vacates := removedFrom_vacates pl (takeOut r pl s.part.fresh)
  exact ⟨ends.andThen vacates.changes, takeOut_takesOut s r pl, vacates, attn⟩

/-- Settles O36: the record named, then each request by the record's stage and place. -/
theorem discRequests : Obligations.DiscRequests := by
  intro s tag disc dest taken ans all
  have refused : ∀ st, (∀ f, withDisc disc f s.part.fresh = turnDown st s.part.fresh) → all st := by
    intro st each
    refine ⟨fun low => ?_, ?_, ?_, ?_, ?_⟩
    · obtain ⟨toOutput, named⟩ := routeOf_low low
      rw [exec_routeDisc]
      refine takeRequest_replied taken _ _ ?_
      rw [reqRouteDisc, named]
      exact each _
    · exact takeRequest_replied taken _ _ (each _)
    · exact takeRequest_replied taken _ _ (each _)
    · exact takeRequest_replied taken _ _ (each _)
    · exact takeRequest_replied taken _ _ (each _)
  refine ⟨fun high => refused _ (withDisc_outOfRange high), fun high => ?_,
    fun r is free => refused _ (withDisc_notFound (p := s.part.fresh) is free), ?_⟩
  · refine takeRequest_replied taken _ _ ?_
    rw [reqRouteDisc, routeOf_high high]
    rfl
  · intro r d is held order
    have here : s.part.fresh.disc r = some d := held
    have routes : ∀ toOutput q, routeOf dest = some toOutput → d.stage = .hostHold →
        orderRouted r (if toOutput then setStage r .outbound s.part.fresh else rejectDisc r .hostReject s.part.fresh) = q →
        exec (.routeDisc tag disc dest) s = ans 0x43 .ok (settle q) := by
      intro toOutput q named hold routed
      refine takeRequest_replied taken _ _ ?_
      rw [routeDisc_held is here toOutput named, if_pos hold, routed]
      rfl
    refine ⟨fun hold zero place => ?_, fun b hold zero place => ?_, fun hold one place => ?_, ?_, fun free low => ?_,
      fun active unrejected => ?_, fun refuse => ?_, fun final => ⟨?_, ?_⟩, fun active => ?_, ?_⟩
    · exact routes true _ (by rw [zero]; rfl) hold ((routed_output here hold).1 place)
    · exact routes true _ (by rw [zero]; rfl) hold ((routed_output here hold).2 b place)
    · exact routes false _ (by rw [one]; rfl) hold ((routed_bin here hold).1 place)
    · intro b hold one place q
      exact routes false _ (by rw [one]; rfl) hold ((routed_bin here hold).2 b place)
    · obtain ⟨toOutput, named⟩ := routeOf_low low
      refine takeRequest_replied taken _ _ ?_
      rw [routeDisc_held is here toOutput named, if_neg free]
      rfl
    · refine takeRequest_replied taken _ _ ?_
      rw [markDisc_held is here, if_pos ⟨active, unrejected⟩]
      rfl
    · refine takeRequest_replied taken _ _ ?_
      rw [markDisc_held is here, if_neg fun h => refuse.elim (fun final => by simp [final] at h) h.2]
      rfl
    · refine takeRequest_replied taken _ _ ?_
      rw [retireDisc_held is here, if_neg (by simp [final])]
      rfl
    · exact takeRequest_replied taken _ _ (removeDisc_final is here final)
    · refine takeRequest_replied taken _ _ ?_
      rw [retireDisc_held is here, if_pos active]
      rfl
    · intro pl active place mine leaving allowed
      refine ⟨fun barred => ?_, ?_⟩
      · refine takeRequest_replied taken _ _ ?_
        rw [removeDisc_held is here active place, if_neg fun may => barred ((removable_iff place).1 may)]
        rfl
      · intro may lists u told retire picked
        obtain ⟨ends, takes, vacates, attn⟩ := removeDisc_ends (pl := pl) held fun moves =>
          ⟨(lists moves).1, (lists moves).2⟩
        have removed : exec (.removeDisc tag disc) s = ans 0x45 .ok (settle (removeDisc r pl s.part.fresh)) := by
          refine takeRequest_replied taken _ _ ?_
          rw [removeDisc_held is here active place, if_pos ((removable_iff place).2 may)]
          rfl
        have later := vacates.changes
        have occupant := occupant_congr (later .places (by decide))
        have spindle := spindle_congr ⟨later .spindleA (by decide), later .spindleB (by decide)⟩
        have before := takes.changes
        refine ⟨removeDisc r pl s.part.fresh, removed, (before.andThen later).widen rfl, ends.disc, ends.others,
          ends.heldSpell, ends.jobs, ends.ink, ends.inkWait, ends.printQueue, ?_, ?_, ?_, ?_, ?_, ?_, ?_, ?_, ?_⟩
        · have quarantined : (∃ b, pl = .bay b ∧ ((takeOut r pl s.part.fresh).bay b).state = .presenting ∧
              ((takeOut r pl s.part.fresh).bay b).consecutiveFailures = 3) ↔
              ∃ b, pl = .bay b ∧ (s.part.bay b).state = .presenting ∧ (s.part.bay b).consecutiveFailures = 3 := by
            refine exists_congr fun b => and_congr_right fun _ => ?_
            obtain ⟨state, same⟩ := takes.state b .presenting (.inl rfl)
            rw [state]
            exact and_congr_right fun presenting => by rw [same presenting]
          rw [vacates.attn, attn, before .now (by decide)]
          exact if_congr quarantined rfl rfl
        · rw [occupant, takes.left]
        · rw [occupant]
          exact takes.occupants
        · exact (later .arm (by decide)).trans takes.arm
        · rw [spindle]
          exact takes.spindle
        · intro unpicked b
          rw [vacates.bays, takes.resting unpicked, before .now (by decide)]
          rfl
        · rintro m sp move mine' source rfl b
          rw [vacates.bays, if_pos (by simp)]
          exact takes.freed m sp move mine' source b
        · rw [vacates.station, before .station (by decide), before .now (by decide)]
          rfl
        · rw [vacates.sent, before .sent (by decide), before .station (by decide)]
          cases pl with
          | bay b => exact if_congr (takes.state b .holding (.inr rfl)).1 rfl rfl
          | printer => rfl
          | arm => rfl

end Sys2Proof.Machine
end

