-- ==== Sys2Proof/Proofs/PrinterQueries.lean ====
section
/-! PROOF. STATUS of the QUERY in flight, the query limit and CLEAR PRINTER (R6, R11, R145, R158, R159, R168). -/

namespace Sys2Proof.Machine

-- One proof after another: side by side, their threads' stacks pass the check's memory limit.
set_option Elab.async false

variable {p q u p₀ : Part} {s : State} {tag : Byte} {pl : Place} {b : Fin 12} {r k : Fin 24} {d : Disc}

/-- A field that was changed and is as it was. -/
theorem Part.Changes.restored {fs : List Field} (h : p.Changes fs q) {f : Field} (same : p.SameAt q f) :
    p.Changes (fs.filter (· != f)) q := fun g other => by
  by_cases is : g = f
  · exact is ▸ same
  · exact h g fun own => other (List.mem_filter.2 ⟨own, by simpa using is⟩)

/-! ## An occupant found absent -/

/-- What an occupant found absent leaves: its record LOST, its place empty, its move forgotten (R6, R14, R47). -/
structure Part.LosesAt (p u : Part) (pl : Place) (r : Fin 24) (d : Disc) (q : Part) : Prop where
  ends : p.EndsRejected u r d.lost (tellRejected false d.job) q
  attn : q.attn = (tellRejected false d.job { u with attn := p.rejectFlags d }).attn
  left : q.occupant pl = none
  occupants : ∀ ql, ql ≠ pl → q.occupant ql = p.occupant ql
  arm : q.arm = { p.arm with move := if p.arm.move.any (·.record == r) then none else p.arm.move }

theorem foundLost_loses (alike : p₀.Alike r p) (now : p.now = p₀.now) (held : p.disc r = some d) (pl : Place) :
    p.LosesAt (leaveLabelUnit r p₀) pl r d (foundLost pl r p) := by
  have vacated : p.Changes [.places] (p.setOccupant pl none) := setOccupant_changes
  have standing : (p.setOccupant pl none).disc r = some d := (congrFun (disc_congr (vacated .discs (by decide))) r).trans held
  obtain ⟨ends, attn⟩ := fateReject_ends (why := .lost) (attn := p.rejectFlags d) (alike.trans (vacated.alike r))
    ((vacated .now (by decide)).trans now) standing rfl rfl
    (by rw [vacated .attn (by decide), vacated .now (by decide)]; rfl)
  have forgets : (finaliseLost r (p.setOccupant pl none)).Changes [.arm] (foundLost pl r p) := forgetMove_changes
  have final := (finaliseLost_changes (r := r) (p := p.setOccupant pl none)).andThen forgets
  have occupant : (foundLost pl r p).occupant = (p.setOccupant pl none).occupant :=
    occupant_congr (final .places (by decide))
  have arm : (finaliseLost r (p.setOccupant pl none)).arm = p.arm :=
    (vacated.andThen finaliseLost_changes) .arm (by decide)
  refine ⟨(ends.of (by rw [vacated .tower (by decide)]) (vacated .heldSpell (by decide)).symm).andThen forgets,
    (forgets .attn (by decide)).trans attn, ?_, fun ql other => ?_, ?_⟩
  · rw [occupant]
    exact Part.setOccupant_self _ _ _
  · rw [occupant, setOccupant_get, if_neg other]
  · rw [foundLost, forgetMove_eq]
    show { (finaliseLost r (p.setOccupant pl none)).arm with
      move := (finaliseLost r (p.setOccupant pl none)).arm.move.filter (·.record != r) } = _
    rw [arm]
    cases p.arm.move with
    | none => rfl
    | some m =>
      by_cases mine : m.record = r
      · simp [Option.filter, mine]
      · simp [Option.filter, mine]

/-- A later change of other fields keeps all that. -/
theorem Part.LosesAt.andThen {v : Part} (h : p.LosesAt u pl r d q) {fs : List Field} (later : q.Changes fs v)
    (free : [Field.jobs, .ink, .inkWait, .printQueue, .discs, .heldSpell].all (· ∉ fs) = true := by rfl)
    (rest : Field.attn ∉ fs ∧ Field.places ∉ fs ∧ Field.arm ∉ fs := by decide) : p.LosesAt u pl r d v := by
  obtain ⟨attn, places, arm⟩ := rest
  have occupant := occupant_congr (later .places places)
  exact ⟨h.ends.andThen later free, (later .attn attn).trans h.attn, occupant ▸ h.left, occupant ▸ h.occupants,
    (later .arm arm).trans h.arm⟩

/-- The same loss, from a part that differs elsewhere. -/
theorem Part.LosesAt.of (h : p.LosesAt u pl r d q) {fs : List Field} (changes : p₀.Changes fs p)
    (autoRetire : p₀.tower.autoRetire = p.tower.autoRetire)
    (free : [Field.heldSpell, .attn, .now, .places, .arm].all (· ∉ fs) = true := by rfl) : p₀.LosesAt u pl r d q := by
  simp only [List.all_cons, List.all_nil, Bool.and_true, Bool.and_eq_true, decide_eq_true_eq] at free
  obtain ⟨heldSpell, attn, now, places, arm⟩ := free
  have flags : p.rejectFlags d = p₀.rejectFlags d := by
    rw [Part.rejectFlags, changes .attn attn, changes .now now, Part.rejectFlags]
  exact ⟨h.ends.of autoRetire (changes .heldSpell heldSpell).symm, flags ▸ h.attn, h.left,
    occupant_congr (changes .places places) ▸ h.occupants, h.arm.trans (by rw [changes .arm arm])⟩

theorem orderFor_eq (d : Disc) : p.orderFor d = p.order d := by
  unfold Part.orderFor Part.order
  cases d.eligible <;> rfl

/-! ## The QUERY's end -/

theorem status_taken (live : s.link.resetLow = false) (present : Bool) (condition : Condition) (t : Nat) :
    exec (.status present condition t) s = .next (s.became (settle (takeStatus present condition t s.part.fresh))) := by
  rw [exec_status, takeEvent_live live]
  rfl

theorem queryLimit_taken (live : s.link.resetLow = false) :
    exec .queryLimitExpiry s = .next (s.became (settle (queryExpires s.part.fresh))) := by
  rw [exec_queryLimitExpiry, takeEvent_live live]
  rfl

/-- The station in a state, its QUERY over and the sweep's printer mark clear (R145, R158, R168). -/
def Part.queried (p : Part) (st : StationState) (cause : Option StationFault) : Part :=
  { p with
    station := { p.station with state := st, faultCause := cause, queryDeadline := none }
    tower := p.tower.printerUnmarked }

theorem heated_queryDeadline (t : Nat) : (p.heated t).station.queryDeadline = p.station.queryDeadline := rfl

theorem takeStatus_flying {until_ t : Nat} (query : p.station.queryDeadline = some until_) (present : Bool) :
    takeStatus present .fault t p = (p.heated t).queried .fault (some .engine) ∧
      takeStatus present .ready t p = statusReady present (endQuery (p.heated t)) := by
  unfold takeStatus
  rw [takeTemperature_eq]
  dsimp only
  rw [heated_queryDeadline, query]
  exact ⟨rfl, rfl⟩

theorem statusReady_empty (empty : p.occupant .printer = none) : statusReady false (endQuery p) = p.queried .empty none := by
  have empty' : (endQuery p).occupant .printer = none := empty
  rw [statusReady, empty']
  rfl

/-- A station with its tray's disc in HOST_HOLD, or in FINISHED with the disc given its order (R7, R144). -/
theorem finishStation_held (there : p.occupant .printer = some r) (held : p.disc r = some d) : finishStation p =
    if d.stage = .hostHold then enterStation .finished p
    else (enterStation .finished p).setDisc r (some { d with eligible := some (p.orderFor d) }) := by
  have there' : (enterStation .finished p).occupant .printer = some r := there
  have held' : (enterStation .finished p).disc r = some d := held
  have stage : (enterStation .finished p).stageOf r = some d.stage := by rw [Part.stageOf, held']; rfl
  have ranks : (enterStation .finished p).eligibleRanks = p.eligibleRanks := rfl
  simp only [finishStation, there', stage, Option.some.injEq]
  split
  · rfl
  · rw [giveOrder, modDisc_held held', ranks]
    cases eligible : d.eligible <;> simp only [Part.orderFor, eligible]

theorem statusReady_found (empty : p.occupant .printer = none) (free : p.lowestFree = some r) :
    statusReady true (endQuery p) = (foundAt .printer r p).queried .finished none := by
  have empty' : (endQuery p).occupant .printer = none := empty
  have free' : (endQuery p).lowestFree = some r := free
  have found := createFound_free free' .printer
  have stands : (foundAt .printer r (endQuery p)).disc r = some { Disc.fresh .hostHold .pending with place := some .printer } := by
    rw [foundAt_disc, Part.setDisc_self]
  rw [statusReady, empty']
  show trayFinding (endQuery p) = _
  rw [trayFinding, found]
  show finishStation (foundAt .printer r (endQuery p)) = _
  exact (finishStation_held foundAt_here stands).trans (if_pos rfl)

theorem statusReady_untracked (empty : p.occupant .printer = none) (full : p.lowestFree = none) :
    statusReady true (endQuery p) = (raise .foundDisc p).queried .fault (some .untrackedDisc) := by
  have empty' : (endQuery p).occupant .printer = none := empty
  have full' : (endQuery p).lowestFree = none := full
  have found := createFound_full full' .printer
  rw [statusReady, empty']
  show trayFinding (endQuery p) = _
  rw [trayFinding, found]
  rfl

/-- A disc on the tray, as its record has it (R158). -/
theorem statusReady_present (there : p.occupant .printer = some r) (held : p.disc r = some d) :
    statusReady true (endQuery p) =
      if d.stage = .printing then p.queried .loaded none
      else if d.stage = .hostHold then p.queried .finished none
      else (p.setDisc r (some { d with eligible := some (p.order d) })).queried .finished none := by
  have there' : (endQuery p).occupant .printer = some r := there
  have held' : (endQuery p).disc r = some d := held
  have stage : (endQuery p).stageOf r = some d.stage := by rw [Part.stageOf, held']; rfl
  have order : (endQuery p).orderFor d = p.order d := (orderFor_eq d).trans rfl
  rw [statusReady, there']
  show (if (endQuery p).stageOf r = some .printing then enterStation .loaded (endQuery p) else finishStation (endQuery p)) = _
  rw [stage, finishStation_held there' held', order]
  simp only [Option.some.injEq]
  split
  · rfl
  · split <;> rfl

theorem statusReady_absent (there : p.occupant .printer = some r) :
    statusReady false (endQuery p) = enterStation .empty (foundLost .printer r (endQuery p)) := by
  have there' : (endQuery p).occupant .printer = some r := there
  rw [statusReady, there']
  rfl

/-- An occupant of the tray found absent, seen from a part alike for the label unit (R6, R14, R158). -/
theorem statusReady_loses (alike : p₀.Alike r p) (now : p.now = p₀.now) (there : p.occupant .printer = some r)
    (held : p.disc r = some d) :
    ∃ q, statusReady false (endQuery p) = q.queried .empty none ∧ q.tower = p.tower ∧
      p.Changes [.arm, .attn, .discs, .places, .jobs, .ink, .inkWait, .printQueue, .heldSpell] q ∧
      p.LosesAt (leaveLabelUnit r p₀) .printer r d q := by
  have ends : p.Changes [.station, .tower] (endQuery p) := (station_changes.andThen clearPrinterMark_changes).widen rfl
  have loses := foundLost_loses (alike.trans (ends.alike r)) ((ends .now (by decide)).trans now)
    (p := endQuery p) held .printer
  have lost := foundLost_changes (pl := .printer) (r := r) (p := endQuery p)
  have station : (foundLost .printer r (endQuery p)).station = { p.station with queryDeadline := none } :=
    lost .station (by decide)
  have tower : (foundLost .printer r (endQuery p)).tower = p.tower.printerUnmarked := lost .tower (by decide)
  rw [statusReady_absent there]
  generalize foundLost .printer r (endQuery p) = v at *
  have back : v.Changes [.station, .tower] { v with station := p.station, tower := p.tower } := fun f own => by
    cases f <;> first | rfl | simp at own
  refine ⟨{ v with station := p.station, tower := p.tower }, ?_, rfl,
    (((ends.andThen lost).andThen back).restored (f := .station) rfl |>.restored (f := .tower) rfl).widen rfl,
    (loses.of ends rfl).andThen back⟩
  show { v with station := { v.station with state := .empty, faultCause := none } } =
    { v with
      station := { p.station with state := .empty, faultCause := none, queryDeadline := none }
      tower := p.tower.printerUnmarked }
  rw [← tower, station]

/-- Settles O57: the QUERY's answer by the condition, the tray and the occupant; its limit; CLEAR PRINTER. -/
theorem printerQueries : Obligations.PrinterQueries := by
  refine ⟨?_, fun s tag taken => ⟨fun fault idle => ?_, fun barred => ?_⟩⟩
  · intro s until_ live query at_ becomes
    have query' : s.part.fresh.station.queryDeadline = some until_ := query
    refine ⟨fun t => ?_, ?_⟩
    · intro hot
      have heats : s.part.fresh.Changes [.station, .attn] hot := fun f own => by cases f <;> first | rfl | simp at own
      have alike : ∀ r, s.part.Alike r hot := fun r => (fresh_changes.andThen heats).alike r
      have ready : ∀ {present q}, statusReady present (endQuery hot) = q →
          exec (.status present .ready t) s = becomes q := fun {present q} is => by
        rw [status_taken live, (takeStatus_flying query' present).2, is]
      refine ⟨fun present => ?_, fun empty => ⟨?_, fun r free => ?_, fun full => ?_⟩, fun r d there held => ?_, ?_⟩
      · rw [status_taken live, (takeStatus_flying query' present).1]
        rfl
      · exact ready (statusReady_empty (p := hot) empty)
      · exact ready (statusReady_found (p := hot) empty free)
      · exact ready (statusReady_untracked (p := hot) empty full)
      · have is := statusReady_present (p := hot) there held
        refine ⟨fun printing => ready ?_, fun hold => ready ?_, fun unprinting free => ready ?_⟩
        · exact is.trans (if_pos printing)
        · exact is.trans ((if_neg (by simp [hold])).trans (if_pos hold))
        · exact is.trans ((if_neg unprinting).trans (if_neg free))
      · intro r d there held u told retire
        obtain ⟨q, is, tower, changes, loses⟩ := statusReady_loses (p := hot) (alike r) rfl there held
        refine ⟨q, ?_, changes, loses.ends.jobs, loses.ends.ink, loses.ends.inkWait, loses.ends.printQueue, loses.attn,
          loses.ends.disc, loses.ends.others, loses.ends.heldSpell, loses.arm, loses.left, loses.occupants⟩
        refine (ready is).trans ?_
        show becomes { q with station := _, tower := q.tower.printerUnmarked } = _
        rw [tower]
        rfl
    · rw [queryLimit_taken live, queryExpires, query']
      rfl
  · refine takeRequest_replied taken _ _ ?_
    rw [reqClearPrinter, if_pos (by exact ⟨fault, idle⟩)]
    rfl
  · refine takeRequest_replied taken _ _ ?_
    rw [reqClearPrinter, if_neg fun ⟨fault, idle⟩ => barred.elim (fun other => other fault) fun running => by
      rw [show s.part.station.queryDeadline = none from idle] at running
      cases running]
    rfl

end Sys2Proof.Machine
end

