-- ==== Sys2Proof/Proofs/Resets.lean ====
section
/-! PROOF. RESET_DONE, RESET_FAILED and an EJECT that fails in recovery (R6, R11, R78 to R80, R170). -/

namespace Sys2Proof.Machine

-- One proof after another: side by side, their threads' stacks pass the check's memory limit.
set_option Elab.async false

variable {p q u : Part} {s : State} {b : Fin 12} {r : Fin 24} {d e : Disc} {why : Reason} {op : DriveOp}

/-! ## A disc that leaves the label unit, whatever else has changed -/

theorem discs_ext (same : ∀ k, q.disc k = p.disc k) : q.discs = p.discs :=
  Vector.ext fun i lt => same ⟨i, lt⟩

/-- A disc leaves the label unit alike on records that differ in no field the label unit reads (R148, R152). -/
theorem leaveLabelUnit_over {fs : List Field} (alike : p.Alike r u) (changes : p.Changes (.discs :: fs) u)
    (carries : (leaveLabelUnit r p).Changes (.discs :: fs) q) (held : u.disc r = some e)
    (disc : q.disc r = some { e with reservation := none }) (others : OthersKept (leaveLabelUnit r p).disc q.disc r)
    (free : [Field.jobs, .ink, .inkWait, .printQueue].all (· ∉ fs) = true := by rfl)
    (agree : ∀ f ∈ fs, u.SameAt q f) : leaveLabelUnit r u = q := by
  have after := alike.leaveLabelUnit
  simp only [List.all_cons, List.all_nil, Bool.and_true, Bool.and_eq_true, decide_eq_true_eq] at free
  obtain ⟨jobs, ink, inkWait, printQueue⟩ := free
  have left := leaveLabelUnit_changes (r := r) (p := p)
  have left' := leaveLabelUnit_changes (r := r) (p := u)
  refine Part.Changes.eq (p := u) (fs := [.jobs, .ink, .inkWait, .printQueue, .discs]) (left'.widen rfl) (fun f own => ?_)
    fun f mem => ?_
  · by_cases mine : f ∈ fs
    · exact agree f mine
    · have same : p.SameAt q f := (left.andThen carries) f fun own' => by
        simp only [List.mem_append, List.mem_cons, List.not_mem_nil, or_false] at own own'
        tauto
      have same' : p.SameAt u f := changes f fun own' => by
        simp only [List.mem_cons, List.not_mem_nil, or_false, not_or] at own own'
        tauto
      cases f <;> exact Eq.trans same (Eq.symm same')
  · simp only [List.mem_cons, List.not_mem_nil, or_false] at mem
    obtain rfl | rfl | rfl | rfl | rfl := mem
    · exact after.jobs.trans (carries .jobs (by simpa using jobs)).symm
    · exact after.ink.trans (carries .ink (by simpa using ink)).symm
    · exact after.inkWait.trans (carries .inkWait (by simpa using inkWait)).symm
    · exact after.printQueue.trans (carries .printQueue (by simpa using printQueue)).symm
    · refine discs_ext fun k => ?_
      by_cases mine : k = r
      · subst mine
        rw [leaveLabelUnit_disc, held, disc]
        rfl
      · rw [after.others k mine, others k mine]

/-- The first REJECT of a moving disc, at a part that differs in its bays, its time, its tower and what it sent. -/
theorem rejectBound_over (held : p.disc r = some d) (active : d.stage.active = true) (unbound : d.stage ≠ .rejectBound)
    (bays : Vector Bay 12) (now : Nat) (tower : Tower) (sent : List Sent) :
    Part.rejectBound { p with bays := bays, now := now, tower := tower, sent := sent } r why d =
      { (leaveLabelUnit r { p with attn := p.attn.raise .discRejected now }).setDisc r (some { d with
          verdict := .reject, reason := some why, stage := .rejectBound, reservation := none }) with
        bays := bays, now := now, tower := tower, sent := sent } := by
  generalize is : Part.firstReject { p with bays := bays, now := now, tower := tower, sent := sent } r why d = u
  generalize flagged : ({ p with attn := p.attn.raise .discRejected now } : Part) = v
  have held' : u.disc r = some { d with verdict := .reject, reason := some why } := by
    rw [← is]
    exact firstReject_disc
  have changes : v.Changes [.discs, .bays, .now, .tower, .sent] u := by
    rw [← is, ← flagged]
    exact fun f own => by cases f <;> first | rfl | simp at own
  have named : v.disc r = some d := by rw [← flagged]; exact held
  have written : v.Alike r (v.setDisc r (some { d with verdict := .reject, reason := some why })) :=
    setDisc_alike (by rw [named]; rfl) (by rw [named]; rfl) (by rw [named]; rfl)
  have rest : (v.setDisc r (some { d with verdict := .reject, reason := some why })).Changes [.bays, .now, .tower, .sent] u := by
    rw [← is, ← flagged]
    exact fun f own => by cases f <;> first | rfl | simp at own
  have agrees : u.bays = bays ∧ u.now = now ∧ u.tower = tower ∧ u.sent = sent := by
    rw [← is]
    exact ⟨rfl, rfl, rfl, rfl⟩
  have left : leaveLabelUnit r u = { (leaveLabelUnit r v).setDisc r (some { d with
      verdict := .reject, reason := some why, reservation := none }) with
      bays := bays, now := now, tower := tower, sent := sent } := by
    refine leaveLabelUnit_over (fs := [.bays, .now, .tower, .sent]) (written.trans (rest.alike r)) changes
      (fun f own => by cases f <;> first | rfl | simp at own) held' (Part.setDisc_self _ _ _)
      (fun k other => Part.setDisc_other _ _ _ _ other) rfl fun f mem => ?_
    obtain ⟨bays', now', tower', sent'⟩ := agrees
    simp only [List.mem_cons, List.not_mem_nil, or_false] at mem
    obtain rfl | rfl | rfl | rfl := mem
    · exact bays'.symm
    · exact now'.symm
    · exact tower'.symm
    · exact sent'.symm
  have named' : (leaveLabelUnit r u).disc r = some { d with
      verdict := .reject, reason := some why, reservation := none } := by
    rw [leaveLabelUnit_disc, held']
    rfl
  rw [Part.rejectBound, is, setStage_held named', atStage_active (by exact active) (by exact unbound), left]
  generalize leaveLabelUnit r v = w
  exact setDisc_setDisc (p := { w with bays := bays, now := now, tower := tower, sent := sent }) _ _

theorem giveOrder_held (held : p.disc r = some d) :
    giveOrder r p = p.setDisc r (some { d with eligible := some (p.order d) }) := by
  rw [giveOrder, modDisc_held held, Part.order]
  cases d.eligible <;> rfl

/-! ## The end of a RESET -/

/-- The bay with its RESET ended (R78, R79, R170). -/
def Bay.resetEnded (x : Bay) : Bay :=
  { x.rested with
    service := false, abortMark := false
    consecutiveFailures := if x.service then 0 else x.consecutiveFailures }

/-- The RESET of bay `b` has ended (R168, R170). -/
def Part.resetEnded (p : Part) (b : Fin 12) : Part :=
  { p.setBay b (p.bay b).resetEnded with tower := p.tower.unmarked b }

theorem takeResetDone_eq (present : Bool) (tray : Tray) :
    takeResetDone b present tray p = afterReset b present tray (p.resetEnded b) := by
  unfold takeResetDone
  dsimp only
  congr 1
  rw [endReset, clearBayMark_eq, Part.resetEnded]
  simp [endDriveOp, Part.modBay, Part.setBay, Part.bay, Bay.resetEnded, Bay.rested]

theorem setBay_setBay (x y : Bay) : (p.setBay b x).setBay b y = p.setBay b y := by
  simp [Part.setBay]

theorem resetEnded_setBay (y : Bay) : (p.resetEnded b).setBay b y = { p.setBay b y with tower := p.tower.unmarked b } := by
  have collapsed := setBay_setBay (p := { p with tower := p.tower.unmarked b }) (b := b) (p.bay b).resetEnded y
  exact collapsed

theorem resetEnded_bay : (p.resetEnded b).bay b = (p.bay b).resetEnded := Part.setBay_self p b _

/-- A drive's report of the operation it holds is taken (R66). -/
theorem driveReport_taken (driving : s.driving b op) (f : Part → Part) :
    takeEvent (driveReport b op f) s = .next (s.became (settle (f s.part.fresh))) := by
  obtain ⟨live, operation⟩ := driving
  have holds : s.part.fresh.holds b op = true := decide_eq_true operation
  rw [takeEvent_live live, driveReport, if_pos holds]
  rfl

theorem resetDone_taken (driving : s.driving b .reset) (present : Bool) (tray : Tray) :
    exec (.resetDone b present tray) s = .next (s.became (settle
      (if (s.part.bay b).abortMark = true then testAbort (afterReset b present tray (s.part.fresh.resetEnded b))
        else afterReset b present tray (s.part.fresh.resetEnded b)))) := by
  rw [exec_resetDone, driveReport_taken driving, abortTested, takeResetDone_eq]
  rfl

/-! ## What the bay does then -/

section Finds
variable (empty : p.occupant (.bay b) = none)
include empty

theorem afterReset_emptied : afterReset b false .opened (p.resetEnded b) =
    { p.setBay b (p.bay b).resetEnded.emptied with
      attn := if (p.bay b).resetEnded.consecutiveFailures = 3 then p.attn.raise .bayFault p.now else p.attn
      tower := p.tower.unmarked b } := by
  have empty' : (p.resetEnded b).occupant (.bay b) = none := empty
  rw [afterReset, empty']
  show emptyBay b (p.resetEnded b) = _
  rw [emptyBay_eq, resetEnded_setBay, resetEnded_bay]
  rfl

theorem afterReset_ejects : afterReset b false .shut (p.resetEnded b) =
    { p.setBay b ((p.bay b).resetEnded.ejecting p.now) with
      sent := p.sent ++ [.drive b .eject], tower := p.tower.unmarked b } := by
  have empty' : (p.resetEnded b).occupant (.bay b) = none := empty
  rw [afterReset, empty']
  show ejectBay b (p.resetEnded b) = _
  rw [ejectBay_eq, resetEnded_setBay, resetEnded_bay]
  rfl

theorem afterReset_found (tray : Tray) (free : p.lowestFree = some r) : afterReset b true tray (p.resetEnded b) =
    match tray with
    | .shut => { (foundAt (.bay b) r p).setBay b ((p.bay b).resetEnded.enter .holding) with tower := p.tower.unmarked b }
    | .opened => { (foundAt (.bay b) r p).setBay b
        (((p.bay b).resetEnded.driven .load (p.now + 20000)).enter .closingTray) with
        sent := p.sent ++ [.drive b .load], tower := p.tower.unmarked b } := by
  have empty' : (p.resetEnded b).occupant (.bay b) = none := empty
  have free' : (p.resetEnded b).lowestFree = some r := free
  have commutes : foundAt (.bay b) r (p.resetEnded b) = (foundAt (.bay b) r p).resetEnded b := rfl
  have found := createFound_free free' (.bay b)
  have finding : afterReset b true tray (p.resetEnded b) = bayFinding b tray (p.resetEnded b) := by
    unfold afterReset
    rw [empty']
    rfl
  rw [finding]
  unfold bayFinding
  rw [found, commutes]
  cases tray with
  | shut => exact resetEnded_setBay _ |>.trans (by rw [resetEnded_bay]; rfl)
  | opened =>
    show loadBay b _ = _
    rw [loadBay_eq, resetEnded_setBay, resetEnded_bay]
    rfl

theorem afterReset_untracked (tray : Tray) (full : p.lowestFree = none) : afterReset b true tray (p.resetEnded b) =
    { p.setBay b { (p.bay b).resetEnded.enter .faulted with
        operation := none, deadline := none, faultCause := some .untrackedDisc } with
      attn := (p.attn.raise .foundDisc p.now).raise .bayFault p.now, tower := p.tower.unmarked b } := by
  have empty' : (p.resetEnded b).occupant (.bay b) = none := empty
  have full' : (p.resetEnded b).lowestFree = none := full
  have found := createFound_full full' (.bay b)
  have finding : afterReset b true tray (p.resetEnded b) = bayFinding b tray (p.resetEnded b) := by
    unfold afterReset
    rw [empty']
    rfl
  have commutes : raise .foundDisc (p.resetEnded b) = (raise .foundDisc p).resetEnded b := rfl
  rw [finding]
  unfold bayFinding
  rw [found, commutes]
  show faultBay b .untrackedDisc ((raise .foundDisc p).resetEnded b) = _
  have faults : ∀ v : Part, faultBay b .untrackedDisc (v.resetEnded b) = raise .bayFault ((v.resetEnded b).setBay b
      { ((v.resetEnded b).bay b).enter .faulted with
        operation := none, deadline := none, faultCause := some .untrackedDisc }) := fun v => rfl
  rw [faults, resetEnded_setBay, resetEnded_bay]
  rfl

end Finds

theorem dueOut_iff (held : p.disc r = some d) : p.dueOut r = true ↔ d.stage = .outbound ∨ d.stage = .rejectBound ∨
    d.stage = .printQueued ∧ p.printQueue.head? = some r := by
  have stage : p.stageOf r = some d.stage := by rw [Part.stageOf, held]; rfl
  rw [Part.dueOut, stage]
  cases d.stage <;> simp

section Occupied
variable (there : p.occupant (.bay b) = some r)
include there

theorem afterReset_holds : afterReset b true .shut (p.resetEnded b) =
    { p.setBay b ((p.bay b).resetEnded.enter .holding) with tower := p.tower.unmarked b } := by
  have there' : (p.resetEnded b).occupant (.bay b) = some r := there
  rw [afterReset, there']
  exact resetEnded_setBay _ |>.trans (by rw [resetEnded_bay])

theorem afterReset_presents : afterReset b true .opened (p.resetEnded b) =
    orderIfDue r { p.setBay b ((p.bay b).resetEnded.enter .presenting) with tower := p.tower.unmarked b } := by
  have there' : (p.resetEnded b).occupant (.bay b) = some r := there
  have there'' : (enterBay b .presenting (p.resetEnded b)).occupant (.bay b) = some r := there
  have entered : enterBay b .presenting (p.resetEnded b) =
      { p.setBay b ((p.bay b).resetEnded.enter .presenting) with tower := p.tower.unmarked b } :=
    resetEnded_setBay _ |>.trans (by rw [resetEnded_bay])
  rw [afterReset, there']
  show presentBay b (p.resetEnded b) = _
  rw [presentBay, there'', ← entered]

theorem afterReset_absent (tray : Tray) : afterReset b false tray (p.resetEnded b) =
    (match tray with | .opened => emptyBay b | .shut => ejectBay b) (foundLost (.bay b) r (p.resetEnded b)) := by
  have there' : (p.resetEnded b).occupant (.bay b) = some r := there
  unfold afterReset
  rw [there']
  cases tray <;> rfl

end Occupied

/-- What a RESET's end leaves of an occupant found absent, and of its bay (R14, R78, R79). -/
structure Part.ResetLoses (p u : Part) (b : Fin 12) (r : Fin 24) (d : Disc) (tray : Tray) (q : Part) : Prop where
  changes : p.Changes [.arm, .attn, .discs, .places, .bays, .jobs, .ink, .inkWait, .printQueue, .sent, .heldSpell] q
  ends : p.EndsRejected u r d.lost (tellRejected false d.job) q
  arm : q.arm = { p.arm with move := if p.arm.move.any (·.record == r) then none else p.arm.move }
  left : q.occupant (.bay b) = none
  occupants : ∀ pl, pl ≠ .bay b → q.occupant pl = p.occupant pl
  bays : OthersKept p.bay q.bay b
  opened : ∀ flags, flags = (tellRejected false d.job { u with attn := p.rejectFlags d }).attn → tray = .opened →
    q.bay b = (p.bay b).resetEnded.emptied ∧ q.sent = p.sent ∧
      q.attn = if (p.bay b).resetEnded.consecutiveFailures = 3 then flags.raise .bayFault p.now else flags
  shut : ∀ flags, flags = (tellRejected false d.job { u with attn := p.rejectFlags d }).attn → tray = .shut →
    q.bay b = (p.bay b).resetEnded.ejecting p.now ∧ q.sent = p.sent ++ [.drive b .eject] ∧ q.attn = flags

theorem tower_restored {t : Tower} (is : q.tower = t) (t' : Tower) : q = { { q with tower := t' } with tower := t } := by
  subst is
  rfl

theorem afterReset_loses {p₀ : Part} (alike : p₀.Alike r p) (now : p.now = p₀.now) (there : p.occupant (.bay b) = some r)
    (held : p.disc r = some d) (tray : Tray) :
    ∃ q, afterReset b false tray (p.resetEnded b) = { q with tower := p.tower.unmarked b } ∧
      p.ResetLoses (leaveLabelUnit r p₀) b r d tray q := by
  have ends : p.Changes [.bays, .tower] (p.resetEnded b) := fun f own => by cases f <;> first | rfl | simp at own
  have loses := (foundLost_loses (p := p.resetEnded b) (alike.trans (ends.alike r)) now held (.bay b)).of ends rfl
  have lost := foundLost_changes (pl := .bay b) (r := r) (p := p.resetEnded b)
  rw [afterReset_absent there]
  generalize foundLost (.bay b) r (p.resetEnded b) = v at *
  have tower : v.tower = p.tower.unmarked b := lost .tower (by decide)
  have bay : v.bay = (p.resetEnded b).bay := bay_congr (lost .bays (by decide))
  have own : v.bay b = (p.bay b).resetEnded := (congrFun bay b).trans resetEnded_bay
  have bays : OthersKept p.bay v.bay b := fun k other => by
    rw [bay]
    exact Part.setBay_other p b _ _ other
  have sent : v.sent = p.sent := lost .sent (by decide)
  have now' : v.now = p.now := lost .now (by decide)
  have common : ∀ q, v.Changes [.bays, .attn, .sent, .tower] q → q.tower = p.tower →
      p.Changes [.arm, .attn, .discs, .places, .bays, .jobs, .ink, .inkWait, .printQueue, .sent, .heldSpell] q ∧
        p.EndsRejected (leaveLabelUnit r p₀) r d.lost (tellRejected false d.job) q ∧
        q.arm = { p.arm with move := if p.arm.move.any (·.record == r) then none else p.arm.move } ∧
        q.occupant (.bay b) = none ∧ ∀ pl, pl ≠ .bay b → q.occupant pl = p.occupant pl := fun q later same => by
    have occupant := occupant_congr (later .places (by decide))
    exact ⟨(((ends.andThen lost).andThen later).restored (f := .tower) same).widen rfl, loses.ends.andThen later,
      (later .arm (by decide)).trans loses.arm, occupant ▸ loses.left, occupant ▸ loses.occupants⟩
  cases tray with
  | opened =>
    have is := emptyBay_eq b v
    rw [own, now'] at is
    obtain ⟨changes, ends, arm, left, occupants⟩ := common { emptyBay b v with tower := p.tower }
      ((emptyBay_changes.widen rfl).step (gs := [.tower]) (fun f own => by cases f <;> first | rfl | simp at own) rfl) rfl
    refine ⟨{ emptyBay b v with tower := p.tower }, ?_, changes, ends, arm, left, occupants, fun k other => ?_,
      fun flags flags_is _ => ⟨?_, ?_, ?_⟩, nofun⟩
    · exact tower_restored ((emptyBay_changes .tower (by decide)).trans tower) _
    · show (emptyBay b v).bay k = _
      rw [is, ← bays k other]
      exact Part.setBay_other v b _ _ other
    · show (emptyBay b v).bay b = _
      rw [is]
      exact Part.setBay_self v b _
    · exact (emptyBay_changes .sent (by decide)).trans sent
    · show (emptyBay b v).attn = _
      rw [is, flags_is, ← loses.attn]
  | shut =>
    have is : ejectBay b v = { v.setBay b ((p.bay b).resetEnded.ejecting p.now) with sent := p.sent ++ [.drive b .eject] } := by
      rw [ejectBay_eq, own, now', sent]
      rfl
    obtain ⟨changes, ends, arm, left, occupants⟩ := common { ejectBay b v with tower := p.tower }
      ((ejectBay_changes.widen rfl).step (gs := [.tower]) (fun f own => by cases f <;> first | rfl | simp at own) rfl) rfl
    refine ⟨{ ejectBay b v with tower := p.tower }, ?_, changes, ends, arm, left, occupants, fun k other => ?_, nofun,
      fun flags flags_is _ => ⟨?_, ?_, ?_⟩⟩
    · exact tower_restored ((ejectBay_changes .tower (by decide)).trans tower) _
    · show (ejectBay b v).bay k = _
      rw [is, ← bays k other]
      exact Part.setBay_other v b _ _ other
    · show (ejectBay b v).bay b = _
      rw [is]
      exact Part.setBay_self v b _
    · exact congrArg Part.sent is
    · exact (congrArg Part.attn is).trans (loses.attn.trans flags_is.symm)

/-! ## A recovery that fails -/

/-- The bay FAULTED by a failed recovery (R65, R78). -/
def Bay.unrecovered (x : Bay) : Bay :=
  { x.enter .faulted with
    operation := none, deadline := none, service := false, abortMark := false, faultCause := some .resetFailed }

theorem failedRecovery_faults : faultBay b .resetFailed (endReset b p) =
    { p.setBay b (p.bay b).unrecovered with attn := p.attn.raise .bayFault p.now, tower := p.tower.unmarked b } := by
  rw [endReset, clearBayMark_eq]
  simp [faultBay, raise, endDriveOp, Part.modBay, Part.setBay, Part.bay, Bay.unrecovered, Bay.enter, BayState.settled]

theorem failedRecovery_empty (empty : p.occupant (.bay b) = none) : failedRecovery b p =
    { p.setBay b (p.bay b).unrecovered with attn := p.attn.raise .bayFault p.now, tower := p.tower.unmarked b } := by
  unfold failedRecovery
  rw [failedRecovery_faults]
  have empty' : ({ p.setBay b (p.bay b).unrecovered with
      attn := p.attn.raise .bayFault p.now, tower := p.tower.unmarked b } : Part).occupant (.bay b) = none := empty
  simp only [empty']

section Occupied
variable (there : p.occupant (.bay b) = some r)
include there

theorem failedRecovery_occupied : failedRecovery b p = clearOrder r (rejectDisc r .bayFault
    { p.setBay b (p.bay b).unrecovered with
      attn := p.attn.raise .bayFault p.now, tower := p.tower.unmarked b }) := by
  unfold failedRecovery
  rw [failedRecovery_faults]
  have there' : ({ p.setBay b (p.bay b).unrecovered with
      attn := p.attn.raise .bayFault p.now, tower := p.tower.unmarked b } : Part).occupant (.bay b) = some r := there
  simp only [there']

theorem failedRecovery_rejected (held : p.disc r = some d) (rejected : d.verdict = .reject) : failedRecovery b p =
    { (p.setDisc r (some { d with reason := some .bayFault, eligible := none })).setBay b (p.bay b).unrecovered with
      attn := p.attn.raise .bayFault p.now, tower := p.tower.unmarked b } := by
  rw [failedRecovery_occupied there]
  have held' : ({ p.setBay b (p.bay b).unrecovered with
      attn := p.attn.raise .bayFault p.now, tower := p.tower.unmarked b } : Part).disc r = some d := held
  rw [rejectDisc_again held' rejected, writeReject_replaces held' rejected rfl, clearOrder,
    modDisc_held (Part.setDisc_self _ r _), setDisc_setDisc]
  rfl

theorem failedRecovery_rejects (held : p.disc r = some d) (placed : d.place = some (.bay b)) (first : d.verdict ≠ .reject)
    (active : d.stage.active = true) (unbound : d.stage ≠ .rejectBound) (unprinting : d.stage ≠ .printing) (now : Nat)
    (sent : List Sent) :
    failedRecovery b { p with now := now, sent := sent } =
      { ((leaveLabelUnit r { p with attn := (p.attn.raise .bayFault now).raise .discRejected now }).setDisc r
          (some { d with
            verdict := .reject, reason := some .bayFault, stage := .rejectBound, reservation := none, eligible := none })) with
        bays := p.bays.set b.val (p.bay b).unrecovered, now := now, tower := p.tower.unmarked b, sent := sent } := by
  have bound := rejectBound_over (p := { p with attn := p.attn.raise .bayFault now }) (why := .bayFault) held active
    unbound (p.bays.set b.val (p.bay b).unrecovered) now (p.tower.unmarked b) sent
  rw [failedRecovery_occupied (p := { p with now := now, sent := sent }) there]
  generalize is : ({ Part.setBay { p with now := now, sent := sent } b
      (Part.bay { p with now := now, sent := sent } b).unrecovered with
    attn := p.attn.raise .bayFault now, tower := p.tower.unmarked b } : Part) = q
  have held' : q.disc r = some d := by
    rw [← is]
    exact held
  have bay : q.bay b = (p.bay b).unrecovered := by
    rw [← is]
    exact Part.setBay_self p b _
  have waits : ((q.rejectBound r .bayFault d).bay b).state.abortable = false := by
    rw [rejectBound_bay, bay]
    rfl
  obtain ⟨-, atBay, -⟩ := rejectDisc_moves (why := .bayFault) held' first active unbound unprinting
  rw [atBay b placed, bayReject_waits waits, ← is]
  refine (congrArg (clearOrder r) bound).trans ?_
  generalize leaveLabelUnit r _ = w
  have written : Part.disc { w.setDisc r (some { d with
      verdict := .reject, reason := some .bayFault, stage := .rejectBound, reservation := none }) with
      bays := p.bays.set b.val (p.bay b).unrecovered, now := now, tower := p.tower.unmarked b, sent := sent } r =
      some { d with verdict := .reject, reason := some .bayFault, stage := .rejectBound, reservation := none } :=
    Part.setDisc_self w r _
  rw [clearOrder, modDisc_held written]
  exact setDisc_setDisc (p := { w with
    bays := p.bays.set b.val (p.bay b).unrecovered, now := now, tower := p.tower.unmarked b, sent := sent }) _ _

end Occupied

theorem bays_written {fs : List Field} (changes : p.Changes fs q) {o : Option Disc} {y : Bay} {now : Nat} {t : Tower}
    {l : List Sent} (free : Field.bays ∉ fs := by decide) :
    ({ (q.setDisc r o).setBay b y with now := now, tower := t, sent := l } : Part) =
      { q.setDisc r o with bays := p.bays.set b.val y, now := now, tower := t, sent := l } := by
  rw [← show q.bays = p.bays from changes .bays free]
  rfl

/-- The events that end a recovery badly: the report of its RESET or EJECT, or its watchdog's expiry (R76, R78). -/
theorem failedRecovery_taken {i : Instr} {now : Nat} (driving : s.driving b op)
    (event : now = s.part.now ∧ (op = .reset ∧ i = .resetFailed b ∨
          op = .eject ∧ (s.part.bay b).recovering = true ∧ i = .ejectError b) ∨
        ∃ t, (s.part.bay b).deadline = some t ∧ now = max s.part.now t ∧ i = .watchdogExpiry b ∧
          (op = .reset ∨ op = .eject ∧ (s.part.bay b).recovering = true)) :
    exec i s = .next (s.became (settle
      (if (s.part.bay b).abortMark = true ∧ i ≠ .ejectError b then
          testAbort (failedRecovery b { s.part with now := now, sent := [] })
        else failedRecovery b { s.part with now := now, sent := [] }))) := by
  have same : ({ s.part with now := s.part.now, sent := [] } : Part) = s.part.fresh := rfl
  obtain ⟨rfl, ⟨rfl, rfl⟩ | ⟨rfl, recovering, rfl⟩⟩ | ⟨t, deadline, rfl, rfl, ends⟩ := event
  · rw [exec_resetFailed, driveReport_taken driving, same, abortTested]
    simp only [ne_eq, reduceCtorEq, not_false_eq_true, and_true]
    rfl
  · have recovering' : (s.part.fresh.bay b).recovering = true := recovering
    rw [exec_ejectError, driveReport_taken driving, same, if_neg fun ⟨_, other⟩ => other rfl, ejectFails,
      if_pos recovering']
  · obtain ⟨live, operation⟩ := driving
    have deadline' : (s.part.fresh.bay b).deadline = some t := deadline
    have recovers : watchdogFails b { s.part.fresh with now := max s.part.now t } =
        failedRecovery b { s.part.fresh with now := max s.part.now t } := by
      have operation' : (Part.bay { s.part.fresh with now := max s.part.now t } b).operation = some op := operation
      unfold watchdogFails
      rw [operation']
      obtain rfl | ⟨rfl, recovering⟩ := ends
      · rfl
      · exact if_pos recovering
    have expires : watchdogExpires b s.part.fresh = if (s.part.bay b).abortMark = true then
        testAbort (failedRecovery b { s.part.fresh with now := max s.part.now t })
        else failedRecovery b { s.part.fresh with now := max s.part.now t } := by
      unfold watchdogExpires
      rw [deadline', ← recovers]
      rfl
    rw [exec_watchdogExpiry, takeEvent_live live, expires]
    simp only [ne_eq, reduceCtorEq, not_false_eq_true, and_true]
    rfl

/-- Settles O52: RESET_DONE by presence, tray and occupant; then the ends of a recovery that fails. -/
theorem resetReports : Obligations.ResetReports := by
  intro s b x ended tower becomes quarantined
  have result : ∀ {present tray q}, s.driving b .reset →
      afterReset b present tray (s.part.fresh.resetEnded b) = { q with tower := tower } →
      exec (.resetDone b present tray) s = becomes q := fun {present tray q} driving is => by
    rw [resetDone_taken driving, is]
  refine ⟨fun driving => ⟨fun empty => ⟨?_, ?_, fun r free => ?_, fun tray full => ?_⟩, fun r there => ?_,
    fun r d there held => ?_, fun r d tray there held => ?_⟩, fun i op now driving event => ?_⟩
  · exact result driving (afterReset_emptied (p := s.part.fresh) empty)
  · exact result driving (afterReset_ejects (p := s.part.fresh) empty)
  · intro found
    exact ⟨result driving (afterReset_found (p := s.part.fresh) empty .shut free),
      result driving (afterReset_found (p := s.part.fresh) empty .opened free)⟩
  · exact result driving (afterReset_untracked (p := s.part.fresh) empty tray full)
  · exact result driving (afterReset_holds (p := s.part.fresh) there)
  · intro due presenting
    have is := afterReset_presents (p := s.part.fresh) there
    have iff := dueOut_iff (p := { s.part.fresh.setBay b ((s.part.fresh.bay b).resetEnded.enter .presenting) with
      tower := s.part.fresh.tower.unmarked b }) (r := r) (d := d) held
    refine ⟨fun out => result driving (is.trans ?_), fun stays => result driving (is.trans ?_)⟩
    · rw [orderIfDue, if_pos (iff.mpr out), giveOrder_held (by exact held)]
      rfl
    · rw [orderIfDue, if_neg (mt iff.mp stays)]
      rfl
  · intro u told flags retire
    obtain ⟨q, is, loses⟩ := afterReset_loses (p := s.part.fresh) ((fresh_changes (p := s.part)).alike r) rfl there held tray
    refine ⟨q, result driving is, loses.changes, loses.ends.jobs, loses.ends.ink, loses.ends.inkWait,
      loses.ends.printQueue, loses.ends.disc, loses.ends.others, loses.ends.heldSpell, loses.arm, loses.left,
      loses.occupants, loses.bays, ?_, ?_⟩
    · exact loses.opened flags rfl
    · exact loses.shut flags rfl
  · intro faulted fails flags
    have taken := failedRecovery_taken driving event
    have result : ∀ {q : Part}, failedRecovery b { s.part with now := now, sent := [] } =
        { q.setBay b faulted with now := now, tower := tower, sent := [] } → fails q := fun {q} is => by
      show exec i s = _
      rw [taken, is]
    refine ⟨fun empty => ?_, fun r d there held => ⟨fun rejected => ?_, fun placed first active unbound unprinting => ?_⟩⟩
    · exact result (failedRecovery_empty (p := { s.part with now := now, sent := [] }) empty)
    · exact result (failedRecovery_rejected (p := { s.part with now := now, sent := [] }) there held rejected)
    · exact result ((failedRecovery_rejects there held placed first active unbound unprinting now []).trans
        (bays_written leaveLabelUnit_changes).symm)

end Sys2Proof.Machine
end

