-- ==== Sys2Proof/Proofs/BayFailures.lean ====
section
/-! PROOF. A failure of a bay, by a drive's report or its watchdog's expiry (R67, R76, R79). -/

namespace Sys2Proof.Machine

-- One proof after another: side by side, their threads' stacks pass the check's memory limit.
set_option Elab.async false

variable {p q u : Part} {s : State} {b : Fin 12} {r : Fin 24} {d e : Disc} {why : Reason} {op : DriveOp} {c : Fin 4}
  {st : Stream} {o : RecOutcome}

/-! ## A bay leaves its stream -/

theorem leaveStream_none (channel : (p.bay b).channel = none) : leaveStream b p = p := by
  rw [leaveStream, channel]

theorem closeIfEmpty_setChannel (st : Stream) : closeIfEmpty c (p.setChannel c (.recording st)) =
    if st.members = [] then { p.setChannel c .free with splitReqs := p.splitReqs.filter (· != c) }
    else p.setChannel c (.recording st) := by
  have stream : (p.setChannel c (.recording st)).stream c = some st := by rw [Part.stream, Part.setChannel_self]
  have freed : freeChannel c (p.setChannel c (.recording st)) =
      { p.setChannel c .free with splitReqs := p.splitReqs.filter (· != c) } := by
    simp [freeChannel, Part.setChannel]
  rw [closeIfEmpty, stream, freed]
  simp only [List.isEmpty_iff]

/-- The stream of channel `c` without the bay `b` (R124). -/
def Stream.without (st : Stream) (b : Fin 12) : Stream := { st with members := st.members.filter (·.bay != b) }

/-- A bay that leaves its stream: *channel* is cleared in both records, and a stream left empty closes (R124). -/
theorem leaveStream_some (channel : (p.bay b).channel = some c) (there : p.occupant (.bay b) = some r)
    (held : p.disc r = some d) (stream : p.stream c = some st) : leaveStream b p =
      let left := (p.setBay b { p.bay b with channel := none }).setDisc r (some { d with channel := none })
      if (st.without b).members = [] then
        { left.setChannel c .free with splitReqs := p.splitReqs.filter (· != c) }
      else left.setChannel c (.recording (st.without b)) := by
  have there' : (p.modBay b fun x => { x with channel := none }).occupant (.bay b) = some r := there
  have held' : (p.modBay b fun x => { x with channel := none }).disc r = some d := held
  have stream' : (((p.modBay b fun x => { x with channel := none }).modDisc r fun d => { d with channel := none })).stream c =
    some st := stream
  unfold leaveStream
  rw [channel]
  dsimp only
  rw [there']
  dsimp only
  rw [stream']
  dsimp only
  rw [modDisc_held held']
  exact closeIfEmpty_setChannel (st.without b)

/-! ## The outcome handed -/

theorem handOutcome_over (media : q.media = p.media)
    (disc : (q.disc r).bind (·.media) = (p.disc r).bind (·.media)) :
    handOutcome r o q = { q with media := (handOutcome r o p).media } := by
  unfold handOutcome
  rw [disc]
  split
  · rw [← media]
  · simp only [Part.setEntry, Part.entry, media]

theorem handOutcome_media : handOutcome r o p = { p with media := (handOutcome r o p).media } :=
  handOutcome_over rfl rfl

/-! ## The failure -/

/-- Tower control's record once bay `b` owes the sweep no RESET (R168). -/
def Tower.resetPaid (t : Tower) (b : Fin 12) : Tower :=
  { t with sweep := t.sweep.map fun w => { w with resetOwed := w.resetOwed.set b.val false } }

/-- RESET sent to a bay at work, at the time `now` (R66). -/
theorem resetBay_busy (busy : (p.bay b).operation = some op) (now : Nat) :
    resetBay b { p with now := now, sent := [] } =
      { p with
        bays := p.bays.set b.val ((p.bay b).resetting now), now := now, tower := p.tower.resetPaid b
        sent := [.drive b .abort, .drive b .reset] } := by
  have busy' : (Part.bay { p with now := now, sent := [] } b).operation = some op := busy
  have is := resetBay_of (q := { p with now := now, sent := [] }) (p := { p with now := now, sent := [] }) (b := b)
    rfl rfl rfl rfl
  rw [is, busy']
  rfl

/-- The outcome FAIL is handed when the verdict was PENDING (R92, R76). -/
def handFail (d : Disc) (r : Fin 24) (p : Part) : Part := if d.verdict = .pending then handOutcome r .fail p else p

theorem bayFailure_empty (empty : p.occupant (.bay b) = none) : bayFailure b why p = resetBay b p := by
  rw [bayFailure, empty]

theorem bayFailure_occupied (there : p.occupant (.bay b) = some r) (held : p.disc r = some d) : bayFailure b why p =
    countFailure b (handFail d r (leaveStream b ((rejectDisc r why (resetBay b p)).setContext b none))) := by
  have pending : ((p.disc r).map (·.verdict) == some .pending) = decide (d.verdict = .pending) := by
    rw [held]
    cases is : d.verdict <;> simp [is]
  unfold bayFailure
  rw [there]
  dsimp only
  rw [pending, handFail]
  simp only [decide_eq_true_eq]

theorem countFailure_eq : countFailure b p = p.setBay b (p.bay b).failed := rfl

section Occupied
variable (there : p.occupant (.bay b) = some r) (held : p.disc r = some d) (busy : (p.bay b).operation = some op) (now : Nat)
include there held busy

/-- An occupant already rejected keeps its record (R4, R76). -/
theorem bayFailure_rejected (rejected : d.verdict = .reject) (channel : (p.bay b).channel = none) (common : why.fate = false) :
    bayFailure b why { p with now := now, sent := [] } =
      { (p.setContext b none).setBay b ((p.bay b).resetting now).failed with
        now := now, tower := p.tower.resetPaid b, sent := [.drive b .abort, .drive b .reset] } := by
  rw [bayFailure_occupied (p := { p with now := now, sent := [] }) there held, resetBay_busy busy]
  generalize is : ({ p with
    bays := p.bays.set b.val ((p.bay b).resetting now), now := now, tower := p.tower.resetPaid b
    sent := [.drive b .abort, .drive b .reset] } : Part) = q
  have held' : q.disc r = some d := by rw [← is]; exact held
  have bay : q.bay b = (p.bay b).resetting now := by rw [← is]; exact Part.setBay_self p b _
  have channel' : ((q.setContext b none).bay b).channel = none := (congrArg Bay.channel bay).trans channel
  rw [rejectDisc_again held' rejected, writeReject_keeps_reason held' rejected common, leaveStream_none channel', handFail,
    if_neg (by simp [rejected]), countFailure_eq, Part.setContext_bay, bay, ← is]
  exact setBay_setBay (p := { p.setContext b none with
    now := now, tower := p.tower.resetPaid b, sent := [.drive b .abort, .drive b .reset] }) _ _

omit there in
omit busy in
/-- The first REJECT of a disc whose bay has been sent RESET (R13, R76). -/
theorem rejectDisc_resetting (placed : d.place = some (.bay b)) (first : d.verdict ≠ .reject)
    (active : d.stage.active = true) (unbound : d.stage ≠ .rejectBound) (unprinting : d.stage ≠ .printing) (tower : Tower)
    (sent : List Sent) :
    rejectDisc r why { p with
        bays := p.bays.set b.val ((p.bay b).resetting now), now := now, tower := tower, sent := sent } =
      { (leaveLabelUnit r { p with attn := p.attn.raise .discRejected now }).setDisc r (some { d with
          verdict := .reject, reason := some why, stage := .rejectBound, reservation := none }) with
        bays := p.bays.set b.val ((p.bay b).resetting now), now := now, tower := tower, sent := sent } := by
  have bound := rejectBound_over (why := why) held active unbound (p.bays.set b.val ((p.bay b).resetting now)) now tower sent
  rw [← bound]
  generalize is : ({ p with
    bays := p.bays.set b.val ((p.bay b).resetting now), now := now, tower := tower, sent := sent } : Part) = q
  have held' : q.disc r = some d := by rw [← is]; exact held
  have bay : q.bay b = (p.bay b).resetting now := by rw [← is]; exact Part.setBay_self p b _
  have waits : ((q.rejectBound r why d).bay b).state.abortable = false := by
    rw [rejectBound_bay, bay]
    rfl
  obtain ⟨-, atBay, -⟩ := rejectDisc_moves (why := why) held' first active unbound unprinting
  rw [atBay b placed, bayReject_waits waits]

end Occupied

/-- What a failure leaves of its bay and its disc's part, the disc out of the label unit (R76, R79). -/
def Part.failedAt (w : Part) (b : Fin 12) (y : Bay) (d : Disc) (r : Fin 24) (now : Nat) (t : Tower) (e : Disc) : Part :=
  { ((handFail d r (w.setDisc r (some e))).setContext b none).setBay b y with
    now := now, tower := t, sent := [.drive b .abort, .drive b .reset] }

section Failed
variable {w : Part} {y : Bay} {now : Nat} {t : Tower}

/-- The part with its bay reset and its disc rejected (R76). -/
def Part.underReset (w : Part) (b : Fin 12) (y : Bay) (r : Fin 24) (now : Nat) (t : Tower) (e : Disc) : Part :=
  { w.setDisc r (some e) with
    bays := w.bays.set b.val y, now := now, tower := t, sent := [.drive b .abort, .drive b .reset] }

theorem handFail_over (media : q.media = p.media) (disc : (q.disc r).bind (·.media) = (p.disc r).bind (·.media)) :
    handFail d r q = { q with media := (handFail d r p).media } := by
  unfold handFail
  split
  · exact handOutcome_over media disc
  · rw [← media]

theorem handFail_changes : p.Changes [.media] (handFail d r p) := by
  unfold handFail
  split
  · exact handOutcome_changes
  · exact .refl p _

/-- The end of a failure: a part that differs from the disc's own in its channels and its split requests. -/
theorem countFailure_hand {z : Bay} (channels : Vector Channel 4) (splits : List (Fin 4)) (failed : z.failed = y) :
    countFailure b (handFail d r { ((w.underReset b z r now t e).setContext b none) with
        channels := channels, splitReqs := splits }) =
      { w.failedAt b y d r now t e with channels := channels, splitReqs := splits } := by
  generalize is : ({ ((w.underReset b z r now t e).setContext b none) with
        channels := channels, splitReqs := splits } : Part) = q
  have media : q.media = (w.setDisc r (some e)).media := by rw [← is]; rfl
  have disc : q.disc r = (w.setDisc r (some e)).disc r := by rw [← is]; rfl
  have bay : q.bay b = z := by rw [← is]; exact Part.setBay_self w b z
  rw [handFail_over media (by rw [disc]), Part.failedAt]
  have same : handFail d r (w.setDisc r (some e)) =
      { w.setDisc r (some e) with media := (handFail d r (w.setDisc r (some e))).media } := handFail_over rfl rfl
  generalize (handFail d r (w.setDisc r (some e))).media = m at same ⊢
  have counted : countFailure b { q with media := m } = { q.setBay b y with media := m } := by
    rw [← failed, ← bay]
    rfl
  rw [same, counted, ← is]
  have twice := setBay_setBay (p := { w.setDisc r (some e) with
    now := now, tower := t, sent := [.drive b .abort, .drive b .reset], channels := channels, splitReqs := splits
    contexts := w.contexts.set b.val none, media := m }) (b := b) z y
  exact twice

theorem failedAt_streams : (w.failedAt b y d r now t e).channels = w.channels ∧
    (w.failedAt b y d r now t e).splitReqs = w.splitReqs := by
  have hand := handFail_changes (d := d) (r := r) (p := w.setDisc r (some e))
  exact ⟨hand .channels (by decide), hand .splitReqs (by decide)⟩

/-- The end of a failure in no stream. -/
theorem countFailure_streamless {z : Bay} (failed : z.failed = y) :
    countFailure b (handFail d r ((w.underReset b z r now t e).setContext b none)) = w.failedAt b y d r now t e := by
  have is := countFailure_hand (w := w) (b := b) (d := d) (r := r) (now := now) (t := t) (e := e) w.channels w.splitReqs failed
  obtain ⟨channels, splits⟩ := failedAt_streams (w := w) (b := b) (y := y) (d := d) (r := r) (now := now) (t := t) (e := e)
  exact is.trans (by rw [← channels, ← splits])

/-- The bay's stream goes on without it, or closes with it (R124). -/
theorem underReset_leaves {z : Bay} (there : w.occupant (.bay b) = some r) (channel : z.channel = some c)
    (stream : w.stream c = some st) : leaveStream b ((w.underReset b z r now t e).setContext b none) =
      { (w.underReset b { z with channel := none } r now t { e with channel := none }).setContext b none with
        channels := if (st.without b).members = [] then w.channels.set c.val .free
          else w.channels.set c.val (.recording (st.without b))
        splitReqs := if (st.without b).members = [] then w.splitReqs.filter (· != c) else w.splitReqs } := by
  generalize is : (w.underReset b z r now t e).setContext b none = q
  have bay : q.bay b = z := by rw [← is]; exact Part.setBay_self w b z
  have held' : q.disc r = some e := by rw [← is]; exact Part.setDisc_self w r _
  have there' : q.occupant (.bay b) = some r := by rw [← is]; exact there
  have stream' : q.stream c = some st := by rw [← is]; exact stream
  have left : (q.setBay b { z with channel := none }).setDisc r (some { e with channel := none }) =
      (w.underReset b { z with channel := none } r now t { e with channel := none }).setContext b none := by
    rw [← is]
    simp [Part.underReset, Part.setContext, Part.setBay, Part.setDisc]
  rw [leaveStream_some (bay ▸ channel) there' held' stream', bay]
  dsimp only
  rw [left, show q.splitReqs = w.splitReqs by rw [← is]; rfl]
  split <;> rfl

end Failed

/-- The events that are a failure of a bay: a drive's error report, or its watchdog's expiry (R67, R76). -/
theorem bayFailure_taken {i : Instr} {now : Nat} (driving : s.driving b op)
    (event : now = s.part.now ∧
        (op = .load ∧ i = .loadError b ∧ why = .recordFailed ∨
          op = .identify ∧ i = .idError b ∧ why = .recordFailed ∨
          op = .write ∧ i = .writeError b ∧ why = .recordFailed ∨
          op = .close ∧ i = .closeError b ∧ why = .recordFailed ∨
          op = .eject ∧ (s.part.bay b).recovering = false ∧ i = .ejectError b ∧ why = .stalled) ∨
      ∃ t, (s.part.bay b).deadline = some t ∧ now = max s.part.now t ∧ op ≠ .reset ∧
        (op = .eject → (s.part.bay b).recovering = false) ∧ i = .watchdogExpiry b ∧ why = .stalled) :
    exec i s = .next (s.became (settle
      (if i = .watchdogExpiry b ∧ (s.part.bay b).abortMark = true then
          testAbort (bayFailure b why { s.part with now := now, sent := [] })
        else bayFailure b why { s.part with now := now, sent := [] }))) := by
  have same : ({ s.part with now := s.part.now, sent := [] } : Part) = s.part.fresh := rfl
  obtain ⟨rfl, report⟩ | ⟨t, deadline, rfl, unreset, recovery, rfl, rfl⟩ := event
  · have untested : i ≠ .watchdogExpiry b := by
      rintro rfl
      simp at report
    rw [same, if_neg fun ⟨other, _⟩ => untested other]
    obtain ⟨rfl, rfl, rfl⟩ | ⟨rfl, rfl, rfl⟩ | ⟨rfl, rfl, rfl⟩ | ⟨rfl, rfl, rfl⟩ | ⟨rfl, calm, rfl, rfl⟩ := report
    · rw [exec_loadError, driveReport_taken driving]
    · rw [exec_idError, driveReport_taken driving]
    · rw [exec_writeError, driveReport_taken driving]
    · rw [exec_closeError, driveReport_taken driving]
    · have calm' : ¬ (s.part.fresh.bay b).recovering = true := Bool.eq_false_iff.mp calm
      rw [exec_ejectError, driveReport_taken driving, ejectFails, if_neg calm']
  · obtain ⟨live, operation⟩ := driving
    have deadline' : (s.part.fresh.bay b).deadline = some t := deadline
    have stalls : watchdogFails b { s.part.fresh with now := max s.part.now t } =
        bayFailure b .stalled { s.part.fresh with now := max s.part.now t } := by
      have operation' : (Part.bay { s.part.fresh with now := max s.part.now t } b).operation = some op := operation
      unfold watchdogFails
      rw [operation']
      cases op with
      | reset => exact absurd rfl unreset
      | eject => exact if_neg (Bool.eq_false_iff.mp (recovery rfl))
      | _ => rfl
    have expires : watchdogExpires b s.part.fresh = if (s.part.bay b).abortMark = true then
        testAbort (bayFailure b .stalled { s.part.fresh with now := max s.part.now t })
        else bayFailure b .stalled { s.part.fresh with now := max s.part.now t } := by
      unfold watchdogExpires
      rw [deadline', ← stalls]
      rfl
    rw [exec_watchdogExpiry, takeEvent_live live, expires]
    simp only [true_and]
    rfl

/-- Settles O51: the bay is reset; then its occupant, rejected already or now, its stream and its outcome. -/
theorem bayFailures : Obligations.BayFailures := by
  intro s b op i why now driving event x tower fails resets
  have taken := bayFailure_taken driving event
  have result : ∀ {q : Part}, bayFailure b why { s.part with now := now, sent := [] } = q → fails q := fun {q} is => by
    show exec i s = _
    rw [taken, is]
  have busy := driving.2
  have common : why.fate = false := by
    obtain ⟨-, ⟨-, -, rfl⟩ | ⟨-, -, rfl⟩ | ⟨-, -, rfl⟩ | ⟨-, -, rfl⟩ | ⟨-, -, -, rfl⟩⟩ | ⟨-, -, -, -, -, -, rfl⟩ := event <;> rfl
  refine ⟨fun empty => result ?_, fun r d there held => ⟨fun rejected channel => result ?_,
    fun placed first active unbound unprinting => ?_⟩⟩
  · rw [bayFailure_empty (p := { s.part with now := now, sent := [] }) empty, resetBay_busy busy]
    rfl
  · exact bayFailure_rejected there held busy now rejected channel common
  · intro w hand rejected failed
    have places : w.occupant = s.part.occupant := occupant_congr (leaveLabelUnit_changes .places (by decide))
    have bays : w.bays = s.part.bays := leaveLabelUnit_changes .bays (by decide)
    have splits : w.splitReqs = s.part.splitReqs := leaveLabelUnit_changes .splitReqs (by decide)
    have channels : w.channels = s.part.channels := leaveLabelUnit_changes .channels (by decide)
    have stands : bayFailure b why { s.part with now := now, sent := [] } = countFailure b (handFail d r (leaveStream b
        ((w.underReset b (x.resetting now) r now tower rejected).setContext b none))) := by
      rw [bayFailure_occupied (p := { s.part with now := now, sent := [] }) there held, resetBay_busy busy,
        rejectDisc_resetting held now placed first active unbound unprinting, Part.underReset, bays]
      rfl
    have is : ∀ e : Disc, failed e = w.failedAt b { (x.resetting now).failed with channel := none } d r now tower e := fun _ => rfl
    have streams : w.stream = s.part.stream := by
      funext c
      rw [Part.stream, Part.stream, Part.channel, Part.channel, channels]
    clear_value w failed
    refine ⟨fun channel => result ?_, fun c st channel stream => ?_⟩
    · have same : (x.resetting now).failed = { (x.resetting now).failed with channel := none } := by
        show _ = { (x.resetting now).failed with channel := none }
        rw [← channel]
        rfl
      rw [stands, leaveStream_none, is]
      · exact countFailure_streamless same
      · exact (congrArg Bay.channel (Part.setBay_self w b _)).trans channel
    · intro rest
      have leaves := underReset_leaves (w := w) (b := b) (r := r) (now := now) (t := tower) (e := rejected)
        (z := x.resetting now) ((congrFun places _).trans there) channel ((congrFun streams c).trans stream)
      have counted := countFailure_hand (w := w) (b := b) (d := d) (r := r) (now := now) (t := tower)
        (e := { rejected with channel := none }) (z := { x.resetting now with channel := none })
        (y := { (x.resetting now).failed with channel := none })
      obtain ⟨channels', splits'⟩ := failedAt_streams (w := w) (b := b) (d := d) (r := r) (now := now) (t := tower)
        (e := { rejected with channel := none }) (y := { (x.resetting now).failed with channel := none })
      refine ⟨fun some' => result ?_, fun none' => result ?_⟩
      · have some'' : ¬ (st.without b).members = [] := some'
        simp only [if_neg some''] at leaves
        rw [stands, leaves, counted _ _ rfl, is]
        rw [← channels', ← splits']
        rfl
      · have none'' : (st.without b).members = [] := none'
        simp only [if_pos none''] at leaves
        rw [stands, leaves, counted _ _ rfl, is, ← splits, ← channels']
        rfl

end Sys2Proof.Machine
end

