-- ==== Sys2Proof/Proofs/LoadedAndOpened.lean ====
section
/-! PROOF. LOADED and OPENED by the bay's occupant, and the tray rule (R69, R73 to R75, R79, R80, R82, R168). -/

namespace Sys2Proof.Machine

-- One proof after another: side by side, their threads' stacks pass the check's memory limit.
set_option Elab.async false

variable {p q : Part} {s : State} {b : Fin 12} {r : Fin 24} {d : Disc} {st : BayState}

/-! ## The bay's writes, one over another -/

/-- The part with the drive's operation ended (R66). -/
def Part.restedAt (p : Part) (b : Fin 12) : Part := p.setBay b (p.bay b).rested

theorem endDriveOp_eq : endDriveOp b p = p.restedAt b := rfl

theorem restedAt_setBay (y : Bay) : (p.restedAt b).setBay b y = p.setBay b y := setBay_setBay _ _

theorem restedAt_bay : (p.restedAt b).bay b = (p.bay b).rested := Part.setBay_self p b _

theorem restedAt_occupant : (p.restedAt b).occupant = p.occupant := rfl

theorem restedAt_disc : (p.restedAt b).disc = p.disc := rfl

theorem enterBay_restedAt : enterBay b st (p.restedAt b) = p.setBay b ((p.bay b).rested.enter st) := by
  rw [enterBay, Part.modBay, restedAt_setBay, restedAt_bay]

theorem ejectBay_restedAt : ejectBay b (p.restedAt b) =
    { p.setBay b ((p.bay b).ejecting p.now) with sent := p.sent ++ [.drive b .eject] } := by
  rw [ejectBay_eq, restedAt_setBay, restedAt_bay]
  rfl

theorem orderIfDue_held (held : p.disc r = some d) :
    (p.dueOut r = true → orderIfDue r p = p.setDisc r (some { d with eligible := some (p.order d) })) ∧
      (p.dueOut r = false → orderIfDue r p = p) := by
  unfold orderIfDue
  refine ⟨fun out => ?_, fun stays => ?_⟩
  · rw [if_pos out, giveOrder_held held]
  · rw [if_neg (by simp [stays])]

/-! ## LOADED -/

theorem takeLoaded_loading (there : p.occupant (.bay b) = some r) (held : p.disc r = some d) (loading : d.stage = .loading) :
    takeLoaded b p = { (p.setDisc r (some { d with stage := .identifying })).setBay b
        (((p.bay b).enter .querying).driven .identify (p.now + 30000)) with sent := p.sent ++ [.drive b .identify] } := by
  have there' : (p.restedAt b).occupant (.bay b) = some r := there
  have held' : (p.restedAt b).disc r = some d := held
  have stage : (p.restedAt b).stageOf r = some .loading := by rw [Part.stageOf, held', ← loading]; rfl
  have staged : setStage r .identifying (p.restedAt b) = (p.restedAt b).setDisc r (some { d with stage := .identifying }) := by
    rw [setStage_held held', atStage_active (by rw [loading]; rfl) (by rw [loading]; decide)]
  rw [takeLoaded, endDriveOp_eq, there']
  dsimp only
  rw [if_pos stage, staged]
  have commutes : (p.restedAt b).setDisc r (some { d with stage := .identifying }) =
      (p.setDisc r (some { d with stage := .identifying })).restedAt b := rfl
  have twice := setBay_setBay (p := { p.setDisc r (some { d with stage := .identifying }) with
    sent := p.sent ++ [.drive b .identify] }) (b := b) ((p.bay b).rested.enter .querying)
    (((p.bay b).enter .querying).driven .identify (p.now + 30000))
  have sends : sendDrive b .identify .identify identifyTimeout
      ((p.setDisc r (some { d with stage := .identifying })).setBay b ((p.bay b).rested.enter .querying)) =
      { ((p.setDisc r (some { d with stage := .identifying })).setBay b ((p.bay b).rested.enter .querying)).setBay b
          (((p.setDisc r (some { d with stage := .identifying })).setBay b ((p.bay b).rested.enter .querying)).bay b
            |>.driven .identify (p.now + 30000)) with
        sent := p.sent ++ [.drive b .identify] } := rfl
  rw [commutes, enterBay_restedAt, Part.setDisc_bay, sends, Part.setBay_self]
  exact twice

theorem takeLoaded_other (there : p.occupant (.bay b) = some r) (stage : p.stageOf r ≠ some .loading) :
    takeLoaded b p = p.setBay b ((p.bay b).rested.enter .holding) := by
  have there' : (p.restedAt b).occupant (.bay b) = some r := there
  have stage' : (p.restedAt b).stageOf r ≠ some .loading := stage
  rw [takeLoaded, endDriveOp_eq, there']
  dsimp only
  rw [if_neg stage', enterBay_restedAt]

theorem takeLoaded_empty (empty : p.occupant (.bay b) = none) :
    takeLoaded b p = if p.owesReset b then p.restedAt b
      else { p.setBay b ((p.bay b).ejecting p.now) with sent := p.sent ++ [.drive b .eject] } := by
  have empty' : (p.restedAt b).occupant (.bay b) = none := empty
  have owes : (p.restedAt b).owesReset b = p.owesReset b := rfl
  rw [takeLoaded, endDriveOp_eq, empty']
  dsimp only
  rw [owes, ejectBay_restedAt]

/-! ## OPENED -/

theorem takeOpened_empty (empty : p.occupant (.bay b) = none) : takeOpened b p =
    { p.setBay b (p.bay b).rested.emptied with
      attn := if (p.bay b).consecutiveFailures = 3 then p.attn.raise .bayFault p.now else p.attn } := by
  have empty' : (p.restedAt b).occupant (.bay b) = none := empty
  rw [takeOpened, endDriveOp_eq, empty']
  dsimp only
  rw [emptyBay_eq, restedAt_setBay, restedAt_bay]
  rfl

theorem takeOpened_occupied (there : p.occupant (.bay b) = some r) :
    takeOpened b p = orderIfDue r (p.setBay b ((p.bay b).rested.enter .presenting)) := by
  have there' : (p.restedAt b).occupant (.bay b) = some r := there
  have there'' : (p.setBay b ((p.bay b).rested.enter .presenting)).occupant (.bay b) = some r := there
  rw [takeOpened, endDriveOp_eq, there']
  dsimp only
  rw [presentBay, enterBay_restedAt, there'']

/-! ## The tray rule -/

theorem trayRule_empty (empty : p.occupant (.bay b) = none) : trayRule b p = p := by
  rw [trayRule, empty]

section Occupied
variable (there : p.occupant (.bay b) = some r)
include there

theorem trayRule_holding (holding : (p.bay b).state = .holding) :
    trayRule b p = if p.tower.state.working && p.dueOut r then ejectBay b p else p := by
  unfold trayRule
  rw [there, holding]

theorem trayRule_presenting (presenting : (p.bay b).state = .presenting) : trayRule b p = orderIfDue r p := by
  unfold trayRule
  rw [there, presenting]

theorem trayRule_other (notHolding : (p.bay b).state ≠ .holding) (notPresenting : (p.bay b).state ≠ .presenting) :
    trayRule b p = p := by
  unfold trayRule
  rw [there]
  dsimp only
  split
  case h_1 is => exact absurd is notHolding
  case h_2 is => exact absurd is notPresenting
  case h_3 => rfl

end Occupied

/-- Settles O46: LOADED, then OPENED, by the occupant; then the tray rule by the bay's state. -/
theorem loadedAndOpened : Obligations.LoadedAndOpened := by
  refine ⟨fun s b driving => ?_, fun s b driving => ?_, fun p => ⟨rfl, fun b => ⟨trayRule_empty, fun r d there held => ?_⟩⟩⟩
  · have result : ∀ {q}, takeLoaded b s.part.fresh = q → exec (.loaded b) s = .next (s.became (settle q)) := fun {q} is => by
      rw [exec_loaded, driveReport_taken driving, is]
    refine ⟨fun r d there held loading => ?_, fun r there stage => ?_, fun empty clear => ?_, fun w empty sweep owed => ?_⟩
    · exact result (takeLoaded_loading (p := s.part.fresh) there held loading)
    · exact result (takeLoaded_other (p := s.part.fresh) there stage)
    · refine result ((takeLoaded_empty (p := s.part.fresh) empty).trans (if_neg ?_))
      unfold Part.owesReset
      split
      case h_1 w sweep => simpa using clear w sweep
      case h_2 => simp
    · refine result ((takeLoaded_empty (p := s.part.fresh) empty).trans (if_pos ?_))
      have sweep' : s.part.fresh.tower.sweep = some w := sweep
      rw [Part.owesReset, sweep']
      exact owed
  · have result : ∀ {q}, takeOpened b s.part.fresh = q → exec (.opened b) s = .next (s.became (settle q)) := fun {q} is => by
      rw [exec_opened, driveReport_taken driving, is]
    refine ⟨fun empty => result (takeOpened_empty (p := s.part.fresh) empty), fun r d there held => ?_⟩
    have held' : (s.part.fresh.setBay b ((s.part.fresh.bay b).rested.enter .presenting)).disc r = some d := held
    have is := takeOpened_occupied (p := s.part.fresh) there
    have iff := dueOut_iff held'
    obtain ⟨out, stays⟩ := orderIfDue_held held'
    refine ⟨fun due => result (is.trans ((out (iff.mpr due)).trans rfl)), fun notOut notBound unqueued => ?_⟩
    refine result (is.trans ((stays (Bool.eq_false_iff.mpr (mt iff.mp ?_))).trans rfl))
    rintro (is | is | ⟨queued, head⟩)
    · exact notOut is
    · exact notBound is
    · exact unqueued.elim (fun other => other queued) fun other => other head
  · intro st working due
    have iff : p.dueOut r = true ↔ due := dueOut_iff held
    obtain ⟨out, stays⟩ := orderIfDue_held held
    refine ⟨fun holding works is => ?_, fun presenting is => ?_, fun rests => ?_⟩
    · rw [trayRule_holding there holding, working_iff.mpr works, iff.mpr is, ejectBay_eq]
      rfl
    · rw [trayRule_presenting there presenting, out (iff.mpr is)]
    · by_cases holding : st = .holding
      · rw [trayRule_holding there holding, if_neg]
        rw [Bool.and_eq_true, working_iff, iff]
        rintro ⟨works, is⟩
        obtain other | ⟨-, other⟩ | ⟨other, -⟩ := rests
        · exact other is
        · exact other works
        · exact other holding
      · by_cases presenting : st = .presenting
        · have undue : ¬ due := by
            obtain other | ⟨other, -⟩ | ⟨-, other⟩ := rests
            · exact other
            · exact absurd other holding
            · exact absurd presenting other
          rw [trayRule_presenting there presenting, stays (Bool.eq_false_iff.mpr (mt iff.mp undue))]
        · exact trayRule_other there holding presenting

end Sys2Proof.Machine
end

