-- ==== Sys2Proof/Proofs/IdentifiedReport.lean ====
section
/-! PROOF. IDENTIFIED: the media fields, the four checks in order, the speed (R69, R70, R89 to R91). -/

namespace Sys2Proof.Machine

-- One proof after another: side by side, their threads' stacks pass the check's memory limit.
set_option Elab.async false

variable {p q : Part} {s : State} {b : Fin 12} {r : Fin 24} {d e : Disc} {why : Reason} {m : DiscMedia} {j : Job}
  {x : Fin 16} {blank : Bool} {maker type : Word16} {cls : DiscClass} {capacity : Nat}

/-- A disc refused at identification: rejected, REJECT_BOUND, and its tray opens (R69, R90). -/
theorem refuseDisc_restedAt (held : p.disc r = some e) (first : e.verdict ≠ .reject) : refuseDisc b r why (p.restedAt b) =
    { (p.setDisc r (some ({ e with verdict := .reject, reason := some why }.atStage .rejectBound))).setBay b
        ((p.bay b).ejecting p.now) with
      sent := p.sent ++ [.drive b .eject], attn := p.attn.raise .discRejected p.now } := by
  have held' : (p.restedAt b).disc r = some e := held
  have commutes : (p.restedAt b).firstReject r why e = (p.firstReject r why e).restedAt b := rfl
  have written : ((p.firstReject r why e).restedAt b).disc r = some { e with verdict := .reject, reason := some why } :=
    firstReject_disc
  have staged : setStage r .rejectBound ((p.firstReject r why e).restedAt b) = Part.restedAt
      { p.setDisc r (some ({ e with verdict := .reject, reason := some why }.atStage .rejectBound)) with
        attn := p.attn.raise .discRejected p.now } b := by
    rw [setStage_held written]
    exact congrArg (fun v : Part => { v.restedAt b with attn := p.attn.raise .discRejected p.now }) (setDisc_setDisc _ _)
  rw [refuseDisc, writeReject_firstReject held' first, commutes, staged, ejectBay_restedAt]
  rfl

/-- The part with the media fields written and the drive's operation ended (R69, R89). -/
def Part.identified (p : Part) (b : Fin 12) (r : Fin 24) (d : Disc) (m : DiscMedia) : Part :=
  (p.setDisc r (some { d with media := some m })).restedAt b

theorem identified_disc : (p.identified b r d m).disc r = some { d with media := some m } := Part.setDisc_self p r _

theorem refuseDisc_identified (first : d.verdict ≠ .reject) : refuseDisc b r why (p.identified b r d m) =
    { (p.setDisc r (some ({ d with media := some m, verdict := .reject, reason := some why }.atStage .rejectBound))).setBay b
        ((p.bay b).ejecting p.now) with
      sent := p.sent ++ [.drive b .eject], attn := p.attn.raise .discRejected p.now } := by
  have held : (p.setDisc r (some { d with media := some m })).disc r = some { d with media := some m } :=
    Part.setDisc_self p r _
  rw [Part.identified, refuseDisc_restedAt held first, setDisc_setDisc]
  rfl

section Identified
variable (there : p.occupant (.bay b) = some r) (held : p.disc r = some d)
  (media : m = { maker := maker, type := type, cls := cls, capacity := capacity, entry := p.decidingEntry maker type })
include there held media

theorem takeIdentified_eq : takeIdentified b blank maker type cls capacity p =
    if d.verdict = .reject then ejectBay b (p.identified b r d m)
    else if !blank then refuseDisc b r .notBlank (p.identified b r d m)
    else
      match d.job.bind p.job with
      | none => ejectBay b (p.identified b r d m)
      | some j =>
        match p.mediaCheck j m with
        | some why => refuseDisc b r why (p.identified b r d m)
        | none => acceptDisc b r j m (p.identified b r d m) := by
  have there' : (p.restedAt b).occupant (.bay b) = some r := there
  have held' : (p.restedAt b).disc r = some d := held
  have entry : (p.restedAt b).decidingEntry maker type = p.decidingEntry maker type := rfl
  have written : ((p.restedAt b).modDisc r fun d => { d with media := some m }) = p.identified b r d m :=
    modDisc_held held' _
  have rejected : (p.identified b r d m).isReject r = true ↔ d.verdict = .reject :=
    (isReject_iff identified_disc).trans Iff.rfl
  have job : (p.identified b r d m).jobOf r = d.job.bind p.job := by
    rw [Part.jobOf, identified_disc]
    rfl
  have check : ∀ j, (p.identified b r d m).mediaCheck j m = p.mediaCheck j m := fun _ => rfl
  rw [takeIdentified, endDriveOp_eq, there']
  dsimp only
  rw [entry, ← media, written]
  simp only [rejected, job, check] <;> rfl

theorem takeIdentified_rejected (rejected : d.verdict = .reject) : takeIdentified b blank maker type cls capacity p =
    { (p.setDisc r (some { d with media := some m })).setBay b ((p.bay b).ejecting p.now) with
      sent := p.sent ++ [.drive b .eject] } := by
  rw [takeIdentified_eq there held media, if_pos rejected]
  exact ejectBay_restedAt

theorem takeIdentified_written (first : d.verdict ≠ .reject) (written : blank = false) :
    takeIdentified b blank maker type cls capacity p = refuseDisc b r .notBlank (p.identified b r d m) := by
  rw [takeIdentified_eq there held media, if_neg first, if_pos (by simp [written])]

section Checked
variable (first : d.verdict ≠ .reject) (clean : blank = true) (named : d.job = some x) (job : p.job x = some j)
include first clean named job

theorem takeIdentified_refuses (check : p.mediaCheck j m = some why) :
    takeIdentified b blank maker type cls capacity p = refuseDisc b r why (p.identified b r d m) := by
  rw [takeIdentified_eq there held media, if_neg first, if_neg (by simp [clean])]
  simp only [named, Option.bind_some, job, check]

theorem takeIdentified_accepts (check : p.mediaCheck j m = none) :
    takeIdentified b blank maker type cls capacity p = acceptDisc b r j m (p.identified b r d m) := by
  rw [takeIdentified_eq there held media, if_neg first, if_neg (by simp [clean])]
  simp only [named, Option.bind_some, job, check]

end Checked

end Identified

/-- An accepted disc asks for a stream at the least of the three speeds (R70, R91). -/
theorem acceptDisc_identified {i : Fin 32} (image : j.image = some i) : acceptDisc b r j m (p.identified b r d m) =
    attach b i ((p.setDisc r (some ({ d with
        media := some m, speed := some (p.writeSpeed j b m) }.atStage .waitingStream))).setBay b
      ((p.bay b).rested.enter .attaching)) := by
  have speed : (p.identified b r d m).writeSpeed j b m = p.writeSpeed j b m := by
    have bay : (p.identified b r d m).bay b = (p.bay b).rested := Part.setBay_self _ b _
    rw [Part.writeSpeed, bay]
    rfl
  have staged : ((p.identified b r d m).modDisc r fun d => { d with speed := some (p.writeSpeed j b m) }.atStage .waitingStream) =
      Part.restedAt (p.setDisc r (some ({ d with
        media := some m, speed := some (p.writeSpeed j b m) }.atStage .waitingStream))) b := by
    rw [modDisc_held identified_disc]
    exact congrArg (Part.restedAt · b) (setDisc_setDisc _ _)
  unfold acceptDisc
  dsimp only
  rw [speed, staged, enterBay_restedAt, image]
  rfl

/-- The checks 2 to 4, in their order (R90). -/
theorem mediaCheck_of {i : Fin 32} {y : Image} (image : j.image = some i) (held : p.image i = some y) : p.mediaCheck j m =
    if m.cls ≠ j.cls then some .classMismatch
    else if m.capacity < y.blocks then some .capacityShort
    else if p.mediaVerdict m.entry = .refuse then some .mediaRefused
    else none := by
  rw [Part.mediaCheck, image, Option.bind_some, held]

/-- Settles O47: a rejected disc, a disc not blank, then the media checks and the acceptance. -/
theorem identifiedReport : Obligations.IdentifiedReport := by
  intro s b blank maker type cls capacity r d driving there held e m reported ejected refused
  have result : ∀ {q}, takeIdentified b blank maker type cls capacity s.part.fresh = q →
      reported = .next (s.became (settle q)) := fun {q} is => by
    show exec (.identified b blank maker type cls capacity) s = _
    rw [exec_identified, driveReport_taken driving, is]
  have written : ∀ {why}, d.verdict ≠ .reject → takeIdentified b blank maker type cls capacity s.part.fresh =
      refuseDisc b r why (s.part.fresh.identified b r d m) → reported = refused why := fun {why} first is => by
    rw [result (is.trans (refuseDisc_identified first))]
    rfl
  refine ⟨fun rejected => result ?_, fun first unblank => written first ?_, fun x j i y first clean named job image pages => ?_⟩
  · exact takeIdentified_rejected (p := s.part.fresh) (m := m) there held rfl rejected
  · exact takeIdentified_written (p := s.part.fresh) (m := m) there held rfl first unblank
  · have check := mediaCheck_of (p := s.part.fresh) (m := m) image pages
    have refuses : ∀ {why}, s.part.fresh.mediaCheck j m = some why → reported = refused why := fun {why} is =>
      written first (takeIdentified_refuses (p := s.part.fresh) (m := m) there held rfl first clean named job is)
    refine ⟨fun other => refuses ?_, fun same short => refuses ?_, fun same fits refuse => refuses ?_,
      fun same fits accept => result ?_⟩
    · rw [check, if_pos other]
    · rw [check, if_neg (not_not.mpr same), if_pos short]
    · rw [check, if_neg (not_not.mpr same), if_neg (Nat.not_lt.mpr fits), if_pos (by exact refuse)]
    · have passes : s.part.fresh.mediaCheck j m = none := by
        have accept' : s.part.fresh.mediaVerdict m.entry ≠ .refuse := fun refuse => by
          rw [show s.part.fresh.mediaVerdict m.entry = .accept from accept] at refuse
          cases refuse
        rw [check, if_neg (not_not.mpr same), if_neg (Nat.not_lt.mpr fits), if_neg accept']
      exact (takeIdentified_accepts (p := s.part.fresh) (m := m) there held rfl first clean named job passes).trans
        (acceptDisc_identified image)

end Sys2Proof.Machine
end

