-- ==== Sys2Proof/Proofs/ReadBacks.lean ====
section
/-! PROOF. CLOSED, and the reports of a read-back: the verdict, the segments, the plan (R71, R72, R92, R132 to R141). -/

namespace Sys2Proof.Machine

-- One proof after another: side by side, their threads' stacks pass the check's memory limit.
set_option Elab.async false

variable {p q : Part} {s : State} {b : Fin 12} {r : Fin 24} {d e : Disc} {j : Job} {x : Fin 16} {i : Fin 32} {c : Context}
  {h : InHand} {o : RecOutcome} {plan : Plan}

/-! ## The verdict -/

theorem handOutcome_restedAt : handOutcome r o (p.restedAt b) = (handOutcome r o p).restedAt b := by
  rw [handOutcome_over (p := p) (q := p.restedAt b) rfl rfl, handOutcome_media (p := p)]
  rfl

theorem handOutcome_disc : (handOutcome r o p).disc = p.disc := disc_congr (handOutcome_changes .discs (by decide))

theorem handOutcome_bay : (handOutcome r o p).bay = p.bay := bay_congr (handOutcome_changes .bays (by decide))

/-- The record's stage written before its outcome is handed or after it (R92). -/
theorem setDisc_handOutcome {o' : Option Disc} (media : o'.bind (·.media) = (p.disc r).bind (·.media)) :
    (handOutcome r o p).setDisc r o' = handOutcome r o (p.setDisc r o') := by
  have handed := handOutcome_over (o := o) (r := r) (p := p) (q := p.setDisc r o') rfl (by rw [Part.setDisc_self, media])
  rw [handed]
  exact congrArg (Part.setDisc · r o') (handOutcome_media (p := p))

/-- A GOOD disc's bay: the verdict counted, HOLDING (R79, R139). -/
theorem holds_good : enterBay b .holding (countGood b (handOutcome r o (p.restedAt b))) =
    (handOutcome r o p).setBay b ((p.bay b).rested.goodCounted.enter .holding) := by
  have bay : ((handOutcome r o p).restedAt b).bay b = (p.bay b).rested := by rw [restedAt_bay, handOutcome_bay]
  rw [handOutcome_restedAt]
  show Part.setBay (Part.setBay _ b (Part.bay _ b).goodCounted) b ((Part.bay (Part.setBay _ b _) b).enter .holding) = _
  rw [Part.setBay_self, setBay_setBay, bay, restedAt_setBay]
  rfl

theorem ejects_failed : ejectBay b (countFailure b (p.restedAt b)) =
    { p.setBay b ((p.bay b).failed.ejecting p.now) with sent := p.sent ++ [.drive b .eject] } := by
  rw [countFailure_eq, restedAt_setBay, restedAt_bay, ejectBay_eq, Part.setBay_self, setBay_setBay]
  rfl

section Good
variable (held : p.disc r = some d) (first : d.verdict ≠ .reject)
include held first

theorem verdictGood_labelled : verdictGood b r .burnPrint (p.restedAt b) = enterLabelUnit r
    ((handOutcome r .good (p.setDisc r (some { d with verdict := .good }))).setBay b
      ((p.bay b).rested.goodCounted.enter .holding)) := by
  have held' : (p.restedAt b).disc r = some d := held
  have commutes : (p.restedAt b).setDisc r (some { d with verdict := .good }) =
      (p.setDisc r (some { d with verdict := .good })).restedAt b := rfl
  rw [verdictGood, writeGood_pending held' first, commutes]
  exact congrArg (enterLabelUnit r) holds_good

theorem verdictGood_outbound : verdictGood b r .burn (p.restedAt b) =
    (handOutcome r .good (p.setDisc r (some ({ d with verdict := .good }.atStage .outbound)))).setBay b
      ((p.bay b).rested.goodCounted.enter .holding) := by
  have held' : (p.restedAt b).disc r = some d := held
  have commutes : (p.restedAt b).setDisc r (some { d with verdict := .good }) =
      (p.setDisc r (some { d with verdict := .good })).restedAt b := rfl
  have good : (handOutcome r .good (p.setDisc r (some { d with verdict := .good }))).disc r =
      some { d with verdict := .good } := by rw [handOutcome_disc, Part.setDisc_self]
  have media : ((some ({ d with verdict := .good }.atStage .outbound) : Option Disc)).bind (·.media) =
      ((p.setDisc r (some { d with verdict := .good })).disc r).bind (·.media) := by
    rw [Part.setDisc_self, Disc.atStage_eq]
    rfl
  have staged : setStage r .outbound ((handOutcome r .good (p.setDisc r (some { d with verdict := .good }))).setBay b
      ((p.bay b).rested.goodCounted.enter .holding)) =
      ((handOutcome r .good (p.setDisc r (some { d with verdict := .good }))).setDisc r
        (some ({ d with verdict := .good }.atStage .outbound))).setBay b ((p.bay b).rested.goodCounted.enter .holding) := by
    rw [setStage_held (by exact good)]
    rfl
  rw [verdictGood, writeGood_pending held' first, commutes]
  refine (congrArg (setStage r .outbound) holds_good).trans (staged.trans ?_)
  rw [setDisc_handOutcome media, setDisc_setDisc]

/-- A disc that fails its read-back: rejected, its outcome handed, its tray opened (R92, R140). -/
theorem verdictFail_restedAt : verdictFail b r (p.restedAt b) =
    { (handOutcome r .fail (p.setDisc r (some ({ d with
          verdict := .reject, reason := some .verifyFailed }.atStage .rejectBound)))).setBay b
        ((p.bay b).failed.ejecting p.now) with
      attn := p.attn.raise .discRejected p.now, sent := p.sent ++ [.drive b .eject] } := by
  have held' : (p.restedAt b).disc r = some d := held
  have commutes : (p.restedAt b).firstReject r .verifyFailed d = (p.firstReject r .verifyFailed d).restedAt b := rfl
  have written : ((p.firstReject r .verifyFailed d).restedAt b).disc r =
      some { d with verdict := .reject, reason := some .verifyFailed } := firstReject_disc
  generalize bound : ({ d with verdict := .reject, reason := some .verifyFailed }.atStage .rejectBound : Disc) = e
  have staged : setStage r .rejectBound ((p.firstReject r .verifyFailed d).restedAt b) = Part.restedAt
      { p.setDisc r (some e) with attn := p.attn.raise .discRejected p.now } b := by
    rw [setStage_held written, bound]
    exact congrArg (fun v : Part => { v.restedAt b with attn := p.attn.raise .discRejected p.now }) (setDisc_setDisc _ _)
  have handed := handOutcome_over (r := r) (o := .fail) (p := p.setDisc r (some e))
    (q := { p.setDisc r (some e) with attn := p.attn.raise .discRejected p.now }) rfl rfl
  rw [verdictFail, writeReject_firstReject held' first, commutes, staged]
  show ejectBay b (countFailure b (handOutcome r .fail _)) = _
  rw [handOutcome_restedAt, handed, ejects_failed, handOutcome_media (p := p.setDisc r (some e))]
  rfl

end Good

/-! ## Asking for a segment -/

theorem setContext_setContext (x y : Option Context) : (p.setContext b x).setContext b y = p.setContext b y := by
  simp [Part.setContext]

section Asks
variable {n : Nat} (held : p.context b = some c) (next : c.nextSelected = some n)
include held next

theorem askNext_reads (valid : p.referenceValid c.image = true) : askNext b p = sendRead b c n 1 p := by
  unfold askNext
  simp only [held, next, valid, if_true]

theorem askNext_waits (invalid : p.referenceValid c.image = false) :
    askNext b p = p.setContext b (some { c with awaitingReference := true }) := by
  unfold askNext
  simp only [held, next, invalid, Bool.false_eq_true, if_false]

end Asks

/-- READ sent over a context and a bay just written (R135). -/
theorem sendRead_written (x : Option Context) (y : Bay) (n attempt : Nat) :
    sendRead b c n attempt ((p.setContext b x).setBay b y) =
      { (p.setContext b (some (c.reading n attempt))).setBay b (y.driven .read (p.now + p.tower.progressTimeout)) with
        sent := p.sent ++ [.drive b (.read n)] } := by
  have bays := setBay_setBay (p := (p.setContext b x).setContext b (some (c.reading n attempt))) (b := b) y
    (y.driven .read (p.now + p.tower.progressTimeout))
  rw [sendRead_eq, Part.setBay_self]
  rw [setContext_setContext] at bays
  have commutes : ((p.setContext b x).setBay b y).setContext b (some (c.reading n attempt)) =
      ((p.setContext b x).setContext b (some (c.reading n attempt))).setBay b y := rfl
  rw [commutes, setContext_setContext]
  exact congrArg (fun v : Part => { v with sent := p.sent ++ [Sent.drive b (.read n)] }) bays

/-! ## CLOSED -/

theorem jobOf_held (held : p.disc r = some d) (named : d.job = some x) (job : p.job x = some j) : p.jobOf r = some j := by
  rw [Part.jobOf, held]
  simp only [named, Option.bind_some, job]

section Closed
variable (there : p.occupant (.bay b) = some r) (held : p.disc r = some d) (named : d.job = some x) (job : p.job x = some j)
include there held named job

theorem takeClosed_unverified (mode : j.verifyMode = some .none) :
    takeClosed b p = verdictGood b r j.kind (p.restedAt b) := by
  have there' : (p.restedAt b).occupant (.bay b) = some r := there
  have of : (p.restedAt b).jobOf r = some j := jobOf_held held named job
  rw [takeClosed, endDriveOp_eq, there']
  simp only [of, mode]

theorem takeClosed_verifies (image : j.image = some i)
    (mode : j.verifyMode = some .quick ∧ plan = .quick ∨ j.verifyMode = some .full ∧ plan = .full) :
    takeClosed b p = startReadBack b r i plan (p.restedAt b) := by
  have there' : (p.restedAt b).occupant (.bay b) = some r := there
  have of : (p.restedAt b).jobOf r = some j := jobOf_held held named job
  rw [takeClosed, endDriveOp_eq, there']
  obtain ⟨mode, rfl⟩ | ⟨mode, rfl⟩ := mode <;> simp only [of, mode, image]

end Closed

/-- The context of a read-back just begun (R133). -/
def Context.begun (r : Fin 24) (i : Fin 32) (plan : Plan) : Context :=
  { record := r, image := i, plan := plan, nextSelected := some 0, inHand := none, readOutstanding := false
    awaitingReference := false }

/-- A record whose read-back begins (R133). -/
def Disc.verifying (d : Disc) : Disc :=
  { d with verify := some { checked := 0, recovered := 0, mismatched := 0, firstMismatch := none } }.atStage .verifying

theorem startReadBack_eq (held : p.disc r = some d) : startReadBack b r i plan (p.restedAt b) = askNext b
    (((p.setDisc r (some d.verifying)).setContext b (some (.begun r i plan))).setBay b
      ((p.bay b).rested.enter .readingBack)) := by
  have held' : ((p.setBay b ((p.bay b).rested.enter .readingBack)).setContext b (some (.begun r i plan))).disc r = some d :=
    held
  unfold startReadBack
  dsimp only
  rw [enterBay_restedAt]
  exact congrArg (askNext b) (modDisc_held held' Disc.verifying)

/-- Settles O49: CLOSED without verification by the job's kind, and with it by the reference. -/
theorem closedReport : Obligations.ClosedReport := by
  intro s b r d x j driving there held named job y
  have result : ∀ {q}, takeClosed b s.part.fresh = q → exec (.closed b) s = .next (s.became (settle q)) := fun {q} is => by
    rw [exec_closed, driveReport_taken driving, is]
  refine ⟨fun mode kind first => result ?_, fun mode kind first => result ?_, fun i plan image mode => ?_⟩
  · rw [takeClosed_unverified (p := s.part.fresh) there held named job mode, kind]
    exact verdictGood_outbound (p := s.part.fresh) held first
  · rw [takeClosed_unverified (p := s.part.fresh) there held named job mode, kind]
    exact verdictGood_labelled (p := s.part.fresh) held first
  · intro begun
    have starts := (takeClosed_verifies (p := s.part.fresh) there held named job image mode).trans
      (startReadBack_eq (p := s.part.fresh) (i := i) (plan := plan) held)
    have stands : Part.context ((begun.setContext b (some (.begun r i plan))).setBay b (y.rested.enter .readingBack)) b =
        some (.begun r i plan) := Part.setContext_self _ _ _
    refine ⟨fun valid => result (starts.trans ?_), fun invalid => result (starts.trans ?_)⟩
    · exact (askNext_reads stands rfl valid).trans (sendRead_written _ _ _ _)
    · refine (askNext_waits stands rfl invalid).trans ?_
      exact congrArg (Part.setBay · b (y.rested.enter .readingBack)) (setContext_setContext (p := begun) _ _)

end Sys2Proof.Machine
end

