-- ==== Sys2Proof/Proofs/ReadBackReports.lean ====
section
/-! PROOF. SEGMENT and READ_ERROR: a segment settled, the next one read, or the verdict (R72, R134 to R141). -/

namespace Sys2Proof.Machine

-- One proof after another: side by side, their threads' stacks pass the check's memory limit.
set_option Elab.async false

variable {p q : Part} {s : State} {b : Fin 12} {r : Fin 24} {d e : Disc} {j : Job} {x : Fin 16} {i : Fin 32} {c : Context}
  {h : InHand} {plan : Plan} {y : Image} {v : VerifyCounts} {hit : Bool}

/-! ## The plan -/

/-- The segments a plan reads of `segments` (R134). -/
def Plan.selects (plan : Plan) (segments k : Nat) : Prop :=
  k < segments ∧ (plan = .quick → k % 16 = 0 ∨ k + 1 = segments)

/-- `k` is the plan's first segment after `n` (R134). -/
def Plan.follows (plan : Plan) (segments n k : Nat) : Prop :=
  n < k ∧ plan.selects segments k ∧ ∀ j, n < j → j < k → ¬ plan.selects segments j

theorem Plan.selects_full {segments k : Nat} : Plan.full.selects segments k ↔ k < segments := by simp [Plan.selects]

theorem Plan.selects_quick {segments k : Nat} :
    Plan.quick.selects segments k ↔ k < segments ∧ (k % 16 = 0 ∨ k + 1 = segments) := by simp [Plan.selects]

theorem Plan.next_follows {segments n k : Nat} (next : plan.next segments n = some k) : plan.follows segments n k := by
  cases plan with
  | full =>
    simp only [Plan.next, Option.ite_none_right_eq_some, Option.some.injEq] at next
    obtain ⟨more, rfl⟩ := next
    exact ⟨Nat.lt_succ_self n, Plan.selects_full.mpr more, fun j after before => by omega⟩
  | quick =>
    simp only [Plan.next] at next
    split at next
    case isTrue more =>
      obtain rfl := Option.some.inj next
      refine ⟨by omega, Plan.selects_quick.mpr ⟨more, by omega⟩, fun j after before selected => ?_⟩
      obtain ⟨-, tenth | last⟩ := Plan.selects_quick.mp selected <;> omega
    case isFalse fewer =>
      simp only [Option.ite_none_right_eq_some, Option.some.injEq] at next
      obtain ⟨more, rfl⟩ := next
      refine ⟨by omega, Plan.selects_quick.mpr ⟨by omega, by omega⟩, fun j after before selected => ?_⟩
      obtain ⟨-, tenth | last⟩ := Plan.selects_quick.mp selected <;> omega

theorem Plan.next_ends {segments n : Nat} (next : plan.next segments n = none) (k : Nat) (after : n < k) :
    ¬ plan.selects segments k := fun selected => by
  have lt : k < segments := selected.1
  cases plan with
  | full =>
    simp only [Plan.next, ite_eq_right_iff, reduceCtorEq, imp_false] at next
    omega
  | quick =>
    simp only [Plan.next] at next
    split at next
    case isTrue => cases next
    case isFalse =>
      simp only [ite_eq_right_iff, reduceCtorEq, imp_false] at next
      omega

theorem Plan.follows_unique {segments n k l : Nat} (first : plan.follows segments n k) (second : plan.follows segments n l) :
    k = l := by
  obtain ⟨afterK, selectedK, leastK⟩ := first
  obtain ⟨afterL, selectedL, leastL⟩ := second
  obtain lt | is | lt := Nat.lt_trichotomy k l
  · exact absurd selectedK (leastL k afterK lt)
  · exact is
  · exact absurd selectedL (leastK l afterL lt)

theorem Plan.next_some {segments n k : Nat} : plan.next segments n = some k ↔ plan.follows segments n k := by
  refine ⟨Plan.next_follows, fun first => ?_⟩
  have ⟨after, selected, _⟩ := first
  cases next : plan.next segments n with
  | none => exact absurd selected (Plan.next_ends next k after)
  | some l => rw [Plan.follows_unique (Plan.next_follows next) first]

theorem Plan.next_none {segments n : Nat} :
    plan.next segments n = none ↔ ∀ k, n < k → ¬ plan.selects segments k := by
  refine ⟨Plan.next_ends, fun ends => ?_⟩
  cases next : plan.next segments n with
  | none => rfl
  | some k =>
    obtain ⟨after, selected, -⟩ := Plan.next_follows next
    exact absurd selected (ends k after)

/-! ## A segment settled -/

/-- The part with a segment settled in its disc's counts, and the drive's operation ended (R137). -/
def Part.settledAt (p : Part) (b : Fin 12) (c : Context) (e : Disc) (next : Option Nat) : Part :=
  ((p.setDisc c.record (some e)).setContext b (some { c with
    nextSelected := next, inHand := none, readOutstanding := false })).restedAt b

section Held
variable (context : p.context b = some c) (inHand : c.inHand = some h)
include context inHand

theorem takeRead_again (miss : hit = false) (first : h.attempt = 1) : takeRead b hit p =
    { (p.setContext b (some (c.reading h.segment 2))).setBay b
        ((p.bay b).driven .read (p.now + p.tower.progressTimeout)) with
      sent := p.sent ++ [.drive b (.read h.segment)] } := by
  have collapsed := sendRead_written (p := p) (b := b) (c := c) (p.context b) (p.bay b).rested h.segment 2
  have same : (p.setContext b (p.context b)).setBay b (p.bay b).rested = p.restedAt b := by
    rw [Part.restedAt]
    congr 1
    simp [Part.setContext, Part.context]
  rw [same] at collapsed
  unfold takeRead
  simp only [context, inHand, miss, first, Bool.not_false, beq_self_eq_true, Bool.and_self, if_true]
  exact collapsed

theorem takeRead_settles (image : p.image c.image = some y) (held : p.disc c.record = some d) (counts : d.verify = some v)
    (done : hit = true ∨ h.attempt ≠ 1) : takeRead b hit p =
      if (c.plan.next y.segments h.segment).isSome then
        askNext b (p.settledAt b c { d with verify := some (v.settle h.segment h.attempt hit) }
          (c.plan.next y.segments h.segment))
      else takeVerdict b c.record (p.settledAt b c { d with verify := some (v.settle h.segment h.attempt hit) }
          (c.plan.next y.segments h.segment)) := by
  have last : ¬ (!hit && h.attempt == 1) = true := by
    obtain rfl | other := done <;> simp_all
  have held' : (p.restedAt b).disc c.record = some d := held
  have written : ((p.restedAt b).modDisc c.record fun d => { d with
      verify := d.verify.map (·.settle h.segment h.attempt hit) }) =
      (p.restedAt b).setDisc c.record (some { d with verify := some (v.settle h.segment h.attempt hit) }) := by
    rw [modDisc_held held', counts]
    rfl
  have image' : ((p.restedAt b).setDisc c.record (some { d with
      verify := some (v.settle h.segment h.attempt hit) })).image c.image = some y := image
  unfold takeRead
  rw [context]
  dsimp only
  rw [inHand]
  dsimp only
  rw [if_neg last, endDriveOp_eq, written, image']
  rfl

end Held

theorem settledAt_context {next : Option Nat} : (p.settledAt b c e next).context b = some { c with
    nextSelected := next, inHand := none, readOutstanding := false } := Part.setContext_self (p.setDisc c.record (some e)) b _

/-- The next segment of the plan is read (R135). -/
theorem settledAt_reads {n : Nat} (valid : p.referenceValid c.image = true) : askNext b (p.settledAt b c e (some n)) =
    { ((p.setDisc c.record (some e)).setContext b (some { c with
          nextSelected := some n, inHand := some { segment := n, attempt := 1 }, readOutstanding := true
          awaitingReference := false })).setBay b ((p.bay b).driven .read (p.now + p.tower.progressTimeout)) with
      sent := p.sent ++ [.drive b (.read n)] } :=
  (askNext_reads settledAt_context rfl valid).trans (sendRead_written (p := p.setDisc c.record (some e)) _ _ _ _)

/-- The read-back waits for a reference no longer valid (R135). -/
theorem settledAt_waits {n : Nat} (invalid : p.referenceValid c.image = false) : askNext b (p.settledAt b c e (some n)) =
    ((p.setDisc c.record (some e)).setContext b (some { c with
      nextSelected := some n, inHand := none, readOutstanding := false, awaitingReference := true })).setBay b
        (p.bay b).rested :=
  (askNext_waits settledAt_context rfl invalid).trans
    (congrArg (Part.setBay · b (p.bay b).rested) (setContext_setContext (p := p.setDisc c.record (some e)) _ _))

/-- The verdict is taken on the disc's counts (R138). -/
theorem takeVerdict_settledAt {next : Option Nat} (named : e.job = some x) (job : p.job x = some j) (counts : e.verify = some v) :
    takeVerdict b c.record (p.settledAt b c e next) =
      if v.good (j.recoveredLimit.getD 0) then
        verdictGood b c.record j.kind (((p.setContext b none).setDisc c.record (some e)).restedAt b)
      else verdictFail b c.record (((p.setContext b none).setDisc c.record (some e)).restedAt b) := by
  have cleared : (p.settledAt b c e next).setContext b none =
      ((p.setContext b none).setDisc c.record (some e)).restedAt b :=
    congrArg (Part.restedAt · b) (setContext_setContext (p := p.setDisc c.record (some e)) _ _)
  have held : (((p.setContext b none).setDisc c.record (some e)).restedAt b).disc c.record = some e :=
    Part.setDisc_self (p.setContext b none) _ _
  have of := jobOf_held held named (by exact job)
  unfold takeVerdict
  rw [cleared]
  dsimp only
  rw [of, held]
  simp only [Option.bind_some, counts]

theorem good_iff (n : Nat) : v.good n = true ↔ v.mismatched = 0 ∧ v.recovered ≤ n := by
  simp [VerifyCounts.good]

/-- The events that are a read of the segment in hand, matching or not (R136). -/
theorem takeRead_taken {i : Instr} (driving : s.driving b .read) (context : s.part.context b = some c)
    (inHand : c.inHand = some h) (image : s.part.image c.image = some y)
    (report : i = .readError b ∧ hit = false ∨ ∃ bytes, i = .segment b bytes ∧ (hit = true ↔
      bytes.length = 2048 * min 256 (y.blocks - 256 * h.segment) ∧
        digest bytes = peek s.memory.digests (y.pages.getD (h.segment / 64) 0 * 64 + h.segment % 64))) :
    exec i s = .next (s.became (settle (takeRead b hit s.part.fresh))) := by
  obtain ⟨rfl, rfl⟩ | ⟨bytes, rfl, hits⟩ := report
  · rw [exec_readError, driveReport_taken driving]
  · have context' : s.part.fresh.context b = some c := context
    have image' : s.part.fresh.image c.image = some y := image
    have matched : s.part.fresh.readMatches s.memory b bytes = hit := by
      rw [Bool.eq_iff_iff, hits]
      simp [Part.readMatches, context', inHand, image', segmentBlocks, digestSlot]
    rw [exec_segment, driveReport_taken driving, matched]

/-- Settles O50: a segment read again, or settled and the next one read or awaited, or the verdict; and the plan. -/
theorem readBackReports : Obligations.ReadBackReports := by
  refine ⟨?_, fun plan segments n lt => ⟨fun k => Plan.next_some, Plan.next_none⟩⟩
  intro s b c h y d v i hit driving context inHand image held counted report x counts settledDisc reads judged
  have result : ∀ {q}, takeRead b hit s.part.fresh = q → exec i s = .next (s.became (settle q)) := fun {q} is => by
    rw [takeRead_taken driving context inHand image report, is]
  refine ⟨fun miss first => ?_, fun done => ?_⟩
  · exact result (takeRead_again (p := s.part.fresh) context inHand miss first)
  · have counts_is : v.settle h.segment h.attempt hit = counts := by
      simp only [VerifyCounts.settle, counts, Bool.and_eq_true, beq_iff_eq]
    have settles := takeRead_settles (p := s.part.fresh) context inHand image held counted done
    rw [counts_is] at settles
    refine ⟨fun n next valid => ?_, fun n next invalid => ?_, fun k j next named job first => ?_⟩
    · rw [next] at settles
      exact result (settles.trans (settledAt_reads (p := s.part.fresh) valid))
    · rw [next] at settles
      exact result (settles.trans (settledAt_waits (p := s.part.fresh) invalid))
    · have verdict := takeVerdict_settledAt (p := s.part.fresh) (b := b) (c := c) (next := none) (e := settledDisc)
        (v := counts) named job rfl
      rw [next] at settles
      have judges := settles.trans verdict
      have held' : (judged.setDisc c.record (some settledDisc)).disc c.record = some settledDisc := Part.setDisc_self _ _ _
      refine ⟨fun matched within => ?_, fun bad => ?_⟩
      · intro good
        rw [if_pos ((good_iff _).mpr ⟨matched, within⟩)] at judges
        refine ⟨fun kind => result (judges.trans ?_), fun kind => result (judges.trans ?_)⟩
        · rw [kind]
          exact (verdictGood_outbound (b := b) held' first).trans (by rw [setDisc_setDisc]; rfl)
        · rw [kind]
          exact (verdictGood_labelled (b := b) held' first).trans (by rw [setDisc_setDisc]; rfl)
      · rw [if_neg] at judges
        · exact result (judges.trans ((verdictFail_restedAt (b := b) held' first).trans (by rw [setDisc_setDisc]; rfl)))
        · rw [good_iff]
          omega

end Sys2Proof.Machine
end

