-- ==== Sys2Proof/Proofs/RecordingReports.lean ====
section
/-! PROOF. A disc joins a stream; READY and CHUNK_ACK move it through the chunks to CLOSE (R70, R118, R119, R122, R124). -/

namespace Sys2Proof.Machine

-- One proof after another: side by side, their threads' stacks pass the check's memory limit.
set_option Elab.async false

variable {p q : Part} {s : State} {b : Fin 12} {r : Fin 24} {d e : Disc} {i : Fin 32} {c : Fin 4} {st : Stream} {m : Member}
  {y : Image} {n blocks : Nat}

/-! ## Joining -/

theorem sendDrive_eq (op : DriveOp) (o : DriveOrder) (timeout : Nat) : sendDrive b op o timeout p =
    { p.setBay b ((p.bay b).driven op (p.now + timeout)) with sent := p.sent ++ [.drive b o] } := rfl

theorem bayJoined_eq (there : p.occupant (.bay b) = some r) (held : p.disc r = some d) (speed : d.speed = some n) :
    bayJoined b c blocks p = { (p.setDisc r (some ({ d with channel := some c }.atStage .recording))).setBay b
        { ((p.bay b).enter .writing).driven .write (p.now + p.tower.progressTimeout) with channel := some c } with
      sent := p.sent ++ [.drive b (.write n blocks)] } := by
  unfold bayJoined
  rw [there]
  dsimp only
  rw [modDisc_held held, held]
  generalize ({ d with channel := some c }.atStage .recording : Disc) = e
  simp only [Option.bind_some, speed]
  have joined : ((enterBay b .writing (sendDrive b .write (.write n blocks) (p.setDisc r (some e)).tower.progressTimeout
      (p.setDisc r (some e)))).modBay b fun x => { x with channel := some c }) =
      { (((p.setDisc r (some e)).setBay b ((p.bay b).driven .write (p.now + p.tower.progressTimeout))).setBay b
          (((p.bay b).driven .write (p.now + p.tower.progressTimeout)).enter .writing)).setBay b
          { ((p.bay b).driven .write (p.now + p.tower.progressTimeout)).enter .writing with channel := some c } with
        sent := p.sent ++ [.drive b (.write n blocks)] } := by
    simp only [sendDrive_eq, enterBay, Part.modBay]
    simp [Part.setBay, Part.bay, Part.setDisc]
  rw [joined, setBay_setBay, setBay_setBay]
  rfl

/-- A bay can join the stream of channel `c` for the image `i` (R122). -/
def Part.joins (p : Part) (i : Fin 32) (c : Fin 4) : Prop :=
  ∃ st, p.stream c = some st ∧ st.image = i ∧ (st.resident = true ∨ st.catchUp = false ∧ st.joinOver = false)

/-- The test the model makes of a channel (R122). -/
def Part.fits (p : Part) (i : Fin 32) (c : Fin 4) : Bool :=
  match p.stream c with
  | some st => st.image == i && st.joinable
  | none => false

theorem fits_iff : p.fits i c = true ↔ p.joins i c := by
  unfold Part.fits Part.joins
  cases p.stream c <;> simp [Stream.joinable]

theorem allChannels_ordered : allChannels.Pairwise (· < ·) := by decide

/-- The channel a bay joins for an image, or none (R122). -/
def Part.joinChannel (p : Part) (i : Fin 32) : Option (Fin 4) :=
  if p.imageReady i then allChannels.find? (p.fits i) else none

theorem attach_joins (channel : p.joinChannel i = some c) (image : p.image i = some y) (stream : p.stream c = some st) :
    attach b i p = bayJoined b c y.blocks
      (p.setChannel c (.recording { st with members := st.members ++ [Member.new b] })) := by
  have channel' : (if p.imageReady i then allChannels.find? (p.fits i) else none) = some c := channel
  unfold attach
  dsimp only
  rw [image]
  erw [channel']
  simp only [stream]

theorem attach_asks (channel : p.joinChannel i = none) :
    attach b i p = { p with streamReqs := p.streamReqs ++ [{ bay := b, image := i }] } := by
  have channel' : (if p.imageReady i then allChannels.find? (p.fits i) else none) = none := channel
  unfold attach
  dsimp only
  erw [channel']

theorem imageReady_iff : p.imageReady i = true ↔ ∃ y, p.image i = some y ∧ y.state = .ready := by
  unfold Part.imageReady
  cases p.image i <;> simp

/-! ## Chunks -/

/-- The stream with the drive of the member at `b` ready for its next chunk (R118). -/
def Stream.readied (st : Stream) (b : Fin 12) : Stream :=
  { st with members := st.members.map fun k => if k.bay = b then { k with driveReady := true } else k }

/-- The bay with no deadline running (R67). -/
def Bay.untimed (x : Bay) : Bay := { x with deadline := none }

section Member
variable (channel : (p.bay b).channel = some c) (stream : p.stream c = some st) (member : st.member b = some m)
include channel stream member

theorem memberReady_eq : memberReady b p =
    if m.position = 0 then
      (p.setBay b (p.bay b).untimed).setChannel c (.recording (st.readied b))
    else p := by
  unfold memberReady
  rw [channel]
  dsimp only
  rw [stream]
  dsimp only
  rw [member]
  rfl

theorem memberAck_idle (idle : m.driveReady = true ∨ m.position = 0) : memberAck b p = p := by
  have settled : m.outstanding = false := by
    obtain ready | first := idle <;> simp [Member.outstanding, *]
  unfold memberAck
  rw [channel]
  split
  case h_2 => rfl
  case h_1 c' r first there =>
    obtain rfl := Option.some.inj first
    rw [stream]
    dsimp only
    rw [member]
    split
    case h_2 => rfl
    case h_1 m' y is _ =>
      obtain rfl := Option.some.inj is
      rw [if_neg (by simp [settled])]

section Outstanding
variable (sent : m.driveReady = false) (started : 0 < m.position) (there : p.occupant (.bay b) = some r)
  (held : p.disc r = some d) (image : p.image st.image = some y)
include sent started there held image

theorem memberAck_eq : memberAck b p =
    let wrote := p.setDisc r (some { d with
      blocksWritten := d.blocksWritten + min 32 (y.blocks - 32 * (m.position - 1)) })
    if m.position = st.chunks then memberFinished b r wrote
    else (wrote.setBay b (p.bay b).untimed).setChannel c (.recording (st.readied b)) := by
  have flying : m.outstanding = true := by simp [Member.outstanding, sent, started]
  unfold memberAck
  rw [channel, there]
  dsimp only
  rw [stream]
  dsimp only
  rw [member, image]
  dsimp only
  rw [if_pos flying, modDisc_held held]
  rfl

end Outstanding

end Member

/-- CLOSE sent to a bay (R70). -/
theorem closes_eq (held : p.disc r = some e) :
    setStage r .closing (enterBay b .finalizing (sendDrive b .close .close closeTimeout p)) =
      { (p.setDisc r (some (e.atStage .closing))).setBay b (((p.bay b).enter .finalizing).driven .close (p.now + 300000)) with
        sent := p.sent ++ [.drive b .close] } := by
  have entered : enterBay b .finalizing (sendDrive b .close .close closeTimeout p) =
      { p.setBay b (((p.bay b).enter .finalizing).driven .close (p.now + 300000)) with
        sent := p.sent ++ [.drive b .close] } := by
    simp only [sendDrive_eq, enterBay, Part.modBay]
    simp [Part.setBay, Part.bay, Bay.driven, Bay.enter, closeTimeout]
  rw [entered, setStage_held (by exact held)]
  rfl

/-- A member's last chunk acknowledged: CLOSE is sent, and its stream goes on or closes (R70, R119, R124). -/
theorem memberFinished_eq (channel : (p.bay b).channel = some c) (stream : p.stream c = some st)
    (there : p.occupant (.bay b) = some r) (held : p.disc r = some d) : memberFinished b r p =
      let closing : Part := { (p.setDisc r (some ({ d with channel := none }.atStage .closing))).setBay b
          { ((p.bay b).enter .finalizing).driven .close (p.now + 300000) with channel := none } with
        sent := p.sent ++ [.drive b .close] }
      if (st.without b).members = [] then
        { closing.setChannel c .free with splitReqs := p.splitReqs.filter (· != c) }
      else closing.setChannel c (.recording (st.without b)) := by
  have channel' : ((p.restedAt b).bay b).channel = some c := by rw [restedAt_bay]; exact channel
  have there' : (p.restedAt b).occupant (.bay b) = some r := there
  have held' : (p.restedAt b).disc r = some d := held
  have stream' : (p.restedAt b).stream c = some st := stream
  have left := leaveStream_some channel' there' held' stream'
  have finished : memberFinished b r p = setStage r .closing (enterBay b .finalizing
      (sendDrive b .close .close closeTimeout (leaveStream b (p.restedAt b)))) := rfl
  have out : ((p.restedAt b).setBay b { (p.restedAt b).bay b with channel := none }).setDisc r (some { d with channel := none }) =
      (p.setDisc r (some { d with channel := none })).setBay b { (p.bay b).rested with channel := none } := by
    rw [restedAt_setBay, restedAt_bay]
    rfl
  have cleared : ((p.setDisc r (some { d with channel := none })).setBay b { (p.bay b).rested with channel := none }).disc r =
      some { d with channel := none } := Part.setDisc_self p r _
  have bay : ((p.setDisc r (some { d with channel := none })).setBay b { (p.bay b).rested with channel := none }).bay b =
      { (p.bay b).rested with channel := none } := Part.setBay_self _ b _
  have closed : ∀ (x : Channel) (l : List (Fin 4)), setStage r .closing (enterBay b .finalizing
      (sendDrive b .close .close closeTimeout { ((p.setDisc r (some { d with channel := none })).setBay b
        { (p.bay b).rested with channel := none }).setChannel c x with splitReqs := l })) =
      { (p.setDisc r (some ({ d with channel := none }.atStage .closing))).setBay b
          { ((p.bay b).enter .finalizing).driven .close (p.now + 300000) with channel := none } with
        sent := p.sent ++ [.drive b .close], channels := p.channels.set c.val x, splitReqs := l } := fun x l => by
    rw [closes_eq (by exact cleared)]
    generalize ({ d with channel := none }.atStage .closing : Disc) = e
    simp [Part.setBay, Part.setDisc, Part.setChannel, Part.bay, Bay.driven, Bay.enter, Bay.rested]
  rw [finished, left]
  dsimp only
  rw [out]
  split
  · exact closed .free _
  · exact closed _ _

/-- Settles O48: joining a stream or asking for one; READY; CHUNK_ACK before and at the last chunk. -/
theorem recordingReports : Obligations.RecordingReports := by
  refine ⟨fun p b i => ?_, fun s b c st m driving channel stream member => ?_⟩
  · intro joins
    have joins_iff : ∀ c, p.fits i c = true ↔ joins c := fun c => fits_iff
    refine ⟨fun c st y r d n image ready here lowest stream there held speed => ?_, fun apart => attach_asks ?_⟩
    · have first : p.joinChannel i = some c := by
        rw [Part.joinChannel, if_pos (imageReady_iff.mpr ⟨y, image, ready⟩), find?_ascending allChannels_ordered mem_allChannels]
        exact ⟨(joins_iff c).mpr here, fun k below => Bool.eq_false_iff.mpr (mt (joins_iff k).mp (lowest k below))⟩
      rw [attach_joins first image stream, bayJoined_eq (by exact there) (by exact held) speed]
      rfl
    · unfold Part.joinChannel
      split
      case isFalse => rfl
      case isTrue ready =>
        obtain ⟨y, image, is⟩ := imageReady_iff.mp ready
        refine List.find?_eq_none.mpr fun c _ => ?_
        obtain unready | none' := apart
        · exact absurd is (unready y image)
        · exact mt (joins_iff c).mp (none' c)
  · intro x stepped
    have readies : ∀ {q}, memberReady b s.part.fresh = q → exec (.ready b) s = .next (s.became (settle q)) := fun {q} is => by
      rw [exec_ready, driveReport_taken driving, is]
    have acks : ∀ {q}, memberAck b s.part.fresh = q → exec (.chunkAck b) s = .next (s.became (settle q)) := fun {q} is => by
      rw [exec_chunkAck, driveReport_taken driving, is]
    have ready := memberReady_eq (p := s.part.fresh) channel stream member
    refine ⟨fun first => readies (ready.trans (if_pos first)), fun later => readies (ready.trans (if_neg later)),
      fun idle => acks (memberAck_idle (p := s.part.fresh) channel stream member idle), ?_⟩
    intro r d y sent started there held image written rest done
    have ack := memberAck_eq (p := s.part.fresh) channel stream member sent started there held image
    have held' : (s.part.fresh.setDisc r (some { d with blocksWritten := written })).disc r =
      some { d with blocksWritten := written } := Part.setDisc_self _ r _
    have finishes := memberFinished_eq (p := s.part.fresh.setDisc r (some { d with blocksWritten := written })) channel stream
      there held'
    rw [setDisc_setDisc] at finishes
    refine ⟨fun going => acks (ack.trans (if_neg going)), fun last some' => acks ?_, fun last none' => acks ?_⟩
    · exact (ack.trans (if_pos last)).trans (finishes.trans (if_neg some'))
    · exact (ack.trans (if_pos last)).trans (finishes.trans (if_pos none'))

end Sys2Proof.Machine
end

