-- ==== Sys2Proof/Proofs/UnansweredReports.lean ====
section
/-! PROOF. Reports and expiries that answer nothing in flight (R48, R50, R58, R66, R107, R117, R145). -/

namespace Sys2Proof.Machine

-- One proof after another: side by side, their threads' stacks pass the check's memory limit.
set_option Elab.async false

variable {p q : Part} {s : State} {b : Fin 12} {c : Fin 4} {id op : Nat} {o : ArmOp} {held : Bool} {i : Instr}

/-! ## The drives and the store -/

theorem driveReport_unheld (live : s.link.resetLow = false) {x : DriveOp} (unheld : (s.part.bay b).operation ≠ some x)
    (f : Part → Part) : takeEvent (driveReport b x f) s = .next (s.became s.part.fresh) := by
  have other : ¬ s.part.fresh.holds b x = true := fun holds => unheld (of_decide_eq_true holds)
  rw [takeEvent_live live, driveReport, if_neg other]
  rfl

theorem answers_other (other : ∀ x, p.readOf c = some x → x.id ≠ id) : p.answers c id = false := by
  unfold Part.answers
  cases read : p.readOf c with
  | none => rfl
  | some x => simpa using other x read

theorem storeData_other (m : Memory) (bytes : List Byte) (other : ∀ x, p.readOf c = some x → x.id ≠ id) :
    storeData p c id bytes m = m := by
  unfold storeData
  cases read : p.readOf c with
  | none => rfl
  | some x => simp [other x read]

/-! ## The arm -/

theorem fit_late (late : op < p.arm.liveFrom ∨ op ∈ p.arm.stale) : p.fit op = .late := by
  unfold Part.fit
  rw [if_pos (by simpa using late)]

theorem fit_open (opened : p.doorOpen = true) (other : ∀ o, p.arm.cut = some o → o.id ≠ op) : p.fit op = .late := by
  unfold Part.fit
  split
  case isTrue => rfl
  case isFalse =>
    cases cut : p.arm.cut with
    | none => cases p.arm.op <;> rfl
    | some o => simp [other o cut]

/-- A late report is discarded, whatever it is (R50, R58, R173). -/
theorem late_evaluated (live : s.link.resetLow = false) (fit : s.part.fresh.fit op = .late)
    (report : i ∈ armReports op held) : exec i s = .next (s.became (settle s.part.fresh)) := by
  have rests : ∀ f, armReport op f s.part.fresh = s.part.fresh := fun f => by rw [armReport, fit]
  simp only [armReports, List.mem_cons, List.not_mem_nil, or_false] at report
  rcases report with rfl | rfl | rfl | rfl | rfl | rfl | rfl | rfl | rfl | rfl
  · rw [gripped_taken live, takeGripped, fit]
  · rw [done_taken live, takeDone, fit]
  · rw [missed_taken live, rests]
  · rw [double_taken live, rests]
  · rw [single_taken live, rests]
  · rw [stillDouble_taken live, rests]
  · rw [dropped_taken live, rests]
  · rw [interrupted_taken live, rests]
  · rw [jammed_taken live, rests]
  · rw [homed_taken live, rests]

/-- A second GRIPPED changes nothing (R48). -/
theorem gripped_again {m : Move} (flying : s.flying o)
    (fetches : (∃ sp d, o.order = .pick sp d) ∨ ∃ pl d, o.order = .transfer pl d) (move : s.part.arm.move = some m)
    (gripped : m.gripped = true) : exec (.gripped o.id) s = .next (s.became (settle s.part.fresh)) := by
  have move' : s.part.fresh.arm.move = some m := move
  rw [gripped_taken flying.1, takeGripped, fit_flying flying]
  obtain ⟨sp, d, order⟩ | ⟨pl, d, order⟩ := fetches <;> simp only [order, move', gripped, if_true]

section Cut
variable (cut : s.cutShort o)
include cut

/-- Every other report of the cut operation is discarded (R58). -/
theorem cut_reports (report : i ∈ [Instr.missed o.id, .double o.id, .single o.id, .stillDouble o.id, .dropped o.id,
    .interrupted o.id, .jammed o.id, .homed o.id held]) : exec i s = .next (s.became (settle s.part.fresh)) := by
  have rests : ∀ f, armReport o.id f s.part.fresh = s.part.fresh := fun f => by rw [armReport, fit_cutShort cut]
  have live := cut.1
  simp only [List.mem_cons, List.not_mem_nil, or_false] at report
  rcases report with rfl | rfl | rfl | rfl | rfl | rfl | rfl | rfl
  · rw [missed_taken live, rests]
  · rw [double_taken live, rests]
  · rw [single_taken live, rests]
  · rw [stillDouble_taken live, rests]
  · rw [dropped_taken live, rests]
  · rw [interrupted_taken live, rests]
  · rw [jammed_taken live, rests]
  · rw [homed_taken live, rests]

/-- A GRIPPED that is not the first of a PICK or a TRANSFER is discarded (R58; log 47). -/
theorem cut_gripped (unfit : ¬ (((∃ sp d, o.order = .pick sp d) ∨ ∃ pl d, o.order = .transfer pl d) ∧
    ∃ m, s.part.arm.move = some m ∧ m.gripped = false)) :
    exec (.gripped o.id) s = .next (s.became (settle s.part.fresh)) := by
  have taken : takeGripped o.id s.part.fresh = s.part.fresh := by
    rw [takeGripped, fit_cutShort cut]
    dsimp only
    split
    case h_1 m order move =>
      refine if_pos (Bool.not_eq_false _ |>.mp fun empty => unfit ⟨.inl ⟨_, _, order⟩, m, move, empty⟩)
    case h_2 m order move =>
      refine if_pos (Bool.not_eq_false _ |>.mp fun empty => unfit ⟨.inr ⟨_, _, order⟩, m, move, empty⟩)
    case h_3 => rfl
  rw [gripped_taken cut.1, taken]

/-- A DONE of an operation that does not end so is discarded (R58; log 47). -/
theorem cut_done (unfit : ¬ ∃ m, s.part.arm.move = some m ∧
    (((∃ sp d, o.order = .pick sp d) ∨ ∃ pl d, o.order = .transfer pl d) ∧ m.gripped = true ∨ ∃ d, o.order = .deliver d)) :
    exec (.done o.id) s = .next (s.became (settle s.part.fresh)) := by
  have taken : takeDone o.id s.part.fresh = s.part.fresh := by
    rw [takeDone, fit_cutShort cut]
    dsimp only
    split
    case h_2 => rfl
    case h_1 m move =>
      refine if_neg fun ends => unfit ⟨m, move, ?_⟩
      cases order : o.order with
      | pick sp d => exact .inl ⟨.inl ⟨sp, d, rfl⟩, by simpa [ArmOrder.endsDone, order] using ends⟩
      | transfer pl d => exact .inl ⟨.inr ⟨pl, d, rfl⟩, by simpa [ArmOrder.endsDone, order] using ends⟩
      | deliver d => exact .inr ⟨d, rfl⟩
      | separate => simp [ArmOrder.endsDone, order] at ends
      | home why => simp [ArmOrder.endsDone, order] at ends
  rw [done_taken cut.1, taken]

end Cut

/-! ## The printer and the timers -/

/-- A LABEL's report with none in flight is its head temperature alone (R145). -/
theorem takeLabel_idle {failed : Bool} {d : Drops} {t : Nat} (unlabelled : p.station.labelDeadline = none) :
    takeLabel failed d t p = takeTemperature t p := by
  have same : (takeTemperature t p).station.labelDeadline = none := by
    rw [takeTemperature_eq]
    exact unlabelled
  rw [takeLabel, same]
  rfl

/-- A STATUS with no QUERY in flight is its head temperature alone (R145). -/
theorem takeStatus_idle {present : Bool} {cond : Condition} {t : Nat} (unqueried : p.station.queryDeadline = none) :
    takeStatus present cond t p = takeTemperature t p := by
  have same : (takeTemperature t p).station.queryDeadline = none := by
    rw [takeTemperature_eq]
    exact unqueried
  unfold takeStatus
  dsimp only
  rw [same]
  rfl

theorem joinEnds_settled (settled : ∀ st, p.stream c = some st → st.joinOver = true) : joinEnds c p = p := by
  unfold joinEnds
  split
  case h_1 st stream => exact if_pos (settled st stream)
  case h_2 => rfl

/-- Settles O45: the reports of the drives, the store, the arm and the printer, then the expiries. -/
theorem unansweredReports : Obligations.UnansweredReports := by
  intro s live nothing evaluated
  have event : ∀ f : Part → Part, f s.part.fresh = s.part.fresh → takeEvent f s = nothing := fun f same => by
    rw [takeEvent_live live, same]
    rfl
  have settles : ∀ f : Part → Part, f s.part.fresh = s.part.fresh → takeEvent (fun p => settle (f p)) s = evaluated :=
    fun f same => by
      rw [takeEvent_live live, same]
      rfl
  refine ⟨fun b op i unheld report => ?_, fun c id bytes other => ⟨?_, ?_⟩,
    fun op held i late report => late_evaluated live (fit_late (p := s.part.fresh) late) report,
    fun op held i opened other report => late_evaluated live (fit_open (p := s.part.fresh) opened other) report,
    fun o m flying fetches move gripped => gripped_again flying fetches move gripped, fun o held i cut => ?_,
    fun d t unlabelled => ⟨?_, ?_⟩, fun present cond t unqueried => ?_, fun idle => ?_, fun b calm => ?_, fun c unread => ?_,
    fun c settled => ?_, fun unlabelled => ?_, fun unqueried => ?_, fun calm => ?_⟩
  · have rests : ∀ f, takeEvent (driveReport b op f) s = nothing := driveReport_unheld live unheld
    rcases report with ⟨rfl, rfl | rfl⟩ | ⟨rfl, ⟨bl, mk, ty, cl, n, rfl⟩ | rfl⟩ | ⟨rfl, rfl | rfl | rfl⟩ | ⟨rfl, rfl | rfl⟩ |
      ⟨rfl, ⟨bytes, rfl⟩ | rfl⟩ | ⟨rfl, rfl | rfl⟩ | ⟨rfl, ⟨pr, t, rfl⟩ | rfl⟩
    · rw [exec_loaded, rests]
    · rw [exec_loadError, rests]
    · rw [exec_identified, rests]
    · rw [exec_idError, rests]
    · rw [exec_ready, rests]
    · rw [exec_chunkAck, rests]
    · rw [exec_writeError, rests]
    · rw [exec_closed, rests]
    · rw [exec_closeError, rests]
    · rw [exec_segment, rests]
    · rw [exec_readError, rests]
    · rw [exec_opened, rests]
    · rw [exec_ejectError, rests]
    · rw [exec_resetDone, rests]
    · rw [exec_resetFailed, rests]
  · have unanswered := answers_other (p := s.part.fresh) (c := c) (id := id) other
    rw [exec_data, live, if_neg (by simp), storeData_other _ _ other]
    exact event _ (by simp [unanswered])
  · have unanswered := answers_other (p := s.part.fresh) (c := c) (id := id) other
    rw [exec_storeError]
    exact event _ (by simp [takeStoreError, unanswered])
  · intro fetches delivers
    rintro (report | ⟨rfl, unfit⟩ | ⟨rfl, unfit⟩)
    · exact cut_reports cut report
    · exact cut_gripped cut unfit
    · exact cut_done cut unfit
  · rw [exec_labelDone, exec_temperature, takeEvent_live live, takeEvent_live live, takeLabel_idle (p := s.part.fresh) unlabelled]
  · rw [exec_labelFailed, exec_temperature, takeEvent_live live, takeEvent_live live, takeLabel_idle (p := s.part.fresh) unlabelled]
  · rw [exec_status, exec_temperature, takeEvent_live live, takeEvent_live live, takeStatus_idle (p := s.part.fresh) unqueried]
  · rw [exec_moveTimeout]
    exact settles _ (by simp [armExpired, idle])
  · rw [exec_watchdogExpiry]
    exact settles _ (by rw [watchdogExpires, show (s.part.fresh.bay b).deadline = none from calm])
  · rw [exec_storeReadLimitExpiry]
    exact event _ (by rw [storeLimitExpires, show s.part.fresh.readOf c = none from unread])
  · rw [exec_joinPeriodEnd]
    exact event _ (joinEnds_settled settled)
  · rw [exec_labelLimitExpiry]
    exact settles _ (by simp [labelExpires, unlabelled])
  · rw [exec_queryLimitExpiry]
    exact settles _ (by simp [queryExpires, unqueried])
  · rw [exec_attnPulseEnd]
    exact event _ (by simp [pulseEnds, calm])

end Sys2Proof.Machine
end

