-- ==== Sys2Proof/Proofs/DataArrives.lean ====
section
/-! PROOF. DATA for the attempt in flight: its slot, its stream or its survey (R100, R106, R108, R114, R117). -/

namespace Sys2Proof.Machine

-- One proof after another: side by side, their threads' stacks pass the check's memory limit.
set_option Elab.async false

variable {p q : Part} {s : State} {c : Fin 4} {x : StoreRead} {y : Image} {st : Stream} {v : Survey} {bytes : List Byte}
  {m : Memory}

/-! ## The memories -/

/-- The buffer with the chunk in its slot (R114). -/
def Memory.stored (m : Memory) (c : Fin 4) (chunk : Nat) (bytes : List Byte) : Memory :=
  { m with buffer := poke m.buffer (slotAddress c chunk) bytes }

/-- The digest memory with the digest of a survey's segment in its slot (R100, R106). -/
def Memory.digested (m : Memory) (c : Fin 4) (y : Image) (segment : Nat) : Memory :=
  { m with
    digests := poke m.digests (digestSlot y segment)
      [digest (peekRun m.buffer (slotAddress c (8 * segment)) (2048 * segmentBlocks y.blocks segment))] }

section Stored
variable (read : p.readOf c = some x) (fits : bytes.length ≤ 65536)
include read fits

theorem storeData_recording (channel : p.channel c = .recording st) :
    storeData p c x.id bytes m = m.stored c x.chunk bytes := by
  unfold storeData
  simp only [read, channel, beq_self_eq_true, if_true, Memory.stored, Config.slotBytes, List.take_of_length_le fits]

theorem storeData_survey (channel : p.channel c = .survey v) (image : p.image v.image = some y) :
    storeData p c x.id bytes m = if y.completes x.chunk then
      (m.stored c x.chunk bytes).digested c y (x.chunk / 8) else m.stored c x.chunk bytes := by
  unfold storeData
  simp only [read, channel, image, beq_self_eq_true, if_true, Config.slotBytes, List.take_of_length_le fits]
  rfl

theorem storeData_buffer : (storeData p c x.id bytes m).buffer = (m.stored c x.chunk bytes).buffer := by
  unfold storeData
  simp only [read, beq_self_eq_true, if_true, Config.slotBytes, List.take_of_length_le fits]
  split
  · split
    · split <;> rfl
    · rfl
  · rfl

end Stored

theorem completes_iff {chunk : Nat} : y.completes chunk = true ↔ chunk % 8 = 7 ∨ chunk + 1 = y.chunks := by
  simp [Image.completes]

theorem slotAddress_eq (chunk : Nat) : slotAddress c chunk = (c.val * 64 + chunk % 64) * 65536 := rfl

theorem stored_inside {chunk k : Nat} {w : Byte} (at_ : bytes[k]? = some w) :
    peek (m.stored c chunk bytes).buffer (slotAddress c chunk + k) = w := by
  obtain ⟨lt, rfl⟩ := List.getElem?_eq_some_iff.mp at_
  rw [Memory.stored, peek_poke_inside _ lt, List.getD_eq_getElem _ _ lt]

/-! ## The survey -/

theorem surveyRead_goes (image : p.image v.image = some y) (more : v.read.chunk + 1 ≠ y.chunks) : surveyRead c v p =
    let progress := y.surveyProgress + if y.completes v.read.chunk then 1 else 0
    { (p.setImage v.image (some { y with surveyProgress := progress })).setChannel c
        (.survey { v with read :=
          { id := p.readCount, chunk := v.read.chunk + 1, attempt := 1, deadline := p.now + 2000 } }) with
      readCount := p.readCount + 1
      sent := p.sent ++ [.storeRead c (y.storeAddress + 32 * (v.read.chunk + 1))
        (min 32 (y.blocks - 32 * (v.read.chunk + 1)))] } := by
  unfold surveyRead
  rw [image]
  dsimp only
  rw [if_neg (by simpa using more)]
  rfl

theorem surveyRead_ends (image : p.image v.image = some y) (last : v.read.chunk + 1 = y.chunks) : surveyRead c v p =
    let progress := y.surveyProgress + if y.completes v.read.chunk then 1 else 0
    imageBecomesReady v.image { (p.setImage v.image (some { y with
        state := .ready, referenceValid := true, surveyChannel := none, surveyProgress := progress })).setChannel c .free with
      splitReqs := p.splitReqs.filter (· != c) } := by
  unfold surveyRead
  rw [image]
  dsimp only
  rw [if_pos (by simpa using last)]
  rfl

/-- DATA of the attempt in flight: the memory and the records that follow (R106, R117). -/
theorem data_taken (live : s.link.resetLow = false) (read : s.part.readOf c = some x) : exec (.data c x.id bytes) s = .next
    { s with
      memory := storeData s.part c x.id bytes s.memory
      part := settle (match s.part.channel c with
        | .recording st => streamRead c st s.part.fresh
        | .survey v => surveyRead c v s.part.fresh
        | .free => s.part.fresh) } := by
  have read' : s.part.fresh.readOf c = some x := read
  have answers : s.part.fresh.answers c x.id = true := by rw [Part.answers, read']; simp
  have live' : ({ s with memory := storeData s.part c x.id bytes s.memory } : State).link.resetLow = false := live
  rw [exec_data, live, if_neg (by simp), takeEvent_live live', if_pos answers, takeData, if_pos answers]
  rfl

/-- Settles O53: the slot written, then a recording stream's head, or a survey's digest and its next chunk or end. -/
theorem dataArrives : Obligations.DataArrives := by
  intro s c x bytes live read fits slot
  have buffer := storeData_buffer (m := s.memory) read fits
  refine ⟨_, data_taken live read, rfl, rfl, fun k w at_ => ?_, fun a outside => ?_, fun st channel => ⟨?_, ?_⟩,
    fun v y channel image => ?_⟩
  · exact (congrArg (peek · (slot + k)) buffer).trans (stored_inside at_)
  · exact (congrArg (peek · a) buffer).trans (peek_poke_outside _ outside)
  · exact (congrArg Memory.digests (storeData_recording (m := s.memory) read fits channel) :)
  · simp only [channel]
    rfl
  · intro segment complete place progress
    have same : v.read = x := by simpa [Part.readOf, channel] using read
    have stored := storeData_survey (m := s.memory) read fits channel image
    have digests : (storeData s.part c x.id bytes s.memory).digests = if y.completes x.chunk then
        poke s.memory.digests place [digest (peekRun (storeData s.part c x.id bytes s.memory).buffer
          (slotAddress c (8 * segment)) (2048 * segmentBlocks y.blocks segment))] else s.memory.digests := by
      rw [buffer, stored]
      split <;> rfl
    have counts : (y.surveyProgress + if y.completes x.chunk then 1 else 0) = progress := by
      simp only [completes_iff]
      rfl
    refine ⟨fun done => ?_, fun g other => ?_, fun more => ?_, fun last => ?_⟩
    · show peek (storeData s.part c x.id bytes s.memory).digests place = _
      rw [digests, if_pos (completes_iff.mpr done)]
      exact peek_poke_inside (i := 0) _ (by simp)
    · show peek (storeData s.part c x.id bytes s.memory).digests g = _
      rw [digests]
      split
      case isTrue done =>
        refine peek_poke_outside _ ?_
        have apart := other.resolve_left (not_not.mpr (completes_iff.mp done))
        simp only [List.length_singleton]
        omega
      case isFalse => rfl
    · have goes := surveyRead_goes (p := s.part.fresh) (c := c) image (by rw [same]; exact more)
      rw [same, counts] at goes
      simp only [channel]
      exact congrArg settle goes
    · have ends := surveyRead_ends (p := s.part.fresh) (c := c) image (by rw [same]; exact last)
      rw [same, counts] at ends
      simp only [channel]
      exact congrArg settle ends

end Sys2Proof.Machine
end

