-- ==== Sys2Proof/Proofs/SourceRejects.lean ====
section
/-! PROOF. What the SOURCE_ERROR rejects of a stream's failure keep: the verdicts, the jobs held for SOURCE, the bays'
channels and the stream that comes to its end (R24, R124, R125). -/

namespace Sys2Proof.Machine

-- One proof after another: side by side, their threads' stacks pass the check's memory limit.
set_option Elab.async false

variable {p q u : Part} {c : Fin 4} {l : List (Fin 12)} {b : Fin 12} {r k : Fin 24} {x : Fin 16} {d : Disc} {st : Stream}

/-! ## What is kept -/

/-- A record's verdict and its reason. -/
def Disc.judgement (d : Disc) : Verdict × Option Reason := (d.verdict, d.reason)

/-- A record keeps its judgement, or has its first REJECT, SOURCE_ERROR (R4). -/
def Judged (a a' : Option Disc) : Prop :=
  a'.map Disc.judgement = a.map Disc.judgement ∨
    (∃ d, a = some d ∧ d.verdict ≠ .reject) ∧ a'.map Disc.judgement = some (.reject, some .sourceError)

theorem judgement_some {a : Option Disc} {v : Verdict × Option Reason} (is : a.map Disc.judgement = some v) :
    ∃ e, a = some e ∧ e.verdict = v.1 ∧ e.reason = v.2 := by
  obtain ⟨e, rfl, rfl⟩ := Option.map_eq_some_iff.mp is
  exact ⟨e, rfl, rfl, rfl⟩

theorem Judged.trans {a a' a'' : Option Disc} (h : Judged a a') (h' : Judged a' a'') : Judged a a'' := by
  obtain same | ⟨first, became⟩ := h
  · obtain same' | ⟨⟨d, rfl, unrejected⟩, became⟩ := h'
    · exact .inl (same'.trans same)
    · obtain ⟨e, rfl, verdict, -⟩ := judgement_some same.symm
      exact .inr ⟨⟨e, rfl, verdict ▸ unrejected⟩, became⟩
  · obtain same' | ⟨⟨d, rfl, unrejected⟩, -⟩ := h'
    · exact .inr ⟨first, same'.trans became⟩
    · obtain ⟨e, is, rejected, -⟩ := judgement_some became
      obtain rfl := Option.some.inj is
      exact absurd rejected unrejected

/-- Channel `c` is FREE, or carries a stream of members whose bays are of `l` and name the channel (R124). -/
def Part.Ending (p : Part) (c : Fin 4) (l : List (Fin 12)) : Prop :=
  p.channel c = .free ∨ ∃ st, p.channel c = .recording st ∧ st.members ≠ [] ∧
    ∀ m ∈ st.members, m.bay ∈ l ∧ (p.bay m.bay).channel = some c

/-- What the rejects of a stream's failure keep. -/
structure Part.Steady (c : Fin 4) (l : List (Fin 12)) (p q : Part) : Prop where
  judged : ∀ r, Judged (p.disc r) (q.disc r)
  jobs : ∀ x g, p.job x = some g → g.holds.source = true → g.state ≠ .running →
    ∃ g', q.job x = some g' ∧ g'.holds.source = true ∧ g'.state = g.state
  channels : ∀ b, (q.bay b).channel = (p.bay b).channel ∨ (q.bay b).channel = none
  ending : p.Ending c l → q.Ending c l

theorem Part.Steady.refl (p : Part) : p.Steady c l p :=
  ⟨fun _ => .inl rfl, fun _ g held source _ => ⟨g, held, source, rfl⟩, fun _ => .inl rfl, id⟩

theorem Part.Steady.trans (h : p.Steady c l q) (h' : q.Steady c l u) : p.Steady c l u where
  judged r := (h.judged r).trans (h'.judged r)
  jobs x g held source stopped := by
    obtain ⟨g', held', source', state'⟩ := h.jobs x g held source stopped
    obtain ⟨g'', held'', source'', state''⟩ := h'.jobs x g' held' source' (state' ▸ stopped)
    exact ⟨g'', held'', source'', state''.trans state'⟩
  channels b := by
    obtain same | cleared := h'.channels b
    · rw [same]
      exact h.channels b
    · exact .inr cleared
  ending := h'.ending ∘ h.ending

theorem channel_congr (same : q.channels = p.channels) : q.channel = p.channel := by
  funext c
  simp only [Part.channel, same]

theorem job_congr (same : q.jobs = p.jobs) : q.job = p.job := by
  funext x
  simp only [Part.job, same]

/-- A change of none of these. -/
theorem Part.Changes.steady {fs : List Field} (h : p.Changes fs q)
    (free : [Field.discs, .jobs, .bays, .channels].all (· ∉ fs) = true := by rfl) : p.Steady c l q := by
  simp only [List.all_cons, List.all_nil, Bool.and_true, Bool.and_eq_true, decide_eq_true_eq] at free
  obtain ⟨discs, jobs, bays, channels⟩ := free
  have disc := disc_congr (h .discs discs)
  have job := job_congr (h .jobs jobs)
  have bay := bay_congr (h .bays bays)
  have channel := channel_congr (h .channels channels)
  refine ⟨fun r => .inl (by rw [disc]), fun x g held source _ => ⟨g, job ▸ held, source, rfl⟩, fun b => .inl (by rw [bay]),
    fun ending => ?_⟩
  rwa [Part.Ending, channel, bay]

theorem setDisc_steady {o : Option Disc} (judged : Judged (p.disc r) o) : p.Steady c l (p.setDisc r o) := by
  refine ⟨fun k => ?_, fun x g held source _ => ⟨g, held, source, rfl⟩, fun _ => .inl rfl, id⟩
  by_cases same : k = r
  · subst same
    rwa [Part.setDisc_self]
  · rw [Part.setDisc_other _ _ _ _ same]
    exact .inl rfl

theorem modDisc_steady {f : Disc → Disc} (keeps : ∀ d, (f d).judgement = d.judgement) : p.Steady c l (p.modDisc r f) :=
  setDisc_steady (.inl (by
    rw [Option.map_map]
    exact congrFun (congrArg Option.map (funext keeps)) _))

theorem setStage_steady (s : Stage) : p.Steady c l (setStage r s p) :=
  modDisc_steady fun d => by rw [Disc.atStage_eq]; rfl

/-- A write of a bay that keeps its channel. -/
theorem setBay_steady {y : Bay} (keeps : y.channel = (p.bay b).channel) : p.Steady c l (p.setBay b y) := by
  have same : ∀ k, ((p.setBay b y).bay k).channel = (p.bay k).channel := fun k => by
    by_cases is : k = b
    · rw [is, Part.setBay_self, keeps]
    · rw [Part.setBay_other _ _ _ _ is]
  refine ⟨fun _ => .inl rfl, fun x g held source _ => ⟨g, held, source, rfl⟩, fun k => .inl (same k), fun ending => ?_⟩
  obtain free | ⟨st, channel, members, named⟩ := ending
  · exact .inl free
  · exact .inr ⟨st, channel, members, fun m mem => ⟨(named m mem).1, (same m.bay).trans (named m mem).2⟩⟩

/-! ## The jobs -/

/-- A change of hold reasons that keeps SOURCE (R24). -/
theorem changeHolds_steady {f : Holds → Holds} (keeps : ∀ h, (f h).source = h.source) :
    p.Steady c l (changeHolds x f p) := by
  refine ⟨fun _ => .inl rfl, fun y g held source stopped => ?_, fun _ => .inl rfl, id⟩
  rw [changeHolds_eq]
  by_cases same : y = x
  · subst same
    refine ⟨g.holding f, by rw [Part.setJob_self, held]; rfl, ?_, ?_⟩
    · unfold Job.holding
      split <;> simp [keeps, source]
    · unfold Job.holding
      split
      · simp only [keeps, source, true_or, or_true, if_true]
        split
        case isTrue is => exact (is.resolve_left stopped).symm
        case isFalse => rfl
      · rfl
  · exact ⟨g, by rw [Part.setJob_other _ _ _ _ same, held], source, rfl⟩

theorem leaveInkWait_steady : p.Steady c l (leaveInkWait k p) := by
  have tested : ∀ (y : Fin 16) (q : Part), q.Steady c l (testInkHold y q) := fun y q => by
    unfold testInkHold
    split
    · exact .refl q
    · exact changeHolds_steady fun _ => rfl
  unfold leaveInkWait
  split
  · have left : p.Steady c l { p with inkWait := p.inkWait.filter (· != k) } := inkWait_changes.steady
    dsimp only
    split
    · exact left.trans (tested _ _)
    · exact left
  · exact .refl p

theorem attemptReservation_steady : p.Steady c l (attemptReservation k p) := by
  unfold attemptReservation
  split
  · exact .refl p
  · split
    · have reserved : ∀ v, p.Steady c l (reserve k v p) := fun v =>
        eachInk_changes.steady.trans (modDisc_steady fun _ => rfl)
      exact ((reserved _).trans leaveInkWait_steady).trans (printQueue_changes.steady.trans (setStage_steady _))
    · exact .refl p

theorem retryPass_steady : p.Steady c l (retryPass p) := by
  unfold retryPass
  generalize p.inkWait = waiting
  induction waiting generalizing p with
  | nil => exact .refl p
  | cons k waiting ih => exact attemptReservation_steady.trans ih

theorem release_steady : p.Steady c l (release k p) := by
  unfold release
  split
  · refine .trans ?_ retryPass_steady
    unfold unreserve
    split
    · exact .refl p
    · split
      · exact .refl p
      · exact eachInk_changes.steady.trans (modDisc_steady fun _ => rfl)
  · exact .refl p

theorem leaveLabelUnit_steady : p.Steady c l (leaveLabelUnit k p) :=
  (leaveInkWait_steady.trans leavePrintQueue_changes.steady).trans release_steady

/-! ## The bays and the streams -/

theorem giveOrder_steady : p.Steady c l (giveOrder k p) := modDisc_steady fun _ => rfl

theorem finishStation_steady : p.Steady c l (finishStation p) := by
  have entered : p.Steady c l (enterStation .finished p) := enterStation_changes.steady
  unfold finishStation
  dsimp only
  split
  · split
    · exact entered
    · exact entered.trans giveOrder_steady
  · exact entered

theorem resetBay_steady : p.Steady c l (resetBay b p) := by
  rw [resetBay_eq]
  have reset : p.Steady c l (p.setBay b ((p.bay b).resetting p.now)) := setBay_steady rfl
  have sends : ∀ (q : Part) (l : List Sent), q.Changes [.sent] { q with sent := l } := fun q l f own => by
    cases f <;> first | rfl | simp at own
  exact (reset.trans (sends _ _).steady).trans paySweepReset_changes.steady

/-- The part with the bay out of its stream in both records (R124). -/
def Part.unstreamed (p : Part) (b : Fin 12) : Part :=
  match p.occupant (.bay b) with
  | some r => (p.setBay b { p.bay b with channel := none }).modDisc r fun d => { d with channel := none }
  | none => p.setBay b { p.bay b with channel := none }

theorem unstreamed_changes : (p.setBay b { p.bay b with channel := none }).Changes [.discs] (p.unstreamed b) := by
  unfold Part.unstreamed
  split
  · exact modDisc_changes
  · exact .refl _ _

theorem unstreamed_channel : (p.unstreamed b).channel = p.channel := channel_congr (unstreamed_changes .channels (by decide))

theorem unstreamed_bay : (p.unstreamed b).bay = (p.setBay b { p.bay b with channel := none }).bay :=
  bay_congr (unstreamed_changes .bays (by decide))

theorem unstreamed_job : (p.unstreamed b).job = p.job := job_congr (unstreamed_changes .jobs (by decide))

theorem unstreamed_judged (r : Fin 24) : Judged (p.disc r) ((p.unstreamed b).disc r) := by
  unfold Part.unstreamed
  split
  · exact (modDisc_steady (c := 0) (l := []) (p := p.setBay b { p.bay b with channel := none })
      (f := fun d => { d with channel := none }) fun _ => rfl).judged r
  · exact .inl rfl

theorem stream_eq_some {st : Stream} : p.stream c = some st ↔ p.channel c = .recording st := by
  unfold Part.stream
  cases p.channel c <;> simp

section Left
variable (channel : (p.bay b).channel = some c)
include channel

theorem leaveStream_unstreamed (streamless : p.stream c = none) : leaveStream b p = p.unstreamed b := by
  have streamless' : (p.unstreamed b).stream c = none := by
    rw [Part.stream, unstreamed_channel]
    exact streamless
  have is : leaveStream b p = match (p.unstreamed b).stream c with
      | none => p.unstreamed b
      | some st => closeIfEmpty c ((p.unstreamed b).setChannel c (.recording (st.without b))) := by
    unfold leaveStream
    rw [channel]
    rfl
  rw [is, streamless']

theorem leaveStream_streamed (stream : p.stream c = some st) : leaveStream b p =
    if (st.without b).members = [] then
      { (p.unstreamed b).setChannel c .free with splitReqs := (p.unstreamed b).splitReqs.filter (· != c) }
    else (p.unstreamed b).setChannel c (.recording (st.without b)) := by
  have stream' : (p.unstreamed b).stream c = some st := by
    rw [Part.stream, unstreamed_channel]
    exact stream
  have is : leaveStream b p = match (p.unstreamed b).stream c with
      | none => p.unstreamed b
      | some st => closeIfEmpty c ((p.unstreamed b).setChannel c (.recording (st.without b))) := by
    unfold leaveStream
    rw [channel]
    rfl
  rw [is, stream']
  exact closeIfEmpty_setChannel (st.without b)

end Left

/-- Whatever it was, the bay is out of it: a leave changes the bay, its disc and its channel alone (R124). -/
theorem leaveStream_left (channel : (p.bay b).channel = some c) :
    (p.unstreamed b).Changes [.channels, .splitReqs] (leaveStream b p) ∧
      (p.stream c = none → (leaveStream b p).channel = p.channel) ∧
      ∀ st, p.stream c = some st → OthersKept p.channel (leaveStream b p).channel c ∧
        (leaveStream b p).channel c = if (st.without b).members = [] then .free else .recording (st.without b) := by
  cases stream : p.stream c with
  | none =>
    rw [leaveStream_unstreamed channel stream]
    exact ⟨.refl _ _, fun _ => unstreamed_channel, nofun⟩
  | some st =>
    rw [leaveStream_streamed channel stream]
    refine ⟨?_, nofun, fun st' is => ?_⟩
    · split
      · exact (setChannel_changes.andThen splitReqs_changes).widen rfl
      · exact setChannel_changes.widen rfl
    · obtain rfl := Option.some.inj is
      split
      · exact ⟨fun k other => (Part.setChannel_other _ _ _ _ other).trans (congrFun unstreamed_channel k),
          Part.setChannel_self _ c _⟩
      · exact ⟨fun k other => (Part.setChannel_other _ _ _ _ other).trans (congrFun unstreamed_channel k),
          Part.setChannel_self _ c _⟩

/-- A bay that leaves its stream names no channel any more (R124). -/
theorem leaveStream_clears : ((leaveStream b p).bay b).channel = none := by
  cases channel : (p.bay b).channel with
  | none => rwa [leaveStream_none channel]
  | some c =>
    obtain ⟨changes, -⟩ := leaveStream_left channel
    rw [bay_congr (changes .bays (by decide)), unstreamed_bay, Part.setBay_self]

theorem leaveStream_steady : p.Steady c l (leaveStream b p) := by
  cases channel : (p.bay b).channel with
  | none =>
    rw [leaveStream_none channel]
    exact .refl p
  | some c' =>
    obtain ⟨changes, streamless, streamed⟩ := leaveStream_left channel
    have disc := disc_congr (changes .discs (by decide))
    have job := job_congr (changes .jobs (by decide))
    have bay := (bay_congr (changes .bays (by decide))).trans unstreamed_bay
    have others : ∀ k, k ≠ b → (leaveStream b p).bay k = p.bay k := fun k other => by
      rw [bay, Part.setBay_other _ _ _ _ other]
    refine ⟨fun r => disc ▸ unstreamed_judged r, fun x g held source _ => ⟨g, ?_, source, rfl⟩, fun k => ?_, fun ending => ?_⟩
    · rw [job, unstreamed_job, held]
    · by_cases own : k = b
      · exact .inr (own ▸ leaveStream_clears)
      · exact .inl (by rw [others k own])
    · have apart : p.Ending c l → (leaveStream b p).channel c = p.channel c →
          (∀ st, p.channel c = .recording st → ∀ m ∈ st.members, m.bay ≠ b) → (leaveStream b p).Ending c l :=
        fun ending same unnamed => by
          obtain free | ⟨st, recording, members, named⟩ := ending
          · exact .inl (same.trans free)
          · refine .inr ⟨st, same.trans recording, members, fun m mem => ⟨(named m mem).1, ?_⟩⟩
            rw [others m.bay (unnamed st recording m mem)]
            exact (named m mem).2
      cases stream : p.stream c' with
      | none =>
        refine apart ending (by rw [streamless stream]) fun st recording m mem is => ?_
        obtain free | ⟨st', recording', -, named⟩ := ending
        · rw [free] at recording
          cases recording
        · obtain rfl : st' = st := by simpa [recording] using recording'.symm
          have own := (named m mem).2
          rw [is, channel] at own
          obtain rfl := Option.some.inj own
          rw [stream_eq_some.mpr recording] at stream
          cases stream
      | some st =>
        obtain ⟨kept, became⟩ := streamed st stream
        by_cases same : c = c'
        · subst same
          by_cases empty : (st.without b).members = []
          · exact .inl (became.trans (if_pos empty))
          · refine .inr ⟨st.without b, became.trans (if_neg empty), empty, fun m mem => ?_⟩
            obtain ⟨mem, other⟩ := List.mem_filter.mp mem
            obtain free | ⟨st', recording, -, named⟩ := ending
            · rw [stream_eq_some.mp stream] at free
              cases free
            · obtain rfl : st' = st := by simpa [stream_eq_some.mp stream] using recording.symm
              rw [others m.bay (by simpa using other)]
              exact named m mem
        · refine apart ending (kept c same) fun st' recording m mem is => ?_
          obtain free | ⟨st'', recording', -, named⟩ := ending
          · rw [free] at recording
            cases recording
          · obtain rfl : st'' = st' := by simpa [recording] using recording'.symm
            have own := (named m mem).2
            rw [is, channel] at own
            exact same (Option.some.inj own).symm

theorem bayReject_steady : p.Steady c l (bayReject b p) := by
  unfold bayReject
  split
  · exact resetBay_steady
  · exact resetBay_steady
  · exact resetBay_steady
  · exact leaveStream_steady.trans resetBay_steady
  · exact setContext_changes.steady.trans resetBay_steady
  · exact withdrawRequest_changes.steady.trans (setBay_steady rfl)
  · exact .refl p

theorem propagateReject_steady : p.Steady c l (propagateReject k p) := by
  have left : p.Steady c l (setStage k .rejectBound (leaveLabelUnit k p)) :=
    leaveLabelUnit_steady.trans (setStage_steady _)
  have released : p.Steady c l (setStage k .rejectBound (release k p)) := release_steady.trans (setStage_steady _)
  unfold propagateReject
  split
  · exact .refl p
  · split
    · exact .refl p
    · exact .refl p
    · exact .refl p
    · split
      · exact .refl p
      · unfold rejectUnprinted
        dsimp only
        split
        · exact released.trans finishStation_steady
        · exact released.trans giveOrder_steady
        · exact released
    · dsimp only
      split
      · exact left.trans bayReject_steady
      · split
        · exact left.trans giveOrder_steady
        · exact left
      · exact left

theorem rejectDisc_steady : p.Steady c l (rejectDisc k .sourceError p) := by
  unfold rejectDisc
  cases held : p.disc k with
  | none =>
    have unwritten : writeReject k .sourceError p = p := by simp [writeReject, held]
    rw [unwritten]
    split
    · exact .refl p
    · exact propagateReject_steady
  | some d =>
    by_cases rejected : d.verdict = .reject
    · rw [if_pos ((isReject_iff held).mpr rejected), writeReject_keeps_reason held rejected rfl]
      exact .refl p
    · rw [if_neg (mt (isReject_iff held).mp rejected), writeReject_firstReject held rejected]
      have judged : Judged (p.disc k) (some { d with verdict := .reject, reason := some .sourceError }) :=
        .inr ⟨⟨d, held, rejected⟩, rfl⟩
      have written : p.Steady c l (p.firstReject k .sourceError d) :=
        (setDisc_steady judged).trans (raise_changes (f := .discRejected)).steady
      exact written.trans propagateReject_steady

end Sys2Proof.Machine
end

