-- ==== Sys2Proof/Proofs/StoreFailures.lean ====
section
/-! PROOF. A failed STORE READ: sent again, or at the third attempt the survey's or the stream's end (R107, R109, R110,
R117, R120, R125). -/

namespace Sys2Proof.Machine

-- One proof after another: side by side, their threads' stacks pass the check's memory limit.
set_option Elab.async false

variable {p q u : Part} {s : State} {c : Fin 4} {l : List (Fin 12)} {b b' : Fin 12} {r r' : Fin 24} {x : StoreRead} {d d' : Disc}
  {st : Stream} {y : Image} {v : Survey} {why : Reason}

/-! ## One member's part in a stream's failure -/

/-- The occupant of a bay is rejected SOURCE_ERROR (R125). -/
def sourceReject (p : Part) (b : Fin 12) : Part :=
  match p.occupant (.bay b) with
  | some r => rejectDisc r .sourceError p
  | none => p

/-- A member's disc is rejected and its bay leaves the stream (R125). -/
def sourceStep (p : Part) (m : Member) : Part := leaveStream m.bay (sourceReject p m.bay)

theorem streamFails_eq (chunk : Nat) : streamFails c st chunk p = st.members.foldl sourceStep
    ((changeImageHolds st.image (fun h => { h with source := true }) (faultImage st.image chunk p)).setChannel c
      (.recording { st with read := none })) := rfl

theorem sourceReject_steady : p.Steady c l (sourceReject p b) := by
  unfold sourceReject
  split
  · exact rejectDisc_steady
  · exact .refl p

theorem sourceStep_steady (m : Member) : p.Steady c l (sourceStep p m) := sourceReject_steady.trans leaveStream_steady

theorem sourceSteps_steady (ms : List Member) : p.Steady c l (ms.foldl sourceStep p) := by
  induction ms generalizing p with
  | nil => exact .refl p
  | cons m ms ih => exact (sourceStep_steady m).trans ih

theorem sourceReject_changes : p.Changes [.inkWait, .jobs, .printQueue, .ink, .discs, .attn, .station, .bays, .sent, .tower,
    .splitReqs, .streamReqs, .channels, .contexts] (sourceReject p b) := by
  unfold sourceReject
  split
  · exact rejectDisc_changes
  · exact .refl p _

theorem sourceStep_changes (m : Member) : p.Changes [.inkWait, .jobs, .printQueue, .ink, .discs, .attn, .station, .bays, .sent,
    .tower, .splitReqs, .streamReqs, .channels, .contexts] (sourceStep p m) :=
  sourceReject_changes.step leaveStream_changes rfl

theorem sourceSteps_changes (ms : List Member) : p.Changes [.inkWait, .jobs, .printQueue, .ink, .discs, .attn, .station, .bays,
    .sent, .tower, .splitReqs, .streamReqs, .channels, .contexts] (ms.foldl sourceStep p) :=
  .fold (fun _ m => sourceStep_changes m) ms p

theorem sourceStep_occupant (m : Member) : (sourceStep p m).occupant = p.occupant :=
  occupant_congr (sourceStep_changes m .places (by decide))

/-! ## The flags -/

theorem rejectDisc_grows : p.attn.Grows (rejectDisc r why p).attn := by
  have written : p.attn.Grows (writeReject r why p).attn := by
    unfold writeReject
    split
    · exact .refl _
    · split
      · split <;> exact .refl _
      · exact raise_grows _ _
  unfold rejectDisc
  split
  · exact written
  · rwa [show (propagateReject r (writeReject r why p)).attn = _ from propagateReject_changes .attn (by decide)]

theorem sourceSteps_grows (ms : List Member) : p.attn.Grows (ms.foldl sourceStep p).attn := by
  induction ms generalizing p with
  | nil => exact .refl _
  | cons m ms ih =>
    have rejects : p.attn.Grows (sourceReject p m.bay).attn := by
      unfold sourceReject
      split
      · exact rejectDisc_grows
      · exact .refl _
    have first : p.attn.Grows (sourceStep p m).attn := by
      rwa [sourceStep, show (leaveStream m.bay (sourceReject p m.bay)).attn = _ from leaveStream_changes .attn (by decide)]
    exact fun f set => ih f (first f set)

/-! ## The members' discs and bays -/

theorem judged_some {a : Option Disc} (judged : Judged (some d) a) : ∃ e, a = some e := by
  obtain same | ⟨-, became⟩ := judged
  · obtain ⟨e, is, -⟩ := judgement_some same
    exact ⟨e, is⟩
  · obtain ⟨e, is, -⟩ := judgement_some became
    exact ⟨e, is⟩

theorem judged_rejected {a : Option Disc} (judged : Judged (some d) a) (rejected : d.verdict = .reject) :
    ∃ e, a = some e ∧ e.verdict = .reject := by
  obtain same | ⟨⟨d', is, unrejected⟩, -⟩ := judged
  · obtain ⟨e, is, verdict, -⟩ := judgement_some same
    exact ⟨e, is, verdict.trans rejected⟩
  · obtain rfl := Option.some.inj is
    exact absurd rejected unrejected

theorem rejectDisc_rejected (held : p.disc r = some d) :
    ∃ e, (rejectDisc r .sourceError p).disc r = some e ∧ e.verdict = .reject := by
  by_cases rejected : d.verdict = .reject
  · rw [rejectDisc_again held rejected, writeReject_keeps_reason held rejected rfl]
    exact ⟨d, held, rejected⟩
  · rw [rejectDisc_first held rejected]
    have judged := (propagateReject_steady (c := 0) (l := []) (k := r) (p := p.firstReject r .sourceError d)).judged r
    rw [firstReject_disc] at judged
    exact judged_rejected judged rfl

theorem sourceStep_rejected (m : Member) (there : p.occupant (.bay m.bay) = some r) (held : p.disc r = some d) :
    ∃ e, (sourceStep p m).disc r = some e ∧ e.verdict = .reject := by
  have is : sourceReject p m.bay = rejectDisc r .sourceError p := by rw [sourceReject, there]
  obtain ⟨e, standing, rejected⟩ := rejectDisc_rejected held
  have judged := (leaveStream_steady (c := 0) (l := []) (b := m.bay) (p := sourceReject p m.bay)).judged r
  rw [is, standing] at judged
  rw [sourceStep, is]
  exact judged_rejected judged rejected

/-- Every member's disc is rejected in the end (R125). -/
theorem sourceSteps_rejected {ms : List Member} {m : Member} (mem : m ∈ ms) (there : p.occupant (.bay m.bay) = some r)
    (held : p.disc r = some d) : ∃ e, (ms.foldl sourceStep p).disc r = some e ∧ e.verdict = .reject := by
  induction ms generalizing p d with
  | nil => cases mem
  | cons k ms ih =>
    obtain rfl | mem := List.mem_cons.mp mem
    · obtain ⟨e, standing, rejected⟩ := sourceStep_rejected m there held
      have judged := (sourceSteps_steady (c := 0) (l := []) (p := sourceStep p m) ms).judged r
      rw [standing] at judged
      exact judged_rejected judged rejected
    · have judged := (sourceStep_steady (c := 0) (l := []) (p := p) k).judged r
      rw [held] at judged
      obtain ⟨e, standing⟩ := judged_some judged
      exact ih mem (by rw [sourceStep_occupant, there]) standing

/-- Every member's disc not rejected before is SOURCE_ERROR (R4, R125). -/
theorem sourceSteps_sourced {ms : List Member} {m : Member} (mem : m ∈ ms) (there : p.occupant (.bay m.bay) = some r)
    (held : p.disc r = some d) (first : d.verdict ≠ .reject) :
    ∃ e, (ms.foldl sourceStep p).disc r = some e ∧ e.verdict = .reject ∧ e.reason = some .sourceError := by
  obtain ⟨e, standing, rejected⟩ := sourceSteps_rejected mem there held
  have judged := (sourceSteps_steady (c := 0) (l := []) (p := p) ms).judged r
  rw [held, standing] at judged
  obtain same | ⟨-, became⟩ := judged
  · obtain ⟨e', is, verdict, -⟩ := judgement_some same
    obtain rfl := Option.some.inj is
    exact absurd (verdict.symm.trans rejected) first
  · obtain ⟨e', is, verdict, reason⟩ := judgement_some became
    obtain rfl := Option.some.inj is
    exact ⟨e, standing, verdict, reason⟩

/-- Every member's bay has left its stream in the end (R124). -/
theorem sourceSteps_clear {ms : List Member} {m : Member} (mem : m ∈ ms) :
    ((ms.foldl sourceStep p).bay m.bay).channel = none := by
  induction ms generalizing p with
  | nil => cases mem
  | cons k ms ih =>
    obtain rfl | mem := List.mem_cons.mp mem
    · have cleared : ((sourceStep p m).bay m.bay).channel = none := leaveStream_clears
      obtain same | is := (sourceSteps_steady (c := 0) (l := []) (p := sourceStep p m) ms).channels m.bay
      · exact same.trans cleared
      · exact is
    · exact ih mem

/-- The channel of a stream all of whose members leave is FREE (R124). -/
theorem sourceSteps_free (channel : p.channel c = .recording st) (members : st.members ≠ [])
    (named : ∀ m ∈ st.members, (p.bay m.bay).channel = some c) : (st.members.foldl sourceStep p).channel c = .free := by
  have before : p.Ending c (st.members.map (·.bay)) :=
    .inr ⟨st, channel, members, fun m mem => ⟨List.mem_map_of_mem mem, named m mem⟩⟩
  obtain free | ⟨st', -, members', named'⟩ := (sourceSteps_steady st.members).ending before
  · exact free
  · obtain ⟨m, mem⟩ := List.exists_mem_of_ne_nil _ members'
    obtain ⟨listed, own⟩ := named' m mem
    obtain ⟨k, mem', is⟩ := List.mem_map.mp listed
    rw [← is, sourceSteps_clear mem'] at own
    cases own

/-! ## What is sent -/

/-- A member's bay records its disc, or holds one rejected before (R70, R125). -/
structure Part.MemberAt (p : Part) (b : Fin 12) (r : Fin 24) (d : Disc) : Prop where
  there : p.occupant (.bay b) = some r
  held : p.disc r = some d
  placed : d.place = some (.bay b)
  unwaiting : r ∉ p.inkWait
  recording : d.verdict ≠ .reject → d.stage = .recording ∧ (p.bay b).state = .writing ∧ (p.bay b).operation.isSome = true

/-- Record `r` and bay `b` are as they were, and every place. -/
structure Part.Apart (b : Fin 12) (r : Fin 24) (p q : Part) : Prop where
  occupant : q.occupant = p.occupant
  spares : p.Spares r q
  bay : q.bay b = p.bay b

theorem Part.Apart.trans (h : p.Apart b r q) (h' : q.Apart b r u) : p.Apart b r u :=
  ⟨h'.occupant.trans h.occupant, h.spares.trans h'.spares, h'.bay.trans h.bay⟩

theorem Part.Changes.apart {fs : List Field} (h : p.Changes fs q) (absent : r ∉ p.inkWait)
    (free : Field.discs ∉ fs ∧ Field.inkWait ∉ fs := by decide) (rest : Field.places ∉ fs ∧ Field.bays ∉ fs := by decide) :
    p.Apart b r q :=
  ⟨occupant_congr (h .places rest.1), h.spares absent free, congrFun (bay_congr (h .bays rest.2)) b⟩

theorem Part.MemberAt.apart (h : p.MemberAt b r d) (apart : p.Apart b r q) : q.MemberAt b r d :=
  ⟨by rw [apart.occupant, h.there], by rw [apart.spares.disc, h.held], h.placed, apart.spares.absent,
    by rw [apart.bay]; exact h.recording⟩

theorem leaveStream_apart (there : p.occupant (.bay b) = some r) (otherDisc : r' ≠ r) (otherBay : b' ≠ b)
    (absent : r' ∉ p.inkWait) : p.Apart b' r' (leaveStream b p) := by
  have inkWait : (leaveStream b p).inkWait = p.inkWait := leaveStream_changes .inkWait (by decide)
  have occupant := occupant_congr (leaveStream_changes (b := b) (p := p) .places (by decide))
  cases channel : (p.bay b).channel with
  | none =>
    rw [leaveStream_none channel]
    exact ⟨rfl, ⟨rfl, absent⟩, rfl⟩
  | some c =>
    obtain ⟨changes, -⟩ := leaveStream_left channel
    refine ⟨occupant, ⟨?_, by rwa [inkWait]⟩, ?_⟩
    · rw [disc_congr (changes .discs (by decide)), Part.unstreamed, there]
      exact Part.setDisc_other _ _ _ _ otherDisc
    · rw [bay_congr (changes .bays (by decide)), unstreamed_bay, Part.setBay_other _ _ _ _ otherBay]

theorem rejectBound_apart (otherDisc : r' ≠ r) (absent : r' ∉ p.inkWait) : p.Apart b' r' (p.rejectBound r why d) := by
  have first : p.Spares r' (p.firstReject r why d) := ⟨Part.setDisc_other _ _ _ _ otherDisc, absent⟩
  have left := first.trans (leaveLabelUnit_spares first.absent otherDisc)
  exact ⟨occupant_congr (rejectBound_changes .places (by decide)),
    left.trans ⟨Part.setDisc_other _ _ _ _ otherDisc, left.absent⟩, rejectBound_bay b'⟩

theorem resetBay_apart (otherBay : b' ≠ b) (absent : r' ∉ p.inkWait) : p.Apart b' r' (resetBay b p) := by
  have changes := resetBay_changes (b := b) (p := p)
  refine ⟨occupant_congr (changes .places (by decide)), changes.spares absent, ?_⟩
  rw [resetBay_eq, bay_congr (paySweepReset_changes .bays (by decide))]
  exact Part.setBay_other _ _ _ _ otherBay

section Step
variable (member : p.MemberAt b r d)
include member

theorem sourceReject_resets (first : d.verdict ≠ .reject) :
    sourceReject p b = resetBay b (leaveStream b (p.rejectBound r .sourceError d)) := by
  obtain ⟨stage, state, -⟩ := member.recording first
  obtain ⟨-, atBay, -⟩ := rejectDisc_moves (why := .sourceError) member.held first (by rw [stage]; rfl) (by rw [stage]; decide)
    (by rw [stage]; decide)
  have state' : ((p.rejectBound r .sourceError d).bay b).state = .writing := by rw [rejectBound_bay, state]
  rw [sourceReject, member.there]
  dsimp only
  rw [atBay b member.placed]
  unfold bayReject
  rw [state']

theorem sourceReject_again (again : d.verdict = .reject) : sourceReject p b = p := by
  rw [sourceReject, member.there]
  dsimp only
  rw [rejectDisc_again member.held again, writeReject_keeps_reason member.held again rfl]

/-- A drive that records is sent ABORT and RESET, for a disc rejected before nothing (R125). -/
theorem sourceReject_sent : (sourceReject p b).sent =
    p.sent ++ if d.verdict = .reject then [] else [.drive b .abort, .drive b .reset] := by
  by_cases again : d.verdict = .reject
  · rw [sourceReject_again member again, if_pos again, List.append_nil]
  · obtain ⟨-, -, operation⟩ := member.recording again
    rw [sourceReject_resets member again, if_neg again,
      resetBay_rejectBound leaveStream_changes (operation := leaveStream_operation), operation]
    simp

theorem sourceReject_apart (otherDisc : r' ≠ r) (otherBay : b' ≠ b) (absent : r' ∉ p.inkWait) :
    p.Apart b' r' (sourceReject p b) := by
  by_cases again : d.verdict = .reject
  · rw [sourceReject_again member again]
    exact ⟨rfl, ⟨rfl, absent⟩, rfl⟩
  · rw [sourceReject_resets member again]
    have bound := rejectBound_apart (b' := b') (r := r) (d := d) (why := .sourceError) otherDisc absent
    have there : (p.rejectBound r .sourceError d).occupant (.bay b) = some r :=
      (congrFun (occupant_congr (rejectBound_changes .places (by decide))) _).trans member.there
    have left := bound.trans (leaveStream_apart there otherDisc otherBay bound.spares.absent)
    exact left.trans (resetBay_apart otherBay left.spares.absent)

theorem sourceStep_apart {m : Member} (own : m.bay = b) (otherDisc : r' ≠ r) (otherBay : b' ≠ b) (absent : r' ∉ p.inkWait) :
    p.Apart b' r' (sourceStep p m) := by
  subst own
  have rejects := sourceReject_apart member otherDisc otherBay absent
  have there : (sourceReject p m.bay).occupant (.bay m.bay) = some r := by rw [rejects.occupant, member.there]
  exact rejects.trans (leaveStream_apart there otherDisc otherBay rejects.spares.absent)

end Step

/-- The orders sent for one member, told by the records before the failure (R125). -/
def Part.aborts (p : Part) (m : Member) : List Sent :=
  if ((p.occupant (.bay m.bay)).bind p.disc).any fun d => d.verdict == .reject then []
  else [.drive m.bay .abort, .drive m.bay .reset]

theorem aborts_eq {m : Member} (member : p.MemberAt m.bay r d) :
    p.aborts m = if d.verdict = .reject then [] else [.drive m.bay .abort, .drive m.bay .reset] := by
  rw [Part.aborts, member.there, Option.bind_some, member.held]
  simp

/-- ABORT and RESET are sent in the members' order (R125). -/
theorem sourceSteps_sent {ms : List Member} (distinct : (ms.map (·.bay)).Nodup)
    (members : ∀ m ∈ ms, ∃ r d, p.MemberAt m.bay r d) : (ms.foldl sourceStep p).sent = p.sent ++ ms.flatMap p.aborts := by
  induction ms generalizing p with
  | nil => simp
  | cons m ms ih =>
    obtain ⟨fresh, distinct⟩ := List.nodup_cons.mp distinct
    obtain ⟨r, d, member⟩ := members m List.mem_cons_self
    have apart : ∀ k ∈ ms, ∀ r' d', p.MemberAt k.bay r' d' → (sourceStep p m).MemberAt k.bay r' d' ∧
        (sourceStep p m).aborts k = p.aborts k := fun k mem r' d' member' => by
      have otherBay : k.bay ≠ m.bay := fun is => fresh (List.mem_map.mpr ⟨k, mem, is⟩)
      have otherDisc : r' ≠ r := fun is => by
        subst is
        obtain rfl := Option.some.inj (member'.held.symm.trans member.held)
        exact otherBay (Place.bay.inj (Option.some.inj (member'.placed.symm.trans member.placed)))
      have kept := member'.apart (sourceStep_apart member rfl otherDisc otherBay member'.unwaiting)
      exact ⟨kept, (aborts_eq kept).trans (aborts_eq member').symm⟩
    have sent : (sourceStep p m).sent = p.sent ++ p.aborts m := by
      rw [sourceStep, show (leaveStream m.bay (sourceReject p m.bay)).sent = _ from leaveStream_changes .sent (by decide),
        sourceReject_sent member, aborts_eq member]
    rw [List.foldl_cons, ih distinct fun k mem => ?_, sent, List.flatMap_cons, List.append_assoc]
    · congr 2
      refine List.flatMap_congr fun k mem => ?_
      obtain ⟨r', d', member'⟩ := members k (List.mem_cons_of_mem _ mem)
      exact (apart k mem r' d' member').2
    · obtain ⟨r', d', member'⟩ := members k (List.mem_cons_of_mem _ mem)
      exact ⟨r', d', (apart k mem r' d' member').1⟩

/-! ## The attempts -/

/-- The events that fail the attempt in flight: STORE_ERROR, and the expiry of its limit (R107, R117). -/
theorem attempt_taken {i : Instr} {now : Nat} (live : s.link.resetLow = false) (read : s.part.readOf c = some x)
    (event : i = .storeError c x.id ∧ now = s.part.now ∨ i = .storeReadLimitExpiry c ∧ now = max s.part.now x.deadline) :
    exec i s = .next (s.became (settle (failAttempt c { s.part with now := now, sent := [] }))) := by
  have read' : s.part.fresh.readOf c = some x := read
  obtain ⟨rfl, rfl⟩ | ⟨rfl, rfl⟩ := event
  · have answers : s.part.fresh.answers c x.id = true := by rw [Part.answers, read']; simp
    rw [exec_storeError, takeEvent_live live, takeStoreError, if_pos answers]
    rfl
  · rw [exec_storeReadLimitExpiry, takeEvent_live live, storeLimitExpires, read']
    rfl

section Recording
variable (channel : p.channel c = .recording st) (image : p.image st.image = some y) (read : st.read = some x)
include channel image read

theorem failAttempt_resends (again : x.attempt < 3) : failAttempt c p =
    { p.setChannel c (.recording { st with
        read := some { id := p.readCount, chunk := x.chunk, attempt := x.attempt + 1, deadline := p.now + 2000 } }) with
      readCount := p.readCount + 1
      sent := p.sent ++ [.storeRead c (y.storeAddress + 32 * x.chunk) (min 32 (y.blocks - 32 * x.chunk))] } := by
  unfold failAttempt
  rw [channel]
  dsimp only
  rw [read, image]
  dsimp only
  rw [if_pos again]
  rfl

theorem failAttempt_fails (third : 3 ≤ x.attempt) : failAttempt c p = streamFails c st x.chunk p := by
  unfold failAttempt
  rw [channel]
  dsimp only
  rw [read, image]
  dsimp only
  rw [if_neg (Nat.not_lt.mpr third)]

end Recording

section Survey
variable (channel : p.channel c = .survey v) (image : p.image v.image = some y)
include channel image

theorem failAttempt_resurveys (again : v.read.attempt < 3) : failAttempt c p =
    { p.setChannel c (.survey { v with
        read := { id := p.readCount, chunk := v.read.chunk, attempt := v.read.attempt + 1, deadline := p.now + 2000 } }) with
      readCount := p.readCount + 1
      sent := p.sent ++ [.storeRead c (y.storeAddress + 32 * v.read.chunk) (min 32 (y.blocks - 32 * v.read.chunk))] } := by
  unfold failAttempt
  rw [channel]
  dsimp only
  rw [image]
  dsimp only
  rw [if_pos again]
  rfl

theorem failAttempt_faults (third : 3 ≤ v.read.attempt) : failAttempt c p =
    { (p.setImage v.image (some { y with
        state := .faulted, surveyChannel := none, fault := some { origin := .survey, chunk := v.read.chunk } })).setChannel c
          .free with
      attn := p.attn.raise .imageFault p.now, splitReqs := p.splitReqs.filter (· != c) } := by
  unfold failAttempt
  rw [channel]
  dsimp only
  rw [image]
  dsimp only
  rw [if_neg (Nat.not_lt.mpr third), surveyFails, Part.modImage, image]
  rfl

end Survey

/-! ## A stream's failure -/

/-- The part as a stream's failure comes to its members: the image FAULTED, its jobs held for SOURCE (R24, R110). -/
def sourceFault (c : Fin 4) (st : Stream) (chunk : Nat) (p : Part) : Part :=
  (changeImageHolds st.image (fun h => { h with source := true }) (faultImage st.image chunk p)).setChannel c
    (.recording { st with read := none })

theorem sourceFault_changes (chunk : Nat) : p.Changes [.images, .attn, .jobs, .channels] (sourceFault c st chunk p) :=
  ((faultImage_changes.andThen changeImageHolds_changes).andThen setChannel_changes).widen rfl

theorem sourceFault_channel (chunk : Nat) :
    (sourceFault c st chunk p).channel c = .recording { st with read := none } := Part.setChannel_self _ _ _

theorem faultImage_ready (image : p.image st.image = some y) (ready : y.state = .ready) (chunk : Nat) :
    faultImage st.image chunk p =
      raise .imageFault (p.setImage st.image (some { y with
        state := .faulted, fault := some { origin := .stream, chunk := chunk } })) := by
  rw [faultImage, if_pos (imageReady_iff.mpr ⟨y, image, ready⟩), Part.modImage, image]
  rfl

theorem faultImage_unready (image : p.image st.image = some y) (unready : y.state ≠ .ready) (chunk : Nat) :
    faultImage st.image chunk p = p := by
  rw [faultImage, if_neg fun ready => ?_]
  obtain ⟨y', is, state⟩ := imageReady_iff.mp ready
  obtain rfl := Option.some.inj (image.symm.trans is)
  exact unready state

theorem sourceFault_image (chunk : Nat) : (sourceFault c st chunk p).image = (faultImage st.image chunk p).image := by
  have same : (sourceFault c st chunk p).images = (faultImage st.image chunk p).images :=
    (changeImageHolds_changes.andThen setChannel_changes) .images (by decide)
  funext i
  simp only [Part.image, same]

/-- Every started job of the image is held for SOURCE (R24). -/
theorem sourceFault_job (chunk : Nat) {k : Fin 16} {j : Job} (held : p.job k = some j) (image : j.image = some st.image)
    (started : j.state.started = true) : ∃ g, (sourceFault c st chunk p).job k = some g ∧ g.holds.source = true ∧
      g.state = if j.state = .running then .held else j.state := by
  have unfaulted : (faultImage st.image chunk p).job k = some j := by
    rw [job_congr (faultImage_changes .jobs (by decide)), held]
  have is := changeImageHolds_job st.image (fun h => { h with source := true }) (faultImage st.image chunk p) k
  rw [unfaulted, Option.map_some, if_pos image] at is
  have same : (sourceFault c st chunk p).job = _ := job_congr (setChannel_changes .jobs (by decide))
  refine ⟨j.holding fun h => { h with source := true }, (congrFun same k).trans is, ?_, ?_⟩
  · simp [Job.holding, started]
  · have state : (j.holding fun h => { h with source := true }).state =
        if j.state = .running ∨ j.state = .held then .held else j.state := by
      simp [Job.holding, started]
    rw [state]
    by_cases running : j.state = .running
    · rw [if_pos (.inl running), if_pos running]
    · rw [if_neg running]
      split
      case isTrue is => exact (is.resolve_left running).symm
      case isFalse => rfl

/-- What a stream's failure does to the catalogue, the jobs, the members and the channel (R110, R124, R125). -/
structure Part.SourceFails (p : Part) (c : Fin 4) (st : Stream) (y : Image) (chunk : Nat) (q : Part) : Prop where
  now : q.now = p.now
  faulted : y.state = .ready → q.image st.image = some { y with
    state := .faulted, fault := some { origin := .stream, chunk := chunk } } ∧ q.attn.isSet .imageFault = true
  stays : y.state ≠ .ready → q.image st.image = some y
  images : OthersKept p.image q.image st.image
  jobs : ∀ k j, p.job k = some j → j.image = some st.image → j.state.started = true →
    ∃ g, q.job k = some g ∧ g.holds.source = true ∧ g.state = if j.state = .running then .held else j.state
  discs : ∀ m ∈ st.members, ∀ r d, p.occupant (.bay m.bay) = some r → p.disc r = some d → d.verdict ≠ .reject →
    ∃ e, q.disc r = some e ∧ e.verdict = .reject ∧ e.reason = some .sourceError
  sent : (st.members.map (·.bay)).Nodup → (∀ m ∈ st.members, ∃ r d, p.MemberAt m.bay r d) →
    q.sent = p.sent ++ st.members.flatMap p.aborts
  bays : ∀ m ∈ st.members, (q.bay m.bay).channel = none
  channel : (∀ m ∈ st.members, (p.bay m.bay).channel = some c) → st.members ≠ [] → q.channel c = .free

theorem streamFails_fails (image : p.image st.image = some y) (chunk : Nat) :
    p.SourceFails c st y chunk (streamFails c st chunk p) := by
  have faults := sourceFault_changes (c := c) (st := st) (p := p) chunk
  have is : streamFails c st chunk p = st.members.foldl sourceStep (sourceFault c st chunk p) := rfl
  have steps := sourceSteps_changes (p := sourceFault c st chunk p) st.members
  have images : (streamFails c st chunk p).image = (faultImage st.image chunk p).image := by
    rw [← sourceFault_image (c := c) chunk]
    funext i
    simp only [Part.image, is, show (st.members.foldl sourceStep (sourceFault c st chunk p)).images = _ from
      steps .images (by decide)]
  have occupant := occupant_congr (faults .places (by decide))
  have disc := disc_congr (faults .discs (by decide))
  have bay := bay_congr (faults .bays (by decide))
  have at_ : ∀ b r d, p.MemberAt b r d → (sourceFault c st chunk p).MemberAt b r d := fun b r d member =>
    member.apart (faults.apart member.unwaiting)
  rw [is] at images ⊢
  refine ⟨(steps .now (by decide)).trans (faults .now (by decide)), fun ready => ⟨?_, ?_⟩, fun unready => ?_,
    fun i other => ?_, fun k j held named started => ?_, fun m mem r d there held first => ?_, fun distinct members => ?_,
    fun m mem => sourceSteps_clear mem, fun named some' => ?_⟩
  · rw [images, faultImage_ready image ready]
    exact Part.setImage_self _ _ _
  · refine sourceSteps_grows st.members .imageFault ?_
    rw [show (sourceFault c st chunk p).attn = (faultImage st.image chunk p).attn from
      (changeImageHolds_changes.andThen setChannel_changes) .attn (by decide), faultImage_ready image ready]
    exact (Attention.isSet_raise _ _ _ _).trans (by simp)
  · rw [images, faultImage_unready image unready, image]
  · rw [images]
    by_cases ready : y.state = .ready
    · rw [faultImage_ready image ready]
      exact Part.setImage_other _ _ _ _ other
    · rw [faultImage_unready image ready]
  · obtain ⟨g, held', source, state⟩ := sourceFault_job (c := c) chunk held named started
    have stopped : g.state ≠ .running := by
      rw [state]
      split
      · decide
      · assumption
    obtain ⟨g', held'', source', state'⟩ := (sourceSteps_steady (c := c) (l := []) st.members).jobs k g held' source stopped
    exact ⟨g', held'', source', state'.trans state⟩
  · exact sourceSteps_sourced mem (by rw [occupant, there]) (by rw [disc, held]) first
  · have sent := sourceSteps_sent (p := sourceFault c st chunk p) distinct fun m mem => by
      obtain ⟨r, d, member⟩ := members m mem
      exact ⟨r, d, at_ _ _ _ member⟩
    have same : (sourceFault c st chunk p).aborts = p.aborts := by
      funext m
      rw [Part.aborts, occupant, disc, Part.aborts]
    rw [same, show (sourceFault c st chunk p).sent = p.sent from faults .sent (by decide)] at sent
    exact sent
  · exact sourceSteps_free (st := { st with read := none }) (sourceFault_channel chunk) some' fun m mem => by rw [bay, named m mem]

/-- Settles O54: the STORE READ sent again, a stream's failure, a survey's, and the end of a join period. -/
theorem storeFailures : Obligations.StoreFailures := by
  intro s c x i now live
  refine ⟨fun read event => ?_, fun st stream running => ?_⟩
  · intro again resent
    have taken := attempt_taken live read event
    have result : ∀ {q}, failAttempt c { s.part with now := now, sent := [] } = q → exec i s = .next (s.became (settle q)) :=
      fun {q} is => by rw [taken, is]
    refine ⟨fun st y channel image => ?_, fun v y channel image => ?_⟩
    · have own : st.read = some x := by simpa [Part.readOf, channel] using read
      refine ⟨fun more => result (failAttempt_resends (p := { s.part with now := now, sent := [] }) channel image own more),
        fun third => ?_⟩
      have fails := streamFails_fails (p := { s.part with now := now, sent := [] }) (c := c) (st := st) image x.chunk
      refine ⟨_, result (failAttempt_fails (p := { s.part with now := now, sent := [] }) channel image own third),
        fails.now, fails.faulted, fails.stays, fails.images, fails.jobs, fails.discs, fun distinct members => ?_,
        fun named => ⟨fails.bays, fails.channel named⟩⟩
      refine (fails.sent distinct fun m mem => ?_).trans (List.nil_append _)
      obtain ⟨r, d, there, held, placed, unwaiting, recording⟩ := members m mem
      exact ⟨r, d, there, held, placed, unwaiting, recording⟩
    · have own : v.read = x := by simpa [Part.readOf, channel] using read
      subst own
      exact ⟨fun more => result (failAttempt_resurveys (p := { s.part with now := now, sent := [] }) channel image more),
        fun third => result (failAttempt_faults (p := { s.part with now := now, sent := [] }) channel image third)⟩
  · have stream' : s.part.fresh.stream c = some st := stream
    rw [exec_joinPeriodEnd, takeEvent_live live, joinEnds, stream']
    dsimp only
    rw [if_neg (by simp [running])]
    rfl

end Sys2Proof.Machine
end

