-- ==== Sys2Proof/Proofs/InkWaiting.lean ====
section
/-! PROOF. Ink for the labels: one attempt, the retry pass, a release, a disc entering the label unit, the INK
reason and the short set (R24, R148, R150 to R153, R160). -/

namespace Sys2Proof.Machine

-- One proof after another: side by side, their threads' stacks pass the check's memory limit.
set_option Elab.async false

variable {p q w : Part} {r : Fin 24} {x : Fin 16} {d : Disc} {j : Job} {n : Fin 8} {t : Template}

/-! ## The four channels at once -/

/-- A change of the four channels, each by its number, is one write of the ink. -/
theorem eachInk_eq (f : Fin 4 → InkChannel → InkChannel) (p : Part) :
    eachInk f p = { p with ink := Vector.ofFn fun k => f k (p.inkChannel k) } := by
  have written : ((((p.ink.set 0 (f 0 (p.inkChannel 0))).set 1 (f 1 (p.inkChannel 1))).set 2 (f 2 (p.inkChannel 2))).set 3
      (f 3 (p.inkChannel 3))) = Vector.ofFn fun k => f k (p.inkChannel k) := by
    ext i hi
    have : i = 0 ∨ i = 1 ∨ i = 2 ∨ i = 3 := by omega
    obtain rfl | rfl | rfl | rfl := this <;> simp
  simp only [eachInk, allInks, List.foldl_cons, List.foldl_nil, Part.setInk, Part.inkChannel] at written ⊢
  simpa using written

theorem eachInk_channel (f : Fin 4 → InkChannel → InkChannel) (k : Fin 4) :
    (eachInk f p).inkChannel k = f k (p.inkChannel k) := by
  rw [eachInk_eq]
  simp [Part.inkChannel]

theorem needs_get (k : Fin 4) : (p.needs t)[k.val] = p.need t k := by
  fin_cases k <;> rfl

/-! ## The INK reason of a job -/

theorem testInkHold_waits (waits : ∃ r ∈ p.inkWait, (p.disc r).bind (·.job) = some x) : testInkHold x p = p := by
  obtain ⟨r, mem, names⟩ := waits
  rw [testInkHold, if_pos (List.any_eq_true.2 ⟨r, mem, by simp [names]⟩)]

theorem testInkHold_clears (none : ∀ r ∈ p.inkWait, (p.disc r).bind (·.job) ≠ some x) :
    testInkHold x p = changeHolds x (fun h => { h with ink := false }) p := by
  rw [testInkHold, if_neg]
  intro some
  obtain ⟨r, mem, names⟩ := List.any_eq_true.1 some
  exact none r mem (by simpa using names)

/-- The INK reason of a job follows the list, the waiting records' jobs and the jobs alone (R24). -/
theorem testInkHold_jobs (jobs : q.jobs = p.jobs) (list : q.inkWait = p.inkWait)
    (names : ∀ k, (q.disc k).bind (·.job) = (p.disc k).bind (·.job)) :
    (testInkHold x q).jobs = (testInkHold x p).jobs := by
  by_cases waits : ∃ r ∈ p.inkWait, (p.disc r).bind (·.job) = some x
  · rw [testInkHold_waits waits, testInkHold_waits (by simpa only [list, names] using waits), jobs]
  · have none : ∀ r ∈ p.inkWait, (p.disc r).bind (·.job) ≠ some x := fun r mem named => waits ⟨r, mem, named⟩
    rw [testInkHold_clears none, testInkHold_clears (by simpa only [list, names] using none)]
    simp only [changeHolds_eq, Part.setJob, Part.job, jobs]

theorem leaveInkWait_waiting (waits : r ∈ p.inkWait) (named : (p.disc r).bind (·.job) = some x) :
    leaveInkWait r p = testInkHold x { p with inkWait := p.inkWait.filter (· != r) } := by
  have here : p.inkWait.contains r = true := by simpa using waits
  rw [leaveInkWait, if_pos here]
  dsimp only
  rw [show (Part.disc { p with inkWait := p.inkWait.filter (· != r) } r).bind (·.job) = some x from named]

theorem leaveInkWait_list : (leaveInkWait r p).inkWait = p.inkWait.filter (· != r) := by
  by_cases waits : r ∈ p.inkWait
  · have here : p.inkWait.contains r = true := by simpa using waits
    rw [leaveInkWait, if_pos here]
    dsimp only
    split
    · exact testInkHold_changes .inkWait (by decide)
    · rfl
  · rw [leaveInkWait_absent waits, List.filter_eq_self.2]
    exact fun k mem => by simpa using fun same : k = r => waits (same ▸ mem)

/-! ## One attempt -/

theorem templateOf_held (held : p.disc r = some d) (named : d.job = some x) (job : p.job x = some j)
    (uses : j.template = some n) (template : p.template n = some t) : p.templateOf r = some t := by
  simp [Part.templateOf, jobOf_held held named job, uses, template]

theorem attemptReservation_refused (template : p.templateOf r = some t) (refused : p.admits t = false) :
    attemptReservation r p = p := by
  simp [attemptReservation, template, refused]

theorem attemptReservation_admitted (template : p.templateOf r = some t) (admitted : p.admits t = true) :
    attemptReservation r p = setStage r .printQueued { leaveInkWait r (reserve r (p.needs t) p) with
      printQueue := (leaveInkWait r (reserve r (p.needs t) p)).printQueue ++ [r] } := by
  simp [attemptReservation, template, admitted]

/-- The needs taken and written into the record (R150). -/
theorem reserve_held (held : p.disc r = some d) (v : Vector Nat 4) :
    reserve r v p = { p with
      ink := Vector.ofFn fun k => { p.inkChannel k with reserved := (p.inkChannel k).reserved + v[k.val] } }.setDisc r
        (some { d with reservation := some v }) := by
  unfold reserve
  rw [eachInk_eq]
  exact modDisc_held (p := { p with ink := Vector.ofFn fun k => { p.inkChannel k with
    reserved := (p.inkChannel k).reserved + v[k.val] } }) held _

theorem reserve_names (held : p.disc r = some d) (v : Vector Nat 4) (k : Fin 24) :
    ((reserve r v p).disc k).bind (·.job) = (p.disc k).bind (·.job) := by
  rw [reserve_held held]
  by_cases same : k = r
  · subst same
    rw [Part.setDisc_self, held]
    rfl
  · rw [Part.setDisc_other _ _ _ _ same]
    rfl

/-- What an attempt that is admitted leaves (R24, R150, R151, R153). -/
theorem attempt_admitted (held : p.disc r = some d) (named : d.job = some x) (template : p.templateOf r = some t)
    (admitted : p.admits t = true) :
    p.Changes [.ink, .discs, .inkWait, .jobs, .printQueue] (attemptReservation r p) ∧
    (∀ k, (attemptReservation r p).inkChannel k = { p.inkChannel k with
      reserved := (p.inkChannel k).reserved + p.need t k }) ∧
    (attemptReservation r p).disc r = some ({ d with reservation := some (p.needs t) }.atStage .printQueued) ∧
    OthersKept p.disc (attemptReservation r p).disc r ∧
    (attemptReservation r p).inkWait = p.inkWait.filter (· != r) ∧
    (attemptReservation r p).printQueue = p.printQueue ++ [r] ∧
    (attemptReservation r p).jobs =
      (if r ∈ p.inkWait then testInkHold x { p with inkWait := p.inkWait.filter (· != r) } else p).jobs := by
  have taken := attemptReservation_admitted template admitted
  have reserved := reserve_held held (p.needs t)
  generalize is : reserve r (p.needs t) p = u at taken
  rw [is] at reserved
  have heldThen : u.disc r = some { d with reservation := some (p.needs t) } := by
    rw [reserved, Part.setDisc_self]
  have heldLeft : (leaveInkWait r u).disc r = some { d with reservation := some (p.needs t) } :=
    leaveInkWait_disc.trans heldThen
  have left : u.Changes [.inkWait, .jobs] (leaveInkWait r u) := leaveInkWait_changes
  have staged : attemptReservation r p = { leaveInkWait r u with
      printQueue := (leaveInkWait r u).printQueue ++ [r] }.setDisc r
        (some ({ d with reservation := some (p.needs t) }.atStage .printQueued)) :=
    taken.trans (setStage_held (p := { leaveInkWait r u with printQueue := (leaveInkWait r u).printQueue ++ [r] }) heldLeft _)
  refine ⟨attemptReservation_changes.mono (by decide), fun k => ?_, ?_, fun k other => ?_, ?_, ?_, ?_⟩
  · have ink : (attemptReservation r p).ink = u.ink := by
      rw [staged]
      exact left .ink (by decide)
    have needed := needs_get (p := p) (t := t) k
    simp only [Part.inkChannel, ink, reserved, Part.setDisc, Vector.getElem_ofFn, needed]
  · rw [staged, Part.setDisc_self]
  · rw [staged, Part.setDisc_other _ _ _ _ other]
    have discs : (leaveInkWait r u).disc k = u.disc k := leaveInkWait_disc
    refine discs.trans ?_
    rw [reserved, Part.setDisc_other _ _ _ _ other]
    rfl
  · rw [staged]
    refine leaveInkWait_list.trans ?_
    rw [reserved]
    rfl
  · rw [staged]
    refine congrArg (· ++ [r]) (Eq.trans (left .printQueue (by decide)) ?_)
    rw [reserved]
    rfl
  · rw [staged]
    have list : u.inkWait = p.inkWait := by
      rw [reserved]
      rfl
    have jobs : u.jobs = p.jobs := by
      rw [reserved]
      rfl
    show (leaveInkWait r u).jobs = _
    by_cases waits : r ∈ p.inkWait
    · rw [leaveInkWait_waiting (list ▸ waits) (by rw [heldThen]; exact named), if_pos waits, list]
      refine testInkHold_jobs jobs rfl fun k => ?_
      have same := reserve_names held (p.needs t) k
      rw [is] at same
      exact same
    · rw [leaveInkWait_absent (list ▸ waits), if_neg waits, jobs]

/-! ## A disc enters the label unit -/

/-- The disc in AWAIT_INK at the tail of the ink-wait list (R151). -/
def Part.awaiting (p : Part) (r : Fin 24) (d : Disc) : Part :=
  { p.setDisc r (some { d with stage := .awaitInk }) with inkWait := p.inkWait ++ [r] }

theorem awaiting_disc : (p.awaiting r d).disc r = some { d with stage := .awaitInk } := Part.setDisc_self _ _ _

theorem awaiting_jobOf (named : d.job = some x) (job : p.job x = some j) : (p.awaiting r d).jobOf r = some j :=
  jobOf_held awaiting_disc named job

theorem awaiting_stageOf : (p.awaiting r d).stageOf r = some .awaitInk := by
  rw [Part.stageOf, awaiting_disc]
  rfl

theorem awaiting_names (named : d.job = some x) : ((p.awaiting r d).disc r).bind (·.job) = some x := by
  rw [awaiting_disc]
  exact named

theorem awaiting_templateOf (named : d.job = some x) (job : p.job x = some j) (uses : j.template = some n)
    (template : p.template n = some t) : (p.awaiting r d).templateOf r = some t :=
  templateOf_held awaiting_disc named job uses template

theorem enterLabelUnit_eq (held : p.disc r = some d) (active : d.stage.active = true) (unbound : d.stage ≠ .rejectBound) :
    enterLabelUnit r p =
      let q := attemptReservation r (p.awaiting r d)
      if q.stageOf r = some .awaitInk then
        match (q.disc r).bind (·.job), (q.jobOf r).bind (·.inkPolicy) with
        | some _, some .unlabelled =>
          (leaveInkWait r q).modDisc r fun d => { d with unlabelled := true }.atStage .outbound
        | some x, _ => raise .inkShort (changeHolds x (fun h => { h with ink := true }) q)
        | none, _ => q
      else q := by
  have waits : setStage r .awaitInk { p with inkWait := p.inkWait ++ [r] } = p.awaiting r d := by
    rw [setStage_held (p := { p with inkWait := p.inkWait ++ [r] }) held, atStage_active active unbound]
    rfl
  rw [← waits]
  unfold enterLabelUnit
  rfl

theorem enterLabelUnit_admitted (held : p.disc r = some d) (active : d.stage.active = true)
    (unbound : d.stage ≠ .rejectBound) (named : d.job = some x) (job : p.job x = some j) (uses : j.template = some n)
    (template : p.template n = some t) (admitted : p.admits t = true) :
    enterLabelUnit r p = attemptReservation r (p.awaiting r d) := by
  obtain ⟨-, -, queued, -⟩ := attempt_admitted awaiting_disc named
    (awaiting_templateOf (r := r) named job uses template) admitted
  rw [enterLabelUnit_eq held active unbound]
  dsimp only
  rw [if_neg]
  simp [Part.stageOf, queued, Disc.atStage, Stage.accepts]

theorem enterLabelUnit_waits (held : p.disc r = some d) (active : d.stage.active = true)
    (unbound : d.stage ≠ .rejectBound) (named : d.job = some x) (job : p.job x = some j) (uses : j.template = some n)
    (template : p.template n = some t) (refused : p.admits t = false) (policy : j.inkPolicy = some .wait) :
    enterLabelUnit r p = { changeHolds x (fun h => { h with ink := true }) (p.awaiting r d) with
      attn := p.attn.raise .inkShort p.now } := by
  have stays : attemptReservation r (p.awaiting r d) = p.awaiting r d :=
    attemptReservation_refused (awaiting_templateOf (r := r) named job uses template) refused
  have jobOf : (p.awaiting r d).jobOf r = some j := awaiting_jobOf named job
  rw [enterLabelUnit_eq held active unbound, stays]
  simp only [awaiting_stageOf, awaiting_names named, jobOf, policy, Option.bind_some, if_true, changeHolds_eq]
  rfl

theorem enterLabelUnit_unlabelled (held : p.disc r = some d) (active : d.stage.active = true)
    (unbound : d.stage ≠ .rejectBound) (named : d.job = some x) (job : p.job x = some j) (uses : j.template = some n)
    (template : p.template n = some t) (refused : p.admits t = false) (policy : j.inkPolicy = some .unlabelled) :
    enterLabelUnit r p =
      (testInkHold x { p.awaiting r d with inkWait := p.inkWait.filter (· != r) }).setDisc r (some { d with
        unlabelled := true, stage := .outbound }) := by
  have stays : attemptReservation r (p.awaiting r d) = p.awaiting r d :=
    attemptReservation_refused (awaiting_templateOf (r := r) named job uses template) refused
  have jobOf : (p.awaiting r d).jobOf r = some j := awaiting_jobOf named job
  have left : leaveInkWait r (p.awaiting r d) =
      testInkHold x { p.awaiting r d with inkWait := p.inkWait.filter (· != r) } := by
    rw [leaveInkWait_waiting (x := x) (by simp [Part.awaiting]) (awaiting_names named)]
    simp [Part.awaiting]
  have heldThen : (testInkHold x { p.awaiting r d with inkWait := p.inkWait.filter (· != r) }).disc r =
      some { d with stage := .awaitInk } := by
    rw [← left]
    exact leaveInkWait_disc.trans awaiting_disc
  rw [enterLabelUnit_eq held active unbound, stays]
  simp only [awaiting_stageOf, awaiting_names named, jobOf, policy, Option.bind_some, if_true, left]
  exact modDisc_held heldThen _

/-! ## A release, and leaving the label unit -/

theorem unreserve_held {v : Vector Nat 4} (held : p.disc r = some d) (reserved : d.reservation = some v) :
    unreserve r p = { p.setDisc r (some { d with reservation := none }) with
      ink := Vector.ofFn fun k => { p.inkChannel k with reserved := (p.inkChannel k).reserved - v[k.val] } } := by
  unfold unreserve
  simp only [held, reserved, eachInk_eq]
  exact modDisc_held (p := { p with ink := Vector.ofFn fun k => _ }) held _

theorem release_reserved {v : Vector Nat 4} (held : p.disc r = some d) (reserved : d.reservation = some v) :
    release r p = retryPass { p.setDisc r (some { d with reservation := none }) with
      ink := Vector.ofFn fun k => { p.inkChannel k with reserved := (p.inkChannel k).reserved - v[k.val] } } := by
  rw [release_held (reserves_iff.2 ⟨d, v, held, reserved⟩), unreserve_held held reserved]

theorem release_unreserved (held : p.disc r = some d) (without : d.reservation = none) : release r p = p := by
  rw [release, if_neg]
  simp [Part.reserves, held, without]

theorem testInkHold_unqueued (l : List (Fin 24)) :
    { testInkHold x p with printQueue := l } = testInkHold x { p with printQueue := l } := by
  by_cases waits : ∃ r ∈ p.inkWait, (p.disc r).bind (·.job) = some x
  · rw [testInkHold_waits waits, testInkHold_waits (p := { p with printQueue := l }) waits]
  · have none : ∀ r ∈ p.inkWait, (p.disc r).bind (·.job) ≠ some x := fun r mem named => waits ⟨r, mem, named⟩
    rw [testInkHold_clears none, testInkHold_clears (p := { p with printQueue := l }) none, changeHolds_eq, changeHolds_eq]
    rfl

theorem leaveLabelUnit_unlisted (unlisted : r ∉ p.inkWait) :
    leaveLabelUnit r p = release r { p with printQueue := p.printQueue.filter (· != r) } := by
  rw [leaveLabelUnit, leaveInkWait_absent unlisted]
  rfl

theorem leaveLabelUnit_listed (held : p.disc r = some d) (listed : r ∈ p.inkWait) (named : d.job = some x) :
    leaveLabelUnit r p = release r (testInkHold x { p with
      inkWait := p.inkWait.filter (· != r), printQueue := p.printQueue.filter (· != r) }) := by
  have queue : (testInkHold x { p with inkWait := p.inkWait.filter (· != r) }).printQueue = p.printQueue :=
    testInkHold_changes .printQueue (by decide)
  rw [leaveLabelUnit, leaveInkWait_waiting listed (by rw [held]; exact named), leavePrintQueue, queue, testInkHold_unqueued]

/-! ## The short set -/

theorem forecastJob_resting (job : p.job x = some j) (still : j.state ≠ .running) : forecastJob x p = p := by
  unfold forecastJob
  rw [job]
  dsimp only
  cases j.template.bind p.template with
  | none => rfl
  | some t => exact if_neg still

/-- The forecast of a RUNNING job, against its remaining labels (R160). -/
theorem forecastJob_running (job : p.job x = some j) (runs : j.state = .running) (uses : j.template = some n)
    (template : p.template n = some t) :
    forecastJob x p =
      if x ∈ p.shortSet then
        if j.ordered - j.delivered ≤ p.forecast t then { p with shortSet := p.shortSet.filter (· != x) } else p
      else if p.forecast t < j.ordered - j.delivered then { p with
        shortSet := p.shortSet ++ [x], attn := p.attn.raise .inkShort p.now }
      else p := by
  unfold forecastJob
  simp only [job, uses, template, Option.bind_some, if_pos runs, List.contains_iff_mem, raise]

/-- Settles O42: by the attempt's outcome, the disc's place in the lists and its reservation, the waiting records' jobs,
and the short set's membership. -/
theorem inkWaiting : Obligations.InkWaiting := by
  refine ⟨?_, fun _ => rfl, ?_, fun p x => ⟨testInkHold_waits, testInkHold_clears⟩, ?_⟩
  · intro p r d x j n t held named job uses template
    have its := templateOf_held held named job uses template
    exact ⟨attemptReservation_refused its, fun admitted => ⟨_, rfl, attempt_admitted held named its admitted⟩,
      fun active unbound => ⟨enterLabelUnit_admitted held active unbound named job uses template,
        enterLabelUnit_waits held active unbound named job uses template,
        enterLabelUnit_unlabelled held active unbound named job uses template⟩⟩
  · intro p r d held
    exact ⟨release_unreserved held, fun _ => release_reserved held, leaveLabelUnit_unlisted,
      fun x listed => leaveLabelUnit_listed held listed⟩
  · intro p x j job
    refine ⟨forecastJob_resting job, fun n t runs uses template => ?_⟩
    intro left
    rw [forecastJob_running job runs uses template]
    refine ⟨fun outside short => ?_, fun inside enough => ?_, fun agrees => ?_⟩
    · rw [if_neg outside, if_pos short]
    · rw [if_pos inside, if_pos enough]
    · by_cases inside : x ∈ p.shortSet
      · rw [if_pos inside, if_neg (by have := agrees.1 inside; omega)]
      · rw [if_neg inside, if_neg (mt agrees.2 inside)]

end Sys2Proof.Machine
end

