-- ==== Sys2Proof/Proofs/Labels.lean ====
section
/-! PROOF. The label order, and how a label ends (R145, R146, R148, R152, R155 to R157, R166). -/

namespace Sys2Proof.Machine

-- One proof after another: side by side, their threads' stacks pass the check's memory limit.
set_option Elab.async false

variable {p q u : Part} {s : State} {r : Fin 24} {d : Disc} {x : Fin 16} {j : Job} {n : Fin 8} {t : Template}
  {v held : Vector Nat 4} {failed : Bool} {cause : Option StationFault}

/-! ## The label order -/

theorem labelPossible_iff : p.labelPossible = true ↔ p.station.state = .loaded ∧ p.station.gateOpen = true ∧
    (p.tower.state = .running ∨ p.tower.state = .stopping ∨ p.tower.state = .paused ∨ p.tower.state = .halted) ∧
    p.station.labelDeadline = none ∧ p.station.queryDeadline = none := by
  simp [Part.labelPossible, working_iff, and_assoc]

theorem labelOrder_sends (can : p.labelPossible = true) (there : p.occupant .printer = some r) (held : p.disc r = some d)
    (unrejected : d.verdict ≠ .reject) (named : d.job = some x) (job : p.job x = some j) (uses : j.template = some n)
    (template : p.template n = some t) : labelOrder p = orderLabel r x j t p := by
  have kept : p.isReject r = false := Bool.eq_false_iff.mpr (mt (isReject_iff held).1 unrejected)
  have names : (p.disc r).bind (·.job) = some x := by rw [held]; exact named
  rw [labelOrder, if_pos can]
  simp only [there, kept, names, jobOf_held held named job, templateOf_held held named job uses template]
  rfl

/-- A label of a job without serials (R155). -/
theorem orderLabel_plain (held : p.disc r = some d) (job : p.job x = some j) (plain : j.serials = none) :
    orderLabel r x j t p = { p with
      station := { p.station with state := .printing, faultCause := none, labelDeadline := some (p.now + 120000) }
      sent := p.sent ++ [Sent.label
        { inner := t.inner, outer := t.outer, quality := t.quality, coverage := t.coverage
          job := x.val + 1, serial := none }] } := by
  have disc : p.modDisc r (fun d => { d with serial := d.serial }) = p := (modDisc_held held _).trans (setDisc_same held)
  have unissued (digits : Nat) : { j with serials := j.serials.map (·.issue digits) } = j := by
    have none : j.serials.map (·.issue digits) = j.serials := by rw [plain, Option.map_none]
    rw [none]
  have kept (digits : Nat) : p.modJob x (fun j => { j with serials := j.serials.map (·.issue digits) }) = p := by
    rw [modJob_held job, unissued, setJob_same job]
  unfold orderLabel
  simp only [plain, Option.map_none, disc, kept]
  rfl

/-- A label of a job with serials issues the next (R145, R155). -/
theorem orderLabel_serial {z : Serials} {digits : Nat} (held : p.disc r = some d) (job : p.job x = some j)
    (serials : j.serials = some z) (wide : j.serialDigits = some digits) :
    orderLabel r x j t p = { (p.setDisc r (some { d with serial := some z.next })).setJob x (some { j with
        serials := some { z with
          issued := z.issued + 1, next := (z.first + z.step * (z.issued + 1)) % 10 ^ digits } }) with
      station := { p.station with state := .printing, faultCause := none, labelDeadline := some (p.now + 120000) }
      sent := p.sent ++ [Sent.label
        { inner := t.inner, outer := t.outer, quality := t.quality, coverage := t.coverage
          job := x.val + 1, serial := some (decimalDigits digits z.next) }] } := by
  have issued := modJob_held (p := p.setDisc r (some { d with serial := some z.next })) job
    fun j => { j with serials := j.serials.map (·.issue digits) }
  unfold orderLabel
  simp only [serials, wide, Option.map_some, Option.getD_some, modDisc_held held, Serials.issue] at issued ⊢
  rw [issued]
  rfl

/-! ## The settlement of the ink -/

/-- A label's reservation is gone, and the ink it took is off the levels (R148, R156). -/
def Part.charged (p : Part) (r : Fin 24) (d : Disc) (held actual : Vector Nat 4) : Part :=
  { p.setDisc r (some { d with reservation := none }) with
    ink := Vector.ofFn fun k => { p.inkChannel k with
      reserved := (p.inkChannel k).reserved - held[k.val]
      level := (p.inkChannel k).level - actual[k.val] } }

theorem charged_disc {w : Vector Nat 4} : (p.charged r d v w).disc r = some { d with reservation := none } :=
  Part.setDisc_self _ _ _

theorem charged_channel {w : Vector Nat 4} (k : Fin 4) : (p.charged r d v w).inkChannel k = { p.inkChannel k with
    reserved := (p.inkChannel k).reserved - v[k.val]
    level := (p.inkChannel k).level - w[k.val] } := by
  simp [Part.charged, Part.inkChannel]

theorem settleInk_held (held : p.disc r = some d) (reserved : d.reservation = some v) (actual : Vector Nat 4) :
    settleInk r actual p = retryPass (raiseInkLow p (p.charged r d v actual)) := by
  rw [settleInk, unreserve_held held reserved, eachInk_eq]
  simp only [Part.inkChannel, Vector.getElem_ofFn]
  rfl

theorem attemptReservation_setup : p.SameSetup (attemptReservation r p) := by
  unfold attemptReservation
  split
  · exact .refl p
  · split
    · exact .after modDisc_changes.setup <| .after printQueue_changes.setup <| .after leaveInkWait_changes.setup reserve_setup
    · exact .refl p

/-- A retry pass reserves and releases; the levels and the floors stay (R148, R152). -/
theorem retryPass_setup : p.SameSetup (retryPass p) := .fold (fun _ _ => attemptReservation_setup) _ _

theorem low_iff {c : InkChannel} : c.low = true ↔ c.level < c.floor := by simp [InkChannel.low]

theorem low_false_iff {c : InkChannel} : c.low = false ↔ c.floor ≤ c.level := by simp [InkChannel.low]

theorem raiseInkLow_isSet (f : Flag) : (raiseInkLow p q).attn.isSet f = (q.attn.isSet f ||
    (allInks.any fun k => (q.inkChannel k).low && !(p.inkChannel k).low) && decide (f = .inkLow)) := by
  rw [raiseInkLow, raiseIf_eq]
  cases allInks.any fun k => (q.inkChannel k).low && !(p.inkChannel k).low <;> simp

/-- What orders the records hold (R7). -/
theorem eligibleRanks_same (same : ∀ k, (q.disc k).bind (·.eligible) = (p.disc k).bind (·.eligible)) :
    q.eligibleRanks = p.eligibleRanks := by
  have each : q.discs.map (fun d => d.bind (·.eligible)) = p.discs.map (fun d => d.bind (·.eligible)) :=
    Vector.ext fun i lt => by simpa [Part.disc] using same ⟨i, lt⟩
  have lists := congrArg (fun l => l.toList.filterMap id) each
  simpa only [Part.eligibleRanks, Vector.toList_map, List.filterMap_map, Function.comp_def, id] using lists

theorem modDisc_eligible {k : Fin 24} {f : Disc → Disc} (keeps : ∀ d, (f d).eligible = d.eligible) :
    ((p.modDisc r f).disc k).bind (·.eligible) = (p.disc k).bind (·.eligible) := by
  by_cases same : k = r
  · subst same
    rw [Part.modDisc, Part.setDisc_self]
    cases p.disc k with
    | none => rfl
    | some d => exact keeps d
  · rw [Part.modDisc, Part.setDisc_other _ _ _ _ same]

theorem attemptReservation_eligible {k : Fin 24} :
    ((attemptReservation r p).disc k).bind (·.eligible) = (p.disc k).bind (·.eligible) := by
  unfold attemptReservation
  split
  · rfl
  case h_2 t _ =>
    split
    · dsimp only
      rw [setStage, modDisc_eligible fun d => by rw [Disc.atStage_eq]]
      have left : (leaveInkWait r (reserve r (p.needs t) p)).disc k = (reserve r (p.needs t) p).disc k := leaveInkWait_disc
      refine (congrArg (·.bind (·.eligible)) left).trans ?_
      refine (modDisc_eligible (f := fun d => { d with reservation := some (p.needs t) }) fun _ => rfl).trans ?_
      rw [disc_congr (eachInk_changes .discs (by decide))]
    · rfl

/-- A retry pass gives no orders and takes none (R7, R152). -/
theorem retryPass_ranks : (retryPass p).eligibleRanks = p.eligibleRanks := by
  refine eligibleRanks_same fun k => ?_
  unfold retryPass
  generalize p.inkWait = l
  induction l generalizing p with
  | nil => rfl
  | cons i l ih => exact ih.trans attemptReservation_eligible

/-! ## The disc, the station and the QUERY owed -/

/-- The record after its label has ended (R156). -/
def Disc.labelled (d : Disc) (failed : Bool) : Disc :=
  { d with
    stage := if failed || decide (d.verdict = .reject) then .rejectBound else .outbound
    verdict := if failed || decide (d.verdict = .reject) then .reject else .good
    reason := if failed && !decide (d.verdict = .reject) then some .printFailed else d.reason }

/-- DISC_REJECTED is raised for a label that fails on a disc not yet rejected (R4, R156). -/
def Part.labelFlags (p : Part) (d : Disc) (failed : Bool) : Attention :=
  if failed && !decide (d.verdict = .reject) then p.attn.raise .discRejected p.now else p.attn

/-- The part with the label's disc judged (R156). -/
def Part.judged (p : Part) (r : Fin 24) (d : Disc) (failed : Bool) : Part :=
  { p.setDisc r (some (d.labelled failed)) with attn := p.labelFlags d failed }

theorem judged_disc : (p.judged r d failed).disc r = some (d.labelled failed) := Part.setDisc_self _ _ _

theorem labelled_unheld : (d.labelled failed).stage ≠ .hostHold := by
  unfold Disc.labelled
  dsimp only
  split <;> simp

theorem labelledDisc_held (held : p.disc r = some d) (printing : d.stage = .printing) :
    labelledDisc r failed p = p.judged r d failed := by
  unfold labelledDisc Part.judged
  by_cases bad : d.verdict = .reject
  · rw [if_pos ((isReject_iff held).2 bad), setStage_held held, atStage_active (by rw [printing]; rfl) (by simp [printing])]
    have disc : d.labelled failed = { d with stage := .rejectBound } := by simp [Disc.labelled, bad]
    have flags : p.labelFlags d failed = p.attn := by simp [Part.labelFlags, bad]
    rw [disc, flags]
    rfl
  · rw [if_neg (mt (isReject_iff held).1 bad)]
    cases failed with
    | true =>
      have first := writeReject_firstReject held bad .printFailed
      rw [if_pos rfl, first, setStage_held firstReject_disc,
        atStage_active (by dsimp only; rw [printing]; rfl) (by simp [printing])]
      simp [Disc.labelled, Part.labelFlags, bad]
      exact congrArg (fun q : Part => { q with attn := p.attn.raise .discRejected p.now }) (setDisc_setDisc _ _)
    | false =>
      have good : (p.setDisc r (some { d with verdict := .good })).disc r = some { d with verdict := .good } :=
        Part.setDisc_self _ _ _
      rw [if_neg Bool.false_ne_true, writeGood_pending held bad, setStage_held good,
        atStage_active (by dsimp only; rw [printing]; rfl) (by simp [printing]), setDisc_setDisc]
      simp [Disc.labelled, Part.labelFlags, bad]
      rfl

/-- The station after a label (R156, R157). -/
def Station.labelled (st : Station) (cause : Option StationFault) : Station :=
  { st with state := if cause = none then .finished else .fault, faultCause := cause }

theorem endLabel_held (there : p.occupant .printer = some r)
    (labelled : labelledDisc r failed (settleInk r v { p with station := { p.station with labelDeadline := none } }) = q)
    (held : q.disc r = some d) (unheld : d.stage ≠ .hostHold) : endLabel v failed cause p =
      payQuery { q.setDisc r (some { d with eligible := some (q.order d) }) with
        station := q.station.labelled cause } := by
  unfold endLabel
  extract_lets station q₁ q₂
  have there₁ : q₁.occupant .printer = some r := there
  have ended : q₂ = q := by
    rw [← labelled]
    simp only [q₂, there₁]
    rfl
  have ends : q.occupant .printer = some r := by
    have changes : q₁.Changes _ q := labelled ▸ settleInk_changes.andThen labelledDisc_changes
    rw [occupant_congr (changes .places (by decide)), there₁]
  clear_value q₂
  subst ended
  refine congrArg payQuery ?_
  cases cause with
  | none => exact (finishStation_held ends held).trans (by rw [if_neg unheld, orderFor_eq]; rfl)
  | some c =>
    have faulted : (faultStation c q₂).occupant .printer = some r := ends
    have heldThen : (faultStation c q₂).disc r = some d := held
    refine Eq.trans (b := giveOrder r (faultStation c q₂)) ?_ (giveOrder_held heldThen)
    show (match (faultStation c q₂).occupant .printer with
      | some r => giveOrder r (faultStation c q₂)
      | none => faultStation c q₂) = _
    rw [faulted]

theorem payQuery_eq : payQuery p =
    { p with
      tower := { p.tower with sweep := p.tower.sweep.map fun w => { w with queryOwed := false } }
      station := { p.station with
        queryDeadline := if p.tower.sweep.any (·.queryOwed) then some (p.now + 5000) else p.station.queryDeadline }
      sent := p.sent ++ if p.tower.sweep.any (·.queryOwed) then [.query] else [] } := by
  unfold payQuery
  cases sweep : p.tower.sweep with
  | none =>
    have kept : { p.tower with sweep := none } = p.tower := by rw [← sweep]
    simp [kept]
  | some w =>
    cases owed : w.queryOwed with
    | true =>
      simp [owed]
      rfl
    | false =>
      have same : { w with queryOwed := false } = w := by rw [← owed]
      have kept : { p.tower with sweep := some w } = p.tower := by rw [← sweep]
      simp [owed, same, kept]

/-! ## The end of a label -/

/-- What a report or an expiry finds differs from what stood before it in the time, the temperature and the flags. -/
def Part.Found (p u : Part) : Prop := p.Changes [.now, .station, .attn, .sent] u ∧ u.sent = []

/-- The tray's disc is being labelled, and waits for no ink (R155). -/
structure Part.Labelling (p : Part) (r : Fin 24) (d : Disc) (held : Vector Nat 4) : Prop where
  there : p.occupant .printer = some r
  disc : p.disc r = some d
  printing : d.stage = .printing
  reserved : d.reservation = some held
  absent : r ∉ p.inkWait

theorem Part.Labelling.found (h : p.Labelling r d held) (found : p.Found u) : u.Labelling r d held where
  there := by rw [occupant_congr (found.1 .places (by decide)), h.there]
  disc := by rw [disc_congr (found.1 .discs (by decide)), h.disc]
  printing := h.printing
  reserved := h.reserved
  absent := by
    have list : u.inkWait = p.inkWait := found.1 .inkWait (by decide)
    rw [list]
    exact h.absent

theorem charged_absent {w : Vector Nat 4} (absent : r ∉ p.inkWait) : r ∉ (p.charged r d v w).inkWait := absent

/-- The ink is settled alike whatever the report carried (R152, R156). -/
theorem charged_alike {w : Vector Nat 4} (found : p.Found u) (b : Bool) :
    (p.charged r d v w).Alike r (raiseIf b .inkLow (u.charged r d v w)) := by
  obtain ⟨same, -⟩ := found
  have discs : u.discs = p.discs := same .discs (by decide)
  have ink : u.ink = p.ink := same .ink (by decide)
  have later : (raiseIf b .inkLow (u.charged r d v w)).discs = (p.charged r d v w).discs := by
    rw [raiseIf_eq]
    simp only [Part.charged, Part.setDisc, discs]
  have disc := disc_congr later
  have jobs : u.jobs = p.jobs := same .jobs (by decide)
  have list : u.inkWait = p.inkWait := same .inkWait (by decide)
  have queue : u.printQueue = p.printQueue := same .printQueue (by decide)
  have templates : u.templates = p.templates := same .templates (by decide)
  rw [raiseIf_eq] at disc ⊢
  refine ⟨jobs, ?_, list, queue, templates, fun k _ => by rw [disc], by rw [disc], by rw [disc], by rw [disc]⟩
  simp only [Part.charged, Part.inkChannel, ink]

/-- The part once the label's ink is settled: its retry pass done, its disc without the reservation (R148, R152, R156). -/
structure Part.Settled (p u : Part) (r : Fin 24) (d : Disc) (held actual : Vector Nat 4) (q : Part) : Prop where
  changes : u.Changes [.inkWait, .jobs, .printQueue, .ink, .discs, .attn] q
  alike : (retryPass (p.charged r d held actual)).Alike r q
  disc : q.disc r = some { d with reservation := none }
  ranks : q.eligibleRanks = p.eligibleRanks
  flags : ∀ f, f ≠ .inkLow → q.attn.isSet f = u.attn.isSet f
  low : q.attn.isSet .inkLow = true ↔ u.attn.isSet .inkLow = true ∨ ∃ k : Fin 4,
    (p.inkChannel k).floor ≤ (p.inkChannel k).level ∧ (q.inkChannel k).level < (q.inkChannel k).floor

theorem settleInk_settled {w : Vector Nat 4} (labelling : p.Labelling r d held) (found : p.Found u) :
    p.Settled u r d held w (settleInk r w u) := by
  obtain ⟨there, disc, printing, reserved, absent⟩ := labelling.found found
  have channel : ∀ k, u.inkChannel k = p.inkChannel k := fun k => by
    have ink : u.ink = p.ink := found.1 .ink (by decide)
    simp only [Part.inkChannel, ink]
  have settled := settleInk_held disc reserved w
  have setup : (u.charged r d held w).SameSetup (settleInk r w u) := by
    rw [settled]
    exact .after retryPass_setup raiseInkLow_changes.setup
  have attn : (settleInk r w u).attn = (raiseInkLow u (u.charged r d held w)).attn := by
    rw [settled]
    exact retryPass_changes .attn (by decide)
  refine ⟨settleInk_changes, ?_, ?_, ?_, fun f other => ?_, ?_⟩
  · rw [settled]
    exact (charged_alike found _).retryPass
  · rw [settled, (retryPass_spares (p := raiseInkLow u (u.charged r d held w)) ?_).disc]
    · rw [disc_congr (raiseInkLow_changes .discs (by decide)), charged_disc]
    · have list : (raiseInkLow u (u.charged r d held w)).inkWait = u.inkWait := raiseInkLow_changes .inkWait (by decide)
      rw [list]
      exact absent
  · rw [settled, retryPass_ranks, eligibleRanks_congr (raiseInkLow_changes .discs (by decide))]
    have ranks : (u.setDisc r (some { d with reservation := none })).eligibleRanks = u.eligibleRanks :=
      eligibleRanks_setDisc disc rfl
    have same : u.eligibleRanks = p.eligibleRanks := eligibleRanks_congr (found.1 .discs (by decide))
    exact ranks.trans same
  · rw [attn, raiseInkLow_isSet]
    simp only [other, decide_false, Bool.and_false, Bool.or_false]
    rfl
  · have level (k : Fin 4) : ((settleInk r w u).inkChannel k).level = ((u.charged r d held w).inkChannel k).level := by
      rw [setup.ink k]
    have floor (k : Fin 4) : ((settleInk r w u).inkChannel k).floor = ((u.charged r d held w).inkChannel k).floor := by
      rw [setup.ink k]
    rw [attn, raiseInkLow_isSet]
    simp only [level, floor, decide_true, Bool.and_true, Bool.or_eq_true, List.any_eq_true, mem_allInks, true_and,
      Bool.and_eq_true, Bool.not_eq_true', low_iff, low_false_iff, channel]
    exact or_congr Iff.rfl (exists_congr fun k => and_comm)

theorem endLabel_eq {w : Vector Nat 4} (labelling : p.Labelling r d held) (found : p.Found u) : ∃ a,
    p.Settled { u with station := { u.station with labelDeadline := none } } r d held w a ∧
    endLabel w failed cause u = { a.setDisc r (some { { d with reservation := none }.labelled failed with
        eligible := some (p.order d) }) with
      attn := a.labelFlags d failed
      tower := { p.tower with sweep := p.tower.sweep.map fun w => { w with queryOwed := false } }
      station := { { u.station with labelDeadline := none }.labelled cause with
        queryDeadline := if p.tower.sweep.any (·.queryOwed) then some (u.now + 5000) else u.station.queryDeadline }
      sent := if p.tower.sweep.any (·.queryOwed) then [.query] else [] } := by
  have foundThen : p.Found { u with station := { u.station with labelDeadline := none } } :=
    ⟨.step found.1 (gs := [.station]) (fun f own => by cases f <;> first | rfl | simp at own) rfl, found.2⟩
  have settled := settleInk_settled (w := w) labelling foundThen
  refine ⟨_, settled, ?_⟩
  generalize is : settleInk r w { u with station := { u.station with labelDeadline := none } } = a at settled
  obtain ⟨changes, -, disc, ranks, -, -⟩ := settled
  have labelled := labelledDisc_held (failed := failed) disc labelling.printing
  have ended := endLabel_held (failed := failed) (cause := cause) (v := w) (labelling.found found).there
    (by rw [is]; exact labelled) judged_disc labelled_unheld
  have order : (a.judged r { d with reservation := none } failed).order ({ d with reservation := none }.labelled failed) =
      p.order d := by
    have kept := eligibleRanks_setDisc (e := { d with reservation := none }.labelled failed) disc rfl
    exact congrArg (fun l => d.eligible.getD (nextRank l)) (kept.trans ranks)
  have tower : a.tower = p.tower := (changes .tower (by decide)).trans (found.1 .tower (by decide))
  have station : a.station = { u.station with labelDeadline := none } := changes .station (by decide)
  have now : a.now = u.now := changes .now (by decide)
  have sent : a.sent = [] := (changes .sent (by decide)).trans found.2
  rw [ended, order, payQuery_eq]
  simp only [Part.judged, Part.setDisc, Station.labelled, Part.labelFlags, tower, station, now, sent, List.nil_append]
  simp

/-- What the end of a label leaves of `p`, where what reported it found `u` (R146, R148, R152, R156, R157, R166). -/
def Part.LabelEnds (p u : Part) (r : Fin 24) (d : Disc) (held : Vector Nat 4) (actual : Fin 4 → Nat) (failed : Bool)
    (cause : Option StationFault) (q : Part) : Prop :=
  let owed := p.tower.sweep.any (·.queryOwed)
  let bad := decide (d.verdict = .reject)
  let w := retryPass { p.setDisc r (some { d with reservation := none }) with
    ink := Vector.ofFn fun k => { p.inkChannel k with
      reserved := (p.inkChannel k).reserved - held[k]
      level := (p.inkChannel k).level - actual k } }
  u.Changes [.station, .attn, .discs, .ink, .inkWait, .jobs, .printQueue, .tower, .sent] q ∧
  q.ink = w.ink ∧ q.inkWait = w.inkWait ∧ q.jobs = w.jobs ∧ q.printQueue = w.printQueue ∧
  q.disc r = some { d with
    reservation := none, eligible := some (p.order d)
    stage := if failed || bad then .rejectBound else .outbound
    verdict := if failed || bad then .reject else .good
    reason := if failed && !bad then some .printFailed else d.reason } ∧
  OthersKept w.disc q.disc r ∧
  q.station = { u.station with
    state := if cause = none then .finished else .fault, faultCause := cause, labelDeadline := none
    queryDeadline := if owed then some (u.now + 5000) else u.station.queryDeadline } ∧
  q.tower = { p.tower with sweep := p.tower.sweep.map fun w => { w with queryOwed := false } } ∧
  q.sent = (if owed then [.query] else []) ∧
  (∀ f, f ≠ .inkLow → q.attn.isSet f = (u.attn.isSet f || (failed && !bad && decide (f = .discRejected)))) ∧
  (q.attn.isSet .inkLow = true ↔ u.attn.isSet .inkLow = true ∨ ∃ k : Fin 4,
    (p.inkChannel k).floor ≤ (p.inkChannel k).level ∧ (q.inkChannel k).level < (q.inkChannel k).floor)

theorem labelFlags_isSet (f : Flag) : (p.labelFlags d failed).isSet f =
    (p.attn.isSet f || (failed && !decide (d.verdict = .reject) && decide (f = .discRejected))) := by
  unfold Part.labelFlags
  cases failed && !decide (d.verdict = .reject) <;> simp

theorem endLabel_ends {w : Vector Nat 4} {actual : Fin 4 → Nat} (labelling : p.Labelling r d held) (found : p.Found u)
    (amounts : ∀ k : Fin 4, w[k.val] = actual k) : p.LabelEnds u r d held actual failed cause (endLabel w failed cause u) := by
  obtain ⟨a, settled, ended⟩ := endLabel_eq (w := w) (failed := failed) (cause := cause) labelling found
  obtain ⟨changes, alike, disc, -, flags, low⟩ := settled
  have charged : p.charged r d held w = { p.setDisc r (some { d with reservation := none }) with
      ink := Vector.ofFn fun k => { p.inkChannel k with
        reserved := (p.inkChannel k).reserved - held[k]
        level := (p.inkChannel k).level - actual k } } := by
    simp only [Part.charged, amounts]
    rfl
  have moved : u.Changes [.station, .attn, .discs, .ink, .inkWait, .jobs, .printQueue, .tower, .sent]
      (endLabel w failed cause u) := endLabel_changes.mono (by decide)
  unfold Part.LabelEnds
  rw [← charged]
  rw [ended] at moved ⊢
  refine ⟨moved, alike.ink, alike.inkWait, alike.jobs, alike.printQueue, Part.setDisc_self _ _ _,
    fun k other => (Part.setDisc_other _ _ _ _ other).trans (alike.others k other), rfl, rfl, rfl, fun f other => ?_, ?_⟩
  · exact (labelFlags_isSet f).trans (congrArg (· || _) (flags f other))
  · refine Iff.trans ?_ low
    have same := labelFlags_isSet (p := a) (d := d) (failed := failed) .inkLow
    rw [show (decide (Flag.inkLow = .discRejected)) = false from rfl, Bool.and_false, Bool.or_false] at same
    exact Eq.congr same rfl

/-! ## The reports and the limit -/

theorem takeLabel_flying {due : Nat} {n : Drops} {t : Nat} (label : p.station.labelDeadline = some due) :
    takeLabel failed n t p = endLabel ((p.heated t).actualInk n) failed none (p.heated t) := by
  have same : (p.heated t).station.labelDeadline = some due := label
  rw [takeLabel, takeTemperature_eq, if_pos (by rw [same]; rfl)]

theorem takeEngineFault_printing {n : Drops} (prints : p.station.state = .printing) :
    takeEngineFault n p = endLabel (p.actualInk n) true (some .engine) p := by
  rw [takeEngineFault, prints]

theorem labelExpires_labelling {due : Nat} (label : p.station.labelDeadline = some due) (labelling : p.Labelling r d held) :
    labelExpires p = endLabel held true (some .labelTimeout) { p with now := max p.now due } := by
  have there : Part.occupant { p with now := max p.now due } .printer = some r := labelling.there
  have amounts : Part.reservedFor { p with now := max p.now due } r = held := by
    have disc : Part.disc { p with now := max p.now due } r = some d := labelling.disc
    simp only [Part.reservedFor, disc, Option.bind_some, labelling.reserved]
  rw [labelExpires, label]
  dsimp only
  rw [there]
  exact congrArg (fun v => endLabel v true (some .labelTimeout) { p with now := max p.now due }) amounts

/-- What a label of `n` drops took of each channel (R156). -/
theorem actualInk_get (n : Drops) (k : Fin 4) : (p.actualInk n)[k.val] =
    ((#v[n.k, n.c, n.m, n.y] : Vector Nat 4)[k] * (p.inkChannel k).dropVolume + 999) / 1000 := by
  fin_cases k <;> exact ceilDiv_eq (by decide)

theorem found_heated (t : Nat) : p.Found (p.fresh.heated t) :=
  ⟨fun f own => by cases f <;> first | rfl | simp at own, rfl⟩

theorem found_fresh : p.Found p.fresh := ⟨fun f own => by cases f <;> first | rfl | simp at own, rfl⟩

theorem found_later (now : Nat) : p.Found { p.fresh with now := now } :=
  ⟨fun f own => by cases f <;> first | rfl | simp at own, rfl⟩

/-- Settles O58: the label order by its conditions and the job's serials; the end of a label by what ends it, from the
settled ink, the judged disc, the station and the QUERY owed; a FAULT by the station's state. -/
theorem labels : Obligations.Labels := by
  refine ⟨fun p r d x j n t => ?_, fun s r d held due low => ⟨?_, fun n => ⟨?_, ?_⟩⟩⟩
  · intro can
    refine ⟨fun cannot => if_neg (mt labelPossible_iff.1 cannot),
      fun able there held unrejected named job uses template => ?_⟩
    rw [labelOrder_sends (labelPossible_iff.2 able) there held unrejected named job uses template]
    exact ⟨orderLabel_plain held job, fun z digits => orderLabel_serial held job⟩
  · intro there disc printing reserved prints label absent
    have labelling : s.part.Labelling r d held := ⟨there, disc, printing, reserved, absent⟩
    have label' : s.part.fresh.station.labelDeadline = some due := label
    refine ⟨fun n t => ⟨_, ?_, endLabel_ends labelling (found_heated t) (actualInk_get n)⟩,
      fun n t => ⟨_, ?_, endLabel_ends labelling (found_heated t) (actualInk_get n)⟩,
      fun n => ⟨_, ?_, endLabel_ends labelling found_fresh (actualInk_get n)⟩,
      ⟨_, ?_, endLabel_ends labelling (found_later _) fun k => rfl⟩⟩
    · rw [exec_labelDone, takeEvent_live low, takeLabel_flying label']
      rfl
    · rw [exec_labelFailed, takeEvent_live low, takeLabel_flying label']
      rfl
    · rw [exec_printerFault, takeEvent_live low, takeEngineFault_printing (p := s.part.fresh) prints]
      rfl
    · rw [exec_labelLimitExpiry, takeEvent_live low, labelExpires_labelling label' (labelling.found found_fresh)]
      rfl
  · intro state
    rw [exec_printerFault, takeEvent_live low, takeEngineFault]
    obtain is | is | is := state <;> rw [show s.part.fresh.station.state = _ from is] <;> rfl
  · intro state
    rw [exec_printerFault, takeEvent_live low, takeEngineFault]
    obtain is | is := state <;> rw [show s.part.fresh.station.state = _ from is] <;> rfl

end Sys2Proof.Machine
end

