-- ==== Sys2Proof/Proofs/CancelJob.lean ====
section
/-! PROOF. CANCEL JOB, RETIRE JOB, and what a cancel does to each disc of the job (R23, R31, R38, R39). -/

namespace Sys2Proof.Machine

-- One proof after another: side by side, their threads' stacks pass the check's memory limit.
set_option Elab.async false

variable {p q u : Part} {s : State} {r k i : Fin 24} {b : Fin 12} {x y : Fin 16} {j : Job} {d e : Disc} {why : Reason}

/-! ## What a cancel of one disc carries over -/

/-- A record's verdict, its reason and its job. -/
def Disc.standing (d : Disc) : Verdict × Option Reason × Option (Fin 16) := (d.verdict, d.reason, d.job)

/-- What the propagation of a first REJECT of record `k` carries over: every record's standing; the stage of any other,
or PRINT_QUEUED after it; a job that is being cancelled, with its active discs; the arm's move. -/
structure Part.Carries (k : Fin 24) (p q : Part) : Prop where
  standing : ∀ r, (q.disc r).map Disc.standing = (p.disc r).map Disc.standing
  stage : ∀ r, r ≠ k → q.stageOf r = p.stageOf r ∨ q.stageOf r = some .printQueued
  jobs : ∀ x j, p.job x = some j → j.state = .cancelling →
    ∃ j', q.job x = some j' ∧ j'.state = .cancelling ∧ j'.active = j.active
  move : q.arm.move = p.arm.move

theorem Part.Carries.refl (p : Part) : p.Carries k p :=
  ⟨fun _ => rfl, fun _ _ => .inl rfl, fun _ j held is => ⟨j, held, is, rfl⟩, rfl⟩

theorem Part.Carries.trans (h : p.Carries k q) (h' : q.Carries k u) : p.Carries k u where
  standing r := (h'.standing r).trans (h.standing r)
  stage r other := (h'.stage r other).elim (fun same => same ▸ h.stage r other) .inr
  jobs x j held is := by
    obtain ⟨j', held', is', active'⟩ := h.jobs x j held is
    obtain ⟨j'', held'', is'', active''⟩ := h'.jobs x j' held' is'
    exact ⟨j'', held'', is'', active''.trans active'⟩
  move := h'.move.trans h.move

/-- A change of none of these. -/
theorem Part.Changes.carries {fs : List Field} (h : p.Changes fs q)
    (free : [Field.discs, .jobs, .arm].all (· ∉ fs) = true := by rfl) : p.Carries k q := by
  simp only [List.all_cons, List.all_nil, Bool.and_true, Bool.and_eq_true, decide_eq_true_eq] at free
  obtain ⟨discs, jobs, arm⟩ := free
  have disc := disc_congr (h .discs discs)
  have job := job_congr (h .jobs jobs)
  have move : q.arm = p.arm := h .arm arm
  exact ⟨fun r => by rw [disc], fun r _ => .inl (by rw [Part.stageOf, disc]; rfl),
    fun x j held is => ⟨j, job ▸ held, is, rfl⟩, by rw [move]⟩

theorem modDisc_map {α : Type} {f : Disc → Disc} {g : Disc → α} (keeps : ∀ d, g (f d) = g d) (i : Fin 24) :
    ((p.modDisc r f).disc i).map g = (p.disc i).map g := by
  by_cases same : i = r
  · subst same
    rw [Part.modDisc, Part.setDisc_self, Option.map_map]
    exact congrFun (congrArg Option.map (funext keeps)) _
  · rw [Part.modDisc, Part.setDisc_other _ _ _ _ same]

/-- A change of a record that keeps its standing and its stage. -/
theorem modDisc_carries {f : Disc → Disc} (keeps : ∀ d, (f d).standing = d.standing) (stays : ∀ d, (f d).stage = d.stage) :
    p.Carries k (p.modDisc r f) :=
  ⟨modDisc_map keeps, fun i _ => .inl (modDisc_map stays i), fun _ j held is => ⟨j, held, is, rfl⟩, rfl⟩

theorem atStage_standing (st : Stage) (d : Disc) : (d.atStage st).standing = d.standing := by
  rw [Disc.atStage_eq]
  rfl

theorem setStage_carries_self (st : Stage) : p.Carries k (setStage k st p) :=
  ⟨modDisc_map (atStage_standing st), fun i other => .inl (by
    rw [Part.stageOf, setStage, Part.modDisc, Part.setDisc_other _ _ _ _ other]
    rfl), fun _ j held is => ⟨j, held, is, rfl⟩, rfl⟩

theorem setStage_carries_queued : p.Carries k (setStage r .printQueued p) := by
  refine ⟨modDisc_map (atStage_standing _), fun i _ => ?_, fun _ j held is => ⟨j, held, is, rfl⟩, rfl⟩
  by_cases same : i = r
  · subst same
    rw [Part.stageOf, Part.stageOf, setStage, Part.modDisc, Part.setDisc_self]
    cases p.disc i with
    | none => exact .inl rfl
    | some d =>
      simp only [Option.map_some, Disc.atStage]
      split
      · exact .inr rfl
      · exact .inl rfl
  · rw [Part.stageOf, setStage, Part.modDisc, Part.setDisc_other _ _ _ _ same]
    exact .inl rfl

/-- A job that is being cancelled stays so whatever its hold reasons (R24). -/
theorem changeHolds_carries {f : Holds → Holds} : p.Carries k (changeHolds x f p) := by
  refine ⟨fun _ => rfl, fun _ _ => .inl rfl, fun y j held is => ?_, rfl⟩
  rw [changeHolds_eq]
  by_cases same : y = x
  · subst same
    refine ⟨j.holding f, by rw [Part.setJob_self, held]; rfl, ?_, ?_⟩
    · simp [Job.holding, is, JobState.started]
    · simp [Job.holding, is, JobState.started]
  · exact ⟨j, by rw [Part.setJob_other _ _ _ _ same, held], is, rfl⟩

theorem testInkHold_carries : p.Carries k (testInkHold x p) := by
  unfold testInkHold
  split
  · exact .refl p
  · exact changeHolds_carries

theorem leaveInkWait_carries : p.Carries k (leaveInkWait r p) := by
  unfold leaveInkWait
  split
  · have left : p.Carries k { p with inkWait := p.inkWait.filter (· != r) } := inkWait_changes.carries
    dsimp only
    split
    · exact left.trans testInkHold_carries
    · exact left
  · exact .refl p

theorem attemptReservation_carries : p.Carries k (attemptReservation r p) := by
  unfold attemptReservation
  split
  · exact .refl p
  · split
    · have reserved : ∀ v, p.Carries k (reserve r v p) := fun v =>
        eachInk_changes.carries.trans (modDisc_carries (fun _ => rfl) fun _ => rfl)
      exact ((reserved _).trans leaveInkWait_carries).trans (printQueue_changes.carries.trans setStage_carries_queued)
    · exact .refl p

theorem retryPass_carries : p.Carries k (retryPass p) := by
  unfold retryPass
  generalize p.inkWait = waiting
  induction waiting generalizing p with
  | nil => exact .refl p
  | cons i waiting ih => exact attemptReservation_carries.trans ih

theorem release_carries : p.Carries k (release r p) := by
  unfold release
  split
  · refine .trans ?_ retryPass_carries
    unfold unreserve
    split
    · exact .refl p
    · split
      · exact .refl p
      · exact eachInk_changes.carries.trans (modDisc_carries (fun _ => rfl) fun _ => rfl)
  · exact .refl p

theorem leaveLabelUnit_carries : p.Carries k (leaveLabelUnit r p) :=
  (leaveInkWait_carries.trans leavePrintQueue_changes.carries).trans release_carries

theorem giveOrder_carries : p.Carries k (giveOrder r p) := modDisc_carries (fun _ => rfl) fun _ => rfl

theorem finishStation_carries : p.Carries k (finishStation p) := by
  have entered : p.Carries k (enterStation .finished p) := enterStation_changes.carries
  unfold finishStation
  dsimp only
  split
  · split
    · exact entered
    · exact entered.trans giveOrder_carries
  · exact entered

theorem leaveStream_carries : p.Carries k (leaveStream b p) := by
  cases channel : (p.bay b).channel with
  | none =>
    rw [leaveStream_none channel]
    exact .refl p
  | some c =>
    obtain ⟨changes, -⟩ := leaveStream_left channel
    refine .trans (q := p.unstreamed b) ?_ changes.carries
    have written : p.Changes [.bays] (p.setBay b { p.bay b with channel := none }) := fun f own => by
      cases f <;> first | rfl | simp at own
    have cleared : p.Carries k (p.setBay b { p.bay b with channel := none }) := written.carries
    unfold Part.unstreamed
    split
    · exact cleared.trans (modDisc_carries (fun _ => rfl) fun _ => rfl)
    · exact cleared

theorem bayReject_carries : p.Carries k (bayReject b p) := by
  unfold bayReject
  split
  · exact resetBay_changes.carries
  · exact resetBay_changes.carries
  · exact resetBay_changes.carries
  · exact leaveStream_carries.trans resetBay_changes.carries
  · exact setContext_changes.carries.trans resetBay_changes.carries
  · exact withdrawRequest_changes.carries.trans enterBay_changes.carries
  · exact .refl p

theorem propagateReject_carries : p.Carries k (propagateReject k p) := by
  have left : p.Carries k (setStage k .rejectBound (leaveLabelUnit k p)) :=
    leaveLabelUnit_carries.trans (setStage_carries_self _)
  have released : p.Carries k (setStage k .rejectBound (release k p)) := release_carries.trans (setStage_carries_self _)
  unfold propagateReject
  split
  · exact .refl p
  · split
    · exact .refl p
    · exact .refl p
    · exact .refl p
    · split
      · exact .refl p
      · unfold rejectUnprinted
        dsimp only
        split
        · exact released.trans finishStation_carries
        · exact released.trans giveOrder_carries
        · exact released
    · dsimp only
      split
      · exact left.trans bayReject_carries
      · split
        · exact left.trans giveOrder_carries
        · exact left
      · exact left

/-! ## One disc cancelled -/

theorem standing_some {v : Verdict × Option Reason × Option (Fin 16)} (is : (p.disc r).map Disc.standing = some v) :
    ∃ e, p.disc r = some e ∧ e.verdict = v.1 ∧ e.reason = v.2.1 ∧ e.job = v.2.2 := by
  obtain ⟨e, held, rfl⟩ := Option.map_eq_some_iff.mp is
  exact ⟨e, held, rfl, rfl, rfl⟩

theorem rejectDisc_firstReject (held : p.disc r = some d) (first : d.verdict ≠ .reject) :
    (p.firstReject r why d).Carries r (rejectDisc r why p) := by
  rw [rejectDisc, if_neg (mt (isReject_iff held).1 first), writeReject_firstReject held first]
  exact propagateReject_carries

/-- A first REJECT writes the record's verdict and reason, and keeps its job (R4). -/
theorem rejectDisc_standing (held : p.disc r = some d) (first : d.verdict ≠ .reject) :
    ((rejectDisc r why p).disc r).map Disc.standing = some (.reject, some why, d.job) := by
  rw [(rejectDisc_firstReject held first).standing r, firstReject_disc]
  rfl

theorem cancelDisc_rests (held : p.disc r = some d) (settled : d.stage.active = false ∨ d.verdict = .reject) :
    cancelDisc r p = p := by
  unfold cancelDisc
  rw [held]
  dsimp only
  rw [if_pos]
  obtain is | is := settled <;> simp [is]

theorem moving_iff : p.moving r = true ↔ ∃ m, p.arm.move = some m ∧ m.record = r := by
  unfold Part.moving
  cases p.arm.move <;> simp

theorem cancelDisc_holds (held : p.disc r = some d) (out : d.stage = .outbound) (unrejected : d.verdict ≠ .reject)
    (still : p.moving r = false) :
    cancelDisc r p = p.setDisc r (some { d with stage := .hostHold, eligible := none }) := by
  have active : d.stage.active = true := by rw [out]; rfl
  have staged : setStage r .hostHold p = p.setDisc r (some { d with stage := .hostHold }) := by
    rw [setStage_held held, atStage_active active (by simp [out])]
  unfold cancelDisc
  rw [held]
  dsimp only
  rw [if_neg (by simp [active, unrejected]), if_pos (by simp [out, still]), staged, clearOrder,
    modDisc_held (Part.setDisc_self _ _ _), setDisc_setDisc]

theorem cancelDisc_rejects (held : p.disc r = some d) (active : d.stage.active = true) (unrejected : d.verdict ≠ .reject)
    (bound : d.stage ≠ .outbound ∨ p.moving r = true) : cancelDisc r p = rejectDisc r .cancelled p := by
  unfold cancelDisc
  rw [held]
  dsimp only
  rw [if_neg (by simp [active, unrejected]), if_neg]
  obtain other | moving := bound
  · simp [other]
  · simp [moving]

theorem cancelDisc_cases (k : Fin 24) (p : Part) : cancelDisc k p = p ∨
    (∃ d, p.disc k = some d ∧ d.verdict ≠ .reject ∧ cancelDisc k p = rejectDisc k .cancelled p) ∨
    ∃ d, p.disc k = some d ∧ cancelDisc k p = p.setDisc k (some { d with stage := .hostHold, eligible := none }) := by
  cases held : p.disc k with
  | none => exact .inl (by rw [cancelDisc, held])
  | some d =>
    by_cases settled : d.stage.active = false ∨ d.verdict = .reject
    · exact .inl (cancelDisc_rests held settled)
    · obtain ⟨active, unrejected⟩ := not_or.1 settled
      by_cases bound : d.stage ≠ .outbound ∨ p.moving k = true
      · exact .inr (.inl ⟨d, rfl, unrejected, cancelDisc_rejects held (by simpa using active) unrejected bound⟩)
      · obtain ⟨out, still⟩ := not_or.1 bound
        exact .inr (.inr ⟨d, rfl, cancelDisc_holds held (by simpa using out) unrejected (by simpa using still)⟩)

/-- What a cancel of one disc leaves: the standing and the stage of another record `r`, a job that is being cancelled,
the move. -/
structure Part.Leaves (r : Fin 24) (p q : Part) : Prop where
  standing : (q.disc r).map Disc.standing = (p.disc r).map Disc.standing
  stage : q.stageOf r = p.stageOf r ∨ q.stageOf r = some .printQueued
  move : q.arm.move = p.arm.move

theorem cancelDisc_leaves (other : r ≠ k) : p.Leaves r (cancelDisc k p) := by
  obtain is | ⟨d, held, first, is⟩ | ⟨d, held, is⟩ := cancelDisc_cases k p <;> rw [is]
  · exact ⟨rfl, .inl rfl, rfl⟩
  · have carried := rejectDisc_firstReject (why := .cancelled) held first
    have same : (p.firstReject k .cancelled d).disc r = p.disc r := Part.setDisc_other _ _ _ _ other
    have stage := carried.stage r other
    rw [Part.stageOf, Part.stageOf, same] at stage
    exact ⟨by rw [carried.standing r, same], stage, carried.move⟩
  · have same : (p.setDisc k (some { d with stage := .hostHold, eligible := none })).disc r = p.disc r :=
      Part.setDisc_other _ _ _ _ other
    exact ⟨by rw [same], .inl (by rw [Part.stageOf, same]; rfl), rfl⟩

theorem cancelDisc_fate (absent : r ∉ p.inkWait) (other : r ≠ k) : p.KeepsFate r (cancelDisc k p) := by
  obtain is | ⟨d, held, first, is⟩ | ⟨d, held, is⟩ := cancelDisc_cases k p <;> rw [is]
  · exact ⟨rfl, absent⟩
  · exact rejectDisc_other absent other
  · exact ⟨by rw [Part.setDisc_other _ _ _ _ other], absent⟩

theorem cancelDisc_job (held : p.job x = some j) (cancelling : j.state = .cancelling) :
    ∃ j', (cancelDisc k p).job x = some j' ∧ j'.state = .cancelling ∧ j'.active = j.active := by
  obtain is | ⟨d, disc, first, is⟩ | ⟨d, disc, is⟩ := cancelDisc_cases k p <;> rw [is]
  · exact ⟨j, held, cancelling, rfl⟩
  · exact (rejectDisc_firstReject disc first).jobs x j held cancelling
  · exact ⟨j, held, cancelling, rfl⟩

/-! ## Every disc of the job -/

/-- A cancel's part for one record (R39). -/
def cancelOf (x : Fin 16) (p : Part) (r : Fin 24) : Part :=
  if (p.disc r).bind (·.job) = some x then cancelDisc r p else p

theorem cancelOf_job (held : p.job x = some j) (cancelling : j.state = .cancelling) :
    ∃ j', (cancelOf y p k).job x = some j' ∧ j'.state = .cancelling ∧ j'.active = j.active := by
  unfold cancelOf
  split
  · exact cancelDisc_job held cancelling
  · exact ⟨j, held, cancelling, rfl⟩

/-- A job that is being cancelled is so when all its discs have been, and its active discs are as many (R38, R39). -/
theorem foldl_cancelOf_job (l : List (Fin 24)) (held : p.job x = some j) (cancelling : j.state = .cancelling) :
    ∃ j', (l.foldl (cancelOf y) p).job x = some j' ∧ j'.state = .cancelling ∧ j'.active = j.active := by
  induction l generalizing p j with
  | nil => exact ⟨j, held, cancelling, rfl⟩
  | cons k l ih =>
    obtain ⟨j', held', cancelling', active'⟩ := cancelOf_job (y := y) (k := k) held cancelling
    obtain ⟨j'', held'', cancelling'', active''⟩ := ih held' cancelling'
    exact ⟨j'', held'', cancelling'', active''.trans active'⟩

theorem cancelOf_leaves (other : r ≠ k) : p.Leaves r (cancelOf x p k) := by
  unfold cancelOf
  split
  · exact cancelDisc_leaves other
  · exact ⟨rfl, .inl rfl, rfl⟩

theorem cancelOf_fate (absent : r ∉ p.inkWait) (other : r ≠ k) : p.KeepsFate r (cancelOf x p k) := by
  unfold cancelOf
  split
  · exact cancelDisc_fate absent other
  · exact ⟨rfl, absent⟩

theorem foldl_keeps {op : Part → Fin 24 → Part} {after : Part → Prop} {l : List (Fin 24)}
    (rests : ∀ k ∈ l, ∀ q : Part, after q → after (op q k)) (start : after p) : after (l.foldl op p) := by
  induction l generalizing p with
  | nil => exact start
  | cons k l ih => exact ih (fun i mem => rests i (List.mem_cons_of_mem _ mem)) (rests k List.mem_cons_self p start)

/-- A fold over distinct records: what holds until `r` has its turn, what its turn makes of it, what the rest keep. -/
theorem foldl_turn {op : Part → Fin 24 → Part} {before after : Part → Prop}
    (waits : ∀ {q : Part} {k : Fin 24}, r ≠ k → before q → before (op q k))
    (turn : ∀ {q : Part}, before q → after (op q r))
    (rests : ∀ {q : Part} {k : Fin 24}, r ≠ k → after q → after (op q k))
    (l : List (Fin 24)) (mem : r ∈ l) (nodup : l.Nodup) (start : before p) : after (l.foldl op p) := by
  induction l generalizing p with
  | nil => cases mem
  | cons k l ih =>
    obtain ⟨fresh, nodup⟩ := List.nodup_cons.mp nodup
    by_cases same : r = k
    · subst same
      have done := turn start
      exact foldl_keeps (l := l) (fun i mem q => rests fun is => fresh (is ▸ mem)) done
    · exact ih ((List.mem_cons.mp mem).resolve_left same) nodup (waits same start)

/-- The disc is one a cancel rejects: active, not yet rejected, and not waiting OUTBOUND without a move (R39). -/
def Part.ToReject (r : Fin 24) (x : Fin 16) (p : Part) : Prop :=
  ∃ d, p.disc r = some d ∧ d.job = some x ∧ d.stage.active = true ∧ d.verdict ≠ .reject ∧
    (d.stage ≠ .outbound ∨ p.moving r = true)

/-- The disc has been rejected CANCELLED (R39). -/
def Part.Cancelled (r : Fin 24) (p : Part) : Prop := ∃ e, p.disc r = some e ∧ e.verdict = .reject ∧ e.reason = some .cancelled

theorem Part.Leaves.toReject (h : p.Leaves r q) (before : p.ToReject r x) : q.ToReject r x := by
  obtain ⟨d, held, named, active, first, bound⟩ := before
  have standing := h.standing
  rw [held] at standing
  obtain ⟨e, held', verdict', -, named'⟩ := standing_some standing
  have stage := h.stage
  rw [Part.stageOf, Part.stageOf, held, held'] at stage
  have moving : q.moving r = p.moving r := by rw [Part.moving, h.move]; rfl
  refine ⟨e, held', named'.trans named, ?_, verdict' ▸ first, ?_⟩
  · obtain is | is := stage
    · rw [show e.stage = d.stage from Option.some.inj is, active]
    · rw [show e.stage = .printQueued from Option.some.inj is]
      rfl
  · obtain is | is := stage
    · rw [show e.stage = d.stage from Option.some.inj is, moving]
      exact bound
    · exact .inl (by rw [show e.stage = .printQueued from Option.some.inj is]; decide)

theorem Part.Leaves.cancelled (h : p.Leaves r q) (before : p.Cancelled r) : q.Cancelled r := by
  obtain ⟨d, held, rejected, reason⟩ := before
  have standing := h.standing
  rw [held] at standing
  obtain ⟨e, held', verdict', reason', -⟩ := standing_some standing
  exact ⟨e, held', verdict'.trans rejected, reason'.trans reason⟩

theorem cancelOf_cancelled (before : p.ToReject r x) : (cancelOf x p r).Cancelled r := by
  obtain ⟨d, held, named, active, first, bound⟩ := before
  have standing := rejectDisc_standing (why := .cancelled) held first
  obtain ⟨e, held', verdict', reason', -⟩ := standing_some standing
  rw [cancelOf, if_pos (by rw [held]; exact named), cancelDisc_rejects held active first bound]
  exact ⟨e, held', verdict', reason'⟩

/-- The disc is one a cancel sends to HOST_HOLD: OUTBOUND, with no move granted (R39). -/
def Part.ToHold (r : Fin 24) (x : Fin 16) (v : Verdict) (p : Part) : Prop :=
  (∃ d, p.disc r = some d ∧ d.job = some x ∧ d.stage = .outbound ∧ d.verdict = v) ∧ v ≠ .reject ∧ p.moving r = false ∧
    r ∉ p.inkWait

/-- The disc waits in HOST_HOLD with its verdict (R39). -/
def Part.Held (r : Fin 24) (v : Verdict) (p : Part) : Prop :=
  (∃ e, p.disc r = some e ∧ e.verdict = v ∧ e.stage = .hostHold) ∧ r ∉ p.inkWait

theorem cancelOf_toHold {v : Verdict} (other : r ≠ k) (before : p.ToHold r y v) : (cancelOf x p k).ToHold r y v := by
  obtain ⟨⟨d, held, named, out, verdict'⟩, first, still, absent⟩ := before
  have left := cancelOf_leaves (x := x) (p := p) other
  have kept := cancelOf_fate (x := x) absent other
  have fate := kept.fate
  rw [held] at fate
  obtain ⟨e, held', stage, verdict'', -⟩ := fate_eq_some fate
  have standing := left.standing
  rw [held, held'] at standing
  have job : e.job = d.job := congrArg (fun v => v.2.2) (Option.some.inj standing)
  refine ⟨⟨e, held', job.trans named, stage.trans out, verdict''.trans verdict'⟩, first, ?_, kept.absent⟩
  rw [Part.moving, left.move]
  exact still

theorem cancelOf_held {v : Verdict} (before : p.ToHold r x v) : (cancelOf x p r).Held r v := by
  obtain ⟨⟨d, held, named, out, rfl⟩, first, still, absent⟩ := before
  rw [cancelOf, if_pos (by rw [held]; exact named), cancelDisc_holds held out first still]
  exact ⟨⟨_, Part.setDisc_self _ _ _, rfl, rfl⟩, absent⟩

theorem cancelOf_heldOther {v : Verdict} (other : r ≠ k) (before : p.Held r v) : (cancelOf x p k).Held r v := by
  obtain ⟨⟨d, held, verdict', hold⟩, absent⟩ := before
  have kept := cancelOf_fate (x := x) absent other
  have fate := kept.fate
  rw [held] at fate
  obtain ⟨e, held', stage, verdict'', -⟩ := fate_eq_some fate
  exact ⟨⟨e, held', verdict''.trans verdict', stage.trans hold⟩, kept.absent⟩

theorem cancelDiscs_eq (x : Fin 16) (p : Part) : cancelDiscs x p = allDiscs.foldl (cancelOf x) p := rfl

theorem cancelDiscs_rejects (before : p.ToReject r x) : (cancelDiscs x p).Cancelled r := by
  rw [cancelDiscs_eq]
  exact foldl_turn (fun other => (cancelOf_leaves other).toReject) cancelOf_cancelled
    (fun other => (cancelOf_leaves other).cancelled) allDiscs (mem_allDiscs r) (by decide) before

theorem cancelDiscs_holds {v : Verdict} (before : p.ToHold r x v) : (cancelDiscs x p).Held r v := by
  rw [cancelDiscs_eq]
  exact foldl_turn (fun other => cancelOf_toHold other) cancelOf_held (fun other => cancelOf_heldOther other)
    allDiscs (mem_allDiscs r) (by decide) before

theorem cancelDiscs_none (unnamed : ∀ r d, p.disc r = some d → d.job ≠ some x) : cancelDiscs x p = p := by
  rw [cancelDiscs_eq]
  refine foldl_rests (fun k => if_neg fun names => ?_) _
  obtain ⟨d, held, named⟩ := Option.bind_eq_some_iff.mp names
  exact unnamed k d held named

/-! ## CANCEL JOB and RETIRE JOB -/

/-- The job's record as its cancel begins (R38). -/
def Part.cancelling (p : Part) (x : Fin 16) (j : Job) : Part := p.setJob x (some { j with state := .cancelling })

theorem reqCancelJob_started {job : Byte} (number : job.toNat = x.val + 1) (held : p.job x = some j)
    (started : j.state = .running ∨ j.state = .paused ∨ j.state = .held ∨ j.state = .failing) :
    reqCancelJob job p = settled (closeIdle x (cancelDiscs x (p.cancelling x j))) okay := by
  rw [reqCancelJob, withJob_held number held]
  obtain is | is | is | is := started <;> rw [is] <;> rfl

theorem reqCancelJob_ended {job : Byte} (number : job.toNat = x.val + 1) (held : p.job x = some j)
    (late : j.state = .cancelling ∨ j.state.ended = true) : reqCancelJob job p = turnDown .badState p := by
  rw [reqCancelJob, withJob_held number held]
  cases is : j.state <;> simp [is, JobState.ended] at late ⊢

theorem closeIdle_active (held : p.job x = some j) (active : 0 < j.active) : closeIdle x p = p := by
  rw [closeIdle, held]
  exact if_neg (by omega)

theorem closeIdle_cancelling (idle : j.active = 0) : closeIdle x (p.cancelling x j) = p.ends x j .cancelled := by
  rw [Part.cancelling, closeIdle_set, Part.closes, if_neg (by simp), if_pos ⟨idle, rfl⟩]
  rfl

theorem jobNamed_iff : p.jobNamed x = true ↔ ∃ r d, p.disc r = some d ∧ d.job = some x := by
  simp [Part.jobNamed, mem_allDiscs, Option.bind_eq_some_iff]

/-! ## What names an image or a template (R103, R147) -/

theorem attachImage_changes (i : Option (Fin 32)) (p : Part) : p.Changes [.images] (attachImage i p) := fun f own => by
  cases i <;> cases f <;> first | rfl | simp at own

theorem attachImage_image (i : Option (Fin 32)) (p : Part) (k : Fin 32) : (attachImage i p).image k =
    if i = some k then (p.image k).map fun y => { y with attachCount := y.attachCount + 1 } else p.image k := by
  cases i with
  | none => rfl
  | some i =>
    by_cases same : k = i
    · subst same
      rw [if_pos rfl]
      exact Part.setImage_self _ _ _
    · rw [if_neg fun is => same (Option.some.inj is).symm]
      exact Part.setImage_other _ _ _ _ same

theorem detachImage_changes (i : Option (Fin 32)) (p : Part) : p.Changes [.images] (detachImage i p) := fun f own => by
  cases i <;> cases f <;> first | rfl | simp at own

theorem detachImage_image (i : Option (Fin 32)) (p : Part) (k : Fin 32) : (detachImage i p).image k =
    if i = some k then (p.image k).map fun y => { y with attachCount := y.attachCount - 1 } else p.image k := by
  cases i with
  | none => rfl
  | some i =>
    by_cases same : k = i
    · subst same
      rw [if_pos rfl]
      exact Part.setImage_self _ _ _
    · rw [if_neg fun is => same (Option.some.inj is).symm]
      exact Part.setImage_other _ _ _ _ same

theorem useTemplate_changes (i : Option (Fin 8)) (p : Part) : p.Changes [.templates] (useTemplate i p) := fun f own => by
  cases i <;> cases f <;> first | rfl | simp at own

theorem useTemplate_template (i : Option (Fin 8)) (p : Part) (k : Fin 8) : (useTemplate i p).template k =
    if i = some k then (p.template k).map fun y => { y with users := y.users + 1 } else p.template k := by
  cases i with
  | none => rfl
  | some i =>
    by_cases same : k = i
    · subst same
      rw [if_pos rfl]
      exact Part.setTemplate_self _ _ _
    · rw [if_neg fun is => same (Option.some.inj is).symm]
      exact Part.setTemplate_other _ _ _ _ same

theorem leaveTemplate_changes (i : Option (Fin 8)) (p : Part) : p.Changes [.templates] (leaveTemplate i p) := fun f own => by
  cases i <;> cases f <;> first | rfl | simp at own

theorem leaveTemplate_template (i : Option (Fin 8)) (p : Part) (k : Fin 8) : (leaveTemplate i p).template k =
    if i = some k then (p.template k).map fun y => { y with users := y.users - 1 } else p.template k := by
  cases i with
  | none => rfl
  | some i =>
    by_cases same : k = i
    · subst same
      rw [if_pos rfl]
      exact Part.setTemplate_self _ _ _
    · rw [if_neg fun is => same (Option.some.inj is).symm]
      exact Part.setTemplate_other _ _ _ _ same

/-! ## The requests -/

/-- What a freed job's number leaves (R31, R103, R147, R160). -/
theorem retireJob_leaves (x : Fin 16) (j : Job) (p : Part) :
    p.Changes [.jobs, .images, .templates, .shortSet] (retireJob x j p) ∧ (retireJob x j p).job x = none ∧
    OthersKept p.job (retireJob x j p).job x ∧ (retireJob x j p).shortSet = p.shortSet.filter (· != x) ∧
    (∀ i, (retireJob x j p).image i = if j.image = some i then
      (p.image i).map (fun y => { y with attachCount := y.attachCount - 1 }) else p.image i) ∧
    (∀ t, (retireJob x j p).template t = if j.template = some t then
      (p.template t).map (fun y => { y with users := y.users - 1 }) else p.template t) := by
  have stepped : p.Changes [.images, .templates] (leaveTemplate j.template (detachImage j.image p)) :=
    ((detachImage_changes _ _).andThen (leaveTemplate_changes _ _)).widen rfl
  have written : (leaveTemplate j.template (detachImage j.image p)).Changes [.jobs, .shortSet] (retireJob x j p) :=
    fun f own => by cases f <;> first | rfl | simp at own
  have jobs := job_congr (stepped .jobs (by decide))
  have list : (leaveTemplate j.template (detachImage j.image p)).shortSet = p.shortSet := stepped .shortSet (by decide)
  refine ⟨(stepped.andThen written).widen rfl, Part.setJob_self _ _ _, fun y other => ?_,
    congrArg (List.filter _) list, fun i => ?_, fun t => ?_⟩
  · exact (Part.setJob_other _ _ _ _ other).trans (by rw [jobs])
  · have images : (leaveTemplate j.template (detachImage j.image p)).images = (detachImage j.image p).images :=
      leaveTemplate_changes _ _ .images (by decide)
    have image : (retireJob x j p).image i = (detachImage j.image p).image i := by
      simp only [Part.image, show (retireJob x j p).images = _ from images]
    rw [image, detachImage_image]
  · have templates : (detachImage j.image p).templates = p.templates := detachImage_changes _ _ .templates (by decide)
    have kept : (detachImage j.image p).template = p.template := by
      funext n
      simp only [Part.template, templates]
    rw [← kept]
    exact leaveTemplate_template _ _ _

/-- What a cancel leaves of a job with active discs, and of each of them (R38, R39). -/
theorem cancelDiscs_open (active : 0 < j.active) :
    closeIdle x (cancelDiscs x (p.cancelling x j)) = cancelDiscs x (p.cancelling x j) ∧
    ((cancelDiscs x (p.cancelling x j)).job x).map (·.state) = some .cancelling ∧
    ∀ r d, p.disc r = some d → d.job = some x → d.stage.active = true → d.verdict ≠ .reject →
      (d.stage ≠ .outbound ∨ (∃ m, p.arm.move = some m ∧ m.record = r) →
        ∃ e, (cancelDiscs x (p.cancelling x j)).disc r = some e ∧ e.verdict = .reject ∧ e.reason = some .cancelled) ∧
      (d.stage = .outbound → (∀ m, p.arm.move = some m → m.record ≠ r) → r ∉ p.inkWait →
        ∃ e, (cancelDiscs x (p.cancelling x j)).disc r = some e ∧ e.verdict = d.verdict ∧ e.stage = .hostHold) := by
  have begun : (p.cancelling x j).job x = some { j with state := .cancelling } := Part.setJob_self _ _ _
  obtain ⟨j', job', is', active'⟩ := foldl_cancelOf_job (y := x) allDiscs begun rfl
  have open' : 0 < j'.active := by
    rw [active']
    exact active
  rw [← cancelDiscs_eq] at job'
  refine ⟨closeIdle_active job' open', by rw [job', Option.map_some, is'], fun r d disc named live first => ?_⟩
  refine ⟨fun bound => cancelDiscs_rejects ⟨d, disc, named, live, first, bound.imp_right moving_iff.2⟩,
    fun out still absent => ?_⟩
  refine (cancelDiscs_holds (p := p.cancelling x j) (v := d.verdict) ⟨⟨d, disc, named, out, rfl⟩, first, ?_, absent⟩).1
  exact Bool.eq_false_iff.mpr fun moves => by
    obtain ⟨m, move, own⟩ := moving_iff.1 moves
    exact still m move own

/-- Settles O32: a cancel by the job's state, its discs each by its turn in the fold; a retirement by the job's state and
the records that name it. -/
theorem cancelAndRetireJob : Obligations.CancelAndRetireJob := by
  refine ⟨?_, ?_, fun p x => cancelDiscs_eq x p⟩
  · intro s tag job x j taken number held ans cancelled cancelling isStarted
    have held' : s.part.fresh.job x = some j := held
    have runs : ∀ {q : Part}, reqCancelJob job s.part.fresh = settled q okay → exec (.cancelJob tag job) s = ans q :=
      fun meaning => takeRequest_replied taken 0x35 tag meaning
    have starts : isStarted → exec (.cancelJob tag job) s = ans (closeIdle x (cancelDiscs x cancelling)) :=
      fun started => runs (reqCancelJob_started number held' started)
    refine ⟨fun is => ?_, starts, fun started idle unnamed => ?_, fun started active => ?_,
      fun late => takeRequest_replied taken 0x35 tag (reqCancelJob_ended number held' late), fun started => ?_,
      fun unstarted named => ?_, fun unstarted unnamed => ?_⟩
    · refine runs ?_
      rw [reqCancelJob, withJob_held number held', is]
      exact congrArg (settled · okay) (endJob_held held' _)
    · rw [starts started]
      refine congrArg ans ?_
      rw [cancelDiscs_none (p := cancelling) unnamed]
      exact closeIdle_cancelling idle
    · obtain ⟨stays, state, discs⟩ := cancelDiscs_open (p := s.part.fresh) (x := x) active
      exact ⟨_, (starts started).trans (congrArg ans stays), state, discs⟩
    · refine takeRequest_replied taken 0x38 tag ?_
      rw [reqRetireJob, withJob_held number held', if_pos started]
      rfl
    · refine takeRequest_replied taken 0x38 tag ?_
      rw [reqRetireJob, withJob_held number held', if_neg (by simp [unstarted]), if_pos (jobNamed_iff (p := s.part.fresh).2 named)]
      rfl
    · refine ⟨_, takeRequest_replied taken 0x38 tag ?_, retireJob_leaves x j s.part.fresh⟩
      rw [reqRetireJob, withJob_held number held', if_neg (by simp [unstarted]), if_neg]
      · rfl
      · intro named
        obtain ⟨r, d, disc, its⟩ := jobNamed_iff.1 named
        exact unnamed r d disc its
  · intro p r d held
    refine ⟨cancelDisc_rests held, fun out first still => cancelDisc_holds held out first ?_, fun out first moves => ?_,
      fun active other first => cancelDisc_rejects held active first (.inl other)⟩
    · exact Bool.eq_false_iff.mpr fun moves => by
        obtain ⟨m, move, own⟩ := moving_iff.1 moves
        exact still m move own
    · exact cancelDisc_rejects held (by rw [out]; rfl) first (.inr (moving_iff.2 moves))

end Sys2Proof.Machine
end

