-- ==== Sys2Proof/Proofs/ConfigureReply.lean ====
section
/-! PROOF. What CONFIGURE TOWER answers: whether its values were in range, the body of the values used, its length (R144,
R165, R179, R184). -/

namespace Sys2Proof.Machine

-- One proof after another: side by side, their threads' stacks pass the check's memory limit.
set_option Elab.async false

variable {st : Station} {c : TowerFields} {f : Option Byte} {b : Byte} {lo hi n : Nat} {l : List SupportEntry}

/-! ## Subset bodies tell their fields apart -/

/-- Two fields are as long as each other where both are carried. -/
def SameWidth (f g : Option (List Byte)) : Prop := ∀ a b, f = some a → g = some b → a.length = b.length

theorem carriedBytes_inj {fs gs : List (Option (List Byte))} (alike : List.Forall₂ SameWidth fs gs)
    (word : presence fs = presence gs) (bytes : fs.flatMap (·.getD []) = gs.flatMap (·.getD [])) : fs = gs := by
  induction alike with
  | nil => rfl
  | @cons f g fs gs width _ ih =>
    rw [presence, presence] at word
    rw [List.flatMap_cons, List.flatMap_cons] at bytes
    cases f with
    | none =>
      cases g with
      | none => rw [ih (by simpa using word) (by simpa using bytes)]
      | some b => simp at word; omega
    | some a =>
      cases g with
      | none => simp at word; omega
      | some b =>
        obtain ⟨rfl, rest⟩ := List.append_inj bytes (width a b rfl rfl)
        exact congrArg (some a :: ·) (ih (by simp at word; omega) rest)

/-- Subset bodies of fields alike in width hold the same fields (R184; log 6). -/
theorem subsetBody_inj {fs gs : List (Option (List Byte))} (alike : List.Forall₂ SameWidth fs gs) (few : fs.length ≤ 32)
    (same : subsetBody fs = subsetBody gs) : fs = gs := by
  obtain ⟨word, bytes⟩ := List.append_inj same ((length_le _ _).trans (length_le _ _).symm)
  have read := congrArg unle word
  rw [unle_presence few, unle_presence (alike.length_eq ▸ few)] at read
  exact carriedBytes_inj alike read bytes

/-! ## One field -/

theorem u8_eq (n : Nat) : u8 n = [BitVec.ofNat 8 n] := rfl

theorem stored_eq (lo hi held : Nat) (f : Option Byte) : stored lo hi f held = (clampByte lo hi f).getD held := by
  cases f <;> rfl

/-- A number shows as it came exactly when it was in its range (R165, R179). -/
theorem u8_clamp_iff (narrow : hi < 256) (order : lo ≤ hi) : u8 (clamp lo hi b.toNat) = [b] ↔ lo ≤ b.toNat ∧ b.toNat ≤ hi := by
  have used : clamp lo hi b.toNat ≤ hi := clamp_le order
  rw [u8_eq, List.cons.injEq, and_iff_left rfl, ← clamp_eq_self_iff]
  constructor
  · intro same
    have value := congrArg BitVec.toNat same
    rwa [BitVec.toNat_ofNat, Nat.mod_eq_of_lt (by omega)] at value
  · intro same
    rw [same, BitVec.ofNat_toNat, BitVec.setWidth_eq]

theorem numberField_iff (narrow : hi < 256) (order : lo ≤ hi) :
    (clampByte lo hi f).map u8 = carry1 f ↔ ∀ b ∈ f, lo ≤ b.toNat ∧ b.toNat ≤ hi := by
  cases f with
  | none => simp [clampByte, carry1]
  | some b => simpa [clampByte, carry1] using u8_clamp_iff narrow order

theorem classField (fits : codeFits classOf f = true) : ((f.bind classOf).map fun c => u8 (classCode c)) = carry1 f := by
  cases f with
  | none => rfl
  | some b =>
    simp only [codeFits, classOf] at fits ⊢
    split at fits
    case isTrue is =>
      subst is
      rfl
    case isFalse notA =>
      split at fits
      case isTrue is =>
        subst is
        rfl
      case isFalse => cases fits

theorem onOffField (fits : codeFits onOffOf f = true) : (f.bind onOffOf).map onOffByte = carry1 f := by
  cases f with
  | none => rfl
  | some b =>
    simp only [codeFits, onOffOf] at fits ⊢
    split at fits
    case isTrue is =>
      subst is
      rfl
    case isFalse notA =>
      split at fits
      case isTrue is =>
        subst is
        rfl
      case isFalse => cases fits

/-- A support byte shows as it came when it was absent or in range (R165, R184). -/
theorem supportByte_iff : supportByte (supportOf b) = [b] ↔ b = 0xFF ∨ 1 ≤ b.toNat ∧ b.toNat ≤ 16 := by
  by_cases absent : b = 0xFF
  · subst absent
    exact iff_of_true rfl (.inl rfl)
  · rw [supportOf, if_neg absent, or_iff_right absent]
    exact u8_clamp_iff (by decide) (by decide)

theorem supportByte_eq : supportByte (supportOf b) = [if b = 0xFF then 0xFF else BitVec.ofNat 8 (clamp 1 16 b.toNat)] := by
  rw [supportOf]
  split
  · rfl
  · rfl

/-- The bytes of one entry as it is used. -/
def entryUsed (e : SupportEntry) : List Byte := [e.bay] ++ supportByte (supportOf e.supportA) ++ supportByte (supportOf e.supportB)

theorem entryUsed_iff {e : SupportEntry} : entryUsed e = [e.bay, e.supportA, e.supportB] ↔
    ∀ k ∈ [e.supportA, e.supportB], k = 0xFF ∨ 1 ≤ k.toNat ∧ k.toNat ≤ 16 := by
  have a := supportByte_iff (b := e.supportA)
  have b := supportByte_iff (b := e.supportB)
  rw [supportByte_eq] at a b
  rw [entryUsed, supportByte_eq, supportByte_eq]
  simp only [List.mem_cons, List.not_mem_nil, or_false, forall_eq_or_imp, forall_eq, ← a, ← b]
  simp

theorem length_entryUsed (e : SupportEntry) : (entryUsed e).length = 3 := by
  simp [entryUsed, supportByte_eq]

theorem length_usedEntries (l : List SupportEntry) : (listBytes entryUsed l).length = 1 + 3 * l.length := by
  simp [listBytes, u8_eq, List.length_flatMap, length_entryUsed, mul_comm, add_comm]

theorem entriesUsed_iff : listBytes entryUsed l = listBytes (fun e => [e.bay, e.supportA, e.supportB]) l ↔
    ∀ e ∈ l, ∀ k ∈ [e.supportA, e.supportB], k = 0xFF ∨ 1 ≤ k.toNat ∧ k.toNat ≤ 16 := by
  simp only [← entryUsed_iff]
  rw [listBytes, listBytes, List.append_cancel_left_eq]
  induction l with
  | nil => simp
  | cons e l ih =>
    rw [List.flatMap_cons, List.flatMap_cons, List.forall_mem_cons, ← ih]
    constructor
    · exact fun same => List.append_inj same (length_entryUsed e)
    · rintro ⟨head, tail⟩
      rw [head, tail]

/-! ## All the settings -/

/-- Every value a request carries is in its range, and *critical* is above *warning* (R144, R165). -/
def settingsInRange (st : Station) (c : TowerFields) : Prop :=
  (∀ b ∈ c.installed, 1 ≤ b.toNat ∧ b.toNat ≤ 12) ∧
  (∀ b ∈ c.outputCapacity, 1 ≤ b.toNat ∧ b.toNat ≤ 150) ∧
  (∀ b ∈ c.binCapacity, 1 ≤ b.toNat ∧ b.toNat ≤ 60) ∧
  (∀ b ∈ c.progressTimeout, 2 ≤ b.toNat ∧ b.toNat ≤ 60) ∧
  (∀ b ∈ c.moveTimeout, 2 ≤ b.toNat ∧ b.toNat ≤ 30) ∧ (∀ b ∈ c.joinHold, b.toNat ≤ 30) ∧
  (∀ b ∈ c.splitThreshold, 8 ≤ b.toNat ∧ b.toNat ≤ 56) ∧
  (∀ b ∈ c.warning, 30 ≤ b.toNat ∧ b.toNat ≤ 90) ∧
  (∀ b ∈ c.critical, 35 ≤ b.toNat ∧ b.toNat ≤ 100) ∧
  stored 30 90 c.warning st.warning < stored 35 100 c.critical st.critical ∧
  ∀ e ∈ c.support.getD [], ∀ k ∈ [e.supportA, e.supportB], k = 0xFF ∨ 1 ≤ k.toNat ∧ k.toNat ≤ 16

theorem usedCritical_eq : usedCritical st c =
    if stored 35 100 c.critical st.critical ≤ stored 30 90 c.warning st.warning then
      some (stored 30 90 c.warning st.warning + 5)
    else clampByte 35 100 c.critical := by
  simp only [stored_eq]
  rfl

theorem stored_range {held : Nat} (order : lo ≤ hi) (low : lo ≤ held) (high : held ≤ hi) :
    lo ≤ stored lo hi f held ∧ stored lo hi f held ≤ hi := by
  cases f with
  | none => exact ⟨low, high⟩
  | some b => exact ⟨le_clamp order, clamp_le order⟩

/-- *critical* shows as it came when it was in range and above *warning* (R144, R165). -/
theorem criticalField_inRange (ok : st.limitsOk) (same : (usedCritical st c).map u8 = carry1 c.critical) :
    (∀ b ∈ c.critical, 35 ≤ b.toNat ∧ b.toNat ≤ 100) ∧
      stored 30 90 c.warning st.warning < stored 35 100 c.critical st.critical := by
  obtain ⟨warnLow, warnHigh, critLow, critHigh, -⟩ := ok
  have warning := stored_range (f := c.warning) (by decide) warnLow warnHigh
  rw [usedCritical_eq] at same
  split at same
  case isFalse above => exact ⟨(numberField_iff (by decide) (by decide)).1 same, by omega⟩
  case isTrue below =>
    cases carried : c.critical with
    | none =>
      rw [carried] at same
      cases same
    | some b =>
      rw [carried] at same below
      have value := congrArg BitVec.toNat (List.cons.inj (Option.some.inj same)).1
      rw [BitVec.toNat_ofNat, Nat.mod_eq_of_lt (by omega)] at value
      have asIs : clamp 35 100 b.toNat = b.toNat := clamp_eq_self_iff.2 (by omega)
      have below' : clamp 35 100 b.toNat ≤ stored 30 90 c.warning st.warning := below
      omega

theorem criticalField (inRange : ∀ b ∈ c.critical, 35 ≤ b.toNat ∧ b.toNat ≤ 100)
    (above : stored 30 90 c.warning st.warning < stored 35 100 c.critical st.critical) :
    (usedCritical st c).map u8 = carry1 c.critical := by
  rw [usedCritical_eq, if_neg (by omega)]
  exact (numberField_iff (by decide) (by decide)).2 inRange

/-- The fields of the values used (R165; log 9). -/
def usedFields (st : Station) (c : TowerFields) : List (Option (List Byte)) :=
  [(clampByte 1 12 c.installed).map u8, c.support.map (listBytes entryUsed), (c.spindleA.bind classOf).map fun c => u8 (classCode c),
    (c.spindleB.bind classOf).map fun c => u8 (classCode c), (clampByte 1 150 c.outputCapacity).map u8,
    (clampByte 1 60 c.binCapacity).map u8, (clampByte 2 60 c.progressTimeout).map u8, (clampByte 2 30 c.moveTimeout).map u8,
    (clampByte 0 30 c.joinHold).map u8, (clampByte 8 56 c.splitThreshold).map u8, (c.splitSetting.bind onOffOf).map onOffByte,
    (c.surveyReserve.bind onOffOf).map onOffByte, (c.autoRetire.bind onOffOf).map onOffByte, (clampByte 30 90 c.warning).map u8,
    (usedCritical st c).map u8]

theorem usedBody_eq : (usedSettings st c).body = subsetBody (usedFields st c) := rfl

theorem carriedBody_eq : carriedBody c = subsetBody (towerCarried c) := rfl

theorem supportField_iff : c.support.map (listBytes entryUsed) = carryEntries c.support ↔
    ∀ e ∈ c.support.getD [], ∀ k ∈ [e.supportA, e.supportB], k = 0xFF ∨ 1 ≤ k.toNat ∧ k.toNat ≤ 16 := by
  cases c.support with
  | none => simp [carryEntries]
  | some l => exact (Option.some_inj).trans entriesUsed_iff

section Fit
variable (fits : settingCodesFit c = true)
include fits

theorem codes_fit : codeFits classOf c.spindleA = true ∧ codeFits classOf c.spindleB = true ∧
    codeFits onOffOf c.splitSetting = true ∧ codeFits onOffOf c.surveyReserve = true ∧ codeFits onOffOf c.autoRetire = true := by
  simpa [settingCodesFit, and_assoc] using fits

/-- The values used are those carried when every one was in range (R165, R179). -/
theorem usedFields_inRange (inRange : settingsInRange st c) : usedFields st c = towerCarried c := by
  obtain ⟨installed, output, bin, progress, move, join, split, warning, critical, above, entries⟩ := inRange
  obtain ⟨spindleA, spindleB, splitOn, reserve, retire⟩ := codes_fit fits
  have number {lo hi : Nat} {f : Option Byte} (narrow : hi < 256) (order : lo ≤ hi)
      (carried : ∀ b ∈ f, lo ≤ b.toNat ∧ b.toNat ≤ hi) := (numberField_iff narrow order).2 carried
  rw [usedFields, towerCarried, number (by decide) (by decide) installed, supportField_iff.2 entries, classField spindleA,
    classField spindleB, number (by decide) (by decide) output, number (by decide) (by decide) bin,
    number (by decide) (by decide) progress, number (by decide) (by decide) move,
    number (lo := 0) (by decide) (by decide) fun b carried => ⟨Nat.zero_le _, join b carried⟩,
    number (by decide) (by decide) split, onOffField splitOn, onOffField reserve, onOffField retire,
    number (by decide) (by decide) warning, criticalField critical above]

omit fits in
theorem inRange_of_usedFields (ok : st.limitsOk) (same : usedFields st c = towerCarried c) : settingsInRange st c := by
  simp only [usedFields, towerCarried, List.cons.injEq, and_true] at same
  obtain ⟨installed, entries, -, -, output, bin, progress, move, join, split, -, -, -, warning, critical⟩ := same
  obtain ⟨critical, above⟩ := criticalField_inRange ok critical
  have number {lo hi : Nat} {f : Option Byte} (narrow : hi < 256) (order : lo ≤ hi)
      (shown : (clampByte lo hi f).map u8 = carry1 f) := (numberField_iff narrow order).1 shown
  exact ⟨number (by decide) (by decide) installed, number (by decide) (by decide) output, number (by decide) (by decide) bin,
    number (by decide) (by decide) progress, number (by decide) (by decide) move,
    fun b carried => (number (by decide) (by decide) join b carried).2, number (by decide) (by decide) split,
    number (by decide) (by decide) warning, critical, above, supportField_iff.1 entries⟩

end Fit

theorem fields_alike : List.Forall₂ SameWidth (usedFields st c) (towerCarried c) := by
  have single {f : Option Byte} {α : Type} (o : Option α) (g : α → List Byte) (one : ∀ a, (g a).length = 1) :
      SameWidth (o.map g) (carry1 f) := fun a b used carried => by
    obtain ⟨x, -, rfl⟩ := Option.map_eq_some_iff.1 used
    obtain ⟨y, -, rfl⟩ := Option.map_eq_some_iff.1 carried
    exact one x
  have number {f : Option Byte} (o : Option Nat) : SameWidth (o.map u8) (carry1 f) := single o u8 fun _ => rfl
  have switch {f : Option Byte} (o : Option Bool) : SameWidth (o.map onOffByte) (carry1 f) :=
    single o onOffByte fun on => by cases on <;> rfl
  have cls {f : Option Byte} (o : Option DiscClass) : SameWidth (o.map fun c => u8 (classCode c)) (carry1 f) :=
    single o _ fun _ => rfl
  have entries : SameWidth (c.support.map (listBytes entryUsed)) (carryEntries c.support) := fun a b used carried => by
    obtain ⟨l, is, rfl⟩ := Option.map_eq_some_iff.1 used
    obtain ⟨l', is', rfl⟩ := Option.map_eq_some_iff.1 carried
    obtain rfl : l = l' := Option.some.inj (is.symm.trans is')
    rw [length_usedEntries, length_entries]
  exact .cons (number _) <| .cons entries <| .cons (cls _) <| .cons (cls _) <| .cons (number _) <| .cons (number _) <|
    .cons (number _) <| .cons (number _) <| .cons (number _) <| .cons (number _) <| .cons (switch _) <| .cons (switch _) <|
    .cons (switch _) <| .cons (number _) <| .cons (number _) .nil

/-- The reply's body is not the carried one exactly when a value was out of range (R165, R179). -/
theorem usedBody_inRange (fits : settingCodesFit c = true) (inRange : settingsInRange st c) :
    (usedSettings st c).body = carriedBody c := by
  rw [usedBody_eq, carriedBody_eq, usedFields_inRange fits inRange]

theorem inRange_of_usedBody (ok : st.limitsOk) (same : (usedSettings st c).body = carriedBody c) : settingsInRange st c :=
  inRange_of_usedFields ok (subsetBody_inj fields_alike (by simp [usedFields]) same)

/-! ## The body of the values used -/

/-- The body of the values used as the statement writes it, the entries that stand alone (R165; logs 9, 41). -/
theorem standingBody_eq (fits : settingCodesFit c = true) : (usedSettings st c).standing.body =
    subsetBody
      [c.installed.map fun k => [BitVec.ofNat 8 (clamp 1 12 k.toNat)],
        c.support.map fun l => listBytes (fun e => [e.bay,
          if e.supportA = 0xFF then 0xFF else BitVec.ofNat 8 (clamp 1 16 e.supportA.toNat),
          if e.supportB = 0xFF then 0xFF else BitVec.ofNat 8 (clamp 1 16 e.supportB.toNat)]) (standingEntries l),
        c.spindleA.map fun k => [k], c.spindleB.map fun k => [k],
        c.outputCapacity.map fun k => [BitVec.ofNat 8 (clamp 1 150 k.toNat)],
        c.binCapacity.map fun k => [BitVec.ofNat 8 (clamp 1 60 k.toNat)],
        c.progressTimeout.map fun k => [BitVec.ofNat 8 (clamp 2 60 k.toNat)],
        c.moveTimeout.map fun k => [BitVec.ofNat 8 (clamp 2 30 k.toNat)],
        c.joinHold.map fun k => [BitVec.ofNat 8 (clamp 0 30 k.toNat)],
        c.splitThreshold.map fun k => [BitVec.ofNat 8 (clamp 8 56 k.toNat)],
        c.splitSetting.map fun k => [k], c.surveyReserve.map fun k => [k], c.autoRetire.map fun k => [k],
        c.warning.map fun k => [BitVec.ofNat 8 (clamp 30 90 k.toNat)],
        if stored 35 100 c.critical st.critical ≤ stored 30 90 c.warning st.warning then
          some [BitVec.ofNat 8 (stored 30 90 c.warning st.warning + 5)]
        else c.critical.map fun k => [BitVec.ofNat 8 (clamp 35 100 k.toNat)]] := by
  obtain ⟨spindleA, spindleB, splitOn, reserve, retire⟩ := codes_fit fits
  have number (lo hi : Nat) (f : Option Byte) : (clampByte lo hi f).map u8 = f.map fun k => [BitVec.ofNat 8 (clamp lo hi k.toNat)] := by
    cases f <;> rfl
  have entries : (c.support.map standingEntries).map (listBytes entryUsed) = c.support.map fun l => listBytes
      (fun e => [e.bay, if e.supportA = 0xFF then 0xFF else BitVec.ofNat 8 (clamp 1 16 e.supportA.toNat),
        if e.supportB = 0xFF then 0xFF else BitVec.ofNat 8 (clamp 1 16 e.supportB.toNat)]) (standingEntries l) := by
    rw [Option.map_map]
    refine congrArg (fun g => c.support.map g) (funext fun l => ?_)
    refine congrArg (fun g => listBytes g (standingEntries l)) (funext fun e => ?_)
    rw [entryUsed, supportByte_eq, supportByte_eq]
    rfl
  have critical : (usedCritical st c).map u8 =
      if stored 35 100 c.critical st.critical ≤ stored 30 90 c.warning st.warning then
        some [BitVec.ofNat 8 (stored 30 90 c.warning st.warning + 5)]
      else c.critical.map fun k => [BitVec.ofNat 8 (clamp 35 100 k.toNat)] := by
    rw [usedCritical_eq]
    split
    · rfl
    · exact number 35 100 c.critical
  rw [← entries, ← critical, ← number, ← number, ← number, ← number, ← number, ← number, ← number, ← number]
  have cls := classField spindleA
  have cls' := classField spindleB
  have on := onOffField splitOn
  have on' := onOffField reserve
  have on'' := onOffField retire
  unfold carry1 at cls cls' on on' on''
  rw [← cls, ← cls', ← on, ← on', ← on'']
  rfl

/-! ## Its length -/

theorem length_mapped {α : Type} {o : Option α} {g : α → List Byte} {n : Nat} (each : ∀ a, (g a).length ≤ n) :
    ((o.map g).getD []).length ≤ n := by
  cases o with
  | none => exact Nat.zero_le n
  | some a => exact each a

theorem length_flatMap_le {fs : List (Option (List Byte))} (each : ∀ f ∈ fs, (f.getD []).length ≤ 1) :
    (fs.flatMap (·.getD [])).length ≤ fs.length := by
  induction fs with
  | nil => exact Nat.le_refl 0
  | cons f fs ih =>
    obtain ⟨head, tail⟩ := List.forall_mem_cons.1 each
    have := ih tail
    rw [List.flatMap_cons, List.length_append, List.length_cons]
    omega

theorem standingBody_length (bays : ∀ e ∈ c.support.getD [], e.bay.toNat ≤ 11) :
    ((usedSettings st c).standing.body).length ≤ 251 := by
  have entries : (((c.support.map standingEntries).map (listBytes entryUsed)).getD []).length ≤ 37 := by
    cases carried : c.support with
    | none => exact Nat.zero_le _
    | some l =>
      rw [carried] at bays
      have short := standingEntries_length l bays
      show (listBytes entryUsed (standingEntries l)).length ≤ 37
      rw [length_usedEntries]
      omega
  have number (o : Option Nat) : ((o.map u8).getD []).length ≤ 1 := length_mapped fun _ => Nat.le_refl 1
  have switch (o : Option Bool) : ((o.map onOffByte).getD []).length ≤ 1 := length_mapped fun on => by cases on <;> decide
  have cls (o : Option DiscClass) : ((o.map fun c => u8 (classCode c)).getD []).length ≤ 1 :=
    length_mapped fun _ => Nat.le_refl 1
  have rest : ∀ f ∈ (usedFields st c).drop 2, (f.getD []).length ≤ 1 := by
    simp only [usedFields, List.drop_succ_cons, List.drop_zero, List.forall_mem_cons, number, switch, cls, true_and]
    exact List.forall_mem_nil _
  have is : (usedSettings st c).standing.body = subsetBody ((clampByte 1 12 c.installed).map u8 ::
      (c.support.map standingEntries).map (listBytes entryUsed) :: (usedFields st c).drop 2) := rfl
  have tail := length_flatMap_le rest
  have first := number (clampByte 1 12 c.installed)
  rw [is, subsetBody, List.length_append, u32, length_le, List.flatMap_cons, List.flatMap_cons, List.length_append,
    List.length_append]
  have count : ((usedFields st c).drop 2).length = 13 := rfl
  omega

end Sys2Proof.Machine
end

