-- ==== Sys2Proof/Proofs/ConfigureTower.lean ====
section
/-! PROOF. CONFIGURE TOWER: what it stores, and its refusals (R64, R144, R165). -/

namespace Sys2Proof.Machine

-- One proof after another: side by side, their threads' stacks pass the check's memory limit.
set_option Elab.async false

variable {p q : Part} {s : State} {tag : Byte} {c : TowerFields} {u : Settings} {b : Fin 12} {n : Nat} {l : List SupportEntry}

/-! ## The bays -/

/-- A bay beyond a new installed count leaves the set (R64). -/
def leaveSet (n : Nat) (p : Part) (b : Fin 12) : Part :=
  if p.installed b && decide (n ≤ b.val) then p.modBay b (·.uninstalled) else p

theorem leaveSet_tower (p : Part) (b : Fin 12) : (leaveSet n p b).tower = p.tower := by
  unfold leaveSet
  split <;> rfl

theorem leaveSet_bay (p : Part) (b k : Fin 12) : (leaveSet n p b).bay k =
    if k = b ∧ k.val < p.tower.installed ∧ n ≤ k.val then (p.bay k).uninstalled else p.bay k := by
  unfold leaveSet Part.installed
  by_cases same : k = b
  · subst same
    simp only [Bool.and_eq_true, decide_eq_true_eq, true_and]
    split
    · exact Part.setBay_self _ _ _
    · rfl
  · rw [if_neg (c := k = b ∧ _) fun both => same both.1]
    split
    · exact Part.setBay_other _ _ _ _ same
    · rfl

theorem foldl_leaveSet_bay (l : List (Fin 12)) (nodup : l.Nodup) (p : Part) (k : Fin 12) : (l.foldl (leaveSet n) p).bay k =
    if k ∈ l ∧ k.val < p.tower.installed ∧ n ≤ k.val then (p.bay k).uninstalled else p.bay k := by
  induction l generalizing p with
  | nil => simp
  | cons b l ih =>
    obtain ⟨fresh, nodup⟩ := List.nodup_cons.mp nodup
    rw [List.foldl_cons, ih nodup, leaveSet_tower, leaveSet_bay]
    by_cases same : k = b
    · subst same
      simp [fresh]
    · simp [same]

theorem foldl_leaveSet_tower (l : List (Fin 12)) (p : Part) : (l.foldl (leaveSet n) p).tower = p.tower := by
  induction l generalizing p with
  | nil => rfl
  | cons b l ih => rw [List.foldl_cons, ih, leaveSet_tower]

theorem storeInstalled_eq (n : Nat) (p : Part) : storeInstalled n p = { allBays.foldl (leaveSet n) p with
    tower := { (allBays.foldl (leaveSet n) p).tower with installed := n } } := by
  unfold storeInstalled leaveSet
  rfl

/-- The bays once the installed count is stored: those that leave the set are as after a device reset (R64, R165). -/
theorem storeInstalled_bay (n : Nat) (p : Part) (k : Fin 12) : (storeInstalled n p).bay k =
    if n ≤ k.val ∧ k.val < p.tower.installed then (p.bay k).uninstalled else p.bay k := by
  have left := foldl_leaveSet_bay (n := n) allBays (by decide) p k
  simp only [mem_allBays, true_and, and_comm] at left
  rw [storeInstalled_eq, ← left]
  generalize allBays.foldl (leaveSet n) p = q
  rfl

theorem storeInstalled_tower (n : Nat) (p : Part) : (storeInstalled n p).tower = { p.tower with installed := n } := by
  rw [storeInstalled_eq]
  dsimp only
  rw [foldl_leaveSet_tower]

/-- The bay with an entry's class support, if there is one for it (R165). -/
def Bay.supporting (x : Bay) (e : Option SupportEntry) : Bay :=
  match e with
  | some e => { x with supportA := supportOf e.supportA, supportB := supportOf e.supportB }
  | none => x

theorem storeSupport_bay (p : Part) (e : SupportEntry) (k : Fin 12) : (storeSupport p e).bay k =
    if e.bay.toNat = k.val then (p.bay k).supporting (some e) else p.bay k := by
  unfold storeSupport
  by_cases named : e.bay.toNat = k.val
  · rw [idx_of_eq named, if_pos named]
    exact Part.setBay_self _ _ _
  · rw [if_neg named]
    split
    case h_1 b is =>
      have other : k ≠ b := by
        rintro rfl
        unfold idx at is
        split at is
        · exact named (congrArg Fin.val (Option.some.inj is))
        · cases is
      exact Part.setBay_other _ _ _ _ other
    case h_2 => rfl

/-- Of the entries for a bay the last stands (R165; log 41). -/
theorem foldl_storeSupport_bay (l : List SupportEntry) (p : Part) (k : Fin 12) : (l.foldl storeSupport p).bay k =
    (p.bay k).supporting (l.reverse.find? fun e => e.bay.toNat == k.val) := by
  induction l using List.reverseRecOn with
  | nil => rfl
  | append_singleton l e ih =>
    rw [List.foldl_append, List.foldl_cons, List.foldl_nil, storeSupport_bay, List.reverse_append, List.reverse_singleton,
      List.singleton_append, List.find?_cons, ih]
    by_cases named : e.bay.toNat = k.val
    · simp only [named, if_true, beq_self_eq_true]
      cases l.reverse.find? fun e => e.bay.toNat == k.val <;> rfl
    · simp only [named, if_false, beq_eq_false_iff_ne.2 named]

/-! ## The sinks, the spindles and the settings -/

/-- The part with the installed count and the class support stored (R165). -/
def storeBays (u : Settings) (p : Part) : Part :=
  (u.support.getD []).foldl storeSupport
    (match u.installed with
    | some n => storeInstalled n p
    | none => p)

theorem storeBays_changes : p.Changes [.bays, .tower] (storeBays u p) := by
  unfold storeBays
  refine Part.Changes.step (gs := [.bays]) ?_ (.fold (fun _ _ => storeSupport_changes) _ _) rfl
  split
  · exact storeInstalled_changes
  · exact .refl _ _

theorem storeBays_tower : (storeBays u p).tower = { p.tower with installed := u.installed.getD p.tower.installed } := by
  have supports (q : Part) : ((u.support.getD []).foldl storeSupport q).tower = q.tower :=
    Part.Changes.fold (fs := [.bays]) (fun _ _ => storeSupport_changes) _ q .tower (by simp)
  rw [storeBays, supports]
  split
  case h_1 n is =>
    rw [storeInstalled_tower, is]
    rfl
  case h_2 is =>
    rw [is]
    rfl

theorem storeBays_bay (k : Fin 12) : (storeBays u p).bay k =
    (if u.installed.getD p.tower.installed ≤ k.val ∧ k.val < p.tower.installed then (p.bay k).uninstalled
      else p.bay k).supporting ((u.support.getD []).reverse.find? fun e => e.bay.toNat == k.val) := by
  rw [storeBays, foldl_storeSupport_bay]
  congr 1
  split
  case h_1 n is =>
    rw [storeInstalled_bay, is]
    rfl
  case h_2 is =>
    rw [is, if_neg]
    simp only [Option.getD_none]
    omega

/-- The flags after a change of the sinks' capacities (R45). -/
def Part.capacityFlags (p : Part) (u : Settings) : Attention :=
  let bin := if !p.bin.full && Sink.full { p.bin with capacity := u.binCapacity.getD p.bin.capacity } then
    p.attn.raise .rejectFull p.now else p.attn
  if !p.output.full && Sink.full { p.output with capacity := u.outputCapacity.getD p.output.capacity } then
    bin.raise .outputFull p.now else bin

theorem storeCapacities_eq : storeCapacities u p = { p with
    output := { p.output with capacity := u.outputCapacity.getD p.output.capacity }
    bin := { p.bin with capacity := u.binCapacity.getD p.bin.capacity }
    attn := p.capacityFlags u } := by
  unfold storeCapacities Part.capacityFlags
  rw [raiseIf_eq, raiseIf_eq]

theorem capacityFlags_isSet (f : Flag) (notOutput : f ≠ .outputFull) (notReject : f ≠ .rejectFull) :
    (p.capacityFlags u).isSet f = p.attn.isSet f := by
  unfold Part.capacityFlags
  dsimp only
  split <;> split <;> simp [notOutput, notReject]

/-- The part after every carried setting is stored (R144, R165). -/
theorem storeSettings_stored : storeSettings u p = { storeBays u p with
    output := { p.output with capacity := u.outputCapacity.getD p.output.capacity }
    bin := { p.bin with capacity := u.binCapacity.getD p.bin.capacity }
    attn := p.capacityFlags u
    spindleA := { p.spindleA with cls := u.spindleA.getD p.spindleA.cls }
    spindleB := { p.spindleB with cls := u.spindleB.getD p.spindleB.cls }
    station := { p.station with
      warning := u.warning.getD p.station.warning, critical := u.critical.getD p.station.critical }
    tower := storeTower u { p.tower with installed := u.installed.getD p.tower.installed } } := by
  have changes : p.Changes [.bays, .tower] (storeBays u p) := storeBays_changes
  have output : (storeBays u p).output = p.output := changes .output (by decide)
  have bin : (storeBays u p).bin = p.bin := changes .bin (by decide)
  have attn : (storeBays u p).attn = p.attn := changes .attn (by decide)
  have now : (storeBays u p).now = p.now := changes .now (by decide)
  have spindleA : (storeBays u p).spindleA = p.spindleA := changes .spindleA (by decide)
  have spindleB : (storeBays u p).spindleB = p.spindleB := changes .spindleB (by decide)
  have station : (storeBays u p).station = p.station := changes .station (by decide)
  have is : storeBaysAndSinks u p = storeCapacities u (storeBays u p) := rfl
  rw [storeSettings_eq, is, storeCapacities_eq]
  dsimp only
  simp only [Part.capacityFlags, output, bin, attn, now, spindleA, spindleB, station, storeBays_tower]

/-! ## The request -/

theorem settingCodesFit_iff : settingCodesFit c = true ↔
    ∀ f ∈ [c.spindleA, c.spindleB, c.splitSetting, c.surveyReserve, c.autoRetire], ∀ b ∈ f, b.toNat ≤ 1 := by
  have codes {α : Type} (of : Byte → Option α) (two : ∀ b, (of b).isSome = true ↔ b.toNat ≤ 1) (f : Option Byte) :
      codeFits of f = true ↔ ∀ b ∈ f, b.toNat ≤ 1 := by
    cases f with
    | none => simp [codeFits]
    | some b => simpa [codeFits] using two b
  have cls (b : Byte) : (classOf b).isSome = true ↔ b.toNat ≤ 1 := by
    revert b
    decide
  have onOff (b : Byte) : (onOffOf b).isSome = true ↔ b.toNat ≤ 1 := by
    revert b
    decide
  simp only [settingCodesFit, Bool.and_eq_true, codes classOf cls, codes onOffOf onOff, List.forall_mem_cons, and_assoc]
  simp

theorem supportBaysFit_iff : supportBaysFit c = true ↔ ∀ e ∈ c.support.getD [], e.bay.toNat ≤ 11 := by
  unfold supportBaysFit
  cases c.support with
  | none => simp
  | some l => simp

theorem leavesOccupied_iff : p.leavesOccupied n = true ↔
    ∃ b : Fin 12, n ≤ b.val ∧ b.val < p.tower.installed ∧ (p.occupant (.bay b)).isSome = true := by
  simp only [Part.leavesOccupied, List.any_eq_true, mem_allBays, true_and, Bool.and_eq_true, Part.installed, decide_eq_true_eq]
  exact exists_congr fun b => ⟨fun ⟨⟨inside, out⟩, held⟩ => ⟨out, inside, held⟩, fun ⟨out, inside, held⟩ => ⟨⟨inside, out⟩, held⟩⟩

section Refusals
variable (fits : settingCodesFit c = true)
include fits

theorem reqConfigureTower_running (running : p.tower.state ≠ .stopped) : reqConfigureTower c p = turnDown .badState p := by
  simp only [reqConfigureTower, fits, Bool.not_true, Bool.false_eq_true, if_false, ne_eq, running, not_false_eq_true, if_true]

variable (stopped : p.tower.state = .stopped)
include stopped

theorem reqConfigureTower_noBay (high : ∃ e ∈ c.support.getD [], 11 < e.bay.toNat) :
    reqConfigureTower c p = turnDown .outOfRange p := by
  have unfit : supportBaysFit c = false := Bool.eq_false_iff.mpr fun fit => by
    obtain ⟨e, mem, beyond⟩ := high
    have := supportBaysFit_iff.1 fit e mem
    omega
  simp [reqConfigureTower, fits, stopped, unfit]

variable (bays : ∀ e ∈ c.support.getD [], e.bay.toNat ≤ 11)
include bays

theorem reqConfigureTower_busy (held : ∃ b : Fin 12, stored 1 12 c.installed p.tower.installed ≤ b.val ∧
    b.val < p.tower.installed ∧ (p.occupant (.bay b)).isSome = true) : reqConfigureTower c p = turnDown .busy p := by
  rw [stored_eq] at held
  have leaves := leavesOccupied_iff.2 held
  simp only [reqConfigureTower, fits, stopped, supportBaysFit_iff.2 bays, usedSettings, leaves, Bool.not_true, ne_eq,
    not_true_eq_false, Bool.false_eq_true, if_false, if_true]

theorem reqConfigureTower_stores (empty : ∀ b : Fin 12, stored 1 12 c.installed p.tower.installed ≤ b.val →
    b.val < p.tower.installed → p.occupant (.bay b) = none) : reqConfigureTower c p =
      (storeSettings (usedSettings p.station c) p, okOrClamped ((usedSettings p.station c).body != carriedBody c) []
        (usedSettings p.station c).standing.body) := by
  have stays : p.leavesOccupied ((clampByte 1 12 c.installed).getD p.tower.installed) = false :=
    Bool.eq_false_iff.mpr fun leaves => by
      obtain ⟨b, out, inside, held⟩ := leavesOccupied_iff.1 leaves
      rw [← stored_eq] at out
      rw [empty b out inside] at held
      cases held
  have used : (usedSettings p.station c).installed = clampByte 1 12 c.installed := rfl
  simp only [reqConfigureTower, fits, stopped, supportBaysFit_iff.2 bays, used, stays, Bool.not_true, ne_eq,
    not_true_eq_false, Bool.false_eq_true, if_false]

end Refusals

/-! ## What is stored, as the request carries it -/

section Stored
variable (c : TowerFields) (p : Part)

/-- The part after a CONFIGURE TOWER that is taken. -/
def Part.configured (p : Part) (c : TowerFields) : Part := storeSettings (usedSettings p.station c) p

theorem configured_eq : p.configured c = { storeBays (usedSettings p.station c) p with
    output := { p.output with capacity := stored 1 150 c.outputCapacity p.output.capacity }
    bin := { p.bin with capacity := stored 1 60 c.binCapacity p.bin.capacity }
    attn := p.capacityFlags (usedSettings p.station c)
    spindleA := { p.spindleA with cls := (c.spindleA.bind classOf).getD p.spindleA.cls }
    spindleB := { p.spindleB with cls := (c.spindleB.bind classOf).getD p.spindleB.cls }
    station := { p.station with
      warning := stored 30 90 c.warning p.station.warning, critical := (usedCritical p.station c).getD p.station.critical }
    tower := storeTower (usedSettings p.station c)
      { p.tower with installed := stored 1 12 c.installed p.tower.installed } } := by
  rw [Part.configured, storeSettings_stored, stored_eq, stored_eq, stored_eq, stored_eq]
  rfl

theorem configured_changes : p.Changes [.tower, .bays, .spindleA, .spindleB, .output, .bin, .attn, .station] (p.configured c) := by
  rw [configured_eq]
  have first : p.Changes [.bays, .tower] (storeBays (usedSettings p.station c) p) := storeBays_changes
  generalize storeBays (usedSettings p.station c) p = q at first ⊢
  refine .step (first.widen rfl) (gs := [.tower, .spindleA, .spindleB, .output, .bin, .attn, .station]) ?_ rfl
  exact fun f own => by cases f <;> first | rfl | simp at own

theorem configured_tower : (p.configured c).tower = { p.tower with
    installed := stored 1 12 c.installed p.tower.installed
    progressTimeout := (match c.progressTimeout with
      | some b => 1000 * clamp 2 60 b.toNat | none => p.tower.progressTimeout)
    moveTimeout := (match c.moveTimeout with
      | some b => 1000 * clamp 2 30 b.toNat | none => p.tower.moveTimeout)
    joinHold := (match c.joinHold with
      | some b => 1000 * clamp 0 30 b.toNat | none => p.tower.joinHold)
    splitThreshold := stored 8 56 c.splitThreshold p.tower.splitThreshold
    splitOn := (c.splitSetting.bind onOffOf).getD p.tower.splitOn
    surveyReserve := (c.surveyReserve.bind onOffOf).getD p.tower.surveyReserve
    autoRetire := (c.autoRetire.bind onOffOf).getD p.tower.autoRetire } := by
  rw [configured_eq]
  simp only [storeTower, usedSettings]
  rw [stored_eq 8]
  cases c.progressTimeout <;> cases c.moveTimeout <;> cases c.joinHold <;> rfl

theorem configured_station : (p.configured c).station = { p.station with
    warning := stored 30 90 c.warning p.station.warning
    critical := if stored 35 100 c.critical p.station.critical ≤ stored 30 90 c.warning p.station.warning then
      stored 30 90 c.warning p.station.warning + 5 else stored 35 100 c.critical p.station.critical } := by
  rw [configured_eq]
  dsimp only
  rw [usedCritical_eq]
  split
  · rfl
  · rw [stored_eq 35]

theorem configured_bay (b : Fin 12) : (p.configured c).bay b =
    (if stored 1 12 c.installed p.tower.installed ≤ b.val ∧ b.val < p.tower.installed then (p.bay b).uninstalled
      else p.bay b).supporting ((c.support.getD []).reverse.find? fun e => e.bay.toNat == b.val) := by
  have is : (p.configured c).bay b = (storeBays (usedSettings p.station c) p).bay b := by
    rw [configured_eq]
    rfl
  rw [is, storeBays_bay, stored_eq]
  rfl

end Stored

theorem uninstalled_if {out inside : Prop} [Decidable out] [Decidable inside] (x : Bay) :
    (if out ∧ inside then x.uninstalled else x) =
      if out ∧ inside ∧ x.state ≠ .offline then
        { Bay.reset with loads := x.loads, goods := x.goods, failures := x.failures }
      else x := by
  unfold Bay.uninstalled
  by_cases offline : x.state = .offline <;> simp [offline]

/-- Settles O28: the refusals in their order; what is stored, setting by setting; the reply, by the comparison of the
values used with those carried. -/
theorem configureTower : Obligations.ConfigureTower := by
  refine ⟨⟨fun s tag c taken => ?_, rfl, fun _ _ => rfl⟩, fun c => settingCodesFit_iff⟩
  intro no entries t
  have answers {a : Answer} {q : Part} (meaning : reqConfigureTower c s.part.fresh = (q, a)) :
      exec (.configureTower tag c) s = .next (s.replied 0x02 tag a q) := takeRequest_replied taken 0x02 tag meaning
  refine ⟨fun unfit => answers (by rw [reqConfigureTower, unfit]; rfl),
    fun fits running => answers (reqConfigureTower_running fits running),
    fun fits stopped high => answers (reqConfigureTower_noBay fits stopped high), fun fits stopped bays => ?_⟩
  intro n warning critical number asIs usedSupport inRange usedBody
  refine ⟨fun held => answers (reqConfigureTower_busy fits stopped bays held), fun empty => ?_⟩
  refine ⟨_, s.part.fresh.configured c, answers (reqConfigureTower_stores fits stopped bays empty),
    configured_changes c _, configured_tower c _, ?_, ?_, ?_, ?_, configured_station c _, fun b => ?_, fun f notOutput notReject => ?_,
    fun within => ?_, fun without ok => ?_, ?_⟩
  · rw [configured_eq]
    rfl
  · rw [configured_eq]
    rfl
  · rw [configured_eq]
    rfl
  · rw [configured_eq]
    rfl
  · rw [configured_bay, uninstalled_if]
    unfold Bay.supporting
    cases (c.support.getD []).reverse.find? fun e => e.bay.toNat == b.val <;> rfl
  · rw [configured_eq]
    exact capacityFlags_isSet f notOutput notReject
  · have same := usedBody_inRange fits within
    rw [show s.part.fresh.station = s.part.station from rfl, same, bne_self_eq_false]
    rfl
  · have other : (usedSettings s.part.station c).body ≠ carriedBody c := mt (inRange_of_usedBody ok) without
    rw [show s.part.fresh.station = s.part.station from rfl, bne_iff_ne.2 other, okOrClamped_true, standingBody_eq fits]
  · unfold okOrClamped
    split
    · exact standingBody_length bays
    · exact Nat.zero_le _

end Sys2Proof.Machine
end

