-- ==== Sys2Proof/Proofs/DefineJob.lean ====
section
/-! PROOF. DEFINE JOB, the refusals of requests that name a job, and the codes of named values (R21, R22, R25, R103,
R147, R176, R184). -/

namespace Sys2Proof.Machine

-- One proof after another: side by side, their threads' stacks pass the check's memory limit.
set_option Elab.async false

variable {p q : Part} {s : State} {f : JobFields} {k : JobKind} {b tag job : Byte} {x : Fin 16} {i : Fin 32} {t : Fin 8}
  {y : Image} {z : Template} {d : JobSpec} {c : DiscClass} {image : Option (Fin 32)} {template : Option (Fin 8)}

/-! ## Codes -/

theorem classOf_isSome : (classOf b).isSome = true ↔ b.toNat ≤ 1 := by
  revert b
  decide

theorem verifyModeOf_isSome : (verifyModeOf b).isSome = true ↔ b.toNat ≤ 2 := by
  revert b
  decide

theorem inkPolicyOf_isSome : (inkPolicyOf b).isSome = true ↔ b.toNat ≤ 1 := by
  revert b
  decide

theorem kindOf_eq_none_iff : kindOf b = none ↔ b = 0 ∨ 3 < b.toNat := by
  revert b
  decide

theorem kindOf_eq_some_iff : kindOf b = some k ↔ b = BitVec.ofNat 8 k.code := by
  revert b
  cases k <;> decide

section Kind
variable (kind : kindOf b = some k)
include kind

theorem burns_iff : (b = 1 ∨ b = 2) ↔ k.burns = true := by
  rw [kindOf_eq_some_iff] at kind
  subst kind
  cases k <;> decide

theorem labels_iff : (b = 2 ∨ b = 3) ↔ k.labels = true := by
  rw [kindOf_eq_some_iff] at kind
  subst kind
  cases k <;> decide

theorem print_iff : b = 3 ↔ k.burns = false := by
  rw [kindOf_eq_some_iff] at kind
  subst kind
  cases k <;> decide

end Kind

/-! ## The definition a request spells -/

/-- The definition the fields spell, for a kind (R25). -/
def carriedSpec (f : JobFields) (k : JobKind) : JobSpec :=
  JobSpec.applying
    { hostRef := f.hostRef, kind := k, image := some f.image.toNat, cls := classOf f.cls
      ordered := f.ordered.toNat, priority := f.priority.toNat, maxSpeed := f.maxSpeed.toNat
      verifyMode := verifyModeOf f.verifyMode, recoveredLimit := some f.recoveredLimit.toNat
      rejectLimit := f.rejectLimit.toNat, template := some f.template.toNat
      inkPolicy := inkPolicyOf f.inkPolicy, serialDigits := some f.serialDigits.toNat
      firstSerial := some f.firstSerial.toNat, step := some f.step.toNat }

/-- The codes of the named values can be taken (R25, R176; log 44). -/
def codesTaken (f : JobFields) (k : JobKind) : Prop :=
  (f.cls.toNat ≤ 1 ∨ k.burns = true ∧ f.cls = 0xFF) ∧ (f.verifyMode.toNat ≤ 2 ∨ k.burns = false ∧ f.verifyMode = 0xFF) ∧
    (f.inkPolicy.toNat ≤ 1 ∨ k.labels = false ∧ f.inkPolicy = 0xFF)

theorem codesTaken_iff : (namedFits (!k.burns) classOf f.cls && namedFits k.burns verifyModeOf f.verifyMode &&
    namedFits k.labels inkPolicyOf f.inkPolicy) = true ↔ codesTaken f k := by
  simp only [Bool.and_eq_true, namedFits_iff, classOf_isSome, verifyModeOf_isSome, inkPolicyOf_isSome, Bool.not_eq_false',
    codesTaken, and_assoc]

theorem definedSpec_taken (kind : kindOf f.kind = some k) (codes : codesTaken f k) :
    definedSpec f = some (carriedSpec f k) := by
  have fits := codesTaken_iff.2 codes
  unfold definedSpec
  rw [kind]
  dsimp only
  rw [if_pos fits]
  rfl

theorem definedSpec_refused (kind : kindOf f.kind = some k) (codes : ¬ codesTaken f k) : definedSpec f = none := by
  have unfit := mt codesTaken_iff.1 codes
  unfold definedSpec
  rw [kind]
  dsimp only
  rw [if_neg unfit]

theorem definedSpec_unkind (kind : kindOf f.kind = none) : definedSpec f = none := by
  unfold definedSpec
  rw [kind]

/-! ## The image and the template it names -/

theorem neededId_named {n m : Nat} {i : Fin n} (is : m = i.val) : neededId n true (some m) = some (some i) := by
  subst is
  simp [neededId, numberIn]

theorem neededId_outside {n m : Nat} (high : n ≤ m) : neededId n true (some m) = none := by
  have outside : ¬ m < n := by omega
  simp [neededId, numberIn, outside]

theorem neededId_unneeded (n : Nat) (o : Option Nat) : neededId n false o = some none := rfl

theorem neededId_missing (n : Nat) : neededId n true none = none := rfl

section Records
variable {i' : Option (Fin 32)} {t' : Option (Fin 8)}

theorem findJobRecords_outside (outside : neededId 32 d.kind.burns d.image = none ∨ neededId 8 d.kind.labels d.template = none) :
    p.findJobRecords d = .refused .outOfRange := by
  unfold Part.findJobRecords
  obtain is | is := outside
  · simp [is]
  · simp [is]

variable (imageId : neededId 32 d.kind.burns d.image = some i') (templateId : neededId 8 d.kind.labels d.template = some t')
include imageId templateId

theorem findJobRecords_missing
    (missing : (∃ i, i' = some i ∧ p.image i = none) ∨ ∃ t, t' = some t ∧ p.template t = none) :
    p.findJobRecords d = .refused .notFound := by
  unfold Part.findJobRecords
  obtain ⟨i, rfl, empty⟩ | ⟨t, rfl, undefined⟩ := missing
  · simp [imageId, templateId, empty]
  · simp [imageId, templateId, undefined]

/-- The records are found, and the class is the image's, or for a job without one the definition's (R22, R25). -/
theorem findJobRecords_found
    (cls : (∃ i y, i' = some i ∧ p.image i = some y ∧ y.cls = c) ∨ i' = none ∧ d.cls = some c)
    (defined : ∀ t, t' = some t → (p.template t).isSome = true) : p.findJobRecords d = .ok i' t' c := by
  unfold Part.findJobRecords
  cases t' with
  | none =>
    obtain ⟨i, y, rfl, held, rfl⟩ | ⟨rfl, its⟩ := cls
    · simp [imageId, templateId, held]
    · simp [imageId, templateId, its]
  | some t =>
    obtain ⟨z, is⟩ := Option.isSome_iff_exists.1 (defined t rfl)
    obtain ⟨i, y, rfl, held, rfl⟩ | ⟨rfl, its⟩ := cls
    · simp [imageId, templateId, held, is]
    · simp [imageId, templateId, its, is]

end Records

/-! ## The job it makes -/

/-- Every number of a DEFINE JOB is in its range (R22, R25). -/
def jobInRange (f : JobFields) (k : JobKind) : Prop :=
  1 ≤ f.ordered.toNat ∧ f.ordered.toNat ≤ 9999 ∧ f.priority.toNat ≤ 3 ∧
    1 ≤ f.maxSpeed.toNat ∧ f.maxSpeed.toNat ≤ 16 ∧ 1 ≤ f.rejectLimit.toNat ∧
    (k ≠ .burn → f.serialDigits.toNat ≤ 8 ∧
      (f.serialDigits ≠ 0 → f.firstSerial.toNat < 10 ^ f.serialDigits.toNat ∧
        1 ≤ f.step.toNat ∧ f.step.toNat ≤ 100))

/-- The job a DEFINE JOB makes (R22, R25, R155). -/
def definedJob (f : JobFields) (k : JobKind) (image : Option (Fin 32)) (template : Option (Fin 8)) (cls : DiscClass) : Job :=
  { hostRef := f.hostRef, kind := k, state := .defined, image := image, cls := cls
    ordered := clamp 1 9999 f.ordered.toNat, priority := clamp 0 3 f.priority.toNat
    maxSpeed := clamp 1 16 f.maxSpeed.toNat
    verifyMode := if k = .print then none else verifyModeOf f.verifyMode
    recoveredLimit := if k = .print then none else some f.recoveredLimit.toNat
    rejectLimit := clamp 1 255 f.rejectLimit.toNat, template := template
    inkPolicy := if k = .burn then none else inkPolicyOf f.inkPolicy
    serialDigits := if k = .burn then none else some (min 8 f.serialDigits.toNat)
    serials := if k = .burn ∨ f.serialDigits = 0 then none else
      let first := min (10 ^ min 8 f.serialDigits.toNat - 1) f.firstSerial.toNat
      some { first := first, step := clamp 1 100 f.step.toNat, issued := 0, next := first }
    holds := { ink := false, source := false, imageNotReady := false }, lastPick := none
    started := 0, delivered := 0, rejected := 0, failures := 0, active := 0
    unlabelledDelivered := 0 }

theorem zero_digits_iff : f.serialDigits.toNat = 0 ↔ f.serialDigits = 0 := by
  rw [← BitVec.toNat_inj]
  rfl

theorem clamp_byte (b : Byte) : clamp 0 255 b.toNat = b.toNat := clamp_eq_self_iff.2 ⟨Nat.zero_le _, by have := b.isLt; omega⟩

/-- The serials of a definition under its clamped digits (R22, R155). -/
theorem serials_some {m first step : Nat} (digits : d.serialDigits = some (m + 1)) (first_is : d.firstSerial = some first)
    (step_is : d.step = some step) : d.serials = some { first := first, step := step, issued := 0, next := first } := by
  rw [JobSpec.serials, digits, first_is, step_is]

theorem serials_none (without : d.serialDigits = none ∨ d.serialDigits = some 0) : d.serials = none := by
  unfold JobSpec.serials
  obtain is | is := without <;> rw [is]

theorem clamped_record : (carriedSpec f k).clamped.record image template c = definedJob f k image template c := by
  have serials : (carriedSpec f k).clamped.serials = (definedJob f k image template c).serials := by
    by_cases burn : k = .burn
    · subst burn
      exact serials_none (.inl rfl)
    · have labels : k.labels = true := by cases k <;> first | rfl | exact absurd rfl burn
      by_cases none' : f.serialDigits = 0
      · rw [serials_none (.inr (by simp [carriedSpec, JobSpec.applying, JobSpec.clamped, labels, none', clamp]))]
        simp [definedJob, none']
      · have some' : f.serialDigits.toNat ≠ 0 := mt zero_digits_iff.1 none'
        obtain ⟨m, is⟩ : ∃ m, min 8 f.serialDigits.toNat = m + 1 := ⟨min 8 f.serialDigits.toNat - 1, by omega⟩
        have digits : (carriedSpec f k).clamped.serialDigits = some (m + 1) := by
          simp [carriedSpec, JobSpec.applying, JobSpec.clamped, labels, clamp_zero, is]
        have first : (carriedSpec f k).clamped.firstSerial = some (min (10 ^ (m + 1) - 1) f.firstSerial.toNat) := by
          simp [carriedSpec, JobSpec.applying, JobSpec.clamped, labels, clamp_zero, some', is]
        have step : (carriedSpec f k).clamped.step = some (clamp 1 100 f.step.toNat) := by
          simp [carriedSpec, JobSpec.applying, JobSpec.clamped, labels, some']
        rw [serials_some digits first step]
        simp only [definedJob, burn, none', or_self, if_false, is]
  have recovered : f.recoveredLimit.toNat ≤ 255 := by have := f.recoveredLimit.isLt; omega
  rw [JobSpec.record, serials]
  cases k <;> simp [recovered, definedJob, carriedSpec, JobSpec.applying, JobSpec.clamped, JobKind.burns, JobKind.labels, clamp_zero,
    Holds.empty]

/-- The numbers are used as they came exactly when they were in range (R22, R25, R179). -/
theorem clamped_eq_iff : (carriedSpec f k).clamped = carriedSpec f k ↔ jobInRange f k := by
  have reject := f.rejectLimit.isLt
  have limit : clamp 1 255 f.rejectLimit.toNat = f.rejectLimit.toNat ↔ 1 ≤ f.rejectLimit.toNat := by
    rw [clamp_eq_self_iff]
    omega
  by_cases burn : k = .burn
  · subst burn
    simp only [carriedSpec, JobSpec.applying, JobSpec.clamped, JobKind.burns, JobKind.labels]
    simp [clamp_eq_self_iff, limit, jobInRange, clamp_byte, and_assoc]
  · have labels : k.labels = true := by cases k <;> first | rfl | exact absurd rfl burn
    have serials : clamp 0 8 f.serialDigits.toNat = f.serialDigits.toNat ∧
        clamp 0 (10 ^ clamp 0 8 f.serialDigits.toNat - 1) f.firstSerial.toNat = f.firstSerial.toNat ↔
        f.serialDigits.toNat ≤ 8 ∧ f.firstSerial.toNat < 10 ^ f.serialDigits.toNat := by
      have some' : 0 < 10 ^ f.serialDigits.toNat := Nat.pow_pos (by decide)
      simp only [clamp_eq_self_iff]
      constructor
      · rintro ⟨⟨-, few⟩, -, first⟩
        rw [clamp_eq_self_iff.2 ⟨Nat.zero_le _, few⟩] at first
        exact ⟨few, by omega⟩
      · rintro ⟨few, first⟩
        rw [clamp_eq_self_iff.2 ⟨Nat.zero_le _, few⟩]
        exact ⟨⟨Nat.zero_le _, few⟩, Nat.zero_le _, by omega⟩
    by_cases none' : f.serialDigits = 0
    · simp [carriedSpec, JobSpec.applying, JobSpec.clamped, labels, none', clamp_byte, limit, jobInRange, burn,
        clamp_eq_self_iff, and_assoc]
    · have some' : f.serialDigits.toNat ≠ 0 := mt zero_digits_iff.1 none'
      have ordered : clamp 1 9999 f.ordered.toNat = f.ordered.toNat ↔ _ := clamp_eq_self_iff
      have priority : clamp 0 3 f.priority.toNat = f.priority.toNat ↔ _ := clamp_eq_self_iff
      have speed : clamp 1 16 f.maxSpeed.toNat = f.maxSpeed.toNat ↔ _ := clamp_eq_self_iff
      have step : clamp 1 100 f.step.toNat = f.step.toNat ↔ _ := clamp_eq_self_iff
      simp only [carriedSpec, JobSpec.applying, JobSpec.clamped, labels, jobInRange, if_true, Bool.true_and, Option.map_some,
        Option.getD_some, bne_iff_ne, ne_eq, Option.some.injEq, some', none', burn, not_false_eq_true, true_implies,
        JobSpec.mk.injEq, ordered, priority, speed, step, limit, true_and]
      have recovered : Option.map (clamp 0 255) (if k.burns = true then some f.recoveredLimit.toNat else none) =
          if k.burns = true then some f.recoveredLimit.toNat else none := by
        split
        · exact congrArg some (clamp_byte _)
        · rfl
      simp only [recovered, true_and]
      constructor
      · rintro ⟨⟨low, high⟩, ⟨-, prior⟩, ⟨slow, fast⟩, rejects, digits, first, steps⟩
        obtain ⟨few, below⟩ := serials.1 ⟨digits, first⟩
        exact ⟨low, high, prior, slow, fast, rejects, few, below, steps⟩
      · rintro ⟨low, high, prior, slow, fast, rejects, few, below, steps⟩
        obtain ⟨digits, first⟩ := serials.2 ⟨few, below⟩
        exact ⟨⟨low, high⟩, ⟨Nat.zero_le _, prior⟩, ⟨slow, fast⟩, rejects, digits, first, steps⟩

/-! ## The request -/

theorem allJobs_ordered : allJobs.Pairwise (· < ·) := by decide

theorem freeJob_eq_some_iff : p.freeJob = some x ↔ p.job x = none ∧ ∀ y, y < x → (p.job y).isSome = true := by
  rw [Part.freeJob, find?_ascending allJobs_ordered mem_allJobs]
  simp [Option.isSome_iff_ne_none]

theorem freeJob_eq_none_iff : p.freeJob = none ↔ ∀ x, (p.job x).isSome = true := by
  rw [Part.freeJob, List.find?_eq_none]
  simp [mem_allJobs, Option.isSome_iff_ne_none]

/-- The part once a job is held, its image attached and its template used (R21, R103, R147). -/
def Part.defines (p : Part) (x : Fin 16) (j : Job) (image : Option (Fin 32)) (template : Option (Fin 8)) : Part :=
  useTemplate template (attachImage image (p.setJob x (some j)))

theorem defines_leaves (p : Part) (x : Fin 16) (j : Job) (image : Option (Fin 32)) (template : Option (Fin 8)) :
    p.Changes [.jobs, .images, .templates] (p.defines x j image template) ∧
    OthersKept p.job (p.defines x j image template).job x ∧ (p.defines x j image template).job x = some j ∧
    (∀ i, (p.defines x j image template).image i = if image = some i then
      (p.image i).map (fun y => { y with attachCount := y.attachCount + 1 }) else p.image i) ∧
    (∀ t, (p.defines x j image template).template t = if template = some t then
      (p.template t).map (fun y => { y with users := y.users + 1 }) else p.template t) := by
  have written : p.Changes [.jobs] (p.setJob x (some j)) := fun f own => by cases f <;> first | rfl | simp at own
  have attached := attachImage_changes image (p.setJob x (some j))
  have used := useTemplate_changes template (attachImage image (p.setJob x (some j)))
  have job : (p.defines x j image template).job = (p.setJob x (some j)).job :=
    (job_congr (used .jobs (by decide))).trans (job_congr (attached .jobs (by decide)))
  refine ⟨((written.andThen attached).andThen used).widen rfl, fun y other => ?_, ?_, fun i => ?_, fun t => ?_⟩
  · rw [job, Part.setJob_other _ _ _ _ other]
  · rw [job, Part.setJob_self]
  · have images : (p.defines x j image template).images = (attachImage image (p.setJob x (some j))).images :=
      used .images (by decide)
    have same : (p.defines x j image template).image i = (attachImage image (p.setJob x (some j))).image i := by
      simp only [Part.image, images]
    rw [same, attachImage_image]
    rfl
  · have templates : (attachImage image (p.setJob x (some j))).templates = p.templates := attached .templates (by decide)
    have kept : (attachImage image (p.setJob x (some j))).template t = p.template t := by simp only [Part.template, templates]
    rw [Part.defines, useTemplate_template, kept]

section Spelled
variable (kind : kindOf f.kind = some k) (codes : codesTaken f k)
include kind codes

theorem reqDefineJob_refused {st : Status} (refused : p.findJobRecords (carriedSpec f k) = .refused st) :
    reqDefineJob f p = turnDown st p := by
  rw [reqDefineJob, definedSpec_taken kind codes]
  simp only [refused]

variable (found : p.findJobRecords (carriedSpec f k) = .ok image template c)
include found

theorem reqDefineJob_noRoom (full : ∀ x, (p.job x).isSome = true) : reqDefineJob f p = turnDown .noRoom p := by
  rw [reqDefineJob, definedSpec_taken kind codes]
  simp only [found, freeJob_eq_none_iff.2 full]

theorem reqDefineJob_defines (free : p.job x = none) (least : ∀ y, y < x → (p.job y).isSome = true) :
    reqDefineJob f p = (p.defines x (definedJob f k image template c) image template,
      okOrClamped ((carriedSpec f k).clamped != carriedSpec f k) (u8 (jobNumber x))
        (u8 (jobNumber x) ++ (definedJob f k image template c).valuesBody)) := by
  rw [reqDefineJob, definedSpec_taken kind codes]
  simp only [found, freeJob_eq_some_iff.2 ⟨free, least⟩, clamped_record]
  rfl

end Spelled

theorem carriedSpec_kind : (carriedSpec f k).kind = k := rfl

/-- The image a definition needs, by the image its body names (R25). -/
theorem carriedSpec_image : neededId 32 (carriedSpec f k).kind.burns (carriedSpec f k).image =
    if k.burns = true then (numberIn 32 f.image.toNat).map some else some none := by
  cases burns : k.burns
  · simp [carriedSpec, JobSpec.applying, burns, neededId]
  · simp only [carriedSpec, JobSpec.applying, burns, neededId, if_true, Option.bind_some]
    cases numberIn 32 f.image.toNat <;> rfl

/-- The template a definition needs, by the template its body names (R25). -/
theorem carriedSpec_template : neededId 8 (carriedSpec f k).kind.labels (carriedSpec f k).template =
    if k.labels = true then (numberIn 8 f.template.toNat).map some else some none := by
  cases labels : k.labels
  · simp [carriedSpec, JobSpec.applying, labels, neededId]
  · simp only [carriedSpec, JobSpec.applying, labels, neededId, if_true, Option.bind_some]
    cases numberIn 8 f.template.toNat <;> rfl

theorem numberIn_eq_some {n m : Nat} {i : Fin n} (is : m = i.val) : numberIn n m = some i := by
  subst is
  simp [numberIn]

theorem numberIn_eq_none {n m : Nat} (high : n ≤ m) : numberIn n m = none := by
  have outside : ¬ m < n := by omega
  simp [numberIn, outside]

/-! ## Refusals -/

/-- What refuses a DEFINE JOB OUT_OF_RANGE (R25, R176; log 44). -/
def defineOutside (f : JobFields) : Prop :=
  f.kind = 0 ∨ 3 < f.kind.toNat ∨
    2 < f.verifyMode.toNat ∧ ((f.kind = 1 ∨ f.kind = 2) ∨ f.verifyMode ≠ 0xFF) ∨
    1 < f.cls.toNat ∧ (f.kind = 3 ∨ f.cls ≠ 0xFF) ∨
    1 < f.inkPolicy.toNat ∧ ((f.kind = 2 ∨ f.kind = 3) ∨ f.inkPolicy ≠ 0xFF) ∨
    (f.kind = 1 ∨ f.kind = 2) ∧ 31 < f.image.toNat ∨ (f.kind = 2 ∨ f.kind = 3) ∧ 7 < f.template.toNat

/-- What refuses one NOT_FOUND (R25). -/
def defineMissing (f : JobFields) (p : Part) : Prop :=
  (f.kind = 1 ∨ f.kind = 2) ∧ (∃ i : Fin 32, f.image.toNat = i.val ∧ p.image i = none) ∨
    (f.kind = 2 ∨ f.kind = 3) ∧ ∃ t : Fin 8, f.template.toNat = t.val ∧ p.template t = none

theorem defineOutside_iff (kind : kindOf f.kind = some k) : defineOutside f ↔
    ¬ codesTaken f k ∨ k.burns = true ∧ 31 < f.image.toNat ∨ k.labels = true ∧ 7 < f.template.toNat := by
  have named : ¬ (f.kind = 0 ∨ 3 < f.kind.toNat) := fun unnamed => by
    rw [kindOf_eq_none_iff.2 unnamed] at kind
    cases kind
  obtain ⟨notZero, low⟩ := not_or.1 named
  rw [defineOutside, burns_iff kind, labels_iff kind, print_iff kind]
  simp only [notZero, low, false_or, codesTaken, not_and_or, not_or, Nat.not_le, Bool.not_eq_true, Bool.not_eq_false, ne_eq]
  constructor
  · rintro (verify | cls | policy | image | template)
    · exact .inl (.inr (.inl verify))
    · exact .inl (.inl cls)
    · exact .inl (.inr (.inr policy))
    · exact .inr (.inl image)
    · exact .inr (.inr template)
  · rintro ((cls | verify | policy) | image | template)
    · exact .inr (.inl cls)
    · exact .inl verify
    · exact .inr (.inr (.inl policy))
    · exact .inr (.inr (.inr (.inl image)))
    · exact .inr (.inr (.inr (.inr template)))

theorem reqDefineJob_outside (outside : defineOutside f) : reqDefineJob f p = turnDown .outOfRange p := by
  cases kind : kindOf f.kind with
  | none => rw [reqDefineJob, definedSpec_unkind kind]
  | some k =>
    by_cases codes : codesTaken f k
    · refine reqDefineJob_refused kind codes (findJobRecords_outside ?_)
      rw [carriedSpec_image, carriedSpec_template]
      obtain unfit | ⟨burns, high⟩ | ⟨labels, high⟩ := (defineOutside_iff kind).1 outside
      · exact absurd codes unfit
      · exact .inl (by rw [if_pos burns, numberIn_eq_none high]; rfl)
      · exact .inr (by rw [if_pos labels, numberIn_eq_none high]; rfl)
    · rw [reqDefineJob, definedSpec_refused kind codes]

section Inside
variable (inside : ¬ defineOutside f)
include inside

/-- The kind, the codes and the numbers of a definition that is not OUT_OF_RANGE (R25). -/
theorem defineInside : ∃ k, kindOf f.kind = some k ∧ codesTaken f k ∧ (k.burns = true → f.image.toNat < 32) ∧
    (k.labels = true → f.template.toNat < 8) := by
  cases kind : kindOf f.kind with
  | none =>
    exact absurd ((kindOf_eq_none_iff.1 kind).elim .inl fun high => .inr (.inl high)) inside
  | some k =>
    rw [defineOutside_iff kind, not_or, not_or, not_not] at inside
    obtain ⟨codes, image, template⟩ := inside
    exact ⟨k, rfl, codes, fun burns => by have := not_and.1 image burns; omega,
      fun labels => by have := not_and.1 template labels; omega⟩

theorem reqDefineJob_missing (missing : defineMissing f p) : reqDefineJob f p = turnDown .notFound p := by
  obtain ⟨k, kind, codes, image, template⟩ := defineInside inside
  rw [defineMissing, burns_iff kind, labels_iff kind] at missing
  have imageId : ∃ o, neededId 32 (carriedSpec f k).kind.burns (carriedSpec f k).image = some o ∧
      (k.burns = true → ∀ i : Fin 32, f.image.toNat = i.val → o = some i) := by
    rw [carriedSpec_image]
    cases burns : k.burns with
    | false => exact ⟨none, rfl, fun is => by cases is⟩
    | true =>
      rw [if_pos rfl, numberIn_eq_some (i := ⟨_, image burns⟩) rfl]
      exact ⟨_, rfl, fun _ i is => congrArg some (Fin.ext is)⟩
  have templateId : ∃ o, neededId 8 (carriedSpec f k).kind.labels (carriedSpec f k).template = some o ∧
      (k.labels = true → ∀ t : Fin 8, f.template.toNat = t.val → o = some t) := by
    rw [carriedSpec_template]
    cases labels : k.labels with
    | false => exact ⟨none, rfl, fun is => by cases is⟩
    | true =>
      rw [if_pos rfl, numberIn_eq_some (i := ⟨_, template labels⟩) rfl]
      exact ⟨_, rfl, fun _ i is => congrArg some (Fin.ext is)⟩
  obtain ⟨i', imageId, itsImage⟩ := imageId
  obtain ⟨t', templateId, itsTemplate⟩ := templateId
  refine reqDefineJob_refused kind codes (findJobRecords_missing imageId templateId ?_)
  obtain ⟨burns, i, is, empty⟩ | ⟨labels, t, is, undefined⟩ := missing
  · exact .inl ⟨i, itsImage burns i is, empty⟩
  · exact .inr ⟨t, itsTemplate labels t is, undefined⟩

theorem reqDefineJob_full (there : ¬ defineMissing f p) (full : ∀ x, (p.job x).isSome = true) :
    reqDefineJob f p = turnDown .noRoom p := by
  obtain ⟨k, kind, codes, image, template⟩ := defineInside inside
  rw [defineMissing, burns_iff kind, labels_iff kind, not_or] at there
  obtain ⟨noImage, noTemplate⟩ := there
  obtain ⟨image', template', c, found⟩ : ∃ i' t' c, p.findJobRecords (carriedSpec f k) = .ok i' t' c := by
    have templateId : ∃ o, neededId 8 (carriedSpec f k).kind.labels (carriedSpec f k).template = some o ∧
        ∀ t, o = some t → (p.template t).isSome = true := by
      rw [carriedSpec_template]
      cases labels : k.labels with
      | false => exact ⟨none, rfl, fun t is => by cases is⟩
      | true =>
        rw [if_pos rfl, numberIn_eq_some (i := ⟨_, template labels⟩) rfl]
        refine ⟨_, rfl, fun t is => Option.isSome_iff_ne_none.2 fun undefined => noTemplate ⟨labels, t, ?_, undefined⟩⟩
        exact congrArg Fin.val (Option.some.inj is)
    obtain ⟨t', templateId, defined⟩ := templateId
    have imageId := carriedSpec_image (f := f) (k := k)
    cases burns : k.burns with
    | false =>
      rw [burns, if_neg Bool.false_ne_true] at imageId
      have cls : f.cls.toNat ≤ 1 := codes.1.resolve_right fun ⟨is, _⟩ => by rw [burns] at is; cases is
      obtain ⟨c, is⟩ := Option.isSome_iff_exists.1 (classOf_isSome.2 cls)
      exact ⟨none, t', c, findJobRecords_found imageId templateId (.inr ⟨rfl, is⟩) defined⟩
    | true =>
      rw [burns, if_pos rfl, numberIn_eq_some (i := ⟨_, image burns⟩) rfl] at imageId
      cases held : p.image ⟨_, image burns⟩ with
      | none => exact absurd ⟨burns, _, rfl, held⟩ noImage
      | some y => exact ⟨_, t', y.cls, findJobRecords_found imageId templateId (.inl ⟨_, y, rfl, held, rfl⟩) defined⟩
  exact reqDefineJob_noRoom kind codes found full

end Inside

theorem withJob_outOfRange (bad : job = 0 ∨ 16 < job.toNat) (g : Fin 16 → Job → Part → Part × Answer) :
    withJob job g p = turnDown .outOfRange p := by
  rw [withJob, jobIdx_eq_none bad]

theorem withJob_notFound (number : job.toNat = x.val + 1) (free : p.job x = none) (g : Fin 16 → Job → Part → Part × Answer) :
    withJob job g p = turnDown .notFound p := by
  rw [withJob, jobIdx_eq_some_iff.2 number]
  simp only [free]

/-- Every request that names a job is refused as the name is (R21). -/
theorem jobRequests_refused {st : Status} (taken : s.takes)
    (refused : ∀ g, withJob job g s.part.fresh = turnDown st s.part.fresh) :
    let no := fun (code : Byte) => Host.Outcome.next (s.replied code tag { status := st, body := [] } s.part.fresh)
    exec (.startJob tag job) s = no 0x32 ∧ exec (.pauseJob tag job) s = no 0x33 ∧
      exec (.resumeJob tag job) s = no 0x34 ∧ exec (.cancelJob tag job) s = no 0x35 ∧
      exec (.lookUpJob tag job) s = no 0x36 ∧ exec (.retireJob tag job) s = no 0x38 ∧
      ∀ c, changeCodesFit c = true → exec (.changeJob tag job c) s = no 0x31 :=
  ⟨takeRequest_replied taken _ tag (refused _), takeRequest_replied taken _ tag (refused _),
    takeRequest_replied taken _ tag (refused _), takeRequest_replied taken _ tag (refused _),
    takeRequest_replied taken _ tag (refused _), takeRequest_replied taken _ tag (refused _),
    fun c fits => takeRequest_replied taken _ tag (by
      rw [reqChangeJob, fits, if_neg (by decide)]
      exact refused _)⟩

section Given
variable
  (burns : k ≠ .print → ∃ i y, image = some i ∧ f.image.toNat = i.val ∧ p.image i = some y ∧ c = y.cls ∧
    f.verifyMode.toNat ≤ 2 ∧ (f.cls.toNat ≤ 1 ∨ f.cls = 0xFF))
  (prints : k = .print → image = none ∧ classOf f.cls = some c ∧ (f.verifyMode.toNat ≤ 2 ∨ f.verifyMode = 0xFF))
  (labels : k ≠ .burn → ∃ t y, template = some t ∧ f.template.toNat = t.val ∧ p.template t = some y ∧
    f.inkPolicy.toNat ≤ 1)
  (burnt : k = .burn → template = none ∧ (f.inkPolicy.toNat ≤ 1 ∨ f.inkPolicy = 0xFF))
include burns prints labels burnt

theorem taken_codes : codesTaken f k := by
  have policy : f.inkPolicy.toNat ≤ 1 ∨ k.labels = false ∧ f.inkPolicy = 0xFF := by
    by_cases burn : k = .burn
    · exact (burnt burn).2.imp_right fun absent => ⟨by rw [burn]; rfl, absent⟩
    · obtain ⟨-, -, -, -, -, low⟩ := labels burn
      exact .inl low
  by_cases print : k = .print
  · obtain ⟨-, cls, verify⟩ := prints print
    exact ⟨.inl (classOf_isSome.1 (by rw [cls]; rfl)), verify.imp_right fun absent => ⟨by rw [print]; rfl, absent⟩, policy⟩
  · obtain ⟨-, -, -, -, -, -, verify, cls⟩ := burns print
    exact ⟨cls.imp_right fun absent => ⟨by cases k <;> first | rfl | exact absurd rfl print, absent⟩, .inl verify, policy⟩

theorem taken_records : p.findJobRecords (carriedSpec f k) = .ok image template c := by
  have imageId := carriedSpec_image (f := f) (k := k)
  have templateId := carriedSpec_template (f := f) (k := k)
  have named : neededId 8 (carriedSpec f k).kind.labels (carriedSpec f k).template = some template ∧
      ∀ t, template = some t → (p.template t).isSome = true := by
    by_cases burn : k = .burn
    · obtain ⟨rfl, -⟩ := burnt burn
      rw [templateId, burn]
      exact ⟨rfl, fun t is => by cases is⟩
    · obtain ⟨t, z, rfl, is, held, -⟩ := labels burn
      have needs : k.labels = true := by cases k <;> first | rfl | exact absurd rfl burn
      rw [templateId, if_pos needs, numberIn_eq_some is]
      refine ⟨rfl, fun t' is' => ?_⟩
      obtain rfl := Option.some.inj is'
      rw [held]
      rfl
  by_cases print : k = .print
  · obtain ⟨rfl, cls, -⟩ := prints print
    refine findJobRecords_found ?_ named.1 (.inr ⟨rfl, cls⟩) named.2
    rw [imageId, print]
    rfl
  · obtain ⟨i, y, rfl, is, held, rfl, -⟩ := burns print
    have needs : k.burns = true := by cases k <;> first | rfl | exact absurd rfl print
    refine findJobRecords_found ?_ named.1 (.inl ⟨i, y, rfl, held, rfl⟩) named.2
    rw [imageId, if_pos needs, numberIn_eq_some is]
    rfl

end Given

/-- Settles O29: the definition's codes, records and numbers; the job, its image and its template; the refusals in their
order. -/
theorem defineJob : Obligations.DefineJob := by
  refine ⟨?_, fun s tag job taken => ?_, fun _ => rfl, fun _ => rfl, fun _ => rfl, fun _ => rfl⟩
  · intro s tag f k image template cls x taken kind burns prints labels burnt free least used inRange
    have codes : codesTaken f k := taken_codes burns prints labels burnt
    have found : s.part.fresh.findJobRecords (carriedSpec f k) = .ok image template cls :=
      taken_records burns prints labels burnt
    have meaning := reqDefineJob_defines (x := x) kind codes found free least
    refine ⟨_, _, takeRequest_replied taken 0x30 tag meaning, ?_⟩
    obtain ⟨changes, jobs, job, images, templates⟩ := defines_leaves s.part.fresh x (definedJob f k image template cls) image template
    refine ⟨changes, jobs, job, images, templates, fun within => ?_, fun without => ?_⟩
    · rw [clamped_eq_iff.2 within, bne_self_eq_false]
      rfl
    · rw [bne_iff_ne.2 (mt clamped_eq_iff.1 without)]
      exact ⟨rfl, rfl⟩
  · intro no all
    refine ⟨fun bad => ⟨jobRequests_refused taken (withJob_outOfRange bad), takeRequest_replied taken 0x37 tag ?_⟩,
      fun x number free => jobRequests_refused taken (withJob_notFound number free), fun f => ?_⟩
    · rw [reqListJobs, jobIdx_eq_none bad]
      rfl
    · intro burns labels outside missing
      exact ⟨fun bad => takeRequest_replied taken 0x30 tag (reqDefineJob_outside bad),
        fun inside gone => takeRequest_replied taken 0x30 tag (reqDefineJob_missing inside gone),
        fun inside there full => takeRequest_replied taken 0x30 tag (reqDefineJob_full inside there full)⟩

end Sys2Proof.Machine
end

