-- ==== Sys2Proof/Proofs/Redefinitions.lean ====
section
/-! PROOF. A definition by its fields: what its kind keeps, when it is complete, when its numbers are in range, the job
it makes (R22, R25, R26). -/

namespace Sys2Proof.Machine

-- One proof after another: side by side, their threads' stacks pass the check's memory limit.
set_option Elab.async false

variable {r : JobSpec} {image : Option (Fin 32)} {template : Option (Fin 8)} {c : DiscClass}

theorem burns_eq_false : r.kind.burns = false ↔ r.kind = .print := by cases r.kind <;> simp [JobKind.burns]

theorem labels_eq_false : r.kind.labels = false ↔ r.kind = .burn := by cases r.kind <;> simp [JobKind.labels]

theorem burns_eq_true : r.kind.burns = true ↔ r.kind ≠ .print := by cases r.kind <;> simp [JobKind.burns]

theorem labels_eq_true : r.kind.labels = true ↔ r.kind ≠ .burn := by cases r.kind <;> simp [JobKind.labels]

/-- Every value the kind needs is given, but for the image and the template (R25, R26). -/
def JobSpec.Complete (r : JobSpec) : Prop :=
  (r.kind ≠ .print → r.verifyMode.isSome = true ∧ r.recoveredLimit.isSome = true) ∧
  (r.kind ≠ .burn → r.inkPolicy.isSome = true ∧ r.serialDigits.isSome = true ∧
    (r.serialDigits = some 0 ∨ r.firstSerial.isSome = true ∧ r.step.isSome = true))

/-- Every number the kind has is in its range (R22). -/
def JobSpec.InRange (r : JobSpec) : Prop :=
  1 ≤ r.ordered ∧ r.ordered ≤ 9999 ∧ r.priority ≤ 3 ∧ 1 ≤ r.maxSpeed ∧ r.maxSpeed ≤ 16 ∧
  1 ≤ r.rejectLimit ∧ r.rejectLimit ≤ 255 ∧ (r.kind ≠ .print → r.recoveredLimit.getD 0 ≤ 255) ∧
  (r.kind ≠ .burn → r.serialDigits.getD 0 ≤ 8 ∧ (r.serialDigits ≠ some 0 →
    r.firstSerial.getD 0 < 10 ^ r.serialDigits.getD 0 ∧ 1 ≤ r.step.getD 0 ∧ r.step.getD 0 ≤ 100))

/-- The job a definition makes (R22, R25, R155). -/
def JobSpec.job (r : JobSpec) (image : Option (Fin 32)) (template : Option (Fin 8)) (c : DiscClass) : Job :=
  { hostRef := r.hostRef, kind := r.kind, state := .defined, image := image, cls := c
    ordered := clamp 1 9999 r.ordered, priority := clamp 0 3 r.priority, maxSpeed := clamp 1 16 r.maxSpeed
    verifyMode := if r.kind = .print then none else r.verifyMode
    recoveredLimit := if r.kind = .print then none else r.recoveredLimit.map (min 255)
    rejectLimit := clamp 1 255 r.rejectLimit, template := template
    inkPolicy := if r.kind = .burn then none else r.inkPolicy
    serialDigits := if r.kind = .burn then none else r.serialDigits.map (min 8)
    serials := if r.kind = .burn ∨ r.serialDigits = some 0 then none else
      let start := min (10 ^ min 8 (r.serialDigits.getD 0) - 1) (r.firstSerial.getD 0)
      some { first := start, step := clamp 1 100 (r.step.getD 0), issued := 0, next := start }
    holds := { ink := false, source := false, imageNotReady := false }, lastPick := none
    started := 0, delivered := 0, rejected := 0, failures := 0, active := 0
    unlabelledDelivered := 0 }

theorem applying_complete_iff (cls : r.cls.isSome = true) : r.applying.complete = true ↔ r.Complete := by
  obtain ⟨hostRef, kind, image, cls', ordered, priority, maxSpeed, verify, recovered, reject, template, policy, digits,
    first, step⟩ := r
  by_cases zero : digits = some 0
  · cases kind <;> simp_all [JobSpec.complete, JobSpec.applying, JobSpec.Complete, JobKind.burns, JobKind.labels]
  · cases kind <;> simp_all [JobSpec.complete, JobSpec.applying, JobSpec.Complete, JobKind.burns, JobKind.labels, and_assoc]

/-- What a complete definition of a job that labels holds of the serials (R22, R155). -/
theorem Complete.serials (complete : r.Complete) (labels : r.kind ≠ .burn) : r.serialDigits = some 0 ∨
    ∃ digits first step, r.serialDigits = some (digits + 1) ∧ r.firstSerial = some first ∧ r.step = some step := by
  obtain ⟨-, some', zero | ⟨first, step⟩⟩ := complete.2 labels
  · exact .inl zero
  · obtain ⟨n, digits⟩ := Option.isSome_iff_exists.1 some'
    obtain ⟨first, is⟩ := Option.isSome_iff_exists.1 first
    obtain ⟨step, is'⟩ := Option.isSome_iff_exists.1 step
    cases n with
    | zero => exact .inl digits
    | succ n => exact .inr ⟨n, first, step, digits, is, is'⟩

/-! ## The fields a kind keeps -/

theorem applying_serials_without (without : r.kind = .burn ∨ r.serialDigits = some 0) :
    r.applying.clamped.firstSerial = none ∧ r.applying.clamped.step = none ∧ r.applying.clamped.serials = none := by
  have first : r.applying.clamped.firstSerial = none := by
    obtain is | is := without
    · simp [JobSpec.applying, JobSpec.clamped, is, JobKind.labels]
    · simp [JobSpec.applying, JobSpec.clamped, is]
  have step : r.applying.clamped.step = none := by
    obtain is | is := without
    · simp [JobSpec.applying, JobSpec.clamped, is, JobKind.labels]
    · simp [JobSpec.applying, JobSpec.clamped, is]
  refine ⟨first, step, ?_⟩
  unfold JobSpec.serials
  split
  case h_1 is _ =>
    rw [first] at is
    cases is
  case h_2 => rfl

theorem applying_serials_with {digits first step : Nat} (labels : r.kind ≠ .burn) (is : r.serialDigits = some (digits + 1))
    (first_is : r.firstSerial = some first) (step_is : r.step = some step) :
    r.applying.clamped.serialDigits = some (min 8 (digits + 1)) ∧
    r.applying.clamped.firstSerial = some (min (10 ^ min 8 (digits + 1) - 1) first) ∧
    r.applying.clamped.step = some (clamp 1 100 step) := by
  have labels' := labels_eq_true.2 labels
  simp [JobSpec.applying, JobSpec.clamped, labels', is, first_is, step_is, clamp_zero]

theorem clamp_zero_map (hi : Nat) (o : Option Nat) : o.map (clamp 0 hi) = o.map (min hi) := by
  cases o <;> simp [clamp_zero]

/-- The record of a complete definition (R22, R25, R155). -/
theorem record_eq (complete : r.Complete) : r.applying.clamped.record image template c = r.job image template c := by
  have serials : r.applying.clamped.serials = (r.job image template c).serials := by
    by_cases without : r.kind = .burn ∨ r.serialDigits = some 0
    · rw [(applying_serials_without without).2.2]
      exact (if_pos without).symm
    · obtain ⟨labels, some'⟩ := not_or.1 without
      obtain ⟨digits, first, step, is, first_is, step_is⟩ := (Complete.serials complete labels).resolve_left some'
      obtain ⟨digits', first', step'⟩ := applying_serials_with labels is first_is step_is
      obtain ⟨m, pos⟩ : ∃ m, min 8 (digits + 1) = m + 1 := ⟨min 8 (digits + 1) - 1, by omega⟩
      rw [pos] at digits'
      rw [serials_some digits' first' step', JobSpec.job]
      simp [is, first_is, step_is, labels]
  rw [JobSpec.record, serials]
  by_cases print : r.kind = .print
  · simp [JobSpec.job, JobSpec.applying, JobSpec.clamped, print, JobKind.burns, JobKind.labels, clamp_zero, clamp_zero_map,
      Holds.empty]
  · by_cases burn : r.kind = .burn
    · simp [JobSpec.job, JobSpec.applying, JobSpec.clamped, burn, JobKind.burns, JobKind.labels, clamp_zero, clamp_zero_map,
      Holds.empty]
    · simp [JobSpec.job, JobSpec.applying, JobSpec.clamped, print, burn, burns_eq_true.2 print, labels_eq_true.2 burn,
        clamp_zero, clamp_zero_map, Holds.empty]

/-! ## The numbers used as they came -/

theorem clamp_getD {lo hi : Nat} {o : Option Nat} (low : lo = 0) : o.map (clamp lo hi) = o ↔ o.getD 0 ≤ hi := by
  subst low
  cases o with
  | none => simp
  | some n => simp [clamp_eq_self_iff]

theorem recovered_iff : r.applying.clamped.recoveredLimit = r.applying.recoveredLimit ↔
    (r.kind ≠ .print → r.recoveredLimit.getD 0 ≤ 255) := by
  by_cases print : r.kind = .print
  · simp [JobSpec.applying, JobSpec.clamped, print, JobKind.burns]
  · simp only [JobSpec.applying, JobSpec.clamped, burns_eq_true.2 print, if_true, ne_eq, print, not_false_eq_true, true_implies]
    exact clamp_getD rfl

theorem serials_iff (complete : r.Complete) :
    (r.applying.clamped.serialDigits = r.applying.serialDigits ∧ r.applying.clamped.firstSerial = r.applying.firstSerial ∧
      r.applying.clamped.step = r.applying.step) ↔
    (r.kind ≠ .burn → r.serialDigits.getD 0 ≤ 8 ∧ (r.serialDigits ≠ some 0 →
      r.firstSerial.getD 0 < 10 ^ r.serialDigits.getD 0 ∧ 1 ≤ r.step.getD 0 ∧ r.step.getD 0 ≤ 100)) := by
  by_cases burn : r.kind = .burn
  · simp [JobSpec.applying, JobSpec.clamped, burn, JobKind.labels]
  · have labels := labels_eq_true.2 burn
    obtain zero | ⟨digits, first, step, is, first_is, step_is⟩ := Complete.serials complete burn
    · simp [JobSpec.applying, JobSpec.clamped, zero, clamp]
    · have some' : 0 < 10 ^ (digits + 1) := Nat.pow_pos (by decide)
      simp only [JobSpec.applying, JobSpec.clamped, labels, is, first_is, step_is, burn, if_true, Option.map_some,
        Option.getD_some, Bool.true_and, bne_iff_ne, ne_eq, Option.some.injEq, Nat.succ_ne_zero,
        not_false_eq_true, true_implies, clamp_eq_self_iff]
      constructor
      · rintro ⟨⟨-, few⟩, ⟨-, below⟩, steps⟩
        rw [clamp_eq_self_iff.2 ⟨Nat.zero_le _, few⟩] at below
        exact ⟨few, by omega, steps⟩
      · rintro ⟨few, below, steps⟩
        rw [clamp_eq_self_iff.2 ⟨Nat.zero_le _, few⟩]
        exact ⟨⟨Nat.zero_le _, few⟩, ⟨Nat.zero_le _, by omega⟩, steps⟩

/-- A complete definition's numbers are used as they came exactly when they are in range (R22, R25, R179). -/
theorem applying_clamped_iff (complete : r.Complete) : r.applying.clamped = r.applying ↔ r.InRange := by
  have serials := serials_iff complete
  have recovered := recovered_iff (r := r)
  have each : r.applying.clamped = r.applying ↔
      clamp 1 9999 r.ordered = r.ordered ∧ clamp 0 3 r.priority = r.priority ∧ clamp 1 16 r.maxSpeed = r.maxSpeed ∧
      r.applying.clamped.recoveredLimit = r.applying.recoveredLimit ∧ clamp 1 255 r.rejectLimit = r.rejectLimit ∧
      (r.applying.clamped.serialDigits = r.applying.serialDigits ∧ r.applying.clamped.firstSerial = r.applying.firstSerial ∧
      r.applying.clamped.step = r.applying.step) := by
    constructor
    · intro same
      rw [same]
      exact ⟨congrArg JobSpec.ordered same, congrArg JobSpec.priority same, congrArg JobSpec.maxSpeed same, rfl,
        congrArg JobSpec.rejectLimit same, rfl, rfl, rfl⟩
    · rintro ⟨ordered, priority, speed, recovered, reject, digits, first, step⟩
      rw [show r.applying.clamped = { r.applying with
        ordered := clamp 1 9999 r.ordered, priority := clamp 0 3 r.priority, maxSpeed := clamp 1 16 r.maxSpeed
        recoveredLimit := r.applying.clamped.recoveredLimit, rejectLimit := clamp 1 255 r.rejectLimit
        serialDigits := r.applying.clamped.serialDigits, firstSerial := r.applying.clamped.firstSerial
        step := r.applying.clamped.step } from rfl, ordered, priority, speed, recovered, reject, digits, first, step]
      rfl
  rw [each, recovered, serials, JobSpec.InRange]
  simp only [clamp_eq_self_iff]
  constructor
  · rintro ⟨⟨low, high⟩, ⟨-, prior⟩, ⟨slow, fast⟩, limit, ⟨rejects, most⟩, rest⟩
    exact ⟨low, high, prior, slow, fast, rejects, most, limit, rest⟩
  · rintro ⟨low, high, prior, slow, fast, rejects, most, limit, rest⟩
    exact ⟨⟨low, high⟩, ⟨Nat.zero_le _, prior⟩, ⟨slow, fast⟩, limit, ⟨rejects, most⟩, rest⟩

end Sys2Proof.Machine
end

