-- ==== Sys2Proof/Proofs/ChangeJob.lean ====
section
/-! PROOF. CHANGE JOB of a started job and of a DEFINED one (R26, R27, R34). -/

namespace Sys2Proof.Machine

-- One proof after another: side by side, their threads' stacks pass the check's memory limit.
set_option Elab.async false

variable {p : Part} {s : State} {tag job b : Byte} {c : JobChange} {x : Fin 16} {j k : Job} {r : JobSpec}
  {image : Option (Fin 32)} {template : Option (Fin 8)} {cls : DiscClass} {lo hi n : Nat} {f : Option Byte}

/-! ## The codes and the fields -/

theorem codeFits_iff {α : Type} {of : Byte → Option α} {good : Byte → Prop} (codes : ∀ b, (of b).isSome = true ↔ good b) :
    codeFits of f = true ↔ ∀ b ∈ f, good b := by
  cases f with
  | none => simp [codeFits]
  | some b => simpa [codeFits] using codes b

theorem kindOf_isSome : (kindOf b).isSome = true ↔ 1 ≤ b.toNat ∧ b.toNat ≤ 3 := by
  revert b
  decide

theorem changeCodesFit_iff : changeCodesFit c = true ↔
    (∀ b ∈ c.kind, 1 ≤ b.toNat ∧ b.toNat ≤ 3) ∧ (∀ b ∈ c.cls, b.toNat ≤ 1) ∧
      (∀ b ∈ c.verifyMode, b.toNat ≤ 2) ∧ ∀ b ∈ c.inkPolicy, b.toNat ≤ 1 := by
  rw [changeCodesFit]
  simp only [Bool.and_eq_true, codeFits_iff fun _ => kindOf_isSome, codeFits_iff fun _ => classOf_isSome,
    codeFits_iff fun _ => verifyModeOf_isSome, codeFits_iff fun _ => inkPolicyOf_isSome, and_assoc]

theorem changeRedefines_eq_false_iff : changeRedefines c = false ↔
    c.hostRef = none ∧ c.kind = none ∧ c.image = none ∧ c.cls = none ∧ c.verifyMode = none ∧
      c.recoveredLimit = none ∧ c.template = none ∧ c.inkPolicy = none ∧ c.serialDigits = none ∧
      c.firstSerial = none ∧ c.step = none := by
  simp [changeRedefines, and_assoc]

theorem reqChangeJob_unfit (unfit : changeCodesFit c = false) : reqChangeJob job c p = turnDown .outOfRange p := by
  rw [reqChangeJob, unfit]
  rfl

section Held
variable (number : job.toNat = x.val + 1) (held : p.job x = some j) (fits : changeCodesFit c = true)
include number held fits

theorem reqChangeJob_held : reqChangeJob job c p =
    if j.state = .defined then redefineJob c x j p
    else if j.state.ended || changeRedefines c then turnDown .badState p
    else settled (afterChange c x (p.setJob x (some (applyChange c j))))
      (okOrClamped (appliedBody c (applyChange c j) != changeCarriedBody c) [] (appliedBody c (applyChange c j))) := by
  rw [reqChangeJob, fits, if_neg (by decide), withJob_held number held]

theorem reqChangeJob_badState (undefined : j.state ≠ .defined) (refused : changeRedefines c = true ∨ j.state.ended = true) :
    reqChangeJob job c p = turnDown .badState p := by
  rw [reqChangeJob_held number held fits, if_neg undefined, if_pos]
  obtain is | is := refused <;> simp [is]

end Held

/-! ## A started job -/

/-- A started job with the carried fields applied (R27; log 45). -/
theorem applyChange_eq : applyChange c j = { j with
    ordered := match c.ordered with
      | some w => clamp 1 9999 (max w.toNat (j.delivered + j.active)) | none => j.ordered
    priority := stored 0 3 c.priority j.priority, maxSpeed := stored 1 16 c.maxSpeed j.maxSpeed
    rejectLimit := stored 1 255 c.rejectLimit j.rejectLimit } := rfl

/-- Every carried value is used as it came (R27, R179). -/
def changeAsCarried (c : JobChange) (k : Job) : Prop :=
  (∀ w ∈ c.ordered, w.toNat = k.ordered) ∧ (∀ b ∈ c.priority, b.toNat = k.priority) ∧
    (∀ b ∈ c.maxSpeed, b.toNat = k.maxSpeed) ∧ ∀ b ∈ c.rejectLimit, b.toNat = k.rejectLimit

theorem byteField_iff {m : Nat} (fits : f.isSome = true → m < 256) :
    (f.map fun _ => u8 m) = (f.map fun b => [b]) ↔ ∀ b ∈ f, b.toNat = m := by
  cases f with
  | none => simp
  | some b =>
    have narrow := fits rfl
    simp only [Option.map_some, Option.some.injEq, u8_eq, List.cons.injEq, and_true, Option.mem_def, forall_eq']
    constructor
    · intro same
      rw [← same, BitVec.toNat_ofNat, Nat.mod_eq_of_lt narrow]
    · rintro rfl
      rw [BitVec.ofNat_toNat, BitVec.setWidth_eq]

theorem wordField_iff {m : Nat} {f : Option Word16} (fits : f.isSome = true → m < 65536) :
    (f.map fun _ => u16 m) = (f.map fun w => u16 w.toNat) ↔ ∀ w ∈ f, w.toNat = m := by
  cases f with
  | none => simp
  | some w =>
    have narrow := fits rfl
    simp only [Option.map_some, Option.some.injEq, u16_inj narrow w.isLt, Option.mem_def, forall_eq']
    exact eq_comm

theorem stored_lt (narrow : hi < 256) (order : lo ≤ hi) (held : Nat) (carried : f.isSome = true) : stored lo hi f held < 256 := by
  cases f with
  | none => cases carried
  | some b =>
    have := clamp_le (n := b.toNat) order
    exact Nat.lt_of_le_of_lt this narrow

/-- The fields of a subset body of CHANGE JOB that a started job takes (R27, R184). -/
def startedFields (ordered priority maxSpeed rejectLimit : Option (List Byte)) : List (Option (List Byte)) :=
  [none, none, none, none, ordered, priority, maxSpeed, none, none, rejectLimit, none, none, none, none, none]

theorem startedFields_inj {o o' q q' m m' l l' : Option (List Byte)} (ordered : SameWidth o o') (priority : SameWidth q q')
    (speed : SameWidth m m') (reject : SameWidth l l')
    (same : subsetBody (startedFields o q m l) = subsetBody (startedFields o' q' m' l')) :
    o = o' ∧ q = q' ∧ m = m' ∧ l = l' := by
  have absent : SameWidth none none := fun _ _ is => by cases is
  have alike : List.Forall₂ SameWidth (startedFields o q m l) (startedFields o' q' m' l') := by
    simp only [startedFields, List.forall₂_cons, absent, ordered, priority, speed, reject, List.Forall₂.nil, and_self]
  have few : (startedFields o q m l).length ≤ 32 := by simp [startedFields]
  simpa [startedFields] using subsetBody_inj alike few same

theorem sameWidth_map {α : Type} {g h : α → List Byte} {o : Option α} (alike : ∀ a, (g a).length = (h a).length) :
    SameWidth (o.map g) (o.map h) := fun u v used carried => by
  obtain ⟨a, is, rfl⟩ := Option.map_eq_some_iff.1 used
  obtain ⟨a', is', rfl⟩ := Option.map_eq_some_iff.1 carried
  obtain rfl : a = a' := Option.some.inj (is.symm.trans is')
  exact alike a

theorem appliedBody_eq (c : JobChange) (k : Job) : appliedBody c k = subsetBody (startedFields
    (c.ordered.map fun _ => u16 k.ordered) (c.priority.map fun _ => u8 k.priority) (c.maxSpeed.map fun _ => u8 k.maxSpeed)
    (c.rejectLimit.map fun _ => u8 k.rejectLimit)) := rfl

theorem changeCarriedBody_eq (c : JobChange) : changeCarriedBody c = subsetBody (startedFields
    (c.ordered.map fun w => u16 w.toNat) (c.priority.map fun b => [b]) (c.maxSpeed.map fun b => [b])
    (c.rejectLimit.map fun b => [b])) := rfl

theorem applyChange_ordered_lt (carried : c.ordered.isSome = true) : (applyChange c j).ordered < 65536 := by
  obtain ⟨w, is⟩ := Option.isSome_iff_exists.1 carried
  have most : clamp 1 9999 (max w.toNat (j.delivered + j.active)) ≤ 9999 := clamp_le (by decide)
  rw [applyChange_eq]
  simp only [is]
  omega

/-- The values used show as they came exactly when they are those carried (R27, R179). -/
theorem appliedBody_iff : appliedBody c (applyChange c j) = changeCarriedBody c ↔ changeAsCarried c (applyChange c j) := by
  have ordered := applyChange_ordered_lt (c := c) (j := j)
  have priority : c.priority.isSome = true → (applyChange c j).priority < 256 := stored_lt (by decide) (by decide) _
  have speed : c.maxSpeed.isSome = true → (applyChange c j).maxSpeed < 256 := stored_lt (by decide) (by decide) _
  have reject : c.rejectLimit.isSome = true → (applyChange c j).rejectLimit < 256 := stored_lt (by decide) (by decide) _
  rw [changeAsCarried, ← wordField_iff ordered, ← byteField_iff priority, ← byteField_iff speed, ← byteField_iff reject,
    appliedBody_eq, changeCarriedBody_eq]
  constructor
  · exact startedFields_inj (sameWidth_map fun _ => rfl) (sameWidth_map fun _ => rfl) (sameWidth_map fun _ => rfl)
      (sameWidth_map fun _ => rfl)
  · rintro ⟨ordered, priority, speed, reject⟩
    rw [ordered, priority, speed, reject]

section Started
variable (c) (k)

/-- What a change of *ordered* or of *reject limit* leads to (R27, R34). -/
theorem afterChange_set (p : Part) : afterChange c x (p.setJob x (some k)) =
    if k.state.open_ = true ∧ c.ordered.isSome = true ∧ k.delivered = k.ordered then p.ends x k .done
    else if k.state.open_ = true ∧ c.rejectLimit.isSome = true ∧ k.rejectLimit ≤ k.failures then
      p.closes x { k with state := .failing }
    else p.setJob x (some k) := by
  unfold afterChange
  rw [Part.setJob_self]
  simp only [Bool.and_eq_true, beq_iff_eq, decide_eq_true_eq, and_assoc, endJob_set, failJob_set]

end Started

section Answered
variable (tag) (number : job.toNat = x.val + 1) (held : s.part.job x = some j) (fits : changeCodesFit c = true)
include number held fits

theorem exec_changeJob_badState (takes : s.takes) (undefined : j.state ≠ .defined)
    (refused : changeRedefines c = true ∨ j.state.ended = true) : exec (.changeJob tag job c) s =
      .next (s.replied 0x31 tag { status := .badState, body := [] } s.part.fresh) := by
  rw [exec_changeJob]
  exact takeRequest_replied takes 0x31 tag (reqChangeJob_badState number held fits undefined refused)

/-- A change a started job takes is answered OK when each carried value is used as it came, else with the values used
(R27, R179). -/
theorem exec_changeJob_started {q : Part} (takes : s.takes) (started : j.state.started = true)
    (keeps : changeRedefines c = false) (after : afterChange c x (s.part.fresh.setJob x (some (applyChange c j))) = q) :
    (changeAsCarried c (applyChange c j) → exec (.changeJob tag job c) s =
      .next (s.replied 0x31 tag { status := .ok, body := [] } (settle q))) ∧
    (¬ changeAsCarried c (applyChange c j) → exec (.changeJob tag job c) s =
      .next (s.replied 0x31 tag { status := .clamped, body := appliedBody c (applyChange c j) } (settle q))) := by
  have undefined : j.state ≠ .defined := fun is => by simp [is, JobState.started] at started
  have going : (j.state.ended || changeRedefines c) = false := by
    rw [keeps, Bool.or_false]
    revert started
    cases j.state <;> simp [JobState.started, JobState.ended]
  have acts := reqChangeJob_held (p := s.part.fresh) number held fits
  rw [if_neg undefined, going, if_neg Bool.false_ne_true, after, settled] at acts
  rw [exec_changeJob, ← appliedBody_iff]
  constructor
  · intro same
    rw [same, bne_self_eq_false, okOrClamped_false] at acts
    exact takeRequest_replied takes 0x31 tag acts
  · intro other
    rw [bne_iff_ne.2 other, okOrClamped_true] at acts
    exact takeRequest_replied takes 0x31 tag acts

end Answered

end Sys2Proof.Machine
end

