-- ==== Sys2Proof/Proofs/RedefineJob.lean ====
section
/-! PROOF. CHANGE JOB of a DEFINED job: the carried fields over the held ones, the records they name, the values used
(R26). -/

namespace Sys2Proof.Machine

-- One proof after another: side by side, their threads' stacks pass the check's memory limit.
set_option Elab.async false

variable {p : Part} {s : State} {tag job b : Byte} {c : JobChange} {x : Fin 16} {j : Job} {r : JobSpec}
  {i : Option (Fin 32)} {t : Option (Fin 8)} {cls : DiscClass}

/-! ## The fields of a redefinition -/

/-- A carried number over the one held. -/
def carriedOver (new : Option Byte) (old : Option Nat) : Option Nat := if new.isSome then new.map (·.toNat) else old

theorem orHeld_eq (new : Option Byte) (old : Option Nat) : orHeld new old = carriedOver new old := by cases new <;> rfl

/-- The definition of a DEFINED job with the carried fields over the held ones, before the fields that do not apply to
the kind are dropped (R26). -/
def changeRaw (c : JobChange) (j : Job) : JobSpec where
  hostRef := c.hostRef.getD j.hostRef
  kind := (c.kind.bind kindOf).getD j.kind
  image := carriedOver c.image (j.image.map (·.val))
  cls := some ((c.cls.bind classOf).getD j.cls)
  ordered := match c.ordered with | some w => w.toNat | none => j.ordered
  priority := match c.priority with | some b => b.toNat | none => j.priority
  maxSpeed := match c.maxSpeed with | some b => b.toNat | none => j.maxSpeed
  verifyMode := if c.verifyMode.isSome then c.verifyMode.bind verifyModeOf else j.verifyMode
  recoveredLimit := carriedOver c.recoveredLimit j.recoveredLimit
  rejectLimit := match c.rejectLimit with | some b => b.toNat | none => j.rejectLimit
  template := carriedOver c.template (j.template.map (·.val))
  inkPolicy := if c.inkPolicy.isSome then c.inkPolicy.bind inkPolicyOf else j.inkPolicy
  serialDigits := carriedOver c.serialDigits j.serialDigits
  firstSerial := if c.firstSerial.isSome then c.firstSerial.map (·.toNat) else j.serials.map (·.first)
  step := carriedOver c.step (j.serials.map (·.step))

theorem changedSpec_eq (fits : changeCodesFit c = true) : changedSpec c j = (changeRaw c j).applying := by
  obtain ⟨-, -, verify, policy⟩ := changeCodesFit_iff.1 fits
  have verify : (match c.verifyMode.bind verifyModeOf with | some v => some v | none => j.verifyMode) =
      if c.verifyMode.isSome then c.verifyMode.bind verifyModeOf else j.verifyMode := by
    cases is : c.verifyMode with
    | none => rfl
    | some b =>
      obtain ⟨v, code⟩ := Option.isSome_iff_exists.1 (verifyModeOf_isSome.2 (verify b is))
      simp [code]
  have policy : (match c.inkPolicy.bind inkPolicyOf with | some v => some v | none => j.inkPolicy) =
      if c.inkPolicy.isSome then c.inkPolicy.bind inkPolicyOf else j.inkPolicy := by
    cases is : c.inkPolicy with
    | none => rfl
    | some b =>
      obtain ⟨v, code⟩ := Option.isSome_iff_exists.1 (inkPolicyOf_isSome.2 (policy b is))
      simp [code]
  have first : (match c.firstSerial with | some w => some w.toNat | none => j.serials.map (·.first)) =
      if c.firstSerial.isSome then c.firstSerial.map (·.toNat) else j.serials.map (·.first) := by
    cases c.firstSerial <;> rfl
  rw [changedSpec, changeRaw, orHeld_eq, orHeld_eq, orHeld_eq, orHeld_eq, orHeld_eq]
  congr 2

/-! ## The records a redefinition names -/

theorem neededId_of_some {n : Nat} {needed : Bool} {o : Option Nat} {k : Fin n} (yes : needed = true)
    (is : o = some k.val) : neededId n needed (if needed then o else none) = some (some k) := by
  rw [yes, if_pos rfl, is]
  exact neededId_named rfl

theorem neededId_of_none {n : Nat} {needed : Bool} {o : Option Nat} (yes : needed = true)
    (is : ∀ k : Fin n, o ≠ some k.val) : neededId n needed (if needed then o else none) = none := by
  rw [yes, if_pos rfl]
  cases o with
  | none => rfl
  | some m => exact neededId_outside (Nat.le_of_not_lt fun small => is ⟨m, small⟩ rfl)

theorem neededId_idle {n : Nat} {needed : Bool} (no : needed = false) (o : Option Nat) :
    neededId n needed o = some none := by
  rw [no, neededId_unneeded]

theorem applying_outside (outside : r.kind ≠ .print ∧ (∀ n : Fin 32, r.image ≠ some n.val) ∨
    r.kind ≠ .burn ∧ ∀ n : Fin 8, r.template ≠ some n.val) : p.findJobRecords r.applying = .refused .outOfRange := by
  refine findJobRecords_outside ?_
  obtain ⟨burns, none'⟩ | ⟨labels, none'⟩ := outside
  · exact .inl (neededId_of_none (burns_eq_true.2 burns) none')
  · exact .inr (neededId_of_none (labels_eq_true.2 labels) none')

/-- The image a definition names, with the record its kind needs. -/
theorem imageId_named (inside : r.kind ≠ .print → ∃ n : Fin 32, r.image = some n.val) :
    ∃ o, neededId 32 r.applying.kind.burns r.applying.image = some o ∧
      ∀ n : Fin 32, r.kind ≠ .print → r.image = some n.val → o = some n := by
  by_cases print : r.kind = .print
  · exact ⟨none, neededId_idle (burns_eq_false.2 print) _, fun n other => absurd print other⟩
  · obtain ⟨k, is⟩ := inside print
    refine ⟨some k, neededId_of_some (burns_eq_true.2 print) is, fun n _ is' => congrArg some (Fin.ext ?_)⟩
    exact Option.some.inj (is.symm.trans is')

theorem templateId_named (inside : r.kind ≠ .burn → ∃ n : Fin 8, r.template = some n.val) :
    ∃ o, neededId 8 r.applying.kind.labels r.applying.template = some o ∧
      ∀ n : Fin 8, r.kind ≠ .burn → r.template = some n.val → o = some n := by
  by_cases burn : r.kind = .burn
  · exact ⟨none, neededId_idle (labels_eq_false.2 burn) _, fun n other => absurd burn other⟩
  · obtain ⟨k, is⟩ := inside burn
    refine ⟨some k, neededId_of_some (labels_eq_true.2 burn) is, fun n _ is' => congrArg some (Fin.ext ?_)⟩
    exact Option.some.inj (is.symm.trans is')

theorem applying_missing (inside : ¬ (r.kind ≠ .print ∧ (∀ n : Fin 32, r.image ≠ some n.val) ∨
      r.kind ≠ .burn ∧ ∀ n : Fin 8, r.template ≠ some n.val))
    (missing : r.kind ≠ .print ∧ (∃ n : Fin 32, r.image = some n.val ∧ p.image n = none) ∨
      r.kind ≠ .burn ∧ ∃ n : Fin 8, r.template = some n.val ∧ p.template n = none) :
    p.findJobRecords r.applying = .refused .notFound := by
  obtain ⟨image, template⟩ := not_or.1 inside
  obtain ⟨i, imageId, itsImage⟩ := imageId_named (r := r) fun burns => by simpa using not_and.1 image burns
  obtain ⟨t, templateId, itsTemplate⟩ := templateId_named (r := r) fun labels => by simpa using not_and.1 template labels
  refine findJobRecords_missing imageId templateId ?_
  obtain ⟨burns, n, is, empty⟩ | ⟨labels, n, is, undefined⟩ := missing
  · exact .inl ⟨n, itsImage n burns is, empty⟩
  · exact .inr ⟨n, itsTemplate n labels is, undefined⟩

/-- The image, the template and the class a complete definition takes (R22, R25, R26). -/
def JobSpec.Names (r : JobSpec) (p : Part) (i : Option (Fin 32)) (t : Option (Fin 8)) (cls : DiscClass) : Prop :=
  (r.kind ≠ .print → ∃ n y, i = some n ∧ r.image = some n.val ∧ p.image n = some y ∧ cls = y.cls) ∧
  (r.kind = .print → i = none ∧ r.cls = some cls) ∧
  (r.kind ≠ .burn → ∃ n y, t = some n ∧ r.template = some n.val ∧ p.template n = some y) ∧
  (r.kind = .burn → t = none)

theorem applying_found (names : r.Names p i t cls) : p.findJobRecords r.applying = .ok i t cls := by
  obtain ⟨image, without, template, plain⟩ := names
  have templateId : neededId 8 r.applying.kind.labels r.applying.template = some t ∧
      ∀ n, t = some n → (p.template n).isSome = true := by
    by_cases burn : r.kind = .burn
    · rw [plain burn]
      exact ⟨neededId_idle (labels_eq_false.2 burn) _, fun n is => by cases is⟩
    · obtain ⟨n, y, rfl, is, held⟩ := template burn
      refine ⟨neededId_of_some (labels_eq_true.2 burn) is, fun n' is' => ?_⟩
      rw [← Option.some.inj is', held]
      rfl
  obtain ⟨templateId, defined⟩ := templateId
  by_cases print : r.kind = .print
  · obtain ⟨rfl, its⟩ := without print
    exact findJobRecords_found (neededId_idle (burns_eq_false.2 print) _) templateId (.inr ⟨rfl, its⟩) defined
  · obtain ⟨n, y, rfl, is, held, rfl⟩ := image print
    exact findJobRecords_found (neededId_of_some (burns_eq_true.2 print) is) templateId (.inl ⟨n, y, rfl, held, rfl⟩) defined

/-! ## The values used -/

/-- The fields a kind keeps of the values used, as the record holds them. -/
theorem applying_used (complete : r.Complete) (names : r.Names p i t cls) :
    r.applying.clamped.image = i.map (·.val) ∧ r.applying.clamped.template = t.map (·.val) ∧
    r.applying.clamped.firstSerial = (r.job i t cls).serials.map (·.first) ∧
    r.applying.clamped.step = (r.job i t cls).serials.map (·.step) := by
  obtain ⟨image, without, template, plain⟩ := names
  have itsImage : r.applying.clamped.image = i.map (·.val) := by
    by_cases print : r.kind = .print
    · simp [JobSpec.clamped, JobSpec.applying, burns_eq_false.2 print, (without print).1]
    · obtain ⟨n, y, rfl, is, -⟩ := image print
      simp [JobSpec.clamped, JobSpec.applying, burns_eq_true.2 print, is]
  have itsTemplate : r.applying.clamped.template = t.map (·.val) := by
    by_cases burn : r.kind = .burn
    · simp [JobSpec.clamped, JobSpec.applying, labels_eq_false.2 burn, plain burn]
    · obtain ⟨n, y, rfl, is, -⟩ := template burn
      simp [JobSpec.clamped, JobSpec.applying, labels_eq_true.2 burn, is]
  refine ⟨itsImage, itsTemplate, ?_⟩
  by_cases without : r.kind = .burn ∨ r.serialDigits = some 0
  · obtain ⟨first, step, -⟩ := applying_serials_without without
    rw [first, step]
    simp [JobSpec.job, without]
  · obtain ⟨labels, some'⟩ := not_or.1 without
    obtain ⟨digits, first, step, is, first_is, step_is⟩ := (Complete.serials complete labels).resolve_left some'
    obtain ⟨-, first', step'⟩ := applying_serials_with labels is first_is step_is
    rw [first', step']
    simp [JobSpec.job, is, first_is, step_is, labels]

/-- *first serial* is among the values used when it is carried or was moved (R26; log 9). -/
theorem shown_first (complete : r.Complete) (carried : Bool) (firstUsed : Option Nat)
    (used : r.applying.clamped.firstSerial = firstUsed) :
    (carried || (r.applying.firstSerial != r.applying.clamped.firstSerial)) =
      (carried || (firstUsed.isSome && firstUsed != r.firstSerial)) := by
  congr 1
  subst used
  by_cases without : r.kind = .burn ∨ r.serialDigits = some 0
  · have first : r.applying.firstSerial = none := by
      obtain is | is := without <;> simp [JobSpec.applying, is, JobKind.labels]
    rw [first, (applying_serials_without without).1]
    rfl
  · obtain ⟨labels, some'⟩ := not_or.1 without
    obtain ⟨digits, first, step, is, first_is, step_is⟩ := (Complete.serials complete labels).resolve_left some'
    obtain ⟨-, first', -⟩ := applying_serials_with labels is first_is step_is
    have before : r.applying.firstSerial = some first := by
      simp [JobSpec.applying, labels_eq_true.2 labels, is, first_is]
    rw [before, first', first_is, Option.isSome_some, Bool.true_and]
    exact bne_comm

/-! ## The answer and the records of a redefinition -/

section Held
variable (number : job.toNat = x.val + 1) (held : p.job x = some j) (fits : changeCodesFit c = true)
  (defined : j.state = .defined)
include number held fits defined

theorem reqChangeJob_incomplete (lacks : ¬ (changeRaw c j).Complete) : reqChangeJob job c p = turnDown .outOfRange p := by
  rw [reqChangeJob_held number held fits, if_pos defined, redefineJob, changedSpec_eq fits]
  have lacks' : (changeRaw c j).applying.complete = false := by
    simpa using mt (applying_complete_iff rfl).1 lacks
  simp only [lacks', Bool.not_false, if_true]

variable (complete : (changeRaw c j).Complete)
include complete

theorem reqChangeJob_refused {st : Status} (refused : p.findJobRecords (changeRaw c j).applying = .refused st) :
    reqChangeJob job c p = turnDown st p := by
  rw [reqChangeJob_held number held fits, if_pos defined, redefineJob, changedSpec_eq fits]
  simp only [(applying_complete_iff (r := changeRaw c j) rfl).2 complete, Bool.not_true, Bool.false_eq_true, if_false, refused]

/-- The records after a redefinition (R26, R103, R147). -/
def Part.redefines (p : Part) (x : Fin 16) (j k : Job) : Part :=
  (useTemplate k.template (leaveTemplate j.template (attachImage k.image (detachImage j.image p)))).setJob x (some k)

theorem reqChangeJob_redefines (names : (changeRaw c j).Names p i t cls) : reqChangeJob job c p =
    (p.redefines x j ((changeRaw c j).job i t cls),
      okOrClamped ((changeRaw c j).applying.clamped != (changeRaw c j).applying) []
        (redefinedBody c (changeRaw c j).applying (changeRaw c j).applying.clamped cls)) := by
  rw [reqChangeJob_held number held fits, if_pos defined, redefineJob, changedSpec_eq fits]
  simp only [(applying_complete_iff (r := changeRaw c j) rfl).2 complete, Bool.not_true, Bool.false_eq_true, if_false,
    applying_found names, record_eq complete]
  rfl

end Held

/-- What a redefinition leaves: the job, the uses of its old records ended, those of the new ones begun (R26). -/
theorem redefines_leaves (p : Part) (x : Fin 16) (j k : Job) :
    p.Changes [.jobs, .images, .templates] (p.redefines x j k) ∧ OthersKept p.job (p.redefines x j k).job x ∧
    (p.redefines x j k).job x = some k ∧
    (∀ n, (p.redefines x j k).image n = (p.image n).map fun y => { y with
      attachCount := y.attachCount - (if j.image = some n then 1 else 0) + if k.image = some n then 1 else 0 }) ∧
    (∀ n, (p.redefines x j k).template n = (p.template n).map fun y => { y with
      users := y.users - (if j.template = some n then 1 else 0) + if k.template = some n then 1 else 0 }) := by
  have images := (detachImage_changes j.image p).andThen (attachImage_changes k.image _)
  have templates := (leaveTemplate_changes j.template (attachImage k.image (detachImage j.image p))).andThen
    (useTemplate_changes k.template _)
  have itsImage : ∀ n, (attachImage k.image (detachImage j.image p)).image n = (p.image n).map fun y => { y with
      attachCount := y.attachCount - (if j.image = some n then 1 else 0) + if k.image = some n then 1 else 0 } := fun n => by
    rw [attachImage_image, detachImage_image]
    cases p.image n <;> by_cases old : j.image = some n <;> by_cases new : k.image = some n <;> simp [old, new]
  have itsTemplate : ∀ n, (useTemplate k.template (leaveTemplate j.template
      (attachImage k.image (detachImage j.image p)))).template n = (p.template n).map fun y => { y with
      users := y.users - (if j.template = some n then 1 else 0) + if k.template = some n then 1 else 0 } := fun n => by
    have kept : (attachImage k.image (detachImage j.image p)).template n = p.template n := by
      rw [Part.template, images .templates (by decide)]
      rfl
    rw [useTemplate_template, leaveTemplate_template, kept]
    cases p.template n <;> by_cases old : j.template = some n <;> by_cases new : k.template = some n <;> simp [old, new]
  rw [Part.redefines]
  generalize useTemplate k.template (leaveTemplate j.template (attachImage k.image (detachImage j.image p))) = q
    at templates itsTemplate
  generalize attachImage k.image (detachImage j.image p) = u at images templates itsImage
  have both : p.Changes [.images, .templates] q := (images.andThen templates).widen rfl
  have jobs := job_congr (both .jobs (by decide))
  refine ⟨?_, fun y other => ?_, Part.setJob_self _ _ _, fun n => ?_, fun n => ?_⟩
  · exact (both.andThen (fun f own => by cases f <;> first | rfl | simp at own : q.Changes [.jobs] (q.setJob x (some k)))).widen rfl
  · rw [Part.setJob_other _ _ _ _ other, jobs]
  · rw [← itsImage n, Part.image, Part.image, ← templates .images (by decide)]
    rfl
  · exact itsTemplate n

end Sys2Proof.Machine
end

