-- ==== Sys2Proof/Proofs/ChangeAnswers.lean ====
section
/-! PROOF. CHANGE JOB: the reply's values used in DEFINED, and the whole of O31 (R26, R27, R34). -/

namespace Sys2Proof.Machine

-- One proof after another: side by side, their threads' stacks pass the check's memory limit.
set_option Elab.async false

variable {p : Part} {s : State} {tag job b : Byte} {c : JobChange} {x : Fin 16} {j : Job} {r : JobSpec}
  {i : Option (Fin 32)} {t : Option (Fin 8)} {cls : DiscClass}

/-- The values used of a redefinition, as the job it makes holds them; `first` is *first serial* before it was moved
(R26, R184; logs 6, 9). -/
def usedBody (c : JobChange) (used : Job) (first : Option Nat) : List Byte :=
  let firstUsed := used.serials.map fun y => y.first
  subsetBody
    [c.hostRef.map fun _ => u32 used.hostRef.toNat, c.kind.map fun _ => u8 used.kind.code,
      c.image.map fun _ => opt8 (used.image.map fun n => n.val),
      c.cls.map fun _ => u8 (classCode used.cls), c.ordered.map fun _ => u16 used.ordered,
      c.priority.map fun _ => u8 used.priority, c.maxSpeed.map fun _ => u8 used.maxSpeed,
      c.verifyMode.map fun _ => opt8 (used.verifyMode.map fun v => v.code),
      c.recoveredLimit.map fun _ => opt8 used.recoveredLimit,
      c.rejectLimit.map fun _ => u8 used.rejectLimit,
      c.template.map fun _ => opt8 (used.template.map fun n => n.val),
      c.inkPolicy.map fun _ => opt8 (used.inkPolicy.map fun v => v.code),
      c.serialDigits.map fun _ => opt8 used.serialDigits,
      if c.firstSerial.isSome || (firstUsed.isSome && firstUsed != first) then some (opt32 firstUsed)
        else none,
      c.step.map fun _ => opt8 (used.serials.map fun y => y.step)]

theorem redefinedBody_eq (complete : (changeRaw c j).Complete) (names : (changeRaw c j).Names p i t cls) :
    redefinedBody c (changeRaw c j).applying (changeRaw c j).applying.clamped cls =
      usedBody c ((changeRaw c j).job i t cls) (changeRaw c j).firstSerial := by
  obtain ⟨image, template, first, step⟩ := applying_used complete names
  have record := record_eq (image := i) (template := t) (c := cls) complete
  have verify := congrArg Job.verifyMode record
  have recovered := congrArg Job.recoveredLimit record
  have policy := congrArg Job.inkPolicy record
  have digits := congrArg Job.serialDigits record
  have hostRef : (c.hostRef.map fun w => u32 w.toNat) =
      c.hostRef.map fun _ => u32 ((changeRaw c j).job i t cls).hostRef.toNat := by
    cases is : c.hostRef with
    | none => rfl
    | some w => simp [JobSpec.job, changeRaw, is]
  simp only [JobSpec.record] at verify recovered policy digits
  rw [redefinedBody, usedBody, image, template, step, verify, recovered, policy, digits, shown,
    shown_first complete _ _ first, first, hostRef]
  rfl

section Answered
variable (tag) (takes : s.takes) (number : job.toNat = x.val + 1) (held : s.part.job x = some j)
  (fits : changeCodesFit c = true) (defined : j.state = .defined)
include takes number held fits defined

theorem exec_changeJob_incomplete (lacks : ¬ (changeRaw c j).Complete) : exec (.changeJob tag job c) s =
    .next (s.replied 0x31 tag { status := .outOfRange, body := [] } s.part.fresh) := by
  rw [exec_changeJob]
  exact takeRequest_replied takes 0x31 tag (reqChangeJob_incomplete number held fits defined lacks)

variable (complete : (changeRaw c j).Complete)
include complete

theorem exec_changeJob_refused {st : Status}
    (refused : s.part.fresh.findJobRecords (changeRaw c j).applying = .refused st) : exec (.changeJob tag job c) s =
      .next (s.replied 0x31 tag { status := st, body := [] } s.part.fresh) := by
  rw [exec_changeJob]
  exact takeRequest_replied takes 0x31 tag
    (reqChangeJob_refused (p := s.part.fresh) number held fits defined complete refused)

theorem exec_changeJob_redefines (names : (changeRaw c j).Names s.part i t cls) :
    ∃ a q, exec (.changeJob tag job c) s = .next (s.replied 0x31 tag a q) ∧
      ((changeRaw c j).InRange → a = { status := .ok, body := [] }) ∧
      (¬ (changeRaw c j).InRange → a =
        { status := .clamped
          body := usedBody c ((changeRaw c j).job i t cls) (changeRaw c j).firstSerial }) ∧
      s.part.fresh.Changes [.jobs, .images, .templates] q ∧ OthersKept s.part.job q.job x ∧
      q.job x = some ((changeRaw c j).job i t cls) ∧
      (∀ n, q.image n = (s.part.image n).map fun y => { y with
        attachCount := y.attachCount - (if j.image = some n then 1 else 0) + if i = some n then 1 else 0 }) ∧
      (∀ n, q.template n = (s.part.template n).map fun y => { y with
        users := y.users - (if j.template = some n then 1 else 0) + if t = some n then 1 else 0 }) := by
  have acts := reqChangeJob_redefines (p := s.part.fresh) number held fits defined complete names
  rw [redefinedBody_eq complete names] at acts
  refine ⟨_, _, (exec_changeJob ..).trans (takeRequest_replied takes 0x31 tag acts), fun inRange => ?_, fun outside => ?_,
    redefines_leaves s.part.fresh x j _⟩
  · rw [(applying_clamped_iff complete).2 inRange, bne_self_eq_false, okOrClamped_false]
  · rw [bne_iff_ne.2 (mt (applying_clamped_iff complete).1 outside), okOrClamped_true]

end Answered

theorem afterChange_done {k : Job} (isOpen : k.state = .running ∨ k.state = .paused ∨ k.state = .held)
    (carried : c.ordered.isSome = true) (all : k.delivered = k.ordered) (p : Part) :
    afterChange c x (p.setJob x (some k)) = p.ends x k .done := by
  rw [afterChange_set, if_pos ⟨open_iff.2 isOpen, carried, all⟩]

section Going
variable {k : Job} (going : ¬ ((k.state = .running ∨ k.state = .paused ∨ k.state = .held) ∧ c.ordered.isSome = true ∧
  k.delivered = k.ordered))
include going

theorem afterChange_kept (p : Part) (fails : ¬ ((k.state = .running ∨ k.state = .paused ∨ k.state = .held) ∧
    c.rejectLimit.isSome = true ∧ k.rejectLimit ≤ k.failures)) :
    afterChange c x (p.setJob x (some k)) = p.setJob x (some k) := by
  rw [← open_iff] at going fails
  rw [afterChange_set, if_neg going, if_neg fails]

variable (fails : (k.state = .running ∨ k.state = .paused ∨ k.state = .held) ∧ c.rejectLimit.isSome = true ∧
  k.rejectLimit ≤ k.failures)
include fails

theorem afterChange_failing (p : Part) (active : 0 < k.active) :
    afterChange c x (p.setJob x (some k)) = p.setJob x (some { k with state := .failing }) := by
  rw [← open_iff] at going fails
  rw [afterChange_set, if_neg going, if_pos fails, Part.closes, if_neg fun is => by simp only at is; omega,
    if_neg fun is => by simp only at is; omega]

theorem afterChange_failed (p : Part) (active : k.active = 0) :
    afterChange c x (p.setJob x (some k)) = p.ends x k .failed := by
  rw [← open_iff] at going fails
  rw [afterChange_set, if_neg going, if_pos fails, Part.closes, if_pos ⟨active, rfl⟩]
  rfl

end Going

/-- Settles O31: a started job by the branches of `afterChange`, a DEFINED one by what its redefinition lacks or names. -/
theorem changeJob : Obligations.ChangeJob := by
  unfold Obligations.ChangeJob
  refine ⟨fun s tag job c x j takes number held fits => ?_, fun c =>
    ⟨changeCodesFit_iff, changeRedefines_eq_false_iff, fun s tag job takes unfit => ?_⟩⟩
  · refine ⟨fun undefined refused => exec_changeJob_badState tag number held fits takes undefined refused,
      fun started keeps => ⟨fun ⟨isOpen, carried, all⟩ => ?_, fun going fails active => ?_, fun going fails active => ?_,
        fun going fails => ?_⟩, fun defined => ⟨fun lacks => ?_, fun complete outside => ?_,
        fun complete inside missing => ?_, fun i t cls complete image without template plain => ?_⟩⟩
    · exact exec_changeJob_started tag number held fits takes started keeps
        (afterChange_done (k := applyChange c j) isOpen carried all s.part.fresh)
    · exact exec_changeJob_started tag number held fits takes started keeps
        (afterChange_failing (k := applyChange c j) going fails s.part.fresh active)
    · exact exec_changeJob_started tag number held fits takes started keeps
        (afterChange_failed (k := applyChange c j) going fails s.part.fresh active)
    · exact exec_changeJob_started tag number held fits takes started keeps
        (afterChange_kept (k := applyChange c j) going s.part.fresh fails)
    · exact exec_changeJob_incomplete tag takes number held fits defined lacks
    · exact exec_changeJob_refused tag takes number held fits defined complete (applying_outside outside)
    · exact exec_changeJob_refused tag takes number held fits defined complete (applying_missing inside missing)
    · exact exec_changeJob_redefines tag takes number held fits defined complete
        ⟨image, fun print => ⟨(without print).1, congrArg some (without print).2.symm⟩, template, plain⟩
  · rw [exec_changeJob]
    exact takeRequest_replied takes 0x31 tag (reqChangeJob_unfit unfit)

end Sys2Proof.Machine
end

