-- ==== Sys2Proof/Proofs/MoveArbiter.lean ====
section
/-! PROOF. The move requests, which of them the arm is granted, and what the grant does (R49, R52 to R54). -/

namespace Sys2Proof.Machine

-- One proof after another: side by side, their threads' stacks pass the check's memory limit.
set_option Elab.async false

variable {p : Part} {r : Fin 24} {d : Disc} {pl : Place} {dest : Dest} {n : Nat}

/-! ## The requests -/

/-- A record in a bay asks only while the bay is PRESENTING (R52; log 17). -/
def Part.reaches (p : Part) (pl : Place) : Prop := ∀ b, pl = .bay b → (p.bay b).state = .presenting

/-- The request of an eligible record by its stage and place (R52). -/
def Part.asksFor (p : Part) (r : Fin 24) (st : Stage) (pl : Place) : Option (Nat × Dest) :=
  match st with
  | .rejectBound => if p.bin.full then none else some (1, .bin)
  | .outbound => if p.output.full then none else some (if pl = .printer then 2 else 4, .output)
  | .printQueued =>
    if (∃ b, pl = .bay b) ∧ p.printQueue.head? = some r ∧ p.occupant .printer = none ∧ p.station.state = .empty then
      some (3, .printer)
    else none
  | _ => none

theorem request_free (free : p.disc r = none) : p.request r = none := by rw [Part.request, free]

theorem reaches_iff (p : Part) (pl : Place) : p.reaches pl ↔ (match some pl with
    | some (.bay b) => (p.bay b).state == .presenting | _ => true) = true := by
  cases pl <;> simp [Part.reaches]

/-- Only an eligible record at a place it can be taken from asks (R7, R52; log 17). -/
theorem request_idle (held : p.disc r = some d)
    (idle : d.place = none ∨ d.eligible.isSome = false ∨ ∃ pl, d.place = some pl ∧ ¬ p.reaches pl) : p.request r = none := by
  unfold Part.request
  rw [held]
  obtain placeless | unordered | ⟨pl, place, away⟩ := idle
  · cases stage : d.stage <;> simp [placeless, stage]
  · simp [unordered]
  · cases pl with
    | bay b =>
      have shut : (p.bay b).state ≠ .presenting := fun is => away fun b' same => by
        cases same
        exact is
      simp [place, shut]
    | arm => exact absurd (fun b same => by cases same) away
    | printer => exact absurd (fun b same => by cases same) away

theorem request_placed (held : p.disc r = some d) (place : d.place = some pl) (order : d.eligible.isSome = true)
    (reaches : p.reaches pl) : p.request r = p.asksFor r d.stage pl := by
  unfold Part.request Part.asksFor
  rw [held]
  cases pl with
  | bay b =>
    have presenting := reaches b rfl
    cases stage : d.stage <;> simp [order, place, stage, presenting, and_assoc]
  | arm => cases stage : d.stage <;> simp [order, place, stage]
  | printer => cases stage : d.stage <;> simp [order, place, stage]

theorem asksFor_iff {st : Stage} : p.asksFor r st pl = some (n, dest) ↔
    n = 1 ∧ dest = .bin ∧ st = .rejectBound ∧ p.bin.count < p.bin.capacity ∨
    n = 2 ∧ dest = .output ∧ st = .outbound ∧ pl = .printer ∧ p.output.count < p.output.capacity ∨
    n = 3 ∧ dest = .printer ∧ st = .printQueued ∧ (∃ b, pl = .bay b) ∧
      p.printQueue.head? = some r ∧ p.occupant .printer = none ∧ p.station.state = .empty ∨
    n = 4 ∧ dest = .output ∧ st = .outbound ∧ pl ≠ .printer ∧ p.output.count < p.output.capacity := by
  cases st
  case rejectBound => simp [Part.asksFor, Sink.full, and_comm, and_left_comm, and_assoc, eq_comm]
  case outbound => by_cases tray : pl = .printer <;> simp [Part.asksFor, Sink.full, tray, and_comm, and_left_comm, and_assoc, eq_comm]
  case printQueued =>
    simp only [Part.asksFor, Option.ite_none_right_eq_some, Option.some.injEq, Prod.mk.injEq]
    constructor
    · rintro ⟨waits, rfl, rfl⟩
      exact .inr (.inr (.inl ⟨rfl, rfl, trivial, waits⟩))
    · rintro (⟨-, -, is, -⟩ | ⟨-, -, is, -⟩ | ⟨rfl, rfl, -, waits⟩ | ⟨-, -, is, -⟩)
      · cases is
      · cases is
      · exact ⟨waits, rfl, rfl⟩
      · cases is
  all_goals simp [Part.asksFor]

theorem request_iff : p.request r = some (n, dest) ↔
    ∃ d pl, p.disc r = some d ∧ d.place = some pl ∧ d.eligible.isSome = true ∧
      (∀ b, pl = .bay b → (p.bay b).state = .presenting) ∧
      (n = 1 ∧ dest = .bin ∧ d.stage = .rejectBound ∧ p.bin.count < p.bin.capacity ∨
        n = 2 ∧ dest = .output ∧ d.stage = .outbound ∧ pl = .printer ∧ p.output.count < p.output.capacity ∨
        n = 3 ∧ dest = .printer ∧ d.stage = .printQueued ∧ (∃ b, pl = .bay b) ∧
          p.printQueue.head? = some r ∧ p.occupant .printer = none ∧ p.station.state = .empty ∨
        n = 4 ∧ dest = .output ∧ d.stage = .outbound ∧ pl ≠ .printer ∧ p.output.count < p.output.capacity) := by
  constructor
  · intro asks
    cases held : p.disc r with
    | none => rw [request_free held] at asks; cases asks
    | some d =>
      by_cases idle : d.place = none ∨ d.eligible.isSome = false ∨ ∃ pl, d.place = some pl ∧ ¬ p.reaches pl
      · rw [request_idle held idle] at asks
        cases asks
      · obtain ⟨placed, ordered, reaches⟩ : ¬ d.place = none ∧ ¬ d.eligible.isSome = false ∧
            ¬ ∃ pl, d.place = some pl ∧ ¬ p.reaches pl := by simpa only [not_or] using idle
        obtain ⟨pl, place⟩ := Option.ne_none_iff_exists'.1 placed
        have order : d.eligible.isSome = true := Bool.not_eq_false _ ▸ ordered
        have near : p.reaches pl := not_not.1 fun away => reaches ⟨pl, place, away⟩
        rw [request_placed held place order near] at asks
        exact ⟨d, pl, rfl, place, order, near, asksFor_iff.1 asks⟩
  · rintro ⟨d, pl, held, place, order, near, asks⟩
    rw [request_placed held place order near]
    exact asksFor_iff.2 asks

/-! ## The best of a list -/

section Best
variable {α β : Type} [LinearOrder β] (key : α → β) {f : Option α → α → Option α} {good : α → Prop}
  (next : ∀ m q, good m → good q → f (some m) q = if key q < key m then some q else some m)
include next

theorem foldl_least (l : List α) (m : α) (start : good m) (all : ∀ q ∈ l, good q) :
    ∃ z, l.foldl f (some m) = some z ∧ (z = m ∨ z ∈ l) ∧ key z ≤ key m ∧ ∀ y ∈ l, key z ≤ key y := by
  induction l generalizing m with
  | nil => exact ⟨m, rfl, .inl rfl, le_rfl, fun y is => by cases is⟩
  | cons q l ih =>
    have its := all q List.mem_cons_self
    have rest := fun y is => all y (List.mem_cons_of_mem q is)
    rw [List.foldl_cons, next m q start its]
    by_cases less : key q < key m
    · rw [if_pos less]
      obtain ⟨z, is, among, least, lower⟩ := ih q its rest
      exact ⟨z, is, .inr (List.mem_cons.2 among), least.trans less.le, fun y member =>
        (List.mem_cons.1 member).elim (fun same => same ▸ least) (lower y)⟩
    · rw [if_neg less]
      obtain ⟨z, is, among, least, lower⟩ := ih m start rest
      exact ⟨z, is, among.imp_right (List.mem_cons_of_mem q), least, fun y member =>
        (List.mem_cons.1 member).elim (fun same => same ▸ least.trans (not_lt.1 less)) (lower y)⟩

variable (first : ∀ q, f none q = some q)
include first

/-- The best of a list is one of its members, and none is better; with no member there is none. -/
theorem foldl_best {l : List α} (all : ∀ q ∈ l, good q) :
    l = [] ∧ l.foldl f none = none ∨
      ∃ z, l.foldl f none = some z ∧ z ∈ l ∧ ∀ y ∈ l, key z ≤ key y := by
  cases l with
  | nil => exact .inl ⟨rfl, rfl⟩
  | cons q l =>
    rw [List.foldl_cons, first]
    obtain ⟨z, is, among, least, lower⟩ := foldl_least key next l q (all q List.mem_cons_self)
      fun y is => all y (List.mem_cons_of_mem q is)
    exact .inr ⟨z, is, List.mem_cons.2 among, fun y member =>
      (List.mem_cons.1 member).elim (fun same => same ▸ least) (lower y)⟩

end Best

/-! ## The request granted first -/

/-- A request counted, of class `n` and order `k` (R52, R53). -/
def Part.asks (p : Part) (r : Fin 24) (n k : Nat) (dest : Dest) : Prop :=
  ∃ d, p.disc r = some d ∧ p.request r = some (n, dest) ∧ d.eligible = some k ∧ (p.places.arm = none ∨ d.place = some .arm)

theorem rankedRequest_iff {q : Nat × Nat × Fin 24 × Dest} :
    p.rankedRequest r = some q ↔ q.2.2.1 = r ∧ p.asks r q.1 q.2.1 q.2.2.2 := by
  obtain ⟨n, k, r', dest⟩ := q
  unfold Part.rankedRequest Part.asks
  cases held : p.disc r with
  | none => simp
  | some d =>
    cases asks : p.request r with
    | none => simp
    | some a =>
      obtain ⟨d', -, held', -, order, -⟩ := request_iff.1 asks
      obtain rfl : d = d' := Option.some.inj (held.symm.trans held')
      obtain ⟨m, is⟩ := Option.isSome_iff_exists.1 order
      by_cases counts : p.places.arm = none ∨ d.place = some .arm
      · have counts' : (p.places.arm.isNone || d.place == some .arm) = true := by simpa using counts
        simp only [counts', if_true, is, Option.getD_some, Option.some.injEq, Prod.mk.injEq]
        constructor
        · rintro ⟨rfl, rfl, rfl, rfl⟩
          exact ⟨rfl, d, rfl, rfl, is, counts⟩
        · rintro ⟨rfl, e, rfl, rfl, order', -⟩
          exact ⟨rfl, Option.some.inj (is.symm.trans order'), rfl, rfl⟩
      · have counts' : (p.places.arm.isNone || d.place == some .arm) = false := by simpa [Option.isSome_iff_ne_none] using counts
        simp only [counts', Bool.false_eq_true, if_false]
        constructor
        · intro is
          cases is
        · rintro ⟨-, e, its, -, -, counts'⟩
          obtain rfl := Option.some.inj its
          exact absurd counts' counts

theorem bestMove_cases : ((∀ r n k dest, ¬ p.asks r n k dest) ∧ p.bestMove = none) ∨
    ∃ q, p.bestMove = some q ∧ p.asks q.2.2.1 q.1 q.2.1 q.2.2.2 ∧
      ∀ r n k dest, p.asks r n k dest → toLex (q.1, q.2.1) ≤ toLex (n, k) := by
  have member (q : Nat × Nat × Fin 24 × Dest) : q ∈ allDiscs.filterMap p.rankedRequest ↔ p.asks q.2.2.1 q.1 q.2.1 q.2.2.2 := by
    simp only [List.mem_filterMap, mem_allDiscs, true_and, rankedRequest_iff]
    exact ⟨fun ⟨r, is, asks⟩ => is ▸ asks, fun asks => ⟨_, rfl, asks⟩⟩
  have found := foldl_best (good := fun _ => True) (fun q : Nat × Nat × Fin 24 × Dest => toLex (q.1, q.2.1))
    (f := fun best q => match best with
      | none => some q
      | some m => if q.1 < m.1 ∨ (q.1 = m.1 ∧ q.2.1 < m.2.1) then some q else some m)
    (fun m q _ _ => by simp only [Prod.Lex.toLex_lt_toLex])
    (fun q => rfl) (l := allDiscs.filterMap p.rankedRequest) (fun _ _ => trivial)
  obtain ⟨empty, none'⟩ | ⟨z, is, among, least⟩ := found
  · refine .inl ⟨fun r n k dest asks => ?_, none'⟩
    have := (member (n, k, r, dest)).2 asks
    rw [empty] at this
    cases this
  · exact .inr ⟨z, is, (member z).1 among, fun r n k dest asks => least _ ((member (n, k, r, dest)).2 asks)⟩

/-- A request before every other is the one granted (R53). -/
theorem bestMove_first {k : Nat} (asks : p.asks r n k dest)
    (first : ∀ r' n' k' dest', p.asks r' n' k' dest' → r' ≠ r → n < n' ∨ n = n' ∧ k < k') :
    p.bestMove = some (n, k, r, dest) := by
  obtain ⟨silent, -⟩ | ⟨⟨n', k', r', dest'⟩, is, asks', least⟩ := bestMove_cases (p := p)
  · exact absurd asks (silent r n k dest)
  · have same : r' = r := by
      by_contra other
      have before := first r' n' k' dest' asks' other
      exact absurd (least r n k dest asks) (not_le.2 (Prod.Lex.toLex_lt_toLex.2 before))
    subst same
    obtain ⟨d, held, request, order, -⟩ := asks
    obtain ⟨d', held', request', order', -⟩ := asks'
    obtain rfl : d = d' := Option.some.inj (held.symm.trans held')
    obtain ⟨rfl, rfl⟩ := Prod.mk.inj (Option.some.inj (request.symm.trans request'))
    obtain rfl := Option.some.inj (order.symm.trans order')
    exact is

/-! ## The grant -/

theorem grantMove_eq (held : p.disc r = some d) (place : d.place = some pl) (dest : Dest) : grantMove r dest p =
    if pl = .arm then sendArm (.deliver dest) (enterArm .moving (clearOrder r { p with
      offered := none
      arm := { p.arm with move := some { kind := .deliver, record := r, source := .place pl, dest := dest, gripped := true,
                                         missCount := 0, interrupted := false, feed := .single } } }))
    else sendArm (.transfer pl dest) (enterArm .moving { p with
      offered := none
      arm := { p.arm with move := some { kind := .transfer, record := r, source := .place pl, dest := dest, gripped := false,
                                         missCount := 0, interrupted := false, feed := .single } } }) := by
  have at' : (p.disc r).bind (·.place) = some pl := by rw [held]; exact place
  unfold grantMove
  rw [at']
  by_cases arm : pl = .arm
  · subst arm
    rfl
  · have other : (pl == .arm) = false := by simpa using arm
    simp only [other, if_neg arm, Bool.false_eq_true, if_false]

theorem mayGrant_iff : (p.arm.state == .idle && (p.tower.state == .running || p.tower.state == .stopping)) = true ↔
    p.arm.state = .idle ∧ (p.tower.state = .running ∨ p.tower.state = .stopping) := by
  simp

theorem grantArm_rests (not : ¬ (p.arm.state = .idle ∧ (p.tower.state = .running ∨ p.tower.state = .stopping))) :
    grantArm p = p := by
  rw [grantArm, if_neg (mt mayGrant_iff.1 not)]

section Granting
variable (may : p.arm.state = .idle ∧ (p.tower.state = .running ∨ p.tower.state = .stopping))
include may

theorem grantArm_moves {q : Nat × Nat × Fin 24 × Dest} (best : p.bestMove = some q) :
    grantArm p = grantMove q.2.2.1 q.2.2.2 p := by
  rw [grantArm, if_pos (mayGrant_iff.2 may), best]

theorem grantArm_picks (silent : ∀ r n k dest, ¬ p.asks r n k dest) :
    (p.offered = none → grantArm p = p) ∧
    (∀ k, p.offered = some k →
      (p.tower.state = .running → p.places.arm = none → grantArm p = grantPick k p) ∧
      (p.tower.state ≠ .running ∨ p.places.arm.isSome = true → grantArm p = p)) := by
  have best : p.bestMove = none := by
    obtain ⟨-, is⟩ | ⟨q, -, asks, -⟩ := bestMove_cases (p := p)
    · exact is
    · exact absurd asks (silent _ _ _ _)
  rw [grantArm, if_pos (mayGrant_iff.2 may), best]
  refine ⟨fun unoffered => ?_, fun k offered => ⟨fun running empty => ?_, fun held => ?_⟩⟩
  · simp only [unoffered]
  · simp [offered, running, empty]
  · obtain other | full := held
    · simp [offered, other]
    · have taken : p.places.arm.isNone = false := by simpa [Option.isSome_iff_ne_none] using full
      simp [offered, taken]

end Granting

end Sys2Proof.Machine
end

