-- ==== Sys2Proof/Proofs/PickSelector.lean ====
section
/-! PROOF. The pick selector: what a bay and a spindle take and offer, the pick of a job, the best pick, the offer
(R35 to R37). -/

namespace Sys2Proof.Machine

-- One proof after another: side by side, their threads' stacks pass the check's memory limit.
set_option Elab.async false

variable {p : Part} {x : Fin 16} {j : Job} {k : Pick} {c : DiscClass} {st : SpindleId} {dest : Dest}

/-! ## A destination and a source -/

theorem allBays_ordered : allBays.Pairwise (· < ·) := by decide

theorem bay_takes_iff (x : Bay) (c : DiscClass) : x.takes c = true ↔ x.state = .open_ ∧ x.enabled = true ∧
    x.disablePending = false ∧ (match c with | .a => x.supportA | .b => x.supportB).isSome = true := by
  cases c <;> simp [Bay.takes, Bay.support, and_assoc]

theorem spindle_offers_iff (x : Spindle) (c : DiscClass) : x.offers c = true ↔ x.cls = c ∧ 0 < x.count ∧ x.empty = false := by
  simp [Spindle.offers, and_assoc]

theorem pickSource_iff : p.pickSource c = some st ↔
    (p.spindle st).offers c = true ∧ (st = .b → p.spindleA.offers c = false) := by
  unfold Part.pickSource
  cases first : p.spindleA.offers c <;> cases second : p.spindleB.offers c <;> cases st <;>
    simp [Part.spindle, first, second]

theorem trayTakes_iff : p.trayTakes j = true ↔ p.station.state = .empty ∧ p.printQueue = [] ∧
    ∃ n t, j.template = some n ∧ p.template n = some t ∧ p.admits t = true := by
  unfold Part.trayTakes
  cases named : j.template with
  | none => simp
  | some n => cases defined : p.template n <;> simp [defined, and_assoc]

theorem pickDest_bay (burns : j.kind ≠ .print) : p.pickDest j = some dest ↔ ∃ b, dest = .bay b ∧
    (p.bay b).takes j.cls = true ∧ ∀ c, c < b → (p.bay c).takes j.cls = false := by
  have is : p.pickDest j = (allBays.find? fun b => (p.bay b).takes j.cls).map .bay := by
    unfold Part.pickDest
    cases kind : j.kind <;> first | rfl | exact absurd kind burns
  simp only [is, Option.map_eq_some_iff, find?_ascending allBays_ordered mem_allBays]
  exact ⟨fun ⟨b, takes, is⟩ => ⟨b, is.symm, takes⟩, fun ⟨b, is, takes⟩ => ⟨b, takes, is.symm⟩⟩

theorem pickDest_tray (print : j.kind = .print) : p.pickDest j = some dest ↔ dest = .printer ∧ p.trayTakes j = true := by
  simp only [Part.pickDest, print, Option.ite_none_right_eq_some, Option.some.injEq]
  exact ⟨fun ⟨takes, is⟩ => ⟨is.symm, takes⟩, fun ⟨is, takes⟩ => ⟨takes, is.symm⟩⟩

/-! ## The pick of a job -/

theorem needsPick_iff : j.needsPick = true ↔ j.state = .running ∧ j.delivered + j.active < j.ordered := by
  simp [Job.needsPick]

theorem pickFor_iff (held : p.job x = some j) : p.pickFor x = some k ↔
    (k.job = x ∧ j.state = .running ∧ j.delivered + j.active < j.ordered ∧
      (p.spindle k.spindle).offers j.cls = true ∧ (k.spindle = .b → p.spindleA.offers j.cls = false)) ∧
    p.pickDest j = some k.dest := by
  obtain ⟨x', st, dest⟩ := k
  rw [← pickSource_iff, Part.pickFor, held]
  by_cases needs : j.needsPick = true
  · have running := needsPick_iff.1 needs
    simp only [needs, if_true, running]
    cases source : p.pickSource j.cls <;> cases goal : p.pickDest j <;> simp [and_assoc, eq_comm]
  · simp only [needs]
    constructor
    · intro is
      cases is
    · rintro ⟨⟨-, running, few, -⟩, -⟩
      exact absurd (needsPick_iff.2 ⟨running, few⟩) needs

theorem pickFor_free (free : p.job x = none) : p.pickFor x = none := by rw [Part.pickFor, free]

theorem pickFor_job (picks : p.pickFor x = some k) : k.job = x ∧ (p.job x).isSome = true := by
  cases held : p.job x with
  | none => rw [pickFor_free held] at picks; cases picks
  | some j => exact ⟨((pickFor_iff held).1 picks).1.1, rfl⟩

/-! ## The best pick -/

/-- Where a pick stands among the picks: the higher *priority* first, then the older *last pick order* (R36). -/
def Part.pickRank (p : Part) (k : Pick) : ℕᵒᵈ ×ₗ ℕ :=
  toLex (OrderDual.toDual (((p.job k.job).map (·.priority)).getD 0), ((p.job k.job).bind (·.lastPick)).getD 0)

theorem betterPick_next (m k : Pick) (first : (p.job m.job).isSome = true) (second : (p.job k.job).isSome = true) :
    p.betterPick (some m) k = if p.pickRank k < p.pickRank m then some k else some m := by
  obtain ⟨a, is⟩ := Option.isSome_iff_exists.1 second
  obtain ⟨b, is'⟩ := Option.isSome_iff_exists.1 first
  have rank : p.pickRank k < p.pickRank m ↔ a.before b = true := by
    simp [Part.pickRank, is, is', Prod.Lex.toLex_lt_toLex, Job.before]
  simp only [Part.betterPick, is, is', rank]

theorem bestPick_cases : ((∀ x, p.pickFor x = none) ∧ p.bestPick = none) ∨
    ∃ k, p.bestPick = some k ∧ p.pickFor k.job = some k ∧ ∀ x k', p.pickFor x = some k' → p.pickRank k ≤ p.pickRank k' := by
  have member (k : Pick) : k ∈ allJobs.filterMap p.pickFor ↔ ∃ x, p.pickFor x = some k := by
    simp [List.mem_filterMap, mem_allJobs]
  have good : ∀ k ∈ allJobs.filterMap p.pickFor, (p.job k.job).isSome = true := fun k among => by
    obtain ⟨x, picks⟩ := (member k).1 among
    obtain ⟨rfl, held⟩ := pickFor_job picks
    exact held
  obtain ⟨empty, none'⟩ | ⟨k, is, among, least⟩ :=
    foldl_best p.pickRank (f := p.betterPick) betterPick_next (fun _ => rfl) good
  · refine .inl ⟨fun x => ?_, none'⟩
    by_contra some'
    obtain ⟨k, picks⟩ := Option.ne_none_iff_exists'.1 some'
    have := (member k).2 ⟨x, picks⟩
    rw [empty] at this
    cases this
  · obtain ⟨x, picks⟩ := (member k).1 among
    obtain ⟨rfl, -⟩ := pickFor_job picks
    exact .inr ⟨k, is, picks, fun x k' picks' => least k' ((member k').2 ⟨x, picks'⟩)⟩

theorem bestPick_none_iff : p.bestPick = none ↔ ∀ x, p.pickFor x = none := by
  obtain ⟨no, is⟩ | ⟨k, is, picks, -⟩ := bestPick_cases (p := p)
  · simp [no, is]
  · rw [is]
    refine iff_of_false (fun none' => ?_) fun no => ?_
    · cases none'
    · rw [no] at picks
      cases picks

theorem bestPick_best (best : p.bestPick = some k) : p.pickFor k.job = some k ∧
    ∀ x k' a b, p.pickFor x = some k' → p.job k.job = some a → p.job x = some b →
      b.priority < a.priority ∨ b.priority = a.priority ∧ a.lastPick.getD 0 ≤ b.lastPick.getD 0 := by
  obtain ⟨no, is⟩ | ⟨k', is, picks, least⟩ := bestPick_cases (p := p)
  · rw [is] at best
    cases best
  · obtain rfl : k' = k := Option.some.inj (is.symm.trans best)
    refine ⟨picks, fun x k'' a b picks' held held' => ?_⟩
    obtain ⟨rfl, -⟩ := pickFor_job picks'
    have order := least _ _ picks'
    simp only [Part.pickRank, held, held', Prod.Lex.toLex_le_toLex, Option.map_some, Option.getD_some, Option.bind_some,
      OrderDual.toDual_lt_toDual, OrderDual.toDual_inj] at order
    exact order.imp id fun ⟨same, older⟩ => ⟨same.symm, older⟩

/-! ## The offer -/

theorem mayPick_iff : p.mayPick = true ↔ p.tower.state = .running ∧ p.arm.state = .idle := by simp [Part.mayPick]

theorem selectPick_rests (rests : p.offered.isSome = true ∨ ¬ (p.tower.state = .running ∧ p.arm.state = .idle) ∨
    p.bestPick = none) : selectPick p = p := by
  rw [← mayPick_iff] at rests
  unfold selectPick
  obtain offered | not | none' := rests
  · simp [Option.isSome_iff_ne_none.1 offered]
  · simp [not]
  · simp [none']

theorem beginSpell_eq (p : Part) : beginSpell p = { p with
    heldSpell := true, attn := if p.heldSpell then p.attn else p.attn.raise .tableHeld p.now } := by
  cases spell : p.heldSpell with
  | false =>
    rw [beginSpell, spell]
    rfl
  | true =>
    rw [beginSpell, spell, if_pos rfl, if_pos rfl, ← spell]

section Selecting
variable (unoffered : p.offered = none) (may : p.tower.state = .running ∧ p.arm.state = .idle) (best : p.bestPick = some k)
include unoffered may best

theorem selectPick_offers (free : 2 ≤ p.freeCount) : selectPick p = { p with offered := some k } := by
  simp [selectPick, unoffered, mayPick_iff.2 may, best, free]

theorem selectPick_holds (few : p.freeCount < 2) : selectPick p = { p with
    heldSpell := true, attn := if p.heldSpell then p.attn else p.attn.raise .tableHeld p.now } := by
  rw [← beginSpell_eq]
  simp [selectPick, unoffered, mayPick_iff.2 may, best, few]

end Selecting

theorem pickHolds_iff : p.pickHolds k = true ↔ (p.tower.state = .running ∧ p.arm.state = .idle) ∧ 2 ≤ p.freeCount ∧
    ∃ j, p.job k.job = some j ∧ j.state = .running ∧ j.delivered + j.active < j.ordered ∧
      (p.spindle k.spindle).offers j.cls = true ∧ (∀ b, k.dest = .bay b → (p.bay b).takes j.cls = true) ∧
      ((∀ b, k.dest ≠ .bay b) → p.station.state = .empty ∧ p.printQueue = [] ∧
        ∃ n t, j.template = some n ∧ p.template n = some t ∧ p.admits t = true) := by
  simp only [← mayPick_iff, ← trayTakes_iff]
  unfold Part.pickHolds
  cases held : p.job k.job with
  | none => simp
  | some j =>
    cases goal : k.dest <;> simp [needsPick_iff, and_assoc]

theorem checkOffer_none (unoffered : p.offered = none) : checkOffer p = p := by rw [checkOffer, unoffered]

theorem checkOffer_holds (offered : p.offered = some k) (holds : p.pickHolds k = true) : checkOffer p = p := by
  simp [checkOffer, offered, holds]

theorem checkOffer_withdraws (offered : p.offered = some k) (fails : ¬ p.pickHolds k = true) :
    checkOffer p = { p with offered := none } := by
  simp [checkOffer, offered, fails]

end Sys2Proof.Machine
end

