-- ==== Sys2Proof/Proofs/PickGrant.lean ====
section
/-! PROOF. What a granted move and a granted pick do, and the whole of O59 (R8, R9, R32, R49, R53, R68, R163). -/

namespace Sys2Proof.Machine

-- One proof after another: side by side, their threads' stacks pass the check's memory limit.
set_option Elab.async false

variable {p : Part} {x : Fin 16} {j : Job} {k : Pick} {r : Fin 24} {d : Disc} {t : Template} {n : Fin 8}

/-! ## A granted pick -/

theorem pickRanks_same {q : Part} (same : ∀ x, (q.job x).bind (·.lastPick) = (p.job x).bind (·.lastPick)) :
    q.pickRanks = p.pickRanks := by
  have each : q.jobs.map (fun j => j.bind (·.lastPick)) = p.jobs.map (fun j => j.bind (·.lastPick)) :=
    Vector.ext fun i lt => by simpa [Part.job] using same ⟨i, lt⟩
  have lists := congrArg (fun l => l.toList.filterMap id) each
  simpa only [Part.pickRanks, Vector.toList_map, List.filterMap_map, Function.comp_def, id] using lists

/-- A pick counted by its job, which then ranks behind the others (R32, R36). -/
theorem stampPick_created (held : p.job x = some j) : stampPick x (jobCreated x p) = p.setJob x (some { j with
    started := j.started + 1, active := j.active + 1, lastPick := some (nextRank p.pickRanks) }) := by
  rw [jobCreated_held held]
  have ranks : (p.setJob x (some { j with started := j.started + 1, active := j.active + 1 })).pickRanks = p.pickRanks :=
    pickRanks_same fun y => by
      by_cases same : y = x
      · subst same
        rw [Part.setJob_self, held]
        rfl
      · rw [Part.setJob_other _ _ _ _ same]
  rw [stampPick, ranks, modJob_held (Part.setJob_self _ _ _), Part.setJob_setJob]

/-- The records after a granted pick (R8, R32, R49). -/
def Part.draws (p q : Part) (k : Pick) (r : Fin 24) (j : Job) (ink : Option (Vector Nat 4)) : Part :=
  { ((q.setDisc r (some
        { Disc.fresh .feeding .pending with
          job := some k.job, place := some .arm, reservation := ink })).setOccupant .arm (some r)).setJob k.job
        (some { j with
          started := j.started + 1, active := j.active + 1
          lastPick := some (nextRank p.pickRanks) }) with
      offered := none, sent := p.sent ++ [.arm (.pick k.spindle k.dest)]
      arm := { p.arm.sending (.pick k.spindle k.dest) (p.now + p.tower.moveTimeout) with
        state := .moving, halt := none
        move := some { kind := .pick, record := r, source := .spindle k.spindle, dest := k.dest
                       gripped := false, missCount := 0, interrupted := false, feed := .single } } }

/-- The record, the place and the job of an issued pick (R8, R32). -/
def Part.drawn (p : Part) (k : Pick) (r : Fin 24) (j : Job) : Part :=
  ((p.setDisc r (some { Disc.fresh .feeding .pending with job := some k.job, place := some .arm })).setOccupant .arm
    (some r)).setJob k.job (some { j with
      started := j.started + 1, active := j.active + 1, lastPick := some (nextRank p.pickRanks) })

section Granted
variable (held : p.job k.job = some j)
include held

theorem created_drawn : stampPick k.job (jobCreated k.job ((p.setDisc r (some
    { Disc.fresh .feeding .pending with job := some k.job, place := some .arm })).setOccupant .arm (some r))) =
    p.drawn k r j := stampPick_created held

end Granted

/-- PICK is sent with its move (R49). -/
def sendPick (k : Pick) (r : Fin 24) (p : Part) : Part :=
  sendArm (.pick k.spindle k.dest) (enterArm .moving { p with arm := { p.arm with
    move := some { kind := .pick, record := r, source := .spindle k.spindle, dest := k.dest, gripped := false
                   missCount := 0, interrupted := false, feed := .single } } })

theorem issuePick_bay {b : Fin 12} (held : p.job k.job = some j) (goal : k.dest = .bay b) (t : Option Template) :
    issuePick k r t { p with offered := none } = p.draws (p.setBay b ((p.bay b).enter .expecting)) k r j none := by
  obtain ⟨x, st, dest⟩ := k
  obtain rfl : dest = .bay b := goal
  have is (p : Part) : issuePick ⟨x, st, .bay b⟩ r t p = sendPick ⟨x, st, .bay b⟩ r (enterBay b .expecting
    (stampPick x (jobCreated x ((p.setDisc r (some
      { Disc.fresh .feeding .pending with job := some x, place := some .arm })).setOccupant .arm (some r))))) := rfl
  rw [is, created_drawn (p := { p with offered := none }) (k := ⟨x, st, .bay b⟩) held]
  rfl

theorem issuePick_tray (held : p.job k.job = some j) (goal : k.dest = .printer) :
    issuePick k r (some t) { p with offered := none } =
    p.draws { p with ink := Vector.ofFn fun i => { p.inkChannel i with
      reserved := (p.inkChannel i).reserved + p.need t i } } k r j (some (p.needs t)) := by
  have reserved := reserve_held (p := Part.drawn { p with offered := none } k r j) (r := r) (v := p.needs t)
    (Part.setDisc_self _ _ _)
  simp only [needs_get] at reserved
  obtain ⟨x, st, dest⟩ := k
  obtain rfl : dest = .printer := goal
  have is (p : Part) : issuePick ⟨x, st, .printer⟩ r (some t) p = sendPick ⟨x, st, .printer⟩ r (
    (fun q => reserve r (q.needs t) q)
    (stampPick x (jobCreated x ((p.setDisc r (some
      { Disc.fresh .feeding .pending with job := some x, place := some .arm })).setOccupant .arm (some r))))) := rfl
  rw [is, created_drawn (p := { p with offered := none }) (k := ⟨x, st, .printer⟩) held]
  refine (congrArg (sendPick _ r) reserved).trans ?_
  have order (u : Part) (a b : Disc) (k : Job) : (((u.setDisc r (some a)).setOccupant .arm (some r)).setJob x
      (some k)).setDisc r (some b) = ((u.setDisc r (some b)).setOccupant .arm (some r)).setJob x (some k) := by
    rw [← setDisc_setDisc (p := u) (r := r) (some a) (some b)]
    rfl
  refine (congrArg (sendPick _ r) (order { p with
    offered := none, ink := Vector.ofFn fun i => { p.inkChannel i with
      reserved := (p.inkChannel i).reserved + p.need t i } } _ _ _)).trans ?_
  rfl

/-- A pick is issued on the lowest free record, when 2 are free; with fewer a held spell begins (R8, R9). -/
def issueOrHold (k : Pick) (t : Option Template) (p : Part) : Part :=
  match p.lowestFree with
  | some r => if 2 ≤ p.freeCount then issuePick k r t p else beginSpell p
  | none => beginSpell p

theorem issueOrHold_free (free : p.lowestFree = some r) (enough : 2 ≤ p.freeCount) (t : Option Template) :
    issueOrHold k t p = issuePick k r t p := by
  simp only [issueOrHold, free, if_pos enough]

theorem issueOrHold_few (few : p.freeCount < 2) (t : Option Template) : issueOrHold k t p = beginSpell p := by
  unfold issueOrHold
  cases p.lowestFree with
  | none => rfl
  | some r => exact if_neg (Nat.not_le.2 few)

theorem grantPick_bay {b : Fin 12} (goal : k.dest = .bay b) (p : Part) :
    grantPick k p = issueOrHold k none { p with offered := none } := by
  obtain ⟨x, st, dest⟩ := k
  obtain rfl : dest = .bay b := goal
  rfl

section Tray
variable (goal : k.dest = .printer) (held : p.job k.job = some j) (named : j.template = some n) (defined : p.template n = some t)
include goal held named defined

theorem grantPick_tray : grantPick k p =
    if p.admits t then issueOrHold k (some t) { p with offered := none } else { p with offered := none } := by
  have found : ((({ p with offered := none } : Part).job k.job).bind (·.template)).bind
      ({ p with offered := none } : Part).template = some t := by
    have is : ((p.job k.job).bind (·.template)).bind p.template = some t := by simp [held, named, defined]
    exact is
  unfold grantPick
  simp only [goal, found]
  rfl

theorem grantPick_admitted (admitted : p.admits t = true) :
    grantPick k p = issueOrHold k (some t) { p with offered := none } := by
  rw [grantPick_tray goal held named defined, if_pos admitted]

theorem grantPick_dropped (refused : p.admits t = false) : grantPick k p = { p with offered := none } := by
  rw [grantPick_tray goal held named defined, refused]
  rfl

end Tray

theorem grantPick_few (few : p.freeCount < 2) (goal : (∃ b, k.dest = .bay b) ∨ (k.dest = .printer ∧ ∃ j n t,
    p.job k.job = some j ∧ j.template = some n ∧ p.template n = some t ∧ p.admits t = true)) :
    grantPick k p = { p with
      offered := none, heldSpell := true
      attn := if p.heldSpell then p.attn else p.attn.raise .tableHeld p.now } := by
  have spell := beginSpell_eq { p with offered := none }
  obtain ⟨b, bay⟩ | ⟨tray, j, n, t, held, named, defined, admitted⟩ := goal
  · rw [grantPick_bay bay, issueOrHold_few (p := { p with offered := none }) few, spell]
  · rw [grantPick_admitted tray held named defined admitted, issueOrHold_few (p := { p with offered := none }) few, spell]

/-! ## A granted move -/

/-- The arm with a move under way, its first operation sent (R47, R49). -/
def Arm.startsMove (a : Arm) (o : ArmOrder) (deadline : Nat) (m : Move) : Arm :=
  { a.sending o deadline with state := .moving, halt := none, move := some m }

theorem grantMove_transfer {pl : Place} {dest : Dest} (held : p.disc r = some d) (place : d.place = some pl)
    (other : pl ≠ .arm) : grantMove r dest p = { p with
      offered := none, sent := p.sent ++ [.arm (.transfer pl dest)]
      arm := p.arm.startsMove (.transfer pl dest) (p.now + p.tower.moveTimeout)
        { kind := .transfer, record := r, source := .place pl, dest := dest, gripped := false
          missCount := 0, interrupted := false, feed := .single } } := by
  rw [grantMove_eq held place, if_neg other]
  rfl

theorem clearOrder_held (held : p.disc r = some d) : clearOrder r p = p.setDisc r (some { d with eligible := none }) :=
  modDisc_held held _

theorem grantMove_deliver {pl : Place} {dest : Dest} (held : p.disc r = some d) (place : d.place = some pl)
    (arm : pl = .arm) : grantMove r dest p = { p.setDisc r (some { d with eligible := none }) with
      offered := none, sent := p.sent ++ [.arm (.deliver dest)]
      arm := p.arm.startsMove (.deliver dest) (p.now + p.tower.moveTimeout)
        { kind := .deliver, record := r, source := .place pl, dest := dest, gripped := true
          missCount := 0, interrupted := false, feed := .single } } := by
  rw [grantMove_eq held place, if_pos arm, clearOrder_held (d := d)]
  · rfl
  · exact held

/-- Settles O59: the requests and the best of them, the selector by its branches, the grant as explicit updates. -/
theorem armArbiter : Obligations.ArmArbiter := by
  unfold Obligations.ArmArbiter
  refine ⟨fun p r n dest => request_iff, fun p => ?_, ⟨bay_takes_iff, spindle_offers_iff, fun p => ?_⟩,
    fun p => bestPick_none_iff, fun p k best => bestPick_best best, fun p x j k held => ?_, fun p k j r held => ?_,
    fun p k j n t goal held named defined refused => grantPick_dropped goal held named defined refused,
    fun p k few goal => grantPick_few few goal⟩
  · refine ⟨grantArm_rests, grantArm_picks, fun r d n k dest pl may asks held place first => ?_⟩
    have granted := grantArm_moves may (bestMove_first asks first)
    exact ⟨fun other => granted.trans (grantMove_transfer held place other),
      fun arm => granted.trans (grantMove_deliver held place arm)⟩
  · exact ⟨selectPick_rests, fun k unoffered may best => ⟨selectPick_offers unoffered may best,
      selectPick_holds unoffered may best⟩, checkOffer_none, fun k offered =>
        ⟨fun holds => checkOffer_holds offered (pickHolds_iff.2 holds),
          fun fails => checkOffer_withdraws offered (mt pickHolds_iff.1 fails)⟩⟩
  · refine ⟨fun burns => ?_, fun print => ?_⟩
    · exact (pickFor_iff held).trans (and_congr_right' (pickDest_bay burns))
    · exact (pickFor_iff held).trans (and_congr_right' ((pickDest_tray print).trans (and_congr_right' trayTakes_iff)))
  · intro drawn free enough
    refine ⟨fun b goal => ?_, fun n t goal named defined admitted => ?_⟩
    · exact (grantPick_bay goal p).trans ((issueOrHold_free (p := { p with offered := none }) free enough none).trans
        (issuePick_bay held goal none))
    · exact (grantPick_admitted goal held named defined admitted).trans
        ((issueOrHold_free (p := { p with offered := none }) free enough (some t)).trans (issuePick_tray held goal))

end Sys2Proof.Machine
end

