-- ==== Sys2Proof/Proofs/StreamWindow.lean ====
section
/-! PROOF. The window of a stream: the chunks sent, the chunk fetched, *tail*, the slowest member and the split request
(R67, R114, R117, R118, R120, R123). -/

namespace Sys2Proof.Machine

-- One proof after another: side by side, their threads' stacks pass the check's memory limit.
set_option Elab.async false

variable {p : Part} {c : Fin 4} {st : Stream} {y : Image} {m : Member} {blocks : Nat}

/-! ## Sending -/

/-- One member is sent its next chunk, and its bay's deadline is set (R67, R118). -/
def sendChunk (c : Fin 4) (blocks : Nat) (p : Part) (m : Member) : Part :=
  emit (.chunk m.bay c m.position (slotAddress c m.position) (chunkBlocks blocks m.position))
    (p.modBay m.bay fun x => { x with deadline := some (p.now + p.tower.progressTimeout) })

theorem sendChunk_changes (p : Part) (m : Member) : p.Changes [.bays, .sent] (sendChunk c blocks p m) := fun f own => by
  cases f <;> first | rfl | simp at own

/-- What sending the chunks of a list of members leaves. -/
theorem sendChunk_all (l : List Member) (p : Part) :
    p.Changes [.bays, .sent] (l.foldl (sendChunk c blocks) p) ∧
    (l.foldl (sendChunk c blocks) p).sent = p.sent ++ l.map (fun m =>
      .chunk m.bay c m.position (slotAddress c m.position) (chunkBlocks blocks m.position)) ∧
    ∀ b, (l.foldl (sendChunk c blocks) p).bay b = if b ∈ l.map (·.bay) then
      { p.bay b with deadline := some (p.now + p.tower.progressTimeout) } else p.bay b := by
  induction l generalizing p with
  | nil => exact ⟨.refl _ _, (List.append_nil _).symm, fun b => rfl⟩
  | cons m l ih =>
    obtain ⟨changes, sent, bays⟩ := ih (sendChunk c blocks p m)
    have first := sendChunk_changes (c := c) (blocks := blocks) p m
    have its (b : Fin 12) : (sendChunk c blocks p m).bay b = if b = m.bay then
        { p.bay b with deadline := some (p.now + p.tower.progressTimeout) } else p.bay b := by
      by_cases same : b = m.bay
      · subst same
        rw [if_pos rfl]
        exact Part.setBay_self _ _ _
      · rw [if_neg same]
        exact Part.setBay_other _ _ _ _ same
    refine ⟨(first.andThen changes).widen rfl, ?_, fun b => ?_⟩
    · rw [List.foldl_cons, sent]
      exact List.append_assoc _ _ _
    · rw [List.foldl_cons, bays, its, show (sendChunk c blocks p m).now = p.now from rfl,
        show (sendChunk c blocks p m).tower = p.tower from rfl]
      by_cases same : b = m.bay <;> by_cases among : b ∈ l.map (·.bay) <;> simp [same, among]

/-- The members of a stream after its chunks are sent (R118). -/
def Stream.sentMembers (st : Stream) : List Member :=
  st.members.map fun m => if m.driveReady = true ∧ m.position < st.head then
    { m with driveReady := false, position := m.position + 1 } else m

/-- The members a chunk is sent to (R118). -/
def Stream.sending (st : Stream) : List Member :=
  st.members.filter fun m => decide (m.driveReady = true ∧ m.position < st.head)

theorem sendChunks_eq (stream : p.channel c = .recording st) (image : p.image st.image = some y) : sendChunks c p =
    (st.sending.foldl (sendChunk c y.blocks) p).setChannel c (.recording { st with members := st.sentMembers }) := by
  have due (m : Member) : m.due st = decide (m.driveReady = true ∧ m.position < st.head) := by
    rw [Member.due, Bool.decide_and, Bool.decide_eq_true]
  rw [sendChunks, stream_eq_some.2 stream]
  simp only [image, due, decide_eq_true_eq]
  rfl

theorem sendChunks_leaves (stream : p.channel c = .recording st) (image : p.image st.image = some y) :
    p.Changes [.channels, .bays, .sent] (sendChunks c p) ∧
    (sendChunks c p).channel c = .recording { st with members := st.sentMembers } ∧
    OthersKept p.channel (sendChunks c p).channel c ∧
    (sendChunks c p).sent = p.sent ++ st.sending.map (fun m => .chunk m.bay c m.position
      ((c.val * 64 + m.position % 64) * 65536) (min 32 (y.blocks - 32 * m.position))) ∧
    ∀ b, (sendChunks c p).bay b = if b ∈ st.sending.map (·.bay) then
      { p.bay b with deadline := some (p.now + p.tower.progressTimeout) } else p.bay b := by
  obtain ⟨changes, sent, bays⟩ := sendChunk_all (c := c) (blocks := y.blocks) st.sending p
  rw [sendChunks_eq stream image]
  have channels := channel_congr (changes .channels (by decide))
  generalize st.sending.foldl (sendChunk c y.blocks) p = q at changes sent bays channels
  have last : q.Changes [.channels] (q.setChannel c (.recording { st with members := st.sentMembers })) :=
    fun f own => by cases f <;> first | rfl | simp at own
  refine ⟨(changes.andThen last).widen rfl, Part.setChannel_self _ _ _, fun k other => ?_, sent, bays⟩
  rw [Part.setChannel_other _ _ _ _ other, channels]

/-! ## Fetching -/

theorem fetchNext_reads (stream : p.channel c = .recording st) (image : p.image st.image = some y) (idle : st.read = none)
    (room : st.head - st.tail < 64) (more : st.head < st.chunks) : fetchNext c p = { p.setChannel c (.recording { st with
        read := some { id := p.readCount, chunk := st.head, attempt := 1, deadline := p.now + 2000 } }) with
      readCount := p.readCount + 1
      sent := p.sent ++ [.storeRead c (y.storeAddress + 32 * st.head) (min 32 (y.blocks - 32 * st.head))] } := by
  have may : (st.read.isNone && decide (st.head - st.tail < Config.windowChunks) && decide (st.head < st.chunks)) = true := by
    simp [idle, more, Config.windowChunks, room]
  rw [fetchNext, stream_eq_some.2 stream]
  simp only [image, may, if_true]
  rfl

theorem fetchNext_rests (stream : p.channel c = .recording st) (image : p.image st.image = some y)
    (rests : st.read.isSome = true ∨ 64 ≤ st.head - st.tail ∨ st.chunks ≤ st.head) : fetchNext c p = p := by
  have not : (st.read.isNone && decide (st.head - st.tail < Config.windowChunks) && decide (st.head < st.chunks)) = false := by
    obtain reading | full | past := rests
    · simp [Option.isSome_iff_ne_none.1 reading]
    · simp [Config.windowChunks, Nat.not_lt.2 full]
    · simp [Nat.not_lt.2 past]
  rw [fetchNext, stream_eq_some.2 stream]
  simp only [image, not, Bool.false_eq_true, if_false]

/-! ## *tail* -/

theorem moveTail_eq (stream : p.channel c = .recording st) :
    moveTail c p = p.setChannel c (.recording { st with tail := st.dueTail }) := by
  rw [moveTail, stream_eq_some.2 stream]

theorem tail_le_dueTail : st.tail ≤ st.dueTail := by
  unfold Stream.dueTail
  split
  · exact le_rfl
  · exact le_max_left _ _

theorem dueTail_stays (stays : st.resident = true ∨ st.joinOver = false) : st.dueTail = st.tail := by
  rw [Stream.dueTail, if_pos]
  obtain is | is := stays <;> simp [is]

/-- The least of a list's positions and a bound. -/
theorem foldl_min (l : List Member) (n : Nat) : l.foldl (fun k m => min k m.position) n ≤ n ∧
    (∀ m ∈ l, l.foldl (fun k m => min k m.position) n ≤ m.position) ∧
    (l.foldl (fun k m => min k m.position) n = n ∨ ∃ m ∈ l, l.foldl (fun k m => min k m.position) n = m.position) := by
  induction l generalizing n with
  | nil => exact ⟨le_rfl, nofun, .inl rfl⟩
  | cons a l ih =>
    obtain ⟨bound, least, is⟩ := ih (min n a.position)
    refine ⟨bound.trans (min_le_left _ _), fun m among => ?_, ?_⟩
    · obtain rfl | among := List.mem_cons.1 among
      · exact bound.trans (min_le_right _ _)
      · exact least m among
    · obtain is | ⟨m, among, is⟩ := is
      · obtain same | same := min_choice n a.position
        · exact .inl (is.trans same)
        · exact .inr ⟨a, List.mem_cons_self, is.trans same⟩
      · exact .inr ⟨m, List.mem_cons_of_mem a among, is⟩

/-- Once the join period is over *tail* follows the slowest member (R120). -/
theorem dueTail_follows (windowed : st.resident = false) (over' : st.joinOver = true)
    (below : ∀ m ∈ st.members, m.position ≤ st.head) (some' : st.members ≠ [])
    (above : ∀ m ∈ st.members, st.tail ≤ m.position) :
    (∀ m ∈ st.members, st.dueTail ≤ m.position) ∧ ∃ m ∈ st.members, st.dueTail = m.position := by
  obtain ⟨bound, least, is⟩ := foldl_min st.members st.head
  obtain ⟨m, among, is⟩ : ∃ m ∈ st.members, st.leastPosition = m.position := by
    obtain is | found := is
    · obtain ⟨m, among⟩ := List.exists_mem_of_ne_nil _ some'
      exact ⟨m, among, le_antisymm (least m among) ((below m among).trans is.ge)⟩
    · exact found
  have due : st.dueTail = st.leastPosition := by
    rw [Stream.dueTail, windowed, over', if_neg (by decide), max_eq_right (is ▸ above m among)]
  rw [due]
  exact ⟨least, m, among, is⟩

/-! ## The slowest member and the split request -/

theorem slowest_cases : st.members = [] ∧ st.slowest = none ∨ ∃ m, st.slowest = some m ∧ m ∈ st.members ∧
    ∀ k ∈ st.members, m.position < k.position ∨ m.position = k.position ∧ m.bay ≤ k.bay := by
  obtain none' | ⟨m, is, among, least⟩ := foldl_best (good := fun _ => True)
    (fun m : Member => toLex (m.position, m.bay.val))
    (f := fun best m => match best with
      | none => some m
      | some x => if m.position < x.position ∨ (m.position = x.position ∧ m.bay.val < x.bay.val) then some m else some x)
    (fun m q _ _ => by simp only [Prod.Lex.toLex_lt_toLex]) (fun q => rfl) (l := st.members) (fun _ _ => trivial)
  · exact .inl none'
  · exact .inr ⟨m, is, among, fun k member => Prod.Lex.toLex_le_toLex.1 (least k member)⟩

theorem slowest_least (is : st.slowest = some m) : m ∈ st.members ∧
    ∀ k ∈ st.members, m.position < k.position ∨ m.position = k.position ∧ m.bay ≤ k.bay := by
  obtain ⟨-, none'⟩ | ⟨m', is', among, least⟩ := slowest_cases (st := st)
  · rw [none'] at is
    cases is
  · obtain rfl := Option.some.inj (is'.symm.trans is)
    exact ⟨among, least⟩

theorem slowest_isSome (some' : st.members ≠ []) : st.slowest.isSome = true := by
  obtain ⟨empty, -⟩ | ⟨m, is, -⟩ := slowest_cases (st := st)
  · exact absurd empty some'
  · rw [is]
    rfl

/-- The stream asks for a split (R123). -/
def Part.asksSplit (p : Part) (st : Stream) : Prop :=
  st.resident = false ∧ st.joinOver = true ∧ st.head - st.tail = 64 ∧ st.head < st.chunks ∧
    (∃ m ∈ st.members, m.driveReady = true ∧ m.position = st.head) ∧ p.tower.splitOn = true ∧
    (∃ m, st.slowest = some m ∧ p.tower.splitThreshold ≤ st.head - m.position) ∧
    ∃ y, p.image st.image = some y ∧ y.state = .ready

theorem isHeld_iff : st.isHeld = true ↔ st.resident = false ∧ st.joinOver = true ∧ st.head - st.tail = 64 ∧
    st.head < st.chunks ∧ ∃ m ∈ st.members, m.driveReady = true ∧ m.position = st.head := by
  simp only [Stream.isHeld, Bool.and_eq_true, Bool.not_eq_true', beq_iff_eq, decide_eq_true_eq, List.any_eq_true,
    Member.waiting, Config.windowChunks, and_assoc]
  constructor
  · rintro ⟨windowed, over', full, more, m, among, ready, level, -⟩
    exact ⟨windowed, over', full, more, m, among, ready, level⟩
  · rintro ⟨windowed, over', full, more, m, among, ready, level⟩
    exact ⟨windowed, over', full, more, m, among, ready, level, level ▸ more⟩

/-- How far the slowest member is behind (R123). -/
def Stream.lag (st : Stream) : Nat := match st.slowest with | some m => st.head - m.position | none => 0

theorem asksSplit_iff : (st.isHeld && p.tower.splitOn && decide (p.tower.splitThreshold ≤ st.lag) &&
    p.imageReady st.image) = true ↔ p.asksSplit st := by
  have behind (held : st.isHeld = true) : p.tower.splitThreshold ≤ st.lag ↔
      ∃ m, st.slowest = some m ∧ p.tower.splitThreshold ≤ st.head - m.position := by
    obtain ⟨-, -, -, -, m, among, -⟩ := isHeld_iff.1 held
    obtain ⟨m', is⟩ := Option.isSome_iff_exists.1 (slowest_isSome (List.ne_nil_of_mem among))
    simp [Stream.lag, is]
  simp only [Bool.and_eq_true, decide_eq_true_eq, imageReady_iff, Part.asksSplit, and_assoc]
  constructor
  · rintro ⟨held, on, far, ready⟩
    obtain ⟨windowed, over', full, more, waiting⟩ := isHeld_iff.1 held
    exact ⟨windowed, over', full, more, waiting, on, (behind held).1 far, ready⟩
  · rintro ⟨windowed, over', full, more, waiting, on, far, ready⟩
    have held := isHeld_iff.2 ⟨windowed, over', full, more, waiting⟩
    exact ⟨held, on, (behind held).2 far, ready⟩

section Split
variable (stream : p.channel c = .recording st)
include stream

theorem testSplit_eq : testSplit c p =
    if (st.isHeld && p.tower.splitOn && decide (p.tower.splitThreshold ≤ st.lag) && p.imageReady st.image) = true then
      if st.splitRequested then p
      else { p with splitReqs := p.splitReqs ++ [c] }.setChannel c (.recording { st with splitRequested := true })
    else if st.splitRequested then
      { p with splitReqs := p.splitReqs.filter (· != c) }.setChannel c (.recording { st with splitRequested := false })
    else p := by
  rw [testSplit, stream_eq_some.2 stream]
  rfl

theorem testSplit_asks (asks : p.asksSplit st) (unasked : st.splitRequested = false) : testSplit c p =
    { p with splitReqs := p.splitReqs ++ [c] }.setChannel c (.recording { st with splitRequested := true }) := by
  rw [testSplit_eq stream, if_pos (asksSplit_iff.2 asks), unasked, if_neg Bool.false_ne_true]

theorem testSplit_withdraws (over' : ¬ p.asksSplit st) (asked : st.splitRequested = true) : testSplit c p =
    { p with splitReqs := p.splitReqs.filter (· != c) }.setChannel c (.recording { st with splitRequested := false }) := by
  rw [testSplit_eq stream, if_neg (mt asksSplit_iff.1 over'), if_pos asked]

theorem testSplit_rests (same : p.asksSplit st ↔ st.splitRequested = true) : testSplit c p = p := by
  rw [testSplit_eq stream]
  by_cases asks : p.asksSplit st
  · rw [if_pos (asksSplit_iff.2 asks), if_pos (same.1 asks)]
  · rw [if_neg (mt asksSplit_iff.1 asks), if_neg (mt same.2 asks)]

end Split

end Sys2Proof.Machine
end

