-- ==== Sys2Proof/Proofs/StreamGrants.lean ====
section
/-! PROOF. What a granted new stream and a granted split leave (R116, R126). -/

namespace Sys2Proof.Machine

-- One proof after another: side by side, their threads' stacks pass the check's memory limit.
set_option Elab.async false

variable {p : Part} {c old : Fin 4} {b : Fin 12} {r : Fin 24} {st : Stream} {y : Image} {m : Member} {blocks n : Nat}
  {q : StreamReq}

/-! ## A bay joins -/

/-- A bay that has joined the stream of channel `c` (R70, R116). -/
def Bay.joined (x : Bay) (c : Fin 4) (deadline : Nat) : Bay :=
  { (x.enter .writing).driven .write deadline with channel := some c }

/-- A disc whose bay has joined the stream of channel `c` (R3, R70). -/
def Disc.joined (d : Disc) (c : Fin 4) : Disc := { d with channel := some c }.atStage .recording

theorem bay_joined_joined (x : Bay) (c : Fin 4) (n : Nat) : (x.joined c n).joined c n = x.joined c n := rfl

theorem disc_joined_eq (d : Disc) (c : Fin 4) : d.joined c =
    if d.stage.accepts .recording then { d with channel := some c, stage := .recording } else { d with channel := some c } := rfl

theorem disc_joined_joined (d : Disc) (c : Fin 4) : (d.joined c).joined c = d.joined c := by
  by_cases accepts : d.stage.accepts .recording = true
  · rw [disc_joined_eq d, if_pos accepts]
    rfl
  · rw [disc_joined_eq d, if_neg accepts, disc_joined_eq, if_neg accepts]

theorem disc_joined_speed (d : Disc) (c : Fin 4) : (d.joined c).speed = d.speed := by
  unfold Disc.joined Disc.atStage
  split <;> rfl

/-- The speed a disc is written at (R70, R91). -/
def Part.speed (p : Part) (r : Fin 24) : Nat := ((p.disc r).bind (·.speed)).getD 1

/-- What the joining of the bays of a list leaves (R70, R116). -/
structure Part.BaysJoined (p : Part) (c : Fin 4) (blocks : Nat) (l : List (Fin 12)) (t : Part) : Prop where
  changes : p.Changes [.discs, .bays, .sent] t
  sent : t.sent = p.sent ++ l.filterMap fun b =>
    (p.occupant (.bay b)).map fun r => .drive b (.write (p.speed r) blocks)
  bay : ∀ b, t.bay b = if b ∈ l ∧ (p.occupant (.bay b)).isSome = true then
    (p.bay b).joined c (p.now + p.tower.progressTimeout) else p.bay b
  disc : ∀ r, t.disc r = if ∃ b ∈ l, p.occupant (.bay b) = some r then (p.disc r).map (·.joined c) else p.disc r

theorem write_joins (p : Part) (b : Fin 12) (c : Fin 4) (n blocks : Nat) : ((enterBay b .writing (sendDrive b .write
    (.write n blocks) p.tower.progressTimeout p)).modBay b fun x => { x with channel := some c }) =
    { p.setBay b ((p.bay b).joined c (p.now + p.tower.progressTimeout)) with
      sent := p.sent ++ [.drive b (.write n blocks)] } := by
  have thrice : ((enterBay b .writing (sendDrive b .write (.write n blocks) p.tower.progressTimeout p)).modBay b
      fun x => { x with channel := some c }) =
      { ((p.setBay b ((p.bay b).driven .write (p.now + p.tower.progressTimeout))).setBay b
          (((p.bay b).driven .write (p.now + p.tower.progressTimeout)).enter .writing)).setBay b
          { ((p.bay b).driven .write (p.now + p.tower.progressTimeout)).enter .writing with channel := some c } with
        sent := p.sent ++ [.drive b (.write n blocks)] } := by
    simp only [sendDrive_eq, enterBay, Part.modBay]
    simp [Part.setBay, Part.bay]
  rw [thrice, setBay_setBay, setBay_setBay]
  rfl

theorem bayJoined_joins (p : Part) (b : Fin 12) (c : Fin 4) (blocks : Nat) :
    p.BaysJoined c blocks [b] (bayJoined b c blocks p) := by
  cases there : p.occupant (.bay b) with
  | none =>
    have is : bayJoined b c blocks p = p := by rw [bayJoined, there]
    rw [is]
    refine ⟨.refl _ _, ?_, fun k => ?_, fun r => ?_⟩
    · simp [there]
    · rw [if_neg]
      rintro ⟨among, occupied⟩
      obtain rfl := List.mem_singleton.1 among
      rw [there] at occupied
      cases occupied
    · rw [if_neg]
      rintro ⟨k, among, at'⟩
      obtain rfl := List.mem_singleton.1 among
      rw [there] at at'
      cases at'
  | some r =>
    have is : bayJoined b c blocks p = { (p.setDisc r ((p.disc r).map (·.joined c))).setBay b
        ((p.bay b).joined c (p.now + p.tower.progressTimeout)) with
      sent := p.sent ++ [.drive b (.write (p.speed r) blocks)] } := by
      have speed : (match (p.disc r).bind (·.speed) with | some n => n | none => 1) = p.speed r := by
        rw [Part.speed]
        cases (p.disc r).bind (·.speed) <;> rfl
      have unfolded : bayJoined b c blocks p = ((enterBay b .writing (sendDrive b .write (.write
          (match (p.disc r).bind (·.speed) with | some n => n | none => 1) blocks)
          (p.setDisc r ((p.disc r).map (·.joined c))).tower.progressTimeout
          (p.setDisc r ((p.disc r).map (·.joined c))))).modBay b fun x => { x with channel := some c }) := by
        unfold bayJoined
        rw [there]
        rfl
      rw [unfolded, speed, write_joins]
      rfl
    rw [is]
    refine ⟨fun f own => by cases f <;> first | rfl | simp at own, ?_, fun k => ?_, fun k => ?_⟩
    · simp [there]
    · by_cases same : k = b
      · subst same
        rw [if_pos ⟨List.mem_singleton_self _, by rw [there]; rfl⟩]
        exact Part.setBay_self _ _ _
      · rw [if_neg fun is => same (List.mem_singleton.1 is.1)]
        exact Part.setBay_other _ _ _ _ same
    · by_cases same : k = r
      · subst same
        rw [if_pos ⟨b, List.mem_singleton_self _, there⟩]
        exact Part.setDisc_self _ _ _
      · rw [if_neg]
        · exact Part.setDisc_other _ _ _ _ same
        · rintro ⟨b', among, at'⟩
          obtain rfl := List.mem_singleton.1 among
          exact same (Option.some.inj (at'.symm.trans there))

theorem Part.BaysJoined.speed {l : List (Fin 12)} {t : Part} (joins : p.BaysJoined c blocks l t) (r : Fin 24) :
    t.speed r = p.speed r := by
  rw [Part.speed, joins.disc r]
  split
  · rw [Part.speed]
    cases p.disc r with
    | none => rfl
    | some d => simp only [Option.map_some, Option.bind_some, disc_joined_speed]
  · rfl

theorem Part.BaysJoined.trans {l l' : List (Fin 12)} {t u : Part} (joins : p.BaysJoined c blocks l t)
    (then' : t.BaysJoined c blocks l' u) : p.BaysJoined c blocks (l ++ l') u := by
  have places := occupant_congr (joins.changes .places (by decide))
  have now : t.now = p.now := joins.changes .now (by decide)
  have tower : t.tower = p.tower := joins.changes .tower (by decide)
  refine ⟨(joins.changes.andThen then'.changes).widen rfl, ?_, fun b => ?_, fun r => ?_⟩
  · rw [then'.sent, joins.sent, List.append_assoc, List.filterMap_append]
    simp only [places, joins.speed]
  · rw [then'.bay, joins.bay, now, tower]
    simp only [places]
    by_cases first : b ∈ l <;> by_cases second : b ∈ l' <;> by_cases occupied : (p.occupant (.bay b)).isSome = true <;>
      simp [first, second, occupied, bay_joined_joined]
  · rw [then'.disc, joins.disc]
    simp only [places]
    have either : (∃ b ∈ l ++ l', p.occupant (.bay b) = some r) ↔
        (∃ b ∈ l, p.occupant (.bay b) = some r) ∨ ∃ b ∈ l', p.occupant (.bay b) = some r := by
      simp only [List.mem_append, or_and_right, exists_or]
    have twice : ((p.disc r).map (·.joined c)).map (·.joined c) = (p.disc r).map (·.joined c) := by
      cases p.disc r with
      | none => rfl
      | some d => exact congrArg some (disc_joined_joined d c)
    simp only [either]
    by_cases first : ∃ b ∈ l, p.occupant (.bay b) = some r
    · rw [if_pos first, if_pos (Or.inl first), twice, ite_self]
    · by_cases second : ∃ b ∈ l', p.occupant (.bay b) = some r
      · rw [if_pos second, if_pos (Or.inr second), if_neg first]
      · rw [if_neg second, if_neg first, if_neg (not_or.2 ⟨first, second⟩)]

/-- The bays of a list join, one after another (R116). -/
theorem foldl_joins (c : Fin 4) (blocks : Nat) (l : List (Fin 12)) (p : Part) :
    p.BaysJoined c blocks l (l.foldl (fun p b => bayJoined b c blocks p) p) := by
  induction l generalizing p with
  | nil =>
    exact ⟨.refl _ _, (List.append_nil _).symm, fun b => (if_neg fun is => List.not_mem_nil is.1).symm,
      fun r => (if_neg fun ⟨b, among, _⟩ => List.not_mem_nil among).symm⟩
  | cons b l ih => exact (bayJoined_joins p b c blocks).trans (ih _)

/-! ## A granted stream -/

/-- The stream opened for an image, its first members the given bays (R116). -/
def Part.opened (p : Part) (i : Fin 32) (y : Image) (bays : List (Fin 12)) : Stream :=
  { image := i, chunks := y.chunks, resident := decide (y.chunks ≤ 64), catchUp := false
    joinPeriodEnd := p.now + p.tower.joinHold, joinOver := decide (p.tower.joinHold = 0), head := 0
    tail := 0, read := none, splitRequested := false
    members := bays.map fun b => { bay := b, position := 0, driveReady := false } }

/-- The bays a new stream takes: the request's, and every other bay waiting for its image (R116). -/
def Part.takenBays (p : Part) (q : StreamReq) : List (Fin 12) :=
  q.bay :: (p.streamReqs.filter fun x => x.image == q.image && x.bay != q.bay).map (·.bay)

theorem grantStream_eq (image : p.image q.image = some y) : grantStream q c p =
    (p.takenBays q).foldl (fun p b => bayJoined b c y.blocks p)
      ({ p with streamReqs := p.streamReqs.filter fun x => x.image != q.image }.setChannel c
        (.recording (p.opened q.image y (p.takenBays q)))) := by
  unfold grantStream
  rw [image]
  rfl

theorem grantStream_leaves (image : p.image q.image = some y) :
    p.Changes [.streamReqs, .channels, .discs, .bays, .sent] (grantStream q c p) ∧
    (grantStream q c p).streamReqs = p.streamReqs.filter (fun x => x.image != q.image) ∧
    OthersKept p.channel (grantStream q c p).channel c ∧
    (grantStream q c p).channel c = .recording (p.opened q.image y (p.takenBays q)) ∧
    (grantStream q c p).sent = p.sent ++ (p.takenBays q).filterMap (fun b =>
      (p.occupant (.bay b)).map fun r => .drive b (.write (p.speed r) y.blocks)) ∧
    (∀ b, (b ∈ p.takenBays q → (p.occupant (.bay b)).isSome = true → (grantStream q c p).bay b =
        (p.bay b).joined c (p.now + p.tower.progressTimeout)) ∧
      (b ∉ p.takenBays q → (grantStream q c p).bay b = p.bay b)) ∧
    (∀ r d, p.disc r = some d →
      ((∃ b ∈ p.takenBays q, p.occupant (.bay b) = some r) → (grantStream q c p).disc r = some (d.joined c)) ∧
      ((∀ b ∈ p.takenBays q, p.occupant (.bay b) ≠ some r) → (grantStream q c p).disc r = some d)) := by
  rw [grantStream_eq image]
  have first : p.Changes [.streamReqs, .channels]
      ({ p with streamReqs := p.streamReqs.filter fun x => x.image != q.image }.setChannel c
        (.recording (p.opened q.image y (p.takenBays q)))) := fun f own => by cases f <;> first | rfl | simp at own
  have opened : ({ p with streamReqs := p.streamReqs.filter fun x => x.image != q.image }.setChannel c
      (.recording (p.opened q.image y (p.takenBays q)))).channel c = .recording (p.opened q.image y (p.takenBays q)) :=
    Part.setChannel_self _ _ _
  have others : OthersKept p.channel ({ p with streamReqs := p.streamReqs.filter fun x => x.image != q.image }.setChannel c
      (.recording (p.opened q.image y (p.takenBays q)))).channel c := fun k other => Part.setChannel_other _ _ _ _ other
  have reqs : ({ p with streamReqs := p.streamReqs.filter fun x => x.image != q.image }.setChannel c
      (.recording (p.opened q.image y (p.takenBays q)))).streamReqs = p.streamReqs.filter fun x => x.image != q.image := rfl
  generalize p.opened q.image y (p.takenBays q) = st at opened others first reqs
  generalize ({ p with streamReqs := p.streamReqs.filter fun x => x.image != q.image }.setChannel c (.recording st)) = u
    at opened others first reqs
  have joins := foldl_joins c y.blocks (p.takenBays q) u
  generalize (p.takenBays q).foldl (fun p b => bayJoined b c y.blocks p) u = t at joins
  have channels := channel_congr (joins.changes .channels (by decide))
  have places := occupant_congr (first .places (by decide))
  have discs := disc_congr (first .discs (by decide))
  have bays := bay_congr (first .bays (by decide))
  have speed : u.speed = p.speed := by
    funext r
    rw [Part.speed, discs]
    rfl
  refine ⟨(first.andThen joins.changes).widen rfl, (joins.changes .streamReqs (by decide)).trans reqs,
    channels ▸ others, channels ▸ opened, ?_, fun b => ⟨fun among occupied => ?_, fun apart => ?_⟩,
    fun r d held => ⟨fun among => ?_, fun apart => ?_⟩⟩
  · rw [joins.sent, first .sent (by decide), places, speed]
  · rw [joins.bay, if_pos ⟨among, by rwa [places]⟩, bays, show u.now = p.now from first .now (by decide),
      show u.tower = p.tower from first .tower (by decide)]
  · rw [joins.bay, if_neg fun is => apart is.1, bays]
  · rw [joins.disc, places, if_pos among, discs, held]
    rfl
  · rw [joins.disc, places, if_neg fun ⟨b, among, at'⟩ => apart b among at', discs, held]

/-! ## A granted split -/

/-- The stream with the member at `b` gone and no split asked for (R126). -/
def Stream.split (st : Stream) (b : Fin 12) : Stream :=
  { st with members := st.members.filter (·.bay != b), splitRequested := false }

/-- The catch-up stream of a member, its window at the member's position (R126). -/
def Part.catchUp (p : Part) (st : Stream) (m : Member) : Stream :=
  { image := st.image, chunks := st.chunks, resident := false, catchUp := true, joinPeriodEnd := p.now
    joinOver := true, head := m.position, tail := m.position, read := none, splitRequested := false
    members := [m] }

/-- The channels and the bay of a granted split, before its disc is told (R126). -/
def Part.parted (p : Part) (old c : Fin 4) (st : Stream) (m : Member) : Part :=
  (({ p with splitReqs := p.splitReqs.filter (· != old) }.setChannel old (.recording (st.split m.bay))).setChannel c
    (.recording (p.catchUp st m))).modBay m.bay fun x => { x with channel := some c }

/-- The records of a granted split before the old stream is closed when it is left empty (R126). -/
def Part.splits (p : Part) (old c : Fin 4) (st : Stream) (m : Member) : Part :=
  match p.occupant (.bay m.bay) with
  | some r => (p.parted old c st m).modDisc r fun d => { d with channel := some c }
  | none => p.parted old c st m

theorem grantSplit_eq (stream : p.stream old = some st) (slowest : st.slowest = some m) :
    grantSplit old c p = closeIfEmpty old (p.splits old c st m) := by
  have stream' : ({ p with splitReqs := p.splitReqs.filter (· != old) } : Part).stream old = some st := stream
  unfold grantSplit
  simp only [stream', slowest]
  rfl

/-- What the records of a split hold before the old stream is closed (R126). -/
theorem splits_leaves (p : Part) (st : Stream) (m : Member) (apart : old ≠ c) :
    p.Changes [.splitReqs, .channels, .discs, .bays] (p.splits old c st m) ∧
    (p.splits old c st m).splitReqs = p.splitReqs.filter (· != old) ∧
    (p.splits old c st m).channel c = .recording (p.catchUp st m) ∧
    (p.splits old c st m).channel old = .recording (st.split m.bay) ∧
    (∀ k, k ≠ old → k ≠ c → (p.splits old c st m).channel k = p.channel k) ∧
    (p.splits old c st m).bay m.bay = { p.bay m.bay with channel := some c } ∧
    OthersKept p.bay (p.splits old c st m).bay m.bay ∧
    ∀ r d, p.occupant (.bay m.bay) = some r → p.disc r = some d →
      (p.splits old c st m).disc r = some { d with channel := some c } ∧ OthersKept p.disc (p.splits old c st m).disc r := by
  have changes : p.Changes [.splitReqs, .channels, .bays] (p.parted old c st m) :=
    fun f own => by cases f <;> first | rfl | simp at own
  have its : (p.parted old c st m).channel c = .recording (p.catchUp st m) := Part.setChannel_self _ _ _
  have left : (p.parted old c st m).channel old = .recording (st.split m.bay) :=
    (Part.setChannel_other _ _ _ _ apart).trans (Part.setChannel_self _ _ _)
  have others : ∀ k, k ≠ old → k ≠ c → (p.parted old c st m).channel k = p.channel k := fun k notOld notC =>
    (Part.setChannel_other _ _ _ _ notC).trans (Part.setChannel_other _ _ _ _ notOld)
  have bay : (p.parted old c st m).bay m.bay = { p.bay m.bay with channel := some c } := Part.setBay_self _ _ _
  have bays : OthersKept p.bay (p.parted old c st m).bay m.bay := fun k other => Part.setBay_other _ _ _ _ other
  have reqs : (p.parted old c st m).splitReqs = p.splitReqs.filter (· != old) := rfl
  have disc : (p.parted old c st m).disc = p.disc := rfl
  unfold Part.splits
  generalize p.parted old c st m = q at changes its left others bay bays reqs disc
  cases there : p.occupant (.bay m.bay) with
  | none =>
    dsimp only
    exact ⟨changes.widen rfl, reqs, its, left, others, bay, bays, fun r d at' => absurd at'.symm (Option.some_ne_none r)⟩
  | some r =>
    dsimp only
    have last : q.Changes [.discs] (q.modDisc r fun d => { d with channel := some c }) :=
      fun f own => by cases f <;> first | rfl | simp at own
    refine ⟨(changes.andThen last).widen rfl, reqs, its, left, others, bay, bays, fun r' d same held => ?_⟩
    obtain rfl := Option.some.inj same
    rw [modDisc_held (disc ▸ held)]
    exact ⟨Part.setDisc_self _ _ _, fun k other => (Part.setDisc_other _ _ _ _ other).trans (congrFun disc k)⟩

theorem closeIfEmpty_held {u : Part} (held : u.channel old = .recording st) : closeIfEmpty old u =
    if st.members = [] then { u.setChannel old .free with splitReqs := u.splitReqs.filter (· != old) } else u := by
  rw [closeIfEmpty, stream_eq_some.2 held]
  simp only [List.isEmpty_iff]
  rfl

theorem grantSplit_leaves (stream : p.stream old = some st) (slowest : st.slowest = some m) (apart : old ≠ c) :
    p.Changes [.splitReqs, .channels, .discs, .bays] (grantSplit old c p) ∧
    (grantSplit old c p).splitReqs = p.splitReqs.filter (· != old) ∧
    (grantSplit old c p).channel c = .recording (p.catchUp st m) ∧
    (grantSplit old c p).channel old =
      (if st.members.filter (·.bay != m.bay) = [] then .free else .recording (st.split m.bay)) ∧
    (∀ k, k ≠ old → k ≠ c → (grantSplit old c p).channel k = p.channel k) ∧
    (grantSplit old c p).bay m.bay = { p.bay m.bay with channel := some c } ∧
    OthersKept p.bay (grantSplit old c p).bay m.bay ∧
    ∀ r d, p.occupant (.bay m.bay) = some r → p.disc r = some d →
      (grantSplit old c p).disc r = some { d with channel := some c } ∧ OthersKept p.disc (grantSplit old c p).disc r := by
  obtain ⟨changes, reqs, its, left, others, bay, bays, discs⟩ := splits_leaves (c := c) p st m apart
  rw [grantSplit_eq stream slowest, closeIfEmpty_held left, show (st.split m.bay).members = st.members.filter (·.bay != m.bay)
    from rfl]
  generalize p.splits old c st m = u at changes reqs its left others bay bays discs
  by_cases empty : st.members.filter (·.bay != m.bay) = []
  · rw [if_pos empty, if_pos empty]
    have closes : u.Changes [.channels, .splitReqs] { u.setChannel old .free with splitReqs := u.splitReqs.filter (· != old) } :=
      fun f own => by cases f <;> first | rfl | simp at own
    refine ⟨(changes.andThen closes).widen rfl, ?_, ?_, Part.setChannel_self _ _ _, fun k notOld notC => ?_, bay, bays, discs⟩
    · show u.splitReqs.filter (· != old) = _
      rw [reqs, List.filter_filter]
      simp only [Bool.and_self]
    · exact (Part.setChannel_other _ _ _ _ apart.symm).trans its
    · exact (Part.setChannel_other _ _ _ _ notOld).trans (others k notOld notC)
  · rw [if_neg empty, if_neg empty]
    exact ⟨changes, reqs, its, left, others, bay, bays, discs⟩

end Sys2Proof.Machine
end

