-- ==== Sys2Proof/Proofs/ChannelArbiter.lean ====
section
/-! PROOF. The channel arbiter: the channel taken, the request granted, the rounds, and the whole of O55 (R105, R116,
R126, R127). -/

namespace Sys2Proof.Machine

-- One proof after another: side by side, their threads' stacks pass the check's memory limit.
set_option Elab.async false

variable {p : Part} {c old : Fin 4} {i : Fin 32} {y : Image} {q : StreamReq} {rest : List (Fin 4)}

/-! ## The channel taken -/

theorem isFree_iff : p.isFree c = true ↔ p.channel c = .free := by simp [Part.isFree]

/-- The channels a recording may take: with the survey reserve not channel 3 (R126). -/
theorem recordingChannel_eq (p : Part) : p.recordingChannel =
    allChannels.find? fun c => (!p.tower.surveyReserve || c != 3) && p.isFree c := by
  unfold Part.recordingChannel
  cases p.tower.surveyReserve with
  | false => simp
  | true =>
    rw [if_pos rfl, show ([0, 1, 2] : List (Fin 4)) = allChannels.filter (· != 3) from rfl, List.find?_filter]
    congr 1
    funext c
    rw [Bool.not_true, Bool.false_or, Bool.decide_and, Bool.decide_eq_true, Bool.decide_eq_true]

theorem mayRecord_iff : ((!p.tower.surveyReserve || c != 3) && p.isFree c) = true ↔
    (p.tower.surveyReserve = true → c ≠ 3) ∧ p.channel c = .free := by
  rw [Bool.and_eq_true, isFree_iff]
  cases p.tower.surveyReserve <;> simp

theorem recordingChannel_iff : p.recordingChannel = some c ↔ p.channel c = .free ∧
    (p.tower.surveyReserve = true → c ≠ 3) ∧ ∀ k, k < c → ¬ p.channel k = .free := by
  rw [recordingChannel_eq, find?_ascending allChannels_ordered mem_allChannels, mayRecord_iff]
  simp only [← Bool.not_eq_true, mayRecord_iff]
  constructor
  · rintro ⟨⟨may, free⟩, lowest⟩
    refine ⟨free, may, fun k below free' => lowest k below ⟨fun _ is => ?_, free'⟩⟩
    subst is
    have := c.isLt
    have : (3 : Nat) < c.val := below
    omega
  · rintro ⟨free, may, lowest⟩
    exact ⟨⟨may, free⟩, fun k below is => lowest k below is.2⟩

theorem recordingChannel_none_iff : p.recordingChannel = none ↔
    ∀ c, (p.tower.surveyReserve = true → c ≠ 3) → ¬ p.channel c = .free := by
  rw [recordingChannel_eq, List.find?_eq_none]
  simp only [mayRecord_iff, not_and]
  exact ⟨fun no c => no c (mem_allChannels c), fun no c _ => no c⟩

theorem surveyChannel_reserved (reserve : p.tower.surveyReserve = true) (free : p.channel 3 = .free) :
    p.surveyChannel = some 3 := by
  rw [Part.surveyChannel, reserve, if_pos rfl]
  exact List.find?_cons_of_pos (isFree_iff.2 free)

theorem surveyChannel_lowest (open' : p.tower.surveyReserve = false ∨ ¬ p.channel 3 = .free) (c : Fin 4) :
    p.surveyChannel = some c ↔ p.channel c = .free ∧ ∀ k, k < c → ¬ p.channel k = .free := by
  have is : p.surveyChannel = allChannels.find? p.isFree := by
    rw [Part.surveyChannel]
    cases reserve : p.tower.surveyReserve with
    | false => rfl
    | true =>
      have busy : ¬ p.isFree 3 = true := mt isFree_iff.1 (open'.resolve_left (by simp [reserve]))
      rw [if_pos rfl, List.find?_cons_of_neg busy, show allChannels = [0, 1, 2] ++ [3] from rfl, List.find?_append,
        List.find?_cons_of_neg busy, List.find?_nil, Option.or_none]
  rw [is, find?_ascending allChannels_ordered mem_allChannels, isFree_iff]
  simp only [← Bool.not_eq_true, isFree_iff]

/-! ## The request granted first -/

section First
variable {α : Type} {rank : α → Nat} {good : α → Bool} {l older newer : List α} {z : α}

/-- The first of greatest rank among the good ones of a list. -/
def FirstBest (rank : α → Nat) (good : α → Bool) (l : List α) (z : α) : Prop :=
  good z = true ∧ ∃ older newer, l = older ++ z :: newer ∧ (∀ r ∈ older, good r = true → rank r < rank z) ∧
    ∀ r ∈ newer, good r = true → rank r ≤ rank z

theorem firstBest_exists (rank : α → Nat) (good : α → Bool) (l : List α) :
    (∀ r ∈ l, good r = false) ∨ ∃ z, FirstBest rank good l z := by
  induction l with
  | nil => exact .inl nofun
  | cons a l ih =>
    cases its : good a with
    | false =>
      refine ih.imp (fun none' r among => ?_) fun ⟨z, fine, older, newer, is, less, most⟩ => ?_
      · obtain rfl | among := List.mem_cons.1 among
        · exact its
        · exact none' r among
      · refine ⟨z, fine, a :: older, newer, by rw [is]; rfl, fun r among fine' => ?_, most⟩
        obtain rfl | among := List.mem_cons.1 among
        · rw [its] at fine'
          cases fine'
        · exact less r among fine'
    | true =>
      refine .inr ?_
      obtain none' | ⟨z, fine, older, newer, is, less, most⟩ := ih
      · refine ⟨a, its, [], l, rfl, nofun, fun r among fine => ?_⟩
        rw [none' r among] at fine
        cases fine
      · by_cases lower : rank a < rank z
        · refine ⟨z, fine, a :: older, newer, by rw [is]; rfl, fun r among fine' => ?_, most⟩
          obtain rfl | among := List.mem_cons.1 among
          · exact lower
          · exact less r among fine'
        · have atMost : rank z ≤ rank a := Nat.le_of_not_lt lower
          refine ⟨a, its, [], l, rfl, nofun, fun r among fine' => ?_⟩
          rw [is] at among
          obtain among | among := List.mem_append.1 among
          · exact (less r among fine').le.trans atMost
          · obtain rfl | among := List.mem_cons.1 among
            · exact atMost
            · exact (most r among fine').trans atMost

/-- One step of the search for the first of greatest rank. -/
def betterOf (rank : α → Nat) (best : Option α) (q : α) : Option α :=
  match best with
  | none => some q
  | some x => if rank x < rank q then some q else some x

theorem betterOf_stays (l : List α) (z : α) (most : ∀ r ∈ l, rank r ≤ rank z) :
    l.foldl (betterOf rank) (some z) = some z := by
  induction l with
  | nil => rfl
  | cons a l ih =>
    rw [List.foldl_cons, betterOf, if_neg (Nat.not_lt.2 (most a List.mem_cons_self))]
    exact ih fun r among => most r (List.mem_cons_of_mem a among)

theorem betterOf_below (l : List α) (best : Option α) (n : Nat) (less : ∀ r ∈ l, rank r < n)
    (start : ∀ x, best = some x → rank x < n) : ∀ x, l.foldl (betterOf rank) best = some x → rank x < n := by
  induction l generalizing best with
  | nil => exact start
  | cons a l ih =>
    refine ih _ (fun r among => less r (List.mem_cons_of_mem a among)) fun x is => ?_
    have its := less a List.mem_cons_self
    cases best with
    | none => exact Option.some.inj is ▸ its
    | some m =>
      by_cases lower : rank m < rank a
      · rw [betterOf, if_pos lower] at is
        exact Option.some.inj is ▸ its
      · rw [betterOf, if_neg lower] at is
        exact start x is

theorem firstBest_found (best : FirstBest rank good l z) : (l.filter good).foldl (betterOf rank) none = some z := by
  obtain ⟨fine, older, newer, rfl, less, most⟩ := best
  have before := betterOf_below (rank := rank) (older.filter good) none (rank z)
    (fun r among => less r (List.mem_filter.1 among).1 (List.mem_filter.1 among).2) nofun
  rw [List.filter_append, List.foldl_append, List.filter_cons_of_pos fine, List.foldl_cons]
  generalize (older.filter good).foldl (betterOf rank) none = found at before
  have taken : betterOf rank found z = some z := by
    cases found with
    | none => rfl
    | some x => exact if_pos (before x rfl)
  rw [taken]
  exact betterOf_stays _ z fun r among => most r (List.mem_filter.1 among).1 (List.mem_filter.1 among).2

theorem firstBest_iff : (l.filter good).foldl (betterOf rank) none = some z ↔ FirstBest rank good l z := by
  refine ⟨fun is => ?_, firstBest_found⟩
  obtain none' | ⟨z', best⟩ := firstBest_exists rank good l
  · rw [List.filter_eq_nil_iff.2 fun r among => by simp [none' r among]] at is
    cases is
  · obtain rfl : z' = z := Option.some.inj ((firstBest_found best).symm.trans is)
    exact best

theorem firstBest_none_iff : (l.filter good).foldl (betterOf rank) none = none ↔ ∀ r ∈ l, good r = false := by
  obtain none' | ⟨z, best⟩ := firstBest_exists rank good l
  · rw [List.filter_eq_nil_iff.2 fun r among => by simp [none' r among]]
    exact iff_of_true rfl none'
  · rw [firstBest_found best]
    obtain ⟨fine, older, newer, rfl, -⟩ := best
    refine iff_of_false (Option.some_ne_none z) fun none' => ?_
    rw [none' z (by simp)] at fine
    cases fine

end First

theorem bestRequest_eq (p : Part) : p.bestRequest =
    (p.streamReqs.filter fun q => p.imageReady q.image).foldl (betterOf fun q => p.bayPriority q.bay) none := by
  unfold Part.bestRequest
  congr 1
  funext best q
  cases best <;> rfl

theorem bestRequest_iff : p.bestRequest = some q ↔ p.imageReady q.image = true ∧ ∃ older newer,
    p.streamReqs = older ++ q :: newer ∧
    (∀ r ∈ older, p.imageReady r.image = true → p.bayPriority r.bay < p.bayPriority q.bay) ∧
    ∀ r ∈ newer, p.imageReady r.image = true → p.bayPriority r.bay ≤ p.bayPriority q.bay := by
  rw [bestRequest_eq]
  exact firstBest_iff

theorem bestRequest_none_iff : p.bestRequest = none ↔ ∀ r ∈ p.streamReqs, p.imageReady r.image = false := by
  rw [bestRequest_eq]
  exact firstBest_none_iff

/-! ## The grants -/

theorem grantChannel_split (asks : p.splitReqs = old :: rest) (channel : p.recordingChannel = some c) :
    grantChannel p = some (grantSplit old c p) := by
  rw [grantChannel, asks, channel]
  rfl

theorem grantChannel_stream (unasked : p.splitReqs = []) (best : p.bestRequest = some q)
    (channel : p.recordingChannel = some c) : grantChannel p = some (grantStream q c p) := by
  rw [grantChannel, unasked, best, channel]
  rfl

section Surveys
variable (unrecorded : p.splitReqs = [] ∧ p.bestRequest = none ∨ p.recordingChannel = none)
include unrecorded

theorem grantChannel_unrecorded : grantChannel p = (p.surveyQueue.head?.bind fun i =>
    p.surveyChannel.map fun c => grantSurvey i c p) := by
  have is : grantChannel p = (match p.surveyQueue.head?, p.surveyChannel with
      | some i, some c => some (grantSurvey i c p)
      | _, _ => none) := by
    unfold grantChannel
    obtain ⟨unasked, none'⟩ | full := unrecorded
    · rw [unasked, none']
      rfl
    · rw [full]
      cases p.splitReqs.head? <;> cases p.bestRequest <;> rfl
  rw [is]
  cases p.surveyQueue.head? with
  | none => rfl
  | some i => cases p.surveyChannel <;> rfl

theorem grantChannel_survey {later : List (Fin 32)} (queue : p.surveyQueue = i :: later) (channel : p.surveyChannel = some c)
    (image : p.image i = some y) : grantChannel p = some { (p.setImage i (some { y with
        state := .surveying, surveyChannel := some c, surveyProgress := 0 })).setChannel c (.survey
          { image := i
            read := { id := p.readCount, chunk := 0, attempt := 1, deadline := p.now + 2000 } }) with
      surveyQueue := p.surveyQueue.filter (· != i), readCount := p.readCount + 1
      sent := p.sent ++ [.storeRead c y.storeAddress (min 32 y.blocks)] } := by
  have image' : ({ p with surveyQueue := p.surveyQueue.filter (· != i) } : Part).image i = some y := image
  have survey : grantSurvey i c p = { (p.setImage i (some { y with
        state := .surveying, surveyChannel := some c, surveyProgress := 0 })).setChannel c (.survey
          { image := i
            read := { id := p.readCount, chunk := 0, attempt := 1, deadline := p.now + 2000 } }) with
      surveyQueue := p.surveyQueue.filter (· != i), readCount := p.readCount + 1
      sent := p.sent ++ [.storeRead c y.storeAddress (min 32 y.blocks)] } := by
    unfold grantSurvey
    simp only [image']
    rfl
  rw [grantChannel_unrecorded unrecorded, ← survey, channel, queue]
  rfl

theorem grantChannel_none (idle : p.surveyQueue = [] ∨ p.surveyChannel = none) : grantChannel p = none := by
  rw [grantChannel_unrecorded unrecorded]
  obtain empty | full := idle
  · rw [empty]
    rfl
  · rw [full]
    cases p.surveyQueue.head? <;> rfl

end Surveys

theorem grantRound_grants {g : Part} (grants : grantChannel (pumpStreams p) = some g) : grantRound p = g := by
  unfold grantRound
  simp only [grants]

theorem grantRound_rests (rests : grantChannel (pumpStreams p) = none) : grantRound p = pumpStreams p := by
  unfold grantRound
  simp only [rests]

theorem pumpStreams_eq (p : Part) :
    pumpStreams p = pumpStream 3 (pumpStream 2 (pumpStream 1 (pumpStream 0 p))) := by
  simp only [pumpStreams, allChannels, List.foldl_cons, List.foldl_nil]

theorem settleStreams_eq (p : Part) :
    settleStreams p = pumpStreams (grantRound (grantRound (grantRound (grantRound p)))) := by
  simp only [settleStreams, allChannels, List.foldl_cons, List.foldl_nil]

/-- Settles O55: the window's operations, the split request, the grants and the channel arbiter, each as an explicit
update, and the rounds as the model's folds written out. -/
theorem streamEngine : Obligations.StreamEngine := by
  unfold Obligations.StreamEngine
  refine ⟨fun p c st y stream image => ?_, ⟨fun p c st stream => ?_, fun p q c y image => ?_,
    fun p old c st m stream slowest apart => ?_⟩, fun p => ?_⟩
  · intro due sending
    exact ⟨⟨_, rfl, sendChunks_leaves stream image⟩, fetchNext_reads stream image, fetchNext_rests stream image, _,
      moveTail_eq stream, tail_le_dueTail, dueTail_stays, fun windowed past below some' _ above =>
        dueTail_follows windowed past below some' above⟩
  · exact ⟨fun m => slowest_least, slowest_isSome, testSplit_asks stream, testSplit_withdraws stream, testSplit_rests stream⟩
  · exact ⟨_, rfl, grantStream_leaves image⟩
  · exact ⟨_, rfl, grantSplit_leaves stream slowest apart⟩
  · exact ⟨fun old rest c => grantChannel_split, fun q c => grantChannel_stream,
      fun i rest c y unrecorded => grantChannel_survey unrecorded, grantChannel_none, fun c => recordingChannel_iff,
      recordingChannel_none_iff, surveyChannel_reserved, surveyChannel_lowest, fun q => bestRequest_iff,
      bestRequest_none_iff, fun g => grantRound_grants, grantRound_rests, pumpStreams_eq p,
      settleStreams_eq p⟩

end Sys2Proof.Machine
end
